-- ==== Sys2Proof/Word.lean ====
section
/-! DEFINITION. The word types (R3, R29): bytes, 32-bit words and registers, 64-bit pairs. -/
namespace Sys2Proof

abbrev Byte := BitVec 8
abbrev Word := BitVec 32
abbrev DWord := BitVec 64

end Sys2Proof
end

