-- ==== Sys2Proof/Syntax.lean ====
section
/-! DEFINITION. The instructions and events of the opcode table: one constructor per row. The 224 rows with an
encoding carry the switch marker (R29, R32) and the fields of their form (Tables 3.1 to 3.5); the 99 rows without
one are the part's other steps (spec/95_what_each_step_holds.md) and carry what the event concerns. -/
namespace Sys2Proof

/-- 32-bit or 64-bit operands (R36). -/
inductive Width where
  | w32 | w64
  deriving DecidableEq, Repr

/-- Signed (i32) or unsigned (n32) reading of a 32-bit operand (R42). -/
inductive Sgn where
  | i32 | n32
  deriving DecidableEq, Repr

/-- Conditions of ISET and WAITV; codes 6 and 7 are reserved (Table 3.3). -/
inductive ICond where
  | eq | ne | lt | le | gt | ge
  deriving DecidableEq, Repr

/-- Conditions of FSET and DSET (Table 3.3). -/
inductive FCond where
  | eq | ne | lt | le | gt | ge | un | ord
  deriving DecidableEq, Repr

/-- Rounding modes (R48). -/
inductive Rm where
  | rne | rtz | rup | rdn
  deriving DecidableEq, Repr

/-- Floating-point formats (Table 4.2). -/
inductive Fmt where
  | f16 | bf16 | f32 | f64
  deriving DecidableEq, Repr

/-- Integer types of instruction sub-fields (Table 4.1). -/
inductive IntTy where
  | i8 | i16 | i32 | i64 | n8 | n16 | n32 | n64
  deriving DecidableEq, Repr

/-- Type field of ATOM in major 0x4E (R35, R36). -/
inductive AtomTy where
  | i32 | n32 | i64 | n64
  deriving DecidableEq, Repr

/-- Sizes of LD and LDS (Table 12.2); code 7 is reserved. -/
inductive LdQ where
  | n8 | i8 | n16 | i16 | b32 | b64 | b128
  deriving DecidableEq, Repr

/-- Sizes of ST and STS (Table 12.2); codes 1, 3 and 7 are reserved. -/
inductive StQ where
  | b8 | b16 | b32 | b64 | b128
  deriving DecidableEq, Repr

/-- Sizes of LDAQ, STRL and LDR; code 3 is reserved (R174, R175, R181). -/
inductive AccSize where
  | b32 | b64 | b128
  deriving DecidableEq, Repr

/-- Memory order of the SR layout (Table 3.4). -/
inductive Ord where
  | rlx | acq | rel | ar
  deriving DecidableEq, Repr

/-- Bobbin states (R183). -/
inductive BobState where
  | empty | winding | full | unwinding
  deriving DecidableEq, Repr

/-- Argument count of SOLICIT; 5 to 7 are reserved (R260). -/
inductive ArgCount where
  | c0 | c1 | c2 | c3 | c4
  deriving DecidableEq, Repr

/-- Combine operations of SOLICIT; codes 13 to 15 are reserved (R36, R266). -/
inductive Combine where
  | addI64 | addF64 | minI64 | minN64 | minF64 | maxI64 | maxN64 | maxF64
  | and64 | or64 | xor64 | first | count
  deriving DecidableEq, Repr

/-- A thread: its team (a number the model gives each placed team), its group and its home lane (R10). Groups
16 and 17 are the responder groups of quadrants 2 and 3 that run on a tile of the team (R262). -/
structure ThreadRef where
  team : Nat
  group : Nat
  lane : Nat
  deriving DecidableEq, Repr

/-- The storage that an error or a self-test concerns (Table 22.10). -/
inductive ErrorSite where
  /-- A register of a thread on a core: its budget number. -/
  | register (core : Nat) (th : ThreadRef) (reg : Nat)
  /-- A word of a team's scratchpad on a core. -/
  | scratch (core team word : Nat)
  /-- A line of a core's L1, by its place in the core's list of lines. -/
  | l1 (core line : Nat)
  /-- A tile register of a team on a core. -/
  | tile (core team tile : Nat)
  /-- A line of an L2 slice or memory-side cache, by its 64-byte line number; dirty or clean. -/
  | cacheLine (line : Nat) (dirty : Bool)
  /-- A directory entry of a stack: the registered string and the block whose entry it is. -/
  | directory (stack tenant handle block : Nat)
  /-- A row of a stack, by the 64-byte line number of the line in error. -/
  | row (line : Nat)
  /-- A lane of a stack channel: a lasting failure narrows the channel. -/
  | channelLane (stack channel : Nat)
  /-- A stack channel whose rows cannot be spared. -/
  | channelRows (stack channel : Nat)
  /-- Control or storage of a core that a lasting failure gives to a spare. -/
  | core (core : Nat)
  deriving DecidableEq, Repr

def Width.ofCode (c : BitVec 1) : Width := if c = 0 then .w32 else .w64
def Width.code : Width → BitVec 1 | .w32 => 0 | .w64 => 1
/-- Registers that an operand of this width names. -/
def Width.regs : Width → Nat | .w32 => 1 | .w64 => 2

def Sgn.ofCode (c : BitVec 1) : Sgn := if c = 0 then .i32 else .n32
def Sgn.code : Sgn → BitVec 1 | .i32 => 0 | .n32 => 1

def ICond.ofCode? (c : BitVec 3) : Option ICond :=
  match c.toNat with
  | 0 => some .eq | 1 => some .ne | 2 => some .lt | 3 => some .le | 4 => some .gt | 5 => some .ge | _ => none
def ICond.code : ICond → BitVec 3 | .eq => 0 | .ne => 1 | .lt => 2 | .le => 3 | .gt => 4 | .ge => 5

def FCond.ofCode (c : BitVec 3) : FCond :=
  match c.toNat with
  | 0 => .eq | 1 => .ne | 2 => .lt | 3 => .le | 4 => .gt | 5 => .ge | 6 => .un | _ => .ord
def FCond.code : FCond → BitVec 3
  | .eq => 0 | .ne => 1 | .lt => 2 | .le => 3 | .gt => 4 | .ge => 5 | .un => 6 | .ord => 7

def Rm.ofCode (c : BitVec 2) : Rm := match c.toNat with | 0 => .rne | 1 => .rtz | 2 => .rup | _ => .rdn
def Rm.code : Rm → BitVec 2 | .rne => 0 | .rtz => 1 | .rup => 2 | .rdn => 3

def Fmt.ofCode (c : BitVec 2) : Fmt := match c.toNat with | 0 => .f16 | 1 => .bf16 | 2 => .f32 | _ => .f64
def Fmt.code : Fmt → BitVec 2 | .f16 => 0 | .bf16 => 1 | .f32 => 2 | .f64 => 3
def Fmt.regs : Fmt → Nat | .f64 => 2 | _ => 1

def IntTy.ofCode (c : BitVec 3) : IntTy :=
  match c.toNat with
  | 0 => .i8 | 1 => .i16 | 2 => .i32 | 3 => .i64 | 4 => .n8 | 5 => .n16 | 6 => .n32 | _ => .n64
def IntTy.code : IntTy → BitVec 3
  | .i8 => 0 | .i16 => 1 | .i32 => 2 | .i64 => 3 | .n8 => 4 | .n16 => 5 | .n32 => 6 | .n64 => 7
def IntTy.regs : IntTy → Nat | .i64 => 2 | .n64 => 2 | _ => 1
def IntTy.width : IntTy → Nat
  | .i8 => 8 | .i16 => 16 | .i32 => 32 | .i64 => 64 | .n8 => 8 | .n16 => 16 | .n32 => 32 | .n64 => 64
def IntTy.signed : IntTy → Bool | .i8 => true | .i16 => true | .i32 => true | .i64 => true | _ => false

def AtomTy.ofCode (c : BitVec 2) : AtomTy := match c.toNat with | 0 => .i32 | 1 => .n32 | 2 => .i64 | _ => .n64
def AtomTy.code : AtomTy → BitVec 2 | .i32 => 0 | .n32 => 1 | .i64 => 2 | .n64 => 3
def AtomTy.regs : AtomTy → Nat | .i64 => 2 | .n64 => 2 | _ => 1

def LdQ.ofCode? (c : BitVec 3) : Option LdQ :=
  match c.toNat with
  | 0 => some .n8 | 1 => some .i8 | 2 => some .n16 | 3 => some .i16 | 4 => some .b32 | 5 => some .b64
  | 6 => some .b128 | _ => none
def LdQ.code : LdQ → BitVec 3
  | .n8 => 0 | .i8 => 1 | .n16 => 2 | .i16 => 3 | .b32 => 4 | .b64 => 5 | .b128 => 6
def LdQ.regs : LdQ → Nat | .b64 => 2 | .b128 => 4 | _ => 1
def LdQ.size : LdQ → Nat | .n8 => 1 | .i8 => 1 | .n16 => 2 | .i16 => 2 | .b32 => 4 | .b64 => 8 | .b128 => 16

def StQ.ofCode? (c : BitVec 3) : Option StQ :=
  match c.toNat with
  | 0 => some .b8 | 2 => some .b16 | 4 => some .b32 | 5 => some .b64 | 6 => some .b128 | _ => none
def StQ.code : StQ → BitVec 3 | .b8 => 0 | .b16 => 2 | .b32 => 4 | .b64 => 5 | .b128 => 6
def StQ.regs : StQ → Nat | .b64 => 2 | .b128 => 4 | _ => 1
def StQ.size : StQ → Nat | .b8 => 1 | .b16 => 2 | .b32 => 4 | .b64 => 8 | .b128 => 16

def AccSize.ofCode? (c : BitVec 2) : Option AccSize :=
  match c.toNat with | 0 => some .b32 | 1 => some .b64 | 2 => some .b128 | _ => none
def AccSize.code : AccSize → BitVec 2 | .b32 => 0 | .b64 => 1 | .b128 => 2
def AccSize.regs : AccSize → Nat | .b32 => 1 | .b64 => 2 | .b128 => 4

def Ord.ofCode (c : BitVec 2) : Ord := match c.toNat with | 0 => .rlx | 1 => .acq | 2 => .rel | _ => .ar
def Ord.code : Ord → BitVec 2 | .rlx => 0 | .acq => 1 | .rel => 2 | .ar => 3
def Ord.acquires : Ord → Bool | .acq => true | .ar => true | _ => false
def Ord.releases : Ord → Bool | .rel => true | .ar => true | _ => false

def BobState.ofCode (c : BitVec 2) : BobState :=
  match c.toNat with | 0 => .empty | 1 => .winding | 2 => .full | _ => .unwinding
def BobState.code : BobState → BitVec 2 | .empty => 0 | .winding => 1 | .full => 2 | .unwinding => 3

def ArgCount.ofCode? (c : BitVec 3) : Option ArgCount :=
  match c.toNat with
  | 0 => some .c0 | 1 => some .c1 | 2 => some .c2 | 3 => some .c3 | 4 => some .c4 | _ => none
def ArgCount.code : ArgCount → BitVec 3 | .c0 => 0 | .c1 => 1 | .c2 => 2 | .c3 => 3 | .c4 => 4
def ArgCount.toNat : ArgCount → Nat | .c0 => 0 | .c1 => 1 | .c2 => 2 | .c3 => 3 | .c4 => 4

def Combine.ofCode? (c : BitVec 4) : Option Combine :=
  match c.toNat with
  | 0 => some .addI64 | 1 => some .addF64 | 2 => some .minI64 | 3 => some .minN64 | 4 => some .minF64
  | 5 => some .maxI64 | 6 => some .maxN64 | 7 => some .maxF64 | 8 => some .and64 | 9 => some .or64
  | 10 => some .xor64 | 11 => some .first | 12 => some .count | _ => none
def Combine.code : Combine → BitVec 4
  | .addI64 => 0 | .addF64 => 1 | .minI64 => 2 | .minN64 => 3 | .minF64 => 4 | .maxI64 => 5 | .maxN64 => 6
  | .maxF64 => 7 | .and64 => 8 | .or64 => 9 | .xor64 => 10 | .first => 11 | .count => 12

inductive Instr where
  /-- IADD (R60). Adds two registers modulo 2^32 or, with .64, two pairs modulo 2^64. -/
  | iadd (sw : Bool) (d : BitVec 7) (a : BitVec 7) (b : BitVec 7) (w : Width)
  /-- IADD_SAT (R60). Adds two 32-bit values and clamps the result to the i32 or n32 range, setting FLAGS.SAT when it
  clamps. -/
  | iaddSat (sw : Bool) (d : BitVec 7) (a : BitVec 7) (b : BitVec 7) (t : Sgn)
  /-- ISUB (R60). Subtracts B from A modulo 2^32 or, with .64, modulo 2^64. -/
  | isub (sw : Bool) (d : BitVec 7) (a : BitVec 7) (b : BitVec 7) (w : Width)
  /-- ISUB_SAT (R60). Subtracts two 32-bit values and clamps the result to the i32 or n32 range, setting FLAGS.SAT
  when it clamps. -/
  | isubSat (sw : Bool) (d : BitVec 7) (a : BitVec 7) (b : BitVec 7) (t : Sgn)
  /-- IADD_IMM (R60). Adds an unsigned 10-bit constant to a register modulo 2^32. -/
  | iaddImm (sw : Bool) (d : BitVec 7) (a : BitVec 7) (i : BitVec 10)
  /-- IADDC (R61). Adds with a carry predicate that is read as the carry-in and written with the carry-out. -/
  | iaddc (sw : Bool) (d : BitVec 7) (a : BitVec 7) (b : BitVec 7) (c : BitVec 3)
  /-- ISUBB (R61). Subtracts with a borrow predicate that is read as the borrow-in and written with the borrow-out. -/
  | isubb (sw : Bool) (d : BitVec 7) (a : BitVec 7) (b : BitVec 7) (c : BitVec 3)
  /-- IMUL (R62). Keeps the low 32 or 64 bits of the product. -/
  | imul (sw : Bool) (d : BitVec 7) (a : BitVec 7) (b : BitVec 7) (w : Width)
  /-- IMULH (R62). Keeps the high 32 bits of the signed or unsigned 64-bit product. -/
  | imulh (sw : Bool) (d : BitVec 7) (a : BitVec 7) (b : BitVec 7) (t : Sgn)
  /-- IMAD (R60). Writes A times B plus D to D, modulo 2^w. -/
  | imad (sw : Bool) (d : BitVec 7) (a : BitVec 7) (b : BitVec 7) (w : Width)
  /-- IDIV (R63). Divides with the quotient truncated toward zero; division by zero gives all ones and does not trap. -/
  | idiv (sw : Bool) (d : BitVec 7) (a : BitVec 7) (b : BitVec 7) (t : Sgn)
  /-- IREM (R63). Gives the remainder of the truncating division, with the sign of the dividend. -/
  | irem (sw : Bool) (d : BitVec 7) (a : BitVec 7) (b : BitVec 7) (t : Sgn)
  /-- IMIN (R60). Writes the smaller of A and B, compared signed or unsigned. -/
  | imin (sw : Bool) (d : BitVec 7) (a : BitVec 7) (b : BitVec 7) (t : Sgn)
  /-- IMAX (R60). Writes the larger of A and B, compared signed or unsigned. -/
  | imax (sw : Bool) (d : BitVec 7) (a : BitVec 7) (b : BitVec 7) (t : Sgn)
  /-- IABS (R60). Writes the absolute value of A, modulo 2^32. -/
  | iabs (sw : Bool) (d : BitVec 7) (a : BitVec 7)
  /-- INEG (R60). Writes 0 minus A, modulo 2^32. -/
  | ineg (sw : Bool) (d : BitVec 7) (a : BitVec 7)
  /-- AND (R64). Writes the bitwise AND of A and B, on single registers or on pairs. -/
  | andR (sw : Bool) (d : BitVec 7) (a : BitVec 7) (b : BitVec 7) (w : Width)
  /-- OR (R64). Writes the bitwise OR of A and B, on single registers or on pairs. -/
  | orR (sw : Bool) (d : BitVec 7) (a : BitVec 7) (b : BitVec 7) (w : Width)
  /-- XOR (R64). Writes the bitwise XOR of A and B, on single registers or on pairs. -/
  | xorR (sw : Bool) (d : BitVec 7) (a : BitVec 7) (b : BitVec 7) (w : Width)
  /-- ANDN (R64). Writes A AND NOT B, on single registers or on pairs. -/
  | andnR (sw : Bool) (d : BitVec 7) (a : BitVec 7) (b : BitVec 7) (w : Width)
  /-- AND_IMM (R64). Writes A AND a sign-extended 10-bit constant. -/
  | andImm (sw : Bool) (d : BitVec 7) (a : BitVec 7) (i : BitVec 10)
  /-- ISUB_IMM (R60). Subtracts an unsigned 10-bit constant from a register modulo 2^32. -/
  | isubImm (sw : Bool) (d : BitVec 7) (a : BitVec 7) (i : BitVec 10)
  /-- SHL (R65). Shifts left by the amount held in register B, on 32 or 64 bits. -/
  | shl (sw : Bool) (d : BitVec 7) (a : BitVec 7) (b : BitVec 7) (w : Width)
  /-- SHR (R65). Shifts right logically by the amount held in register B, on 32 or 64 bits. -/
  | shr (sw : Bool) (d : BitVec 7) (a : BitVec 7) (b : BitVec 7) (w : Width)
  /-- SAR (R65). Shifts right arithmetically by the amount held in register B, on 32 or 64 bits. -/
  | sar (sw : Bool) (d : BitVec 7) (a : BitVec 7) (b : BitVec 7) (w : Width)
  /-- ROL (R65). Rotates a 32-bit value left by the amount held in register B, modulo 32. -/
  | rol (sw : Bool) (d : BitVec 7) (a : BitVec 7) (b : BitVec 7)
  /-- SHL_IMM (R65). Shifts left by a constant amount, on 32 or 64 bits. -/
  | shlImm (sw : Bool) (d : BitVec 7) (a : BitVec 7) (w : Width) (n : BitVec 6)
  /-- SHR_IMM (R65). Shifts right logically by a constant amount, on 32 or 64 bits. -/
  | shrImm (sw : Bool) (d : BitVec 7) (a : BitVec 7) (w : Width) (n : BitVec 6)
  /-- SAR_IMM (R65). Shifts right arithmetically by a constant amount, on 32 or 64 bits. -/
  | sarImm (sw : Bool) (d : BitVec 7) (a : BitVec 7) (w : Width) (n : BitVec 6)
  /-- ROL_IMM (R65). Rotates a 32-bit value left by a constant amount. -/
  | rolImm (sw : Bool) (d : BitVec 7) (a : BitVec 7) (n : BitVec 5)
  /-- POPC (R65). Counts the one bits of a register or, with .64, of a pair. -/
  | popc (sw : Bool) (d : BitVec 7) (a : BitVec 7) (w : Width)
  /-- CLZ (R65). Counts the leading zero bits of a 32-bit value. -/
  | clz (sw : Bool) (d : BitVec 7) (a : BitVec 7)
  /-- CTZ (R65). Counts the trailing zero bits of a 32-bit value. -/
  | ctz (sw : Bool) (d : BitVec 7) (a : BitVec 7)
  /-- BREV (R65). Reverses the bit order of a 32-bit value. -/
  | brev (sw : Bool) (d : BitVec 7) (a : BitVec 7)
  /-- BFX_N32 (R66). Extracts a bit field and zero-extends it. -/
  | bfxN32 (sw : Bool) (d : BitVec 7) (a : BitVec 7) (p : BitVec 5) (w : BitVec 5)
  /-- BFX_I32 (R66). Extracts a bit field and sign-extends it. -/
  | bfxI32 (sw : Bool) (d : BitVec 7) (a : BitVec 7) (p : BitVec 5) (w : BitVec 5)
  /-- BFI (R66). Inserts the low bits of A into a field of D and keeps the other bits of D. -/
  | bfi (sw : Bool) (d : BitVec 7) (a : BitVec 7) (p : BitVec 5) (w : BitVec 5)
  /-- ISET (R67). Compares two registers or pairs under a condition and writes a predicate. -/
  | iset (sw : Bool) (c : ICond) (g : Bool) (p : BitVec 3) (a : BitVec 7) (b : BitVec 7) (w : Width)
  /-- ISET_IMM (R67). Compares a register with a sign-extended 10-bit constant and writes a predicate. -/
  | isetImm (sw : Bool) (c : ICond) (g : Bool) (p : BitVec 3) (a : BitVec 7) (i : BitVec 10)
  /-- ISEL (R68). Selects A or B into D by a predicate. -/
  | isel (sw : Bool) (d : BitVec 7) (a : BitVec 7) (b : BitVec 7) (c : BitVec 3)
  /-- PSET_AND (R68). Writes the AND of two predicates to a predicate. -/
  | psetAnd (sw : Bool) (p : BitVec 3) (x : BitVec 3) (y : BitVec 3)
  /-- PSET_OR (R68). Writes the OR of two predicates to a predicate. -/
  | psetOr (sw : Bool) (p : BitVec 3) (x : BitVec 3) (y : BitVec 3)
  /-- PSET_XOR (R68). Writes the XOR of two predicates to a predicate. -/
  | psetXor (sw : Bool) (p : BitVec 3) (x : BitVec 3) (y : BitVec 3)
  /-- PSET_ANDN (R68). Writes pa AND NOT pb to a predicate. -/
  | psetAndn (sw : Bool) (p : BitVec 3) (x : BitVec 3) (y : BitVec 3)
  /-- MOV (R69). Copies a register or, with .64, a pair. -/
  | mov (sw : Bool) (d : BitVec 7) (a : BitVec 7) (w : Width)
  /-- MOVI (R69). Writes a sign-extended 17-bit constant. -/
  | movi (sw : Bool) (d : BitVec 7) (i : BitVec 17)
  /-- MOVH (R69). Writes a 17-bit constant to D[31:15] and keeps D[14:0]. -/
  | movh (sw : Bool) (d : BitVec 7) (i : BitVec 17)
  /-- LEA (R70). Adds a scaled, sign-extended register to an address pair. -/
  | lea (sw : Bool) (d : BitVec 7) (a : BitVec 7) (b : BitVec 7) (f : BitVec 3)
  /-- LEA_IMM (R70). Adds a sign-extended 10-bit constant to an address pair. -/
  | leaImm (sw : Bool) (d : BitVec 7) (a : BitVec 7) (i : BitVec 10)
  /-- GETS (R71). Copies a special register into a vector register or pair. -/
  | gets (sw : Bool) (d : BitVec 7) (i : BitVec 10)
  /-- SETS (R71). Writes FLAGS from a register; any other selector traps. -/
  | sets (sw : Bool) (a : BitVec 7) (i : BitVec 10)
  /-- SLICEOF (R72). Translates an address and writes where its line lives, without any access. -/
  | sliceof (sw : Bool) (d : BitVec 7) (a : BitVec 7)
  /-- FADD (R84). Adds two FP32 values with one rounding. -/
  | fadd (sw : Bool) (d : BitVec 7) (a : BitVec 7) (b : BitVec 7) (z : Bool) (r : Rm)
  /-- FSUB (R84). Subtracts two FP32 values with one rounding. -/
  | fsub (sw : Bool) (d : BitVec 7) (a : BitVec 7) (b : BitVec 7) (z : Bool) (r : Rm)
  /-- FMUL (R84). Multiplies two FP32 values with one rounding. -/
  | fmul (sw : Bool) (d : BitVec 7) (a : BitVec 7) (b : BitVec 7) (z : Bool) (r : Rm)
  /-- FFMA (R84). Computes A times B plus D in FP32 with a single rounding. -/
  | ffma (sw : Bool) (d : BitVec 7) (a : BitVec 7) (b : BitVec 7) (z : Bool) (r : Rm)
  /-- FMIN (R86). Writes the minimumNumber of two FP32 values. -/
  | fmin (sw : Bool) (d : BitVec 7) (a : BitVec 7) (b : BitVec 7)
  /-- FMAX (R86). Writes the maximumNumber of two FP32 values. -/
  | fmax (sw : Bool) (d : BitVec 7) (a : BitVec 7) (b : BitVec 7)
  /-- FSET (R87). Compares two FP32 values under a condition and writes a predicate. -/
  | fset (sw : Bool) (c : FCond) (p : BitVec 3) (a : BitVec 7) (b : BitVec 7) (z : Bool)
  /-- FSEL (R88). Selects the bits of A or B by a predicate, with no flag. -/
  | fsel (sw : Bool) (d : BitVec 7) (a : BitVec 7) (b : BitVec 7) (c : BitVec 3)
  /-- FRCP (R89). Writes the correctly rounded reciprocal of an FP32 value. -/
  | frcp (sw : Bool) (d : BitVec 7) (a : BitVec 7)
  /-- FRSQ (R89). Writes the correctly rounded reciprocal square root of an FP32 value. -/
  | frsq (sw : Bool) (d : BitVec 7) (a : BitVec 7)
  /-- FSQRT (R89). Writes the correctly rounded square root of an FP32 value. -/
  | fsqrt (sw : Bool) (d : BitVec 7) (a : BitVec 7)
  /-- FEXP2 (R89). Writes the correctly rounded 2^x of an FP32 value. -/
  | fexp2 (sw : Bool) (d : BitVec 7) (a : BitVec 7)
  /-- FLOG2 (R89). Writes the correctly rounded log2 x of an FP32 value. -/
  | flog2 (sw : Bool) (d : BitVec 7) (a : BitVec 7)
  /-- FSINP (R89). Writes the correctly rounded sin(pi x) of an FP32 value. -/
  | fsinp (sw : Bool) (d : BitVec 7) (a : BitVec 7)
  /-- FCOSP (R89). Writes the correctly rounded cos(pi x) of an FP32 value. -/
  | fcosp (sw : Bool) (d : BitVec 7) (a : BitVec 7)
  /-- FDIV (R84). Divides two FP32 values with one rounding. -/
  | fdiv (sw : Bool) (d : BitVec 7) (a : BitVec 7) (b : BitVec 7) (z : Bool) (r : Rm)
  /-- FRND (R90). Rounds an FP32 value to an integral FP32 value in the encoded mode. -/
  | frnd (sw : Bool) (d : BitVec 7) (a : BitVec 7) (r : Rm)
  /-- DADD (R91). Adds two FP64 pairs with one rounding. -/
  | dadd (sw : Bool) (d : BitVec 7) (a : BitVec 7) (b : BitVec 7) (r : Rm)
  /-- DMUL (R91). Multiplies two FP64 pairs with one rounding. -/
  | dmul (sw : Bool) (d : BitVec 7) (a : BitVec 7) (b : BitVec 7) (r : Rm)
  /-- DFMA (R91). Computes A times B plus D on FP64 pairs with a single rounding. -/
  | dfma (sw : Bool) (d : BitVec 7) (a : BitVec 7) (b : BitVec 7) (r : Rm)
  /-- DSET (R87). Compares two FP64 pairs under a condition and writes a predicate. -/
  | dset (sw : Bool) (c : FCond) (p : BitVec 3) (a : BitVec 7) (b : BitVec 7)
  /-- HPADD (R92). Adds two packed pairs of FP16 lanes, each lane rounded once. -/
  | hpadd (sw : Bool) (d : BitVec 7) (a : BitVec 7) (b : BitVec 7) (z : Bool) (r : Rm)
  /-- HPMUL (R92). Multiplies two packed pairs of FP16 lanes, each lane rounded once. -/
  | hpmul (sw : Bool) (d : BitVec 7) (a : BitVec 7) (b : BitVec 7) (z : Bool) (r : Rm)
  /-- HPFMA (R92). Computes a fused multiply-add on each FP16 lane, each lane rounded once. -/
  | hpfma (sw : Bool) (d : BitVec 7) (a : BitVec 7) (b : BitVec 7) (z : Bool) (r : Rm)
  /-- F2I (R93). Converts a floating-point value to an integer type, saturating and setting NV when out of range. -/
  | f2i (sw : Bool) (d : BitVec 7) (a : BitVec 7) (x : Fmt) (t : IntTy) (r : Rm)
  /-- I2F (R94). Converts an integer to a floating-point format with one rounding. -/
  | i2f (sw : Bool) (d : BitVec 7) (a : BitVec 7) (x : Fmt) (t : IntTy) (r : Rm)
  /-- F2F (R95). Converts between floating-point formats with one rounding. -/
  | f2f (sw : Bool) (d : BitVec 7) (a : BitVec 7) (x : Fmt) (y : Fmt) (z : Bool) (r : Rm)
  /-- QGRP (R97). Chooses a group's scale and zero point from its extremes through a format slot. -/
  | qgrp (sw : Bool) (d : BitVec 7) (a : BitVec 7) (b : BitVec 7) (f : BitVec 3)
  /-- QPACK (R98). Packs FP32 values into INT4 or INT8 elements under a group word. -/
  | qpack (sw : Bool) (d : BitVec 7) (a : BitVec 7) (b : BitVec 7) (f : BitVec 3)
  /-- QUNPK (R99). Unpacks INT4 or INT8 elements into FP32 values under a group word. -/
  | qunpk (sw : Bool) (d : BitVec 7) (a : BitVec 7) (b : BitVec 7) (f : BitVec 3)
  /-- SHFL_IDX (R74). Reads A from the lane of the ply that B names. -/
  | shflIdx (sw : Bool) (d : BitVec 7) (a : BitVec 7) (b : BitVec 7)
  /-- SHFL_UP (R74). Reads A from the lane of the ply that lies B lanes below. -/
  | shflUp (sw : Bool) (d : BitVec 7) (a : BitVec 7) (b : BitVec 7)
  /-- SHFL_DOWN (R74). Reads A from the lane of the ply that lies B lanes above. -/
  | shflDown (sw : Bool) (d : BitVec 7) (a : BitVec 7) (b : BitVec 7)
  /-- SHFL_XOR (R74). Reads A from the lane of the ply whose number is the own lane XOR B. -/
  | shflXor (sw : Bool) (d : BitVec 7) (a : BitVec 7) (b : BitVec 7)
  /-- VOTE_ANY (R75). Sets a predicate when the source predicate holds in any thread of the ply. -/
  | voteAny (sw : Bool) (p : BitVec 3) (x : BitVec 3)
  /-- VOTE_ALL (R75). Sets a predicate when the source predicate holds in every thread of the ply. -/
  | voteAll (sw : Bool) (p : BitVec 3) (x : BitVec 3)
  /-- VOTE_BALLOT (R75). Writes a 64-bit mask of the source predicate over the lanes of the ply. -/
  | voteBallot (sw : Bool) (d : BitVec 7) (x : BitVec 3)
  /-- MATCH (R76). Writes the mask of the ply's lanes whose A equals the thread's own. -/
  | matchLanes (sw : Bool) (d : BitVec 7) (a : BitVec 7) (w : Width)
  /-- ELECT (R75). Sets a predicate true only in the thread on the lowest lane of the ply. -/
  | elect (sw : Bool) (p : BitVec 3)
  /-- SCAN_ADD (R77). Writes the inclusive prefix sum over the ply in lane order. -/
  | scanAdd (sw : Bool) (d : BitVec 7) (a : BitVec 7)
  /-- SCAN_ADD_EX (R77). Writes the exclusive prefix sum over the ply in lane order. -/
  | scanAddEx (sw : Bool) (d : BitVec 7) (a : BitVec 7)
  /-- SCAN_MIN (R77). Writes the signed prefix minimum over the ply in lane order. -/
  | scanMin (sw : Bool) (d : BitVec 7) (a : BitVec 7)
  /-- SCAN_MAX (R77). Writes the signed prefix maximum over the ply in lane order. -/
  | scanMax (sw : Bool) (d : BitVec 7) (a : BitVec 7)
  /-- LMASK (R75). Writes the mask of the lanes that the ply holds. -/
  | lmask (sw : Bool) (d : BitVec 7)
  /-- BRA (R78). Sends each thread whose guard holds to the target; the ply may split. -/
  | bra (sw : Bool) (p : BitVec 3) (n : Bool) (o : BitVec 20)
  /-- BRC_ANY (R78). Sends the whole ply to the target when the guard holds in any of its threads. -/
  | brcAny (sw : Bool) (p : BitVec 3) (n : Bool) (o : BitVec 20)
  /-- BRC_ALL (R78). Sends the whole ply to the target when the guard holds in all of its threads. -/
  | brcAll (sw : Bool) (p : BitVec 3) (n : Bool) (o : BitVec 20)
  /-- CALL (R79). Writes the return address to v30:v31 and branches where the guard holds. -/
  | call (sw : Bool) (p : BitVec 3) (n : Bool) (o : BitVec 20)
  /-- RET (R79). Sends each thread to the address in its pair, marked as a return. -/
  | ret (sw : Bool) (a : BitVec 7)
  /-- JMPV (R79). Sends each thread to the address in its pair. -/
  | jmpv (sw : Bool) (a : BitVec 7)
  /-- WBASE (R80). Sets the thread's register window base. -/
  | wbase (sw : Bool) (k : BitVec 17)
  /-- NOP (R81). Has no effect. -/
  | nop (sw : Bool)
  /-- YIELD (R81). Gives up the group's active place when a ready pending group waits. -/
  | yield (sw : Bool)
  /-- EXIT (R81). Parks the thread as a switch point would, then makes it Exited and applies its exit to barriers and
  GSYNCs. -/
  | exitT (sw : Bool)
  /-- LD (R173). Loads 1 to 16 bytes on path P as a class-L result. -/
  | ld (sw : Bool) (d : BitVec 7) (a : BitVec 7) (i : BitVec 7) (q : LdQ)
  /-- ST (R173). Stores 1 to 16 bytes on path P, written through to the home slice. -/
  | st (sw : Bool) (d : BitVec 7) (a : BitVec 7) (i : BitVec 7) (q : StQ)
  /-- LDS (R173). Loads from the team's scratchpad as a class-L result. -/
  | lds (sw : Bool) (d : BitVec 7) (a : BitVec 7) (i : BitVec 7) (q : LdQ)
  /-- STS (R173). Stores to the team's scratchpad. -/
  | sts (sw : Bool) (d : BitVec 7) (a : BitVec 7) (i : BitVec 7) (q : StQ)
  /-- LDAQ (R174). Loads at the home slice as an acquire at its scope. -/
  | ldaq (sw : Bool) (d : BitVec 7) (a : BitVec 7) (z : AccSize) (f : BitVec 3)
  /-- STRL (R175). Waits as a release at its scope, then stores at the home slice. -/
  | strl (sw : Bool) (z : AccSize) (a : BitVec 7) (b : BitVec 7) (f : BitVec 3)
  /-- ATOM_ADD (R176). Adds at the home slice indivisibly and returns the old value. -/
  | atomAdd (sw : Bool) (o : Ord) (d : BitVec 5) (t : AtomTy) (a : BitVec 5) (b : BitVec 5) (f : BitVec 3)
  /-- ATOM_MIN (R176). Keeps the smaller value at the home slice indivisibly and returns the old value. -/
  | atomMin (sw : Bool) (o : Ord) (d : BitVec 5) (t : AtomTy) (a : BitVec 5) (b : BitVec 5) (f : BitVec 3)
  /-- ATOM_MAX (R176). Keeps the larger value at the home slice indivisibly and returns the old value. -/
  | atomMax (sw : Bool) (o : Ord) (d : BitVec 5) (t : AtomTy) (a : BitVec 5) (b : BitVec 5) (f : BitVec 3)
  /-- ATOM_ADD_F32 (R176). Adds an FP32 value at the home slice with one rounding and returns the old value. -/
  | atomAddF32 (sw : Bool) (o : Ord) (d : BitVec 5) (a : BitVec 5) (b : BitVec 5) (f : BitVec 3)
  /-- ATOM_AND (R176). ANDs at the home slice indivisibly and returns the old value. -/
  | atomAnd (sw : Bool) (o : Ord) (d : BitVec 5) (z : Width) (a : BitVec 5) (b : BitVec 5) (f : BitVec 3)
  /-- ATOM_OR (R176). ORs at the home slice indivisibly and returns the old value. -/
  | atomOr (sw : Bool) (o : Ord) (d : BitVec 5) (z : Width) (a : BitVec 5) (b : BitVec 5) (f : BitVec 3)
  /-- ATOM_XOR (R176). XORs at the home slice indivisibly and returns the old value. -/
  | atomXor (sw : Bool) (o : Ord) (d : BitVec 5) (z : Width) (a : BitVec 5) (b : BitVec 5) (f : BitVec 3)
  /-- ATOM_EXCH (R176). Exchanges at the home slice indivisibly and returns the old value. -/
  | atomExch (sw : Bool) (o : Ord) (d : BitVec 5) (z : Width) (a : BitVec 5) (b : BitVec 5) (f : BitVec 3)
  /-- CAS (R177). Compares and swaps at the home slice indivisibly and returns the old value. -/
  | cas (sw : Bool) (o : Ord) (d : BitVec 5) (z : Width) (a : BitVec 5) (b : BitVec 5) (f : BitVec 3)
  /-- RED_ADD (R178). Adds an i32 or i64 value at the home slice, returning nothing. -/
  | redAdd (sw : Bool) (o : Bool) (w : Width) (a : BitVec 7) (b : BitVec 7) (f : BitVec 3)
  /-- RED_ADD_F32 (R178). Adds an FP32 value at the home slice with one rounding, returning nothing. -/
  | redAddF32 (sw : Bool) (o : Bool) (a : BitVec 7) (b : BitVec 7) (f : BitVec 3)
  /-- RED_MIN_I32 (R178). Keeps the signed minimum at the home slice, returning nothing. -/
  | redMinI32 (sw : Bool) (o : Bool) (a : BitVec 7) (b : BitVec 7) (f : BitVec 3)
  /-- RED_MIN_N32 (R178). Keeps the unsigned minimum at the home slice, returning nothing. -/
  | redMinN32 (sw : Bool) (o : Bool) (a : BitVec 7) (b : BitVec 7) (f : BitVec 3)
  /-- RED_MAX_I32 (R178). Keeps the signed maximum at the home slice, returning nothing. -/
  | redMaxI32 (sw : Bool) (o : Bool) (a : BitVec 7) (b : BitVec 7) (f : BitVec 3)
  /-- RED_MAX_N32 (R178). Keeps the unsigned maximum at the home slice, returning nothing. -/
  | redMaxN32 (sw : Bool) (o : Bool) (a : BitVec 7) (b : BitVec 7) (f : BitVec 3)
  /-- RED_AND (R178). ANDs at the home slice, returning nothing. -/
  | redAnd (sw : Bool) (o : Bool) (a : BitVec 7) (b : BitVec 7) (f : BitVec 3)
  /-- RED_OR (R178). ORs at the home slice, returning nothing. -/
  | redOr (sw : Bool) (o : Bool) (a : BitVec 7) (b : BitVec 7) (f : BitVec 3)
  /-- RED_XOR (R178). XORs at the home slice, returning nothing. -/
  | redXor (sw : Bool) (o : Bool) (a : BitVec 7) (b : BitVec 7) (f : BitVec 3)
  /-- ATOMS_ADD (R179). Adds to a scratchpad word indivisibly at its bank and returns the old word. -/
  | atomsAdd (sw : Bool) (d : BitVec 7) (a : BitVec 7) (b : BitVec 7)
  /-- ATOMS_MIN_I32 (R179). Keeps the signed minimum in a scratchpad word and returns the old word. -/
  | atomsMinI32 (sw : Bool) (d : BitVec 7) (a : BitVec 7) (b : BitVec 7)
  /-- ATOMS_MAX_I32 (R179). Keeps the signed maximum in a scratchpad word and returns the old word. -/
  | atomsMaxI32 (sw : Bool) (d : BitVec 7) (a : BitVec 7) (b : BitVec 7)
  /-- ATOMS_MIN_N32 (R179). Keeps the unsigned minimum in a scratchpad word and returns the old word. -/
  | atomsMinN32 (sw : Bool) (d : BitVec 7) (a : BitVec 7) (b : BitVec 7)
  /-- ATOMS_MAX_N32 (R179). Keeps the unsigned maximum in a scratchpad word and returns the old word. -/
  | atomsMaxN32 (sw : Bool) (d : BitVec 7) (a : BitVec 7) (b : BitVec 7)
  /-- ATOMS_AND (R179). ANDs into a scratchpad word and returns the old word. -/
  | atomsAnd (sw : Bool) (d : BitVec 7) (a : BitVec 7) (b : BitVec 7)
  /-- ATOMS_OR (R179). ORs into a scratchpad word and returns the old word. -/
  | atomsOr (sw : Bool) (d : BitVec 7) (a : BitVec 7) (b : BitVec 7)
  /-- ATOMS_EXCH (R179). Exchanges a scratchpad word and returns the old word. -/
  | atomsExch (sw : Bool) (d : BitVec 7) (a : BitVec 7) (b : BitVec 7)
  /-- FENCE_ACQ (R180). Acts as an acquire on the named paths at its scope. -/
  | fenceAcq (sw : Bool) (m : BitVec 4) (f : BitVec 3)
  /-- FENCE_REL (R180). Acts as a release on the named paths at its scope, holding later operations. -/
  | fenceRel (sw : Bool) (m : BitVec 4) (f : BitVec 3)
  /-- FENCE_AR (R180). Acts as a release followed by an acquire on the named paths. -/
  | fenceAr (sw : Bool) (m : BitVec 4) (f : BitVec 3)
  /-- LDR (R181). Loads with a residency predicate, returning zero for a non-resident OPT page. -/
  | ldr (sw : Bool) (d : BitVec 7) (a : BitVec 7) (z : AccSize) (p : BitVec 3)
  /-- PREQ (R182). Posts a residency request for a non-resident OPT page. -/
  | preq (sw : Bool) (a : BitVec 7) (i : BitVec 7)
  /-- PREF_L1 (R182). Fills a line into the issuing core's L1. -/
  | prefL1 (sw : Bool) (a : BitVec 7) (i : BitVec 7)
  /-- PREF_L2 (R182). Brings a line into its home slice. -/
  | prefL2 (sw : Bool) (a : BitVec 7) (i : BitVec 7)
  /-- PREF_MSC (R182). Brings a line into its channel's memory-side cache. -/
  | prefMsc (sw : Bool) (a : BitVec 7) (i : BitVec 7)
  /-- LINV_LINE (R182). Invalidates one line in the core's L1 and fetch cache. -/
  | linvLine (sw : Bool) (a : BitVec 7) (i : BitVec 7)
  /-- LINV_CORE (R182). Invalidates the core's L1 and empties its fetch cache. -/
  | linvCore (sw : Bool)
  /-- LINV_CLUSTER (R182). Invalidates every L1 and fetch cache of the cluster. -/
  | linvCluster (sw : Bool)
  /-- BAR_SYNC (R245). Arrives at a team barrier and blocks until the phase completes. -/
  | barSync (sw : Bool) (x : BitVec 4)
  /-- BAR_ARRIVE (R245). Arrives at a team barrier and goes on. -/
  | barArrive (sw : Bool) (x : BitVec 4)
  /-- BAR_WAIT (R245). Blocks until the thread's arrived phase of a barrier completes. -/
  | barWait (sw : Bool) (x : BitVec 4)
  /-- BARSET (R245). Sets a barrier's expected count and exit mask. -/
  | barset (sw : Bool) (x : BitVec 4) (a : BitVec 7)
  /-- GSYNC (R248). Blocks the thread until every named live lane of its group stands at the GSYNC, mask from a pair. -/
  | gsync (sw : Bool) (a : BitVec 7)
  /-- GSYNC_IMM (R248). Blocks the thread until every named live lane stands at the GSYNC, mask from a constant. -/
  | gsyncImm (sw : Bool) (m : BitVec 14)
  /-- KSET_IMM (R105). Sets a knot's tie count from a constant, issuing owed operations when the count is reached. -/
  | ksetImm (sw : Bool) (k : BitVec 4) (c : BitVec 10)
  /-- KSET (R105). Sets a knot's tie count from a register, issuing owed operations when the count is reached. -/
  | kset (sw : Bool) (k : BitVec 4) (a : BitVec 7)
  /-- WAITV (R249). Blocks until a memory word meets a condition, then acquires at system scope. -/
  | waitv (sw : Bool) (c : ICond) (g : Bool) (a : BitVec 7) (b : BitVec 7) (w : Width)
  /-- SIGNAL (R253). Releases at device scope and counts one arrival at a barrier of another team of the grid. -/
  | signal (sw : Bool) (x : BitVec 4) (a : BitVec 7)
  /-- CPYIN (R187). Starts a copy from memory to scratchpad on path C, winding a bobbin. -/
  | cpyin (sw : Bool) (x : BitVec 5) (a : BitVec 7) (b : BitVec 7)
  /-- CPYOUT (R187). Starts a copy from scratchpad to memory on path C, unwinding a bobbin. -/
  | cpyout (sw : Bool) (x : BitVec 5) (a : BitVec 7) (b : BitVec 7)
  /-- CPY2D_IN (R188). Starts a strided copy of rows from memory into scratchpad. -/
  | cpy2dIn (sw : Bool) (x : BitVec 5) (a : BitVec 7) (b : BitVec 7)
  /-- CPY2D_OUT (R188). Starts a strided copy of rows from scratchpad to memory. -/
  | cpy2dOut (sw : Bool) (x : BitVec 5) (a : BitVec 7) (b : BitVec 7)
  /-- CPYMC (R191). Reads one block once and delivers it to the scratchpads of several teams of the grid. -/
  | cpymc (sw : Bool) (x : BitVec 5) (a : BitVec 7) (b : BitVec 7)
  /-- BOBSET (R185). Arms a bobbin for a landing of a given byte count. -/
  | bobset (sw : Bool) (x : BitVec 5) (a : BitVec 7)
  /-- BOBWAIT (R186). Blocks until a bobbin is in or passes through a named state, then returns its status word. -/
  | bobwait (sw : Bool) (d : BitVec 7) (x : BitVec 5) (bst : BobState)
  /-- BOBFREE (R184). Frees a bobbin as the transition table gives. -/
  | bobfree (sw : Bool) (x : BitVec 5)
  /-- BOBQ (R185). Returns a bobbin's status word at issue. -/
  | bobq (sw : Bool) (d : BitVec 7) (x : BitVec 5)
  /-- TLD (R109). Issues to the engine a load of 4 KiB from memory into a tile on path M. -/
  | tld (sw : Bool) (d : BitVec 7) (a : BitVec 7) (i : BitVec 7)
  /-- TLD_DR (R131). Issues a load of a tile in digit-reversed order under the transform configuration. -/
  | tldDr (sw : Bool) (d : BitVec 7) (a : BitVec 7) (i : BitVec 7)
  /-- TST (R109). Issues to the engine a store of a tile's data to memory on path M. -/
  | tst (sw : Bool) (d : BitVec 7) (a : BitVec 7) (i : BitVec 7)
  /-- TST_DR (R131). Issues a store of a tile in digit-reversed order under the transform configuration. -/
  | tstDr (sw : Bool) (d : BitVec 7) (a : BitVec 7) (i : BitVec 7)
  /-- TLDQ (R110). Issues a load of a quantised operand with its scales and zero points through a slot. -/
  | tldq (sw : Bool) (d : BitVec 7) (a : BitVec 7) (i : BitVec 7) (q : BitVec 3)
  /-- TZERO (R111). Issues a zeroing of a tile or an accumulator pair, side band included. -/
  | tzero (sw : Bool) (t : BitVec 4) (w : Bool)
  /-- TMMA (R112). Ties into a knot for a tile multiply that accumulates with one rounding per step. -/
  | tmma (sw : Bool) (k : BitVec 4) (d : BitVec 4) (a : BitVec 4) (b : BitVec 4) (f : BitVec 3)
  /-- TCVT (R113). Ties into a knot for a conversion of an accumulator pair into a tile. -/
  | tcvt (sw : Bool) (k : BitVec 4) (d : BitVec 4) (a : BitVec 4) (f : BitVec 3)
  /-- TGETF (R114). Reads one word of a tile or side band into a register after the scoreboard wait. -/
  | tgetf (sw : Bool) (d : BitVec 7) (t : BitVec 4) (b : BitVec 7)
  /-- TSETF (R114). Writes one word of a tile or side band from a register after the scoreboard wait. -/
  | tsetf (sw : Bool) (d : BitVec 7) (t : BitVec 4) (b : BitVec 7)
  /-- TMERGE_I64 (R116). Ties into a knot for an integer merge of an accumulator pair into a memory region. -/
  | tmergeI64 (sw : Bool) (k : BitVec 4) (m : BitVec 3) (a : BitVec 7) (b : BitVec 7)
  /-- TMERGE_F64 (R116). Ties into a knot for an FP64 merge applied in arrival order. -/
  | tmergeF64 (sw : Bool) (k : BitVec 4) (m : BitVec 3) (a : BitVec 7) (b : BitVec 7)
  /-- TMERGE_F64_ORD (R117). Ties into a knot for an FP64 merge applied in contribution-index order. -/
  | tmergeF64Ord (sw : Bool) (k : BitVec 4) (m : BitVec 3) (a : BitVec 7) (b : BitVec 7)
  /-- TMREAD (R118). Ties into a knot for a read of a merge region into an accumulator pair. -/
  | tmread (sw : Bool) (k : BitVec 4) (m : BitVec 3) (a : BitVec 7) (w : Bool)
  /-- TBFY (R125). Ties into a knot for one butterfly stage, advancing STAGE when it issues. -/
  | tbfy (sw : Bool) (k : BitVec 4) (d : BitVec 4) (a : BitVec 4)
  /-- TFCFG (R123). Checks and writes the team's transform configuration register. -/
  | tfcfg (sw : Bool) (a : BitVec 7)
  /-- TTWID (R121). Writes the twiddle pair G(k, M) from the generator. -/
  | ttwid (sw : Bool) (d : BitVec 7) (a : BitVec 7) (b : BitVec 7)
  /-- RANK0 (R205). Sends a RANK0 query on path N to the string's home stack. -/
  | rank0 (sw : Bool) (d : BitVec 7) (a : BitVec 7) (b : BitVec 7)
  /-- RANK1 (R205). Sends a RANK1 query on path N to the string's home stack. -/
  | rank1 (sw : Bool) (d : BitVec 7) (a : BitVec 7) (b : BitVec 7)
  /-- SEL0 (R205). Sends a SEL0 query on path N to the string's home stack. -/
  | sel0 (sw : Bool) (d : BitVec 7) (a : BitVec 7) (b : BitVec 7)
  /-- SEL1 (R205). Sends a SEL1 query on path N to the string's home stack. -/
  | sel1 (sw : Bool) (d : BitVec 7) (a : BitVec 7) (b : BitVec 7)
  /-- EXCESS (R205). Sends an EXCESS query on path N to the string's home stack. -/
  | excess (sw : Bool) (d : BitVec 7) (a : BitVec 7) (b : BitVec 7)
  /-- CLOSE (R205). Sends a CLOSE bracket query on path N to the string's home stack. -/
  | closeBr (sw : Bool) (d : BitVec 7) (a : BitVec 7) (b : BitVec 7)
  /-- OPEN (R205). Sends an OPEN bracket query on path N to the string's home stack. -/
  | openBr (sw : Bool) (d : BitVec 7) (a : BitVec 7) (b : BitVec 7)
  /-- ENCL (R205). Sends an ENCL bracket query on path N to the string's home stack. -/
  | enclBr (sw : Bool) (d : BitVec 7) (a : BitVec 7) (b : BitVec 7)
  /-- BINS (R206). Inserts up to 64 bits into a registered string, waiting at issue until checked. -/
  | bins (sw : Bool) (d : BitVec 7) (a : BitVec 7) (b : BitVec 7)
  /-- BDEL (R206). Removes up to 64 bits from a registered string, waiting at issue until checked. -/
  | bdel (sw : Bool) (d : BitVec 7) (a : BitVec 7) (b : BitVec 7)
  /-- SREG (R195). Registers a string from its descriptor and returns a handle or a refusal code. -/
  | sreg (sw : Bool) (d : BitVec 7) (a : BitVec 7)
  /-- SDROP (R207). Drops a registered string on path N and frees its handle and directory. -/
  | sdrop (sw : Bool) (a : BitVec 7)
  /-- SSTAT (R208). Returns the 128-bit status record of a string. -/
  | sstat (sw : Bool) (d : BitVec 7) (a : BitVec 7)
  /-- SSYNC (R209). Waits until every block is VALID, then writes LEN and UNBAL into the descriptor. -/
  | ssync (sw : Bool) (a : BitVec 7)
  /-- NMLOAD (R215). Reads and checks a near-memory program into the team's program store. -/
  | nmload (sw : Bool) (a : BitVec 7) (b : BitVec 7)
  /-- NMRUN (R216). Sends the program store over a range to the dispatcher, returning nothing. -/
  | nmrun (sw : Bool) (a : BitVec 7) (b : BitVec 7)
  /-- NMRUN_RET (R216). Sends the program store over a range and returns the combined accumulators as a class-L
  result. -/
  | nmrunRet (sw : Bool) (d : BitVec 7) (a : BitVec 7) (b : BitVec 7)
  /-- RED_NM_ADD (R219). Sends an i32 or i64 add on path N to the home slice's locality monitor. -/
  | redNmAdd (sw : Bool) (o : Bool) (w : Width) (a : BitVec 7) (b : BitVec 7) (f : BitVec 3)
  /-- RED_NM_ADD_F32 (R219). Sends an FP32 add on path N to the home slice's locality monitor. -/
  | redNmAddF32 (sw : Bool) (o : Bool) (a : BitVec 7) (b : BitVec 7) (f : BitVec 3)
  /-- RED_NM_MIN_I32 (R219). Sends a signed minimum on path N. -/
  | redNmMinI32 (sw : Bool) (o : Bool) (a : BitVec 7) (b : BitVec 7) (f : BitVec 3)
  /-- RED_NM_MIN_N32 (R219). Sends an unsigned minimum on path N. -/
  | redNmMinN32 (sw : Bool) (o : Bool) (a : BitVec 7) (b : BitVec 7) (f : BitVec 3)
  /-- RED_NM_MAX_I32 (R219). Sends a signed maximum on path N. -/
  | redNmMaxI32 (sw : Bool) (o : Bool) (a : BitVec 7) (b : BitVec 7) (f : BitVec 3)
  /-- RED_NM_MAX_N32 (R219). Sends an unsigned maximum on path N. -/
  | redNmMaxN32 (sw : Bool) (o : Bool) (a : BitVec 7) (b : BitVec 7) (f : BitVec 3)
  /-- RED_NM_OR (R219). Sends an OR on path N. -/
  | redNmOr (sw : Bool) (o : Bool) (a : BitVec 7) (b : BitVec 7) (f : BitVec 3)
  /-- RZERO (R222). Sends a zeroing of one DRAM row on path N. -/
  | rzero (sw : Bool) (a : BitVec 7)
  /-- RCOPY (R222). Sends a copy of one DRAM row to another on path N. -/
  | rcopy (sw : Bool) (a : BitVec 7) (b : BitVec 7)
  /-- SOLICIT (R260). Releases at its scope, sets a ticket PENDING and sends a key to the census root. -/
  | solicit (sw : Bool) (q : BitVec 4) (a : BitVec 7) (n : ArgCount) (c : Combine) (f : BitVec 3)
  /-- REPLY (R265). Records the responder's reply, first REPLY only. -/
  | reply (sw : Bool) (a : BitVec 7)
  /-- CWAIT (R268). Blocks until a ticket is DONE, then returns value, count and status and acquires. -/
  | cwait (sw : Bool) (d : BitVec 7) (q : BitVec 4)
  /-- CPOLL (R268). Sets a predicate when a ticket is not PENDING. -/
  | cpoll (sw : Bool) (p : BitVec 3) (q : BitVec 4)
  /-- TDADD (R258). Adds a LIVE tile directory entry for the team and returns its index or an error code. -/
  | tdadd (sw : Bool) (d : BitVec 7) (a : BitVec 7)
  /-- TDDEL (R259). Stops a LIVE entry of the team from matching and frees it once its responders end. -/
  | tddel (sw : Bool) (d : BitVec 7) (a : BitVec 7)
  /-- TDMOVE (R270). Moves a tile directory entry and its scratchpad range to another team's core. -/
  | tdmove (sw : Bool) (d : BitVec 7) (a : BitVec 7) (b : BitVec 7)
  /-- LAUNCH (R237). Releases at device scope and appends a launch record to a device queue. -/
  | launch (sw : Bool) (d : BitVec 7) (a : BitVec 7) (b : BitVec 7)
  /-- INTR (R238). Releases at system scope and sends an interrupt to the tenant's vector. -/
  | intr (sw : Bool) (k : BitVec 10)
  /-- TRAP (R297). Raises trap code 0x400 + k, precise. -/
  | trap (sw : Bool) (k : BitVec 10)
  /-- TRET_RE (R297). Leaves the handler, restores the frame and re-executes the trapped instruction. -/
  | tretRe (sw : Bool)
  /-- TRET_SKIP (R297). Leaves the handler, restores the frame and skips the trapped instruction. -/
  | tretSkip (sw : Bool)
  /-- BKPT (R297). Raises BREAKPOINT, precise. -/
  | bkpt (sw : Bool)
  /-- ISSUE_PLY (R240). In an issue cycle the quadrant forms one ply around the oldest Ready thread and issues its
  instruction. -/
  | issuePly (core : Nat) (quad : Nat)
  /-- INSTRUCTION_FETCH (R302). A fetch-cache miss fills the line through the cluster TLB with its translation and
  fetch checks. -/
  | instructionFetch (core : Nat) (tenant : Nat) (va : DWord)
  /-- CLASS_L_RESULT (R26). A class-L operation's result is written to its destination, and a thread parked on it may
  become Ready. -/
  | classLResult (th : ThreadRef) (op : Nat)
  /-- ACTIVE_HOLD_EXPIRED (R239). A group that has held its active place for 4,096 issue cycles while a pending group
  is ready leaves the active set. -/
  | activeHoldExpired (team : Nat) (group : Nat)
  /-- ENGINE_OPERATION (R103). The matrix engine performs the next queued operation of the lease holder to completion.
  -/
  | engineOperation (core : Nat)
  /-- MERGE_CONTRIBUTION (R116). A merge contribution reaches a word's home slice and is applied as one atomic step. -/
  | mergeContribution (id : Nat) (word : Nat)
  /-- ORDERED_MERGE_APPLY (R117). The anchor slice applies an ordered contribution once all lower indices are applied,
  or holds it. -/
  | orderedMergeApply (id : Nat)
  /-- HOME_SLICE_ACCESS (R158). A request reaches a line's home slice and is performed there in the line's order. -/
  | homeSliceAccess (id : Nat) (part : Nat)
  /-- WRITE_ACKNOWLEDGED (R151). A write is acknowledged by its home slice, lowering its group's count of
  unacknowledged writes. -/
  | writeAcknowledged (id : Nat)
  /-- MERGING_FILL (R139). A merging fill returns a line and installs only the words still invalid in the L1. -/
  | mergingFill (id : Nat)
  /-- PAGE_WALK (R286). A TLB miss walks the tenant's four-level page table at home slices and checks the entries. -/
  | pageWalk (cluster : Nat) (tenant : Nat) (va : DWord)
  /-- CONTROLLER_AGE_CAP (R146). A request older than the age cap becomes urgent, and no younger request to its
  channel issues ahead of it. -/
  | controllerAgeCap (id : Nat)
  /-- COPY_RETIRE (R187). A copy retires when every byte has landed or every write is acknowledged, moving its bobbin.
  -/
  | copyRetire (id : Nat)
  /-- COPY_FAULT_STOP (R190). A copy meeting PERMISSION or ISOLATION stops with STATUS FAULT and an imprecise group
  fault. -/
  | copyFaultStop (id : Nat)
  /-- MULTICAST_DELIVERY (R191). A multicast delivery reaches its target team and lands, waits for restore, or is
  dropped. -/
  | multicastDelivery (id : Nat) (target : Nat)
  /-- SUC_WRITE_MARK (R200). A write to a registered string's line is marked at the home stack's splicer before it is
  acknowledged. -/
  | sucWriteMark (id : Nat) (part : Nat)
  /-- SPLICER_REPAIR (R201). The splicer takes a STALE block from its queue, recounts it and updates the directory
  paths and UNBAL. -/
  | splicerRepair (stack : Nat)
  /-- SUCCINCT_QUERY (R202). A query reaches the home stack, is admitted in program order and answered once its
  dependence set is VALID. -/
  | succinctQuery (id : Nat)
  /-- STRING_UPDATE_PERFORM (R206). The home stack checks and performs a BINS or BDEL once earlier operations are done
  and every block is VALID. -/
  | stringUpdatePerform (id : Nat)
  /-- SDROP_PERFORM (R207). The home stack performs a string drop after every earlier N-path operation on the string. -/
  | sdropPerform (id : Nat)
  /-- NM_SEGMENT_RUN (R214). A near-memory unit runs a segment column by column through the command's program body. -/
  | nmSegmentRun (id : Nat)
  /-- NM_COMMAND_RETIRE (R216). A command retires when every unit it opened has closed, combining A0 for .RET. -/
  | nmCommandRetire (id : Nat)
  /-- NM_COMMAND_FAULT (R217). A fault in a running command parks it with units saving state, or stops it. -/
  | nmCommandFault (id : Nat)
  /-- RED_NM_PLACE (R220). The locality monitor performs a near reduction at the slice ALU or forwards it to the
  channel unit. -/
  | redNmPlace (id : Nat)
  /-- ROW_OPERATION_PERFORM (R223). A row operation takes effect at the home slices and is performed by the stack as
  one write per line. -/
  | rowOperationPerform (id : Nat)
  /-- CHANNEL_POWER_ENTRY (R225). A channel enters a requested power state once its commands have retired and open
  units have saved state. -/
  | channelPowerEntry (stack : Nat) (channel : Nat)
  /-- CHANNEL_WAKE (R342). An access reaching a channel in self-refresh or power-down wakes it to serve the waiting
  requests. -/
  | channelWake (stack : Nat) (channel : Nat)
  /-- CHANNEL_IDLE_TIMEOUT (R342). After 10 µs without an access a woken channel enters its requested state again. -/
  | channelIdleTimeout (stack : Nat) (channel : Nat)
  /-- CHPWR_ACTIVE (R342). A CHPWR write of REQ 0 makes the channel leave its power state and serve waiting requests. -/
  | chpwrActive (stack : Nat) (channel : Nat)
  /-- CHPWR_SELF_REFRESH (R342). A CHPWR write of REQ 1 starts entry to self-refresh. -/
  | chpwrSelfRefresh (stack : Nat) (channel : Nat)
  /-- CHPWR_POWER_DOWN (R342). A CHPWR write of REQ 2 starts entry to power-down. -/
  | chpwrPowerDown (stack : Nat) (channel : Nat)
  /-- THERMAL_SELF_REFRESH (R342). The Valern controller places a channel in self-refresh under a thermal limit and
  returns it when clear. -/
  | thermalSelfRefresh (stack : Nat) (channel : Nat) (hot : Bool)
  /-- QCTL_WRITE (R229). A QCTL write enables a launch queue after checking its QCB, or stops dispatch from it. -/
  | qctlWrite (q : Nat) (v : DWord)
  /-- QUEUE_WATCH_WAKE (R229). A write to a watched TAIL or wait-counter line wakes the queue manager to re-read it. -/
  | queueWatchWake (q : Nat)
  /-- RECORD_DISPATCH (R233). An eligible record at the dispatch point is checked, then refused or made a placing
  grid. -/
  | recordDispatch (q : Nat)
  /-- TEAM_PLACE (R234). When room appears, the managers offer it and place one team on a fitting allowed core. -/
  | teamPlace
  /-- TEAM_END (R235). A team whose groups have all ended releases at system scope and frees its resources. -/
  | teamEnd (team : Nat)
  /-- STOP_REPORT (R236). A team's stop report reaches the queue manager, which records the first stopped team and
  stops placing. -/
  | stopReport (team : Nat)
  /-- QUEUE_MANAGER_ACCESS (R345). A manager access to tenant memory is translated and checked, and a failure waits,
  fails or stops the queue. -/
  | queueManagerAccess (q : Nat)
  /-- PRIORITY_GRACE_EXPIRED (R241). After 20 µs with a higher-priority team unplaced, lower-priority victims are
  chosen for preemption. -/
  | priorityGraceExpired (grid : Nat)
  /-- TIME_SLICE_EXPIRED (R241). A team resident for its tenant's TSLICE is chosen for preemption when a waiting team
  needs its core. -/
  | timeSliceExpired (team : Nat)
  /-- TEAM_SAVE (R242). A preempted team is saved to its save area once its queue, queries and waits have completed. -/
  | teamSave (team : Nat)
  /-- WAITV_WAKE (R250). A write performed on a watched line wakes its waiters to read the word again. -/
  | waitvWake (th : ThreadRef)
  /-- WAITV_POLL (R250). A waiter without a free watch reads its word again every 1,024 cycles. -/
  | waitvPoll (th : ThreadRef)
  /-- BARRIER_STALL (R251). A blocked thread whose wait reaches WDOG times 1,024 cycles raises BARRIER_STALL. -/
  | barrierStall (th : ThreadRef)
  /-- SIGNAL_APPLY (R253). A signal reaches its target's locator entry and counts an arrival in the running or saved
  barrier. -/
  | signalApply (th : ThreadRef)
  /-- SOLICIT_ADMIT (R261). A core admits a solicit into its queue, examines its directory and reports its spawn
  count. -/
  | solicitAdmit (id : Nat) (core : Nat)
  /-- RESPONDER_START (R262). A spawn becomes a responder group in a free responder slot and acquires at the solicit's
  scope. -/
  | responderStart (core : Nat)
  /-- RESPONDER_END (R265). A responder whose threads have all exited releases and reports its completion with any
  reply. -/
  | responderEnd (team : Nat) (group : Nat)
  /-- CENSUS_COMPLETE (R267). A ticket becomes DONE when every reached core has reported and completions equal spawns.
  -/
  | censusComplete (id : Nat)
  /-- FORWARD_ARRIVE (R271). A forwarded solicit reaches its destination core and spawns, or is settled as an error. -/
  | forwardArrive (id : Nat)
  /-- MOVE_REGISTER (R271). After the move copy retires the destination entry becomes LIVE and the move is registered.
  -/
  | moveRegister (id : Nat)
  /-- SOURCE_ENTRY_GONE (R271). A FORWARD source entry becomes GONE once every early census has completed. -/
  | sourceEntryGone (core : Nat) (entry : Nat)
  /-- ENTRY_GONE (R259). A deleted entry becomes GONE when every responder admitted on it has ended. -/
  | entryGone (core : Nat) (entry : Nat)
  /-- TROOT_WRITE (R282). A TROOT write binds or disables a tenant's address space, or is ignored. -/
  | trootWrite (tenant : Nat) (v : DWord)
  /-- CLUSOWN_WRITE (R284). A CLUSOWN write that changes the owner starts a change of owner. -/
  | clusownWrite (cluster : Nat) (v : Word)
  /-- CLUSTER_RESPONDER_TIMEOUT (R284). A responder still running 1,000,000 cycles into a change of owner ends with
  ISOLATION. -/
  | clusterResponderTimeout (cluster : Nat)
  /-- OWNER_CHANGE_COMPLETE (R284). Once the cluster's operations retire its state is wiped and the new owner takes
  it. -/
  | ownerChangeComplete (cluster : Nat)
  /-- TCLEAR_WRITE (R285). A TCLEAR write clears a tenant's strings, records, saved teams and faults, or is refused. -/
  | tclearWrite (tenant : Nat) (v : DWord)
  /-- INVCTL_WRITE (R290). An INVCTL write drops a tenant's translations and lines in the range or whole space. -/
  | invctlWrite (tenant : Nat) (v : DWord)
  /-- INVALIDATION_COMPLETE (R290). Once every access using a dropped translation is performed, INVCTL.BUSY clears. -/
  | invalidationComplete (tenant : Nat)
  /-- FQBASE_WRITE (R299). An FQBASE write enables or disables a tenant's fault queue. -/
  | fqbaseWrite (tenant : Nat) (v : DWord)
  /-- FRES_RETRY (R301). FRES RETRY makes every access parked on the record translate again and replay. -/
  | fresRetry (tenant : Nat) (seq : Word)
  /-- FRES_FAIL (R301). FRES FAIL makes every access parked on the record fail with PAGE_FAULT. -/
  | fresFail (tenant : Nat) (seq : Word)
  /-- FRES_ACK (R301). FRES ACK frees a PREQ, link or attribution record and retries any other kind. -/
  | fresAck (tenant : Nat) (seq : Word)
  /-- LOST_WRITE (R303). A write that fails after leaving its thread posts an attribution record and an imprecise
  group fault. -/
  | lostWrite (id : Nat)
  /-- CXL_REQUEST_TIMEOUT (R305). A CXL.cache request outstanding for 2^26 port cycles times out, poisoning reads and
  losing writes. -/
  | cxlRequestTimeout (id : Nat)
  /-- CXL_LINK_DOWN (R305). The CXL link going down completes outstanding host-memory accesses as poisoned or lost and
  posts link events. -/
  | cxlLinkDown
  /-- FLALEN_LINK_DOWN (R334). A Flalen link going down completes accesses over it as poisoned or lost and posts link
  events. -/
  | flalenLinkDown (link : Nat)
  /-- HOST_MEM_READ (R168). A host CXL.mem read is performed at the line's home slice, or returns zeros in the
  carve-out. -/
  | hostMemRead (off : Nat) (len : Nat)
  /-- HOST_MEM_WRITE (R168). A host CXL.mem write is performed at the line's home slice, or is dropped in the
  carve-out and logged. -/
  | hostMemWrite (off : Nat) (bytes : List Byte)
  /-- PEER_REQUEST (R169). A request from a peer package over a Flalen link is performed at this package's home slice.
  -/
  | peerRequest (die : Nat) (a : Nat) (write : Bool) (bytes : List Byte)
  /-- HOST_SNOOP (R332). A host snoop of a host-memory line is answered with no data. -/
  | hostSnoop (pa : Nat)
  /-- CORECTL_ATTACH (R308). A CORECTL write of ATTACH makes a team-stopping trap halt the core instead. -/
  | corectlAttach (core : Nat) (on : Bool)
  /-- CORECTL_HALT (R308). A CORECTL write of HALT stops or resumes issue of the core's ordinary groups. -/
  | corectlHalt (core : Nat) (on : Bool)
  /-- CORECTL_STEP (R308). A CORECTL STEP while halted issues the one ply formed around the selected thread. -/
  | corectlStep (core : Nat) (quad : Nat) (place : Nat) (lane : Nat)
  /-- CORECTL_RESET (R313). A CORECTL RESET loses the core's teams, completes its spawns as errors and wipes its SRAM.
  -/
  | corectlReset (core : Nat)
  /-- CORECTL_PGATE (R343). A CORECTL PGATE write starts power gating or waking of the core. -/
  | corectlPgate (core : Nat) (on : Bool)
  /-- CORE_GATED (R343). After saving teams and ending responders the core's SRAM is wiped and it becomes gated. -/
  | coreGated (core : Nat)
  /-- CORE_WOKEN (R343). A waking core powers up, tests its storage and takes placements again. -/
  | coreWoken (core : Nat)
  /-- DEBUG_WINDOW_WRITE (R336). A write to a core's debug window changes the selected thread's state while the core
  is halted. -/
  | debugWindowWrite (core : Nat) (off : Nat) (v : Word)
  /-- CORE_LOST (R313). The Valern controller resets a core whose control state is lost. -/
  | coreLost (core : Nat)
  /-- UNCORRECTABLE_ERROR (R309). An uncorrectable storage error poisons, refetches or rebuilds the affected data. -/
  | uncorrectableError (site : ErrorSite)
  /-- CORRECTED_ERROR (R309). A corrected storage error is logged and schedules a targeted self-test. -/
  | correctedError (site : ErrorSite)
  /-- SELF_TEST (R309). The Valern controller self-tests the row, bank or lane and applies a lasting repair on
  failure. -/
  | selfTest (site : ErrorSite) (lasting : Bool)
  /-- SUCCINCT_UNIT_FAILURE (R312). A failure of a stack's succinct unit makes its strings answer with poisoned
  results. -/
  | succinctUnitFailure (stack : Nat)
  /-- COLD_RESET (R314). A cold reset checks the firmware and wipes the package before any program or host access. -/
  | coldReset
  /-- LCREQ_WRITE (R338). An LCREQ write requests a life-cycle change, which is refused or wipes and cold-resets the
  package. -/
  | lcreqWrite (v : DWord)
  /-- MAILBOX_BEGIN (R339). BEGIN opens a mailbox object of the given kind and length. -/
  | mailboxBegin
  /-- MAILBOX_CHUNK (R339). CHUNK copies a chunk from the window into the object at the expected offset. -/
  | mailboxChunk
  /-- MAILBOX_COMMIT (R339). COMMIT checks the complete object's signature and kind and accepts or refuses it. -/
  | mailboxCommit
  /-- MAILBOX_ABORT (R339). ABORT discards the mailbox object. -/
  | mailboxAbort
  /-- TINTR_WRITE (R333). A TINTR write sets a tenant's interrupt vectors, or is ignored as a whole. -/
  | tintrWrite (tenant : Nat) (v : DWord)
  /-- EVTTAIL_WRITE (R335). A host write of zero clears the event ring's overflow bit. -/
  | evttailWrite (v : DWord)
  /-- REEF_STEP_DOWN (R340). A power, thermal or current limit steps the arithmetic clock down one unit. -/
  | reefStepDown
  /-- REEF_STEP_UP (R340). After a limit has stayed clear for 1 ms the arithmetic clock steps back up. -/
  | reefStepUp
  /-- REGISTER_WRITE (R146). A write to a management register with no behaviour of its own stores its writable fields.
  -/
  | registerWrite (off : Nat) (v : DWord)
  /-- TENANT_CLEAR_COMPLETE (R285). When a tenant clear has dropped its strings, records, saved teams, faults and
  translations, TCLEAR.BUSY returns to 0. -/
  | tenantClearComplete (tenant : Nat)
  /-- MAILBOX_COMMAND_COMPLETE (R339). A running mailbox command finishes, setting its RESULT and clearing BUSY. -/
  | mailboxCommandComplete
  deriving DecidableEq, Repr

end Sys2Proof
end

