-- ==== Sys2Proof/WellFormed.lean ====
section
/-! DEFINITION. What an instruction names, and the checks on it that need no state: the operand shapes of R30 (order
4 of Table 3.6), the scopes of R35 (order 5) and the must-be-zero bit of the immediate shifts (R64, order 3). -/
namespace Sys2Proof

/-- What an instruction does with a register it names: reads it, writes it, both, or neither (a register that the
operand's field covers and the instruction does not read, R98, R206, R260). -/
inductive Role where
  | src | dst | both | named
  deriving DecidableEq, Repr

/-- A vector operand: the windowed names first to first + count - 1; the first must be a multiple of align (R30). -/
structure RegOperand where
  first : Nat
  count : Nat
  align : Nat
  role : Role
  deriving DecidableEq, Repr

/-- A tile operand: count tiles from first; an accumulator is an aligned pair (R20, R30). -/
structure TileOperand where
  first : Nat
  count : Nat
  align : Nat
  deriving DecidableEq, Repr

/-- The vector registers each instruction names, in the order destination, A, B (Table 3.5). -/
def Instr.regOperands : Instr → List RegOperand
  | .iadd _ d a b w => [⟨d.toNat, w.regs, w.regs, .dst⟩, ⟨a.toNat, w.regs, w.regs, .src⟩, ⟨b.toNat, w.regs, w.regs, .src⟩]
  | .iaddSat _ d a b _ => [⟨d.toNat, 1, 1, .dst⟩, ⟨a.toNat, 1, 1, .src⟩, ⟨b.toNat, 1, 1, .src⟩]
  | .isub _ d a b w => [⟨d.toNat, w.regs, w.regs, .dst⟩, ⟨a.toNat, w.regs, w.regs, .src⟩, ⟨b.toNat, w.regs, w.regs, .src⟩]
  | .isubSat _ d a b _ => [⟨d.toNat, 1, 1, .dst⟩, ⟨a.toNat, 1, 1, .src⟩, ⟨b.toNat, 1, 1, .src⟩]
  | .iaddImm _ d a _ => [⟨d.toNat, 1, 1, .dst⟩, ⟨a.toNat, 1, 1, .src⟩]
  | .iaddc _ d a b _ => [⟨d.toNat, 1, 1, .dst⟩, ⟨a.toNat, 1, 1, .src⟩, ⟨b.toNat, 1, 1, .src⟩]
  | .isubb _ d a b _ => [⟨d.toNat, 1, 1, .dst⟩, ⟨a.toNat, 1, 1, .src⟩, ⟨b.toNat, 1, 1, .src⟩]
  | .imul _ d a b w => [⟨d.toNat, w.regs, w.regs, .dst⟩, ⟨a.toNat, w.regs, w.regs, .src⟩, ⟨b.toNat, w.regs, w.regs, .src⟩]
  | .imulh _ d a b _ => [⟨d.toNat, 1, 1, .dst⟩, ⟨a.toNat, 1, 1, .src⟩, ⟨b.toNat, 1, 1, .src⟩]
  | .imad _ d a b w => [⟨d.toNat, w.regs, w.regs, .both⟩, ⟨a.toNat, w.regs, w.regs, .src⟩, ⟨b.toNat, w.regs, w.regs, .src⟩]
  | .idiv _ d a b _ => [⟨d.toNat, 1, 1, .dst⟩, ⟨a.toNat, 1, 1, .src⟩, ⟨b.toNat, 1, 1, .src⟩]
  | .irem _ d a b _ => [⟨d.toNat, 1, 1, .dst⟩, ⟨a.toNat, 1, 1, .src⟩, ⟨b.toNat, 1, 1, .src⟩]
  | .imin _ d a b _ => [⟨d.toNat, 1, 1, .dst⟩, ⟨a.toNat, 1, 1, .src⟩, ⟨b.toNat, 1, 1, .src⟩]
  | .imax _ d a b _ => [⟨d.toNat, 1, 1, .dst⟩, ⟨a.toNat, 1, 1, .src⟩, ⟨b.toNat, 1, 1, .src⟩]
  | .iabs _ d a => [⟨d.toNat, 1, 1, .dst⟩, ⟨a.toNat, 1, 1, .src⟩]
  | .ineg _ d a => [⟨d.toNat, 1, 1, .dst⟩, ⟨a.toNat, 1, 1, .src⟩]
  | .andR _ d a b w => [⟨d.toNat, w.regs, w.regs, .dst⟩, ⟨a.toNat, w.regs, w.regs, .src⟩, ⟨b.toNat, w.regs, w.regs, .src⟩]
  | .orR _ d a b w => [⟨d.toNat, w.regs, w.regs, .dst⟩, ⟨a.toNat, w.regs, w.regs, .src⟩, ⟨b.toNat, w.regs, w.regs, .src⟩]
  | .xorR _ d a b w => [⟨d.toNat, w.regs, w.regs, .dst⟩, ⟨a.toNat, w.regs, w.regs, .src⟩, ⟨b.toNat, w.regs, w.regs, .src⟩]
  | .andnR _ d a b w => [⟨d.toNat, w.regs, w.regs, .dst⟩, ⟨a.toNat, w.regs, w.regs, .src⟩, ⟨b.toNat, w.regs, w.regs, .src⟩]
  | .andImm _ d a _ => [⟨d.toNat, 1, 1, .dst⟩, ⟨a.toNat, 1, 1, .src⟩]
  | .isubImm _ d a _ => [⟨d.toNat, 1, 1, .dst⟩, ⟨a.toNat, 1, 1, .src⟩]
  | .shl _ d a b w => [⟨d.toNat, w.regs, w.regs, .dst⟩, ⟨a.toNat, w.regs, w.regs, .src⟩, ⟨b.toNat, 1, 1, .src⟩]
  | .shr _ d a b w => [⟨d.toNat, w.regs, w.regs, .dst⟩, ⟨a.toNat, w.regs, w.regs, .src⟩, ⟨b.toNat, 1, 1, .src⟩]
  | .sar _ d a b w => [⟨d.toNat, w.regs, w.regs, .dst⟩, ⟨a.toNat, w.regs, w.regs, .src⟩, ⟨b.toNat, 1, 1, .src⟩]
  | .rol _ d a b => [⟨d.toNat, 1, 1, .dst⟩, ⟨a.toNat, 1, 1, .src⟩, ⟨b.toNat, 1, 1, .src⟩]
  | .shlImm _ d a w _ => [⟨d.toNat, w.regs, w.regs, .dst⟩, ⟨a.toNat, w.regs, w.regs, .src⟩]
  | .shrImm _ d a w _ => [⟨d.toNat, w.regs, w.regs, .dst⟩, ⟨a.toNat, w.regs, w.regs, .src⟩]
  | .sarImm _ d a w _ => [⟨d.toNat, w.regs, w.regs, .dst⟩, ⟨a.toNat, w.regs, w.regs, .src⟩]
  | .rolImm _ d a _ => [⟨d.toNat, 1, 1, .dst⟩, ⟨a.toNat, 1, 1, .src⟩]
  | .popc _ d a w => [⟨d.toNat, 1, 1, .dst⟩, ⟨a.toNat, w.regs, w.regs, .src⟩]
  | .clz _ d a => [⟨d.toNat, 1, 1, .dst⟩, ⟨a.toNat, 1, 1, .src⟩]
  | .ctz _ d a => [⟨d.toNat, 1, 1, .dst⟩, ⟨a.toNat, 1, 1, .src⟩]
  | .brev _ d a => [⟨d.toNat, 1, 1, .dst⟩, ⟨a.toNat, 1, 1, .src⟩]
  | .bfxN32 _ d a _ _ => [⟨d.toNat, 1, 1, .dst⟩, ⟨a.toNat, 1, 1, .src⟩]
  | .bfxI32 _ d a _ _ => [⟨d.toNat, 1, 1, .dst⟩, ⟨a.toNat, 1, 1, .src⟩]
  | .bfi _ d a _ _ => [⟨d.toNat, 1, 1, .both⟩, ⟨a.toNat, 1, 1, .src⟩]
  | .iset _ _ _ _ a b w => [⟨a.toNat, w.regs, w.regs, .src⟩, ⟨b.toNat, w.regs, w.regs, .src⟩]
  | .isetImm _ _ _ _ a _ => [⟨a.toNat, 1, 1, .src⟩]
  | .isel _ d a b _ => [⟨d.toNat, 1, 1, .dst⟩, ⟨a.toNat, 1, 1, .src⟩, ⟨b.toNat, 1, 1, .src⟩]
  | .psetAnd _ _ _ _ => []
  | .psetOr _ _ _ _ => []
  | .psetXor _ _ _ _ => []
  | .psetAndn _ _ _ _ => []
  | .mov _ d a w => [⟨d.toNat, w.regs, w.regs, .dst⟩, ⟨a.toNat, w.regs, w.regs, .src⟩]
  | .movi _ d _ => [⟨d.toNat, 1, 1, .dst⟩]
  | .movh _ d _ => [⟨d.toNat, 1, 1, .both⟩]
  | .lea _ d a b _ => [⟨d.toNat, 2, 2, .dst⟩, ⟨a.toNat, 2, 2, .src⟩, ⟨b.toNat, 1, 1, .src⟩]
  | .leaImm _ d a _ => [⟨d.toNat, 2, 2, .dst⟩, ⟨a.toNat, 2, 2, .src⟩]
  | .gets _ d _ => [⟨d.toNat, 1, 1, .dst⟩]
  | .sets _ a _ => [⟨a.toNat, 1, 1, .src⟩]
  | .sliceof _ d a => [⟨d.toNat, 2, 2, .dst⟩, ⟨a.toNat, 2, 2, .src⟩]
  | .fadd _ d a b _ _ => [⟨d.toNat, 1, 1, .dst⟩, ⟨a.toNat, 1, 1, .src⟩, ⟨b.toNat, 1, 1, .src⟩]
  | .fsub _ d a b _ _ => [⟨d.toNat, 1, 1, .dst⟩, ⟨a.toNat, 1, 1, .src⟩, ⟨b.toNat, 1, 1, .src⟩]
  | .fmul _ d a b _ _ => [⟨d.toNat, 1, 1, .dst⟩, ⟨a.toNat, 1, 1, .src⟩, ⟨b.toNat, 1, 1, .src⟩]
  | .ffma _ d a b _ _ => [⟨d.toNat, 1, 1, .both⟩, ⟨a.toNat, 1, 1, .src⟩, ⟨b.toNat, 1, 1, .src⟩]
  | .fmin _ d a b => [⟨d.toNat, 1, 1, .dst⟩, ⟨a.toNat, 1, 1, .src⟩, ⟨b.toNat, 1, 1, .src⟩]
  | .fmax _ d a b => [⟨d.toNat, 1, 1, .dst⟩, ⟨a.toNat, 1, 1, .src⟩, ⟨b.toNat, 1, 1, .src⟩]
  | .fset _ _ _ a b _ => [⟨a.toNat, 1, 1, .src⟩, ⟨b.toNat, 1, 1, .src⟩]
  | .fsel _ d a b _ => [⟨d.toNat, 1, 1, .dst⟩, ⟨a.toNat, 1, 1, .src⟩, ⟨b.toNat, 1, 1, .src⟩]
  | .frcp _ d a => [⟨d.toNat, 1, 1, .dst⟩, ⟨a.toNat, 1, 1, .src⟩]
  | .frsq _ d a => [⟨d.toNat, 1, 1, .dst⟩, ⟨a.toNat, 1, 1, .src⟩]
  | .fsqrt _ d a => [⟨d.toNat, 1, 1, .dst⟩, ⟨a.toNat, 1, 1, .src⟩]
  | .fexp2 _ d a => [⟨d.toNat, 1, 1, .dst⟩, ⟨a.toNat, 1, 1, .src⟩]
  | .flog2 _ d a => [⟨d.toNat, 1, 1, .dst⟩, ⟨a.toNat, 1, 1, .src⟩]
  | .fsinp _ d a => [⟨d.toNat, 1, 1, .dst⟩, ⟨a.toNat, 1, 1, .src⟩]
  | .fcosp _ d a => [⟨d.toNat, 1, 1, .dst⟩, ⟨a.toNat, 1, 1, .src⟩]
  | .fdiv _ d a b _ _ => [⟨d.toNat, 1, 1, .dst⟩, ⟨a.toNat, 1, 1, .src⟩, ⟨b.toNat, 1, 1, .src⟩]
  | .frnd _ d a _ => [⟨d.toNat, 1, 1, .dst⟩, ⟨a.toNat, 1, 1, .src⟩]
  | .dadd _ d a b _ => [⟨d.toNat, 2, 2, .dst⟩, ⟨a.toNat, 2, 2, .src⟩, ⟨b.toNat, 2, 2, .src⟩]
  | .dmul _ d a b _ => [⟨d.toNat, 2, 2, .dst⟩, ⟨a.toNat, 2, 2, .src⟩, ⟨b.toNat, 2, 2, .src⟩]
  | .dfma _ d a b _ => [⟨d.toNat, 2, 2, .both⟩, ⟨a.toNat, 2, 2, .src⟩, ⟨b.toNat, 2, 2, .src⟩]
  | .dset _ _ _ a b => [⟨a.toNat, 2, 2, .src⟩, ⟨b.toNat, 2, 2, .src⟩]
  | .hpadd _ d a b _ _ => [⟨d.toNat, 1, 1, .dst⟩, ⟨a.toNat, 1, 1, .src⟩, ⟨b.toNat, 1, 1, .src⟩]
  | .hpmul _ d a b _ _ => [⟨d.toNat, 1, 1, .dst⟩, ⟨a.toNat, 1, 1, .src⟩, ⟨b.toNat, 1, 1, .src⟩]
  | .hpfma _ d a b _ _ => [⟨d.toNat, 1, 1, .both⟩, ⟨a.toNat, 1, 1, .src⟩, ⟨b.toNat, 1, 1, .src⟩]
  | .f2i _ d a x t _ => [⟨d.toNat, t.regs, t.regs, .dst⟩, ⟨a.toNat, x.regs, x.regs, .src⟩]
  | .i2f _ d a x t _ => [⟨d.toNat, x.regs, x.regs, .dst⟩, ⟨a.toNat, t.regs, t.regs, .src⟩]
  | .f2f _ d a x y _ _ => [⟨d.toNat, y.regs, y.regs, .dst⟩, ⟨a.toNat, x.regs, x.regs, .src⟩]
  | .qgrp _ d a b _ => [⟨d.toNat, 1, 1, .dst⟩, ⟨a.toNat, 1, 1, .src⟩, ⟨b.toNat, 1, 1, .src⟩]
  | .qpack _ d a b _ => [⟨d.toNat, 1, 1, .dst⟩, ⟨a.toNat, 8, 8, .named⟩, ⟨a.toNat + 0, 4, 1, .src⟩, ⟨b.toNat, 1, 1, .src⟩]
  | .qunpk _ d a b _ => [⟨d.toNat, 8, 8, .named⟩, ⟨a.toNat, 1, 1, .src⟩, ⟨b.toNat, 1, 1, .src⟩]
  | .shflIdx _ d a b => [⟨d.toNat, 1, 1, .dst⟩, ⟨a.toNat, 1, 1, .src⟩, ⟨b.toNat, 1, 1, .src⟩]
  | .shflUp _ d a b => [⟨d.toNat, 1, 1, .dst⟩, ⟨a.toNat, 1, 1, .src⟩, ⟨b.toNat, 1, 1, .src⟩]
  | .shflDown _ d a b => [⟨d.toNat, 1, 1, .dst⟩, ⟨a.toNat, 1, 1, .src⟩, ⟨b.toNat, 1, 1, .src⟩]
  | .shflXor _ d a b => [⟨d.toNat, 1, 1, .dst⟩, ⟨a.toNat, 1, 1, .src⟩, ⟨b.toNat, 1, 1, .src⟩]
  | .voteAny _ _ _ => []
  | .voteAll _ _ _ => []
  | .voteBallot _ d _ => [⟨d.toNat, 2, 2, .dst⟩]
  | .matchLanes _ d a w => [⟨d.toNat, 2, 2, .dst⟩, ⟨a.toNat, w.regs, w.regs, .src⟩]
  | .elect _ _ => []
  | .scanAdd _ d a => [⟨d.toNat, 1, 1, .dst⟩, ⟨a.toNat, 1, 1, .src⟩]
  | .scanAddEx _ d a => [⟨d.toNat, 1, 1, .dst⟩, ⟨a.toNat, 1, 1, .src⟩]
  | .scanMin _ d a => [⟨d.toNat, 1, 1, .dst⟩, ⟨a.toNat, 1, 1, .src⟩]
  | .scanMax _ d a => [⟨d.toNat, 1, 1, .dst⟩, ⟨a.toNat, 1, 1, .src⟩]
  | .lmask _ d => [⟨d.toNat, 2, 2, .dst⟩]
  | .bra _ _ _ _ => []
  | .brcAny _ _ _ _ => []
  | .brcAll _ _ _ _ => []
  | .call _ _ _ _ => []
  | .ret _ a => [⟨a.toNat, 2, 2, .src⟩]
  | .jmpv _ a => [⟨a.toNat, 2, 2, .src⟩]
  | .wbase _ _ => []
  | .nop _ => []
  | .yield _ => []
  | .exitT _ => []
  | .ld _ d a _ q => [⟨d.toNat, q.regs, q.regs, .dst⟩, ⟨a.toNat, 2, 2, .src⟩]
  | .st _ d a _ q => [⟨d.toNat, q.regs, q.regs, .src⟩, ⟨a.toNat, 2, 2, .src⟩]
  | .lds _ d a _ q => [⟨d.toNat, q.regs, q.regs, .dst⟩, ⟨a.toNat, 1, 1, .src⟩]
  | .sts _ d a _ q => [⟨d.toNat, q.regs, q.regs, .src⟩, ⟨a.toNat, 1, 1, .src⟩]
  | .ldaq _ d a z _ => [⟨d.toNat, z.regs, z.regs, .dst⟩, ⟨a.toNat, 2, 2, .src⟩]
  | .strl _ z a b _ => [⟨a.toNat, 2, 2, .src⟩, ⟨b.toNat, z.regs, z.regs, .src⟩]
  | .atomAdd _ _ d t a b _ => [⟨d.toNat, t.regs, t.regs, .dst⟩, ⟨a.toNat, 2, 2, .src⟩, ⟨b.toNat, t.regs, t.regs, .src⟩]
  | .atomMin _ _ d t a b _ => [⟨d.toNat, t.regs, t.regs, .dst⟩, ⟨a.toNat, 2, 2, .src⟩, ⟨b.toNat, t.regs, t.regs, .src⟩]
  | .atomMax _ _ d t a b _ => [⟨d.toNat, t.regs, t.regs, .dst⟩, ⟨a.toNat, 2, 2, .src⟩, ⟨b.toNat, t.regs, t.regs, .src⟩]
  | .atomAddF32 _ _ d a b _ => [⟨d.toNat, 1, 1, .dst⟩, ⟨a.toNat, 2, 2, .src⟩, ⟨b.toNat, 1, 1, .src⟩]
  | .atomAnd _ _ d z a b _ => [⟨d.toNat, z.regs, z.regs, .dst⟩, ⟨a.toNat, 2, 2, .src⟩, ⟨b.toNat, z.regs, z.regs, .src⟩]
  | .atomOr _ _ d z a b _ => [⟨d.toNat, z.regs, z.regs, .dst⟩, ⟨a.toNat, 2, 2, .src⟩, ⟨b.toNat, z.regs, z.regs, .src⟩]
  | .atomXor _ _ d z a b _ => [⟨d.toNat, z.regs, z.regs, .dst⟩, ⟨a.toNat, 2, 2, .src⟩, ⟨b.toNat, z.regs, z.regs, .src⟩]
  | .atomExch _ _ d z a b _ => [⟨d.toNat, z.regs, z.regs, .dst⟩, ⟨a.toNat, 2, 2, .src⟩, ⟨b.toNat, z.regs, z.regs, .src⟩]
  | .cas _ _ d z a b _ => [⟨d.toNat, z.regs, z.regs, .dst⟩, ⟨a.toNat, 2, 2, .src⟩, ⟨b.toNat, (2 * z.regs), (2 * z.regs), .src⟩]
  | .redAdd _ _ w a b _ => [⟨a.toNat, 2, 2, .src⟩, ⟨b.toNat, w.regs, w.regs, .src⟩]
  | .redAddF32 _ _ a b _ => [⟨a.toNat, 2, 2, .src⟩, ⟨b.toNat, 1, 1, .src⟩]
  | .redMinI32 _ _ a b _ => [⟨a.toNat, 2, 2, .src⟩, ⟨b.toNat, 1, 1, .src⟩]
  | .redMinN32 _ _ a b _ => [⟨a.toNat, 2, 2, .src⟩, ⟨b.toNat, 1, 1, .src⟩]
  | .redMaxI32 _ _ a b _ => [⟨a.toNat, 2, 2, .src⟩, ⟨b.toNat, 1, 1, .src⟩]
  | .redMaxN32 _ _ a b _ => [⟨a.toNat, 2, 2, .src⟩, ⟨b.toNat, 1, 1, .src⟩]
  | .redAnd _ _ a b _ => [⟨a.toNat, 2, 2, .src⟩, ⟨b.toNat, 1, 1, .src⟩]
  | .redOr _ _ a b _ => [⟨a.toNat, 2, 2, .src⟩, ⟨b.toNat, 1, 1, .src⟩]
  | .redXor _ _ a b _ => [⟨a.toNat, 2, 2, .src⟩, ⟨b.toNat, 1, 1, .src⟩]
  | .atomsAdd _ d a b => [⟨d.toNat, 1, 1, .dst⟩, ⟨a.toNat, 1, 1, .src⟩, ⟨b.toNat, 1, 1, .src⟩]
  | .atomsMinI32 _ d a b => [⟨d.toNat, 1, 1, .dst⟩, ⟨a.toNat, 1, 1, .src⟩, ⟨b.toNat, 1, 1, .src⟩]
  | .atomsMaxI32 _ d a b => [⟨d.toNat, 1, 1, .dst⟩, ⟨a.toNat, 1, 1, .src⟩, ⟨b.toNat, 1, 1, .src⟩]
  | .atomsMinN32 _ d a b => [⟨d.toNat, 1, 1, .dst⟩, ⟨a.toNat, 1, 1, .src⟩, ⟨b.toNat, 1, 1, .src⟩]
  | .atomsMaxN32 _ d a b => [⟨d.toNat, 1, 1, .dst⟩, ⟨a.toNat, 1, 1, .src⟩, ⟨b.toNat, 1, 1, .src⟩]
  | .atomsAnd _ d a b => [⟨d.toNat, 1, 1, .dst⟩, ⟨a.toNat, 1, 1, .src⟩, ⟨b.toNat, 1, 1, .src⟩]
  | .atomsOr _ d a b => [⟨d.toNat, 1, 1, .dst⟩, ⟨a.toNat, 1, 1, .src⟩, ⟨b.toNat, 1, 1, .src⟩]
  | .atomsExch _ d a b => [⟨d.toNat, 1, 1, .dst⟩, ⟨a.toNat, 1, 1, .src⟩, ⟨b.toNat, 1, 1, .src⟩]
  | .fenceAcq _ _ _ => []
  | .fenceRel _ _ _ => []
  | .fenceAr _ _ _ => []
  | .ldr _ d a z _ => [⟨d.toNat, z.regs, z.regs, .dst⟩, ⟨a.toNat, 2, 2, .src⟩]
  | .preq _ a _ => [⟨a.toNat, 2, 2, .src⟩]
  | .prefL1 _ a _ => [⟨a.toNat, 2, 2, .src⟩]
  | .prefL2 _ a _ => [⟨a.toNat, 2, 2, .src⟩]
  | .prefMsc _ a _ => [⟨a.toNat, 2, 2, .src⟩]
  | .linvLine _ a _ => [⟨a.toNat, 2, 2, .src⟩]
  | .linvCore _ => []
  | .linvCluster _ => []
  | .barSync _ _ => []
  | .barArrive _ _ => []
  | .barWait _ _ => []
  | .barset _ _ a => [⟨a.toNat, 1, 1, .src⟩]
  | .gsync _ a => [⟨a.toNat, 2, 2, .src⟩]
  | .gsyncImm _ _ => []
  | .ksetImm _ _ _ => []
  | .kset _ _ a => [⟨a.toNat, 1, 1, .src⟩]
  | .waitv _ _ _ a b w => [⟨a.toNat, 2, 2, .src⟩, ⟨b.toNat, w.regs, w.regs, .src⟩]
  | .signal _ _ a => [⟨a.toNat, 2, 2, .named⟩, ⟨a.toNat + 0, 1, 1, .src⟩, ⟨a.toNat + 1, 1, 1, .dst⟩]
  | .cpyin _ _ a b => [⟨a.toNat, 2, 2, .src⟩, ⟨b.toNat, 2, 2, .src⟩]
  | .cpyout _ _ a b => [⟨a.toNat, 2, 2, .src⟩, ⟨b.toNat, 2, 2, .src⟩]
  | .cpy2dIn _ _ a b => [⟨a.toNat, 2, 2, .src⟩, ⟨b.toNat, 4, 4, .src⟩]
  | .cpy2dOut _ _ a b => [⟨a.toNat, 2, 2, .src⟩, ⟨b.toNat, 4, 4, .src⟩]
  | .cpymc _ _ a b => [⟨a.toNat, 2, 2, .src⟩, ⟨b.toNat, 4, 4, .src⟩]
  | .bobset _ _ a => [⟨a.toNat, 1, 1, .src⟩]
  | .bobwait _ d _ _ => [⟨d.toNat, 1, 1, .dst⟩]
  | .bobfree _ _ => []
  | .bobq _ d _ => [⟨d.toNat, 1, 1, .dst⟩]
  | .tld _ _ a _ => [⟨a.toNat, 2, 2, .src⟩]
  | .tldDr _ _ a _ => [⟨a.toNat, 2, 2, .src⟩]
  | .tst _ _ a _ => [⟨a.toNat, 2, 2, .src⟩]
  | .tstDr _ _ a _ => [⟨a.toNat, 2, 2, .src⟩]
  | .tldq _ _ a _ _ => [⟨a.toNat, 2, 2, .src⟩]
  | .tzero _ _ _ => []
  | .tmma _ _ _ _ _ _ => []
  | .tcvt _ _ _ _ _ => []
  | .tgetf _ d _ b => [⟨d.toNat, 1, 1, .dst⟩, ⟨b.toNat, 1, 1, .src⟩]
  | .tsetf _ d _ b => [⟨d.toNat, 1, 1, .src⟩, ⟨b.toNat, 1, 1, .src⟩]
  | .tmergeI64 _ _ _ a b => [⟨a.toNat, 2, 2, .src⟩, ⟨b.toNat, 1, 1, .src⟩]
  | .tmergeF64 _ _ _ a b => [⟨a.toNat, 2, 2, .src⟩, ⟨b.toNat, 1, 1, .src⟩]
  | .tmergeF64Ord _ _ _ a b => [⟨a.toNat, 2, 2, .src⟩, ⟨b.toNat, 1, 1, .src⟩]
  | .tmread _ _ _ a _ => [⟨a.toNat, 2, 2, .src⟩]
  | .tbfy _ _ _ _ => []
  | .tfcfg _ a => [⟨a.toNat, 4, 4, .src⟩]
  | .ttwid _ d a b => [⟨d.toNat, 2, 2, .dst⟩, ⟨a.toNat, 1, 1, .src⟩, ⟨b.toNat, 1, 1, .src⟩]
  | .rank0 _ d a b => [⟨d.toNat, 2, 2, .dst⟩, ⟨a.toNat, 1, 1, .src⟩, ⟨b.toNat, 2, 2, .src⟩]
  | .rank1 _ d a b => [⟨d.toNat, 2, 2, .dst⟩, ⟨a.toNat, 1, 1, .src⟩, ⟨b.toNat, 2, 2, .src⟩]
  | .sel0 _ d a b => [⟨d.toNat, 2, 2, .dst⟩, ⟨a.toNat, 1, 1, .src⟩, ⟨b.toNat, 2, 2, .src⟩]
  | .sel1 _ d a b => [⟨d.toNat, 2, 2, .dst⟩, ⟨a.toNat, 1, 1, .src⟩, ⟨b.toNat, 2, 2, .src⟩]
  | .excess _ d a b => [⟨d.toNat, 2, 2, .dst⟩, ⟨a.toNat, 1, 1, .src⟩, ⟨b.toNat, 2, 2, .src⟩]
  | .closeBr _ d a b => [⟨d.toNat, 2, 2, .dst⟩, ⟨a.toNat, 1, 1, .src⟩, ⟨b.toNat, 2, 2, .src⟩]
  | .openBr _ d a b => [⟨d.toNat, 2, 2, .dst⟩, ⟨a.toNat, 1, 1, .src⟩, ⟨b.toNat, 2, 2, .src⟩]
  | .enclBr _ d a b => [⟨d.toNat, 2, 2, .dst⟩, ⟨a.toNat, 1, 1, .src⟩, ⟨b.toNat, 2, 2, .src⟩]
  | .bins _ d a b => [⟨d.toNat, 4, 4, .named⟩, ⟨d.toNat + 0, 2, 1, .src⟩, ⟨d.toNat + 2, 1, 1, .src⟩, ⟨a.toNat, 1, 1, .src⟩, ⟨b.toNat, 2, 2, .src⟩]
  | .bdel _ d a b => [⟨d.toNat, 1, 1, .src⟩, ⟨a.toNat, 1, 1, .src⟩, ⟨b.toNat, 2, 2, .src⟩]
  | .sreg _ d a => [⟨d.toNat, 1, 1, .dst⟩, ⟨a.toNat, 2, 2, .src⟩]
  | .sdrop _ a => [⟨a.toNat, 1, 1, .src⟩]
  | .sstat _ d a => [⟨d.toNat, 4, 4, .dst⟩, ⟨a.toNat, 1, 1, .src⟩]
  | .ssync _ a => [⟨a.toNat, 1, 1, .src⟩]
  | .nmload _ a b => [⟨a.toNat, 2, 2, .src⟩, ⟨b.toNat, 1, 1, .src⟩]
  | .nmrun _ a b => [⟨a.toNat, 2, 2, .src⟩, ⟨b.toNat, 2, 2, .src⟩]
  | .nmrunRet _ d a b => [⟨d.toNat, 2, 2, .dst⟩, ⟨a.toNat, 2, 2, .src⟩, ⟨b.toNat, 2, 2, .src⟩]
  | .redNmAdd _ _ w a b _ => [⟨a.toNat, 2, 2, .src⟩, ⟨b.toNat, w.regs, w.regs, .src⟩]
  | .redNmAddF32 _ _ a b _ => [⟨a.toNat, 2, 2, .src⟩, ⟨b.toNat, 1, 1, .src⟩]
  | .redNmMinI32 _ _ a b _ => [⟨a.toNat, 2, 2, .src⟩, ⟨b.toNat, 1, 1, .src⟩]
  | .redNmMinN32 _ _ a b _ => [⟨a.toNat, 2, 2, .src⟩, ⟨b.toNat, 1, 1, .src⟩]
  | .redNmMaxI32 _ _ a b _ => [⟨a.toNat, 2, 2, .src⟩, ⟨b.toNat, 1, 1, .src⟩]
  | .redNmMaxN32 _ _ a b _ => [⟨a.toNat, 2, 2, .src⟩, ⟨b.toNat, 1, 1, .src⟩]
  | .redNmOr _ _ a b _ => [⟨a.toNat, 2, 2, .src⟩, ⟨b.toNat, 1, 1, .src⟩]
  | .rzero _ a => [⟨a.toNat, 2, 2, .src⟩]
  | .rcopy _ a b => [⟨a.toNat, 2, 2, .src⟩, ⟨b.toNat, 2, 2, .src⟩]
  | .solicit _ _ a _ _ _ => [⟨a.toNat, 8, 8, .named⟩, ⟨a.toNat + 0, 2, 1, .src⟩, ⟨a.toNat + 2, 4, 1, .src⟩]
  | .reply _ a => [⟨a.toNat, 2, 2, .src⟩]
  | .cwait _ d _ => [⟨d.toNat, 4, 4, .dst⟩]
  | .cpoll _ _ _ => []
  | .tdadd _ d a => [⟨d.toNat, 1, 1, .dst⟩, ⟨a.toNat, 8, 8, .src⟩]
  | .tddel _ d a => [⟨d.toNat, 1, 1, .dst⟩, ⟨a.toNat, 1, 1, .src⟩]
  | .tdmove _ d a b => [⟨d.toNat, 1, 1, .dst⟩, ⟨a.toNat, 1, 1, .src⟩, ⟨b.toNat, 1, 1, .src⟩]
  | .launch _ d a b => [⟨d.toNat, 1, 1, .dst⟩, ⟨a.toNat, 2, 2, .src⟩, ⟨b.toNat, 1, 1, .src⟩]
  | .intr _ _ => []
  | .trap _ _ => []
  | .tretRe _ => []
  | .tretSkip _ => []
  | .bkpt _ => []
  | .issuePly _ _ => []
  | .instructionFetch _ _ _ => []
  | .classLResult _ _ => []
  | .activeHoldExpired _ _ => []
  | .engineOperation _ => []
  | .mergeContribution _ _ => []
  | .orderedMergeApply _ => []
  | .homeSliceAccess _ _ => []
  | .writeAcknowledged _ => []
  | .mergingFill _ => []
  | .pageWalk _ _ _ => []
  | .controllerAgeCap _ => []
  | .copyRetire _ => []
  | .copyFaultStop _ => []
  | .multicastDelivery _ _ => []
  | .sucWriteMark _ _ => []
  | .splicerRepair _ => []
  | .succinctQuery _ => []
  | .stringUpdatePerform _ => []
  | .sdropPerform _ => []
  | .nmSegmentRun _ => []
  | .nmCommandRetire _ => []
  | .nmCommandFault _ => []
  | .redNmPlace _ => []
  | .rowOperationPerform _ => []
  | .channelPowerEntry _ _ => []
  | .channelWake _ _ => []
  | .channelIdleTimeout _ _ => []
  | .chpwrActive _ _ => []
  | .chpwrSelfRefresh _ _ => []
  | .chpwrPowerDown _ _ => []
  | .thermalSelfRefresh _ _ _ => []
  | .qctlWrite _ _ => []
  | .queueWatchWake _ => []
  | .recordDispatch _ => []
  | .teamPlace => []
  | .teamEnd _ => []
  | .stopReport _ => []
  | .queueManagerAccess _ => []
  | .priorityGraceExpired _ => []
  | .timeSliceExpired _ => []
  | .teamSave _ => []
  | .waitvWake _ => []
  | .waitvPoll _ => []
  | .barrierStall _ => []
  | .signalApply _ => []
  | .solicitAdmit _ _ => []
  | .responderStart _ => []
  | .responderEnd _ _ => []
  | .censusComplete _ => []
  | .forwardArrive _ => []
  | .moveRegister _ => []
  | .sourceEntryGone _ _ => []
  | .entryGone _ _ => []
  | .trootWrite _ _ => []
  | .clusownWrite _ _ => []
  | .clusterResponderTimeout _ => []
  | .ownerChangeComplete _ => []
  | .tclearWrite _ _ => []
  | .invctlWrite _ _ => []
  | .invalidationComplete _ => []
  | .fqbaseWrite _ _ => []
  | .fresRetry _ _ => []
  | .fresFail _ _ => []
  | .fresAck _ _ => []
  | .lostWrite _ => []
  | .cxlRequestTimeout _ => []
  | .cxlLinkDown => []
  | .flalenLinkDown _ => []
  | .hostMemRead _ _ => []
  | .hostMemWrite _ _ => []
  | .peerRequest _ _ _ _ => []
  | .hostSnoop _ => []
  | .corectlAttach _ _ => []
  | .corectlHalt _ _ => []
  | .corectlStep _ _ _ _ => []
  | .corectlReset _ => []
  | .corectlPgate _ _ => []
  | .coreGated _ => []
  | .coreWoken _ => []
  | .debugWindowWrite _ _ _ => []
  | .coreLost _ => []
  | .uncorrectableError _ => []
  | .correctedError _ => []
  | .selfTest _ _ => []
  | .succinctUnitFailure _ => []
  | .coldReset => []
  | .lcreqWrite _ => []
  | .mailboxBegin => []
  | .mailboxChunk => []
  | .mailboxCommit => []
  | .mailboxAbort => []
  | .tintrWrite _ _ => []
  | .evttailWrite _ => []
  | .reefStepDown => []
  | .reefStepUp => []
  | .registerWrite _ _ => []
  | .tenantClearComplete _ => []
  | .mailboxCommandComplete => []

/-- The tile registers each instruction names (Table 3.5, R20, R30). -/
def Instr.tileOperands : Instr → List TileOperand
  | .iadd _ _ _ _ _ => []
  | .iaddSat _ _ _ _ _ => []
  | .isub _ _ _ _ _ => []
  | .isubSat _ _ _ _ _ => []
  | .iaddImm _ _ _ _ => []
  | .iaddc _ _ _ _ _ => []
  | .isubb _ _ _ _ _ => []
  | .imul _ _ _ _ _ => []
  | .imulh _ _ _ _ _ => []
  | .imad _ _ _ _ _ => []
  | .idiv _ _ _ _ _ => []
  | .irem _ _ _ _ _ => []
  | .imin _ _ _ _ _ => []
  | .imax _ _ _ _ _ => []
  | .iabs _ _ _ => []
  | .ineg _ _ _ => []
  | .andR _ _ _ _ _ => []
  | .orR _ _ _ _ _ => []
  | .xorR _ _ _ _ _ => []
  | .andnR _ _ _ _ _ => []
  | .andImm _ _ _ _ => []
  | .isubImm _ _ _ _ => []
  | .shl _ _ _ _ _ => []
  | .shr _ _ _ _ _ => []
  | .sar _ _ _ _ _ => []
  | .rol _ _ _ _ => []
  | .shlImm _ _ _ _ _ => []
  | .shrImm _ _ _ _ _ => []
  | .sarImm _ _ _ _ _ => []
  | .rolImm _ _ _ _ => []
  | .popc _ _ _ _ => []
  | .clz _ _ _ => []
  | .ctz _ _ _ => []
  | .brev _ _ _ => []
  | .bfxN32 _ _ _ _ _ => []
  | .bfxI32 _ _ _ _ _ => []
  | .bfi _ _ _ _ _ => []
  | .iset _ _ _ _ _ _ _ => []
  | .isetImm _ _ _ _ _ _ => []
  | .isel _ _ _ _ _ => []
  | .psetAnd _ _ _ _ => []
  | .psetOr _ _ _ _ => []
  | .psetXor _ _ _ _ => []
  | .psetAndn _ _ _ _ => []
  | .mov _ _ _ _ => []
  | .movi _ _ _ => []
  | .movh _ _ _ => []
  | .lea _ _ _ _ _ => []
  | .leaImm _ _ _ _ => []
  | .gets _ _ _ => []
  | .sets _ _ _ => []
  | .sliceof _ _ _ => []
  | .fadd _ _ _ _ _ _ => []
  | .fsub _ _ _ _ _ _ => []
  | .fmul _ _ _ _ _ _ => []
  | .ffma _ _ _ _ _ _ => []
  | .fmin _ _ _ _ => []
  | .fmax _ _ _ _ => []
  | .fset _ _ _ _ _ _ => []
  | .fsel _ _ _ _ _ => []
  | .frcp _ _ _ => []
  | .frsq _ _ _ => []
  | .fsqrt _ _ _ => []
  | .fexp2 _ _ _ => []
  | .flog2 _ _ _ => []
  | .fsinp _ _ _ => []
  | .fcosp _ _ _ => []
  | .fdiv _ _ _ _ _ _ => []
  | .frnd _ _ _ _ => []
  | .dadd _ _ _ _ _ => []
  | .dmul _ _ _ _ _ => []
  | .dfma _ _ _ _ _ => []
  | .dset _ _ _ _ _ => []
  | .hpadd _ _ _ _ _ _ => []
  | .hpmul _ _ _ _ _ _ => []
  | .hpfma _ _ _ _ _ _ => []
  | .f2i _ _ _ _ _ _ => []
  | .i2f _ _ _ _ _ _ => []
  | .f2f _ _ _ _ _ _ _ => []
  | .qgrp _ _ _ _ _ => []
  | .qpack _ _ _ _ _ => []
  | .qunpk _ _ _ _ _ => []
  | .shflIdx _ _ _ _ => []
  | .shflUp _ _ _ _ => []
  | .shflDown _ _ _ _ => []
  | .shflXor _ _ _ _ => []
  | .voteAny _ _ _ => []
  | .voteAll _ _ _ => []
  | .voteBallot _ _ _ => []
  | .matchLanes _ _ _ _ => []
  | .elect _ _ => []
  | .scanAdd _ _ _ => []
  | .scanAddEx _ _ _ => []
  | .scanMin _ _ _ => []
  | .scanMax _ _ _ => []
  | .lmask _ _ => []
  | .bra _ _ _ _ => []
  | .brcAny _ _ _ _ => []
  | .brcAll _ _ _ _ => []
  | .call _ _ _ _ => []
  | .ret _ _ => []
  | .jmpv _ _ => []
  | .wbase _ _ => []
  | .nop _ => []
  | .yield _ => []
  | .exitT _ => []
  | .ld _ _ _ _ _ => []
  | .st _ _ _ _ _ => []
  | .lds _ _ _ _ _ => []
  | .sts _ _ _ _ _ => []
  | .ldaq _ _ _ _ _ => []
  | .strl _ _ _ _ _ => []
  | .atomAdd _ _ _ _ _ _ _ => []
  | .atomMin _ _ _ _ _ _ _ => []
  | .atomMax _ _ _ _ _ _ _ => []
  | .atomAddF32 _ _ _ _ _ _ => []
  | .atomAnd _ _ _ _ _ _ _ => []
  | .atomOr _ _ _ _ _ _ _ => []
  | .atomXor _ _ _ _ _ _ _ => []
  | .atomExch _ _ _ _ _ _ _ => []
  | .cas _ _ _ _ _ _ _ => []
  | .redAdd _ _ _ _ _ _ => []
  | .redAddF32 _ _ _ _ _ => []
  | .redMinI32 _ _ _ _ _ => []
  | .redMinN32 _ _ _ _ _ => []
  | .redMaxI32 _ _ _ _ _ => []
  | .redMaxN32 _ _ _ _ _ => []
  | .redAnd _ _ _ _ _ => []
  | .redOr _ _ _ _ _ => []
  | .redXor _ _ _ _ _ => []
  | .atomsAdd _ _ _ _ => []
  | .atomsMinI32 _ _ _ _ => []
  | .atomsMaxI32 _ _ _ _ => []
  | .atomsMinN32 _ _ _ _ => []
  | .atomsMaxN32 _ _ _ _ => []
  | .atomsAnd _ _ _ _ => []
  | .atomsOr _ _ _ _ => []
  | .atomsExch _ _ _ _ => []
  | .fenceAcq _ _ _ => []
  | .fenceRel _ _ _ => []
  | .fenceAr _ _ _ => []
  | .ldr _ _ _ _ _ => []
  | .preq _ _ _ => []
  | .prefL1 _ _ _ => []
  | .prefL2 _ _ _ => []
  | .prefMsc _ _ _ => []
  | .linvLine _ _ _ => []
  | .linvCore _ => []
  | .linvCluster _ => []
  | .barSync _ _ => []
  | .barArrive _ _ => []
  | .barWait _ _ => []
  | .barset _ _ _ => []
  | .gsync _ _ => []
  | .gsyncImm _ _ => []
  | .ksetImm _ _ _ => []
  | .kset _ _ _ => []
  | .waitv _ _ _ _ _ _ => []
  | .signal _ _ _ => []
  | .cpyin _ _ _ _ => []
  | .cpyout _ _ _ _ => []
  | .cpy2dIn _ _ _ _ => []
  | .cpy2dOut _ _ _ _ => []
  | .cpymc _ _ _ _ => []
  | .bobset _ _ _ => []
  | .bobwait _ _ _ _ => []
  | .bobfree _ _ => []
  | .bobq _ _ _ => []
  | .tld _ d _ _ => [⟨d.toNat, 1, 1⟩]
  | .tldDr _ d _ _ => [⟨d.toNat, 1, 1⟩]
  | .tst _ d _ _ => [⟨d.toNat, 1, 1⟩]
  | .tstDr _ d _ _ => [⟨d.toNat, 1, 1⟩]
  | .tldq _ d _ _ _ => [⟨d.toNat, 1, 1⟩]
  | .tzero _ t w => [⟨t.toNat, if w then 2 else 1, if w then 2 else 1⟩]
  | .tmma _ _ d a b _ => [⟨d.toNat, 2, 2⟩, ⟨a.toNat, 1, 1⟩, ⟨b.toNat, 1, 1⟩]
  | .tcvt _ _ d a _ => [⟨d.toNat, 1, 1⟩, ⟨a.toNat, 2, 2⟩]
  | .tgetf _ _ t _ => [⟨t.toNat, 1, 1⟩]
  | .tsetf _ _ t _ => [⟨t.toNat, 1, 1⟩]
  | .tmergeI64 _ _ m _ _ => [⟨2 * m.toNat, 2, 2⟩]
  | .tmergeF64 _ _ m _ _ => [⟨2 * m.toNat, 2, 2⟩]
  | .tmergeF64Ord _ _ m _ _ => [⟨2 * m.toNat, 2, 2⟩]
  | .tmread _ _ m _ _ => [⟨2 * m.toNat, 2, 2⟩]
  | .tbfy _ _ d a => [⟨d.toNat, 1, 1⟩, ⟨a.toNat, 1, 1⟩]
  | .tfcfg _ _ => []
  | .ttwid _ _ _ _ => []
  | .rank0 _ _ _ _ => []
  | .rank1 _ _ _ _ => []
  | .sel0 _ _ _ _ => []
  | .sel1 _ _ _ _ => []
  | .excess _ _ _ _ => []
  | .closeBr _ _ _ _ => []
  | .openBr _ _ _ _ => []
  | .enclBr _ _ _ _ => []
  | .bins _ _ _ _ => []
  | .bdel _ _ _ _ => []
  | .sreg _ _ _ => []
  | .sdrop _ _ => []
  | .sstat _ _ _ => []
  | .ssync _ _ => []
  | .nmload _ _ _ => []
  | .nmrun _ _ _ => []
  | .nmrunRet _ _ _ _ => []
  | .redNmAdd _ _ _ _ _ _ => []
  | .redNmAddF32 _ _ _ _ _ => []
  | .redNmMinI32 _ _ _ _ _ => []
  | .redNmMinN32 _ _ _ _ _ => []
  | .redNmMaxI32 _ _ _ _ _ => []
  | .redNmMaxN32 _ _ _ _ _ => []
  | .redNmOr _ _ _ _ _ => []
  | .rzero _ _ => []
  | .rcopy _ _ _ => []
  | .solicit _ _ _ _ _ _ => []
  | .reply _ _ => []
  | .cwait _ _ _ => []
  | .cpoll _ _ _ => []
  | .tdadd _ _ _ => []
  | .tddel _ _ _ => []
  | .tdmove _ _ _ _ => []
  | .launch _ _ _ _ => []
  | .intr _ _ => []
  | .trap _ _ => []
  | .tretRe _ => []
  | .tretSkip _ => []
  | .bkpt _ => []
  | .issuePly _ _ => []
  | .instructionFetch _ _ _ => []
  | .classLResult _ _ => []
  | .activeHoldExpired _ _ => []
  | .engineOperation _ => []
  | .mergeContribution _ _ => []
  | .orderedMergeApply _ => []
  | .homeSliceAccess _ _ => []
  | .writeAcknowledged _ => []
  | .mergingFill _ => []
  | .pageWalk _ _ _ => []
  | .controllerAgeCap _ => []
  | .copyRetire _ => []
  | .copyFaultStop _ => []
  | .multicastDelivery _ _ => []
  | .sucWriteMark _ _ => []
  | .splicerRepair _ => []
  | .succinctQuery _ => []
  | .stringUpdatePerform _ => []
  | .sdropPerform _ => []
  | .nmSegmentRun _ => []
  | .nmCommandRetire _ => []
  | .nmCommandFault _ => []
  | .redNmPlace _ => []
  | .rowOperationPerform _ => []
  | .channelPowerEntry _ _ => []
  | .channelWake _ _ => []
  | .channelIdleTimeout _ _ => []
  | .chpwrActive _ _ => []
  | .chpwrSelfRefresh _ _ => []
  | .chpwrPowerDown _ _ => []
  | .thermalSelfRefresh _ _ _ => []
  | .qctlWrite _ _ => []
  | .queueWatchWake _ => []
  | .recordDispatch _ => []
  | .teamPlace => []
  | .teamEnd _ => []
  | .stopReport _ => []
  | .queueManagerAccess _ => []
  | .priorityGraceExpired _ => []
  | .timeSliceExpired _ => []
  | .teamSave _ => []
  | .waitvWake _ => []
  | .waitvPoll _ => []
  | .barrierStall _ => []
  | .signalApply _ => []
  | .solicitAdmit _ _ => []
  | .responderStart _ => []
  | .responderEnd _ _ => []
  | .censusComplete _ => []
  | .forwardArrive _ => []
  | .moveRegister _ => []
  | .sourceEntryGone _ _ => []
  | .entryGone _ _ => []
  | .trootWrite _ _ => []
  | .clusownWrite _ _ => []
  | .clusterResponderTimeout _ => []
  | .ownerChangeComplete _ => []
  | .tclearWrite _ _ => []
  | .invctlWrite _ _ => []
  | .invalidationComplete _ => []
  | .fqbaseWrite _ _ => []
  | .fresRetry _ _ => []
  | .fresFail _ _ => []
  | .fresAck _ _ => []
  | .lostWrite _ => []
  | .cxlRequestTimeout _ => []
  | .cxlLinkDown => []
  | .flalenLinkDown _ => []
  | .hostMemRead _ _ => []
  | .hostMemWrite _ _ => []
  | .peerRequest _ _ _ _ => []
  | .hostSnoop _ => []
  | .corectlAttach _ _ => []
  | .corectlHalt _ _ => []
  | .corectlStep _ _ _ _ => []
  | .corectlReset _ => []
  | .corectlPgate _ _ => []
  | .coreGated _ => []
  | .coreWoken _ => []
  | .debugWindowWrite _ _ _ => []
  | .coreLost _ => []
  | .uncorrectableError _ => []
  | .correctedError _ => []
  | .selfTest _ _ => []
  | .succinctUnitFailure _ => []
  | .coldReset => []
  | .lcreqWrite _ => []
  | .mailboxBegin => []
  | .mailboxChunk => []
  | .mailboxCommit => []
  | .mailboxAbort => []
  | .tintrWrite _ _ => []
  | .evttailWrite _ => []
  | .reefStepDown => []
  | .reefStepUp => []
  | .registerWrite _ _ => []
  | .tenantClearComplete _ => []
  | .mailboxCommandComplete => []

/-- The scope code an instruction carries in F (Table 3.4). -/
def Instr.scopeCode : Instr → Option (BitVec 3)
  | .iadd _ _ _ _ _ => none
  | .iaddSat _ _ _ _ _ => none
  | .isub _ _ _ _ _ => none
  | .isubSat _ _ _ _ _ => none
  | .iaddImm _ _ _ _ => none
  | .iaddc _ _ _ _ _ => none
  | .isubb _ _ _ _ _ => none
  | .imul _ _ _ _ _ => none
  | .imulh _ _ _ _ _ => none
  | .imad _ _ _ _ _ => none
  | .idiv _ _ _ _ _ => none
  | .irem _ _ _ _ _ => none
  | .imin _ _ _ _ _ => none
  | .imax _ _ _ _ _ => none
  | .iabs _ _ _ => none
  | .ineg _ _ _ => none
  | .andR _ _ _ _ _ => none
  | .orR _ _ _ _ _ => none
  | .xorR _ _ _ _ _ => none
  | .andnR _ _ _ _ _ => none
  | .andImm _ _ _ _ => none
  | .isubImm _ _ _ _ => none
  | .shl _ _ _ _ _ => none
  | .shr _ _ _ _ _ => none
  | .sar _ _ _ _ _ => none
  | .rol _ _ _ _ => none
  | .shlImm _ _ _ _ _ => none
  | .shrImm _ _ _ _ _ => none
  | .sarImm _ _ _ _ _ => none
  | .rolImm _ _ _ _ => none
  | .popc _ _ _ _ => none
  | .clz _ _ _ => none
  | .ctz _ _ _ => none
  | .brev _ _ _ => none
  | .bfxN32 _ _ _ _ _ => none
  | .bfxI32 _ _ _ _ _ => none
  | .bfi _ _ _ _ _ => none
  | .iset _ _ _ _ _ _ _ => none
  | .isetImm _ _ _ _ _ _ => none
  | .isel _ _ _ _ _ => none
  | .psetAnd _ _ _ _ => none
  | .psetOr _ _ _ _ => none
  | .psetXor _ _ _ _ => none
  | .psetAndn _ _ _ _ => none
  | .mov _ _ _ _ => none
  | .movi _ _ _ => none
  | .movh _ _ _ => none
  | .lea _ _ _ _ _ => none
  | .leaImm _ _ _ _ => none
  | .gets _ _ _ => none
  | .sets _ _ _ => none
  | .sliceof _ _ _ => none
  | .fadd _ _ _ _ _ _ => none
  | .fsub _ _ _ _ _ _ => none
  | .fmul _ _ _ _ _ _ => none
  | .ffma _ _ _ _ _ _ => none
  | .fmin _ _ _ _ => none
  | .fmax _ _ _ _ => none
  | .fset _ _ _ _ _ _ => none
  | .fsel _ _ _ _ _ => none
  | .frcp _ _ _ => none
  | .frsq _ _ _ => none
  | .fsqrt _ _ _ => none
  | .fexp2 _ _ _ => none
  | .flog2 _ _ _ => none
  | .fsinp _ _ _ => none
  | .fcosp _ _ _ => none
  | .fdiv _ _ _ _ _ _ => none
  | .frnd _ _ _ _ => none
  | .dadd _ _ _ _ _ => none
  | .dmul _ _ _ _ _ => none
  | .dfma _ _ _ _ _ => none
  | .dset _ _ _ _ _ => none
  | .hpadd _ _ _ _ _ _ => none
  | .hpmul _ _ _ _ _ _ => none
  | .hpfma _ _ _ _ _ _ => none
  | .f2i _ _ _ _ _ _ => none
  | .i2f _ _ _ _ _ _ => none
  | .f2f _ _ _ _ _ _ _ => none
  | .qgrp _ _ _ _ _ => none
  | .qpack _ _ _ _ _ => none
  | .qunpk _ _ _ _ _ => none
  | .shflIdx _ _ _ _ => none
  | .shflUp _ _ _ _ => none
  | .shflDown _ _ _ _ => none
  | .shflXor _ _ _ _ => none
  | .voteAny _ _ _ => none
  | .voteAll _ _ _ => none
  | .voteBallot _ _ _ => none
  | .matchLanes _ _ _ _ => none
  | .elect _ _ => none
  | .scanAdd _ _ _ => none
  | .scanAddEx _ _ _ => none
  | .scanMin _ _ _ => none
  | .scanMax _ _ _ => none
  | .lmask _ _ => none
  | .bra _ _ _ _ => none
  | .brcAny _ _ _ _ => none
  | .brcAll _ _ _ _ => none
  | .call _ _ _ _ => none
  | .ret _ _ => none
  | .jmpv _ _ => none
  | .wbase _ _ => none
  | .nop _ => none
  | .yield _ => none
  | .exitT _ => none
  | .ld _ _ _ _ _ => none
  | .st _ _ _ _ _ => none
  | .lds _ _ _ _ _ => none
  | .sts _ _ _ _ _ => none
  | .ldaq _ _ _ _ f => some f
  | .strl _ _ _ _ f => some f
  | .atomAdd _ _ _ _ _ _ f => some f
  | .atomMin _ _ _ _ _ _ f => some f
  | .atomMax _ _ _ _ _ _ f => some f
  | .atomAddF32 _ _ _ _ _ f => some f
  | .atomAnd _ _ _ _ _ _ f => some f
  | .atomOr _ _ _ _ _ _ f => some f
  | .atomXor _ _ _ _ _ _ f => some f
  | .atomExch _ _ _ _ _ _ f => some f
  | .cas _ _ _ _ _ _ f => some f
  | .redAdd _ _ _ _ _ f => some f
  | .redAddF32 _ _ _ _ f => some f
  | .redMinI32 _ _ _ _ f => some f
  | .redMinN32 _ _ _ _ f => some f
  | .redMaxI32 _ _ _ _ f => some f
  | .redMaxN32 _ _ _ _ f => some f
  | .redAnd _ _ _ _ f => some f
  | .redOr _ _ _ _ f => some f
  | .redXor _ _ _ _ f => some f
  | .atomsAdd _ _ _ _ => none
  | .atomsMinI32 _ _ _ _ => none
  | .atomsMaxI32 _ _ _ _ => none
  | .atomsMinN32 _ _ _ _ => none
  | .atomsMaxN32 _ _ _ _ => none
  | .atomsAnd _ _ _ _ => none
  | .atomsOr _ _ _ _ => none
  | .atomsExch _ _ _ _ => none
  | .fenceAcq _ _ f => some f
  | .fenceRel _ _ f => some f
  | .fenceAr _ _ f => some f
  | .ldr _ _ _ _ _ => none
  | .preq _ _ _ => none
  | .prefL1 _ _ _ => none
  | .prefL2 _ _ _ => none
  | .prefMsc _ _ _ => none
  | .linvLine _ _ _ => none
  | .linvCore _ => none
  | .linvCluster _ => none
  | .barSync _ _ => none
  | .barArrive _ _ => none
  | .barWait _ _ => none
  | .barset _ _ _ => none
  | .gsync _ _ => none
  | .gsyncImm _ _ => none
  | .ksetImm _ _ _ => none
  | .kset _ _ _ => none
  | .waitv _ _ _ _ _ _ => none
  | .signal _ _ _ => none
  | .cpyin _ _ _ _ => none
  | .cpyout _ _ _ _ => none
  | .cpy2dIn _ _ _ _ => none
  | .cpy2dOut _ _ _ _ => none
  | .cpymc _ _ _ _ => none
  | .bobset _ _ _ => none
  | .bobwait _ _ _ _ => none
  | .bobfree _ _ => none
  | .bobq _ _ _ => none
  | .tld _ _ _ _ => none
  | .tldDr _ _ _ _ => none
  | .tst _ _ _ _ => none
  | .tstDr _ _ _ _ => none
  | .tldq _ _ _ _ _ => none
  | .tzero _ _ _ => none
  | .tmma _ _ _ _ _ _ => none
  | .tcvt _ _ _ _ _ => none
  | .tgetf _ _ _ _ => none
  | .tsetf _ _ _ _ => none
  | .tmergeI64 _ _ _ _ _ => none
  | .tmergeF64 _ _ _ _ _ => none
  | .tmergeF64Ord _ _ _ _ _ => none
  | .tmread _ _ _ _ _ => none
  | .tbfy _ _ _ _ => none
  | .tfcfg _ _ => none
  | .ttwid _ _ _ _ => none
  | .rank0 _ _ _ _ => none
  | .rank1 _ _ _ _ => none
  | .sel0 _ _ _ _ => none
  | .sel1 _ _ _ _ => none
  | .excess _ _ _ _ => none
  | .closeBr _ _ _ _ => none
  | .openBr _ _ _ _ => none
  | .enclBr _ _ _ _ => none
  | .bins _ _ _ _ => none
  | .bdel _ _ _ _ => none
  | .sreg _ _ _ => none
  | .sdrop _ _ => none
  | .sstat _ _ _ => none
  | .ssync _ _ => none
  | .nmload _ _ _ => none
  | .nmrun _ _ _ => none
  | .nmrunRet _ _ _ _ => none
  | .redNmAdd _ _ _ _ _ f => some f
  | .redNmAddF32 _ _ _ _ f => some f
  | .redNmMinI32 _ _ _ _ f => some f
  | .redNmMinN32 _ _ _ _ f => some f
  | .redNmMaxI32 _ _ _ _ f => some f
  | .redNmMaxN32 _ _ _ _ f => some f
  | .redNmOr _ _ _ _ f => some f
  | .rzero _ _ => none
  | .rcopy _ _ _ => none
  | .solicit _ _ _ _ _ f => some f
  | .reply _ _ => none
  | .cwait _ _ _ => none
  | .cpoll _ _ _ => none
  | .tdadd _ _ _ => none
  | .tddel _ _ _ => none
  | .tdmove _ _ _ _ => none
  | .launch _ _ _ _ => none
  | .intr _ _ => none
  | .trap _ _ => none
  | .tretRe _ => none
  | .tretSkip _ => none
  | .bkpt _ => none
  | .issuePly _ _ => none
  | .instructionFetch _ _ _ => none
  | .classLResult _ _ => none
  | .activeHoldExpired _ _ => none
  | .engineOperation _ => none
  | .mergeContribution _ _ => none
  | .orderedMergeApply _ => none
  | .homeSliceAccess _ _ => none
  | .writeAcknowledged _ => none
  | .mergingFill _ => none
  | .pageWalk _ _ _ => none
  | .controllerAgeCap _ => none
  | .copyRetire _ => none
  | .copyFaultStop _ => none
  | .multicastDelivery _ _ => none
  | .sucWriteMark _ _ => none
  | .splicerRepair _ => none
  | .succinctQuery _ => none
  | .stringUpdatePerform _ => none
  | .sdropPerform _ => none
  | .nmSegmentRun _ => none
  | .nmCommandRetire _ => none
  | .nmCommandFault _ => none
  | .redNmPlace _ => none
  | .rowOperationPerform _ => none
  | .channelPowerEntry _ _ => none
  | .channelWake _ _ => none
  | .channelIdleTimeout _ _ => none
  | .chpwrActive _ _ => none
  | .chpwrSelfRefresh _ _ => none
  | .chpwrPowerDown _ _ => none
  | .thermalSelfRefresh _ _ _ => none
  | .qctlWrite _ _ => none
  | .queueWatchWake _ => none
  | .recordDispatch _ => none
  | .teamPlace => none
  | .teamEnd _ => none
  | .stopReport _ => none
  | .queueManagerAccess _ => none
  | .priorityGraceExpired _ => none
  | .timeSliceExpired _ => none
  | .teamSave _ => none
  | .waitvWake _ => none
  | .waitvPoll _ => none
  | .barrierStall _ => none
  | .signalApply _ => none
  | .solicitAdmit _ _ => none
  | .responderStart _ => none
  | .responderEnd _ _ => none
  | .censusComplete _ => none
  | .forwardArrive _ => none
  | .moveRegister _ => none
  | .sourceEntryGone _ _ => none
  | .entryGone _ _ => none
  | .trootWrite _ _ => none
  | .clusownWrite _ _ => none
  | .clusterResponderTimeout _ => none
  | .ownerChangeComplete _ => none
  | .tclearWrite _ _ => none
  | .invctlWrite _ _ => none
  | .invalidationComplete _ => none
  | .fqbaseWrite _ _ => none
  | .fresRetry _ _ => none
  | .fresFail _ _ => none
  | .fresAck _ _ => none
  | .lostWrite _ => none
  | .cxlRequestTimeout _ => none
  | .cxlLinkDown => none
  | .flalenLinkDown _ => none
  | .hostMemRead _ _ => none
  | .hostMemWrite _ _ => none
  | .peerRequest _ _ _ _ => none
  | .hostSnoop _ => none
  | .corectlAttach _ _ => none
  | .corectlHalt _ _ => none
  | .corectlStep _ _ _ _ => none
  | .corectlReset _ => none
  | .corectlPgate _ _ => none
  | .coreGated _ => none
  | .coreWoken _ => none
  | .debugWindowWrite _ _ _ => none
  | .coreLost _ => none
  | .uncorrectableError _ => none
  | .correctedError _ => none
  | .selfTest _ _ => none
  | .succinctUnitFailure _ => none
  | .coldReset => none
  | .lcreqWrite _ => none
  | .mailboxBegin => none
  | .mailboxChunk => none
  | .mailboxCommit => none
  | .mailboxAbort => none
  | .tintrWrite _ _ => none
  | .evttailWrite _ => none
  | .reefStepDown => none
  | .reefStepUp => none
  | .registerWrite _ _ => none
  | .tenantClearComplete _ => none
  | .mailboxCommandComplete => none

/-- The switch marker (R32). An event has none. -/
def Instr.marker : Instr → Bool
  | .iadd sw _ _ _ _ => sw
  | .iaddSat sw _ _ _ _ => sw
  | .isub sw _ _ _ _ => sw
  | .isubSat sw _ _ _ _ => sw
  | .iaddImm sw _ _ _ => sw
  | .iaddc sw _ _ _ _ => sw
  | .isubb sw _ _ _ _ => sw
  | .imul sw _ _ _ _ => sw
  | .imulh sw _ _ _ _ => sw
  | .imad sw _ _ _ _ => sw
  | .idiv sw _ _ _ _ => sw
  | .irem sw _ _ _ _ => sw
  | .imin sw _ _ _ _ => sw
  | .imax sw _ _ _ _ => sw
  | .iabs sw _ _ => sw
  | .ineg sw _ _ => sw
  | .andR sw _ _ _ _ => sw
  | .orR sw _ _ _ _ => sw
  | .xorR sw _ _ _ _ => sw
  | .andnR sw _ _ _ _ => sw
  | .andImm sw _ _ _ => sw
  | .isubImm sw _ _ _ => sw
  | .shl sw _ _ _ _ => sw
  | .shr sw _ _ _ _ => sw
  | .sar sw _ _ _ _ => sw
  | .rol sw _ _ _ => sw
  | .shlImm sw _ _ _ _ => sw
  | .shrImm sw _ _ _ _ => sw
  | .sarImm sw _ _ _ _ => sw
  | .rolImm sw _ _ _ => sw
  | .popc sw _ _ _ => sw
  | .clz sw _ _ => sw
  | .ctz sw _ _ => sw
  | .brev sw _ _ => sw
  | .bfxN32 sw _ _ _ _ => sw
  | .bfxI32 sw _ _ _ _ => sw
  | .bfi sw _ _ _ _ => sw
  | .iset sw _ _ _ _ _ _ => sw
  | .isetImm sw _ _ _ _ _ => sw
  | .isel sw _ _ _ _ => sw
  | .psetAnd sw _ _ _ => sw
  | .psetOr sw _ _ _ => sw
  | .psetXor sw _ _ _ => sw
  | .psetAndn sw _ _ _ => sw
  | .mov sw _ _ _ => sw
  | .movi sw _ _ => sw
  | .movh sw _ _ => sw
  | .lea sw _ _ _ _ => sw
  | .leaImm sw _ _ _ => sw
  | .gets sw _ _ => sw
  | .sets sw _ _ => sw
  | .sliceof sw _ _ => sw
  | .fadd sw _ _ _ _ _ => sw
  | .fsub sw _ _ _ _ _ => sw
  | .fmul sw _ _ _ _ _ => sw
  | .ffma sw _ _ _ _ _ => sw
  | .fmin sw _ _ _ => sw
  | .fmax sw _ _ _ => sw
  | .fset sw _ _ _ _ _ => sw
  | .fsel sw _ _ _ _ => sw
  | .frcp sw _ _ => sw
  | .frsq sw _ _ => sw
  | .fsqrt sw _ _ => sw
  | .fexp2 sw _ _ => sw
  | .flog2 sw _ _ => sw
  | .fsinp sw _ _ => sw
  | .fcosp sw _ _ => sw
  | .fdiv sw _ _ _ _ _ => sw
  | .frnd sw _ _ _ => sw
  | .dadd sw _ _ _ _ => sw
  | .dmul sw _ _ _ _ => sw
  | .dfma sw _ _ _ _ => sw
  | .dset sw _ _ _ _ => sw
  | .hpadd sw _ _ _ _ _ => sw
  | .hpmul sw _ _ _ _ _ => sw
  | .hpfma sw _ _ _ _ _ => sw
  | .f2i sw _ _ _ _ _ => sw
  | .i2f sw _ _ _ _ _ => sw
  | .f2f sw _ _ _ _ _ _ => sw
  | .qgrp sw _ _ _ _ => sw
  | .qpack sw _ _ _ _ => sw
  | .qunpk sw _ _ _ _ => sw
  | .shflIdx sw _ _ _ => sw
  | .shflUp sw _ _ _ => sw
  | .shflDown sw _ _ _ => sw
  | .shflXor sw _ _ _ => sw
  | .voteAny sw _ _ => sw
  | .voteAll sw _ _ => sw
  | .voteBallot sw _ _ => sw
  | .matchLanes sw _ _ _ => sw
  | .elect sw _ => sw
  | .scanAdd sw _ _ => sw
  | .scanAddEx sw _ _ => sw
  | .scanMin sw _ _ => sw
  | .scanMax sw _ _ => sw
  | .lmask sw _ => sw
  | .bra sw _ _ _ => sw
  | .brcAny sw _ _ _ => sw
  | .brcAll sw _ _ _ => sw
  | .call sw _ _ _ => sw
  | .ret sw _ => sw
  | .jmpv sw _ => sw
  | .wbase sw _ => sw
  | .nop sw => sw
  | .yield sw => sw
  | .exitT sw => sw
  | .ld sw _ _ _ _ => sw
  | .st sw _ _ _ _ => sw
  | .lds sw _ _ _ _ => sw
  | .sts sw _ _ _ _ => sw
  | .ldaq sw _ _ _ _ => sw
  | .strl sw _ _ _ _ => sw
  | .atomAdd sw _ _ _ _ _ _ => sw
  | .atomMin sw _ _ _ _ _ _ => sw
  | .atomMax sw _ _ _ _ _ _ => sw
  | .atomAddF32 sw _ _ _ _ _ => sw
  | .atomAnd sw _ _ _ _ _ _ => sw
  | .atomOr sw _ _ _ _ _ _ => sw
  | .atomXor sw _ _ _ _ _ _ => sw
  | .atomExch sw _ _ _ _ _ _ => sw
  | .cas sw _ _ _ _ _ _ => sw
  | .redAdd sw _ _ _ _ _ => sw
  | .redAddF32 sw _ _ _ _ => sw
  | .redMinI32 sw _ _ _ _ => sw
  | .redMinN32 sw _ _ _ _ => sw
  | .redMaxI32 sw _ _ _ _ => sw
  | .redMaxN32 sw _ _ _ _ => sw
  | .redAnd sw _ _ _ _ => sw
  | .redOr sw _ _ _ _ => sw
  | .redXor sw _ _ _ _ => sw
  | .atomsAdd sw _ _ _ => sw
  | .atomsMinI32 sw _ _ _ => sw
  | .atomsMaxI32 sw _ _ _ => sw
  | .atomsMinN32 sw _ _ _ => sw
  | .atomsMaxN32 sw _ _ _ => sw
  | .atomsAnd sw _ _ _ => sw
  | .atomsOr sw _ _ _ => sw
  | .atomsExch sw _ _ _ => sw
  | .fenceAcq sw _ _ => sw
  | .fenceRel sw _ _ => sw
  | .fenceAr sw _ _ => sw
  | .ldr sw _ _ _ _ => sw
  | .preq sw _ _ => sw
  | .prefL1 sw _ _ => sw
  | .prefL2 sw _ _ => sw
  | .prefMsc sw _ _ => sw
  | .linvLine sw _ _ => sw
  | .linvCore sw => sw
  | .linvCluster sw => sw
  | .barSync sw _ => sw
  | .barArrive sw _ => sw
  | .barWait sw _ => sw
  | .barset sw _ _ => sw
  | .gsync sw _ => sw
  | .gsyncImm sw _ => sw
  | .ksetImm sw _ _ => sw
  | .kset sw _ _ => sw
  | .waitv sw _ _ _ _ _ => sw
  | .signal sw _ _ => sw
  | .cpyin sw _ _ _ => sw
  | .cpyout sw _ _ _ => sw
  | .cpy2dIn sw _ _ _ => sw
  | .cpy2dOut sw _ _ _ => sw
  | .cpymc sw _ _ _ => sw
  | .bobset sw _ _ => sw
  | .bobwait sw _ _ _ => sw
  | .bobfree sw _ => sw
  | .bobq sw _ _ => sw
  | .tld sw _ _ _ => sw
  | .tldDr sw _ _ _ => sw
  | .tst sw _ _ _ => sw
  | .tstDr sw _ _ _ => sw
  | .tldq sw _ _ _ _ => sw
  | .tzero sw _ _ => sw
  | .tmma sw _ _ _ _ _ => sw
  | .tcvt sw _ _ _ _ => sw
  | .tgetf sw _ _ _ => sw
  | .tsetf sw _ _ _ => sw
  | .tmergeI64 sw _ _ _ _ => sw
  | .tmergeF64 sw _ _ _ _ => sw
  | .tmergeF64Ord sw _ _ _ _ => sw
  | .tmread sw _ _ _ _ => sw
  | .tbfy sw _ _ _ => sw
  | .tfcfg sw _ => sw
  | .ttwid sw _ _ _ => sw
  | .rank0 sw _ _ _ => sw
  | .rank1 sw _ _ _ => sw
  | .sel0 sw _ _ _ => sw
  | .sel1 sw _ _ _ => sw
  | .excess sw _ _ _ => sw
  | .closeBr sw _ _ _ => sw
  | .openBr sw _ _ _ => sw
  | .enclBr sw _ _ _ => sw
  | .bins sw _ _ _ => sw
  | .bdel sw _ _ _ => sw
  | .sreg sw _ _ => sw
  | .sdrop sw _ => sw
  | .sstat sw _ _ => sw
  | .ssync sw _ => sw
  | .nmload sw _ _ => sw
  | .nmrun sw _ _ => sw
  | .nmrunRet sw _ _ _ => sw
  | .redNmAdd sw _ _ _ _ _ => sw
  | .redNmAddF32 sw _ _ _ _ => sw
  | .redNmMinI32 sw _ _ _ _ => sw
  | .redNmMinN32 sw _ _ _ _ => sw
  | .redNmMaxI32 sw _ _ _ _ => sw
  | .redNmMaxN32 sw _ _ _ _ => sw
  | .redNmOr sw _ _ _ _ => sw
  | .rzero sw _ => sw
  | .rcopy sw _ _ => sw
  | .solicit sw _ _ _ _ _ => sw
  | .reply sw _ => sw
  | .cwait sw _ _ => sw
  | .cpoll sw _ _ => sw
  | .tdadd sw _ _ => sw
  | .tddel sw _ _ => sw
  | .tdmove sw _ _ _ => sw
  | .launch sw _ _ _ => sw
  | .intr sw _ => sw
  | .trap sw _ => sw
  | .tretRe sw => sw
  | .tretSkip sw => sw
  | .bkpt sw => sw
  | .issuePly _ _ => false
  | .instructionFetch _ _ _ => false
  | .classLResult _ _ => false
  | .activeHoldExpired _ _ => false
  | .engineOperation _ => false
  | .mergeContribution _ _ => false
  | .orderedMergeApply _ => false
  | .homeSliceAccess _ _ => false
  | .writeAcknowledged _ => false
  | .mergingFill _ => false
  | .pageWalk _ _ _ => false
  | .controllerAgeCap _ => false
  | .copyRetire _ => false
  | .copyFaultStop _ => false
  | .multicastDelivery _ _ => false
  | .sucWriteMark _ _ => false
  | .splicerRepair _ => false
  | .succinctQuery _ => false
  | .stringUpdatePerform _ => false
  | .sdropPerform _ => false
  | .nmSegmentRun _ => false
  | .nmCommandRetire _ => false
  | .nmCommandFault _ => false
  | .redNmPlace _ => false
  | .rowOperationPerform _ => false
  | .channelPowerEntry _ _ => false
  | .channelWake _ _ => false
  | .channelIdleTimeout _ _ => false
  | .chpwrActive _ _ => false
  | .chpwrSelfRefresh _ _ => false
  | .chpwrPowerDown _ _ => false
  | .thermalSelfRefresh _ _ _ => false
  | .qctlWrite _ _ => false
  | .queueWatchWake _ => false
  | .recordDispatch _ => false
  | .teamPlace => false
  | .teamEnd _ => false
  | .stopReport _ => false
  | .queueManagerAccess _ => false
  | .priorityGraceExpired _ => false
  | .timeSliceExpired _ => false
  | .teamSave _ => false
  | .waitvWake _ => false
  | .waitvPoll _ => false
  | .barrierStall _ => false
  | .signalApply _ => false
  | .solicitAdmit _ _ => false
  | .responderStart _ => false
  | .responderEnd _ _ => false
  | .censusComplete _ => false
  | .forwardArrive _ => false
  | .moveRegister _ => false
  | .sourceEntryGone _ _ => false
  | .entryGone _ _ => false
  | .trootWrite _ _ => false
  | .clusownWrite _ _ => false
  | .clusterResponderTimeout _ => false
  | .ownerChangeComplete _ => false
  | .tclearWrite _ _ => false
  | .invctlWrite _ _ => false
  | .invalidationComplete _ => false
  | .fqbaseWrite _ _ => false
  | .fresRetry _ _ => false
  | .fresFail _ _ => false
  | .fresAck _ _ => false
  | .lostWrite _ => false
  | .cxlRequestTimeout _ => false
  | .cxlLinkDown => false
  | .flalenLinkDown _ => false
  | .hostMemRead _ _ => false
  | .hostMemWrite _ _ => false
  | .peerRequest _ _ _ _ => false
  | .hostSnoop _ => false
  | .corectlAttach _ _ => false
  | .corectlHalt _ _ => false
  | .corectlStep _ _ _ _ => false
  | .corectlReset _ => false
  | .corectlPgate _ _ => false
  | .coreGated _ => false
  | .coreWoken _ => false
  | .debugWindowWrite _ _ _ => false
  | .coreLost _ => false
  | .uncorrectableError _ => false
  | .correctedError _ => false
  | .selfTest _ _ => false
  | .succinctUnitFailure _ => false
  | .coldReset => false
  | .lcreqWrite _ => false
  | .mailboxBegin => false
  | .mailboxChunk => false
  | .mailboxCommit => false
  | .mailboxAbort => false
  | .tintrWrite _ _ => false
  | .evttailWrite _ => false
  | .reefStepDown => false
  | .reefStepUp => false
  | .registerWrite _ _ => false
  | .tenantClearComplete _ => false
  | .mailboxCommandComplete => false

/-- Scopes of Table 3.4. -/
inductive Scope where
  | group | team | die | device | system
  deriving DecidableEq, Repr

def Scope.ofCode? (c : BitVec 3) : Option Scope :=
  match c.toNat with
  | 0 => some .group | 1 => some .team | 2 => some .die | 3 => some .device | 4 => some .system | _ => none

/-- Scopes nest in the order of their codes (R148). -/
def Scope.rank : Scope → Nat | .group => 0 | .team => 1 | .die => 2 | .device => 3 | .system => 4

/-- Order 4 of Table 3.6: pairs, quads, octets and accumulators are aligned. -/
def Instr.aligned (i : Instr) : Bool :=
  i.regOperands.all (fun o => o.first % o.align == 0) && i.tileOperands.all (fun o => o.first % o.align == 0)

/-- Order 5 of Table 3.6: the scope is one of Table 3.4 and the instruction accepts it (R35: SOLICIT takes only die
and device). A FENCE whose path mask is zero fails here too (R35). -/
def Instr.scopeOk (i : Instr) : Bool :=
  match i with
  | .solicit _ _ _ _ _ f => f == 2#3 || f == 3#3
  | .fenceAcq _ m f => (Scope.ofCode? f).isSome && m != 0#4
  | .fenceRel _ m f => (Scope.ofCode? f).isSome && m != 0#4
  | .fenceAr _ m f => (Scope.ofCode? f).isSome && m != 0#4
  | i => match i.scopeCode with
    | none => true
    | some f => (Scope.ofCode? f).isSome

/-- R64: with a 32-bit immediate shift, bit [5] of the amount is zero. -/
def Instr.shiftOk (i : Instr) : Bool :=
  match i with
  | .shlImm _ _ _ w n => w == .w64 || !n.getLsbD 5
  | .shrImm _ _ _ w n => w == .w64 || !n.getLsbD 5
  | .sarImm _ _ _ w n => w == .w64 || !n.getLsbD 5
  | _ => true

/-- Every check of an instruction that needs no state. -/
def Instr.wellFormed (i : Instr) : Bool := i.shiftOk && i.aligned && i.scopeOk

end Sys2Proof
end

