-- ==== Sys2Proof/Decode.lean ====
section
/-! DEFINITION. Decoding and encoding of instruction words (Tables 3.1 to 3.5). A row reads a word of its major: its fixed bits, then its fields. A word whose major is unassigned, or
that no row of its major matches (a reserved selector or a nonzero must-be-zero bit, R38), is refused by name. -/
namespace Sys2Proof

/-- Why a word is no instruction: orders 1 to 3 of Table 3.6. -/
inductive DecodeError where
  /-- Order 1: the major is unassigned. -/
  | unassignedMajor
  /-- Orders 2 and 3: a reserved selector or sub-field value, or a nonzero must-be-zero bit. -/
  | reserved
  deriving DecidableEq, Repr

/-- The switch marker, bit 31. -/
def sw (w : Word) : Bool := w.getLsbD 31

/-- IADD (R60). -/
def rowIadd (w : Word) : Option Instr :=
  if w.extractLsb' 1 2 = 0x0#2 then some (.iadd (sw w) (w.extractLsb' 17 7) (w.extractLsb' 10 7) (w.extractLsb' 3 7) (Width.ofCode (w.extractLsb' 0 1))) else none

/-- IADD_SAT (R60). -/
def rowIaddSat (w : Word) : Option Instr :=
  if w.extractLsb' 1 2 = 0x1#2 then some (.iaddSat (sw w) (w.extractLsb' 17 7) (w.extractLsb' 10 7) (w.extractLsb' 3 7) (Sgn.ofCode (w.extractLsb' 0 1))) else none

/-- ISUB (R60). -/
def rowIsub (w : Word) : Option Instr :=
  if w.extractLsb' 1 2 = 0x0#2 then some (.isub (sw w) (w.extractLsb' 17 7) (w.extractLsb' 10 7) (w.extractLsb' 3 7) (Width.ofCode (w.extractLsb' 0 1))) else none

/-- ISUB_SAT (R60). -/
def rowIsubSat (w : Word) : Option Instr :=
  if w.extractLsb' 1 2 = 0x1#2 then some (.isubSat (sw w) (w.extractLsb' 17 7) (w.extractLsb' 10 7) (w.extractLsb' 3 7) (Sgn.ofCode (w.extractLsb' 0 1))) else none

/-- IADD_IMM (R60). -/
def rowIaddImm (w : Word) : Option Instr :=
  some (.iaddImm (sw w) (w.extractLsb' 17 7) (w.extractLsb' 10 7) (w.extractLsb' 0 10))

/-- IADDC (R61). -/
def rowIaddc (w : Word) : Option Instr :=
  some (.iaddc (sw w) (w.extractLsb' 17 7) (w.extractLsb' 10 7) (w.extractLsb' 3 7) (w.extractLsb' 0 3))

/-- ISUBB (R61). -/
def rowIsubb (w : Word) : Option Instr :=
  some (.isubb (sw w) (w.extractLsb' 17 7) (w.extractLsb' 10 7) (w.extractLsb' 3 7) (w.extractLsb' 0 3))

/-- IMUL (R62). -/
def rowImul (w : Word) : Option Instr :=
  if w.extractLsb' 1 2 = 0x0#2 then some (.imul (sw w) (w.extractLsb' 17 7) (w.extractLsb' 10 7) (w.extractLsb' 3 7) (Width.ofCode (w.extractLsb' 0 1))) else none

/-- IMULH (R62). -/
def rowImulh (w : Word) : Option Instr :=
  if w.extractLsb' 1 2 = 0x1#2 then some (.imulh (sw w) (w.extractLsb' 17 7) (w.extractLsb' 10 7) (w.extractLsb' 3 7) (Sgn.ofCode (w.extractLsb' 0 1))) else none

/-- IMAD (R60). -/
def rowImad (w : Word) : Option Instr :=
  if w.extractLsb' 1 2 = 0x0#2 then some (.imad (sw w) (w.extractLsb' 17 7) (w.extractLsb' 10 7) (w.extractLsb' 3 7) (Width.ofCode (w.extractLsb' 0 1))) else none

/-- IDIV (R63). -/
def rowIdiv (w : Word) : Option Instr :=
  if w.extractLsb' 1 2 = 0x0#2 then some (.idiv (sw w) (w.extractLsb' 17 7) (w.extractLsb' 10 7) (w.extractLsb' 3 7) (Sgn.ofCode (w.extractLsb' 0 1))) else none

/-- IREM (R63). -/
def rowIrem (w : Word) : Option Instr :=
  if w.extractLsb' 1 2 = 0x0#2 then some (.irem (sw w) (w.extractLsb' 17 7) (w.extractLsb' 10 7) (w.extractLsb' 3 7) (Sgn.ofCode (w.extractLsb' 0 1))) else none

/-- IMIN (R60). -/
def rowImin (w : Word) : Option Instr :=
  if w.extractLsb' 1 2 = 0x0#2 then some (.imin (sw w) (w.extractLsb' 17 7) (w.extractLsb' 10 7) (w.extractLsb' 3 7) (Sgn.ofCode (w.extractLsb' 0 1))) else none

/-- IMAX (R60). -/
def rowImax (w : Word) : Option Instr :=
  if w.extractLsb' 1 2 = 0x1#2 then some (.imax (sw w) (w.extractLsb' 17 7) (w.extractLsb' 10 7) (w.extractLsb' 3 7) (Sgn.ofCode (w.extractLsb' 0 1))) else none

/-- IABS (R60). -/
def rowIabs (w : Word) : Option Instr :=
  if w.extractLsb' 0 10 = 0x0#10 then some (.iabs (sw w) (w.extractLsb' 17 7) (w.extractLsb' 10 7)) else none

/-- INEG (R60). -/
def rowIneg (w : Word) : Option Instr :=
  if w.extractLsb' 0 10 = 0x1#10 then some (.ineg (sw w) (w.extractLsb' 17 7) (w.extractLsb' 10 7)) else none

/-- AND (R64). -/
def rowAndR (w : Word) : Option Instr :=
  if w.extractLsb' 0 2 = 0x0#2 then some (.andR (sw w) (w.extractLsb' 17 7) (w.extractLsb' 10 7) (w.extractLsb' 3 7) (Width.ofCode (w.extractLsb' 2 1))) else none

/-- OR (R64). -/
def rowOrR (w : Word) : Option Instr :=
  if w.extractLsb' 0 2 = 0x1#2 then some (.orR (sw w) (w.extractLsb' 17 7) (w.extractLsb' 10 7) (w.extractLsb' 3 7) (Width.ofCode (w.extractLsb' 2 1))) else none

/-- XOR (R64). -/
def rowXorR (w : Word) : Option Instr :=
  if w.extractLsb' 0 2 = 0x2#2 then some (.xorR (sw w) (w.extractLsb' 17 7) (w.extractLsb' 10 7) (w.extractLsb' 3 7) (Width.ofCode (w.extractLsb' 2 1))) else none

/-- ANDN (R64). -/
def rowAndnR (w : Word) : Option Instr :=
  if w.extractLsb' 0 2 = 0x3#2 then some (.andnR (sw w) (w.extractLsb' 17 7) (w.extractLsb' 10 7) (w.extractLsb' 3 7) (Width.ofCode (w.extractLsb' 2 1))) else none

/-- AND_IMM (R64). -/
def rowAndImm (w : Word) : Option Instr :=
  some (.andImm (sw w) (w.extractLsb' 17 7) (w.extractLsb' 10 7) (w.extractLsb' 0 10))

/-- ISUB_IMM (R60). -/
def rowIsubImm (w : Word) : Option Instr :=
  some (.isubImm (sw w) (w.extractLsb' 17 7) (w.extractLsb' 10 7) (w.extractLsb' 0 10))

/-- SHL (R65). -/
def rowShl (w : Word) : Option Instr :=
  if w.extractLsb' 0 2 = 0x0#2 then some (.shl (sw w) (w.extractLsb' 17 7) (w.extractLsb' 10 7) (w.extractLsb' 3 7) (Width.ofCode (w.extractLsb' 2 1))) else none

/-- SHR (R65). -/
def rowShr (w : Word) : Option Instr :=
  if w.extractLsb' 0 2 = 0x1#2 then some (.shr (sw w) (w.extractLsb' 17 7) (w.extractLsb' 10 7) (w.extractLsb' 3 7) (Width.ofCode (w.extractLsb' 2 1))) else none

/-- SAR (R65). -/
def rowSar (w : Word) : Option Instr :=
  if w.extractLsb' 0 2 = 0x2#2 then some (.sar (sw w) (w.extractLsb' 17 7) (w.extractLsb' 10 7) (w.extractLsb' 3 7) (Width.ofCode (w.extractLsb' 2 1))) else none

/-- ROL (R65). -/
def rowRol (w : Word) : Option Instr :=
  if w.extractLsb' 0 3 = 0x3#3 then some (.rol (sw w) (w.extractLsb' 17 7) (w.extractLsb' 10 7) (w.extractLsb' 3 7)) else none

/-- SHL_IMM (R65). -/
def rowShlImm (w : Word) : Option Instr :=
  if w.extractLsb' 6 3 = 0x0#3 ∧ (w.getLsbD 9 = false → w.getLsbD 5 = false) then some (.shlImm (sw w) (w.extractLsb' 17 7) (w.extractLsb' 10 7) (Width.ofCode (w.extractLsb' 9 1)) (w.extractLsb' 0 6)) else none

/-- SHR_IMM (R65). -/
def rowShrImm (w : Word) : Option Instr :=
  if w.extractLsb' 6 3 = 0x2#3 ∧ (w.getLsbD 9 = false → w.getLsbD 5 = false) then some (.shrImm (sw w) (w.extractLsb' 17 7) (w.extractLsb' 10 7) (Width.ofCode (w.extractLsb' 9 1)) (w.extractLsb' 0 6)) else none

/-- SAR_IMM (R65). -/
def rowSarImm (w : Word) : Option Instr :=
  if w.extractLsb' 6 3 = 0x4#3 ∧ (w.getLsbD 9 = false → w.getLsbD 5 = false) then some (.sarImm (sw w) (w.extractLsb' 17 7) (w.extractLsb' 10 7) (Width.ofCode (w.extractLsb' 9 1)) (w.extractLsb' 0 6)) else none

/-- ROL_IMM (R65). -/
def rowRolImm (w : Word) : Option Instr :=
  if w.extractLsb' 5 5 = 0xC#5 then some (.rolImm (sw w) (w.extractLsb' 17 7) (w.extractLsb' 10 7) (w.extractLsb' 0 5)) else none

/-- POPC (R65). -/
def rowPopc (w : Word) : Option Instr :=
  if w.extractLsb' 3 7 = 0x0#7 ∧ w.extractLsb' 0 2 = 0x0#2 then some (.popc (sw w) (w.extractLsb' 17 7) (w.extractLsb' 10 7) (Width.ofCode (w.extractLsb' 2 1))) else none

/-- CLZ (R65). -/
def rowClz (w : Word) : Option Instr :=
  if w.extractLsb' 0 10 = 0x1#10 then some (.clz (sw w) (w.extractLsb' 17 7) (w.extractLsb' 10 7)) else none

/-- CTZ (R65). -/
def rowCtz (w : Word) : Option Instr :=
  if w.extractLsb' 0 10 = 0x2#10 then some (.ctz (sw w) (w.extractLsb' 17 7) (w.extractLsb' 10 7)) else none

/-- BREV (R65). -/
def rowBrev (w : Word) : Option Instr :=
  if w.extractLsb' 0 10 = 0x3#10 then some (.brev (sw w) (w.extractLsb' 17 7) (w.extractLsb' 10 7)) else none

/-- BFX_N32 (R66). -/
def rowBfxN32 (w : Word) : Option Instr :=
  some (.bfxN32 (sw w) (w.extractLsb' 17 7) (w.extractLsb' 10 7) (w.extractLsb' 5 5) (w.extractLsb' 0 5))

/-- BFX_I32 (R66). -/
def rowBfxI32 (w : Word) : Option Instr :=
  some (.bfxI32 (sw w) (w.extractLsb' 17 7) (w.extractLsb' 10 7) (w.extractLsb' 5 5) (w.extractLsb' 0 5))

/-- BFI (R66). -/
def rowBfi (w : Word) : Option Instr :=
  some (.bfi (sw w) (w.extractLsb' 17 7) (w.extractLsb' 10 7) (w.extractLsb' 5 5) (w.extractLsb' 0 5))

/-- ISET (R67). -/
def rowIset (w : Word) : Option Instr :=
  if w.extractLsb' 1 2 = 0x0#2 then (ICond.ofCode? (w.extractLsb' 21 3)).bind fun cF => some (.iset (sw w) cF (w.getLsbD 20) (w.extractLsb' 17 3) (w.extractLsb' 10 7) (w.extractLsb' 3 7) (Width.ofCode (w.extractLsb' 0 1))) else none

/-- ISET_IMM (R67). -/
def rowIsetImm (w : Word) : Option Instr :=
  (ICond.ofCode? (w.extractLsb' 21 3)).bind fun cF => some (.isetImm (sw w) cF (w.getLsbD 20) (w.extractLsb' 17 3) (w.extractLsb' 10 7) (w.extractLsb' 0 10))

/-- ISEL (R68). -/
def rowIsel (w : Word) : Option Instr :=
  some (.isel (sw w) (w.extractLsb' 17 7) (w.extractLsb' 10 7) (w.extractLsb' 3 7) (w.extractLsb' 0 3))

/-- PSET_AND (R68). -/
def rowPsetAnd (w : Word) : Option Instr :=
  if w.extractLsb' 20 4 = 0x0#4 ∧ w.extractLsb' 13 4 = 0x0#4 ∧ w.extractLsb' 6 4 = 0x0#4 ∧ w.extractLsb' 0 3 = 0x0#3 then some (.psetAnd (sw w) (w.extractLsb' 17 3) (w.extractLsb' 10 3) (w.extractLsb' 3 3)) else none

/-- PSET_OR (R68). -/
def rowPsetOr (w : Word) : Option Instr :=
  if w.extractLsb' 20 4 = 0x0#4 ∧ w.extractLsb' 13 4 = 0x0#4 ∧ w.extractLsb' 6 4 = 0x0#4 ∧ w.extractLsb' 0 3 = 0x1#3 then some (.psetOr (sw w) (w.extractLsb' 17 3) (w.extractLsb' 10 3) (w.extractLsb' 3 3)) else none

/-- PSET_XOR (R68). -/
def rowPsetXor (w : Word) : Option Instr :=
  if w.extractLsb' 20 4 = 0x0#4 ∧ w.extractLsb' 13 4 = 0x0#4 ∧ w.extractLsb' 6 4 = 0x0#4 ∧ w.extractLsb' 0 3 = 0x2#3 then some (.psetXor (sw w) (w.extractLsb' 17 3) (w.extractLsb' 10 3) (w.extractLsb' 3 3)) else none

/-- PSET_ANDN (R68). -/
def rowPsetAndn (w : Word) : Option Instr :=
  if w.extractLsb' 20 4 = 0x0#4 ∧ w.extractLsb' 13 4 = 0x0#4 ∧ w.extractLsb' 6 4 = 0x0#4 ∧ w.extractLsb' 0 3 = 0x3#3 then some (.psetAndn (sw w) (w.extractLsb' 17 3) (w.extractLsb' 10 3) (w.extractLsb' 3 3)) else none

/-- MOV (R69). -/
def rowMov (w : Word) : Option Instr :=
  if w.extractLsb' 1 9 = 0x0#9 then some (.mov (sw w) (w.extractLsb' 17 7) (w.extractLsb' 10 7) (Width.ofCode (w.extractLsb' 0 1))) else none

/-- MOVI (R69). -/
def rowMovi (w : Word) : Option Instr :=
  some (.movi (sw w) (w.extractLsb' 17 7) (w.extractLsb' 0 17))

/-- MOVH (R69). -/
def rowMovh (w : Word) : Option Instr :=
  some (.movh (sw w) (w.extractLsb' 17 7) (w.extractLsb' 0 17))

/-- LEA (R70). -/
def rowLea (w : Word) : Option Instr :=
  some (.lea (sw w) (w.extractLsb' 17 7) (w.extractLsb' 10 7) (w.extractLsb' 3 7) (w.extractLsb' 0 3))

/-- LEA_IMM (R70). -/
def rowLeaImm (w : Word) : Option Instr :=
  some (.leaImm (sw w) (w.extractLsb' 17 7) (w.extractLsb' 10 7) (w.extractLsb' 0 10))

/-- GETS (R71). -/
def rowGets (w : Word) : Option Instr :=
  if w.extractLsb' 10 7 = 0x0#7 then some (.gets (sw w) (w.extractLsb' 17 7) (w.extractLsb' 0 10)) else none

/-- SETS (R71). -/
def rowSets (w : Word) : Option Instr :=
  if w.extractLsb' 17 7 = 0x0#7 then some (.sets (sw w) (w.extractLsb' 10 7) (w.extractLsb' 0 10)) else none

/-- SLICEOF (R72). -/
def rowSliceof (w : Word) : Option Instr :=
  if w.extractLsb' 0 10 = 0x0#10 then some (.sliceof (sw w) (w.extractLsb' 17 7) (w.extractLsb' 10 7)) else none

/-- FADD (R84). -/
def rowFadd (w : Word) : Option Instr :=
  some (.fadd (sw w) (w.extractLsb' 17 7) (w.extractLsb' 10 7) (w.extractLsb' 3 7) (w.getLsbD 2) (Rm.ofCode (w.extractLsb' 0 2)))

/-- FSUB (R84). -/
def rowFsub (w : Word) : Option Instr :=
  some (.fsub (sw w) (w.extractLsb' 17 7) (w.extractLsb' 10 7) (w.extractLsb' 3 7) (w.getLsbD 2) (Rm.ofCode (w.extractLsb' 0 2)))

/-- FMUL (R84). -/
def rowFmul (w : Word) : Option Instr :=
  some (.fmul (sw w) (w.extractLsb' 17 7) (w.extractLsb' 10 7) (w.extractLsb' 3 7) (w.getLsbD 2) (Rm.ofCode (w.extractLsb' 0 2)))

/-- FFMA (R84). -/
def rowFfma (w : Word) : Option Instr :=
  some (.ffma (sw w) (w.extractLsb' 17 7) (w.extractLsb' 10 7) (w.extractLsb' 3 7) (w.getLsbD 2) (Rm.ofCode (w.extractLsb' 0 2)))

/-- FMIN (R86). -/
def rowFmin (w : Word) : Option Instr :=
  if w.extractLsb' 0 3 = 0x0#3 then some (.fmin (sw w) (w.extractLsb' 17 7) (w.extractLsb' 10 7) (w.extractLsb' 3 7)) else none

/-- FMAX (R86). -/
def rowFmax (w : Word) : Option Instr :=
  if w.extractLsb' 0 3 = 0x1#3 then some (.fmax (sw w) (w.extractLsb' 17 7) (w.extractLsb' 10 7) (w.extractLsb' 3 7)) else none

/-- FSET (R87). -/
def rowFset (w : Word) : Option Instr :=
  if w.extractLsb' 20 1 = 0x0#1 ∧ w.extractLsb' 0 2 = 0x0#2 then some (.fset (sw w) (FCond.ofCode (w.extractLsb' 21 3)) (w.extractLsb' 17 3) (w.extractLsb' 10 7) (w.extractLsb' 3 7) (w.getLsbD 2)) else none

/-- FSEL (R88). -/
def rowFsel (w : Word) : Option Instr :=
  some (.fsel (sw w) (w.extractLsb' 17 7) (w.extractLsb' 10 7) (w.extractLsb' 3 7) (w.extractLsb' 0 3))

/-- FRCP (R89). -/
def rowFrcp (w : Word) : Option Instr :=
  if w.extractLsb' 0 10 = 0x0#10 then some (.frcp (sw w) (w.extractLsb' 17 7) (w.extractLsb' 10 7)) else none

/-- FRSQ (R89). -/
def rowFrsq (w : Word) : Option Instr :=
  if w.extractLsb' 0 10 = 0x1#10 then some (.frsq (sw w) (w.extractLsb' 17 7) (w.extractLsb' 10 7)) else none

/-- FSQRT (R89). -/
def rowFsqrt (w : Word) : Option Instr :=
  if w.extractLsb' 0 10 = 0x2#10 then some (.fsqrt (sw w) (w.extractLsb' 17 7) (w.extractLsb' 10 7)) else none

/-- FEXP2 (R89). -/
def rowFexp2 (w : Word) : Option Instr :=
  if w.extractLsb' 0 10 = 0x3#10 then some (.fexp2 (sw w) (w.extractLsb' 17 7) (w.extractLsb' 10 7)) else none

/-- FLOG2 (R89). -/
def rowFlog2 (w : Word) : Option Instr :=
  if w.extractLsb' 0 10 = 0x4#10 then some (.flog2 (sw w) (w.extractLsb' 17 7) (w.extractLsb' 10 7)) else none

/-- FSINP (R89). -/
def rowFsinp (w : Word) : Option Instr :=
  if w.extractLsb' 0 10 = 0x5#10 then some (.fsinp (sw w) (w.extractLsb' 17 7) (w.extractLsb' 10 7)) else none

/-- FCOSP (R89). -/
def rowFcosp (w : Word) : Option Instr :=
  if w.extractLsb' 0 10 = 0x6#10 then some (.fcosp (sw w) (w.extractLsb' 17 7) (w.extractLsb' 10 7)) else none

/-- FDIV (R84). -/
def rowFdiv (w : Word) : Option Instr :=
  some (.fdiv (sw w) (w.extractLsb' 17 7) (w.extractLsb' 10 7) (w.extractLsb' 3 7) (w.getLsbD 2) (Rm.ofCode (w.extractLsb' 0 2)))

/-- FRND (R90). -/
def rowFrnd (w : Word) : Option Instr :=
  if w.extractLsb' 2 8 = 0x0#8 then some (.frnd (sw w) (w.extractLsb' 17 7) (w.extractLsb' 10 7) (Rm.ofCode (w.extractLsb' 0 2))) else none

/-- DADD (R91). -/
def rowDadd (w : Word) : Option Instr :=
  if w.extractLsb' 2 1 = 0x0#1 then some (.dadd (sw w) (w.extractLsb' 17 7) (w.extractLsb' 10 7) (w.extractLsb' 3 7) (Rm.ofCode (w.extractLsb' 0 2))) else none

/-- DMUL (R91). -/
def rowDmul (w : Word) : Option Instr :=
  if w.extractLsb' 2 1 = 0x0#1 then some (.dmul (sw w) (w.extractLsb' 17 7) (w.extractLsb' 10 7) (w.extractLsb' 3 7) (Rm.ofCode (w.extractLsb' 0 2))) else none

/-- DFMA (R91). -/
def rowDfma (w : Word) : Option Instr :=
  if w.extractLsb' 2 1 = 0x0#1 then some (.dfma (sw w) (w.extractLsb' 17 7) (w.extractLsb' 10 7) (w.extractLsb' 3 7) (Rm.ofCode (w.extractLsb' 0 2))) else none

/-- DSET (R87). -/
def rowDset (w : Word) : Option Instr :=
  if w.extractLsb' 20 1 = 0x0#1 ∧ w.extractLsb' 0 3 = 0x0#3 then some (.dset (sw w) (FCond.ofCode (w.extractLsb' 21 3)) (w.extractLsb' 17 3) (w.extractLsb' 10 7) (w.extractLsb' 3 7)) else none

/-- HPADD (R92). -/
def rowHpadd (w : Word) : Option Instr :=
  some (.hpadd (sw w) (w.extractLsb' 17 7) (w.extractLsb' 10 7) (w.extractLsb' 3 7) (w.getLsbD 2) (Rm.ofCode (w.extractLsb' 0 2)))

/-- HPMUL (R92). -/
def rowHpmul (w : Word) : Option Instr :=
  some (.hpmul (sw w) (w.extractLsb' 17 7) (w.extractLsb' 10 7) (w.extractLsb' 3 7) (w.getLsbD 2) (Rm.ofCode (w.extractLsb' 0 2)))

/-- HPFMA (R92). -/
def rowHpfma (w : Word) : Option Instr :=
  some (.hpfma (sw w) (w.extractLsb' 17 7) (w.extractLsb' 10 7) (w.extractLsb' 3 7) (w.getLsbD 2) (Rm.ofCode (w.extractLsb' 0 2)))

/-- F2I (R93). -/
def rowF2i (w : Word) : Option Instr :=
  if w.extractLsb' 2 3 = 0x0#3 then some (.f2i (sw w) (w.extractLsb' 17 7) (w.extractLsb' 10 7) (Fmt.ofCode (w.extractLsb' 8 2)) (IntTy.ofCode (w.extractLsb' 5 3)) (Rm.ofCode (w.extractLsb' 0 2))) else none

/-- I2F (R94). -/
def rowI2f (w : Word) : Option Instr :=
  if w.extractLsb' 2 3 = 0x0#3 then some (.i2f (sw w) (w.extractLsb' 17 7) (w.extractLsb' 10 7) (Fmt.ofCode (w.extractLsb' 8 2)) (IntTy.ofCode (w.extractLsb' 5 3)) (Rm.ofCode (w.extractLsb' 0 2))) else none

/-- F2F (R95). -/
def rowF2f (w : Word) : Option Instr :=
  if w.extractLsb' 3 3 = 0x0#3 then some (.f2f (sw w) (w.extractLsb' 17 7) (w.extractLsb' 10 7) (Fmt.ofCode (w.extractLsb' 8 2)) (Fmt.ofCode (w.extractLsb' 6 2)) (w.getLsbD 2) (Rm.ofCode (w.extractLsb' 0 2))) else none

/-- QGRP (R97). -/
def rowQgrp (w : Word) : Option Instr :=
  some (.qgrp (sw w) (w.extractLsb' 17 7) (w.extractLsb' 10 7) (w.extractLsb' 3 7) (w.extractLsb' 0 3))

/-- QPACK (R98). -/
def rowQpack (w : Word) : Option Instr :=
  some (.qpack (sw w) (w.extractLsb' 17 7) (w.extractLsb' 10 7) (w.extractLsb' 3 7) (w.extractLsb' 0 3))

/-- QUNPK (R99). -/
def rowQunpk (w : Word) : Option Instr :=
  some (.qunpk (sw w) (w.extractLsb' 17 7) (w.extractLsb' 10 7) (w.extractLsb' 3 7) (w.extractLsb' 0 3))

/-- SHFL_IDX (R74). -/
def rowShflIdx (w : Word) : Option Instr :=
  if w.extractLsb' 0 3 = 0x0#3 then some (.shflIdx (sw w) (w.extractLsb' 17 7) (w.extractLsb' 10 7) (w.extractLsb' 3 7)) else none

/-- SHFL_UP (R74). -/
def rowShflUp (w : Word) : Option Instr :=
  if w.extractLsb' 0 3 = 0x1#3 then some (.shflUp (sw w) (w.extractLsb' 17 7) (w.extractLsb' 10 7) (w.extractLsb' 3 7)) else none

/-- SHFL_DOWN (R74). -/
def rowShflDown (w : Word) : Option Instr :=
  if w.extractLsb' 0 3 = 0x2#3 then some (.shflDown (sw w) (w.extractLsb' 17 7) (w.extractLsb' 10 7) (w.extractLsb' 3 7)) else none

/-- SHFL_XOR (R74). -/
def rowShflXor (w : Word) : Option Instr :=
  if w.extractLsb' 0 3 = 0x3#3 then some (.shflXor (sw w) (w.extractLsb' 17 7) (w.extractLsb' 10 7) (w.extractLsb' 3 7)) else none

/-- VOTE_ANY (R75). -/
def rowVoteAny (w : Word) : Option Instr :=
  if w.extractLsb' 20 4 = 0x0#4 ∧ w.extractLsb' 13 4 = 0x0#4 ∧ w.extractLsb' 0 10 = 0x0#10 then some (.voteAny (sw w) (w.extractLsb' 17 3) (w.extractLsb' 10 3)) else none

/-- VOTE_ALL (R75). -/
def rowVoteAll (w : Word) : Option Instr :=
  if w.extractLsb' 20 4 = 0x0#4 ∧ w.extractLsb' 13 4 = 0x0#4 ∧ w.extractLsb' 0 10 = 0x1#10 then some (.voteAll (sw w) (w.extractLsb' 17 3) (w.extractLsb' 10 3)) else none

/-- VOTE_BALLOT (R75). -/
def rowVoteBallot (w : Word) : Option Instr :=
  if w.extractLsb' 13 4 = 0x0#4 ∧ w.extractLsb' 0 10 = 0x2#10 then some (.voteBallot (sw w) (w.extractLsb' 17 7) (w.extractLsb' 10 3)) else none

/-- MATCH (R76). -/
def rowMatchLanes (w : Word) : Option Instr :=
  if w.extractLsb' 1 9 = 0x0#9 then some (.matchLanes (sw w) (w.extractLsb' 17 7) (w.extractLsb' 10 7) (Width.ofCode (w.extractLsb' 0 1))) else none

/-- ELECT (R75). -/
def rowElect (w : Word) : Option Instr :=
  if w.extractLsb' 20 4 = 0x0#4 ∧ w.extractLsb' 0 17 = 0x0#17 then some (.elect (sw w) (w.extractLsb' 17 3)) else none

/-- SCAN_ADD (R77). -/
def rowScanAdd (w : Word) : Option Instr :=
  if w.extractLsb' 0 10 = 0x0#10 then some (.scanAdd (sw w) (w.extractLsb' 17 7) (w.extractLsb' 10 7)) else none

/-- SCAN_ADD_EX (R77). -/
def rowScanAddEx (w : Word) : Option Instr :=
  if w.extractLsb' 0 10 = 0x1#10 then some (.scanAddEx (sw w) (w.extractLsb' 17 7) (w.extractLsb' 10 7)) else none

/-- SCAN_MIN (R77). -/
def rowScanMin (w : Word) : Option Instr :=
  if w.extractLsb' 0 10 = 0x2#10 then some (.scanMin (sw w) (w.extractLsb' 17 7) (w.extractLsb' 10 7)) else none

/-- SCAN_MAX (R77). -/
def rowScanMax (w : Word) : Option Instr :=
  if w.extractLsb' 0 10 = 0x3#10 then some (.scanMax (sw w) (w.extractLsb' 17 7) (w.extractLsb' 10 7)) else none

/-- LMASK (R75). -/
def rowLmask (w : Word) : Option Instr :=
  if w.extractLsb' 0 17 = 0x0#17 then some (.lmask (sw w) (w.extractLsb' 17 7)) else none

/-- BRA (R78). -/
def rowBra (w : Word) : Option Instr :=
  some (.bra (sw w) (w.extractLsb' 21 3) (w.getLsbD 20) (w.extractLsb' 0 20))

/-- BRC_ANY (R78). -/
def rowBrcAny (w : Word) : Option Instr :=
  some (.brcAny (sw w) (w.extractLsb' 21 3) (w.getLsbD 20) (w.extractLsb' 0 20))

/-- BRC_ALL (R78). -/
def rowBrcAll (w : Word) : Option Instr :=
  some (.brcAll (sw w) (w.extractLsb' 21 3) (w.getLsbD 20) (w.extractLsb' 0 20))

/-- CALL (R79). -/
def rowCall (w : Word) : Option Instr :=
  some (.call (sw w) (w.extractLsb' 21 3) (w.getLsbD 20) (w.extractLsb' 0 20))

/-- RET (R79). -/
def rowRet (w : Word) : Option Instr :=
  if w.extractLsb' 17 7 = 0x0#7 ∧ w.extractLsb' 0 10 = 0x0#10 then some (.ret (sw w) (w.extractLsb' 10 7)) else none

/-- JMPV (R79). -/
def rowJmpv (w : Word) : Option Instr :=
  if w.extractLsb' 17 7 = 0x0#7 ∧ w.extractLsb' 0 10 = 0x1#10 then some (.jmpv (sw w) (w.extractLsb' 10 7)) else none

/-- WBASE (R80). -/
def rowWbase (w : Word) : Option Instr :=
  if w.extractLsb' 17 7 = 0x0#7 then some (.wbase (sw w) (w.extractLsb' 0 17)) else none

/-- NOP (R81). -/
def rowNop (w : Word) : Option Instr :=
  if w.extractLsb' 0 24 = 0x0#24 then some (.nop (sw w)) else none

/-- YIELD (R81). -/
def rowYield (w : Word) : Option Instr :=
  if w.extractLsb' 0 24 = 0x1#24 then some (.yield (sw w)) else none

/-- EXIT (R81). -/
def rowExitT (w : Word) : Option Instr :=
  if w.extractLsb' 0 24 = 0x2#24 then some (.exitT (sw w)) else none

/-- LD (R173). -/
def rowLd (w : Word) : Option Instr :=
  (LdQ.ofCode? (w.extractLsb' 0 3)).bind fun qF => some (.ld (sw w) (w.extractLsb' 17 7) (w.extractLsb' 10 7) (w.extractLsb' 3 7) qF)

/-- ST (R173). -/
def rowSt (w : Word) : Option Instr :=
  (StQ.ofCode? (w.extractLsb' 0 3)).bind fun qF => some (.st (sw w) (w.extractLsb' 17 7) (w.extractLsb' 10 7) (w.extractLsb' 3 7) qF)

/-- LDS (R173). -/
def rowLds (w : Word) : Option Instr :=
  (LdQ.ofCode? (w.extractLsb' 0 3)).bind fun qF => some (.lds (sw w) (w.extractLsb' 17 7) (w.extractLsb' 10 7) (w.extractLsb' 3 7) qF)

/-- STS (R173). -/
def rowSts (w : Word) : Option Instr :=
  (StQ.ofCode? (w.extractLsb' 0 3)).bind fun qF => some (.sts (sw w) (w.extractLsb' 17 7) (w.extractLsb' 10 7) (w.extractLsb' 3 7) qF)

/-- LDAQ (R174). -/
def rowLdaq (w : Word) : Option Instr :=
  if w.extractLsb' 5 5 = 0x0#5 then (AccSize.ofCode? (w.extractLsb' 3 2)).bind fun zF => some (.ldaq (sw w) (w.extractLsb' 17 7) (w.extractLsb' 10 7) zF (w.extractLsb' 0 3)) else none

/-- STRL (R175). -/
def rowStrl (w : Word) : Option Instr :=
  if w.extractLsb' 19 5 = 0x0#5 then (AccSize.ofCode? (w.extractLsb' 17 2)).bind fun zF => some (.strl (sw w) zF (w.extractLsb' 10 7) (w.extractLsb' 3 7) (w.extractLsb' 0 3)) else none

/-- ATOM_ADD (R176). -/
def rowAtomAdd (w : Word) : Option Instr :=
  if w.extractLsb' 8 2 = 0x0#2 then some (.atomAdd (sw w) (Ord.ofCode (w.extractLsb' 22 2)) (w.extractLsb' 17 5) (AtomTy.ofCode (w.extractLsb' 15 2)) (w.extractLsb' 10 5) (w.extractLsb' 3 5) (w.extractLsb' 0 3)) else none

/-- ATOM_MIN (R176). -/
def rowAtomMin (w : Word) : Option Instr :=
  if w.extractLsb' 8 2 = 0x1#2 then some (.atomMin (sw w) (Ord.ofCode (w.extractLsb' 22 2)) (w.extractLsb' 17 5) (AtomTy.ofCode (w.extractLsb' 15 2)) (w.extractLsb' 10 5) (w.extractLsb' 3 5) (w.extractLsb' 0 3)) else none

/-- ATOM_MAX (R176). -/
def rowAtomMax (w : Word) : Option Instr :=
  if w.extractLsb' 8 2 = 0x2#2 then some (.atomMax (sw w) (Ord.ofCode (w.extractLsb' 22 2)) (w.extractLsb' 17 5) (AtomTy.ofCode (w.extractLsb' 15 2)) (w.extractLsb' 10 5) (w.extractLsb' 3 5) (w.extractLsb' 0 3)) else none

/-- ATOM_ADD_F32 (R176). -/
def rowAtomAddF32 (w : Word) : Option Instr :=
  if w.extractLsb' 15 2 = 0x0#2 ∧ w.extractLsb' 8 2 = 0x3#2 then some (.atomAddF32 (sw w) (Ord.ofCode (w.extractLsb' 22 2)) (w.extractLsb' 17 5) (w.extractLsb' 10 5) (w.extractLsb' 3 5) (w.extractLsb' 0 3)) else none

/-- ATOM_AND (R176). -/
def rowAtomAnd (w : Word) : Option Instr :=
  if w.extractLsb' 16 1 = 0x0#1 ∧ w.extractLsb' 8 2 = 0x0#2 then some (.atomAnd (sw w) (Ord.ofCode (w.extractLsb' 22 2)) (w.extractLsb' 17 5) (Width.ofCode (w.extractLsb' 15 1)) (w.extractLsb' 10 5) (w.extractLsb' 3 5) (w.extractLsb' 0 3)) else none

/-- ATOM_OR (R176). -/
def rowAtomOr (w : Word) : Option Instr :=
  if w.extractLsb' 16 1 = 0x0#1 ∧ w.extractLsb' 8 2 = 0x1#2 then some (.atomOr (sw w) (Ord.ofCode (w.extractLsb' 22 2)) (w.extractLsb' 17 5) (Width.ofCode (w.extractLsb' 15 1)) (w.extractLsb' 10 5) (w.extractLsb' 3 5) (w.extractLsb' 0 3)) else none

/-- ATOM_XOR (R176). -/
def rowAtomXor (w : Word) : Option Instr :=
  if w.extractLsb' 16 1 = 0x0#1 ∧ w.extractLsb' 8 2 = 0x2#2 then some (.atomXor (sw w) (Ord.ofCode (w.extractLsb' 22 2)) (w.extractLsb' 17 5) (Width.ofCode (w.extractLsb' 15 1)) (w.extractLsb' 10 5) (w.extractLsb' 3 5) (w.extractLsb' 0 3)) else none

/-- ATOM_EXCH (R176). -/
def rowAtomExch (w : Word) : Option Instr :=
  if w.extractLsb' 16 1 = 0x0#1 ∧ w.extractLsb' 8 2 = 0x3#2 then some (.atomExch (sw w) (Ord.ofCode (w.extractLsb' 22 2)) (w.extractLsb' 17 5) (Width.ofCode (w.extractLsb' 15 1)) (w.extractLsb' 10 5) (w.extractLsb' 3 5) (w.extractLsb' 0 3)) else none

/-- CAS (R177). -/
def rowCas (w : Word) : Option Instr :=
  if w.extractLsb' 15 1 = 0x0#1 ∧ w.extractLsb' 8 2 = 0x0#2 then some (.cas (sw w) (Ord.ofCode (w.extractLsb' 22 2)) (w.extractLsb' 17 5) (Width.ofCode (w.extractLsb' 16 1)) (w.extractLsb' 10 5) (w.extractLsb' 3 5) (w.extractLsb' 0 3)) else none

/-- RED_ADD (R178). -/
def rowRedAdd (w : Word) : Option Instr :=
  if w.extractLsb' 18 5 = 0x0#5 then some (.redAdd (sw w) (w.getLsbD 23) (Width.ofCode (w.extractLsb' 17 1)) (w.extractLsb' 10 7) (w.extractLsb' 3 7) (w.extractLsb' 0 3)) else none

/-- RED_ADD_F32 (R178). -/
def rowRedAddF32 (w : Word) : Option Instr :=
  if w.extractLsb' 17 6 = 0x2#6 then some (.redAddF32 (sw w) (w.getLsbD 23) (w.extractLsb' 10 7) (w.extractLsb' 3 7) (w.extractLsb' 0 3)) else none

/-- RED_MIN_I32 (R178). -/
def rowRedMinI32 (w : Word) : Option Instr :=
  if w.extractLsb' 17 6 = 0x3#6 then some (.redMinI32 (sw w) (w.getLsbD 23) (w.extractLsb' 10 7) (w.extractLsb' 3 7) (w.extractLsb' 0 3)) else none

/-- RED_MIN_N32 (R178). -/
def rowRedMinN32 (w : Word) : Option Instr :=
  if w.extractLsb' 17 6 = 0x4#6 then some (.redMinN32 (sw w) (w.getLsbD 23) (w.extractLsb' 10 7) (w.extractLsb' 3 7) (w.extractLsb' 0 3)) else none

/-- RED_MAX_I32 (R178). -/
def rowRedMaxI32 (w : Word) : Option Instr :=
  if w.extractLsb' 17 6 = 0x5#6 then some (.redMaxI32 (sw w) (w.getLsbD 23) (w.extractLsb' 10 7) (w.extractLsb' 3 7) (w.extractLsb' 0 3)) else none

/-- RED_MAX_N32 (R178). -/
def rowRedMaxN32 (w : Word) : Option Instr :=
  if w.extractLsb' 17 6 = 0x6#6 then some (.redMaxN32 (sw w) (w.getLsbD 23) (w.extractLsb' 10 7) (w.extractLsb' 3 7) (w.extractLsb' 0 3)) else none

/-- RED_AND (R178). -/
def rowRedAnd (w : Word) : Option Instr :=
  if w.extractLsb' 17 6 = 0x7#6 then some (.redAnd (sw w) (w.getLsbD 23) (w.extractLsb' 10 7) (w.extractLsb' 3 7) (w.extractLsb' 0 3)) else none

/-- RED_OR (R178). -/
def rowRedOr (w : Word) : Option Instr :=
  if w.extractLsb' 17 6 = 0x8#6 then some (.redOr (sw w) (w.getLsbD 23) (w.extractLsb' 10 7) (w.extractLsb' 3 7) (w.extractLsb' 0 3)) else none

/-- RED_XOR (R178). -/
def rowRedXor (w : Word) : Option Instr :=
  if w.extractLsb' 17 6 = 0x9#6 then some (.redXor (sw w) (w.getLsbD 23) (w.extractLsb' 10 7) (w.extractLsb' 3 7) (w.extractLsb' 0 3)) else none

/-- ATOMS_ADD (R179). -/
def rowAtomsAdd (w : Word) : Option Instr :=
  if w.extractLsb' 0 3 = 0x0#3 then some (.atomsAdd (sw w) (w.extractLsb' 17 7) (w.extractLsb' 10 7) (w.extractLsb' 3 7)) else none

/-- ATOMS_MIN_I32 (R179). -/
def rowAtomsMinI32 (w : Word) : Option Instr :=
  if w.extractLsb' 0 3 = 0x1#3 then some (.atomsMinI32 (sw w) (w.extractLsb' 17 7) (w.extractLsb' 10 7) (w.extractLsb' 3 7)) else none

/-- ATOMS_MAX_I32 (R179). -/
def rowAtomsMaxI32 (w : Word) : Option Instr :=
  if w.extractLsb' 0 3 = 0x2#3 then some (.atomsMaxI32 (sw w) (w.extractLsb' 17 7) (w.extractLsb' 10 7) (w.extractLsb' 3 7)) else none

/-- ATOMS_MIN_N32 (R179). -/
def rowAtomsMinN32 (w : Word) : Option Instr :=
  if w.extractLsb' 0 3 = 0x3#3 then some (.atomsMinN32 (sw w) (w.extractLsb' 17 7) (w.extractLsb' 10 7) (w.extractLsb' 3 7)) else none

/-- ATOMS_MAX_N32 (R179). -/
def rowAtomsMaxN32 (w : Word) : Option Instr :=
  if w.extractLsb' 0 3 = 0x4#3 then some (.atomsMaxN32 (sw w) (w.extractLsb' 17 7) (w.extractLsb' 10 7) (w.extractLsb' 3 7)) else none

/-- ATOMS_AND (R179). -/
def rowAtomsAnd (w : Word) : Option Instr :=
  if w.extractLsb' 0 3 = 0x5#3 then some (.atomsAnd (sw w) (w.extractLsb' 17 7) (w.extractLsb' 10 7) (w.extractLsb' 3 7)) else none

/-- ATOMS_OR (R179). -/
def rowAtomsOr (w : Word) : Option Instr :=
  if w.extractLsb' 0 3 = 0x6#3 then some (.atomsOr (sw w) (w.extractLsb' 17 7) (w.extractLsb' 10 7) (w.extractLsb' 3 7)) else none

/-- ATOMS_EXCH (R179). -/
def rowAtomsExch (w : Word) : Option Instr :=
  if w.extractLsb' 0 3 = 0x7#3 then some (.atomsExch (sw w) (w.extractLsb' 17 7) (w.extractLsb' 10 7) (w.extractLsb' 3 7)) else none

/-- FENCE_ACQ (R180). -/
def rowFenceAcq (w : Word) : Option Instr :=
  if w.extractLsb' 21 3 = 0x0#3 ∧ w.extractLsb' 3 14 = 0x80#14 then some (.fenceAcq (sw w) (w.extractLsb' 17 4) (w.extractLsb' 0 3)) else none

/-- FENCE_REL (R180). -/
def rowFenceRel (w : Word) : Option Instr :=
  if w.extractLsb' 21 3 = 0x0#3 ∧ w.extractLsb' 3 14 = 0x100#14 then some (.fenceRel (sw w) (w.extractLsb' 17 4) (w.extractLsb' 0 3)) else none

/-- FENCE_AR (R180). -/
def rowFenceAr (w : Word) : Option Instr :=
  if w.extractLsb' 21 3 = 0x0#3 ∧ w.extractLsb' 3 14 = 0x180#14 then some (.fenceAr (sw w) (w.extractLsb' 17 4) (w.extractLsb' 0 3)) else none

/-- LDR (R181). -/
def rowLdr (w : Word) : Option Instr :=
  if w.extractLsb' 6 2 = 0x0#2 ∧ w.extractLsb' 0 3 = 0x0#3 then (AccSize.ofCode? (w.extractLsb' 8 2)).bind fun zF => some (.ldr (sw w) (w.extractLsb' 17 7) (w.extractLsb' 10 7) zF (w.extractLsb' 3 3)) else none

/-- PREQ (R182). -/
def rowPreq (w : Word) : Option Instr :=
  if w.extractLsb' 17 7 = 0x0#7 ∧ w.extractLsb' 0 3 = 0x0#3 then some (.preq (sw w) (w.extractLsb' 10 7) (w.extractLsb' 3 7)) else none

/-- PREF_L1 (R182). -/
def rowPrefL1 (w : Word) : Option Instr :=
  if w.extractLsb' 17 7 = 0x0#7 ∧ w.extractLsb' 0 3 = 0x1#3 then some (.prefL1 (sw w) (w.extractLsb' 10 7) (w.extractLsb' 3 7)) else none

/-- PREF_L2 (R182). -/
def rowPrefL2 (w : Word) : Option Instr :=
  if w.extractLsb' 17 7 = 0x0#7 ∧ w.extractLsb' 0 3 = 0x2#3 then some (.prefL2 (sw w) (w.extractLsb' 10 7) (w.extractLsb' 3 7)) else none

/-- PREF_MSC (R182). -/
def rowPrefMsc (w : Word) : Option Instr :=
  if w.extractLsb' 17 7 = 0x0#7 ∧ w.extractLsb' 0 3 = 0x3#3 then some (.prefMsc (sw w) (w.extractLsb' 10 7) (w.extractLsb' 3 7)) else none

/-- LINV_LINE (R182). -/
def rowLinvLine (w : Word) : Option Instr :=
  if w.extractLsb' 17 7 = 0x0#7 ∧ w.extractLsb' 0 3 = 0x4#3 then some (.linvLine (sw w) (w.extractLsb' 10 7) (w.extractLsb' 3 7)) else none

/-- LINV_CORE (R182). -/
def rowLinvCore (w : Word) : Option Instr :=
  if w.extractLsb' 0 24 = 0x5#24 then some (.linvCore (sw w)) else none

/-- LINV_CLUSTER (R182). -/
def rowLinvCluster (w : Word) : Option Instr :=
  if w.extractLsb' 0 24 = 0x6#24 then some (.linvCluster (sw w)) else none

/-- BAR_SYNC (R245). -/
def rowBarSync (w : Word) : Option Instr :=
  if w.extractLsb' 21 3 = 0x0#3 ∧ w.extractLsb' 0 17 = 0x0#17 then some (.barSync (sw w) (w.extractLsb' 17 4)) else none

/-- BAR_ARRIVE (R245). -/
def rowBarArrive (w : Word) : Option Instr :=
  if w.extractLsb' 21 3 = 0x0#3 ∧ w.extractLsb' 0 17 = 0x1#17 then some (.barArrive (sw w) (w.extractLsb' 17 4)) else none

/-- BAR_WAIT (R245). -/
def rowBarWait (w : Word) : Option Instr :=
  if w.extractLsb' 21 3 = 0x0#3 ∧ w.extractLsb' 0 17 = 0x2#17 then some (.barWait (sw w) (w.extractLsb' 17 4)) else none

/-- BARSET (R245). -/
def rowBarset (w : Word) : Option Instr :=
  if w.extractLsb' 21 3 = 0x0#3 ∧ w.extractLsb' 0 10 = 0x3#10 then some (.barset (sw w) (w.extractLsb' 17 4) (w.extractLsb' 10 7)) else none

/-- GSYNC (R248). -/
def rowGsync (w : Word) : Option Instr :=
  if w.extractLsb' 17 7 = 0x0#7 ∧ w.extractLsb' 0 10 = 0x4#10 then some (.gsync (sw w) (w.extractLsb' 10 7)) else none

/-- GSYNC_IMM (R248). -/
def rowGsyncImm (w : Word) : Option Instr :=
  if w.extractLsb' 17 7 = 0x0#7 ∧ w.extractLsb' 0 3 = 0x5#3 then some (.gsyncImm (sw w) (w.extractLsb' 3 14)) else none

/-- KSET_IMM (R105). -/
def rowKsetImm (w : Word) : Option Instr :=
  if w.extractLsb' 21 3 = 0x0#3 ∧ w.extractLsb' 13 4 = 0x0#4 ∧ w.extractLsb' 0 3 = 0x6#3 then some (.ksetImm (sw w) (w.extractLsb' 17 4) (w.extractLsb' 3 10)) else none

/-- KSET (R105). -/
def rowKset (w : Word) : Option Instr :=
  if w.extractLsb' 21 3 = 0x0#3 ∧ w.extractLsb' 0 10 = 0x7#10 then some (.kset (sw w) (w.extractLsb' 17 4) (w.extractLsb' 10 7)) else none

/-- WAITV (R249). -/
def rowWaitv (w : Word) : Option Instr :=
  if w.extractLsb' 17 3 = 0x0#3 ∧ w.extractLsb' 1 2 = 0x0#2 then (ICond.ofCode? (w.extractLsb' 21 3)).bind fun cF => some (.waitv (sw w) cF (w.getLsbD 20) (w.extractLsb' 10 7) (w.extractLsb' 3 7) (Width.ofCode (w.extractLsb' 0 1))) else none

/-- SIGNAL (R253). -/
def rowSignal (w : Word) : Option Instr :=
  if w.extractLsb' 21 3 = 0x0#3 ∧ w.extractLsb' 0 10 = 0x2#10 then some (.signal (sw w) (w.extractLsb' 17 4) (w.extractLsb' 10 7)) else none

/-- CPYIN (R187). -/
def rowCpyin (w : Word) : Option Instr :=
  if w.extractLsb' 22 2 = 0x0#2 ∧ w.extractLsb' 0 3 = 0x0#3 then some (.cpyin (sw w) (w.extractLsb' 17 5) (w.extractLsb' 10 7) (w.extractLsb' 3 7)) else none

/-- CPYOUT (R187). -/
def rowCpyout (w : Word) : Option Instr :=
  if w.extractLsb' 22 2 = 0x0#2 ∧ w.extractLsb' 0 3 = 0x0#3 then some (.cpyout (sw w) (w.extractLsb' 17 5) (w.extractLsb' 10 7) (w.extractLsb' 3 7)) else none

/-- CPY2D_IN (R188). -/
def rowCpy2dIn (w : Word) : Option Instr :=
  if w.extractLsb' 22 2 = 0x0#2 ∧ w.extractLsb' 0 3 = 0x0#3 then some (.cpy2dIn (sw w) (w.extractLsb' 17 5) (w.extractLsb' 10 7) (w.extractLsb' 3 7)) else none

/-- CPY2D_OUT (R188). -/
def rowCpy2dOut (w : Word) : Option Instr :=
  if w.extractLsb' 22 2 = 0x0#2 ∧ w.extractLsb' 0 3 = 0x1#3 then some (.cpy2dOut (sw w) (w.extractLsb' 17 5) (w.extractLsb' 10 7) (w.extractLsb' 3 7)) else none

/-- CPYMC (R191). -/
def rowCpymc (w : Word) : Option Instr :=
  if w.extractLsb' 22 2 = 0x0#2 ∧ w.extractLsb' 0 3 = 0x0#3 then some (.cpymc (sw w) (w.extractLsb' 17 5) (w.extractLsb' 10 7) (w.extractLsb' 3 7)) else none

/-- BOBSET (R185). -/
def rowBobset (w : Word) : Option Instr :=
  if w.extractLsb' 22 2 = 0x0#2 ∧ w.extractLsb' 0 10 = 0x0#10 then some (.bobset (sw w) (w.extractLsb' 17 5) (w.extractLsb' 10 7)) else none

/-- BOBWAIT (R186). -/
def rowBobwait (w : Word) : Option Instr :=
  if w.extractLsb' 15 2 = 0x0#2 ∧ w.extractLsb' 2 8 = 0x0#8 then some (.bobwait (sw w) (w.extractLsb' 17 7) (w.extractLsb' 10 5) (BobState.ofCode (w.extractLsb' 0 2))) else none

/-- BOBFREE (R184). -/
def rowBobfree (w : Word) : Option Instr :=
  if w.extractLsb' 22 2 = 0x0#2 ∧ w.extractLsb' 0 17 = 0x0#17 then some (.bobfree (sw w) (w.extractLsb' 17 5)) else none

/-- BOBQ (R185). -/
def rowBobq (w : Word) : Option Instr :=
  if w.extractLsb' 15 2 = 0x0#2 ∧ w.extractLsb' 0 10 = 0x0#10 then some (.bobq (sw w) (w.extractLsb' 17 7) (w.extractLsb' 10 5)) else none

/-- TLD (R109). -/
def rowTld (w : Word) : Option Instr :=
  if w.extractLsb' 0 3 = 0x0#3 then some (.tld (sw w) (w.extractLsb' 17 7) (w.extractLsb' 10 7) (w.extractLsb' 3 7)) else none

/-- TLD_DR (R131). -/
def rowTldDr (w : Word) : Option Instr :=
  if w.extractLsb' 0 3 = 0x1#3 then some (.tldDr (sw w) (w.extractLsb' 17 7) (w.extractLsb' 10 7) (w.extractLsb' 3 7)) else none

/-- TST (R109). -/
def rowTst (w : Word) : Option Instr :=
  if w.extractLsb' 0 3 = 0x0#3 then some (.tst (sw w) (w.extractLsb' 17 7) (w.extractLsb' 10 7) (w.extractLsb' 3 7)) else none

/-- TST_DR (R131). -/
def rowTstDr (w : Word) : Option Instr :=
  if w.extractLsb' 0 3 = 0x1#3 then some (.tstDr (sw w) (w.extractLsb' 17 7) (w.extractLsb' 10 7) (w.extractLsb' 3 7)) else none

/-- TLDQ (R110). -/
def rowTldq (w : Word) : Option Instr :=
  some (.tldq (sw w) (w.extractLsb' 17 7) (w.extractLsb' 10 7) (w.extractLsb' 3 7) (w.extractLsb' 0 3))

/-- TZERO (R111). -/
def rowTzero (w : Word) : Option Instr :=
  if w.extractLsb' 20 4 = 0x0#4 ∧ w.extractLsb' 1 15 = 0x0#15 then some (.tzero (sw w) (w.extractLsb' 16 4) (w.getLsbD 0)) else none

/-- TMMA (R112). -/
def rowTmma (w : Word) : Option Instr :=
  if w.extractLsb' 3 5 = 0x0#5 then some (.tmma (sw w) (w.extractLsb' 20 4) (w.extractLsb' 16 4) (w.extractLsb' 12 4) (w.extractLsb' 8 4) (w.extractLsb' 0 3)) else none

/-- TCVT (R113). -/
def rowTcvt (w : Word) : Option Instr :=
  if w.extractLsb' 3 9 = 0x0#9 then some (.tcvt (sw w) (w.extractLsb' 20 4) (w.extractLsb' 16 4) (w.extractLsb' 12 4) (w.extractLsb' 0 3)) else none

/-- TGETF (R114). -/
def rowTgetf (w : Word) : Option Instr :=
  if w.extractLsb' 14 3 = 0x0#3 ∧ w.extractLsb' 0 3 = 0x0#3 then some (.tgetf (sw w) (w.extractLsb' 17 7) (w.extractLsb' 10 4) (w.extractLsb' 3 7)) else none

/-- TSETF (R114). -/
def rowTsetf (w : Word) : Option Instr :=
  if w.extractLsb' 14 3 = 0x0#3 ∧ w.extractLsb' 0 3 = 0x1#3 then some (.tsetf (sw w) (w.extractLsb' 17 7) (w.extractLsb' 10 4) (w.extractLsb' 3 7)) else none

/-- TMERGE_I64 (R116). -/
def rowTmergeI64 (w : Word) : Option Instr :=
  if w.extractLsb' 0 3 = 0x0#3 then some (.tmergeI64 (sw w) (w.extractLsb' 20 4) (w.extractLsb' 17 3) (w.extractLsb' 10 7) (w.extractLsb' 3 7)) else none

/-- TMERGE_F64 (R116). -/
def rowTmergeF64 (w : Word) : Option Instr :=
  if w.extractLsb' 0 3 = 0x1#3 then some (.tmergeF64 (sw w) (w.extractLsb' 20 4) (w.extractLsb' 17 3) (w.extractLsb' 10 7) (w.extractLsb' 3 7)) else none

/-- TMERGE_F64_ORD (R117). -/
def rowTmergeF64Ord (w : Word) : Option Instr :=
  if w.extractLsb' 0 3 = 0x2#3 then some (.tmergeF64Ord (sw w) (w.extractLsb' 20 4) (w.extractLsb' 17 3) (w.extractLsb' 10 7) (w.extractLsb' 3 7)) else none

/-- TMREAD (R118). -/
def rowTmread (w : Word) : Option Instr :=
  if w.extractLsb' 1 9 = 0x0#9 then some (.tmread (sw w) (w.extractLsb' 20 4) (w.extractLsb' 17 3) (w.extractLsb' 10 7) (w.getLsbD 0)) else none

/-- TBFY (R125). -/
def rowTbfy (w : Word) : Option Instr :=
  if w.extractLsb' 0 12 = 0x0#12 then some (.tbfy (sw w) (w.extractLsb' 20 4) (w.extractLsb' 16 4) (w.extractLsb' 12 4)) else none

/-- TFCFG (R123). -/
def rowTfcfg (w : Word) : Option Instr :=
  if w.extractLsb' 17 7 = 0x0#7 ∧ w.extractLsb' 0 10 = 0x0#10 then some (.tfcfg (sw w) (w.extractLsb' 10 7)) else none

/-- TTWID (R121). -/
def rowTtwid (w : Word) : Option Instr :=
  if w.extractLsb' 0 3 = 0x0#3 then some (.ttwid (sw w) (w.extractLsb' 17 7) (w.extractLsb' 10 7) (w.extractLsb' 3 7)) else none

/-- RANK0 (R205). -/
def rowRank0 (w : Word) : Option Instr :=
  if w.extractLsb' 0 3 = 0x0#3 then some (.rank0 (sw w) (w.extractLsb' 17 7) (w.extractLsb' 10 7) (w.extractLsb' 3 7)) else none

/-- RANK1 (R205). -/
def rowRank1 (w : Word) : Option Instr :=
  if w.extractLsb' 0 3 = 0x1#3 then some (.rank1 (sw w) (w.extractLsb' 17 7) (w.extractLsb' 10 7) (w.extractLsb' 3 7)) else none

/-- SEL0 (R205). -/
def rowSel0 (w : Word) : Option Instr :=
  if w.extractLsb' 0 3 = 0x2#3 then some (.sel0 (sw w) (w.extractLsb' 17 7) (w.extractLsb' 10 7) (w.extractLsb' 3 7)) else none

/-- SEL1 (R205). -/
def rowSel1 (w : Word) : Option Instr :=
  if w.extractLsb' 0 3 = 0x3#3 then some (.sel1 (sw w) (w.extractLsb' 17 7) (w.extractLsb' 10 7) (w.extractLsb' 3 7)) else none

/-- EXCESS (R205). -/
def rowExcess (w : Word) : Option Instr :=
  if w.extractLsb' 0 3 = 0x4#3 then some (.excess (sw w) (w.extractLsb' 17 7) (w.extractLsb' 10 7) (w.extractLsb' 3 7)) else none

/-- CLOSE (R205). -/
def rowCloseBr (w : Word) : Option Instr :=
  if w.extractLsb' 0 3 = 0x0#3 then some (.closeBr (sw w) (w.extractLsb' 17 7) (w.extractLsb' 10 7) (w.extractLsb' 3 7)) else none

/-- OPEN (R205). -/
def rowOpenBr (w : Word) : Option Instr :=
  if w.extractLsb' 0 3 = 0x1#3 then some (.openBr (sw w) (w.extractLsb' 17 7) (w.extractLsb' 10 7) (w.extractLsb' 3 7)) else none

/-- ENCL (R205). -/
def rowEnclBr (w : Word) : Option Instr :=
  if w.extractLsb' 0 3 = 0x2#3 then some (.enclBr (sw w) (w.extractLsb' 17 7) (w.extractLsb' 10 7) (w.extractLsb' 3 7)) else none

/-- BINS (R206). -/
def rowBins (w : Word) : Option Instr :=
  if w.extractLsb' 0 3 = 0x0#3 then some (.bins (sw w) (w.extractLsb' 17 7) (w.extractLsb' 10 7) (w.extractLsb' 3 7)) else none

/-- BDEL (R206). -/
def rowBdel (w : Word) : Option Instr :=
  if w.extractLsb' 0 3 = 0x0#3 then some (.bdel (sw w) (w.extractLsb' 17 7) (w.extractLsb' 10 7) (w.extractLsb' 3 7)) else none

/-- SREG (R195). -/
def rowSreg (w : Word) : Option Instr :=
  if w.extractLsb' 0 10 = 0x0#10 then some (.sreg (sw w) (w.extractLsb' 17 7) (w.extractLsb' 10 7)) else none

/-- SDROP (R207). -/
def rowSdrop (w : Word) : Option Instr :=
  if w.extractLsb' 17 7 = 0x0#7 ∧ w.extractLsb' 0 10 = 0x0#10 then some (.sdrop (sw w) (w.extractLsb' 10 7)) else none

/-- SSTAT (R208). -/
def rowSstat (w : Word) : Option Instr :=
  if w.extractLsb' 0 10 = 0x1#10 then some (.sstat (sw w) (w.extractLsb' 17 7) (w.extractLsb' 10 7)) else none

/-- SSYNC (R209). -/
def rowSsync (w : Word) : Option Instr :=
  if w.extractLsb' 17 7 = 0x0#7 ∧ w.extractLsb' 0 10 = 0x0#10 then some (.ssync (sw w) (w.extractLsb' 10 7)) else none

/-- NMLOAD (R215). -/
def rowNmload (w : Word) : Option Instr :=
  if w.extractLsb' 17 7 = 0x0#7 ∧ w.extractLsb' 0 3 = 0x0#3 then some (.nmload (sw w) (w.extractLsb' 10 7) (w.extractLsb' 3 7)) else none

/-- NMRUN (R216). -/
def rowNmrun (w : Word) : Option Instr :=
  if w.extractLsb' 17 7 = 0x0#7 ∧ w.extractLsb' 0 3 = 0x0#3 then some (.nmrun (sw w) (w.extractLsb' 10 7) (w.extractLsb' 3 7)) else none

/-- NMRUN_RET (R216). -/
def rowNmrunRet (w : Word) : Option Instr :=
  if w.extractLsb' 0 3 = 0x1#3 then some (.nmrunRet (sw w) (w.extractLsb' 17 7) (w.extractLsb' 10 7) (w.extractLsb' 3 7)) else none

/-- RED_NM_ADD (R219). -/
def rowRedNmAdd (w : Word) : Option Instr :=
  if w.extractLsb' 18 5 = 0x0#5 then some (.redNmAdd (sw w) (w.getLsbD 23) (Width.ofCode (w.extractLsb' 17 1)) (w.extractLsb' 10 7) (w.extractLsb' 3 7) (w.extractLsb' 0 3)) else none

/-- RED_NM_ADD_F32 (R219). -/
def rowRedNmAddF32 (w : Word) : Option Instr :=
  if w.extractLsb' 17 6 = 0x2#6 then some (.redNmAddF32 (sw w) (w.getLsbD 23) (w.extractLsb' 10 7) (w.extractLsb' 3 7) (w.extractLsb' 0 3)) else none

/-- RED_NM_MIN_I32 (R219). -/
def rowRedNmMinI32 (w : Word) : Option Instr :=
  if w.extractLsb' 17 6 = 0x3#6 then some (.redNmMinI32 (sw w) (w.getLsbD 23) (w.extractLsb' 10 7) (w.extractLsb' 3 7) (w.extractLsb' 0 3)) else none

/-- RED_NM_MIN_N32 (R219). -/
def rowRedNmMinN32 (w : Word) : Option Instr :=
  if w.extractLsb' 17 6 = 0x4#6 then some (.redNmMinN32 (sw w) (w.getLsbD 23) (w.extractLsb' 10 7) (w.extractLsb' 3 7) (w.extractLsb' 0 3)) else none

/-- RED_NM_MAX_I32 (R219). -/
def rowRedNmMaxI32 (w : Word) : Option Instr :=
  if w.extractLsb' 17 6 = 0x5#6 then some (.redNmMaxI32 (sw w) (w.getLsbD 23) (w.extractLsb' 10 7) (w.extractLsb' 3 7) (w.extractLsb' 0 3)) else none

/-- RED_NM_MAX_N32 (R219). -/
def rowRedNmMaxN32 (w : Word) : Option Instr :=
  if w.extractLsb' 17 6 = 0x6#6 then some (.redNmMaxN32 (sw w) (w.getLsbD 23) (w.extractLsb' 10 7) (w.extractLsb' 3 7) (w.extractLsb' 0 3)) else none

/-- RED_NM_OR (R219). -/
def rowRedNmOr (w : Word) : Option Instr :=
  if w.extractLsb' 17 6 = 0x8#6 then some (.redNmOr (sw w) (w.getLsbD 23) (w.extractLsb' 10 7) (w.extractLsb' 3 7) (w.extractLsb' 0 3)) else none

/-- RZERO (R222). -/
def rowRzero (w : Word) : Option Instr :=
  if w.extractLsb' 17 7 = 0x0#7 ∧ w.extractLsb' 0 10 = 0x0#10 then some (.rzero (sw w) (w.extractLsb' 10 7)) else none

/-- RCOPY (R222). -/
def rowRcopy (w : Word) : Option Instr :=
  if w.extractLsb' 17 7 = 0x0#7 ∧ w.extractLsb' 0 3 = 0x1#3 then some (.rcopy (sw w) (w.extractLsb' 10 7) (w.extractLsb' 3 7)) else none

/-- SOLICIT (R260). -/
def rowSolicit (w : Word) : Option Instr :=
  if w.extractLsb' 21 3 = 0x0#3 then (ArgCount.ofCode? (w.extractLsb' 7 3)).bind fun nF => (Combine.ofCode? (w.extractLsb' 3 4)).bind fun cF => some (.solicit (sw w) (w.extractLsb' 17 4) (w.extractLsb' 10 7) nF cF (w.extractLsb' 0 3)) else none

/-- REPLY (R265). -/
def rowReply (w : Word) : Option Instr :=
  if w.extractLsb' 17 7 = 0x0#7 ∧ w.extractLsb' 0 10 = 0x0#10 then some (.reply (sw w) (w.extractLsb' 10 7)) else none

/-- CWAIT (R268). -/
def rowCwait (w : Word) : Option Instr :=
  if w.extractLsb' 7 10 = 0x0#10 ∧ w.extractLsb' 0 3 = 0x1#3 then some (.cwait (sw w) (w.extractLsb' 17 7) (w.extractLsb' 3 4)) else none

/-- CPOLL (R268). -/
def rowCpoll (w : Word) : Option Instr :=
  if w.extractLsb' 20 4 = 0x0#4 ∧ w.extractLsb' 7 10 = 0x0#10 ∧ w.extractLsb' 0 3 = 0x2#3 then some (.cpoll (sw w) (w.extractLsb' 17 3) (w.extractLsb' 3 4)) else none

/-- TDADD (R258). -/
def rowTdadd (w : Word) : Option Instr :=
  if w.extractLsb' 0 10 = 0x0#10 then some (.tdadd (sw w) (w.extractLsb' 17 7) (w.extractLsb' 10 7)) else none

/-- TDDEL (R259). -/
def rowTddel (w : Word) : Option Instr :=
  if w.extractLsb' 0 10 = 0x1#10 then some (.tddel (sw w) (w.extractLsb' 17 7) (w.extractLsb' 10 7)) else none

/-- TDMOVE (R270). -/
def rowTdmove (w : Word) : Option Instr :=
  if w.extractLsb' 0 3 = 0x0#3 then some (.tdmove (sw w) (w.extractLsb' 17 7) (w.extractLsb' 10 7) (w.extractLsb' 3 7)) else none

/-- LAUNCH (R237). -/
def rowLaunch (w : Word) : Option Instr :=
  if w.extractLsb' 0 3 = 0x0#3 then some (.launch (sw w) (w.extractLsb' 17 7) (w.extractLsb' 10 7) (w.extractLsb' 3 7)) else none

/-- INTR (R238). -/
def rowIntr (w : Word) : Option Instr :=
  if w.extractLsb' 10 14 = 0x0#14 then some (.intr (sw w) (w.extractLsb' 0 10)) else none

/-- TRAP (R297). -/
def rowTrap (w : Word) : Option Instr :=
  if w.extractLsb' 10 14 = 0x0#14 then some (.trap (sw w) (w.extractLsb' 0 10)) else none

/-- TRET_RE (R297). -/
def rowTretRe (w : Word) : Option Instr :=
  if w.extractLsb' 0 24 = 0x0#24 then some (.tretRe (sw w)) else none

/-- TRET_SKIP (R297). -/
def rowTretSkip (w : Word) : Option Instr :=
  if w.extractLsb' 0 24 = 0x1#24 then some (.tretSkip (sw w)) else none

/-- BKPT (R297). -/
def rowBkpt (w : Word) : Option Instr :=
  if w.extractLsb' 0 24 = 0x2#24 then some (.bkpt (sw w)) else none


/-- The rows of the opcode table that share a major opcode (Table 3.5). -/
def rowsOfMajor : Nat → List (Word → Option Instr)
  | 0x00 => [rowIadd, rowIaddSat]
  | 0x01 => [rowIsub, rowIsubSat]
  | 0x02 => [rowIaddImm]
  | 0x03 => [rowIaddc]
  | 0x04 => [rowIsubb]
  | 0x05 => [rowImul, rowImulh]
  | 0x06 => [rowImad]
  | 0x07 => [rowIdiv]
  | 0x08 => [rowIrem]
  | 0x09 => [rowImin, rowImax]
  | 0x0A => [rowIabs, rowIneg]
  | 0x0B => [rowAndR, rowOrR, rowXorR, rowAndnR]
  | 0x0C => [rowAndImm]
  | 0x0D => [rowIsubImm]
  | 0x0E => [rowShl, rowShr, rowSar, rowRol]
  | 0x0F => [rowShlImm, rowShrImm, rowSarImm, rowRolImm]
  | 0x10 => [rowPopc, rowClz, rowCtz, rowBrev]
  | 0x11 => [rowBfxN32]
  | 0x12 => [rowBfxI32]
  | 0x13 => [rowBfi]
  | 0x14 => [rowIset]
  | 0x15 => [rowIsetImm]
  | 0x16 => [rowIsel]
  | 0x17 => [rowPsetAnd, rowPsetOr, rowPsetXor, rowPsetAndn]
  | 0x18 => [rowMov]
  | 0x19 => [rowMovi]
  | 0x1A => [rowMovh]
  | 0x1B => [rowLea]
  | 0x1C => [rowLeaImm]
  | 0x1D => [rowGets]
  | 0x1E => [rowSets]
  | 0x1F => [rowSliceof]
  | 0x20 => [rowFadd]
  | 0x21 => [rowFsub]
  | 0x22 => [rowFmul]
  | 0x23 => [rowFfma]
  | 0x24 => [rowFmin, rowFmax]
  | 0x25 => [rowFset]
  | 0x26 => [rowFsel]
  | 0x27 => [rowFrcp, rowFrsq, rowFsqrt, rowFexp2, rowFlog2, rowFsinp, rowFcosp]
  | 0x28 => [rowFdiv]
  | 0x29 => [rowFrnd]
  | 0x2A => [rowDadd]
  | 0x2B => [rowDmul]
  | 0x2C => [rowDfma]
  | 0x2D => [rowDset]
  | 0x2E => [rowHpadd]
  | 0x2F => [rowHpmul]
  | 0x30 => [rowHpfma]
  | 0x31 => [rowF2i]
  | 0x32 => [rowI2f]
  | 0x33 => [rowF2f]
  | 0x34 => [rowQgrp]
  | 0x35 => [rowQpack]
  | 0x36 => [rowQunpk]
  | 0x38 => [rowShflIdx, rowShflUp, rowShflDown, rowShflXor]
  | 0x39 => [rowVoteAny, rowVoteAll, rowVoteBallot]
  | 0x3A => [rowMatchLanes]
  | 0x3B => [rowElect]
  | 0x3C => [rowScanAdd, rowScanAddEx, rowScanMin, rowScanMax]
  | 0x3D => [rowLmask]
  | 0x40 => [rowBra]
  | 0x41 => [rowBrcAny]
  | 0x42 => [rowBrcAll]
  | 0x43 => [rowCall]
  | 0x44 => [rowRet, rowJmpv]
  | 0x45 => [rowWbase]
  | 0x46 => [rowNop, rowYield, rowExitT]
  | 0x48 => [rowLd]
  | 0x49 => [rowSt]
  | 0x4A => [rowLds]
  | 0x4B => [rowSts]
  | 0x4C => [rowLdaq]
  | 0x4D => [rowStrl]
  | 0x4E => [rowAtomAdd, rowAtomMin, rowAtomMax, rowAtomAddF32]
  | 0x4F => [rowAtomAnd, rowAtomOr, rowAtomXor, rowAtomExch]
  | 0x50 => [rowCas]
  | 0x51 => [rowRedAdd, rowRedAddF32, rowRedMinI32, rowRedMinN32, rowRedMaxI32, rowRedMaxN32, rowRedAnd, rowRedOr, rowRedXor]
  | 0x52 => [rowAtomsAdd, rowAtomsMinI32, rowAtomsMaxI32, rowAtomsMinN32, rowAtomsMaxN32, rowAtomsAnd, rowAtomsOr, rowAtomsExch]
  | 0x53 => [rowFenceAcq, rowFenceRel, rowFenceAr]
  | 0x54 => [rowLdr]
  | 0x55 => [rowPreq, rowPrefL1, rowPrefL2, rowPrefMsc, rowLinvLine, rowLinvCore, rowLinvCluster]
  | 0x56 => [rowBarSync, rowBarArrive, rowBarWait, rowBarset, rowGsync, rowGsyncImm, rowKsetImm, rowKset]
  | 0x57 => [rowWaitv, rowSignal]
  | 0x58 => [rowCpyin]
  | 0x59 => [rowCpyout]
  | 0x5A => [rowCpy2dIn, rowCpy2dOut]
  | 0x5B => [rowCpymc]
  | 0x5C => [rowBobset]
  | 0x5D => [rowBobwait]
  | 0x5E => [rowBobfree]
  | 0x5F => [rowBobq]
  | 0x60 => [rowTld, rowTldDr]
  | 0x61 => [rowTst, rowTstDr]
  | 0x62 => [rowTldq]
  | 0x63 => [rowTzero]
  | 0x64 => [rowTmma]
  | 0x65 => [rowTcvt]
  | 0x66 => [rowTgetf, rowTsetf]
  | 0x67 => [rowTmergeI64, rowTmergeF64, rowTmergeF64Ord]
  | 0x68 => [rowTmread]
  | 0x69 => [rowTbfy]
  | 0x6A => [rowTfcfg]
  | 0x6B => [rowTtwid]
  | 0x6C => [rowRank0, rowRank1, rowSel0, rowSel1, rowExcess]
  | 0x6D => [rowCloseBr, rowOpenBr, rowEnclBr]
  | 0x6E => [rowBins]
  | 0x6F => [rowBdel]
  | 0x70 => [rowSreg]
  | 0x71 => [rowSdrop, rowSstat]
  | 0x72 => [rowSsync]
  | 0x74 => [rowNmload]
  | 0x75 => [rowNmrun, rowNmrunRet]
  | 0x76 => [rowRedNmAdd, rowRedNmAddF32, rowRedNmMinI32, rowRedNmMinN32, rowRedNmMaxI32, rowRedNmMaxN32, rowRedNmOr]
  | 0x77 => [rowRzero, rowRcopy]
  | 0x78 => [rowSolicit]
  | 0x79 => [rowReply, rowCwait, rowCpoll]
  | 0x7A => [rowTdadd, rowTddel]
  | 0x7B => [rowTdmove]
  | 0x7C => [rowLaunch]
  | 0x7D => [rowIntr]
  | 0x7E => [rowTrap]
  | 0x7F => [rowTretRe, rowTretSkip, rowBkpt]
  | _ => []

/-- The first row that matches. -/
def firstRow (w : Word) : List (Word → Option Instr) → Option Instr
  | [] => none
  | r :: rs => match r w with
    | some i => some i
    | none => firstRow w rs

/-- Decoding of one word (R36, R38). -/
def decode (w : Word) : Except DecodeError Instr :=
  match rowsOfMajor (w.extractLsb' 24 7).toNat with
  | [] => .error .unassignedMajor
  | rs => match firstRow w rs with
    | some i => .ok i
    | none => .error .reserved

/-- The word at the front of a list of bytes, least significant byte first (R29), and the bytes after it. -/
def takeWord : List Byte → Option (Word × List Byte)
  | b0 :: b1 :: b2 :: b3 :: rest => some (b3 ++ b2 ++ b1 ++ b0, rest)
  | _ => none

/-- Decoding from bytes. -/
def decodeBytes (bs : List Byte) : Option (Except DecodeError Instr × List Byte) :=
  (takeWord bs).map fun p => (decode p.1, p.2)

/-- The bytes of a word as memory holds them (R3, R29). -/
def wordBytes (w : Word) : List Byte :=
  [w.extractLsb' 0 8, w.extractLsb' 8 8, w.extractLsb' 16 8, w.extractLsb' 24 8]

/-- The instruction read from a word numbered as the opcode table numbers it; every instruction is one word. -/
def decodeTableWord (_nbits w : Nat) : Option Instr :=
  match decodeBytes (wordBytes (BitVec.ofNat 32 w)) with
  | some (.ok i, _) => some i
  | _ => none

/-- Encoding, from the same tables; an event has no word. -/
def Instr.encode : Instr → Option Word
  | .iadd sw d a b w => some (BitVec.ofBool sw ++ 0x00#7 ++ d ++ a ++ b ++ 0x0#2 ++ w.code)
  | .iaddSat sw d a b t => some (BitVec.ofBool sw ++ 0x00#7 ++ d ++ a ++ b ++ 0x1#2 ++ t.code)
  | .isub sw d a b w => some (BitVec.ofBool sw ++ 0x01#7 ++ d ++ a ++ b ++ 0x0#2 ++ w.code)
  | .isubSat sw d a b t => some (BitVec.ofBool sw ++ 0x01#7 ++ d ++ a ++ b ++ 0x1#2 ++ t.code)
  | .iaddImm sw d a i => some (BitVec.ofBool sw ++ 0x02#7 ++ d ++ a ++ i)
  | .iaddc sw d a b c => some (BitVec.ofBool sw ++ 0x03#7 ++ d ++ a ++ b ++ c)
  | .isubb sw d a b c => some (BitVec.ofBool sw ++ 0x04#7 ++ d ++ a ++ b ++ c)
  | .imul sw d a b w => some (BitVec.ofBool sw ++ 0x05#7 ++ d ++ a ++ b ++ 0x0#2 ++ w.code)
  | .imulh sw d a b t => some (BitVec.ofBool sw ++ 0x05#7 ++ d ++ a ++ b ++ 0x1#2 ++ t.code)
  | .imad sw d a b w => some (BitVec.ofBool sw ++ 0x06#7 ++ d ++ a ++ b ++ 0x0#2 ++ w.code)
  | .idiv sw d a b t => some (BitVec.ofBool sw ++ 0x07#7 ++ d ++ a ++ b ++ 0x0#2 ++ t.code)
  | .irem sw d a b t => some (BitVec.ofBool sw ++ 0x08#7 ++ d ++ a ++ b ++ 0x0#2 ++ t.code)
  | .imin sw d a b t => some (BitVec.ofBool sw ++ 0x09#7 ++ d ++ a ++ b ++ 0x0#2 ++ t.code)
  | .imax sw d a b t => some (BitVec.ofBool sw ++ 0x09#7 ++ d ++ a ++ b ++ 0x1#2 ++ t.code)
  | .iabs sw d a => some (BitVec.ofBool sw ++ 0x0A#7 ++ d ++ a ++ 0x0#10)
  | .ineg sw d a => some (BitVec.ofBool sw ++ 0x0A#7 ++ d ++ a ++ 0x1#10)
  | .andR sw d a b w => some (BitVec.ofBool sw ++ 0x0B#7 ++ d ++ a ++ b ++ w.code ++ 0x0#2)
  | .orR sw d a b w => some (BitVec.ofBool sw ++ 0x0B#7 ++ d ++ a ++ b ++ w.code ++ 0x1#2)
  | .xorR sw d a b w => some (BitVec.ofBool sw ++ 0x0B#7 ++ d ++ a ++ b ++ w.code ++ 0x2#2)
  | .andnR sw d a b w => some (BitVec.ofBool sw ++ 0x0B#7 ++ d ++ a ++ b ++ w.code ++ 0x3#2)
  | .andImm sw d a i => some (BitVec.ofBool sw ++ 0x0C#7 ++ d ++ a ++ i)
  | .isubImm sw d a i => some (BitVec.ofBool sw ++ 0x0D#7 ++ d ++ a ++ i)
  | .shl sw d a b w => some (BitVec.ofBool sw ++ 0x0E#7 ++ d ++ a ++ b ++ w.code ++ 0x0#2)
  | .shr sw d a b w => some (BitVec.ofBool sw ++ 0x0E#7 ++ d ++ a ++ b ++ w.code ++ 0x1#2)
  | .sar sw d a b w => some (BitVec.ofBool sw ++ 0x0E#7 ++ d ++ a ++ b ++ w.code ++ 0x2#2)
  | .rol sw d a b => some (BitVec.ofBool sw ++ 0x0E#7 ++ d ++ a ++ b ++ 0x3#3)
  | .shlImm sw d a w n => some (BitVec.ofBool sw ++ 0x0F#7 ++ d ++ a ++ w.code ++ 0x0#3 ++ n)
  | .shrImm sw d a w n => some (BitVec.ofBool sw ++ 0x0F#7 ++ d ++ a ++ w.code ++ 0x2#3 ++ n)
  | .sarImm sw d a w n => some (BitVec.ofBool sw ++ 0x0F#7 ++ d ++ a ++ w.code ++ 0x4#3 ++ n)
  | .rolImm sw d a n => some (BitVec.ofBool sw ++ 0x0F#7 ++ d ++ a ++ 0xC#5 ++ n)
  | .popc sw d a w => some (BitVec.ofBool sw ++ 0x10#7 ++ d ++ a ++ 0x0#7 ++ w.code ++ 0x0#2)
  | .clz sw d a => some (BitVec.ofBool sw ++ 0x10#7 ++ d ++ a ++ 0x1#10)
  | .ctz sw d a => some (BitVec.ofBool sw ++ 0x10#7 ++ d ++ a ++ 0x2#10)
  | .brev sw d a => some (BitVec.ofBool sw ++ 0x10#7 ++ d ++ a ++ 0x3#10)
  | .bfxN32 sw d a p w => some (BitVec.ofBool sw ++ 0x11#7 ++ d ++ a ++ p ++ w)
  | .bfxI32 sw d a p w => some (BitVec.ofBool sw ++ 0x12#7 ++ d ++ a ++ p ++ w)
  | .bfi sw d a p w => some (BitVec.ofBool sw ++ 0x13#7 ++ d ++ a ++ p ++ w)
  | .iset sw c g p a b w => some (BitVec.ofBool sw ++ 0x14#7 ++ c.code ++ BitVec.ofBool g ++ p ++ a ++ b ++ 0x0#2 ++ w.code)
  | .isetImm sw c g p a i => some (BitVec.ofBool sw ++ 0x15#7 ++ c.code ++ BitVec.ofBool g ++ p ++ a ++ i)
  | .isel sw d a b c => some (BitVec.ofBool sw ++ 0x16#7 ++ d ++ a ++ b ++ c)
  | .psetAnd sw p x y => some (BitVec.ofBool sw ++ 0x17#7 ++ 0x0#4 ++ p ++ 0x0#4 ++ x ++ 0x0#4 ++ y ++ 0x0#3)
  | .psetOr sw p x y => some (BitVec.ofBool sw ++ 0x17#7 ++ 0x0#4 ++ p ++ 0x0#4 ++ x ++ 0x0#4 ++ y ++ 0x1#3)
  | .psetXor sw p x y => some (BitVec.ofBool sw ++ 0x17#7 ++ 0x0#4 ++ p ++ 0x0#4 ++ x ++ 0x0#4 ++ y ++ 0x2#3)
  | .psetAndn sw p x y => some (BitVec.ofBool sw ++ 0x17#7 ++ 0x0#4 ++ p ++ 0x0#4 ++ x ++ 0x0#4 ++ y ++ 0x3#3)
  | .mov sw d a w => some (BitVec.ofBool sw ++ 0x18#7 ++ d ++ a ++ 0x0#9 ++ w.code)
  | .movi sw d i => some (BitVec.ofBool sw ++ 0x19#7 ++ d ++ i)
  | .movh sw d i => some (BitVec.ofBool sw ++ 0x1A#7 ++ d ++ i)
  | .lea sw d a b f => some (BitVec.ofBool sw ++ 0x1B#7 ++ d ++ a ++ b ++ f)
  | .leaImm sw d a i => some (BitVec.ofBool sw ++ 0x1C#7 ++ d ++ a ++ i)
  | .gets sw d i => some (BitVec.ofBool sw ++ 0x1D#7 ++ d ++ 0x0#7 ++ i)
  | .sets sw a i => some (BitVec.ofBool sw ++ 0x1E#7 ++ 0x0#7 ++ a ++ i)
  | .sliceof sw d a => some (BitVec.ofBool sw ++ 0x1F#7 ++ d ++ a ++ 0x0#10)
  | .fadd sw d a b z r => some (BitVec.ofBool sw ++ 0x20#7 ++ d ++ a ++ b ++ BitVec.ofBool z ++ r.code)
  | .fsub sw d a b z r => some (BitVec.ofBool sw ++ 0x21#7 ++ d ++ a ++ b ++ BitVec.ofBool z ++ r.code)
  | .fmul sw d a b z r => some (BitVec.ofBool sw ++ 0x22#7 ++ d ++ a ++ b ++ BitVec.ofBool z ++ r.code)
  | .ffma sw d a b z r => some (BitVec.ofBool sw ++ 0x23#7 ++ d ++ a ++ b ++ BitVec.ofBool z ++ r.code)
  | .fmin sw d a b => some (BitVec.ofBool sw ++ 0x24#7 ++ d ++ a ++ b ++ 0x0#3)
  | .fmax sw d a b => some (BitVec.ofBool sw ++ 0x24#7 ++ d ++ a ++ b ++ 0x1#3)
  | .fset sw c p a b z => some (BitVec.ofBool sw ++ 0x25#7 ++ c.code ++ 0x0#1 ++ p ++ a ++ b ++ BitVec.ofBool z ++ 0x0#2)
  | .fsel sw d a b c => some (BitVec.ofBool sw ++ 0x26#7 ++ d ++ a ++ b ++ c)
  | .frcp sw d a => some (BitVec.ofBool sw ++ 0x27#7 ++ d ++ a ++ 0x0#10)
  | .frsq sw d a => some (BitVec.ofBool sw ++ 0x27#7 ++ d ++ a ++ 0x1#10)
  | .fsqrt sw d a => some (BitVec.ofBool sw ++ 0x27#7 ++ d ++ a ++ 0x2#10)
  | .fexp2 sw d a => some (BitVec.ofBool sw ++ 0x27#7 ++ d ++ a ++ 0x3#10)
  | .flog2 sw d a => some (BitVec.ofBool sw ++ 0x27#7 ++ d ++ a ++ 0x4#10)
  | .fsinp sw d a => some (BitVec.ofBool sw ++ 0x27#7 ++ d ++ a ++ 0x5#10)
  | .fcosp sw d a => some (BitVec.ofBool sw ++ 0x27#7 ++ d ++ a ++ 0x6#10)
  | .fdiv sw d a b z r => some (BitVec.ofBool sw ++ 0x28#7 ++ d ++ a ++ b ++ BitVec.ofBool z ++ r.code)
  | .frnd sw d a r => some (BitVec.ofBool sw ++ 0x29#7 ++ d ++ a ++ 0x0#8 ++ r.code)
  | .dadd sw d a b r => some (BitVec.ofBool sw ++ 0x2A#7 ++ d ++ a ++ b ++ 0x0#1 ++ r.code)
  | .dmul sw d a b r => some (BitVec.ofBool sw ++ 0x2B#7 ++ d ++ a ++ b ++ 0x0#1 ++ r.code)
  | .dfma sw d a b r => some (BitVec.ofBool sw ++ 0x2C#7 ++ d ++ a ++ b ++ 0x0#1 ++ r.code)
  | .dset sw c p a b => some (BitVec.ofBool sw ++ 0x2D#7 ++ c.code ++ 0x0#1 ++ p ++ a ++ b ++ 0x0#3)
  | .hpadd sw d a b z r => some (BitVec.ofBool sw ++ 0x2E#7 ++ d ++ a ++ b ++ BitVec.ofBool z ++ r.code)
  | .hpmul sw d a b z r => some (BitVec.ofBool sw ++ 0x2F#7 ++ d ++ a ++ b ++ BitVec.ofBool z ++ r.code)
  | .hpfma sw d a b z r => some (BitVec.ofBool sw ++ 0x30#7 ++ d ++ a ++ b ++ BitVec.ofBool z ++ r.code)
  | .f2i sw d a x t r => some (BitVec.ofBool sw ++ 0x31#7 ++ d ++ a ++ x.code ++ t.code ++ 0x0#3 ++ r.code)
  | .i2f sw d a x t r => some (BitVec.ofBool sw ++ 0x32#7 ++ d ++ a ++ x.code ++ t.code ++ 0x0#3 ++ r.code)
  | .f2f sw d a x y z r => some (BitVec.ofBool sw ++ 0x33#7 ++ d ++ a ++ x.code ++ y.code ++ 0x0#3 ++ BitVec.ofBool z ++ r.code)
  | .qgrp sw d a b f => some (BitVec.ofBool sw ++ 0x34#7 ++ d ++ a ++ b ++ f)
  | .qpack sw d a b f => some (BitVec.ofBool sw ++ 0x35#7 ++ d ++ a ++ b ++ f)
  | .qunpk sw d a b f => some (BitVec.ofBool sw ++ 0x36#7 ++ d ++ a ++ b ++ f)
  | .shflIdx sw d a b => some (BitVec.ofBool sw ++ 0x38#7 ++ d ++ a ++ b ++ 0x0#3)
  | .shflUp sw d a b => some (BitVec.ofBool sw ++ 0x38#7 ++ d ++ a ++ b ++ 0x1#3)
  | .shflDown sw d a b => some (BitVec.ofBool sw ++ 0x38#7 ++ d ++ a ++ b ++ 0x2#3)
  | .shflXor sw d a b => some (BitVec.ofBool sw ++ 0x38#7 ++ d ++ a ++ b ++ 0x3#3)
  | .voteAny sw p x => some (BitVec.ofBool sw ++ 0x39#7 ++ 0x0#4 ++ p ++ 0x0#4 ++ x ++ 0x0#10)
  | .voteAll sw p x => some (BitVec.ofBool sw ++ 0x39#7 ++ 0x0#4 ++ p ++ 0x0#4 ++ x ++ 0x1#10)
  | .voteBallot sw d x => some (BitVec.ofBool sw ++ 0x39#7 ++ d ++ 0x0#4 ++ x ++ 0x2#10)
  | .matchLanes sw d a w => some (BitVec.ofBool sw ++ 0x3A#7 ++ d ++ a ++ 0x0#9 ++ w.code)
  | .elect sw p => some (BitVec.ofBool sw ++ 0x3B#7 ++ 0x0#4 ++ p ++ 0x0#17)
  | .scanAdd sw d a => some (BitVec.ofBool sw ++ 0x3C#7 ++ d ++ a ++ 0x0#10)
  | .scanAddEx sw d a => some (BitVec.ofBool sw ++ 0x3C#7 ++ d ++ a ++ 0x1#10)
  | .scanMin sw d a => some (BitVec.ofBool sw ++ 0x3C#7 ++ d ++ a ++ 0x2#10)
  | .scanMax sw d a => some (BitVec.ofBool sw ++ 0x3C#7 ++ d ++ a ++ 0x3#10)
  | .lmask sw d => some (BitVec.ofBool sw ++ 0x3D#7 ++ d ++ 0x0#17)
  | .bra sw p n o => some (BitVec.ofBool sw ++ 0x40#7 ++ p ++ BitVec.ofBool n ++ o)
  | .brcAny sw p n o => some (BitVec.ofBool sw ++ 0x41#7 ++ p ++ BitVec.ofBool n ++ o)
  | .brcAll sw p n o => some (BitVec.ofBool sw ++ 0x42#7 ++ p ++ BitVec.ofBool n ++ o)
  | .call sw p n o => some (BitVec.ofBool sw ++ 0x43#7 ++ p ++ BitVec.ofBool n ++ o)
  | .ret sw a => some (BitVec.ofBool sw ++ 0x44#7 ++ 0x0#7 ++ a ++ 0x0#10)
  | .jmpv sw a => some (BitVec.ofBool sw ++ 0x44#7 ++ 0x0#7 ++ a ++ 0x1#10)
  | .wbase sw k => some (BitVec.ofBool sw ++ 0x45#7 ++ 0x0#7 ++ k)
  | .nop sw => some (BitVec.ofBool sw ++ 0x46#7 ++ 0x0#24)
  | .yield sw => some (BitVec.ofBool sw ++ 0x46#7 ++ 0x1#24)
  | .exitT sw => some (BitVec.ofBool sw ++ 0x46#7 ++ 0x2#24)
  | .ld sw d a i q => some (BitVec.ofBool sw ++ 0x48#7 ++ d ++ a ++ i ++ q.code)
  | .st sw d a i q => some (BitVec.ofBool sw ++ 0x49#7 ++ d ++ a ++ i ++ q.code)
  | .lds sw d a i q => some (BitVec.ofBool sw ++ 0x4A#7 ++ d ++ a ++ i ++ q.code)
  | .sts sw d a i q => some (BitVec.ofBool sw ++ 0x4B#7 ++ d ++ a ++ i ++ q.code)
  | .ldaq sw d a z f => some (BitVec.ofBool sw ++ 0x4C#7 ++ d ++ a ++ 0x0#5 ++ z.code ++ f)
  | .strl sw z a b f => some (BitVec.ofBool sw ++ 0x4D#7 ++ 0x0#5 ++ z.code ++ a ++ b ++ f)
  | .atomAdd sw o d t a b f => some (BitVec.ofBool sw ++ 0x4E#7 ++ o.code ++ d ++ t.code ++ a ++ 0x0#2 ++ b ++ f)
  | .atomMin sw o d t a b f => some (BitVec.ofBool sw ++ 0x4E#7 ++ o.code ++ d ++ t.code ++ a ++ 0x1#2 ++ b ++ f)
  | .atomMax sw o d t a b f => some (BitVec.ofBool sw ++ 0x4E#7 ++ o.code ++ d ++ t.code ++ a ++ 0x2#2 ++ b ++ f)
  | .atomAddF32 sw o d a b f => some (BitVec.ofBool sw ++ 0x4E#7 ++ o.code ++ d ++ 0x0#2 ++ a ++ 0x3#2 ++ b ++ f)
  | .atomAnd sw o d z a b f => some (BitVec.ofBool sw ++ 0x4F#7 ++ o.code ++ d ++ 0x0#1 ++ z.code ++ a ++ 0x0#2 ++ b ++ f)
  | .atomOr sw o d z a b f => some (BitVec.ofBool sw ++ 0x4F#7 ++ o.code ++ d ++ 0x0#1 ++ z.code ++ a ++ 0x1#2 ++ b ++ f)
  | .atomXor sw o d z a b f => some (BitVec.ofBool sw ++ 0x4F#7 ++ o.code ++ d ++ 0x0#1 ++ z.code ++ a ++ 0x2#2 ++ b ++ f)
  | .atomExch sw o d z a b f => some (BitVec.ofBool sw ++ 0x4F#7 ++ o.code ++ d ++ 0x0#1 ++ z.code ++ a ++ 0x3#2 ++ b ++ f)
  | .cas sw o d z a b f => some (BitVec.ofBool sw ++ 0x50#7 ++ o.code ++ d ++ z.code ++ 0x0#1 ++ a ++ 0x0#2 ++ b ++ f)
  | .redAdd sw o w a b f => some (BitVec.ofBool sw ++ 0x51#7 ++ BitVec.ofBool o ++ 0x0#5 ++ w.code ++ a ++ b ++ f)
  | .redAddF32 sw o a b f => some (BitVec.ofBool sw ++ 0x51#7 ++ BitVec.ofBool o ++ 0x2#6 ++ a ++ b ++ f)
  | .redMinI32 sw o a b f => some (BitVec.ofBool sw ++ 0x51#7 ++ BitVec.ofBool o ++ 0x3#6 ++ a ++ b ++ f)
  | .redMinN32 sw o a b f => some (BitVec.ofBool sw ++ 0x51#7 ++ BitVec.ofBool o ++ 0x4#6 ++ a ++ b ++ f)
  | .redMaxI32 sw o a b f => some (BitVec.ofBool sw ++ 0x51#7 ++ BitVec.ofBool o ++ 0x5#6 ++ a ++ b ++ f)
  | .redMaxN32 sw o a b f => some (BitVec.ofBool sw ++ 0x51#7 ++ BitVec.ofBool o ++ 0x6#6 ++ a ++ b ++ f)
  | .redAnd sw o a b f => some (BitVec.ofBool sw ++ 0x51#7 ++ BitVec.ofBool o ++ 0x7#6 ++ a ++ b ++ f)
  | .redOr sw o a b f => some (BitVec.ofBool sw ++ 0x51#7 ++ BitVec.ofBool o ++ 0x8#6 ++ a ++ b ++ f)
  | .redXor sw o a b f => some (BitVec.ofBool sw ++ 0x51#7 ++ BitVec.ofBool o ++ 0x9#6 ++ a ++ b ++ f)
  | .atomsAdd sw d a b => some (BitVec.ofBool sw ++ 0x52#7 ++ d ++ a ++ b ++ 0x0#3)
  | .atomsMinI32 sw d a b => some (BitVec.ofBool sw ++ 0x52#7 ++ d ++ a ++ b ++ 0x1#3)
  | .atomsMaxI32 sw d a b => some (BitVec.ofBool sw ++ 0x52#7 ++ d ++ a ++ b ++ 0x2#3)
  | .atomsMinN32 sw d a b => some (BitVec.ofBool sw ++ 0x52#7 ++ d ++ a ++ b ++ 0x3#3)
  | .atomsMaxN32 sw d a b => some (BitVec.ofBool sw ++ 0x52#7 ++ d ++ a ++ b ++ 0x4#3)
  | .atomsAnd sw d a b => some (BitVec.ofBool sw ++ 0x52#7 ++ d ++ a ++ b ++ 0x5#3)
  | .atomsOr sw d a b => some (BitVec.ofBool sw ++ 0x52#7 ++ d ++ a ++ b ++ 0x6#3)
  | .atomsExch sw d a b => some (BitVec.ofBool sw ++ 0x52#7 ++ d ++ a ++ b ++ 0x7#3)
  | .fenceAcq sw m f => some (BitVec.ofBool sw ++ 0x53#7 ++ 0x0#3 ++ m ++ 0x80#14 ++ f)
  | .fenceRel sw m f => some (BitVec.ofBool sw ++ 0x53#7 ++ 0x0#3 ++ m ++ 0x100#14 ++ f)
  | .fenceAr sw m f => some (BitVec.ofBool sw ++ 0x53#7 ++ 0x0#3 ++ m ++ 0x180#14 ++ f)
  | .ldr sw d a z p => some (BitVec.ofBool sw ++ 0x54#7 ++ d ++ a ++ z.code ++ 0x0#2 ++ p ++ 0x0#3)
  | .preq sw a i => some (BitVec.ofBool sw ++ 0x55#7 ++ 0x0#7 ++ a ++ i ++ 0x0#3)
  | .prefL1 sw a i => some (BitVec.ofBool sw ++ 0x55#7 ++ 0x0#7 ++ a ++ i ++ 0x1#3)
  | .prefL2 sw a i => some (BitVec.ofBool sw ++ 0x55#7 ++ 0x0#7 ++ a ++ i ++ 0x2#3)
  | .prefMsc sw a i => some (BitVec.ofBool sw ++ 0x55#7 ++ 0x0#7 ++ a ++ i ++ 0x3#3)
  | .linvLine sw a i => some (BitVec.ofBool sw ++ 0x55#7 ++ 0x0#7 ++ a ++ i ++ 0x4#3)
  | .linvCore sw => some (BitVec.ofBool sw ++ 0x55#7 ++ 0x5#24)
  | .linvCluster sw => some (BitVec.ofBool sw ++ 0x55#7 ++ 0x6#24)
  | .barSync sw x => some (BitVec.ofBool sw ++ 0x56#7 ++ 0x0#3 ++ x ++ 0x0#17)
  | .barArrive sw x => some (BitVec.ofBool sw ++ 0x56#7 ++ 0x0#3 ++ x ++ 0x1#17)
  | .barWait sw x => some (BitVec.ofBool sw ++ 0x56#7 ++ 0x0#3 ++ x ++ 0x2#17)
  | .barset sw x a => some (BitVec.ofBool sw ++ 0x56#7 ++ 0x0#3 ++ x ++ a ++ 0x3#10)
  | .gsync sw a => some (BitVec.ofBool sw ++ 0x56#7 ++ 0x0#7 ++ a ++ 0x4#10)
  | .gsyncImm sw m => some (BitVec.ofBool sw ++ 0x56#7 ++ 0x0#7 ++ m ++ 0x5#3)
  | .ksetImm sw k c => some (BitVec.ofBool sw ++ 0x56#7 ++ 0x0#3 ++ k ++ 0x0#4 ++ c ++ 0x6#3)
  | .kset sw k a => some (BitVec.ofBool sw ++ 0x56#7 ++ 0x0#3 ++ k ++ a ++ 0x7#10)
  | .waitv sw c g a b w => some (BitVec.ofBool sw ++ 0x57#7 ++ c.code ++ BitVec.ofBool g ++ 0x0#3 ++ a ++ b ++ 0x0#2 ++ w.code)
  | .signal sw x a => some (BitVec.ofBool sw ++ 0x57#7 ++ 0x0#3 ++ x ++ a ++ 0x2#10)
  | .cpyin sw x a b => some (BitVec.ofBool sw ++ 0x58#7 ++ 0x0#2 ++ x ++ a ++ b ++ 0x0#3)
  | .cpyout sw x a b => some (BitVec.ofBool sw ++ 0x59#7 ++ 0x0#2 ++ x ++ a ++ b ++ 0x0#3)
  | .cpy2dIn sw x a b => some (BitVec.ofBool sw ++ 0x5A#7 ++ 0x0#2 ++ x ++ a ++ b ++ 0x0#3)
  | .cpy2dOut sw x a b => some (BitVec.ofBool sw ++ 0x5A#7 ++ 0x0#2 ++ x ++ a ++ b ++ 0x1#3)
  | .cpymc sw x a b => some (BitVec.ofBool sw ++ 0x5B#7 ++ 0x0#2 ++ x ++ a ++ b ++ 0x0#3)
  | .bobset sw x a => some (BitVec.ofBool sw ++ 0x5C#7 ++ 0x0#2 ++ x ++ a ++ 0x0#10)
  | .bobwait sw d x bst => some (BitVec.ofBool sw ++ 0x5D#7 ++ d ++ 0x0#2 ++ x ++ 0x0#8 ++ bst.code)
  | .bobfree sw x => some (BitVec.ofBool sw ++ 0x5E#7 ++ 0x0#2 ++ x ++ 0x0#17)
  | .bobq sw d x => some (BitVec.ofBool sw ++ 0x5F#7 ++ d ++ 0x0#2 ++ x ++ 0x0#10)
  | .tld sw d a i => some (BitVec.ofBool sw ++ 0x60#7 ++ d ++ a ++ i ++ 0x0#3)
  | .tldDr sw d a i => some (BitVec.ofBool sw ++ 0x60#7 ++ d ++ a ++ i ++ 0x1#3)
  | .tst sw d a i => some (BitVec.ofBool sw ++ 0x61#7 ++ d ++ a ++ i ++ 0x0#3)
  | .tstDr sw d a i => some (BitVec.ofBool sw ++ 0x61#7 ++ d ++ a ++ i ++ 0x1#3)
  | .tldq sw d a i q => some (BitVec.ofBool sw ++ 0x62#7 ++ d ++ a ++ i ++ q)
  | .tzero sw t w => some (BitVec.ofBool sw ++ 0x63#7 ++ 0x0#4 ++ t ++ 0x0#15 ++ BitVec.ofBool w)
  | .tmma sw k d a b f => some (BitVec.ofBool sw ++ 0x64#7 ++ k ++ d ++ a ++ b ++ 0x0#5 ++ f)
  | .tcvt sw k d a f => some (BitVec.ofBool sw ++ 0x65#7 ++ k ++ d ++ a ++ 0x0#9 ++ f)
  | .tgetf sw d t b => some (BitVec.ofBool sw ++ 0x66#7 ++ d ++ 0x0#3 ++ t ++ b ++ 0x0#3)
  | .tsetf sw d t b => some (BitVec.ofBool sw ++ 0x66#7 ++ d ++ 0x0#3 ++ t ++ b ++ 0x1#3)
  | .tmergeI64 sw k m a b => some (BitVec.ofBool sw ++ 0x67#7 ++ k ++ m ++ a ++ b ++ 0x0#3)
  | .tmergeF64 sw k m a b => some (BitVec.ofBool sw ++ 0x67#7 ++ k ++ m ++ a ++ b ++ 0x1#3)
  | .tmergeF64Ord sw k m a b => some (BitVec.ofBool sw ++ 0x67#7 ++ k ++ m ++ a ++ b ++ 0x2#3)
  | .tmread sw k m a w => some (BitVec.ofBool sw ++ 0x68#7 ++ k ++ m ++ a ++ 0x0#9 ++ BitVec.ofBool w)
  | .tbfy sw k d a => some (BitVec.ofBool sw ++ 0x69#7 ++ k ++ d ++ a ++ 0x0#12)
  | .tfcfg sw a => some (BitVec.ofBool sw ++ 0x6A#7 ++ 0x0#7 ++ a ++ 0x0#10)
  | .ttwid sw d a b => some (BitVec.ofBool sw ++ 0x6B#7 ++ d ++ a ++ b ++ 0x0#3)
  | .rank0 sw d a b => some (BitVec.ofBool sw ++ 0x6C#7 ++ d ++ a ++ b ++ 0x0#3)
  | .rank1 sw d a b => some (BitVec.ofBool sw ++ 0x6C#7 ++ d ++ a ++ b ++ 0x1#3)
  | .sel0 sw d a b => some (BitVec.ofBool sw ++ 0x6C#7 ++ d ++ a ++ b ++ 0x2#3)
  | .sel1 sw d a b => some (BitVec.ofBool sw ++ 0x6C#7 ++ d ++ a ++ b ++ 0x3#3)
  | .excess sw d a b => some (BitVec.ofBool sw ++ 0x6C#7 ++ d ++ a ++ b ++ 0x4#3)
  | .closeBr sw d a b => some (BitVec.ofBool sw ++ 0x6D#7 ++ d ++ a ++ b ++ 0x0#3)
  | .openBr sw d a b => some (BitVec.ofBool sw ++ 0x6D#7 ++ d ++ a ++ b ++ 0x1#3)
  | .enclBr sw d a b => some (BitVec.ofBool sw ++ 0x6D#7 ++ d ++ a ++ b ++ 0x2#3)
  | .bins sw d a b => some (BitVec.ofBool sw ++ 0x6E#7 ++ d ++ a ++ b ++ 0x0#3)
  | .bdel sw d a b => some (BitVec.ofBool sw ++ 0x6F#7 ++ d ++ a ++ b ++ 0x0#3)
  | .sreg sw d a => some (BitVec.ofBool sw ++ 0x70#7 ++ d ++ a ++ 0x0#10)
  | .sdrop sw a => some (BitVec.ofBool sw ++ 0x71#7 ++ 0x0#7 ++ a ++ 0x0#10)
  | .sstat sw d a => some (BitVec.ofBool sw ++ 0x71#7 ++ d ++ a ++ 0x1#10)
  | .ssync sw a => some (BitVec.ofBool sw ++ 0x72#7 ++ 0x0#7 ++ a ++ 0x0#10)
  | .nmload sw a b => some (BitVec.ofBool sw ++ 0x74#7 ++ 0x0#7 ++ a ++ b ++ 0x0#3)
  | .nmrun sw a b => some (BitVec.ofBool sw ++ 0x75#7 ++ 0x0#7 ++ a ++ b ++ 0x0#3)
  | .nmrunRet sw d a b => some (BitVec.ofBool sw ++ 0x75#7 ++ d ++ a ++ b ++ 0x1#3)
  | .redNmAdd sw o w a b f => some (BitVec.ofBool sw ++ 0x76#7 ++ BitVec.ofBool o ++ 0x0#5 ++ w.code ++ a ++ b ++ f)
  | .redNmAddF32 sw o a b f => some (BitVec.ofBool sw ++ 0x76#7 ++ BitVec.ofBool o ++ 0x2#6 ++ a ++ b ++ f)
  | .redNmMinI32 sw o a b f => some (BitVec.ofBool sw ++ 0x76#7 ++ BitVec.ofBool o ++ 0x3#6 ++ a ++ b ++ f)
  | .redNmMinN32 sw o a b f => some (BitVec.ofBool sw ++ 0x76#7 ++ BitVec.ofBool o ++ 0x4#6 ++ a ++ b ++ f)
  | .redNmMaxI32 sw o a b f => some (BitVec.ofBool sw ++ 0x76#7 ++ BitVec.ofBool o ++ 0x5#6 ++ a ++ b ++ f)
  | .redNmMaxN32 sw o a b f => some (BitVec.ofBool sw ++ 0x76#7 ++ BitVec.ofBool o ++ 0x6#6 ++ a ++ b ++ f)
  | .redNmOr sw o a b f => some (BitVec.ofBool sw ++ 0x76#7 ++ BitVec.ofBool o ++ 0x8#6 ++ a ++ b ++ f)
  | .rzero sw a => some (BitVec.ofBool sw ++ 0x77#7 ++ 0x0#7 ++ a ++ 0x0#10)
  | .rcopy sw a b => some (BitVec.ofBool sw ++ 0x77#7 ++ 0x0#7 ++ a ++ b ++ 0x1#3)
  | .solicit sw q a n c f => some (BitVec.ofBool sw ++ 0x78#7 ++ 0x0#3 ++ q ++ a ++ n.code ++ c.code ++ f)
  | .reply sw a => some (BitVec.ofBool sw ++ 0x79#7 ++ 0x0#7 ++ a ++ 0x0#10)
  | .cwait sw d q => some (BitVec.ofBool sw ++ 0x79#7 ++ d ++ 0x0#10 ++ q ++ 0x1#3)
  | .cpoll sw p q => some (BitVec.ofBool sw ++ 0x79#7 ++ 0x0#4 ++ p ++ 0x0#10 ++ q ++ 0x2#3)
  | .tdadd sw d a => some (BitVec.ofBool sw ++ 0x7A#7 ++ d ++ a ++ 0x0#10)
  | .tddel sw d a => some (BitVec.ofBool sw ++ 0x7A#7 ++ d ++ a ++ 0x1#10)
  | .tdmove sw d a b => some (BitVec.ofBool sw ++ 0x7B#7 ++ d ++ a ++ b ++ 0x0#3)
  | .launch sw d a b => some (BitVec.ofBool sw ++ 0x7C#7 ++ d ++ a ++ b ++ 0x0#3)
  | .intr sw k => some (BitVec.ofBool sw ++ 0x7D#7 ++ 0x0#14 ++ k)
  | .trap sw k => some (BitVec.ofBool sw ++ 0x7E#7 ++ 0x0#14 ++ k)
  | .tretRe sw => some (BitVec.ofBool sw ++ 0x7F#7 ++ 0x0#24)
  | .tretSkip sw => some (BitVec.ofBool sw ++ 0x7F#7 ++ 0x1#24)
  | .bkpt sw => some (BitVec.ofBool sw ++ 0x7F#7 ++ 0x2#24)
  | .issuePly _ _ => none
  | .instructionFetch _ _ _ => none
  | .classLResult _ _ => none
  | .activeHoldExpired _ _ => none
  | .engineOperation _ => none
  | .mergeContribution _ _ => none
  | .orderedMergeApply _ => none
  | .homeSliceAccess _ _ => none
  | .writeAcknowledged _ => none
  | .mergingFill _ => none
  | .pageWalk _ _ _ => none
  | .controllerAgeCap _ => none
  | .copyRetire _ => none
  | .copyFaultStop _ => none
  | .multicastDelivery _ _ => none
  | .sucWriteMark _ _ => none
  | .splicerRepair _ => none
  | .succinctQuery _ => none
  | .stringUpdatePerform _ => none
  | .sdropPerform _ => none
  | .nmSegmentRun _ => none
  | .nmCommandRetire _ => none
  | .nmCommandFault _ => none
  | .redNmPlace _ => none
  | .rowOperationPerform _ => none
  | .channelPowerEntry _ _ => none
  | .channelWake _ _ => none
  | .channelIdleTimeout _ _ => none
  | .chpwrActive _ _ => none
  | .chpwrSelfRefresh _ _ => none
  | .chpwrPowerDown _ _ => none
  | .thermalSelfRefresh _ _ _ => none
  | .qctlWrite _ _ => none
  | .queueWatchWake _ => none
  | .recordDispatch _ => none
  | .teamPlace => none
  | .teamEnd _ => none
  | .stopReport _ => none
  | .queueManagerAccess _ => none
  | .priorityGraceExpired _ => none
  | .timeSliceExpired _ => none
  | .teamSave _ => none
  | .waitvWake _ => none
  | .waitvPoll _ => none
  | .barrierStall _ => none
  | .signalApply _ => none
  | .solicitAdmit _ _ => none
  | .responderStart _ => none
  | .responderEnd _ _ => none
  | .censusComplete _ => none
  | .forwardArrive _ => none
  | .moveRegister _ => none
  | .sourceEntryGone _ _ => none
  | .entryGone _ _ => none
  | .trootWrite _ _ => none
  | .clusownWrite _ _ => none
  | .clusterResponderTimeout _ => none
  | .ownerChangeComplete _ => none
  | .tclearWrite _ _ => none
  | .invctlWrite _ _ => none
  | .invalidationComplete _ => none
  | .fqbaseWrite _ _ => none
  | .fresRetry _ _ => none
  | .fresFail _ _ => none
  | .fresAck _ _ => none
  | .lostWrite _ => none
  | .cxlRequestTimeout _ => none
  | .cxlLinkDown => none
  | .flalenLinkDown _ => none
  | .hostMemRead _ _ => none
  | .hostMemWrite _ _ => none
  | .peerRequest _ _ _ _ => none
  | .hostSnoop _ => none
  | .corectlAttach _ _ => none
  | .corectlHalt _ _ => none
  | .corectlStep _ _ _ _ => none
  | .corectlReset _ => none
  | .corectlPgate _ _ => none
  | .coreGated _ => none
  | .coreWoken _ => none
  | .debugWindowWrite _ _ _ => none
  | .coreLost _ => none
  | .uncorrectableError _ => none
  | .correctedError _ => none
  | .selfTest _ _ => none
  | .succinctUnitFailure _ => none
  | .coldReset => none
  | .lcreqWrite _ => none
  | .mailboxBegin => none
  | .mailboxChunk => none
  | .mailboxCommit => none
  | .mailboxAbort => none
  | .tintrWrite _ _ => none
  | .evttailWrite _ => none
  | .reefStepDown => none
  | .reefStepUp => none
  | .registerWrite _ _ => none
  | .tenantClearComplete _ => none
  | .mailboxCommandComplete => none

end Sys2Proof
end

