-- ==== Sys2Proof/Config.lean ====
section
/-! DEFINITION. What the spec leaves open, as opaque constants that no proof can evaluate, and the capacities the
spec fixes. Each opaque constant is a free value: a statement about the model holds whatever it is. -/
namespace Sys2Proof.Config

/-- Which of several enabled steps the part takes next, at tick `n` (log 2). -/
opaque choice : Nat → Nat
/-- Which word a copy moves next, at tick `n`, by the copy's number (R189). -/
opaque nextWord : Nat → Nat → Nat
/-- The value left in a register that the spec calls unspecified (R26, R27): the `n`-th such value (log 3). -/
opaque freeWord : Nat → BitVec 32
/-- Clock cycles of a unit, beyond those that the model counts, that pass at tick `n`: of a core by its number, of the
managers and controllers under 768 (R2, R5, R22, log 4). -/
opaque elapsed : Nat → Nat → Nat
/-- The set of an L1 that a virtual line goes to, before reduction by the number of sets (R138, log 128). -/
opaque l1Set : Nat → Nat
/-- Whether a line is present in its L2 slice at tick `n` (R142, R220). -/
opaque l2Holds : Nat → Bool
/-- Whether a store, by its number, still waits in its core's memory port at tick `n`, and so translates again when
an invalidation drops its translation (R290, R303). -/
opaque deferred : Nat → Nat → Bool
/-- Whether a word of a copy, by its number, is outstanding on CXL.cache when a request times out at tick `n` (R305). -/
opaque outstanding : Nat → Nat → Bool
/-- Whether an L1 set, a translation cache, a walker cache or a fetch cache still holds an entry when it takes a new one
at tick `n`, by the entry's address: replacement is the part's own (R138, R289, R347). -/
opaque keeps : Nat → Nat → Bool
/-- Whether a self-test at tick `n` finds a lasting failure (R309). -/
opaque lasting : Nat → Bool
/-- Whether the storage of a core that wakes at tick `n` fails its test (R343). -/
opaque storageFails : Nat → Bool
/-- HWBASE of a die, by its number, as the Valern controller sets it at the `n`-th cold reset (R291). -/
opaque bootBase : Nat → Nat → Nat
/-- A byte of host memory, by host physical address, that nothing in the model has written (R332). -/
opaque hostByte : Nat → BitVec 8
/-- A byte of peer memory, by link and address, that nothing in the model has written (R288). -/
opaque peerByte : Nat → Nat → BitVec 8
/-- The Ed25519 public key fused at manufacture, as bytes (R337). -/
opaque publicKey : List (BitVec 8)
/-- The firmware image stored at manufacture (R337, log 105). -/
opaque factoryImage : List (BitVec 8)
/-- The package serial number, fused at manufacture (R338). -/
opaque serial : BitVec 64
/-- The nonce drawn at the `n`-th draw (Table 25.6). -/
opaque nonce : Nat → BitVec 32
/-- The life-cycle changes that the fuses allow at manufacture (Table 25.6, LEFT). -/
opaque fuseChanges : BitVec 4
/-- Whether the host has merged an interrupt message that is pending together with another (R238). -/
opaque mergesIntr : Nat → Bool

/-- Those cycles of a unit in the ticks before `n`: every unit has a clock of its own (R5). -/
def drift (unit : Nat) : Nat → Nat
  | 0 => 0
  | n + 1 => drift unit n + elapsed unit n

/-- Bytes of a die's stacks: 96 GiB (R143). -/
def dieBytes : Nat := 0x1800000000
/-- Class-L operations a thread may hold outstanding (R26). -/
def classLLimit : Nat := 32
/-- Copies one copy engine holds in flight (R189). -/
def copyLimit : Nat := 64
/-- Engine queue entries per team (R103). -/
def engineDepth : Nat := 8
/-- Solicit queue entries per core (R261). -/
def solicitDepth : Nat := 8
/-- Forwarding entries per core (R307). -/
def forwardEntries : Nat := 16
/-- Groups of a quadrant's active set (R15). -/
def activePlaces : Nat := 8
/-- Issue cycles a group keeps its active place while a ready group waits (R15, R239). -/
def holdCycles : Nat := 4096
/-- Cluster TLB entries (R289). -/
def tlbEntries : Nat := 4096
/-- Base-die TLB entries (R289). -/
def baseTlbEntries : Nat := 1024
/-- Ways of an L1 set (R138). -/
def l1Ways : Nat := 16
/-- Bytes of a core's SRAM array, which scratchpads and the L1 share (R1, R25). -/
def arrayBytes : Nat := 0x200000
/-- Lines of a core's fetch cache: 64 KiB of 64-byte lines (R347). -/
def fetchLines : Nat := 1024
/-- Strings of a home stack's string table (Table 13.2). -/
def stackStrings : Nat := 1024
/-- Splicer repair queue entries per stack (R200). -/
def repairDepth : Nat := 4096
/-- Ordered-merge records per slice (R117). -/
def mergeRecords : Nat := 16
/-- Row entries of a channel's hazard scoreboard (R224). -/
def scoreboardRows : Nat := 32
/-- Event records of the Valern ring (R335). -/
def eventRing : Nat := 256
/-- Watches a slice holds (R250). -/
def sliceWatches : Nat := 64
/-- Cycles of the grace period of priority preemption, in the managers' 1 GHz clock (R241). -/
def graceCycles : Nat := 20000
/-- Cycles after which a CXL.cache request times out (R305). -/
def cxlTimeout : Nat := 2 ^ 26
/-- Cycles a responder may run on after a change of cluster owner begins (R284). -/
def responderGrace : Nat := 1000000

end Sys2Proof.Config
end

