-- ==== Sys2Proof/Machine/State.lean ====
section
/-! DEFINITION. The state of the whole part as plain data: threads, groups, teams and grids; cores, clusters and
dies; memory, the requests in flight, strings, near-memory commands, solicits; the management registers; and what
the host has asked for. `State.reset` is the part right after a cold reset (R314). -/
namespace Sys2Proof.Machine
open Sys2Proof

/-- A finite map from numbers, sorted by key; an absent key stands for the value its reader names. -/
abbrev Tab (α : Type) := List (Nat × α)

/-- The four paths (R28). -/
inductive Path where
  | p | c | m | n
  deriving DecidableEq, Repr

/-- A byte after translation: of this package (die × 96 GiB + die address, R331), of the host (R332), or of the
peer at the far end of a Flalen link (R288). -/
inductive Loc where
  | dev (a : Nat)
  | host (a : Nat)
  | peer (link a : Nat)
  deriving DecidableEq, Repr

/-- A valid leaf entry (Table 21.6), with the size of its page in bytes. -/
structure Leaf where
  size : Nat
  r : Bool
  w : Bool
  x : Bool
  suc : Bool
  opt : Bool
  res : Bool
  nmok : Bool
  peer : Bool
  stripe : Bool
  smask : BitVec 8
  home : Nat
  frame : Nat
  pmask : BitVec 8
  deriving DecidableEq, Repr

/-- A TLB entry: the tag, the virtual page base and the leaf (R289). -/
structure TlbEntry where
  tag : Nat
  base : Nat
  leaf : Leaf
  deriving DecidableEq, Repr

/-- The four trap registers (Table 2.3). -/
structure Report where
  pc : DWord := 0
  code : Word := 0
  addr : DWord := 0
  aux : DWord := 0
  deriving DecidableEq, Repr

/-- What a trap saves for TRET (R296). -/
structure Frame where
  pc : DWord := 0
  b : Nat := 0
  p : BitVec 8 := 1
  v : List Word := [0, 0, 0, 0]
  deriving DecidableEq, Repr

/-- Thread states (Table 2.1). -/
inductive Status where
  | ready | parked | blocked | stalled | exited
  deriving DecidableEq, Repr

/-- What a Blocked thread waits for (R243 to R251, R186, R268, R300). A page fault parks the whole group; `own` marks
the threads whose access faulted. A barrier wait of kind `early` repeats its instruction when it ends: the thread's
earlier arrival stood in the phase (R245). A WAITV keeps its address, whether its slice holds a watch for it, that
slice, and its comparison. -/
inductive Wait where
  | none
  | barrier (b : Nat) (sync early : Bool)
  | gsync (mask : DWord)
  | waitv (ea : DWord) (watched : Bool) (slice : Nat) (cond : ICond) (signed : Bool) (w : Width) (b : DWord)
  | bobwait (bob : Nat) (state : BobState) (dst : Nat)
  | cwait (ticket : Nat) (dst : Nat)
  | pageFault (page : Nat) (write : Bool) (va : DWord) (own : Bool)
  deriving DecidableEq, Repr

/-- The result of a class-L operation: its values, the predicate it writes, the poisoned address it carries, or
the fault it reports. -/
structure Result where
  vals : List Word := []
  pred : Bool := false
  poison : Option DWord := none
  fault : Option Report := none
  deriving DecidableEq, Repr

/-- An outstanding class-L operation: its budget registers, its predicate, its result once there is one, and, for a
load, which loads of its ply it returns with (0 for none, log 120). -/
structure Outstanding where
  op : Nat
  regs : List Nat
  pred : Option Nat := none
  result : Option Result := none
  batch : Nat := 0
  deriving DecidableEq, Repr

/-- An acquire or fence that holds later operations of its thread at issue until the operations `ids` are over and the
copies `copies` have performed their reads (R151, R160); an acquire then invalidates the L1 when `inval` says so.
`scope` is a release fence's (R149). -/
structure Hold where
  ids : List Nat
  reads : Bool
  writes : Bool
  c : Bool := false
  m : Bool := false
  n : Bool := false
  inval : Bool := false
  copies : List Nat := []
  scope : Nat := 0
  deriving DecidableEq, Repr

/-- A FENCE.REL that has still to take its write: its number, its paths and its scope (R149). -/
structure RelFence where
  id : Nat
  paths : BitVec 4
  scope : Nat
  deriving DecidableEq, Repr

/-- A thread (R10, R12, Table 22.7). `unspec` and `unspecPreds` are the registers and predicates left unspecified
(R26, R27); `shelved` the faults that wait until the switch point whose trap the thread handles is reached again
(R295); `relNext` the FENCE.RELs whose write is the thread's next one on their paths, and `releases` the release
writes under way, each with the effective scope of its release (R149); `shown` what the debug window has written into
WAITA, WAITB and WAITK, while the wait is the one that it left (R336). -/
structure Thread where
  pc : DWord := 0
  regs : Tab Word := []
  poison : List Nat := []
  paddr : DWord := 0
  preds : BitVec 8 := 1
  win : Nat := 0
  flags : BitVec 6 := 0
  status : Status := .ready
  readyAt : Nat := 0
  trap : Report := {}
  imprecise : Bool := false
  inHandler : Bool := false
  frame : Frame := {}
  arrived : BitVec 16 := 0
  wait : Wait := .none
  blockedAt : Nat := 0
  outs : List Outstanding := []
  unspec : List Nat := []
  unspecPreds : List Nat := []
  faults : Tab Report := []
  shelved : Tab Report := []
  replay : Option DWord := Option.none
  joined : Nat := 0
  holds : List Hold := []
  xfault : Option (Nat × Nat) := Option.none
  after : List Nat := []
  waitOp : Option Nat := Option.none
  relNext : List RelFence := []
  releases : Tab Nat := []
  shown : Option (Wait × Nat × Nat × Nat) := Option.none
  deriving DecidableEq, Repr

/-- A resident or saved group (R10, R15, R239). Numbers 16 and 17 are the responder groups of quadrants 2, 3. -/
structure Group where
  role : Nat := 0
  budget : Nat := 32
  quad : Nat := 0
  place : Nat := 0
  active : Bool := false
  since : Nat := 0
  threads : Tab Thread := []
  faults : List Report := []
  deriving DecidableEq, Repr

/-- A running responder: the entry it serves, its solicit, its reply and the error that ended it (R262 to R265). -/
structure Responder where
  solicit : Nat
  entry : Nat
  device : Bool
  reply : Option DWord := none
  error : Option Word := none
  deriving DecidableEq, Repr

/-- A team barrier (Table 16.1). -/
structure Barrier where
  phase : BitVec 16 := 0
  mask : BitVec 4 := 15
  defer : Nat := 0
  arr : Nat := 0
  sig : Bool := false
  exp : Nat := 0
  deriving DecidableEq, Repr

/-- A knot: its tie count, the tied threads and the tie record (R105). -/
structure Knot where
  n : Nat := 1
  t : Nat := 0
  word : Option Instr := none
  addr : DWord := 0
  bval : Word := 0
  deriving DecidableEq, Repr

/-- A bobbin (R183, R184). `armed` is the count of a BOBSET; `own` says that the team's own copy winds it;
`landing` that a delivery is landing; `freeing` that BOBFREE waits for that landing. -/
structure Bobbin where
  state : BobState := .empty
  own : Bool := false
  armed : Nat := 0
  landing : Bool := false
  freeing : Bool := false
  status : Nat := 0
  drops : Nat := 0
  deriving DecidableEq, Repr

/-- States of a solicit ticket (R267). -/
inductive TicketState where
  | idle | pending | done
  deriving DecidableEq, Repr

/-- A solicit ticket (R267, Table 17.5). -/
structure Ticket where
  state : TicketState := .idle
  value : DWord := 0
  count : Word := 0
  status : Word := 0
  deviceScope : Bool := false
  deriving DecidableEq, Repr

/-- A tile register: 4,096 data bytes and the 1,024-byte side band, as 1,280 words; absent words are zero
(R100, R101). -/
abbrev Tile := Tab Word

/-- An operation in a team's engine queue: its instruction, the thread it counts to, its address and B value, the
pieces of its pages, its slot's record and the transform configuration it carries (R102 to R108, R122). -/
structure EngineOp where
  id : Nat
  op : Instr
  th : ThreadRef
  pc : DWord
  addr : DWord := 0
  bval : Word := 0
  pieces : List (Nat × Nat × Leaf) := []
  slot : Word := 0
  cfg : List Word := []
  deriving DecidableEq, Repr

/-- A ply whose operations enter the engine queue in lane order: the threads whose operation has entered, and those
whose has not, which wait at issue with the first of them (R102, R103). -/
structure OpenPly where
  entered : List ThreadRef
  rest : List ThreadRef
  deriving DecidableEq, Repr

/-- Where a team stands in its grid's locator (R252). -/
inductive Locator where
  | notPlaced | running (core : Nat) | saving | saved | restoring | ended | gone
  deriving DecidableEq, Repr

/-- States of a tile directory entry (Table 17.2). -/
inductive EntryState where
  | live | moving | forward | gone
  deriving DecidableEq, Repr

/-- A tile directory entry: its image, owner, tenant, state, destination and registration numbers (R256, R257).
`stamp` numbers each taking of the entry, so that a forward can tell its destination from a later taking. -/
structure DirEntry where
  keyLo : Nat := 0
  keyHi : Nat := 0
  handler : Nat := 0
  spBase : Nat := 0
  len : Nat := 0
  team : Nat := 0
  tenant : Nat := 0
  state : EntryState := .gone
  reserved : Bool := false
  stamp : Nat := 0
  dest : Option (Nat × Nat × Nat) := none
  deleted : Bool := false
  regSource : List Nat := []
  regDest : List Nat := []
  deriving DecidableEq, Repr

/-- A team and everything its context holds (R10, R16, R306). -/
structure Team where
  grid : Nat := 0
  index : Nat := 0
  tenant : Nat := 0
  core : Nat := 0
  placedAt : Nat := 0
  rank : Nat := 0
  saving : Bool := false
  saved : Bool := false
  savedAt : Nat := 0
  saveCount : Nat := 0
  savedFrom : Nat := 0
  area : Nat := 0
  areaSize : Nat := 0
  stopping : Option Word := none
  reported : Bool := false
  groups : Tab Group := []
  responders : Tab Responder := []
  scratchSize : Nat := 0
  scratch : Tab Byte := []
  scratchPoison : List Nat := []
  tileCount : Nat := 0
  tiles : Tab Tile := []
  lease : Nat := 16
  knots : Tab Knot := []
  barriers : Tab Barrier := []
  bobbins : Tab Bobbin := []
  entries : Tab DirEntry := []
  tickets : Tab Ticket := []
  tfcfg : List Word := [0, 0, 0, 0]
  nmStore : List DWord := []
  /-- Issued operations, oldest first: the first eight stand in the engine queue, a KSET's others wait for an entry (R103,
  R105). -/
  engine : List EngineOp := []
  plies : List OpenPly := []
  deriving DecidableEq, Repr

/-- A grid: its queue and record, its launch record's fields (Table 15.3) and its placement so far. -/
structure Grid where
  queue : Nat := 0
  record : Nat := 0
  recordVa : Nat := 0
  tenant : Nat := 0
  code : DWord := 0
  handler : DWord := 0
  param : DWord := 0
  nx : Nat := 1
  ny : Nat := 1
  nz : Nat := 1
  roles : List (Nat × Nat) := []
  scr : Nat := 0
  tileCount : Nat := 0
  lease : Nat := 16
  policy : Nat := 0
  priority : Nat := 0
  dies : List Nat := []
  wdog : Nat := 0
  fslots : List Word := []
  doneAddr : DWord := 0
  doneInc : DWord := 0
  doneIntr : Bool := false
  dvec : Nat := 0
  placed : Nat := 0
  lastDie : Option Nat := none
  ended : Nat := 0
  stopped : Option (Nat × Word) := none
  stoppedAt : Nat := 0
  waitingSince : Option Nat := none
  retired : Bool := false
  deriving DecidableEq, Repr

/-- Cache line of an L1 or a fetch cache (R138, R347). `origin` numbers, by offset, the store or the later fill that a
byte comes from; an absent one comes from the fill that took the line in (R165, log 21). -/
structure CacheLine where
  tag : Nat
  vline : Nat
  loc : Loc
  valid : BitVec 16
  data : List Byte
  origin : Tab Nat := []
  deriving DecidableEq, Repr

/-- A spawn that waits for a responder slot of a core (R262). -/
structure Spawn where
  solicit : Nat
  entry : Nat
  deriving DecidableEq, Repr

/-- CORECTL's writable fields and status (Table 22.8), the thread of a STEP that has not issued yet, and whether a
RESET waits for the core to wake (R343). -/
structure CoreCtl where
  attach : Bool := false
  halt : Bool := false
  dstat : Nat := 0
  pgate : Bool := false
  pstat : Nat := 0
  quad : Nat := 0
  place : Nat := 0
  lane : Nat := 0
  step : Option ThreadRef := none
  resetDue : Bool := false
  deriving DecidableEq, Repr

/-- A core (`gatedAt` and `stopped` count the time in which CYCLES stands still, R343) (R1, R25, R138, R256, R307,
R347); `lostStamps` are those of entries that a reset took (R271). -/
structure Core where
  cycles : Nat := 0
  gatedAt : Option Nat := none
  stopped : Nat := 0
  l1 : List CacheLine := []
  fetch : List CacheLine := []
  dir : Tab DirEntry := []
  spawns : List Spawn := []
  lostStamps : List Nat := []
  lease : Option (Nat × Nat) := none
  ctl : CoreCtl := {}
  acquires : Nat := 0
  disabled : Bool := false
  admitHold : Bool := false
  deriving DecidableEq, Repr

/-- A cluster: its owner register (Table 21.3), the change under way, the CYCLES of each core at its start, and the
TLB (R289). -/
structure Cluster where
  owned : Bool := false
  tenant : Nat := 0
  busy : Bool := false
  nextOwned : Bool := false
  nextTenant : Nat := 0
  since : List Nat := []
  tlb : List TlbEntry := []
  deriving DecidableEq, Repr

/-- Who waits for a page walk (R286): a thread's access or fetch, a copy or a near-memory command. -/
inductive Walker where
  | thread (th : ThreadRef)
  | copy (id : Nat)
  | nm (id : Nat)
  deriving DecidableEq, Repr

/-- A walk that is under way. -/
structure Walk where
  cluster : Nat
  tenant : Nat
  va : Nat
  write : Bool
  who : Walker
  deriving DecidableEq, Repr

/-- A table entry that a die's walkers keep: the virtual range it covers and the table it names (R289). -/
structure WalkEntry where
  tag : Nat
  level : Nat
  base : Nat
  table : Nat
  deriving DecidableEq, Repr

/-- A fetch miss under way, for the thread whose instruction it is (R302, R347). -/
structure Fetch where
  core : Nat
  tenant : Nat
  va : Nat
  th : ThreadRef
  deriving DecidableEq, Repr

/-- Read-modify-write steps of the home slice (Table 12.3). -/
inductive RmwOp where
  | add | min (signed : Bool) | max (signed : Bool) | addF32 | and | or | xor | exch
  deriving DecidableEq, Repr

/-- What a request does at the home (R158, R173 to R182, R219). A query, update, drop, row operation or RED on path
N is performed by its own event. -/
inductive ReqKind where
  | load (size : Nat) (signed : Bool)
  | prefetch
  | store
  | rmw (op : RmwOp) (size val : Nat) (returns : Bool)
  | cas (size cmp new : Nat)
  | redNm (op : RmwOp) (size val : Nat) (nmok : Bool)
  | query (major : Nat) (handle : Word) (operand : DWord)
  | update (insert : Bool) (handle : Word) (pos pattern : DWord) (count : Word)
  | sdrop (handle : Word)
  | ssync (handle : Word)
  | rowZero
  | rowCopy (src : List (Nat × Loc))
  deriving DecidableEq, Repr

/-- A part of a request that is performed in one step (R165): the virtual address and the place of its first byte
and, for a write, its bytes; for a read, what it read. A `fill` part reads a whole line for a load, and installs in
the L1 while `keep` holds (R139): `seen` are the bytes, by offset in the line, that its load takes from its own core
and not from the line read; `stored` those that the core has stored while the fill is in flight. `bad` marks a poisoned
read. -/
structure ReqPart where
  va : Nat
  loc : Loc
  len : Nat
  data : List Byte := []
  got : List Byte := []
  done : Bool := false
  fill : Bool := false
  keep : Bool := false
  seen : Tab Byte := []
  stored : Tab Byte := []
  bad : Bool := false
  deriving DecidableEq, Repr

/-- A memory request in flight. It is sent once every operation of `waits` is over; it is over, for whoever waits for
it, when it has left the list. `lost` is the code of a write that failed after leaving its thread (R303), with the
TRAPAUX that its chapter states, or 0; `installs` the core's count of acquires at issue (R140) and `tag` the
address-space tag it was translated under (R282); `admitted` the step at which a home stack admitted an operation on a
string (R202). -/
structure Req where
  id : Nat
  path : Path
  kind : ReqKind
  th : ThreadRef
  core : Nat
  tenant : Nat
  pc : DWord
  va : DWord
  waits : List Nat := []
  parts : List ReqPart := []
  installs : Nat := 0
  tag : Nat := 0
  admitted : Option Nat := none
  lost : Option (Word × DWord) := none
  deriving DecidableEq, Repr

/-- A copy in flight (R187 to R191): the memory side is `rows` rows of `width` bytes at pitch `pitch`; `moved` lists
the 8-byte words already moved. A multicast gathers its block in `buffer`; `targets` are the team indices still to be
served, `landing` those whose delivery is landing. Its status and drops stand in its bobbin (R183). -/
structure Copy where
  id : Nat
  th : ThreadRef
  core : Nat
  tenant : Nat
  pc : DWord
  team : Nat
  inward : Bool
  multicast : Bool := false
  bob : Option Nat
  va : Nat
  sp : Nat
  width : Nat
  rows : Nat := 1
  pitch : Nat := 0
  moved : List Nat := []
  after : List Nat := []
  buffer : Tab Byte := []
  poisoned : List Nat := []
  parked : Option Nat := none
  failed : Option Report := none
  targets : List Nat := []
  landBob : Nat := 0
  landing : List Nat := []
  move : Option Nat := none
  deriving DecidableEq, Repr

/-- A merge under way: the words still to apply, (index, contribution) (R116); `bad` when its tile was poisoned. An
ordered one has its index and count, and is applied only while `applying` (R117). -/
structure Merge where
  id : Nat
  th : ThreadRef
  core : Nat
  tenant : Nat
  pc : DWord
  va : DWord
  pieces : List (Nat × Nat × Leaf)
  float : Bool
  words : List (Nat × DWord)
  bad : Bool := false
  order : Option (Nat × Nat) := none
  applying : Bool := true
  deriving DecidableEq, Repr

/-- A sequencing record of an anchor slice: the region's first place, the tenant that opened it, the count, the next
index to apply, and the contributions that have arrived, by index (R117). -/
structure MergeRecord where
  slice : Nat
  region : Loc
  tenant : Nat
  count : Nat
  next : Nat := 0
  held : Tab Nat := []
  deriving DecidableEq, Repr

/-- A registered string (R193 to R203). `extents` are its device lines: (byte offset, length, device address). `stale`
lists the blocks queued on their own; the blocks from `buildFrom` on wait for the build. The directory: `entries`
holds the block entries (Table 13.3), `supers` the superblock entries (Table 13.4) and `nodes` the tree's, node m of
level h under h × 2^32 + m (R199); an absent entry is zero. -/
structure Str where
  tenant : Nat
  handle : Nat
  base : Nat
  cap : Nat
  len : Nat
  bp : Bool
  unbal : Bool := false
  building : Bool := true
  stack : Nat
  extents : List (Nat × Nat × Nat)
  descriptor : Loc
  descVa : Nat
  dirBase : Nat
  dirUnits : Nat
  entries : Tab Word := []
  supers : Tab DWord := []
  nodes : Tab (BitVec 128) := []
  stale : List Nat := []
  buildFrom : Nat := 0
  deriving DecidableEq, Repr

/-- The splicer of a stack: its repair queue of (string, block), a block number past the string's last one standing
for the rest of its build; the block in repair with its new entry; whether that block was marked again (R200,
R201). -/
structure Splicer where
  queue : List (Nat × Nat) := []
  repairing : Option (Nat × Nat × Word) := none
  again : Bool := false
  failed : Bool := false
  deriving DecidableEq, Repr

/-- A near-memory unit (R213): the command it has open and its registers; `saved` while they stand in the reserved
row of a sleeping channel (R225). Poisoned contents keep the address they came from (R304). -/
structure NmUnit where
  open_ : Option Nat := none
  acc : Tab DWord := []
  x : List Word := [0, 0, 0, 0, 0, 0, 0, 0]
  y : List Word := [0, 0, 0, 0, 0, 0, 0, 0]
  accBad : Tab Nat := []
  xBad : Option Nat := none
  yBad : Option Nat := none
  saved : Bool := false
  deriving DecidableEq, Repr

/-- A near-memory command (R216, R217): its body, the range still to send, the units it has opened, those whose
registers a parked command keeps in reserved rows, and A0 of each unit it has closed, with its poison. -/
structure NmCommand where
  id : Nat
  th : ThreadRef
  core : Nat
  tenant : Nat
  pc : DWord
  body : List DWord
  va : Nat
  len : Nat
  ret : Bool
  opened : List Nat := []
  kept : Tab NmUnit := []
  closed : Tab (DWord × Option Nat) := []
  parked : Option Nat := none
  failed : Option Report := none
  deriving DecidableEq, Repr

/-- A segment of a command, sent to its channel's unit (R216); `accepted` while its channel has taken it in (R225). -/
structure NmSegment where
  id : Nat
  cmd : Nat
  unit : Nat
  va : Nat
  loc : Nat
  len : Nat
  accepted : Bool := true
  deriving DecidableEq, Repr

/-- A stack channel: its power state and the damage it has taken (R225, R311, R342); `wanted` while an access waits for
it to wake. -/
structure Channel where
  req : Nat := 0
  state : Nat := 0
  busy : Bool := false
  thermal : Bool := false
  woken : Bool := false
  wanted : Bool := false
  lastAccess : Nat := 0
  narrowed : Bool := false
  retired : Bool := false
  offline : Bool := false
  spared : Nat := 0
  deriving DecidableEq, Repr

/-- A solicit and its census (R260 to R267): the cores that have admitted it, the spawns they reported, the
completions, and the replies and errors with their order keys (core, entry). -/
structure Solicit where
  id : Nat
  tenant : Nat
  core : Nat
  team : Nat
  ticket : Nat
  key : Nat
  args : List Word
  count : Nat
  combine : Combine
  device : Bool
  waits : List Nat := []
  accepted : Option Nat := none
  reached : List Nat := []
  spawned : Nat := 0
  completed : Nat := 0
  replies : List (Nat × Nat × DWord) := []
  errors : List (Nat × Nat × Word) := []
  deriving DecidableEq, Repr

/-- A TDMOVE under way: its thread and D, the source entry, the destination entry with its stamp, and the team that
takes the tile; `started` once its copy is in flight (R270). -/
structure Move where
  id : Nat
  th : ThreadRef
  d : Nat
  srcCore : Nat
  srcEntry : Nat
  dstCore : Nat
  dstEntry : Nat
  stamp : Nat
  team : Nat
  started : Bool := false
  deriving DecidableEq, Repr

/-- A forwarded spawn on its way (R271); with no destination core it waits at the team locator (R272). -/
structure Forward where
  id : Nat
  solicit : Nat
  srcCore : Nat
  srcEntry : Nat
  dstCore : Option Nat
  dstEntry : Nat
  stamp : Nat
  deriving DecidableEq, Repr

/-- A forwarding entry of a core for the copies of a saved team; once the team has been restored, `copies` are those
that it forwards (R307). -/
structure ForwardEntry where
  core : Nat
  team : Nat
  copies : Option (List Nat) := none
  deriving DecidableEq, Repr

/-- A SIGNAL on its way to the locator (R253). -/
structure Signal where
  th : ThreadRef
  grid : Nat
  index : Nat
  barrier : Nat
  dst : Nat
  waits : List Nat
  deriving DecidableEq, Repr

/-- An interrupt message that waits for its release (R238). -/
structure Message where
  tenant : Nat
  vector : Nat
  waits : List Nat
  deriving DecidableEq, Repr

/-- What a queue manager writes to tenant memory, or does after such writes (R233, R235, R236). -/
inductive MgrAct where
  | store (va : Nat) (data : List Byte)
  | addDone (va inc : Nat)
  | interrupt (vector : Nat)
  | retire
  deriving DecidableEq, Repr

/-- A manager's act for a record, in its turn; `parked` on the page of an access that waits (R345). -/
structure MgrOp where
  record : Nat
  act : MgrAct
  parked : Option Nat := none
  deriving DecidableEq, Repr

/-- A launch queue: QCTL (Table 15.2), the QCB in use and the counters its manager holds, the records retired beyond
HEAD, and the manager's acts under way (R229, R345). `parked` is the address of a read that waits for its page and
`appending` of an append's access that does; `looked` is the record that the manager has read at its dispatch point, and
`opening` says that it has yet to read the QCB. -/
structure Queue where
  en : Bool := false
  qcb : Nat := 0
  base : Nat := 0
  ring : Nat := 0
  logsz : Nat := 0
  prod : Bool := false
  head : Nat := 0
  disp : Nat := 0
  tail : Nat := 0
  retired : List Nat := []
  ops : List MgrOp := []
  parked : Option Nat := none
  appending : Option Nat := none
  looked : Option Nat := none
  opening : Bool := false
  deriving DecidableEq, Repr

/-- A fault record that its tenant's driver has not resolved (Table 22.5). -/
structure FaultRecord where
  tenant : Nat
  seq : Word
  page : Nat
  write : Bool
  kind : Nat
  cause : Nat
  deriving DecidableEq, Repr

/-- A fault record that waits for a slot of a full ring (R299): its words and what it concerns. -/
structure FaultPost where
  tenant : Nat
  page : Nat
  write : Bool
  kind : Nat
  cause : Nat
  va : DWord
  pc : DWord
  who : DWord
  team : Word
  aux : DWord
  deriving DecidableEq, Repr

/-- What the spec's registers hold for one tenant (R241, R282, R285, R290, R299, R333). -/
structure Tenant where
  en : Bool := false
  rdie : Nat := 0
  astag : Nat := 0
  root : Nat := 0
  slice : Nat := 0
  invaddr : Nat := 0
  invBusy : Bool := false
  invAll : Bool := false
  invCount : Nat := 0
  invWaits : List Nat := []
  fqEn : Bool := false
  fqRing : Nat := 0
  fqLog : Nat := 0
  fqNext : Nat := 0
  tintrCount : Nat := 0
  tintrBase : Nat := 0
  clearBusy : Bool := false
  clearRefused : Bool := false
  deriving DecidableEq, Repr

/-- Mailbox registers and the object being loaded (Table 25.8). -/
structure Mailbox where
  cmd : Nat := 0
  len : Nat := 0
  off : Nat := 0
  cnt : Nat := 0
  kind : Bool := false
  busy : Bool := false
  result : Nat := 0
  isOpen : Bool := false
  openKind : Bool := false
  openLen : Nat := 0
  next : Nat := 0
  object : List Byte := []
  window : Tab Byte := []
  deriving DecidableEq, Repr

/-- A record of the Valern event ring (R335). -/
structure Event where
  code : Nat
  die : Nat
  unit : Nat
  addr : Nat
  deriving DecidableEq, Repr

/-- The ply that issues: its threads in ascending lane order, their program counter and word (R13, R240). -/
structure Ply where
  core : Nat
  quad : Nat
  team : Nat
  members : List ThreadRef
  pc : DWord
  word : Word
  deriving DecidableEq, Repr

/-- The part of a long write by the host, or by a peer, that is still to be performed: its place in the packages' memory
and its bytes (R200, log 93). -/
structure OutsideRest where
  host : Bool
  place : Nat
  bytes : List Byte
  deriving DecidableEq, Repr

/-- The state of the part. -/
structure State where
  /-- Steps taken; it numbers the free values of `Config`. -/
  tick : Nat := 0
  /-- The next free register value: the model's own field (log 3). -/
  free : Nat := 0
  /-- The next number for a request, copy, operation or command. -/
  nextId : Nat := 1
  /-- The 1 GHz clock of the managers and controllers (R229, R340). -/
  now : Nat := 0
  /-- Core cycles that pass while nothing happens (R22), and the step of the last cold reset, from which the cores'
  clocks run. -/
  idle : Nat := 0
  born : Nat := 0
  /-- The ply whose instruction issues in this step. -/
  ply : Option Ply := none
  /-- What the host and the Valern controller ask for, oldest first. -/
  inputs : List Instr := []
  /-- What is still to be performed of a long write from outside, before the next request is taken (R200, log 93). -/
  outsideRest : Option OutsideRest := none
  /-- What the last read from outside returned, and whether any line it read was poisoned. -/
  reply : List Byte := []
  replyPoison : Bool := false
  /-- Interrupts sent to the host: MSI-X entries, oldest first. -/
  irqs : List Nat := []
  mem : List Host.Cell := []
  hostMem : Tab Byte := []
  peerMem : Tab (Tab Byte) := []
  /-- Poisoned 64-byte lines of device memory, ascending (R304). -/
  poison : List Nat := []
  /-- Lines the host caches, by device line (R331). -/
  snoop : List Nat := []
  backInvalidated : List Nat := []
  linkDown : List Nat := []
  cxlDown : Bool := false
  /-- When the CXL port took each request that it holds, in its own cycles (R305). -/
  port : Tab Nat := []
  teams : Tab Team := []
  grids : Tab Grid := []
  locators : Tab (Tab Locator) := []
  nextTeam : Nat := 0
  cores : Tab Core := []
  clusters : Tab Cluster := []
  baseTlbs : Tab (List TlbEntry) := []
  walkCaches : Tab (List WalkEntry) := []
  walks : List Walk := []
  fetches : List Fetch := []
  reqs : List Req := []
  copies : List Copy := []
  merges : List Merge := []
  records : List MergeRecord := []
  strings : List Str := []
  splicers : Tab Splicer := []
  units : Tab NmUnit := []
  commands : List NmCommand := []
  segments : List NmSegment := []
  channels : Tab Channel := []
  solicits : List Solicit := []
  roots : Tab Nat := []
  moves : List Move := []
  forwards : List Forward := []
  forwarding : List ForwardEntry := []
  signals : List Signal := []
  messages : List Message := []
  queues : Tab Queue := []
  served : Tab Nat := []
  faultRecords : List FaultRecord := []
  faultPosts : List FaultPost := []
  tenants : Tab Tenant := []
  hwbase : Tab Nat := []
  /-- Reserved save areas and directory regions: (die address on the package, bytes) (R292). -/
  saveAreas : List (Nat × Nat) := []
  dirRegions : List (Nat × Nat) := []
  stkage : Tab Nat := []
  events : List Event := []
  evtTail : Nat := 0
  evtFull : Bool := false
  mailbox : Mailbox := {}
  recovery : Bool := false
  firmware : List Byte := []
  lifecycle : Nat := 1
  lcLeft : BitVec 4 := Config.fuseChanges
  lcResult : Nat := 0
  /-- An accepted change of life-cycle state whose wipe and cold reset are to come: its target, and CLRMAPS (R338). -/
  lcDue : Option (Nat × Bool) := none
  nonceDraws : Nat := 0
  authorisation : Option Nat := none
  sparesUsed : Tab Nat := []
  sliceSpares : Tab Nat := []
  /-- Self-tests that the Valern controller has to run (R309). -/
  tests : List ErrorSite := []
  reef : Nat := 0
  deriving DecidableEq, Repr

/-- The stops of the model that are no trap of the part. -/
inductive Fault where
  /-- A host or peer access names an address that the HDM range, the dies or the links do not have (R4, R331);
  raised by the host access events. Safe: the part has no such address. -/
  | noSuchAddress
  /-- An event names a unit number outside R4 (core, stack, channel, cluster, tenant, queue or link); raised by
  the register and error events. Safe: the part has no such unit. -/
  | noSuchUnit
  deriving DecidableEq, Repr

/-- Why the model has no meaning for a step. -/
inductive Refusal where
  /-- The instruction's arm is not written yet; raised by `exec` only. Safe. -/
  | notModelled (mnemonic : String)
  deriving DecidableEq, Repr

/-- The part right after a cold reset (R314): every SRAM, row and register at its reset value, nothing resident,
no queue enabled, every row of memory zero; in life-cycle state PROVISION with the image fused at manufacture. -/
def State.reset : State := {}

end Sys2Proof.Machine
end

