-- ==== Sys2Proof/Machine/Ops.lean ====
section
/-! DEFINITION. The named operations over the state: finite maps, memory, placement and translation, threads and
their registers, requests and what waits for them, taking a trap, returning from one, and stopping a team. -/
namespace Sys2Proof.Machine
open Sys2Proof

/-! ### Finite maps -/

def Tab.find {α : Type} : Tab α → Nat → Option α
  | [], _ => none
  | (k, a) :: rest, n => if k = n then some a else Tab.find rest n

def Tab.get {α : Type} (t : Tab α) (n : Nat) (d : α) : α := (Tab.find t n).getD d

def Tab.put {α : Type} : Tab α → Nat → α → Tab α
  | [], n, a => [(n, a)]
  | (k, b) :: rest, n, a =>
    if n < k then (n, a) :: (k, b) :: rest
    else if n = k then (n, a) :: rest
    else (k, b) :: Tab.put rest n a

def Tab.drop {α : Type} (t : Tab α) (n : Nat) : Tab α := t.filter fun e => e.1 != n

/-- Applies `f` to the entry of `n`, if there is one. -/
def Tab.adjust {α : Type} (t : Tab α) (n : Nat) (f : α → α) : Tab α :=
  match Tab.find t n with
  | some a => Tab.put t n (f a)
  | none => t

/-! ### Bytes -/

/-- The little-endian value of bytes (R3). -/
def leValue : List Byte → Nat
  | [] => 0
  | b :: bs => b.toNat + 256 * leValue bs

/-- The `n` little-endian bytes of a value (R3). -/
def leBytes : Nat → Nat → List Byte
  | 0, _ => []
  | n + 1, v => BitVec.ofNat 8 v :: leBytes n (v / 256)

def leWords (bs : List Byte) (n : Nat) : List Word :=
  (List.range n).map fun k => BitVec.ofNat 32 (leValue ((bs.drop (4 * k)).take 4))

/-- The value of bits [hi:lo]. -/
def bits (x hi lo : Nat) : Nat := x / 2 ^ lo % 2 ^ (hi + 1 - lo)

/-- The signed reading of the low `w` bits. -/
def sextNat (w x : Nat) : Int := (BitVec.ofNat w x).toInt

/-! ### Memory: a canonical list of cells -/

abbrev Memory := List Host.Cell

/-- What a byte of device memory that no entry lists reads as: the wipe of R314 zeroes every row. -/
def Memory.unlisted : Byte := 0

def Memory.read : Memory → Nat → Byte
  | [], _ => Memory.unlisted
  | (k, b) :: rest, a => if k = a then b else Memory.read rest a

/-- Removes address `a`. -/
def Memory.erase : Memory → Nat → Memory
  | [], _ => []
  | (k, b) :: rest, a => if k = a then rest else (k, b) :: Memory.erase rest a

/-- Inserts address `a` at its place. -/
def Memory.insert : Memory → Nat → Byte → Memory
  | [], a, v => [(a, v)]
  | (k, b) :: rest, a, v =>
    if a < k then (a, v) :: (k, b) :: rest
    else if k = a then (a, v) :: rest
    else (k, b) :: Memory.insert rest a v

def Memory.write (m : Memory) (a : Nat) (v : Byte) : Memory :=
  if v = Memory.unlisted then Memory.erase m a else Memory.insert m a v

def Memory.writeAll : Memory → Nat → List Byte → Memory
  | m, _, [] => m
  | m, a, b :: bs => Memory.writeAll (Memory.write m a b) (a + 1) bs

def Memory.readAll (m : Memory) (a : Nat) : Nat → List Byte
  | 0 => []
  | n + 1 => Memory.read m a :: Memory.readAll m (a + 1) n

/-- The canonical form above address `lo`: addresses rising, no entry equal to the unlisted byte. -/
def Memory.wfFrom : Nat → Memory → Bool
  | _, [] => true
  | lo, (k, b) :: rest => decide (lo ≤ k) && decide (b ≠ Memory.unlisted) && Memory.wfFrom (k + 1) rest

def Memory.wf (m : Memory) : Bool := Memory.wfFrom 0 m

/-! ### Places -/

def Loc.plus : Loc → Nat → Loc
  | .dev a, n => .dev (a + n)
  | .host a, n => .host (a + n)
  | .peer l a, n => .peer l (a + n)

/-- The line that holds a byte: its 64-byte line number within its space. -/
def Loc.line : Loc → Loc
  | .dev a => .dev (a / 64)
  | .host a => .host (a / 64)
  | .peer l a => .peer l (a / 64)

/-- The home die of a device place (R143, R331). -/
def Loc.die? : Loc → Option Nat
  | .dev a => some (a / Config.dieBytes)
  | _ => none

/-- One byte, wherever it lies. -/
def State.byteAt (s : State) : Loc → Byte
  | .dev a => Memory.read s.mem a
  | .host a => Tab.get s.hostMem a (Config.hostByte a)
  | .peer l a => Tab.get (Tab.get s.peerMem l []) a (Config.peerByte l a)

def State.bytesAt (s : State) (l : Loc) : Nat → List Byte
  | 0 => []
  | n + 1 => s.byteAt l :: s.bytesAt (l.plus 1) n

def Tab.putAll : Tab Byte → Nat → List Byte → Tab Byte
  | t, _, [] => t
  | t, a, b :: bs => Tab.putAll (Tab.put t a b) (a + 1) bs

/-- Before a device write to a line the host caches, the home slice back-invalidates the host's copy (R331). -/
def State.backInvalidate (s : State) (a : Nat) : State :=
  if s.snoop.contains (a / 64) then
    { s with snoop := s.snoop.filter (· != a / 64), backInvalidated := s.backInvalidated ++ [a / 64] }
  else s

/-- Writes bytes at a place. -/
def State.setBytes (s : State) (l : Loc) (bs : List Byte) : State :=
  match l with
  | .dev a => { s.backInvalidate a with mem := Memory.writeAll s.mem a bs }
  | .host a => { s with hostMem := Tab.putAll s.hostMem a bs }
  | .peer k a => { s with peerMem := Tab.put s.peerMem k (Tab.putAll (Tab.get s.peerMem k []) a bs) }

/-- Dies named by a mask, ascending. -/
def maskBits (m : BitVec 8) : List Nat := (List.range 8).filter fun d => m.getLsbD d

/-- Granule selection among `m` places: the place and the address there (R143, R288). -/
def granule (names : List Nat) (da : Nat) : Nat × Nat :=
  (names.getD (da / 4096 % names.length) 0, da / 4096 / names.length * 4096 + da % 4096)

/-- The package place of a device address under a page's HOME, STRIPE and SMASK (R143). -/
def homePlace (home : Nat) (stripe : Bool) (smask : BitVec 8) (da : Nat) : Nat :=
  if stripe then
    let g := granule (maskBits smask) da
    g.1 * Config.dieBytes + g.2
  else home * Config.dieBytes + da

/-- Where a leaf places a virtual address (R288). -/
def Leaf.locate (l : Leaf) (va : Nat) : Loc :=
  let da := l.frame + va % l.size
  if l.peer then
    if l.pmask = 0 then .host da
    else
      let g := granule (maskBits l.pmask) da
      .peer g.1 (homePlace l.home l.stripe l.smask g.2)
  else .dev (homePlace l.home l.stripe l.smask da)

/-- Home slice on its die (R144). -/
def homeSlice (a : Nat) : Nat := let n := a / 64; (n + n / 4096) % 48
/-- Which of its die's two stacks a die address lies on: a[8] XOR a[16] (R144). -/
def stackBit (a : Nat) : Nat := (a / 256 + a / 65536) % 2
/-- Channel of a die address: a[13:9] XOR a[25:21] (R144). -/
def homeChannel (a : Nat) : Nat := Nat.xor (bits a 13 9) (bits a 25 21)
/-- Channel offset (R144). -/
def channelOffset (a : Nat) : Nat := a / 16384 * 256 + a % 256

def placeDie (p : Nat) : Nat := p / Config.dieBytes
def dieAddr (p : Nat) : Nat := p % Config.dieBytes
def placeStack (p : Nat) : Nat := 2 * placeDie p + stackBit (dieAddr p)

def State.channel (s : State) (stack ch : Nat) : Channel := Tab.get s.channels (stack * 32 + ch) {}
def State.setChannel (s : State) (stack ch : Nat) (c : Channel) : State :=
  { s with channels := Tab.put s.channels (stack * 32 + ch) c }

/-- The channel that serves a place: that of R144, or the one a retired channel's line moved to (R311). -/
def State.servingChannel (s : State) (p : Nat) : Nat :=
  let a := dieAddr p
  let st := placeStack p
  let c := homeChannel a
  if (s.channel st c).retired then
    let rest := (List.range 32).filter fun k => !(s.channel st k).retired
    rest.getD (channelOffset a / 64 % 31) c
  else c

/-- Whether the channel that serves a place is offline: its lines read poisoned and writes are dropped (R311). -/
def State.isOffline (s : State) (p : Nat) : Bool :=
  (s.channel (placeStack p) (s.servingChannel p)).offline

def Channel.gone (c : Channel) : Bool := c.retired || c.offline

/-- An access to a place waits at its channel: the channel sleeps, and no cache holds the line (R142, R225, R342). -/
def State.asleep (s : State) (l : Loc) : Bool :=
  match l with
  | .dev a =>
    let c := s.channel (placeStack a) (s.servingChannel a)
    c.state != 0 && !c.gone && !Config.l2Holds s.tick
  | _ => false

/-- An access has reached a channel: one that was woken counts its 10 µs anew (R342). -/
def State.touch (s : State) (l : Loc) : State :=
  match l with
  | .dev a =>
    let c := s.channel (placeStack a) (s.servingChannel a)
    if c.woken && !Config.l2Holds s.tick then
      s.setChannel (placeStack a) (s.servingChannel a) { c with lastAccess := s.now }
    else s
  | _ => s

/-- Accesses wait at the channels of these places that sleep, and so wake them (R342). -/
def State.want (s : State) (ls : List Loc) : State :=
  ls.foldl (fun s l => match l with
    | .dev a =>
      let c := s.channel (placeStack a) (s.servingChannel a)
      if s.asleep l then s.setChannel (placeStack a) (s.servingChannel a) { c with wanted := true } else s
    | _ => s) s

/-- Accesses that are made together: while a channel of theirs sleeps they wait for it; then each has reached its
channel, and `k` happens (R342). -/
def State.awake (s : State) (ls : List Loc) (k : State → State) : State :=
  if ls.any s.asleep then s.want ls else k (ls.foldl State.touch s)

/-- Lines are zeroed: the write waits at the channels that sleep, and wakes them; the others it has reached (R292, R342). -/
def State.zeroing (s : State) (ls : List Loc) : State := ls.foldl State.touch (s.want ls)

/-- Places of a run of device memory that reach each channel the run lies on: one of each 256 bytes, and no more than
cover every channel of a die (R144). -/
def runPlaces (a n : Nat) : List Loc := (List.range (min ((a % 256 + n + 255) / 256) 128)).map fun k => .dev (a + 256 * k)

/-- Whether the link that serves a place is down (R305, R334). -/
def State.unreachable (s : State) : Loc → Bool
  | .dev _ => false
  | .host _ => s.cxlDown
  | .peer l _ => s.linkDown.contains l

/-- Whether a place reads poisoned: its line is poisoned, its channel offline or its link down (R304, R305, R311). -/
def State.isPoisoned (s : State) (l : Loc) : Bool :=
  match l with
  | .dev a => s.poison.contains (a / 64) || s.isOffline a
  | l => s.unreachable l

def insertNat : List Nat → Nat → List Nat
  | [], n => [n]
  | k :: ks, n => if n < k then n :: k :: ks else if n = k then k :: ks else k :: insertNat ks n

def State.poisonLine (s : State) (line : Nat) : State := { s with poison := insertNat s.poison line }
def State.clearPoison (s : State) (line : Nat) : State := { s with poison := s.poison.filter (· != line) }

/-! ### Units -/

def State.core (s : State) (c : Nat) : Core := Tab.get s.cores c {}
def State.setCore (s : State) (c : Nat) (k : Core) : State := { s with cores := Tab.put s.cores c k }
def coreDie (c : Nat) : Nat := c / 96
/-- The cluster of a core, numbered 12 × die + cluster (R4, R283). -/
def coreCluster (c : Nat) : Nat := c / 96 * 12 + c % 96 / 8
def clusterCores (k : Nat) : List Nat := (List.range 8).map fun j => k / 12 * 96 + k % 12 * 8 + j
def State.cluster (s : State) (k : Nat) : Cluster := Tab.get s.clusters k {}
def State.setCluster (s : State) (k : Nat) (c : Cluster) : State := { s with clusters := Tab.put s.clusters k c }
def State.tenant (s : State) (t : Nat) : Tenant := Tab.get s.tenants t {}
def State.setTenant (s : State) (t : Nat) (x : Tenant) : State := { s with tenants := Tab.put s.tenants t x }
def State.queue (s : State) (q : Nat) : Queue := Tab.get s.queues q {}
def State.setQueue (s : State) (q : Nat) (x : Queue) : State := { s with queues := Tab.put s.queues q x }
/-- HWBASE of a die (Table 21.10). -/
def State.hwBase (s : State) (die : Nat) : Nat := Tab.get s.hwbase die 0xB800
/-- Start of a die's carve-out, as a die address (R291). -/
def State.carveOut (s : State) (die : Nat) : Nat := s.hwBase die * 0x200000
/-- What a core's own clock has counted while the core issued nothing (R5, R22). -/
def State.clockOf (s : State) (c : Nat) : Nat := s.idle + (Config.drift c s.tick - Config.drift c s.born)
/-- A core's CYCLES (R22): it stands still while the core is gated (R343). -/
def State.cyclesOf (s : State) (c : Nat) : Nat :=
  let k := s.core c
  k.cycles + (k.gatedAt.getD (s.clockOf c) - k.stopped)

/-- The package management block answers the host: the link is up, not in recovery mode, and not in the life-cycle
state RETIRED (R337, R338). -/
def State.registersOpen (s : State) : Bool := !s.recovery && s.lifecycle != 4 && !s.cxlDown

/-- A register write that the block answers: `f` happens, on a unit that exists. -/
def hostWrite (exists_ : Bool) (f : State → State) (s : State) : Host.Outcome State Fault Refusal :=
  if exists_ then .next (if s.registersOpen then f s else s) else .fault .noSuchUnit

def State.logEvent (s : State) (code die unit addr : Nat) : State :=
  let ev := s.events ++ [⟨code, die, unit, addr⟩]
  { s with
    events := ev.drop (ev.length - Config.eventRing)
    evtTail := s.evtTail + 1
    evtFull := s.evtFull || decide (Config.eventRing < ev.length) }

/-! ### Teams, groups and threads -/

def State.team (s : State) (t : Nat) : Team := Tab.get s.teams t {}
def State.modTeam (s : State) (t : Nat) (f : Team → Team) : State := { s with teams := Tab.adjust s.teams t f }
def State.grid (s : State) (g : Nat) : Grid := Tab.get s.grids g {}
def State.modGrid (s : State) (g : Nat) (f : Grid → Grid) : State := { s with grids := Tab.adjust s.grids g f }
def State.gridOf (s : State) (t : Nat) : Grid := s.grid (s.team t).grid
/-- The word of a format slot (R56). -/
def State.slot (s : State) (th : ThreadRef) (f : Nat) : Word := (s.gridOf th.team).fslots.getD f 0
def Team.group (t : Team) (g : Nat) : Group := Tab.get t.groups g {}
def State.group (s : State) (th : ThreadRef) : Group := (s.team th.team).group th.group

def sameGroup (a b : ThreadRef) : Bool := a.team == b.team && a.group == b.group

def absentThread : Thread := { status := .exited }

def State.thread (s : State) (th : ThreadRef) : Thread := Tab.get (s.group th).threads th.lane absentThread

/-- Whether the state holds the thread. -/
def State.holds (s : State) (th : ThreadRef) : Bool :=
  match Tab.find s.teams th.team with
  | none => false
  | some t =>
    match Tab.find t.groups th.group with
    | none => false
    | some g => (Tab.find g.threads th.lane).isSome

def State.modGroup (s : State) (team group : Nat) (f : Group → Group) : State :=
  s.modTeam team fun t => { t with groups := Tab.adjust t.groups group f }

def State.modThread (s : State) (th : ThreadRef) (f : Thread → Thread) : State :=
  s.modGroup th.team th.group fun g => { g with threads := Tab.adjust g.threads th.lane f }

/-- Every thread of a team, in ascending group and lane order. -/
def Team.refs (t : Team) (team : Nat) : List ThreadRef :=
  t.groups.flatMap fun g => g.2.threads.map fun l => ⟨team, g.1, l.1⟩

def State.coreOf (s : State) (th : ThreadRef) : Nat := (s.team th.team).core
def State.tenantOf (s : State) (th : ThreadRef) : Nat := (s.team th.team).tenant
def Group.live (g : Group) : Bool := g.threads.any fun t => t.2.status != .exited
def isResponder (th : ThreadRef) : Bool := decide (16 ≤ th.group)

/-- Insertion into a list sorted by key. -/
def insertBy {α : Type} (key : α → Nat) (x : α) : List α → List α
  | [] => [x]
  | y :: ys => if key x ≤ key y then x :: y :: ys else y :: insertBy key x ys

/-- Resident teams of a core, neither saved nor ended, by their resident places. -/
def State.residents (s : State) (core : Nat) : List Nat :=
  ((s.teams.filter fun t => t.2.core == core && !t.2.saved).foldr (insertBy fun t => t.2.rank) []).map (·.1)

/-- Scratchpad bytes of a core's resident teams, but for `skip` (R24, R25). -/
def State.coreScratch (s : State) (core : Nat) (skip : List Nat) : Nat :=
  (((s.residents core).filter fun t => !skip.contains t).map fun t => (s.team t).scratchSize).sum

/-! ### Registers (R17, R18, R304) -/

/-- The budget register that v`k` names (R17). -/
def Thread.index (t : Thread) (k : Nat) : Nat := if k < 32 then k else t.win + k
def Thread.reg (t : Thread) (k : Nat) : Word := Tab.get t.regs (t.index k) 0
def Thread.pair (t : Thread) (k : Nat) : DWord := t.reg (k + 1) ++ t.reg k
def Thread.outstanding (t : Thread) (i : Nat) : Bool := t.outs.any fun o => o.regs.contains i
/-- p`k`, with p0 true (R19). -/
def Thread.pred (t : Thread) (k : Nat) : Bool := decide (k = 0) || t.preds.getLsbD k

/-- Writes a budget register. A register that is outstanding, or that was written while it was, is left
unspecified: a free value (R26, R27). The write clears the register's poison bit (R304). -/
def State.writeBudget (s : State) (th : ThreadRef) (i : Nat) (v : Word) : State :=
  let t := s.thread th
  if t.outstanding i || t.unspec.contains i then
    { s.modThread th (fun t => { t with
        regs := Tab.put t.regs i (Config.freeWord s.free)
        poison := t.poison.filter (· != i)
        unspec := insertNat t.unspec i }) with free := s.free + 1 }
  else
    s.modThread th fun t => { t with regs := Tab.put t.regs i v, poison := t.poison.filter (· != i) }

def State.setReg (s : State) (th : ThreadRef) (k : Nat) (v : Word) : State :=
  s.writeBudget th ((s.thread th).index k) v

def State.setPair (s : State) (th : ThreadRef) (k : Nat) (v : DWord) : State :=
  (s.setReg th k (v.extractLsb' 0 32)).setReg th (k + 1) (v.extractLsb' 32 32)

def State.setWords (s : State) (th : ThreadRef) (k : Nat) : List Word → State
  | [] => s
  | v :: vs => (s.setReg th k v).setWords th (k + 1) vs

/-- The predicates with p`k` written. -/
def withPred (p : BitVec 8) (k : Nat) (b : Bool) : BitVec 8 := if b then p ||| (1#8 <<< k) else p &&& ~~~(1#8 <<< k)

/-- p`k` is a result of an outstanding operation. -/
def Thread.predOutstanding (t : Thread) (k : Nat) : Bool := t.outs.any fun o => o.pred == some k

/-- Writes a predicate; a write to p0 is ignored (R19). One that is outstanding, or that was written while it was, is
left unspecified: a free value (R26, R27, R59). -/
def State.setPred (s : State) (th : ThreadRef) (k : Nat) (b : Bool) : State :=
  let t := s.thread th
  if k = 0 then s
  else if t.predOutstanding k || t.unspecPreds.contains k then
    { s.modThread th (fun t => { t with
        preds := withPred t.preds k ((Config.freeWord s.free).getLsbD 0)
        unspecPreds := insertNat t.unspecPreds k }) with free := s.free + 1 }
  else s.modThread th fun t => { t with preds := withPred t.preds k b }

/-- Writes p1 to p7 from the bits of a byte. -/
def State.setPreds (s : State) (th : ThreadRef) (p : BitVec 8) : State :=
  (List.range 8).foldl (fun s k => s.setPred th k (p.getLsbD k)) s

def State.orFlags (s : State) (th : ThreadRef) (f : BitVec 6) : State :=
  s.modThread th fun t => { t with flags := t.flags ||| f }

/-! ### The words of a copy (R187, R188) -/

/-- Aligned 8-byte words that row `r` of the memory side touches; word `j` of it is unit r × 2^18 + j. -/
def Copy.rowWords (c : Copy) (r : Nat) : Nat := (c.va + r * c.pitch + c.width + 7) / 8 - (c.va + r * c.pitch) / 8

def Copy.isUnit (c : Copy) (u : Nat) : Bool := decide (u / 2 ^ 18 < c.rows) && decide (u % 2 ^ 18 < c.rowWords (u / 2 ^ 18))

/-- A unit's virtual address, length and offset in the scratchpad range. -/
def Copy.unit (c : Copy) (u : Nat) : Nat × Nat × Nat :=
  let base := c.va + u / 2 ^ 18 * c.pitch
  let first := (base / 8 + u % 2 ^ 18) * 8
  let lo := max first base
  (lo, min (first + 8) (base + c.width) - lo, u / 2 ^ 18 * c.width + (lo - base))

def Copy.unitCount (c : Copy) : Nat := ((List.range c.rows).map c.rowWords).sum
/-- Every word has moved. -/
def Copy.complete (c : Copy) : Bool := decide (c.unitCount ≤ c.moved.length)

/-- The words of a copy. -/
def Copy.unitList (c : Copy) : List Nat :=
  (List.range c.rows).flatMap fun r => (List.range (c.rowWords r)).map fun k => r * 2 ^ 18 + k

/-- Bytes from the first to the last of the memory side. -/
def Copy.span (c : Copy) : Nat := (c.rows - 1) * c.pitch + c.width

/-! ### What is under way, and what waits for it -/

def Team.busyWith (t : Team) (id : Nat) : Bool := t.engine.any (·.id == id)

/-- Whether the operation `id` is not over. -/
def State.pending (s : State) (id : Nat) : Bool :=
  s.reqs.any (·.id == id) || s.copies.any (·.id == id) || s.commands.any (·.id == id) ||
  s.merges.any (·.id == id) ||
  s.teams.any (fun t => t.2.busyWith id)

def State.allDone (s : State) (ids : List Nat) : Bool := ids.all fun i => !s.pending i

/-- The copy has performed its memory reads. -/
def State.copyRead (s : State) (id : Nat) : Bool := s.copies.all fun c => c.id != id || c.complete

/-- What the acquire or fence waits for is over. -/
def State.endsHold (s : State) (h : Hold) : Bool := s.allDone h.ids && h.copies.all s.copyRead

/-- Invalidates a core's L1; a fill in flight no longer installs (R140). -/
def State.invalidateL1 (s : State) (core : Nat) : State :=
  s.setCore core { s.core core with l1 := [], acquires := (s.core core).acquires + 1 }

/-- What a hold holds of a memory operation on a path. -/
def Hold.stops (h : Hold) (path : Path) (write : Bool) : Bool :=
  match path with
  | .p => if write then h.writes else h.reads
  | .c => h.c
  | .m => h.m
  | .n => h.n

/-- Whether an operation of the thread on a path waits at issue for an acquire or a fence (R151, R160). An acquire that
acts on the L1 holds until it has done so. -/
def State.heldAtIssue (s : State) (th : ThreadRef) (path : Path) (write : Bool) : Bool :=
  (s.thread th).holds.any fun h => h.stops path write && (h.inval || !s.endsHold h)

/-- Ends the holds of a thread whose operations are over; an acquire among them acts on the L1 (R140). -/
def State.settleHolds (s : State) (th : ThreadRef) : State :=
  let ended := (s.thread th).holds.filter s.endsHold
  if ended.isEmpty then s
  else
    let s1 := s.modThread th fun t => { t with holds := t.holds.filter fun h => !ended.contains h }
    if ended.any (·.inval) then s1.invalidateL1 (s.coreOf th) else s1

/-- Whether a FENCE.REL names a path. -/
def RelFence.names (f : RelFence) (path : Path) : Bool :=
  match path with
  | .p => f.paths.getLsbD 0
  | .c => f.paths.getLsbD 1
  | .m => f.paths.getLsbD 2
  | .n => f.paths.getLsbD 3

/-- The thread's write `id` goes its way on a path. It is a release's write when it has a release of its own, of
effective scope `own`, or is the next write after a FENCE.REL that names the path (R149); one that may yet fail leaves
those FENCE.RELs their next write too. `live` tells which operations are not over. -/
def Thread.noteWrite (t : Thread) (live : Nat → Bool) (path : Path) (id own : Nat) (sure : Bool := true) : Thread :=
  let scope := (t.relNext.filter (·.names path)).foldl (fun m f => max m f.scope) own
  { t with
    releases := (t.releases.filter fun e => live e.1) ++ (if 2 ≤ scope then [(id, scope)] else [])
    relNext := if sure then t.relNext.filter fun f => !f.names path else t.relNext }

def State.noteWrite (s : State) (th : ThreadRef) (path : Path) (id own : Nat) (sure : Bool := true) : State :=
  s.modThread th fun t => t.noteWrite s.pending path id own sure

/-- What a thread's earlier releases have under way, each with its release's scope: their writes, and what its
FENCE.RELs wait for (R149, note 4 of the matrices). -/
def Thread.releasing (t : Thread) : Tab Nat :=
  t.releases ++ (t.holds.filter fun h => h.writes && !h.reads).flatMap fun h => h.ids.map fun i => (i, h.scope)

/-- An acquire of the thread on path P: later operations wait for its read; it then invalidates the L1 at team scope
or wider (R151, R140). -/
def State.acquire (s : State) (th : ThreadRef) (scope : Nat) (ids : List Nat) : State :=
  (s.modThread th fun t => { t with holds := t.holds ++ [⟨ids, true, true, false, false, false, decide (1 ≤ scope), [], 0⟩] }).settleHolds th

def State.allRefs (s : State) : List ThreadRef := s.teams.flatMap fun t => t.2.refs t.1

/-- Sends the interrupt messages whose releases are over, merging where the part does (R238). -/
def State.sendMessages (s : State) : State :=
  let ready := s.messages.filter fun m => s.allDone m.waits
  { s with
    messages := s.messages.filter fun m => !s.allDone m.waits
    irqs := s.irqs ++ ready.filterMap fun m =>
      let t := s.tenant m.tenant
      if m.vector < t.tintrCount then some (t.tintrBase + m.vector) else none }

/-- Census roots accept, in order of sending, the solicits whose releases are over (R260, R261). Root `d` is die
`d`'s; root 8 is the package's. -/
def State.acceptSolicits (s : State) : State :=
  s.solicits.foldl (fun s q =>
    if q.accepted.isNone && s.allDone q.waits then
      let root := if q.device then 8 else coreDie q.core
      let n := Tab.get s.roots root 0 + 1
      { s with
        roots := Tab.put s.roots root n
        solicits := s.solicits.map fun x => if x.id = q.id then { x with accepted := some n } else x }
    else s) s

/-- What follows at once when an operation is over: holds end, messages leave, solicits are accepted. -/
def State.settle (s : State) : State :=
  ((s.allRefs.foldl (fun s th => s.settleHolds th) s).sendMessages).acceptSolicits

/-- A new number for an operation. -/
def State.bump (s : State) : State := { s with nextId := s.nextId + 1 }

/-! ### Ready, blocked, parked -/

/-- The thread is Ready at its program counter from this tick on (R240). -/
def State.wake (s : State) (th : ThreadRef) : State :=
  s.modThread th fun t => { t with status := .ready, wait := .none, readyAt := s.tick }

/-- The thread goes on at `pc`. -/
def State.goto (s : State) (th : ThreadRef) (pc : DWord) : State :=
  s.modThread th fun t => { t with pc := pc, status := .ready, wait := .none, readyAt := s.tick, replay := none }

/-- The thread goes on after its instruction: at the next one, or, when TRET.RE ran it once more, at frame.PC
(R297). -/
def State.advance (s : State) (th : ThreadRef) : State :=
  s.modThread th fun t => { t with
    pc := match t.replay with | some p => p | none => t.pc + 4
    status := .ready, wait := .none, readyAt := s.tick, replay := none, after := [], waitOp := none, xfault := none }

/-- The thread goes on, unless it has exited while its instruction waited; a page fault of its group keeps it parked. -/
def State.advanceLive (s : State) (th : ThreadRef) : State :=
  if (s.thread th).status = .exited then s
  else match (s.thread th).status, (s.thread th).wait with
    | .blocked, .pageFault p w va _ =>
      (s.advance th).modThread th fun t => { t with status := .blocked, wait := .pageFault p w va false }
    | _, _ => s.advance th

/-- `n` free values (log 3). -/
def State.fresh (s : State) (n : Nat) : List Word × State :=
  ((List.range n).map fun k => Config.freeWord (s.free + k), { s with free := s.free + n })

def State.block (s : State) (th : ThreadRef) (w : Wait) : State :=
  s.modThread th fun t =>
    { t with status := .blocked, wait := w, blockedAt := s.cyclesOf (s.coreOf th), shown := none }

def State.setStatus (s : State) (th : ThreadRef) (x : Status) : State :=
  s.modThread th fun t => { t with status := x }

/-- The thread's instruction waits at issue (R12, Stalled); its ready time stays (R240). -/
def State.stall (s : State) (th : ThreadRef) : State := s.setStatus th .stalled

/-! ### Team barriers (R243 to R247) -/

def teamThreads (g : Grid) : Nat := 64 * (g.roles.map (·.1)).sum
def freshBarrier (g : Grid) : Barrier := { exp := teamThreads g }
def State.barrier (s : State) (team b : Nat) : Barrier :=
  Tab.get (s.team team).barriers b (freshBarrier (s.gridOf team))
def State.setBarrier (s : State) (team b : Nat) (x : Barrier) : State :=
  s.modTeam team fun t => { t with barriers := Tab.put t.barriers b x }

def Wait.onBarrier (w : Wait) (b : Nat) : Bool :=
  match w with
  | .barrier n _ _ => n == b
  | _ => false

/-- A thread blocked on a barrier becomes Ready: after its instruction, or at it again when it waited for its
earlier phase (R245). -/
def State.wakeBarrier (s : State) (th : ThreadRef) : State :=
  match (s.thread th).wait with
  | .barrier _ _ true => s.wake th
  | _ => s.advance th

/-- The wake of a phase that a signal took part in is an acquire at device scope: what the thread does next on path P
waits for the writes of its earlier releases of that scope, and the L1 is invalidated (R247, note 4). -/
def State.wakeAcquire (s : State) (th : ThreadRef) : State :=
  s.acquire th 3 (((s.thread th).releasing.filter fun e => decide (3 ≤ e.2)).map (·.1))

/-- `check(b)` of R244. The waiters of a phase that a signal took part in acquire (R247). -/
def State.checkBarrier (s : State) (team b : Nat) : State :=
  let x := s.barrier team b
  if x.exp ≤ x.arr then
    let refs := (s.team team).refs team
    let s1 := s.setBarrier team b
      { x with phase := x.phase + 1, arr := 0, exp := x.exp - x.defer, defer := 0, sig := false }
    let s2 := refs.foldl (fun s th => s.modThread th fun t => { t with arrived := t.arrived &&& ~~~(1#16 <<< b) }) s1
    let waiters := refs.filter fun th => (s2.thread th).status == .blocked && (s2.thread th).wait.onBarrier b
    let s3 := waiters.foldl (fun s th => s.wakeBarrier th) s2
    if x.sig then waiters.foldl (fun s th => s.wakeAcquire th) s3 else s3
  else s

/-! ### GSYNC (R248) -/

/-- The threads of the rendezvous at `th`: those of its group blocked at a GSYNC at its program counter. -/
def State.rendezvous (s : State) (th : ThreadRef) : List ThreadRef :=
  let g := s.group th
  let pc := (s.thread th).pc
  (g.threads.filter fun t =>
    t.2.status == .blocked && t.2.pc == pc && (match t.2.wait with | .gsync _ => true | _ => false)).map
    fun t => ⟨th.team, th.group, t.1⟩

def State.gsyncMask (s : State) (th : ThreadRef) : DWord :=
  match (s.thread th).wait with
  | .gsync m => m
  | _ => 0

/-- Releases the rendezvous that `th` stands in when every live thread that any of its threads names stands in it; the
next instruction issues as one ply of exactly those threads. -/
def State.tryGsync (s : State) (th : ThreadRef) : State :=
  let r := s.rendezvous th
  let g := s.group th
  let full := r.all fun x => g.threads.all fun t =>
    t.2.status == .exited || !(s.gsyncMask x).getLsbD t.1 || r.any (·.lane == t.1)
  if full && r.contains th then
    r.foldl (fun s x => (s.advance x).modThread x fun t => { t with joined := s.tick + 1 }) s
  else s

def State.recheckGsync (s : State) (team group : Nat) : State :=
  ((s.team team).group group).threads.foldl (fun s t => s.tryGsync ⟨team, group, t.1⟩) s

/-! ### Exits -/

/-- What an exit does to the barriers of the thread's role (R246). -/
def State.exitBarriers (s : State) (th : ThreadRef) : State :=
  if isResponder th then s
  else
    (List.range 16).foldl (fun s b =>
      let x := s.barrier th.team b
      if x.mask.getLsbD (s.group th).role then
        let y := if (s.thread th).arrived.getLsbD b then { x with defer := x.defer + 1 }
                 else { x with exp := x.exp - 1 }
        (s.setBarrier th.team b y).checkBarrier th.team b
      else s) s

/-- The thread exits, and its exit applies to barriers and GSYNCs (R81, R246, R248). -/
def State.exitThread (s : State) (th : ThreadRef) : State :=
  ((s.setStatus th .exited).exitBarriers th).recheckGsync th.team th.group

/-! ### Taking a trap -/

/-- How a trap is reported (R295). -/
inductive Precision where
  | precise | marker | imprecise
  deriving DecidableEq, Repr

def ReqKind.isSsync : ReqKind → Bool
  | .ssync _ => true
  | _ => false

/-- The thread issues nothing any more: it has exited and waits for nothing. -/
def Thread.silence (x : Thread) : Thread :=
  { x with status := .exited, wait := .none, outs := [], faults := [], shelved := [], holds := [] }

/-- Every thread of the group is silenced. -/
def Group.silence (g : Group) : Group := { g with threads := g.threads.map fun x => (x.1, x.2.silence) }

/-- A team stops with a code: none of its threads issues again; what they issued still performs (R298), and an SSYNC
that waits at issue is given up. -/
def State.stopTeam (s : State) (team : Nat) (code : Word) : State :=
  let s1 : State :=
    { s with reqs := s.reqs.filter fun r => !(r.th.team == team && decide (r.th.group < 16) && r.kind.isSsync) }
  s1.modTeam team fun t => { t with
    stopping := match t.stopping with | some c => some c | none => some code
    groups := t.groups.map fun g => if g.1 < 16 then (g.1, g.2.silence) else g }

/-- A trap in a responder ends it: every thread exits, the reply is discarded, the completion is an error with the code
of the trap that ended it, the first one (R264). -/
def State.responderTrap (s : State) (th : ThreadRef) (code : Word) : State :=
  let s1 : State := { s with reqs := s.reqs.filter fun r => !(sameGroup r.th th && r.kind.isSsync) }
  s1.modTeam th.team fun t => { t with
    responders := Tab.adjust t.responders th.group fun r =>
      { r with reply := none, error := match r.error with | some c => some c | none => some code }
    groups := Tab.adjust t.groups th.group Group.silence }

/-- Writes the trap registers (Table 22.1); what the thread waited for at issue is over. -/
def State.setTrapRegs (s : State) (th : ThreadRef) (r : Report) : State :=
  s.modThread th fun t => { t with trap := r, replay := none, xfault := none, after := [], waitOp := none }

/-- Entry to the handler: the frame is saved, the trap registers written, and the thread goes to HANDLER with
window base 0 (R296). `at_` is frame.PC: TRAPPC, the switch point, or the release or EXIT. The other faults of a switch
point wait until it is reached again (R295). -/
def State.enterHandler (s : State) (th : ThreadRef) (k : Precision) (r : Report) (at_ : DWord) : State :=
  (s.setTrapRegs th r).modThread th fun t => { t with
    frame := ⟨at_, t.win, t.preds, [t.reg 28, t.reg 29, t.reg 30, t.reg 31]⟩
    imprecise := decide (k = .imprecise)
    inHandler := true
    faults := if k = .marker then [] else t.faults
    shelved := if k = .marker then t.faults else t.shelved
    win := 0
    pc := (s.gridOf th.team).handler
    status := .ready, wait := .none, readyAt := s.tick, after := [], waitOp := none }

/-- A team is to stop with a code, once the ply that issues has run its instruction (R298). -/
def State.markStop (s : State) (team : Nat) (code : Word) : State :=
  s.modTeam team fun t => { t with stopping := match t.stopping with | some c => some c | none => some code }

/-- A team that the ply has marked stops; `before` is the state in which the ply began. -/
def State.stopMarked (s before : State) (team : Nat) : State :=
  if (before.team team).stopping.isNone && (s.team team).stopping.isSome then s.stopTeam team 0 else s

/-- Takes a trap in a thread: a responder ends; with a handler and outside it the thread enters the handler;
otherwise the team stops, or, under ATTACH, the core halts with the thread at its instruction (R264, R296, R298,
R308). `stop` is how the team stops. -/
def State.meetTrap (s : State) (stop : State → Nat → Word → State) (th : ThreadRef) (k : Precision) (r : Report)
    (at_ : DWord) : State :=
  if isResponder th then s.responderTrap th r.code
  else if (s.gridOf th.team).handler ≠ 0 ∧ (s.thread th).inHandler = false then s.enterHandler th k r at_
  else if (s.core (s.coreOf th)).ctl.attach then
    let c := s.core (s.coreOf th)
    ((s.setTrapRegs th r).setStatus th .ready).setCore (s.coreOf th) { c with ctl := { c.ctl with halt := true } }
  else stop (s.setTrapRegs th r) th.team r.code

/-- Takes a trap; a team without a handler stops at once. -/
def State.takeTrap (s : State) (th : ThreadRef) (k : Precision) (r : Report) (at_ : DWord) : State :=
  s.meetTrap State.stopTeam th k r at_

/-- Takes a trap in a thread of the ply that issues; a team without a handler stops once the whole ply has. -/
def State.issueTrap (s : State) (th : ThreadRef) (k : Precision) (r : Report) (at_ : DWord) : State :=
  s.meetTrap State.markStop th k r at_

/-- The return from a trap: v28 to v31, p1 to p7 and the window base come back from the frame and INHANDLER clears
(R297). Faults that wait for the switch point to be reached again are pending once more (R295), before one that the
instruction of a TRET.RE raises anew: the model's choice (log 165). -/
def State.leaveHandler (s : State) (th : ThreadRef) : State :=
  let f := (s.thread th).frame
  ((s.setWords th 28 ((List.range 4).map fun k => f.v.getD k 0)).setPreds th f.p).modThread th fun t => { t with
    win := f.b
    inHandler := false
    faults := t.shelved ++ t.faults
    shelved := [] }

/-! Trap codes (Table 22.1). -/
def codeIllegalOpcode : Word := 0x001
def codeIllegalOperand : Word := 0x002
def codeRegisterBounds : Word := 0x003
def codeKnotMismatch : Word := 0x004
def codePageFault : Word := 0x005
def codePermission : Word := 0x006
def codeIsolation : Word := 0x007
def codePoison : Word := 0x008
def codeUnbalanced : Word := 0x009
def codeCapacity : Word := 0x00A
def codeBarrierStall : Word := 0x00B
def codeMergeSequence : Word := 0x00C
def codeBreakpoint : Word := 0x00D
def codeCoreLost : Word := 0x00E
def codeTileGone : Word := 0x00F

end Sys2Proof.Machine
end

