-- ==== Sys2Proof/Machine/Ply.lean ====
section
/-! DEFINITION. How the threads of an issuing ply run one instruction: what is checked before it, in the order of
R32, R295, Table 3.6, R264 and R304, and what each way of ending it does to the thread. -/
namespace Sys2Proof

/-- The instruction parks its thread until its class-L results are written: the marker, EXIT, BINS and BDEL (R32,
R81, R206). -/
def Instr.parks (i : Instr) : Bool :=
  i.marker || (match i with
    | .exitT _ => true
    | .bins _ _ _ _ => true
    | .bdel _ _ _ _ => true
    | _ => false)

/-- A SOLICIT, whose ticket is PENDING while its release runs: a fault that arrives meanwhile is for the next release
(log 25). -/
def Instr.sends : Instr → Bool
  | .solicit _ _ _ _ _ _ => true
  | _ => false

/-- The instruction is a release or an EXIT, at which an imprecise fault is taken (R295). -/
def Instr.takesImprecise : Instr → Bool
  | .exitT _ => true
  | .strl _ _ _ _ _ => true
  | .atomAdd _ o _ _ _ _ _ => o.releases
  | .atomMin _ o _ _ _ _ _ => o.releases
  | .atomMax _ o _ _ _ _ _ => o.releases
  | .atomAddF32 _ o _ _ _ _ => o.releases
  | .atomAnd _ o _ _ _ _ _ => o.releases
  | .atomOr _ o _ _ _ _ _ => o.releases
  | .atomXor _ o _ _ _ _ _ => o.releases
  | .atomExch _ o _ _ _ _ _ => o.releases
  | .cas _ o _ _ _ _ _ => o.releases
  | .redAdd _ rel _ _ _ _ => rel
  | .redAddF32 _ rel _ _ _ => rel
  | .redMinI32 _ rel _ _ _ => rel
  | .redMinN32 _ rel _ _ _ => rel
  | .redMaxI32 _ rel _ _ _ => rel
  | .redMaxN32 _ rel _ _ _ => rel
  | .redAnd _ rel _ _ _ => rel
  | .redOr _ rel _ _ _ => rel
  | .redXor _ rel _ _ _ => rel
  | .redNmAdd _ rel _ _ _ _ => rel
  | .redNmAddF32 _ rel _ _ _ => rel
  | .redNmMinI32 _ rel _ _ _ => rel
  | .redNmMinN32 _ rel _ _ _ => rel
  | .redNmMaxI32 _ rel _ _ _ => rel
  | .redNmMaxN32 _ rel _ _ _ => rel
  | .redNmOr _ rel _ _ _ => rel
  | .fenceRel _ _ _ => true
  | .fenceAr _ _ _ => true
  | .barSync _ _ => true
  | .barArrive _ _ => true
  | .signal _ _ _ => true
  | .launch _ _ _ _ => true
  | .intr _ _ => true
  | .solicit _ _ _ _ _ _ => true
  | _ => false

/-- Instructions that wait at issue for an answer: their operands are read once (R206, R209, R237, R253, R270). -/
def Instr.awaitsAnswer : Instr → Bool
  | .bins _ _ _ _ => true
  | .bdel _ _ _ _ => true
  | .ssync _ _ => true
  | .launch _ _ _ _ => true
  | .signal _ _ _ => true
  | .tdmove _ _ _ _ => true
  | _ => false

/-- The major of an instruction's word. -/
def Instr.major (i : Instr) : Nat :=
  match i.encode with
  | some w => w.toNat / 2 ^ 24 % 128
  | none => 0

/-- A responder may not run this instruction (R264). -/
def Instr.barredToResponder (i : Instr) : Bool :=
  match i with
  | .gsync _ _ => false
  | .gsyncImm _ _ => false
  | .cwait _ _ _ => true
  | .cpoll _ _ _ => true
  | .reply _ _ => false
  | i => match i.major with
    | 0x56 => true
    | 0x58 => true
    | 0x59 => true
    | 0x5A => true
    | 0x5B => true
    | 0x5C => true
    | 0x5D => true
    | 0x5E => true
    | 0x5F => true
    | 0x6A => true
    | 0x78 => true
    | 0x7A => true
    | 0x7B => true
    | 0x7C => true
    | _ => false

/-- The first budget register an instruction names at or beyond the budget (order 6 of Table 3.6). -/
def Instr.beyondBudget (i : Instr) (t : Machine.Thread) (budget : Nat) : Option Nat :=
  (i.regOperands.flatMap fun o => (List.range o.count).map fun k => t.index (o.first + k)).find? (budget ≤ ·)

/-- The first tile an instruction names at or beyond the tile count (order 6 of Table 3.6). -/
def Instr.beyondTiles (i : Instr) (tiles : Nat) : Option Nat :=
  (i.tileOperands.flatMap fun o => (List.range o.count).map fun k => o.first + k).find? (tiles ≤ ·)

/-- The first poisoned budget register the instruction reads (R304). -/
def Instr.poisonedSource (i : Instr) (t : Machine.Thread) : Option Nat :=
  ((i.regOperands.filter fun o => o.role == .src || o.role == .both).flatMap fun o =>
    (List.range o.count).map fun k => t.index (o.first + k)).find? (t.poison.contains ·)

end Sys2Proof

namespace Sys2Proof.Machine
open Sys2Proof

/-- How one thread's execution of an instruction ends. -/
inductive Effect where
  /-- It is done; the thread goes on at the next instruction. -/
  | go (s : State)
  /-- It is done; the thread goes on at `pc`. -/
  | jump (s : State) (pc : DWord)
  /-- It traps, precise, with no effect of its own (R295). -/
  | trap (s : State) (code : Word) (addr aux : DWord)
  /-- It waits at issue (Stalled, R12). -/
  | stall (s : State)
  /-- It is done and the thread blocks (R12). -/
  | block (s : State) (w : Wait)
  /-- It leaves the thread as `s` holds it. -/
  | done (s : State)

/-- Tiles a thread may name: those of its team; a responder has none (R20, R262). -/
def State.tileLimit (s : State) (th : ThreadRef) : Nat := if isResponder th then 0 else (s.team th.team).tileCount

/-- What stands between a thread of the ply and its instruction. -/
inductive Gate where
  | pass
  | absent
  | park
  | fault (k : Precision) (r : Report)
  | trap (code : Word) (addr aux : DWord)
  deriving DecidableEq, Repr

/-- A poisoned register among the upper four of QPACK's octet, which a slot of INT4 reads (R98, R304). -/
def State.poisonedUpper (s : State) (i : Instr) (th : ThreadRef) : Option Nat :=
  match i with
  | .qpack _ _ a _ f =>
    if bits (s.slot th f.toNat).toNat 23 20 = 4 then
      ((List.range 4).map fun k => (s.thread th).index (a.toNat + 4 + k)).find? ((s.thread th).poison.contains ·)
    else none
  | _ => none

/-- The checks on one thread before its instruction, in order; one that already waits for its answer has passed them.
POISON comes before what the instruction itself checks, a format slot (R96), a SETS of another selector than FLAGS
(R71) or a configuration with L = 0 (R131): the model's choice (log 137). -/
def State.gate (s : State) (i : Instr) (word : Word) (th : ThreadRef) : Gate :=
  let t := s.thread th
  if t.status ≠ .ready ∧ t.status ≠ .stalled then .absent
  else if i.parks ∧ t.outs ≠ [] then .park
  else match (if i.parks ∧ t.replay = none then t.faults.head?.map (·.2) else none) with
  | some r => .fault .marker r
  | none =>
  match (if i.takesImprecise ∧ ¬ (i.sends ∧ t.waitOp.isSome) then (s.group th).faults.head? else none) with
  | some r => .fault .imprecise r
  | none =>
  if i.awaitsAnswer ∧ t.waitOp.isSome then .pass
  else if ¬ i.aligned ∨ ¬ i.scopeOk then .trap codeIllegalOperand 0 (word.setWidth 64)
  else match i.beyondBudget t (s.group th).budget with
  | some n => .trap codeRegisterBounds 0 (BitVec.ofNat 64 n)
  | none =>
  match i.beyondTiles (s.tileLimit th) with
  | some n => .trap codeRegisterBounds 0 (BitVec.ofNat 64 n)
  | none =>
  if isResponder th ∧ i.barredToResponder then .trap codeIllegalOperand 0 (BitVec.ofNat 64 i.major)
  else match (i.poisonedSource t).or (s.poisonedUpper i th) with
  | some n => .trap codePoison t.paddr (BitVec.ofNat 64 n)
  | none => .pass

/-- What a gate that does not pass does to the thread. A marker-precise fault leaves the pending list, and the trap
names the faulted instruction; an imprecise one names the release or EXIT, and a SIGNAL that still waits is given up
(R295). -/
def State.hold (s : State) (th : ThreadRef) : Gate → State
  | .pass => s
  | .absent => s
  | .park => s.setStatus th .parked
  | .fault k r =>
    let pc := (s.thread th).pc
    match k with
    | .imprecise =>
      let s1 : State := { s with signals := s.signals.filter fun x => x.th != th }
      (s1.modGroup th.team th.group fun g => { g with faults := g.faults.tail }).issueTrap th k { r with pc := pc } pc
    | _ => (s.modThread th fun t => { t with faults := t.faults.tail }).issueTrap th k r pc
  | .trap c a x => s.issueTrap th .precise ⟨(s.thread th).pc, c, a, x⟩ (s.thread th).pc

/-- Ends one thread's instruction. -/
def Effect.apply (th : ThreadRef) : Effect → State
  | .go s => s.advance th
  | .jump s pc => s.goto th pc
  | .trap s c a x => s.issueTrap th .precise ⟨(s.thread th).pc, c, a, x⟩ (s.thread th).pc
  | .stall s => s.stall th
  | .block s w => s.block th w
  | .done s => s

/-- A switch point whose results are written closes the registers left unspecified before it (R27). -/
def State.closeUnspec (s : State) (th : ThreadRef) (marked : Bool) : State :=
  if marked then s.modThread th fun t => { t with unspec := [], unspecPreds := [] } else s

def State.passMarker (s : State) (i : Instr) (th : ThreadRef) : State := s.closeUnspec th i.parks

/-- The thread stands at its instruction with its results written, though it may trap there (R27, R32). -/
def Gate.reached : Gate → Bool
  | .absent => false
  | .park => false
  | _ => true

/-- What a gate that does not pass does: a switch point that the thread has reached counts as one, though the trap keeps
it from executing (R27, R32). -/
def State.holdAt (s : State) (i : Instr) (th : ThreadRef) (g : Gate) : State :=
  (s.closeUnspec th (i.parks && g.reached)).hold th g

/-- One thread of the ply runs the instruction. -/
def State.runThread (s : State) (i : Instr) (word : Word) (body : ThreadRef → State → Effect) (th : ThreadRef) :
    State :=
  match s.gate i word th with
  | .pass => (body th (s.passMarker i th)).apply th
  | g => s.holdAt i th g

/-- The ply of a GSYNC issues whole: while one of its threads must park, the others wait (R248). -/
def State.joinedWaits (s : State) (i : Instr) (p : Ply) : Bool :=
  p.members.any (fun th => (s.thread th).joined != 0) && p.members.any fun th => i.parks && !(s.thread th).outs.isEmpty

def State.parkAll (s : State) (p : Ply) : State :=
  p.members.foldl (fun s th => if (s.thread th).outs.isEmpty then s else s.setStatus th .parked) s

def State.endPly (s : State) : State := { s with ply := none }

/-- The ply has issued: every thread of it has run the instruction before a team that one of them stops does (R298). -/
def State.issued (s before : State) (p : Ply) : State := (s.stopMarked before p.team).endPly

def State.leaveJoined (s : State) (p : Ply) : State :=
  p.members.foldl (fun s th => s.modThread th fun t => { t with joined := 0 }) s

/-- The ply's threads run the instruction one after another, in ascending lane order. With no ply in issue nothing
happens. -/
def runPly (i : Instr) (body : ThreadRef → State → Effect) (s : State) : Host.Outcome State Fault Refusal :=
  match s.ply with
  | none => .next s
  | some p =>
    if s.joinedWaits i p then .next (s.parkAll p).endPly
    else .next ((p.members.foldl (fun s th => s.runThread i p.word body th) (s.leaveJoined p)).issued s p)

/-! ### Plies whose operations enter the engine queue (R102, R103, R106) -/

/-- The open ply that a thread stands in. -/
def State.openPly? (s : State) (th : ThreadRef) : Option OpenPly :=
  (s.team th.team).plies.find? fun o => o.entered.contains th || o.rest.contains th

/-- The thread waits at issue, unless it has exited or a page fault blocks it. -/
def State.linger (s : State) (th : ThreadRef) : State :=
  if (s.thread th).status = .ready then s.stall th else s

/-- The ply waits with the first thread of `rest`. -/
def State.leaveOpen (s : State) (team : Nat) (o : OpenPly) : State :=
  ((o.entered ++ o.rest).foldl (fun s th => s.linger th) s).modTeam team fun t => { t with plies := t.plies ++ [o] }

/-- The threads of a ply run the instruction in ascending lane order; those that have are `entered`. Where one must
wait, those after it wait with it, and those before it too: a thread that went on alone would tie the knot's next
operation among this one's (R103, R106, R134). -/
def State.enterRest (s : State) (i : Instr) (word : Word) (body : ThreadRef → State → Effect) (team : Nat)
    (entered : List ThreadRef) : List ThreadRef → State
  | [] => entered.foldl (fun s th => s.advanceLive th) s
  | th :: rest =>
    match s.gate i word th with
    | .pass =>
      match body th (s.passMarker i th) with
      | .go s1 => s1.enterRest i word body team (entered ++ [th]) rest
      | .stall s1 => (s1.stall th).leaveOpen team ⟨entered, th :: rest⟩
      | .done s1 => s1.leaveOpen team ⟨entered, th :: rest⟩
      | e => (e.apply th).enterRest i word body team entered rest
    | g => (s.holdAt i th g).enterRest i word body team entered rest

/-- A ply whose operations enter the engine queue in ascending lane order. One that waited goes on where it stands. -/
def runWhole (i : Instr) (body : ThreadRef → State → Effect) (s : State) : Host.Outcome State Fault Refusal :=
  match s.ply with
  | none => .next s
  | some p =>
    if s.joinedWaits i p then .next (s.parkAll p).endPly
    else
      let s1 := s.leaveJoined p
      match (s.team p.team).plies.find? fun o => o.rest == p.members with
      | some o =>
        .next (((s1.modTeam p.team fun t => { t with plies := t.plies.filter (· != o) }).enterRest i p.word body p.team
          o.entered o.rest).issued s p)
      | none => .next ((s1.enterRest i p.word body p.team [] p.members).issued s p)

/-- The threads of a ply that pass the gate, each with its thread state: a lane operation acts on these (R73). That a
thread which itself traps at the operation counts in none of its results is the model's choice (log 138). -/
def State.laneMembers (s : State) (i : Instr) (p : Ply) : List (ThreadRef × Thread) :=
  (p.members.filter fun th => s.gate i p.word th == .pass).map fun th => (th, s.thread th)

/-- A lane operation: every thread's operands are read before any destination is written (R73). -/
def runLanes (i : Instr) (body : List (ThreadRef × Thread) → ThreadRef → State → Effect) (s : State) :
    Host.Outcome State Fault Refusal :=
  match s.ply with
  | none => .next s
  | some p => runPly i (body ((s.leaveJoined p).laneMembers i p)) s

/-- Lane of a member. -/
def laneMask (ms : List (ThreadRef × Thread)) (f : Thread → Bool) : DWord :=
  ms.foldl (fun m e => if f e.2 then m ||| (1#64 <<< e.1.lane) else m) 0

end Sys2Proof.Machine
end

