-- ==== Sys2Proof/Machine/Operands.lean ====
section
/-! DEFINITION. Operand forms: single registers, pairs, quads and octets, the two integer widths, immediates, and
the address forms of R31; and the shared shapes of instructions that only write a register or a predicate. -/
namespace Sys2Proof.Machine
open Sys2Proof

/-- A single register or a pair, as 64 bits (R36, R59). -/
def Thread.value (t : Thread) (w : Width) (k : BitVec 7) : DWord :=
  match w with
  | .w32 => (t.reg k.toNat).setWidth 64
  | .w64 => t.pair k.toNat

/-- `n` consecutive registers, lowest first. -/
def Thread.words (t : Thread) (k n : Nat) : List Word := (List.range n).map fun j => t.reg (k + j)

/-- `n` consecutive registers as one value, the first lowest. -/
def Thread.wide (t : Thread) (k n : Nat) : Nat :=
  (t.words k n).foldr (fun w acc => w.toNat + 2 ^ 32 * acc) 0

def State.setValue (s : State) (th : ThreadRef) (w : Width) (k : BitVec 7) (v : DWord) : State :=
  match w with
  | .w32 => s.setReg th k.toNat (v.setWidth 32)
  | .w64 => s.setPair th k.toNat v

/-- Writes one register from the thread's state (R59). -/
def regOp (d : BitVec 7) (f : Thread → Word) (th : ThreadRef) (s : State) : Effect :=
  .go (s.setReg th d.toNat (f (s.thread th)))

/-- Writes a pair from the thread's state (R59). -/
def pairOp (d : BitVec 7) (f : Thread → DWord) (th : ThreadRef) (s : State) : Effect :=
  .go (s.setPair th d.toNat (f (s.thread th)))

/-- Writes a register or a pair, by width (R59). -/
def widthOp (w : Width) (d : BitVec 7) (f : Thread → DWord) (th : ThreadRef) (s : State) : Effect :=
  .go (s.setValue th w d (f (s.thread th)))

/-- Writes a predicate from the thread's state (R59). -/
def predOp (p : BitVec 3) (f : Thread → Bool) (th : ThreadRef) (s : State) : Effect :=
  .go (s.setPred th p.toNat (f (s.thread th)))

/-- A sign-extended immediate. -/
def sextImm {n : Nat} (i : BitVec n) : Word := i.signExtend 32

/-- The effective address of form M: the pair plus the scaled immediate, modulo 2^64 (R31). -/
def Thread.ea (t : Thread) (a : BitVec 7) (i : BitVec 7) (scale : Nat) : DWord :=
  t.pair a.toNat + i.signExtend 64 * BitVec.ofNat 64 scale

/-- The scratchpad form of R31: a single register plus the scaled immediate, modulo 2^32. -/
def Thread.sea (t : Thread) (a : BitVec 7) (i : BitVec 7) (scale : Nat) : Word :=
  t.reg a.toNat + i.signExtend 32 * BitVec.ofNat 32 scale

/-- The target of a form B branch: the branch's own address plus four times the offset (R31). -/
def branchTarget (pc : DWord) (o : BitVec 20) : DWord := pc + o.signExtend 64 * 4

/-- Integer comparison of two values of width `w` bits (Table 3.3, R67). -/
def icompare {w : Nat} (c : ICond) (signed : Bool) (a b : BitVec w) : Bool :=
  match c with
  | .eq => a == b
  | .ne => a != b
  | .lt => if signed then a.slt b else a.ult b
  | .le => if signed then a.sle b else a.ule b
  | .gt => if signed then b.slt a else b.ult a
  | .ge => if signed then b.sle a else b.ule a

end Sys2Proof.Machine
end

