-- ==== Sys2Proof/Machine/Flags.lean ====
section
/-! DEFINITION. FLAGS (R50, R51): the bits of the sticky flags and what a set of raised conditions ORs in. -/
namespace Sys2Proof.Machine
open Sys2Proof

/-- Conditions an operation raises (R49, R50). -/
structure Raised where
  nv : Bool := false
  dz : Bool := false
  of : Bool := false
  uf : Bool := false
  nx : Bool := false
  sat : Bool := false
  deriving DecidableEq, Repr

/-- FLAGS bits: 0 NV, 1 DZ, 2 OF, 3 UF, 4 NX, 5 SAT (R50). -/
def Raised.bits (r : Raised) : BitVec 6 :=
  BitVec.ofBool r.sat ++ BitVec.ofBool r.nx ++ BitVec.ofBool r.uf ++ BitVec.ofBool r.of ++ BitVec.ofBool r.dz ++
    BitVec.ofBool r.nv

def Raised.or (a b : Raised) : Raised :=
  ⟨a.nv || b.nv, a.dz || b.dz, a.of || b.of, a.uf || b.uf, a.nx || b.nx, a.sat || b.sat⟩

/-- ORs the raised conditions into the thread's FLAGS. -/
def State.raise (s : State) (th : ThreadRef) (r : Raised) : State := s.orFlags th r.bits

/-- Writes one register and ORs flags, from the thread's state. -/
def flagOp (d : BitVec 7) (f : Thread → Word × Raised) (th : ThreadRef) (s : State) : Effect :=
  let r := f (s.thread th)
  .go ((s.setReg th d.toNat r.1).raise th r.2)

/-- Writes a pair and ORs flags, from the thread's state. -/
def flagPairOp (d : BitVec 7) (f : Thread → DWord × Raised) (th : ThreadRef) (s : State) : Effect :=
  let r := f (s.thread th)
  .go ((s.setPair th d.toNat r.1).raise th r.2)

/-- Writes a predicate and ORs flags, from the thread's state. -/
def flagPredOp (p : BitVec 3) (f : Thread → Bool × Raised) (th : ThreadRef) (s : State) : Effect :=
  let r := f (s.thread th)
  .go ((s.setPred th p.toNat r.1).raise th r.2)

end Sys2Proof.Machine
end

