-- ==== Sys2Proof/Machine/Integer.lean ====
section
/-! DEFINITION. Integer arithmetic, logic, shifts, bit fields, compares, selects, moves, constants and addresses
(R59 to R71), one meaning per instruction over the shared shapes of Operands and Flags. -/
namespace Sys2Proof

/-- The exact value of a word under a type (R42). -/
def Sgn.value (t : Sgn) (a : Word) : Int :=
  match t with
  | .i32 => a.toInt
  | .n32 => a.toNat

/-- Least and greatest value of a type. -/
def Sgn.low : Sgn → Int | .i32 => -2147483648 | .n32 => 0
def Sgn.high : Sgn → Int | .i32 => 2147483647 | .n32 => 4294967295

end Sys2Proof

namespace Sys2Proof.Machine
open Sys2Proof

/-! ### Values -/

/-- Clamp of R60: the nearest value of the type's range, and whether that changed it. -/
def clampTo (t : Sgn) (x : Int) : Word × Raised :=
  let y := max t.low (min t.high x)
  (BitVec.ofInt 32 y, { sat := decide (y ≠ x) })

/-- Quotient of R63. -/
def divWord (t : Sgn) (a b : Word) : Word :=
  if b = 0 then 0xFFFFFFFF else BitVec.ofInt 32 ((t.value a).tdiv (t.value b))

/-- Remainder of R63. -/
def remWord (t : Sgn) (a b : Word) : Word :=
  if b = 0 then a else BitVec.ofInt 32 ((t.value a).tmod (t.value b))

/-- High word of the exact product (R62). -/
def mulHigh (t : Sgn) (a b : Word) : Word := BitVec.ofInt 32 ((t.value a * t.value b) / 4294967296)

def minWord (t : Sgn) (a b : Word) : Word := if t.value b < t.value a then b else a
def maxWord (t : Sgn) (a b : Word) : Word := if t.value a < t.value b then b else a

/-- Sum with carry of R61: the word and the carry out. -/
def addCarry (a b : Word) (c : Bool) : Word × Bool :=
  let s := a.toNat + b.toNat + c.toNat
  (BitVec.ofNat 32 s, decide (4294967296 ≤ s))

/-- Difference with borrow of R61: the word and the borrow out. -/
def subBorrow (a b : Word) (c : Bool) : Word × Bool :=
  (a - b - (BitVec.ofBool c).setWidth 32, decide ((a.toNat : Int) - b.toNat - c.toNat < 0))

/-- Shifts of R65, of a value of either width, by an unsigned amount. -/
def shiftLeft (w : Width) (a : DWord) (n : Nat) : DWord :=
  match w with
  | .w32 => ((a.setWidth 32) <<< n).setWidth 64
  | .w64 => a <<< n
def shiftRight (w : Width) (a : DWord) (n : Nat) : DWord :=
  match w with
  | .w32 => ((a.setWidth 32) >>> n).setWidth 64
  | .w64 => a >>> n
def shiftArith (w : Width) (a : DWord) (n : Nat) : DWord :=
  match w with
  | .w32 => ((a.setWidth 32).sshiftRight n).setWidth 64
  | .w64 => a.sshiftRight n

def countOnes (w n : Nat) : Nat := ((List.range n).filter fun k => w.testBit k).length
/-- Leading zeros of a word; 32 for zero (R65). -/
def leadZeros (a : Word) : Nat := ((List.range 32).find? fun k => a.getLsbD (31 - k)).getD 32
/-- Trailing zeros of a word; 32 for zero (R65). -/
def trailZeros (a : Word) : Nat := ((List.range 32).find? fun k => a.getLsbD k).getD 32
def reverseBits (a : Word) : Word :=
  (List.range 32).foldl (fun r k => if a.getLsbD (31 - k) then r ||| (1#32 <<< k) else r) 0

/-- BFX of R66: the field of width `w` at position `p` of `a` extended above bit 31. -/
def bitField (signed : Bool) (a : Word) (p w : Nat) : Word :=
  let x : DWord := if signed then a.signExtend 64 else a.setWidth 64
  let f := (x >>> p).setWidth w
  if signed then f.signExtend 32 else f.setWidth 32

/-- BFI of R66. -/
def insertField (d a : Word) (p w : Nat) : Word :=
  let m : Word := (BitVec.allOnes w).setWidth 32 <<< p
  (d &&& ~~~m) ||| ((a <<< p) &&& m)

/-- The special register a selector names (Table 2.3), with its width in registers; none where unlisted. -/
def State.special (s : State) (th : ThreadRef) (sel : Nat) : Option (Nat × DWord) :=
  let t := s.thread th
  let tm := s.team th.team
  let g := s.grid tm.grid
  let core := tm.core
  let one (n : Nat) : Option (Nat × DWord) := some (1, BitVec.ofNat 64 n)
  match sel with
  | 0x00 => one th.lane
  | 0x01 => one (min th.group 16)
  | 0x02 => one (s.group th).role
  | 0x03 => one tm.index
  | 0x04 => one (tm.index % g.nx)
  | 0x05 => one (tm.index / g.nx % g.ny)
  | 0x06 => one (tm.index / g.nx / g.ny)
  | 0x07 => one g.nx
  | 0x08 => one g.ny
  | 0x09 => one g.nz
  | 0x0A => one (s.group th).quad
  | 0x0B => one core
  | 0x0C => one (core % 96 / 8)
  | 0x0D => one (coreDie core)
  | 0x0E => one (4 * (core % 96 / 8) + core % 96 / 2 % 4)
  | 0x0F => some (2, BitVec.ofNat 64 (s.cyclesOf core))
  | 0x10 => some (1, t.flags.setWidth 64)
  | 0x11 => one tm.tenant
  | 0x12 => some (2, t.trap.pc)
  | 0x13 => some (1, t.trap.code.setWidth 64)
  | 0x14 => some (2, t.trap.addr)
  | 0x15 => some (2, t.trap.aux)
  | 0x16 => one (s.group th).budget
  | 0x17 => one t.win
  | _ => none

/-! ### Meanings -/

/-- IADD (R60). D ← A + B modulo 2^32 or 2^64. -/
def execIadd (sw : Bool) (d : BitVec 7) (a : BitVec 7) (b : BitVec 7) (w : Width) (s : State) : Host.Outcome State Fault Refusal :=
  runPly (.iadd sw d a b w) (widthOp w d fun u => u.value w a + u.value w b) s

/-- IADD_SAT (R60). D ← the exact sum clamped to the type; SAT when that changes it. -/
def execIaddSat (sw : Bool) (d : BitVec 7) (a : BitVec 7) (b : BitVec 7) (t : Sgn) (s : State) : Host.Outcome State Fault Refusal :=
  runPly (.iaddSat sw d a b t) (flagOp d fun u => clampTo t (t.value (u.reg a.toNat) + t.value (u.reg b.toNat))) s

/-- ISUB (R60). D ← A − B modulo 2^32 or 2^64. -/
def execIsub (sw : Bool) (d : BitVec 7) (a : BitVec 7) (b : BitVec 7) (w : Width) (s : State) : Host.Outcome State Fault Refusal :=
  runPly (.isub sw d a b w) (widthOp w d fun u => u.value w a - u.value w b) s

/-- ISUB_SAT (R60). D ← the exact difference clamped to the type; SAT when that changes it. -/
def execIsubSat (sw : Bool) (d : BitVec 7) (a : BitVec 7) (b : BitVec 7) (t : Sgn) (s : State) : Host.Outcome State Fault Refusal :=
  runPly (.isubSat sw d a b t) (flagOp d fun u => clampTo t (t.value (u.reg a.toNat) - t.value (u.reg b.toNat))) s

/-- IADD_IMM (R60). D ← A + k for k 0 to 1,023. -/
def execIaddImm (sw : Bool) (d : BitVec 7) (a : BitVec 7) (i : BitVec 10) (s : State) : Host.Outcome State Fault Refusal :=
  runPly (.iaddImm sw d a i) (regOp d fun u => u.reg a.toNat + i.setWidth 32) s

/-- IADDC (R61). Add with the carry of predicate F. -/
def execIaddc (sw : Bool) (d : BitVec 7) (a : BitVec 7) (b : BitVec 7) (c : BitVec 3) (s : State) : Host.Outcome State Fault Refusal :=
  runPly (.iaddc sw d a b c) (fun th s =>
    let u := s.thread th
    let x := addCarry (u.reg a.toNat) (u.reg b.toNat) (u.pred c.toNat)
    .go ((s.setReg th d.toNat x.1).setPred th c.toNat x.2)) s

/-- ISUBB (R61). Subtract with the borrow of predicate F. -/
def execIsubb (sw : Bool) (d : BitVec 7) (a : BitVec 7) (b : BitVec 7) (c : BitVec 3) (s : State) : Host.Outcome State Fault Refusal :=
  runPly (.isubb sw d a b c) (fun th s =>
    let u := s.thread th
    let x := subBorrow (u.reg a.toNat) (u.reg b.toNat) (u.pred c.toNat)
    .go ((s.setReg th d.toNat x.1).setPred th c.toNat x.2)) s

/-- IMUL (R62). D ← the low word or pair of A × B. -/
def execImul (sw : Bool) (d : BitVec 7) (a : BitVec 7) (b : BitVec 7) (w : Width) (s : State) : Host.Outcome State Fault Refusal :=
  runPly (.imul sw d a b w) (widthOp w d fun u => u.value w a * u.value w b) s

/-- IMULH (R62). D ← bits [63:32] of the exact product. -/
def execImulh (sw : Bool) (d : BitVec 7) (a : BitVec 7) (b : BitVec 7) (t : Sgn) (s : State) : Host.Outcome State Fault Refusal :=
  runPly (.imulh sw d a b t) (regOp d fun u => mulHigh t (u.reg a.toNat) (u.reg b.toNat)) s

/-- IMAD (R60). D ← A × B + D modulo 2^32 or 2^64. -/
def execImad (sw : Bool) (d : BitVec 7) (a : BitVec 7) (b : BitVec 7) (w : Width) (s : State) : Host.Outcome State Fault Refusal :=
  runPly (.imad sw d a b w) (widthOp w d fun u => u.value w a * u.value w b + u.value w d) s

/-- IDIV (R63). D ← the quotient truncated toward zero; all ones for a zero divisor. -/
def execIdiv (sw : Bool) (d : BitVec 7) (a : BitVec 7) (b : BitVec 7) (t : Sgn) (s : State) : Host.Outcome State Fault Refusal :=
  runPly (.idiv sw d a b t) (regOp d fun u => divWord t (u.reg a.toNat) (u.reg b.toNat)) s

/-- IREM (R63). D ← the remainder with the dividend's sign; A for a zero divisor. -/
def execIrem (sw : Bool) (d : BitVec 7) (a : BitVec 7) (b : BitVec 7) (t : Sgn) (s : State) : Host.Outcome State Fault Refusal :=
  runPly (.irem sw d a b t) (regOp d fun u => remWord t (u.reg a.toNat) (u.reg b.toNat)) s

/-- IMIN (R60). D ← the smaller of A and B under the type. -/
def execImin (sw : Bool) (d : BitVec 7) (a : BitVec 7) (b : BitVec 7) (t : Sgn) (s : State) : Host.Outcome State Fault Refusal :=
  runPly (.imin sw d a b t) (regOp d fun u => minWord t (u.reg a.toNat) (u.reg b.toNat)) s

/-- IMAX (R60). D ← the larger of A and B under the type. -/
def execImax (sw : Bool) (d : BitVec 7) (a : BitVec 7) (b : BitVec 7) (t : Sgn) (s : State) : Host.Outcome State Fault Refusal :=
  runPly (.imax sw d a b t) (regOp d fun u => maxWord t (u.reg a.toNat) (u.reg b.toNat)) s

/-- IABS (R60). D ← |Sext(A)| modulo 2^32. -/
def execIabs (sw : Bool) (d : BitVec 7) (a : BitVec 7) (s : State) : Host.Outcome State Fault Refusal :=
  runPly (.iabs sw d a) (regOp d fun u => BitVec.ofNat 32 (u.reg a.toNat).toInt.natAbs) s

/-- INEG (R60). D ← 0 − A modulo 2^32. -/
def execIneg (sw : Bool) (d : BitVec 7) (a : BitVec 7) (s : State) : Host.Outcome State Fault Refusal :=
  runPly (.ineg sw d a) (regOp d fun u => 0 - u.reg a.toNat) s

/-- AND (R64). D ← A AND B. -/
def execAndR (sw : Bool) (d : BitVec 7) (a : BitVec 7) (b : BitVec 7) (w : Width) (s : State) : Host.Outcome State Fault Refusal :=
  runPly (.andR sw d a b w) (widthOp w d fun u => u.value w a &&& u.value w b) s

/-- OR (R64). D ← A OR B. -/
def execOrR (sw : Bool) (d : BitVec 7) (a : BitVec 7) (b : BitVec 7) (w : Width) (s : State) : Host.Outcome State Fault Refusal :=
  runPly (.orR sw d a b w) (widthOp w d fun u => u.value w a ||| u.value w b) s

/-- XOR (R64). D ← A XOR B. -/
def execXorR (sw : Bool) (d : BitVec 7) (a : BitVec 7) (b : BitVec 7) (w : Width) (s : State) : Host.Outcome State Fault Refusal :=
  runPly (.xorR sw d a b w) (widthOp w d fun u => u.value w a ^^^ u.value w b) s

/-- ANDN (R64). D ← A AND NOT B. -/
def execAndnR (sw : Bool) (d : BitVec 7) (a : BitVec 7) (b : BitVec 7) (w : Width) (s : State) : Host.Outcome State Fault Refusal :=
  runPly (.andnR sw d a b w) (widthOp w d fun u => u.value w a &&& ~~~(u.value w b)) s

/-- AND_IMM (R64). D ← A AND Sext(k). -/
def execAndImm (sw : Bool) (d : BitVec 7) (a : BitVec 7) (i : BitVec 10) (s : State) : Host.Outcome State Fault Refusal :=
  runPly (.andImm sw d a i) (regOp d fun u => u.reg a.toNat &&& sextImm i) s

/-- ISUB_IMM (R60). D ← A − k for k 0 to 1,023. -/
def execIsubImm (sw : Bool) (d : BitVec 7) (a : BitVec 7) (i : BitVec 10) (s : State) : Host.Outcome State Fault Refusal :=
  runPly (.isubImm sw d a i) (regOp d fun u => u.reg a.toNat - i.setWidth 32) s

/-- SHL (R65). The amount is the whole unsigned register B. -/
def execShl (sw : Bool) (d : BitVec 7) (a : BitVec 7) (b : BitVec 7) (w : Width) (s : State) : Host.Outcome State Fault Refusal :=
  runPly (.shl sw d a b w) (widthOp w d fun u => shiftLeft w (u.value w a) (u.reg b.toNat).toNat) s

/-- SHL_IMM (R65). The amount is the immediate. -/
def execShlImm (sw : Bool) (d : BitVec 7) (a : BitVec 7) (w : Width) (n : BitVec 6) (s : State) : Host.Outcome State Fault Refusal :=
  runPly (.shlImm sw d a w n) (widthOp w d fun u => shiftLeft w (u.value w a) n.toNat) s

/-- SHR (R65). The amount is the whole unsigned register B. -/
def execShr (sw : Bool) (d : BitVec 7) (a : BitVec 7) (b : BitVec 7) (w : Width) (s : State) : Host.Outcome State Fault Refusal :=
  runPly (.shr sw d a b w) (widthOp w d fun u => shiftRight w (u.value w a) (u.reg b.toNat).toNat) s

/-- SHR_IMM (R65). The amount is the immediate. -/
def execShrImm (sw : Bool) (d : BitVec 7) (a : BitVec 7) (w : Width) (n : BitVec 6) (s : State) : Host.Outcome State Fault Refusal :=
  runPly (.shrImm sw d a w n) (widthOp w d fun u => shiftRight w (u.value w a) n.toNat) s

/-- SAR (R65). The amount is the whole unsigned register B. -/
def execSar (sw : Bool) (d : BitVec 7) (a : BitVec 7) (b : BitVec 7) (w : Width) (s : State) : Host.Outcome State Fault Refusal :=
  runPly (.sar sw d a b w) (widthOp w d fun u => shiftArith w (u.value w a) (u.reg b.toNat).toNat) s

/-- SAR_IMM (R65). The amount is the immediate. -/
def execSarImm (sw : Bool) (d : BitVec 7) (a : BitVec 7) (w : Width) (n : BitVec 6) (s : State) : Host.Outcome State Fault Refusal :=
  runPly (.sarImm sw d a w n) (widthOp w d fun u => shiftArith w (u.value w a) n.toNat) s

/-- ROL (R65). D ← A rotated left by B mod 32. -/
def execRol (sw : Bool) (d : BitVec 7) (a : BitVec 7) (b : BitVec 7) (s : State) : Host.Outcome State Fault Refusal :=
  runPly (.rol sw d a b) (regOp d fun u => (u.reg a.toNat).rotateLeft ((u.reg b.toNat).toNat % 32)) s

/-- ROL_IMM (R65). D ← A rotated left by n. -/
def execRolImm (sw : Bool) (d : BitVec 7) (a : BitVec 7) (n : BitVec 5) (s : State) : Host.Outcome State Fault Refusal :=
  runPly (.rolImm sw d a n) (regOp d fun u => (u.reg a.toNat).rotateLeft n.toNat) s

/-- POPC (R65). D ← the number of ones of A. -/
def execPopc (sw : Bool) (d : BitVec 7) (a : BitVec 7) (w : Width) (s : State) : Host.Outcome State Fault Refusal :=
  runPly (.popc sw d a w) (regOp d fun u => BitVec.ofNat 32 (countOnes (u.value w a).toNat 64)) s

/-- CLZ (R65). D ← the leading zeros of A. -/
def execClz (sw : Bool) (d : BitVec 7) (a : BitVec 7) (s : State) : Host.Outcome State Fault Refusal :=
  runPly (.clz sw d a) (regOp d fun u => BitVec.ofNat 32 (leadZeros (u.reg a.toNat))) s

/-- CTZ (R65). D ← the trailing zeros of A. -/
def execCtz (sw : Bool) (d : BitVec 7) (a : BitVec 7) (s : State) : Host.Outcome State Fault Refusal :=
  runPly (.ctz sw d a) (regOp d fun u => BitVec.ofNat 32 (trailZeros (u.reg a.toNat))) s

/-- BREV (R65). D[i] ← A[31 − i]. -/
def execBrev (sw : Bool) (d : BitVec 7) (a : BitVec 7) (s : State) : Host.Outcome State Fault Refusal :=
  runPly (.brev sw d a) (regOp d fun u => reverseBits (u.reg a.toNat)) s

/-- BFX_N32 (R66). D ← the zero-extended field. -/
def execBfxN32 (sw : Bool) (d : BitVec 7) (a : BitVec 7) (p : BitVec 5) (w : BitVec 5) (s : State) : Host.Outcome State Fault Refusal :=
  runPly (.bfxN32 sw d a p w) (regOp d fun u => bitField false (u.reg a.toNat) p.toNat (w.toNat + 1)) s

/-- BFX_I32 (R66). D ← the sign-extended field. -/
def execBfxI32 (sw : Bool) (d : BitVec 7) (a : BitVec 7) (p : BitVec 5) (w : BitVec 5) (s : State) : Host.Outcome State Fault Refusal :=
  runPly (.bfxI32 sw d a p w) (regOp d fun u => bitField true (u.reg a.toNat) p.toNat (w.toNat + 1)) s

/-- BFI (R66). A's low bits replace the field of D. -/
def execBfi (sw : Bool) (d : BitVec 7) (a : BitVec 7) (p : BitVec 5) (w : BitVec 5) (s : State) : Host.Outcome State Fault Refusal :=
  runPly (.bfi sw d a p w) (regOp d fun u => insertField (u.reg d.toNat) (u.reg a.toNat) p.toNat (w.toNat + 1)) s

/-- ISET (R67). p ← A cond B. -/
def execIset (sw : Bool) (c : ICond) (g : Bool) (p : BitVec 3) (a : BitVec 7) (b : BitVec 7) (w : Width) (s : State) : Host.Outcome State Fault Refusal :=
  runPly (.iset sw c g p a b w) (predOp p fun u => match w with
    | .w32 => icompare c g (u.reg a.toNat) (u.reg b.toNat)
    | .w64 => icompare c g (u.pair a.toNat) (u.pair b.toNat)) s

/-- ISET_IMM (R67). p ← A cond Sext(IMM10). -/
def execIsetImm (sw : Bool) (c : ICond) (g : Bool) (p : BitVec 3) (a : BitVec 7) (i : BitVec 10) (s : State) : Host.Outcome State Fault Refusal :=
  runPly (.isetImm sw c g p a i) (predOp p fun u => icompare c g (u.reg a.toNat) (sextImm i)) s

/-- ISEL (R68). D ← A where p[c] holds, else B. -/
def execIsel (sw : Bool) (d : BitVec 7) (a : BitVec 7) (b : BitVec 7) (c : BitVec 3) (s : State) : Host.Outcome State Fault Refusal :=
  runPly (.isel sw d a b c) (regOp d fun u => if u.pred c.toNat then u.reg a.toNat else u.reg b.toNat) s

/-- PSET_AND (R68). p ← x AND y. -/
def execPsetAnd (sw : Bool) (p : BitVec 3) (x : BitVec 3) (y : BitVec 3) (s : State) : Host.Outcome State Fault Refusal :=
  runPly (.psetAnd sw p x y) (predOp p fun u => u.pred x.toNat && u.pred y.toNat) s

/-- PSET_OR (R68). p ← x OR y. -/
def execPsetOr (sw : Bool) (p : BitVec 3) (x : BitVec 3) (y : BitVec 3) (s : State) : Host.Outcome State Fault Refusal :=
  runPly (.psetOr sw p x y) (predOp p fun u => u.pred x.toNat || u.pred y.toNat) s

/-- PSET_XOR (R68). p ← x XOR y. -/
def execPsetXor (sw : Bool) (p : BitVec 3) (x : BitVec 3) (y : BitVec 3) (s : State) : Host.Outcome State Fault Refusal :=
  runPly (.psetXor sw p x y) (predOp p fun u => u.pred x.toNat ^^ u.pred y.toNat) s

/-- PSET_ANDN (R68). p ← x AND NOT y. -/
def execPsetAndn (sw : Bool) (p : BitVec 3) (x : BitVec 3) (y : BitVec 3) (s : State) : Host.Outcome State Fault Refusal :=
  runPly (.psetAndn sw p x y) (predOp p fun u => u.pred x.toNat && !u.pred y.toNat) s

/-- MOV (R69). D ← A. -/
def execMov (sw : Bool) (d : BitVec 7) (a : BitVec 7) (w : Width) (s : State) : Host.Outcome State Fault Refusal :=
  runPly (.mov sw d a w) (widthOp w d fun u => u.value w a) s

/-- MOVI (R69). D ← Sext(k). -/
def execMovi (sw : Bool) (d : BitVec 7) (i : BitVec 17) (s : State) : Host.Outcome State Fault Refusal :=
  runPly (.movi sw d i) (regOp d fun _ => sextImm i) s

/-- MOVH (R69). D[31:15] ← k; D[14:0] kept. -/
def execMovh (sw : Bool) (d : BitVec 7) (i : BitVec 17) (s : State) : Host.Outcome State Fault Refusal :=
  runPly (.movh sw d i) (regOp d fun u => i ++ (u.reg d.toNat).extractLsb' 0 15) s

/-- LEA (R70). D ← A + Sext(B) × 2^F modulo 2^64. -/
def execLea (sw : Bool) (d : BitVec 7) (a : BitVec 7) (b : BitVec 7) (f : BitVec 3) (s : State) : Host.Outcome State Fault Refusal :=
  runPly (.lea sw d a b f) (pairOp d fun u => u.pair a.toNat + (u.reg b.toNat).signExtend 64 * (1#64 <<< f.toNat)) s

/-- LEA_IMM (R70). D ← A + Sext(k) modulo 2^64. -/
def execLeaImm (sw : Bool) (d : BitVec 7) (a : BitVec 7) (i : BitVec 10) (s : State) : Host.Outcome State Fault Refusal :=
  runPly (.leaImm sw d a i) (pairOp d fun u => u.pair a.toNat + i.signExtend 64) s

/-- GETS (R71). D ← the special register that IMM10 names, at issue. -/
def execGets (sw : Bool) (d : BitVec 7) (i : BitVec 10) (s : State) : Host.Outcome State Fault Refusal :=
  runPly (.gets sw d i) (fun th s =>
    match s.special th i.toNat with
    | none => .trap s codeIllegalOperand 0 (i.setWidth 64)
    | some (n, v) =>
      if n = 2 then
        if d.toNat % 2 = 1 then .trap s codeIllegalOperand 0 (((Instr.gets sw d i).encode.getD 0).setWidth 64)
        else .go (s.setPair th d.toNat v)
      else .go (s.setReg th d.toNat (v.setWidth 32))) s

/-- SETS (R71). FLAGS ← A; only FLAGS can be named. -/
def execSets (sw : Bool) (a : BitVec 7) (i : BitVec 10) (s : State) : Host.Outcome State Fault Refusal :=
  runPly (.sets sw a i) (fun th s =>
    if i = 0x10 then
      .go (s.modThread th fun u => { u with flags := (u.reg a.toNat).setWidth 6 })
    else .trap s codeIllegalOperand 0 (((Instr.sets sw a i).encode.getD 0).setWidth 64)) s

end Sys2Proof.Machine
end

