-- ==== Sys2Proof/Machine/Lane.lean ====
section
/-! DEFINITION. Lane operations (R73 to R77): each acts on the threads of the issuing ply that pass their checks. -/
namespace Sys2Proof.Machine
open Sys2Proof

/-- The ply's thread on a lane, if it has one. -/
def onLane (ms : List (ThreadRef × Thread)) (l : Nat) : Option Thread := (ms.find? fun e => e.1.lane == l).map (·.2)

/-- SHFL of R74 from lane `l`: the other lane's A, or the thread's own. -/
def shuffled (ms : List (ThreadRef × Thread)) (l : Int) (a : BitVec 7) (own : Thread) : Word :=
  if 0 ≤ l ∧ l ≤ 63 then
    match onLane ms l.toNat with
    | some t => t.reg a.toNat
    | none => own.reg a.toNat
  else own.reg a.toNat

/-- The A operands of the ply's threads on lanes up to `l`, in ascending lane order (R77). -/
def upTo (ms : List (ThreadRef × Thread)) (a : BitVec 7) (l : Nat) : List Word :=
  (ms.filter fun e => e.1.lane ≤ l).map fun e => e.2.reg a.toNat

def below (ms : List (ThreadRef × Thread)) (a : BitVec 7) (l : Nat) : List Word :=
  (ms.filter fun e => e.1.lane < l).map fun e => e.2.reg a.toNat

/-- Writes one register from the ply's members and the thread's own lane. -/
def laneOp (d : BitVec 7) (f : List (ThreadRef × Thread) → Nat → Thread → Word)
    (ms : List (ThreadRef × Thread)) (th : ThreadRef) (s : State) : Effect :=
  .go (s.setReg th d.toNat (f ms th.lane (s.thread th)))

def lanePairOp (d : BitVec 7) (f : List (ThreadRef × Thread) → Nat → Thread → DWord)
    (ms : List (ThreadRef × Thread)) (th : ThreadRef) (s : State) : Effect :=
  .go (s.setPair th d.toNat (f ms th.lane (s.thread th)))

def lanePredOp (p : BitVec 3) (f : List (ThreadRef × Thread) → Nat → Bool)
    (ms : List (ThreadRef × Thread)) (th : ThreadRef) (s : State) : Effect :=
  .go (s.setPred th p.toNat (f ms th.lane))

/-- SHFL_IDX (R74). D ← A of the lane that the mode and B give, or the thread's own A. -/
def execShflIdx (sw : Bool) (d : BitVec 7) (a : BitVec 7) (b : BitVec 7) (s : State) : Host.Outcome State Fault Refusal :=
  runLanes (.shflIdx sw d a b) (laneOp d fun ms _ u => shuffled ms ((u.reg b.toNat).toNat % 64 : Nat) a u) s

/-- SHFL_UP (R74). D ← A of the lane that the mode and B give, or the thread's own A. -/
def execShflUp (sw : Bool) (d : BitVec 7) (a : BitVec 7) (b : BitVec 7) (s : State) : Host.Outcome State Fault Refusal :=
  runLanes (.shflUp sw d a b) (laneOp d fun ms l u => shuffled ms ((l : Int) - (u.reg b.toNat).toNat) a u) s

/-- SHFL_DOWN (R74). D ← A of the lane that the mode and B give, or the thread's own A. -/
def execShflDown (sw : Bool) (d : BitVec 7) (a : BitVec 7) (b : BitVec 7) (s : State) : Host.Outcome State Fault Refusal :=
  runLanes (.shflDown sw d a b) (laneOp d fun ms l u => shuffled ms ((l : Int) + (u.reg b.toNat).toNat) a u) s

/-- SHFL_XOR (R74). D ← A of the lane that the mode and B give, or the thread's own A. -/
def execShflXor (sw : Bool) (d : BitVec 7) (a : BitVec 7) (b : BitVec 7) (s : State) : Host.Outcome State Fault Refusal :=
  runLanes (.shflXor sw d a b) (laneOp d fun ms l u => shuffled ms (Nat.xor l ((u.reg b.toNat).toNat % 64) : Nat) a u) s

/-- VOTE_ANY (R75). p ← x holds in some thread of the ply. -/
def execVoteAny (sw : Bool) (p : BitVec 3) (x : BitVec 3) (s : State) : Host.Outcome State Fault Refusal :=
  runLanes (.voteAny sw p x) (lanePredOp p fun ms _ => ms.any fun e => e.2.pred x.toNat) s

/-- VOTE_ALL (R75). p ← x holds in every thread of the ply. -/
def execVoteAll (sw : Bool) (p : BitVec 3) (x : BitVec 3) (s : State) : Host.Outcome State Fault Refusal :=
  runLanes (.voteAll sw p x) (lanePredOp p fun ms _ => ms.all fun e => e.2.pred x.toNat) s

/-- VOTE_BALLOT (R75). Bit L of D ← x of the thread on lane L. -/
def execVoteBallot (sw : Bool) (d : BitVec 7) (x : BitVec 3) (s : State) : Host.Outcome State Fault Refusal :=
  runLanes (.voteBallot sw d x) (lanePairOp d fun ms _ _ => laneMask ms fun u => u.pred x.toNat) s

/-- MATCH (R76). D ← the lanes of the ply whose A equals the thread's own. -/
def execMatchLanes (sw : Bool) (d : BitVec 7) (a : BitVec 7) (w : Width) (s : State) : Host.Outcome State Fault Refusal :=
  runLanes (.matchLanes sw d a w) (lanePairOp d fun ms _ v => laneMask ms fun u => u.value w a == v.value w a) s

/-- ELECT (R75). p ← the thread is on the lowest lane of the ply. -/
def execElect (sw : Bool) (p : BitVec 3) (s : State) : Host.Outcome State Fault Refusal :=
  runLanes (.elect sw p) (lanePredOp p fun ms l => ms.all fun e => l ≤ e.1.lane) s

/-- SCAN_ADD (R77). D ← the sum of A over lanes up to the thread's, modulo 2^32. -/
def execScanAdd (sw : Bool) (d : BitVec 7) (a : BitVec 7) (s : State) : Host.Outcome State Fault Refusal :=
  runLanes (.scanAdd sw d a) (laneOp d fun ms l _ => (upTo ms a l).foldl (· + ·) 0) s

/-- SCAN_ADD_EX (R77). D ← the sum of A over lanes below the thread's, modulo 2^32. -/
def execScanAddEx (sw : Bool) (d : BitVec 7) (a : BitVec 7) (s : State) : Host.Outcome State Fault Refusal :=
  runLanes (.scanAddEx sw d a) (laneOp d fun ms l _ => (below ms a l).foldl (· + ·) 0) s

/-- SCAN_MIN (R77). D ← the least signed A over lanes up to the thread's. -/
def execScanMin (sw : Bool) (d : BitVec 7) (a : BitVec 7) (s : State) : Host.Outcome State Fault Refusal :=
  runLanes (.scanMin sw d a) (laneOp d fun ms l u => (upTo ms a l).foldl (minWord .i32) (u.reg a.toNat)) s

/-- SCAN_MAX (R77). D ← the greatest signed A over lanes up to the thread's. -/
def execScanMax (sw : Bool) (d : BitVec 7) (a : BitVec 7) (s : State) : Host.Outcome State Fault Refusal :=
  runLanes (.scanMax sw d a) (laneOp d fun ms l u => (upTo ms a l).foldl (maxWord .i32) (u.reg a.toNat)) s

/-- LMASK (R75). Bit L of D ← the ply has a thread on lane L. -/
def execLmask (sw : Bool) (d : BitVec 7) (s : State) : Host.Outcome State Fault Refusal :=
  runLanes (.lmask sw d) (lanePairOp d fun ms _ _ => laneMask ms fun _ => true) s

end Sys2Proof.Machine
end

