-- ==== Sys2Proof/Machine/Sched.lean ====
section
/-! DEFINITION. The active and pending sets of a quadrant (R15, R239) and the forming of plies (R13, R240). -/
namespace Sys2Proof.Machine
open Sys2Proof

/-- Resident groups of a quadrant, by team and number: teams in the order of their resident places. -/
def State.quadGroups (s : State) (core quad : Nat) : List (Nat × Nat) :=
  (s.residents core).flatMap fun t =>
    ((s.team t).groups.filter fun g => g.2.quad == quad && g.2.live).map fun g => (t, g.1)

def State.groupAt (s : State) (e : Nat × Nat) : Group := (s.team e.1).group e.2

/-- A thread of the group waits for a page fault of its own access or fetch: the group stays parked (R300). -/
def Group.faultParked (g : Group) : Bool := g.threads.any fun t =>
  t.2.status == .blocked && (match t.2.wait with
    | .pageFault _ _ _ own => own
    | _ => false)

/-- The group is not parked on a page fault and has a thread that is Ready; a Stalled one is not (R239, R240). -/
def Group.hasReady (g : Group) : Bool := !g.faultParked && g.threads.any fun t => t.2.status == .ready

/-- Every live thread is parked or blocked (R15, first case); a Stalled thread keeps its group active (R12). -/
def Group.idleNow (g : Group) : Bool :=
  g.faultParked || g.threads.all fun t => t.2.status != .ready && t.2.status != .stalled

/-- The entry of least key; ties go to the earlier one. -/
def leastBy {α : Type} (key : α → Nat) : List α → Option α
  | [] => none
  | a :: rest =>
    match leastBy key rest with
    | some b => if key b < key a then some b else some a
    | none => some a

/-- A group leaves the active set and becomes the youngest pending group (R239). -/
def State.leaveActive (s : State) (e : Nat × Nat) : State :=
  s.modGroup e.1 e.2 fun g => { g with active := false, since := s.tick }

/-- A group enters the active set; its Ready threads become Ready anew (R239, R240). -/
def State.enterActive (s : State) (e : Nat × Nat) : State :=
  s.modGroup e.1 e.2 fun g => { g with
    active := true
    since := s.cyclesOf (s.team e.1).core
    threads := g.threads.map fun t => (t.1, if t.2.status = .ready then { t.2 with readyAt := s.tick } else t.2) }

/-- The group that a vacancy goes to: a waiting responder, else the pending group with a Ready thread that has been
pending longest; ties go to the lower resident place (R239). -/
def State.nextActive (s : State) (core quad : Nat) : Option (Nat × Nat) :=
  let pend := (s.quadGroups core quad).filter fun e => !(s.groupAt e).active && (s.groupAt e).hasReady
  match pend.find? fun e => decide (16 ≤ e.2) with
  | some e => some e
  | none => leastBy (fun e => (s.groupAt e).since * 16 + (s.groupAt e).place) pend

def State.activeGroups (s : State) (core quad : Nat) : List (Nat × Nat) :=
  (s.quadGroups core quad).filter fun e => (s.groupAt e).active

/-- Fills vacancies of the active set; one fill per unit of fuel. -/
def State.fillActive (s : State) (core quad : Nat) : Nat → State
  | 0 => s
  | n + 1 =>
    if (s.activeGroups core quad).length < Config.activePlaces then
      match s.nextActive core quad with
      | some e => (s.enterActive e).fillActive core quad n
      | none => s
    else s

/-- Groups whose live threads are all parked or blocked leave, and the vacancies are filled (R15, R239). -/
def State.refreshActive (s : State) (core quad : Nat) : State :=
  let idle := (s.activeGroups core quad).filter fun e => (s.groupAt e).idleNow
  (idle.foldl (fun s e => s.leaveActive e) s).fillActive core quad Config.activePlaces

/-- Groups that have gone idle leave their active sets (R15, R239). -/
def State.leaveIdle (s : State) : State :=
  { s with teams := s.teams.map fun t => (t.1, { t.2 with groups := t.2.groups.map fun g =>
      (g.1, if g.2.active && g.2.idleNow then { g.2 with active := false, since := s.tick } else g.2) }) }

/-- A ready pending group waits in the quadrant. -/
def State.readyPending (s : State) (core quad : Nat) : Bool :=
  (s.quadGroups core quad).any fun e => !(s.groupAt e).active && (s.groupAt e).hasReady

/-- The thread that an open ply waits with: the first of those still to run its instruction. -/
def State.headOf (s : State) (o : OpenPly) : Option ThreadRef := o.rest.find? fun th => (s.thread th).status != .exited

/-- A thread of an open ply issues when it is the one the ply waits with. -/
def State.leadsPly (s : State) (th : ThreadRef) : Bool :=
  match s.openPly? th with
  | some o => s.headOf o == some th
  | none => true

/-- The thread's ply has sent operations to the engine and has more to send. -/
def State.inOpenPly (s : State) (th : ThreadRef) : Bool :=
  match s.openPly? th with
  | some o => !o.entered.isEmpty
  | none => false

/-- HALT keeps the core's ordinary groups from issuing and its teams from being preempted (R308); a core that is being
gated empties all the same (R343, log 140). -/
def Core.held (k : Core) : Bool := k.ctl.halt && k.ctl.pstat != 1

/-- While CORECTL.HALT is 1 only responders issue (R308); in a team that is being saved, also the threads whose
instruction waits at issue, to complete that wait, and those of an open ply, to end it (R242, R134). -/
def State.mayIssue (s : State) (core : Nat) (th : ThreadRef) : Bool :=
  isResponder th ||
  (!(s.core core).held && (!(s.team th.team).saving || (s.thread th).waitOp.isSome || s.inOpenPly th))

/-- A thread released with others at a GSYNC issues only when all of them are Ready (R248). -/
def State.joinedReady (s : State) (th : ThreadRef) : Bool :=
  let j := (s.thread th).joined
  decide (j = 0) || (s.group th).threads.all fun t => t.2.joined != j || t.2.status == .exited || t.2.status == .ready

/-- Ready threads that `allow` lets issue, of the active groups that no page fault parks (R240, R300). -/
def State.issuableBy (s : State) (core quad : Nat) (allow : ThreadRef → Bool) : List ThreadRef :=
  ((s.activeGroups core quad).filter fun e => !(s.groupAt e).faultParked).flatMap fun e =>
    ((s.groupAt e).threads.filter fun t =>
      t.2.status == .ready && allow ⟨e.1, e.2, t.1⟩ && s.joinedReady ⟨e.1, e.2, t.1⟩ && s.leadsPly ⟨e.1, e.2, t.1⟩).map
      fun t => ⟨e.1, e.2, t.1⟩

/-- Threads of active groups that may issue. -/
def State.issuable (s : State) (core quad : Nat) : List ThreadRef := s.issuableBy core quad (s.mayIssue core)

/-- The thread that a STEP of the core selects, when it stands in the quadrant (R308). -/
def State.stepped (s : State) (core quad : Nat) : Option ThreadRef :=
  match (s.core core).ctl.step with
  | some th => if (s.group th).quad = quad then some th else none
  | none => none

/-- The threads of the ply around T: with T alone of its GSYNC's threads, those; otherwise for each lane the oldest
issuable thread of T's team at T's program counter. A responder forms plies only from its own threads (R240,
R248, R262). A STEP forms its ply as though the core were not halted (R308). A thread that runs the instruction at
TRAPPC once more after TRET.RE issues with those that do so for the same switch point: the model's choice (log 132). One
that waits in an open ply issues with that ply (R103, R134). -/
def State.ringAround (s : State) (core quad : Nat) (top : ThreadRef) : List ThreadRef :=
  let t := s.thread top
  let cands := (s.issuableBy core quad fun th => s.stepped core quad == some top || s.mayIssue core th).filter fun th =>
    th.team == top.team && (s.thread th).pc == t.pc && (s.thread th).joined == t.joined &&
    (s.thread th).replay == t.replay && (s.openPly? th).isNone &&
    (if isResponder top || t.joined != 0 then th.group == top.group else !isResponder th)
  (List.range 64).filterMap fun lane =>
    if lane = top.lane then some top
    else leastBy (fun th => (s.thread th).readyAt * 16 + th.group) (cands.filter fun th => th.lane == lane)

/-- The ply of T: the rest of its open ply, else the threads around it. -/
def State.plyAround (s : State) (core quad : Nat) (top : ThreadRef) : List ThreadRef :=
  match s.openPly? top with
  | some o => o.rest
  | none => s.ringAround core quad top

/-- T of R240: the issuable thread with the oldest ready time; ties by resident place of the team, group, lane. -/
def State.oldest (s : State) (core quad : Nat) : Option ThreadRef :=
  leastBy (fun th => (s.thread th).readyAt) (s.issuable core quad)

/-- T: the thread a STEP selects, once it is Ready, else the oldest. -/
def State.issueTop (s : State) (core quad : Nat) : Option ThreadRef :=
  match s.stepped core quad with
  | some th =>
    if (s.thread th).status = .ready ∧ (s.group th).faultParked = false ∧ s.leadsPly th then some th
    else s.oldest core quad
  | none => s.oldest core quad

end Sys2Proof.Machine
end

