-- ==== Sys2Proof/Machine/Control.lean ====
section
/-! DEFINITION. Control flow (R78 to R81), the window base, traps raised by program and the returns from a trap
(R297). -/
namespace Sys2Proof.Machine
open Sys2Proof

/-- The guard of form B: p[P] XOR N (R78). -/
def Thread.guard (t : Thread) (p : BitVec 3) (n : Bool) : Bool := t.pred p.toNat ^^ n

/-- Sends the thread to a target when `taken`, and on otherwise. -/
def branchIf (taken : Bool) (o : BitVec 20) (th : ThreadRef) (s : State) : Effect :=
  if taken then .jump s (branchTarget (s.thread th).pc o) else .go s

/-- RET and JMPV: the target pair must be a virtual address and a multiple of 4 (R79). -/
def jumpPair (a : BitVec 7) (th : ThreadRef) (s : State) : Effect :=
  let v := (s.thread th).pair a.toNat
  if v.extractLsb' 57 7 ≠ 0 ∨ v.extractLsb' 0 2 ≠ 0 then .trap s codePermission v 0 else .jump s v

/-- TRET's two refusals: outside the handler it is illegal; after an imprecise trap the team stops with the code
TRAPCODE still holds (R297, R298). -/
def returnTrap (th : ThreadRef) (s : State) (resume : Thread → State → State) : Effect :=
  let t := s.thread th
  if t.inHandler = false then .trap s codeIllegalOperand 0 0x7F
  else if t.imprecise then .done (s.markStop th.team t.trap.code)
  else .done (resume t (s.leaveHandler th))

/-- BRA (R78). A thread whose guard holds goes to the target. -/
def execBra (sw : Bool) (p : BitVec 3) (n : Bool) (o : BitVec 20) (s : State) : Host.Outcome State Fault Refusal :=
  runPly (.bra sw p n o) (fun th s => branchIf ((s.thread th).guard p n) o th s) s

/-- BRC_ANY (R78). Every thread goes to the target when the guard holds in some thread of the ply. -/
def execBrcAny (sw : Bool) (p : BitVec 3) (n : Bool) (o : BitVec 20) (s : State) : Host.Outcome State Fault Refusal :=
  runLanes (.brcAny sw p n o) (fun ms th s => branchIf (ms.any fun e => e.2.guard p n) o th s) s

/-- BRC_ALL (R78). Every thread goes to the target when the guard holds in all threads of the ply. -/
def execBrcAll (sw : Bool) (p : BitVec 3) (n : Bool) (o : BitVec 20) (s : State) : Host.Outcome State Fault Refusal :=
  runLanes (.brcAll sw p n o) (fun ms th s => branchIf (ms.all fun e => e.2.guard p n) o th s) s

/-- CALL (R79). A thread whose guard holds links v30:v31 and goes to the target. -/
def execCall (sw : Bool) (p : BitVec 3) (n : Bool) (o : BitVec 20) (s : State) : Host.Outcome State Fault Refusal :=
  runPly (.call sw p n o) (fun th s =>
    let u := s.thread th
    if u.guard p n then .jump (s.setPair th 30 (u.pc + 4)) (branchTarget u.pc o) else .go s) s

/-- RET (R79). The thread goes to its A pair. -/
def execRet (sw : Bool) (a : BitVec 7) (s : State) : Host.Outcome State Fault Refusal :=
  runPly (.ret sw a) (jumpPair a) s

/-- JMPV (R79). The thread goes to its A pair. -/
def execJmpv (sw : Bool) (a : BitVec 7) (s : State) : Host.Outcome State Fault Refusal :=
  runPly (.jmpv sw a) (jumpPair a) s

/-- WBASE (R80). Window base ← k, a multiple of 32 that the budget allows. -/
def execWbase (sw : Bool) (k : BitVec 17) (s : State) : Host.Outcome State Fault Refusal :=
  runPly (.wbase sw k) (fun th s =>
    let b := (s.group th).budget
    if k = 0 ∨ (k.toNat % 32 = 0 ∧ k.toNat + 64 ≤ b) then
      .go (s.modThread th fun u => { u with win := k.toNat })
    else .trap s codeIllegalOperand 0 (k.setWidth 64)) s

/-- NOP (R81). No effect. -/
def execNop (sw : Bool) (s : State) : Host.Outcome State Fault Refusal :=
  runPly (.nop sw) (fun _ s => .go s) s

/-- YIELD (R81). The group gives up its active place when a ready pending group waits in its quadrant. -/
def execYield (sw : Bool) (s : State) : Host.Outcome State Fault Refusal :=
  runPly (.yield sw) (fun th s =>
    let q := (s.group th).quad
    let c := s.coreOf th
    if s.readyPending c q then .go ((s.leaveActive (th.team, th.group)).fillActive c q Config.activePlaces)
    else .go s) s

/-- EXIT (R81). The thread exits; its exit applies to barriers and GSYNCs. -/
def execExitT (sw : Bool) (s : State) : Host.Outcome State Fault Refusal :=
  runPly (.exitT sw) (fun th s => .done ((s.modThread th fun u => { u with replay := none }).exitThread th)) s

/-- TRAP (R297). Raises code 0x400 + k, precise. -/
def execTrap (sw : Bool) (k : BitVec 10) (s : State) : Host.Outcome State Fault Refusal :=
  runPly (.trap sw k) (fun _ s => .trap s (0x400 + k.setWidth 32) 0 (k.setWidth 64)) s

/-- TRET_RE (R297). Leaves the handler and runs the instruction at TRAPPC again, then goes on at frame.PC. -/
def execTretRe (sw : Bool) (s : State) : Host.Outcome State Fault Refusal :=
  runPly (.tretRe sw) (fun th s => returnTrap th s fun t s =>
    (s.goto th t.trap.pc).modThread th fun u => { u with
      replay := if t.frame.pc = t.trap.pc then none else some t.frame.pc }) s

/-- TRET_SKIP (R297). Leaves the handler and skips the instruction that trapped. -/
def execTretSkip (sw : Bool) (s : State) : Host.Outcome State Fault Refusal :=
  runPly (.tretSkip sw) (fun th s => returnTrap th s fun t s =>
    s.goto th (if t.frame.pc = t.trap.pc then t.trap.pc + 4 else t.frame.pc)) s

/-- BKPT (R297). Raises BREAKPOINT, precise. -/
def execBkpt (sw : Bool) (s : State) : Host.Outcome State Fault Refusal :=
  runPly (.bkpt sw) (fun _ s => .trap s codeBreakpoint 0 0) s

end Sys2Proof.Machine
end

