-- ==== Sys2Proof/Machine/Float.lean ====
section
/-! DEFINITION. Floating point: words read as exact values (R44, R45), one rounding (R48, R49), and the operations
and functions of the spec as an exact value followed by that rounding (R84 to R95, R46, R47). -/
namespace Sys2Proof.Machine
open Sys2Proof

/-! ### Formats and exact values -/

/-- Fraction bits and exponent bits of a format (Table 4.2). -/
structure FmtSpec where
  frac : Nat
  exps : Nat
  deriving DecidableEq, Repr

def fp16 : FmtSpec := ⟨10, 5⟩
def bf16 : FmtSpec := ⟨7, 8⟩
def fp32 : FmtSpec := ⟨23, 8⟩
def fp64 : FmtSpec := ⟨52, 11⟩

def fmtSpec : Fmt → FmtSpec
  | .f16 => fp16
  | .bf16 => bf16
  | .f32 => fp32
  | .f64 => fp64

def FmtSpec.bias (f : FmtSpec) : Nat := 2 ^ (f.exps - 1) - 1
def FmtSpec.width (f : FmtSpec) : Nat := f.frac + f.exps + 1
def FmtSpec.signBit (f : FmtSpec) : Nat := 2 ^ (f.frac + f.exps)
def FmtSpec.infBits (f : FmtSpec) : Nat := (2 ^ f.exps - 1) * 2 ^ f.frac
def FmtSpec.maxBits (f : FmtSpec) : Nat := f.infBits - 1
/-- The canonical quiet NaN (R46). -/
def FmtSpec.nanBits (f : FmtSpec) : Nat := f.infBits + 2 ^ (f.frac - 1)
/-- Exponent of the smallest normal. -/
def FmtSpec.emin (f : FmtSpec) : Int := 1 - (f.bias : Int)

/-- A word's class and exact value (R45): a finite value is (−1)^neg × mag × 2^exp. -/
inductive Num where
  | nan (signalling : Bool)
  | inf (neg : Bool)
  | fin (neg : Bool) (mag : Nat) (exp : Int)
  deriving DecidableEq, Repr

def readNum (f : FmtSpec) (x : Nat) : Num :=
  let neg := x / f.signBit % 2 == 1
  let e := x / 2 ^ f.frac % 2 ^ f.exps
  let t := x % 2 ^ f.frac
  if e = 2 ^ f.exps - 1 then
    if t = 0 then .inf neg else .nan (decide (t < 2 ^ (f.frac - 1)))
  else if e = 0 then .fin neg t (f.emin - f.frac)
  else .fin neg (2 ^ f.frac + t) ((e : Int) - f.bias - f.frac)

/-- An FTZ variant reads a subnormal as a zero of its sign (R47). -/
def isSubnormal (f : FmtSpec) (x : Nat) : Bool := x / 2 ^ f.frac % 2 ^ f.exps == 0 && x % 2 ^ f.frac != 0
def flushBits (f : FmtSpec) (x : Nat) : Nat := if isSubnormal f x then x / f.signBit % 2 * f.signBit else x
def readFlushed (f : FmtSpec) (ftz : Bool) (x : Nat) : Num := readNum f (if ftz then flushBits f x else x)

/-! ### Rounding -/

/-- The integer nearest num / den in a mode, for a magnitude of sign `neg` (R48). -/
def roundQuotient (m : Rm) (neg : Bool) (num den : Nat) : Nat :=
  let q := num / den
  let r := num % den
  match m with
  | .rne => if den < 2 * r ∨ (2 * r = den ∧ q % 2 = 1) then q + 1 else q
  | .rtz => q
  | .rup => if neg = false ∧ r ≠ 0 then q + 1 else q
  | .rdn => if neg ∧ r ≠ 0 then q + 1 else q

def shiftUp (n : Nat) (e : Int) : Nat := n * 2 ^ e.toNat

/-- Binary exponent of n / d × 2^e, for n and d above 0. -/
def expOf (n d : Nat) (e : Int) : Int :=
  let l : Int := (Nat.log2 n : Int) - Nat.log2 d
  let up := if 0 ≤ l then decide (n < d * 2 ^ l.toNat) else decide (n * 2 ^ (-l).toNat < d)
  (if up then l - 1 else l) + e

def signed (f : FmtSpec) (neg : Bool) (b : Nat) : Nat := if neg then f.signBit + b else b

/-- What an overflow gives (Table 4.3). -/
def overflowBits (f : FmtSpec) (m : Rm) (sat neg : Bool) : Nat :=
  let toInf := !sat && (match m with | .rne => true | .rtz => false | .rup => !neg | .rdn => neg)
  signed f neg (if toInf then f.infBits else f.maxBits)

/-- Round(format, mode) of ±(n / d × 2^e), with its flags (R48, R49). -/
def roundTo (f : FmtSpec) (m : Rm) (sat neg : Bool) (n d : Nat) (e : Int) : Nat × Raised :=
  if n = 0 then (signed f neg 0, {})
  else
    let k := expOf n d e
    let p : Int := f.frac
    let at_ (q : Int) : Nat × Bool :=
      let x := e - q
      let num := shiftUp n x
      let den := shiftUp d (-x)
      (roundQuotient m neg num den, decide (num % den ≠ 0))
    let y := at_ (k - p)
    let ky := if y.1 = 2 ^ (f.frac + 1) then k + 1 else k
    if (f.bias : Int) < ky then (overflowBits f m sat neg, { of := true, nx := true })
    else
      let kr := max k f.emin
      let r := at_ (kr - p)
      let inexact := r.2
      let tiny := decide (ky < f.emin)
      (signed f neg ((kr - f.emin).toNat * 2 ^ f.frac + r.1), { nx := inexact, uf := tiny && inexact })

/-- An FTZ variant replaces a subnormal result with a zero of its sign (R47). -/
def flushResult (f : FmtSpec) (ftz : Bool) (r : Nat × Raised) : Nat × Raised :=
  if ftz && isSubnormal f r.1 then (flushBits f r.1, r.2.or { uf := true, nx := true }) else r

/-- A rounding in a context: format, mode, FTZ and slot saturation. -/
structure Ctx where
  f : FmtSpec
  m : Rm
  ftz : Bool := false
  sat : Bool := false

def Ctx.finish (c : Ctx) (neg : Bool) (n d : Nat) (e : Int) : Nat × Raised :=
  flushResult c.f c.ftz (roundTo c.f c.m c.sat neg n d e)

def Ctx.nan (c : Ctx) (nv : Bool) : Nat × Raised := (c.f.nanBits, { nv := nv })
def Ctx.inf (c : Ctx) (neg : Bool) : Nat × Raised := (signed c.f neg c.f.infBits, {})
def Ctx.zero (c : Ctx) (neg : Bool) : Nat × Raised := (signed c.f neg 0, {})

/-! ### Exact sums and products -/

def Num.isNan : Num → Bool | .nan _ => true | _ => false
def Num.isSig : Num → Bool | .nan b => b | _ => false
def Num.neg? : Num → Bool | .inf b => b | .fin b _ _ => b | .nan _ => false
def Num.isZero : Num → Bool | .fin _ m _ => m == 0 | _ => false
def Num.isInf : Num → Bool | .inf _ => true | _ => false

def Num.negate : Num → Num
  | .nan b => .nan b
  | .inf b => .inf (!b)
  | .fin b m e => .fin (!b) m e

/-- The exact product of two operands; 0 × ∞ is invalid (Table 6.2). -/
def Num.mul (a b : Num) : Num :=
  match a, b with
  | .nan s, _ => .nan s
  | _, .nan s => .nan s
  | .inf x, y => if y.isZero then .nan true else .inf (x ^^ y.neg?)
  | x, .inf y => if x.isZero then .nan true else .inf (x.neg? ^^ y)
  | .fin s m e, .fin t n f => .fin (s ^^ t) (m * n) (e + f)

/-- A finite value as a signed integer at exponent `q`, at most its own. -/
def signedAt (neg : Bool) (m : Nat) (e q : Int) : Int :=
  let v : Int := shiftUp m (e - q)
  if neg then -v else v

/-- The exact sum of finite values, as a signed integer and an exponent. -/
def exactSum (xs : List (Bool × Nat × Int)) : Int × Int :=
  let q := xs.foldl (fun q x => if x.2.1 = 0 then q else min q x.2.2) (xs.foldl (fun q x => if x.2.1 = 0 then q else max q x.2.2) (-100000))
  ((xs.map fun x => if x.2.1 = 0 then 0 else signedAt x.1 x.2.1 x.2.2 q).sum, q)

/-- Round of the sum of two operands (Table 6.2, R48). -/
def Ctx.add (c : Ctx) (a b : Num) : Nat × Raised :=
  match a, b with
  | .nan s, y => c.nan (s || y.isSig)
  | x, .nan s => c.nan (s || x.isSig)
  | .inf x, .inf y => if x = y then c.inf x else c.nan true
  | .inf x, _ => c.inf x
  | _, .inf y => c.inf y
  | .fin s m e, .fin t n f =>
    let r := exactSum [(s, m, e), (t, n, f)]
    if r.1 = 0 then c.zero (if m = 0 ∧ n = 0 ∧ s = t then s else decide (c.m = .rdn))
    else c.finish (decide (r.1 < 0)) r.1.natAbs 1 r.2

def Ctx.mul (c : Ctx) (a b : Num) : Nat × Raised :=
  match a, b with
  | .nan s, y => c.nan (s || y.isSig)
  | x, .nan s => c.nan (s || x.isSig)
  | x, y =>
    match x.mul y with
    | .nan _ => c.nan true
    | .inf s => c.inf s
    | .fin s m e => if m = 0 then c.zero s else c.finish s m 1 e

/-- A × B + D with one rounding (Table 6.2: 0 × ∞ is invalid whatever D holds). -/
def Ctx.fma (c : Ctx) (a b d : Num) : Nat × Raised :=
  if a.isNan || b.isNan then c.nan (a.isSig || b.isSig || d.isSig)
  else
    match a.mul b with
    | .nan _ => c.nan true
    | p => c.add p d

def Ctx.div (c : Ctx) (a b : Num) : Nat × Raised :=
  match a, b with
  | .nan s, y => c.nan (s || y.isSig)
  | x, .nan s => c.nan (s || x.isSig)
  | .inf x, y => if y.isInf then c.nan true else c.inf (x ^^ y.neg?)
  | .fin s _ _, .inf y => c.zero (s ^^ y)
  | .fin s m e, .fin t n f =>
    if n = 0 then
      if m = 0 then c.nan true else ((c.inf (s ^^ t)).1, { dz := true })
    else if m = 0 then c.zero (s ^^ t)
    else c.finish (s ^^ t) m n (e - f)

/-! ### Comparison -/

/-- −1, 0 or 1 as finite or infinite values compare. -/
def Num.order (a b : Num) : Int :=
  match a, b with
  | .inf x, .inf y => if x = y then 0 else if x then -1 else 1
  | .inf x, _ => if x then -1 else 1
  | _, .inf y => if y then 1 else -1
  | .fin s m e, .fin t n f =>
    let q := min e f
    let x := signedAt s m e q
    let y := signedAt t n f q
    if x < y then -1 else if y < x then 1 else 0
  | _, _ => 0

/-- FSET and DSET (R87): the predicate and NV. -/
def fcompare (c : FCond) (a b : Num) : Bool × Raised :=
  let un := a.isNan || b.isNan
  let sig := a.isSig || b.isSig
  let o := a.order b
  match c with
  | .eq => (!un && o == 0, { nv := sig })
  | .ne => (un || o != 0, { nv := sig })
  | .un => (un, { nv := sig })
  | .ord => (!un, { nv := sig })
  | .lt => (!un && decide (o < 0), { nv := un })
  | .le => (!un && decide (o ≤ 0), { nv := un })
  | .gt => (!un && decide (0 < o), { nv := un })
  | .ge => (!un && decide (0 ≤ o), { nv := un })

/-- minimumNumber and maximumNumber on words, −0 below +0 (R86). -/
def minMaxBits (f : FmtSpec) (wantMax : Bool) (a b : Nat) : Nat × Raised :=
  let x := readNum f a
  let y := readNum f b
  let nv : Raised := { nv := x.isSig || y.isSig }
  if x.isNan && y.isNan then (f.nanBits, nv)
  else if x.isNan then (b, nv)
  else if y.isNan then (a, nv)
  else
    let less := if x.isZero && y.isZero then x.neg? && !y.neg? else decide (x.order y < 0)
    let greater := if x.isZero && y.isZero then !x.neg? && y.neg? else decide (0 < x.order y)
    (if wantMax then (if greater then a else b) else if less then a else b, nv)

/-! ### Correctly rounded functions (R89): 256-bit fixed point below the exact special cases -/

def fixBits : Nat := 256
/-- ⌊ln 2 × 2^256⌋ and ⌊π × 2^256⌋. -/
def ln2Fix : Nat := 0xb17217f7d1cf79abc9e3b39803f2f6af40f343267298b62d8a0d175b8baafa2b
def piFix : Nat := 0x3243f6a8885a308d313198a2e03707344a4093822299f31d0082efa98ec4e6c89

/-- ⌊√n⌋, from bit `b` down. -/
def isqrt (n : Nat) : Nat → Nat → Nat
  | 0, r => r
  | b + 1, r => isqrt n b (if (r + 2 ^ b) * (r + 2 ^ b) ≤ n then r + 2 ^ b else r)

/-- Σ t^j / j! in fixed point, from term `term` at index `k`. -/
def expSeries (t : Nat) : Nat → Nat → Nat → Nat
  | 0, _, _ => 0
  | fuel + 1, k, term => term + expSeries t fuel (k + 1) (term * t / 2 ^ fixBits / (k + 1))

/-- Σ (−1)^j t^(2j+1) / (2j+1)! in fixed point. -/
def sinSeries (t2 : Nat) : Nat → Nat → Int → Int
  | 0, _, _ => 0
  | fuel + 1, k, term => term + sinSeries t2 fuel (k + 2) (-(term * t2 / 2 ^ fixBits / ((k + 1) * (k + 2))))

/-- Σ z^(2j+1) / (2j+1) in fixed point. -/
def atanhSeries (z2 : Nat) : Nat → Nat → Nat → Nat
  | 0, _, _ => 0
  | fuel + 1, k, pow => pow / k + atanhSeries z2 fuel (k + 2) (pow * z2 / 2 ^ fixBits)

/-- sin(π n / d) in fixed point, for 0 ≤ n / d ≤ 1/2. -/
def sinPiFix (n d : Nat) : Nat :=
  let t := piFix * n / d
  (sinSeries (t * t / 2 ^ fixBits) 60 1 t).toNat

/-- A value that lies strictly between `v` and `v + 1` units of 2^−256 scaled by 2^e. -/
def Ctx.sticky (c : Ctx) (neg : Bool) (v : Nat) (e : Int) : Nat × Raised :=
  c.finish neg (2 * v + 1) 1 (e - fixBits - 1)

def ctx32 : Ctx := ⟨fp32, .rne, false, false⟩

def frcp (x : Num) : Nat × Raised :=
  match x with
  | .nan s => ctx32.nan s
  | .inf s => ctx32.zero s
  | .fin s m e => if m = 0 then ((ctx32.inf s).1, { dz := true }) else ctx32.finish s 1 m (-e)

/-- √(m × 2^e), with m × 2^e made to an even exponent and 2·256 more bits. -/
def sqrtParts (m : Nat) (e : Int) : Nat × Int :=
  if e % 2 = 0 then (m, e / 2) else (2 * m, (e - 1) / 2)

def fsqrt (x : Num) : Nat × Raised :=
  match x with
  | .nan s => ctx32.nan s
  | .inf s => if s then ctx32.nan true else ctx32.inf false
  | .fin s m e =>
    if m = 0 then ctx32.zero s
    else if s then ctx32.nan true
    else
      let p := sqrtParts m e
      let n := p.1 * 2 ^ 128
      let r := isqrt n 128 0
      if r * r = n then ctx32.finish false r 1 (p.2 - 64)
      else ctx32.finish false (2 * r + 1) 1 (p.2 - 65)

def frsq (x : Num) : Nat × Raised :=
  match x with
  | .nan s => ctx32.nan s
  | .inf s => if s then ctx32.nan true else ctx32.zero false
  | .fin s m e =>
    if m = 0 then ((ctx32.inf s).1, { dz := true })
    else if s then ctx32.nan true
    else
      let p := sqrtParts m e
      let q := 2 ^ 200 / p.1
      let r := isqrt q 128 0
      if r * r * p.1 = 2 ^ 200 then ctx32.finish false r 1 (-p.2 - 100)
      else ctx32.finish false (2 * r + 1) 1 (-p.2 - 101)

def fexp2 (x : Num) : Nat × Raised :=
  match x with
  | .nan s => ctx32.nan s
  | .inf s => if s then ctx32.zero false else ctx32.inf false
  | .fin s m e =>
    if m = 0 then ctx32.finish false 1 1 0
    else
      -- x as an integer number of 2^−149, the exponent of the least subnormal
      let v : Int := signedAt s m e (-149)
      let k := v / 2 ^ 149
      let f := (v % 2 ^ 149).toNat
      let k' := max (-400) (min 400 k)
      if f = 0 then ctx32.finish false 1 1 k'
      else
        let t := ln2Fix * f / 2 ^ 149
        ctx32.sticky false (expSeries t 80 0 (2 ^ fixBits)) k'

def flog2 (x : Num) : Nat × Raised :=
  match x with
  | .nan s => ctx32.nan s
  | .inf s => if s then ctx32.nan true else ctx32.inf false
  | .fin s m e =>
    if m = 0 then ((ctx32.inf true).1, { dz := true })
    else if s then ctx32.nan true
    else
      let l := Nat.log2 m
      let k : Int := l + e
      if m = 2 ^ l then
        if k = 0 then ctx32.zero false else ctx32.finish (decide (k < 0)) k.natAbs 1 0
      else
        let z := (m - 2 ^ l) * 2 ^ fixBits / (m + 2 ^ l)
        let ln := 2 * atanhSeries (z * z / 2 ^ fixBits) 90 1 z
        let r : Int := k * 2 ^ fixBits + (ln * 2 ^ fixBits / ln2Fix : Nat)
        if r < 0 then ctx32.sticky true (-r - 1).toNat 0 else ctx32.sticky false r.toNat 0

/-- sin(π v / 2^149) for an integer v, as a sign and a magnitude; the magnitude is exact where it is 0 or 1. -/
def sinPiUnits (v : Int) (zeroNeg : Bool) : Nat × Raised :=
  let one : Int := 2 ^ 149
  let r := v % (2 * one)
  let neg := decide (one ≤ r)
  let q := if one ≤ r then r - one else r
  let h := if one < 2 * q then one - q else q
  if h = 0 then ctx32.zero zeroNeg
  else if 2 * h = one then ctx32.finish neg 1 1 0
  else ctx32.sticky neg (sinPiFix h.toNat (2 ^ 149)) 0

def fsinp (x : Num) : Nat × Raised :=
  match x with
  | .nan s => ctx32.nan s
  | .inf _ => ctx32.nan true
  | .fin s m e => sinPiUnits (signedAt s m e (-149)) s

def fcosp (x : Num) : Nat × Raised :=
  match x with
  | .nan s => ctx32.nan s
  | .inf _ => ctx32.nan true
  | .fin _ m e => sinPiUnits (signedAt false m e (-149) + 2 ^ 148) false

/-! ### Rounding to integers, and conversions -/

/-- A finite value rounded to an integer in a mode, and whether it changed. -/
def roundInt (m : Rm) (neg : Bool) (n d : Nat) (e : Int) : Int × Bool :=
  let num := shiftUp n e
  let den := shiftUp d (-e)
  let q : Int := roundQuotient m neg num den
  (if neg then -q else q, decide (num % den ≠ 0))

/-- FRND (R90). -/
def frnd (m : Rm) (x : Nat) : Nat × Raised :=
  match readNum fp32 x with
  | .nan s => ctx32.nan s
  | .inf _ => (x, {})
  | .fin s n e =>
    let r := roundInt m s n 1 e
    if r.1 = 0 then ctx32.zero s else ((ctx32.finish s r.1.natAbs 1 0).1, {})

def intLow (t : IntTy) : Int := if t.signed then -(2 ^ (t.width - 1)) else 0
def intHigh (t : IntTy) : Int := if t.signed then 2 ^ (t.width - 1) - 1 else 2 ^ t.width - 1

/-- F2I (R93). -/
def toInteger (t : IntTy) (m : Rm) (x : Num) : Int × Raised :=
  match x with
  | .nan _ => (0, { nv := true })
  | .inf s => (if s then intLow t else intHigh t, { nv := true })
  | .fin s n e =>
    let r := roundInt m s n 1 e
    if intHigh t < r.1 then (intHigh t, { nv := true })
    else if r.1 < intLow t then (intLow t, { nv := true })
    else (r.1, { nx := r.2 })

/-- I2F: Round of an exact integer (R94). -/
def Ctx.ofInt (c : Ctx) (v : Int) : Nat × Raised := c.finish (decide (v < 0)) v.natAbs 1 0

/-- F2F (R95). -/
def Ctx.convert (c : Ctx) (x : Num) : Nat × Raised :=
  match x with
  | .nan s => c.nan s
  | .inf s => c.inf s
  | .fin s n e => if n = 0 then c.zero s else c.finish s n 1 e

/-- ADD.f32 of a memory-side step: RNE, subnormals kept, no flags (R176). -/
def addF32Bits (x b : Nat) : Nat := (ctx32.add (readNum fp32 x) (readNum fp32 b)).1
def ctx64 : Ctx := ⟨fp64, .rne, false, false⟩
/-- ADD.f64 of a merge or a census: RNE, no flags (R116, R266). -/
def addF64Bits (x b : Nat) : Nat := (ctx64.add (readNum fp64 x) (readNum fp64 b)).1

end Sys2Proof.Machine
end

