-- ==== Sys2Proof/Machine/Suc.lean ====
section
/-! DEFINITION. The lines of registered strings and the marks their writes leave with the splicers (R193, R200 to
R202); every write at a home slice or stack goes through `State.writePlace`. -/
namespace Sys2Proof.Machine
open Sys2Proof

/-- A string's key: tenant and handle (R196). -/
def Str.key (x : Str) : Nat := x.tenant * 4096 + x.handle
/-- Blocks of the range (R199). -/
def Str.blocks (x : Str) : Nat := x.cap / 512

/-- The block whose line holds a device place (R197). -/
def Str.blockAt (x : Str) (a : Nat) : Option Nat :=
  (x.extents.find? fun e => decide (e.2.2 ≤ a) && decide (a < e.2.2 + e.2.1)).map fun e => (e.1 + (a - e.2.2)) / 64

/-- The device place of byte `k` of the range. -/
def Str.place (x : Str) (k : Nat) : Nat :=
  match x.extents.find? fun e => decide (e.1 ≤ k) && decide (k < e.1 + e.2.1) with
  | some e => e.2.2 + (k - e.1)
  | none => 0

/-- The registered strings whose range holds a place, each with the block there. -/
def State.stringsAt (s : State) (l : Loc) : List (Str × Nat) :=
  match l with
  | .dev a => s.strings.filterMap fun x => (x.blockAt a).map fun b => (x, b)
  | _ => []

def State.splicer (s : State) (stack : Nat) : Splicer := Tab.get s.splicers stack {}
def State.setSplicer (s : State) (stack : Nat) (x : Splicer) : State := { s with splicers := Tab.put s.splicers stack x }
def State.modStr (s : State) (key : Nat) (f : Str → Str) : State :=
  { s with strings := s.strings.map fun x => if x.key = key then f x else x }

/-- The handle a request's operation names, with whether it can be held (R202). -/
def ReqKind.handle? : ReqKind → Option (Word × Bool)
  | .query _ h _ => some (h, true)
  | .update _ h _ _ _ => some (h, true)
  | .sdrop h => some (h, false)
  | .ssync h => some (h, true)
  | _ => none

/-- The request is an N-path operation on the string `key`. -/
def Req.onString (r : Req) (key : Nat) : Bool :=
  match r.kind.handle? with
  | some (h, _) => decide (h.toNat < 4096) && r.tenant * 4096 + h.toNat == key
  | none => false

/-- Some query, BINS, BDEL or SSYNC is held on the string (R202). -/
def State.stringHeld (s : State) (key : Nat) : Bool :=
  s.reqs.any fun r => r.onString key && r.admitted.isSome && (match r.kind.handle? with | some (_, h) => h | none => false)

def Splicer.repairs (p : Splicer) (key b : Nat) : Bool :=
  match p.repairing with
  | some (k, c, _) => k == key && c == b
  | none => false

/-- The block is STALE: queued on its own or by the build (Table 13.5). -/
def Str.isStale (x : Str) (b : Nat) : Bool := x.stale.contains b || decide (x.buildFrom ≤ b)

/-- The block is VALID. A stack whose succinct unit has failed repairs nothing: no operation waits for it (R312). -/
def State.blockValid (s : State) (x : Str) (b : Nat) : Bool :=
  (s.splicer x.stack).failed || (!x.isStale b && !(s.splicer x.stack).repairs x.key b)

/-- The blocks among `es` that writes newly queue at a stack, each once. -/
def State.newMarks (s : State) (stack : Nat) (es : List (Str × Nat)) : List (Nat × Nat) :=
  ((es.filter fun e => e.1.stack == stack && s.blockValid e.1 e.2).map fun e => (e.1.key, e.2)).eraseDups

/-- The marks of writes to these blocks need new entries that the repair queue of a stack does not have (R200). -/
def State.marksWait (s : State) (es : List (Str × Nat)) : Bool :=
  es.any fun e =>
    let p := s.splicer e.1.stack
    let new := s.newMarks e.1.stack es
    !p.failed && !new.isEmpty && decide (Config.repairDepth < p.queue.length + new.length)

/-- Writes to these places, which are performed together, wait at their stack, unperformed (R200, R202). -/
def State.writesHeld (s : State) (ls : List Loc) : Bool :=
  let es := ls.flatMap s.stringsAt
  (es.any fun e => s.stringHeld e.1.key) || s.marksWait es

/-- A write to a place waits at the stack, unperformed. -/
def State.writeHeld (s : State) (l : Loc) : Bool := s.writesHeld [l]

/-- The splicer takes the mark of a write to a block (Table 13.5). -/
def State.mark (s : State) (x : Str) (b : Nat) : State :=
  let p := s.splicer x.stack
  if p.repairs x.key b then s.setSplicer x.stack { p with again := true }
  else if x.isStale b then s
  else (s.modStr x.key fun y => { y with stale := insertNat y.stale b }).setSplicer x.stack
    { p with queue := p.queue ++ [(x.key, b)] }

/-- A place drops the writes it receives: its channel is offline or its link down (R305, R311). -/
def State.dropsWrites (s : State) (l : Loc) : Bool :=
  match l with
  | .dev a => s.isOffline a
  | l => s.unreachable l

/-- A write within one line is performed at its home: it marks the blocks of strings there. -/
def State.writePlace (s : State) (l : Loc) (bs : List Byte) : State :=
  if s.dropsWrites l then s
  else ((s.stringsAt l).foldl (fun s e => s.mark e.1 e.2) s).setBytes l bs

end Sys2Proof.Machine
end

