-- ==== Sys2Proof/Machine/Translate.lean ====
section
/-! DEFINITION. Translation (R286 to R290): the walk of a tenant's tables, the leaf checks, the TLBs, the checks of
Tables 12.1 and 21.7 on an access, and the fault queue (R299, R300). -/
namespace Sys2Proof.Machine
open Sys2Proof

/-- Fault causes of Table 22.5. -/
def causeNotValid : Nat := 0
def causeNotResident : Nat := 1
def causeBadEntry : Nat := 2

def pageBytes : Nat → Nat
  | 3 => 0x40000000
  | 2 => 0x200000
  | _ => 0x1000

/-- Index of the entry at a level (Table 21.5). -/
def walkIndex (level va : Nat) : Nat :=
  match level with
  | 4 => bits va 56 39
  | 3 => bits va 38 30
  | 2 => bits va 29 21
  | _ => bits va 20 12

/-- Start of the range that an entry at a level covers. -/
def walkBase (level va : Nat) : Nat :=
  match level with
  | 4 => va / 2 ^ 39 * 2 ^ 39
  | 3 => va / 2 ^ 30 * 2 ^ 30
  | _ => va / 2 ^ 21 * 2 ^ 21

def walkSpan (level : Nat) : Nat :=
  match level with
  | 4 => 2 ^ 39
  | 3 => 2 ^ 30
  | _ => 2 ^ 21

/-- The 64-bit word at a device place. -/
def State.dwordAt (s : State) (p : Nat) : DWord := BitVec.ofNat 64 (leValue (Memory.readAll s.mem p 8))

/-- The leaf an entry holds, for a page of `size` bytes (Table 21.6). -/
def leafOf (e : DWord) (size : Nat) : Leaf :=
  { size := size
    r := e.getLsbD 61, w := e.getLsbD 60, x := e.getLsbD 59, suc := e.getLsbD 58
    opt := e.getLsbD 57, res := e.getLsbD 56, nmok := e.getLsbD 55, peer := e.getLsbD 54
    stripe := e.getLsbD 53, smask := e.extractLsb' 44 8, home := (e.extractLsb' 41 3).toNat
    frame := (e.extractLsb' 12 28).toNat * 4096, pmask := e.extractLsb' 0 8 }

/-- Past the last device address of a page (R288). -/
def Leaf.endAddr (l : Leaf) : Nat := l.frame + l.size

/-- The limit of R143 on a page's device addresses, all of its bytes; a page of host memory has none (Table 21.7,
log 145). -/
def withinLimit (l : Leaf) : Bool :=
  let dies := if l.stripe then (maskBits l.smask).length else 1
  decide (l.endAddr ≤ dies * Config.dieBytes) || (l.peer && l.pmask == 0)

/-- Order 2 of Table 21.7: the leaf `e` at `level` is bad. -/
def badLeaf (level : Nat) (e : DWord) : Bool :=
  let c64 := e.getLsbD 52
  let size := if c64 then 0x10000 else pageBytes level
  let l := leafOf e size
  level == 4 || (c64 && level != 1) || e.getLsbD 40 || e.extractLsb' 8 4 != 0 || l.frame % size != 0 ||
  (l.stripe && (l.smask == 0 || l.home != 0)) || (!l.stripe && l.smask != 0) || (!l.peer && l.pmask != 0) ||
  (l.peer && l.pmask == 0 && (l.home != 0 || l.stripe || l.smask != 0)) || !withinLimit l

/-- Device address of the table that an entry names. -/
def tableAddr (e : DWord) : Nat := (e.extractLsb' 12 28).toNat * 4096

/-- Order 2 for a table entry: every bit but V, the die and the table's address is zero (R287), and the table lies below
the limit of a HOME page (R143, R286, log 146). -/
def badTable (e : DWord) : Bool :=
  e.extractLsb' 44 18 != 0 || e.getLsbD 40 || e.extractLsb' 0 12 != 0 || decide (Config.dieBytes < tableAddr e + 4096)

/-- What a walk found: a leaf, with the table entries read on the way, or the cause of its fault. -/
inductive WalkResult where
  | leaf (l : Leaf) (base : Nat) (seen : List WalkEntry)
  | fault (cause : Nat)
  deriving DecidableEq, Repr

def isC64 (e : DWord) : Bool := e.getLsbD 63 && e.getLsbD 62 && e.getLsbD 52

/-- The entry a walk reads at a level. At level 1 it is the first of the 16 of a 64 KiB page, for that whole page,
when the first or the address's own one is a C64 leaf (R287); where only its own is, the first serves as a C64 one
(log 147). -/
def State.walkEntry (s : State) (level table va : Nat) : DWord :=
  let own := s.dwordAt (table + 8 * walkIndex level va)
  let first := s.dwordAt (table + 8 * (bits va 20 16 * 16))
  if level ≠ 1 then own
  else if isC64 first then first
  else if isC64 own then first ||| 1#64 <<< 52
  else own

/-- The rest of a walk from the table at `table`, `level` levels down (R286). A table entry at level 1 is a bad entry:
the model's choice (log 164). -/
def State.walkFrom (s : State) (cache : List WalkEntry) (tag va : Nat) :
    Nat → Nat → List WalkEntry → WalkResult
  | 0, _, _ => .fault causeBadEntry
  | level + 1, table, seen =>
    let here := level + 1
    match cache.find? fun c => c.tag == tag && c.level == here && c.base == walkBase here va with
    | some c => s.walkFrom cache tag va level c.table seen
    | none =>
      let e := s.walkEntry here table va
      if !e.getLsbD 63 then .fault causeNotValid
      else if e.getLsbD 62 then
        if badLeaf here e then .fault causeBadEntry
        else
          let size := if e.getLsbD 52 then 0x10000 else pageBytes here
          .leaf (leafOf e size) (va / size * size) seen
      else if level = 0 ∨ badTable e then .fault causeBadEntry
      else
        let next := (e.extractLsb' 41 3).toNat * Config.dieBytes + tableAddr e
        s.walkFrom cache tag va level next (⟨tag, here, walkBase here va, next⟩ :: seen)

/-- Places that a walk reads (R286). -/
def State.readsFrom (s : State) (cache : List WalkEntry) (tag va : Nat) : Nat → Nat → List Loc
  | 0, _ => []
  | level + 1, table =>
    let here := level + 1
    match cache.find? fun c => c.tag == tag && c.level == here && c.base == walkBase here va with
    | some c => s.readsFrom cache tag va level c.table
    | none =>
      let e := s.walkEntry here table va
      .dev (table + 8 * walkIndex here va) ::
        if e.getLsbD 63 && !e.getLsbD 62 && !badTable e then
          s.readsFrom cache tag va level ((e.extractLsb' 41 3).toNat * Config.dieBytes + tableAddr e)
        else []

def State.walkReads (s : State) (die tenant va : Nat) : List Loc :=
  let t := s.tenant tenant
  if t.en then s.readsFrom (Tab.get s.walkCaches die []) t.astag va 4 (t.rdie * Config.dieBytes + t.root * 0x200000)
  else []

/-- A walk of the tenant's tables for a virtual address, with the die's cache of table entries. -/
def State.walk (s : State) (die tenant va : Nat) : WalkResult :=
  let t := s.tenant tenant
  if t.en then
    s.walkFrom (Tab.get s.walkCaches die []) t.astag va 4 (t.rdie * Config.dieBytes + t.root * 0x200000) []
  else .fault causeNotValid

/-- The leaf a TLB holds for an address under a tag (R289). -/
def tlbLookup (tlb : List TlbEntry) (tag va : Nat) : Option Leaf :=
  (tlb.find? fun e => e.tag == tag && decide (e.base ≤ va) && decide (va < e.base + e.leaf.size)).map (·.leaf)

/-- A TLB takes an entry at tick `n`; which others it gives up is its own. -/
def tlbAdd (tlb : List TlbEntry) (limit n : Nat) (e : TlbEntry) : List TlbEntry :=
  (e :: tlb.filter fun x => x != e && Config.keeps n x.base).take limit

/-- What an access needs of its pages (Tables 12.1, 21.7). -/
structure Need where
  read : Bool := false
  write : Bool := false
  exec : Bool := false
  noSuc : Bool := false
  noPeer : Bool := false
  nmok : Bool := false
  row : Bool := false
  resident : Bool := false
  deriving DecidableEq, Repr

/-- Outcome of the page checks. -/
inductive Reach where
  | ok (segs : List (Nat × Nat × Leaf))
  | walk (va : Nat)
  | page (va cause : Nat)
  | deny (code : Word) (va : Nat) (aux : DWord)
  deriving DecidableEq, Repr

/-- A place of this package in its die's carve-out (order 3 of Table 21.7, R291). -/
def State.hwOwned (s : State) : Loc → Bool
  | .dev a => decide (s.carveOut (placeDie a) ≤ dieAddr a)
  | _ => false

/-- The page kind that R221 asks of a row operand. -/
def rowPage (l : Leaf) : Bool := decide (0x200000 ≤ l.size) && l.nmok && !l.peer && !l.stripe

/-- One check of Table 21.7 on a page that has a leaf: 0 is order 3, 1 is order 4, 2 the page kinds the access refuses
(R171, R221) and 3 order 5. -/
def State.checkOrder (s : State) (x : Need) (n : Nat) (l : Leaf) (va : Nat) : Option Reach :=
  match n with
  | 0 => if s.hwOwned (l.locate va) then some (.deny codeIsolation va 0) else none
  | 1 =>
    if (x.read && !l.r) || (x.write && !l.w) || (x.exec && !l.x) || (x.nmok && !l.nmok) then
      some (.deny codePermission va 0)
    else none
  | 2 =>
    if (x.noSuc && l.suc) || (x.noPeer && l.peer) then some (.deny codePermission va 2)
    else if x.row && !rowPage l then some (.deny codePermission va 3) else none
  | _ => if l.opt && !l.res && (x.write || x.resident) then some (.page va causeNotResident) else none

/-- Orders 3 to 5 of Table 21.7 over the pages of an access: each order looks at every page before the next. -/
def State.checkOrders (s : State) (x : Need) (pages : List (Nat × Nat × Leaf)) : Option Reach :=
  (List.range 4).findSome? fun n => pages.findSome? fun g => s.checkOrder x n g.2.2 g.1

/-- Orders 3 to 5 of Table 21.7 for one page. -/
def State.checkLeaf (s : State) (x : Need) (l : Leaf) (va : Nat) : Option Reach := s.checkOrders x [(va, 0, l)]

/-- The pages of a range under their leaves, in ascending order and cut at 4 KiB, so that each piece is contiguous at
its place (R143); one piece per unit of fuel. -/
def State.pagesFrom (s : State) (tlb : List TlbEntry) (tenant : Nat) :
    Nat → Nat → Nat → List (Nat × Nat × Leaf) → Reach
  | 0, _, _, acc => .ok acc.reverse
  | fuel + 1, va, len, acc =>
    if len = 0 then .ok acc.reverse
    else if 2 ^ 57 ≤ va then .deny codePermission va 0
    else if (s.tenant tenant).en = false then .page va causeNotValid
    else match tlbLookup tlb (s.tenant tenant).astag va with
      | none => .walk va
      | some l =>
        let here := min len (4096 - va % 4096)
        s.pagesFrom tlb tenant fuel (va + here) (len - here) ((va, here, l) :: acc)

/-- The checks of Table 21.7 on a range, in the order of its rows (R171). -/
def State.reachFrom (s : State) (tlb : List TlbEntry) (tenant : Nat) (x : Need) (fuel va len : Nat) : Reach :=
  match s.pagesFrom tlb tenant fuel va len [] with
  | .ok pages => (s.checkOrders x pages).getD (.ok pages)
  | r => r

/-- The page checks of a range at a core's cluster TLB. -/
def State.reach (s : State) (core tenant : Nat) (x : Need) (va len : Nat) : Reach :=
  s.reachFrom (s.cluster (coreCluster core)).tlb tenant x (len / 4096 + 2) va len

/-- The leaf of an address as it stands now, from the cluster TLB or by a walk, with no trace left. -/
def State.peek (s : State) (core tenant va : Nat) : Option Leaf :=
  if 2 ^ 57 ≤ va ∨ (s.tenant tenant).en = false then none
  else match tlbLookup (s.cluster (coreCluster core)).tlb (s.tenant tenant).astag va with
    | some l => some l
    | none =>
      match s.walk (coreDie core) tenant va with
      | .leaf l _ _ => some l
      | .fault _ => none

/-- Asks for a walk, once. -/
def State.requestWalk (s : State) (w : Walk) : State :=
  if s.walks.contains w then s else { s with walks := s.walks ++ [w] }

/-! ### The fault queue -/

/-- The 64 bytes of a fault record (Table 22.5). -/
def FaultPost.image (p : FaultPost) (seq : Word) : List Byte :=
  leBytes 24 0 ++ leBytes 8 p.aux.toNat ++
  leBytes 4 (p.kind + 256 * p.cause + 65536 * p.write.toNat) ++ leBytes 4 p.team.toNat ++
  leBytes 8 ((p.who.toNat) + 2 ^ 32 * seq.toNat) ++ leBytes 8 p.pc.toNat ++ leBytes 8 p.va.toNat

/-- Bits [351:320] of a record: core, quadrant, group, lane. -/
def whoWord (core quad group lane : Nat) : DWord :=
  BitVec.ofNat 64 (core * 2 ^ 22 + quad * 2 ^ 20 + group * 2 ^ 15 + lane * 2 ^ 9)

/-- An interrupt message, sent once its release is over; the part may merge it with one that is pending (R238). -/
def State.sendVector (s : State) (tenant vector : Nat) (waits : List Nat) : State :=
  let same (m : Message) : Bool := m.tenant == tenant && m.vector == vector
  if s.messages.any same && Config.mergesIntr s.tick then
    { s with messages := s.messages.map fun m => if same m then { m with waits := m.waits ++ waits } else m }
  else ({ s with messages := s.messages ++ [Message.mk tenant vector waits] } : State).sendMessages

/-- The place of a tenant's fault-queue slot, when it translates to a writable page (R299). -/
def State.faultSlot (s : State) (tenant : Nat) : Option Loc :=
  let t := s.tenant tenant
  let va := t.fqRing * 64 + t.fqNext % 2 ^ t.fqLog * 64
  match s.walk 0 tenant va with
  | .leaf l _ _ =>
    if (s.checkLeaf { write := true } l va).isSome then none else some (l.locate va)
  | .fault _ => none

def State.unresolved (s : State) (tenant : Nat) : Nat := (s.faultRecords.filter fun r => r.tenant == tenant).length

/-- What the post of a tenant's next record reads and writes: its walk, and the slot. -/
def State.slotPlaces (s : State) (tenant : Nat) : List Loc :=
  let t := s.tenant tenant
  s.walkReads 0 tenant (t.fqRing * 64 + t.fqNext % 2 ^ t.fqLog * 64) ++ (s.faultSlot tenant).toList

/-- The slot cannot be written yet: the ring is full, a string holds its line, or a channel sleeps (R200, R202, R299,
R342). -/
def State.slotWaits (s : State) (tenant : Nat) : Bool :=
  decide (2 ^ (s.tenant tenant).fqLog ≤ s.unresolved tenant) ||
  (match s.faultSlot tenant with | some l => s.writeHeld l | none => false) ||
  (s.slotPlaces tenant).any s.asleep

/-- Posts a record: it waits while its slot cannot be written; a slot that does not translate clears EN (R299). -/
def State.postRecord (s : State) (p : FaultPost) : State :=
  let t := s.tenant p.tenant
  if t.fqEn = false then s
  else if (s.faultPosts.any fun q => q.tenant == p.tenant) || s.slotWaits p.tenant then
    ({ s with faultPosts := s.faultPosts ++ [p] } : State).want (s.slotPlaces p.tenant)
  else match s.faultSlot p.tenant with
    | none => s.setTenant p.tenant { t with fqEn := false }
    | some l =>
      let seq := BitVec.ofNat 32 (t.fqNext + 1)
      ((({ s with faultRecords := s.faultRecords ++ [FaultRecord.mk p.tenant seq p.page p.write p.kind p.cause] } : State).writePlace l
        (p.image seq)).setTenant p.tenant { t with fqNext := t.fqNext + 1 }).sendVector p.tenant 0 []

/-- A page fault of kind 0, 1, 2 or 6 joins the unresolved record of its page and direction (R300). -/
def State.faultJoins (s : State) (tenant page : Nat) (write : Bool) : Bool :=
  s.faultRecords.any (fun r => r.tenant == tenant && r.page == page && r.write == write &&
    (r.kind == 0 || r.kind == 1 || r.kind == 2 || r.kind == 6)) ||
  s.faultPosts.any fun r => r.tenant == tenant && r.page == page && r.write == write &&
    (r.kind == 0 || r.kind == 1 || r.kind == 2 || r.kind == 6)

def State.postPageFault (s : State) (p : FaultPost) : State :=
  if s.faultJoins p.tenant p.page p.write then s else s.postRecord p

/-- The record of an access that a thread issued from a core (Table 22.5). -/
def State.issuedPost (s : State) (th : ThreadRef) (core kind va : Nat) (write : Bool) (cause : Nat) (aux : DWord) :
    FaultPost :=
  let tm := s.team th.team
  ⟨tm.tenant, va / 4096, write, kind, cause, BitVec.ofNat 64 va, (s.thread th).pc,
    whoWord core (s.group th).quad (min th.group 16) th.lane, BitVec.ofNat 32 tm.index, aux⟩

/-- The record of a thread's page fault. -/
def State.threadPost (s : State) (th : ThreadRef) (kind : Nat) (va : Nat) (write : Bool) (cause : Nat) (aux : DWord) :
    FaultPost := s.issuedPost th (s.coreOf th) kind va write cause aux

/-- A page fault of a thread's access or fetch: the group parks and a record is posted; with the queue off the
access fails at once (R299 to R301). -/
def State.threadPageFault (s : State) (th : ThreadRef) (va : Nat) (write : Bool) (cause : Nat) : State :=
  let s1 := if (s.tenant (s.tenantOf th)).fqEn then s.postPageFault (s.threadPost th 0 va write cause 0) else s
  if (s1.tenant (s.tenantOf th)).fqEn then
    s1.modGroup th.team th.group fun g => { g with threads := g.threads.map fun t =>
      if t.2.status = .ready ∨ t.2.status = .stalled ∨ t.1 = th.lane then
        (t.1, { t.2 with
          status := .blocked
          wait := .pageFault (va / 4096) write (BitVec.ofNat 64 va) (t.1 == th.lane), shown := none })
      else t }
  else s1.modThread th fun t => { t with xfault := some (va, cause) }

/-- Runs `k` on the pages of a thread's access once they are reached: a TLB miss waits for its walk, a page fault
parks the group or fails, and a failed check goes to `bad` (R171, R288). -/
def withPages (th : ThreadRef) (va len : Nat) (x : Need) (s : State)
    (bad : Word → Nat → DWord → State → Effect) (k : List (Nat × Nat × Leaf) → State → Effect) : Effect :=
  let core := s.coreOf th
  let tenant := s.tenantOf th
  match (s.thread th).xfault with
  | some (v, cause) =>
    if va ≤ v ∧ v < va + len then
      bad codePageFault v (BitVec.ofNat 64 cause) (s.modThread th fun t => { t with xfault := none })
    else .stall (s.modThread th fun t => { t with xfault := none })
  | none =>
    match s.reach core tenant x va len with
    | .ok segs => k segs s
    | .walk v => .stall (s.requestWalk ⟨coreCluster core, tenant, v, x.write, .thread th⟩)
    | .page v cause =>
      let s1 := s.threadPageFault th v x.write cause
      if (s1.thread th).status = .blocked then .done s1 else .stall s1
    | .deny code v aux => bad code v aux s

/-- The precise report of a failed check. -/
def preciseBad (code : Word) (va : Nat) (aux : DWord) (s : State) : Effect := .trap s code (BitVec.ofNat 64 va) aux

/-- Bytes of the part of a segment list, each with its place, in ascending order. -/
def segPlaces (segs : List (Nat × Nat × Leaf)) : List (Loc × Nat) := segs.map fun g => (g.2.2.locate g.1, g.2.1)

/-- The place of byte `k` of a range. -/
def placeAt (segs : List (Nat × Nat × Leaf)) (va : Nat) : Loc :=
  match segs.find? fun g => decide (g.1 ≤ va) && decide (va < g.1 + g.2.1) with
  | some g => g.2.2.locate va
  | none => .dev 0

end Sys2Proof.Machine
end

