-- ==== Sys2Proof/Machine/Memory.lean ====
section
/-! DEFINITION. Path P and the scratchpad (R137 to R141, R148 to R165, R171 to R182): the L1, requests to home
slices, releases and acquires, and the meanings of the memory instructions and of the steps of their requests. -/
namespace Sys2Proof

/-- Scopes by code (Table 11.1): 0 group, 1 team, 2 die, 3 device, 4 system. -/
def Machine.RmwOp.apply (op : Machine.RmwOp) (size old b : Nat) : Nat :=
  let w := 8 * size
  match op with
  | .add => (old + b) % 2 ^ w
  | .min true => if Machine.sextNat w b < Machine.sextNat w old then b else old
  | .min false => Nat.min old b
  | .max true => if Machine.sextNat w old < Machine.sextNat w b then b else old
  | .max false => Nat.max old b
  | .addF32 => Machine.addF32Bits old b
  | .and => Nat.land old b
  | .or => Nat.lor old b
  | .xor => Nat.xor old b
  | .exch => b

def AtomTy.signed : AtomTy → Bool | .i32 => true | .i64 => true | _ => false
def AtomTy.width : AtomTy → Width | .i32 => .w32 | .n32 => .w32 | _ => .w64
def Width.bytes (w : Width) : Nat := 4 * w.regs
def AccSize.bytes (z : AccSize) : Nat := 4 * z.regs
def LdQ.signed : LdQ → Bool | .i8 => true | .i16 => true | _ => false

end Sys2Proof

namespace Sys2Proof.Machine
open Sys2Proof

/-! ### The L1 -/

def wordBit (w : Nat) : BitVec 16 := 1#16 <<< w

/-- The words of a line that bytes [off, off + len) touch. -/
def wordsTouched (off len : Nat) : BitVec 16 :=
  (List.range 16).foldl (fun m w => if 4 * w < off + len ∧ off < 4 * w + 4 then m ||| wordBit w else m) 0

def CacheLine.isAt (c : CacheLine) (tag vline : Nat) : Bool := c.tag == tag && c.vline == vline

def Core.lineAt (k : Core) (tag vline : Nat) : Option CacheLine := k.l1.find? (·.isAt tag vline)

def setRange (bs : List Byte) (off : Nat) (v : List Byte) : List Byte := bs.take off ++ v ++ bs.drop (off + v.length)

/-- The place of the line that holds a place. -/
def Loc.lineStart : Loc → Loc
  | .dev a => .dev (a / 64 * 64)
  | .host a => .host (a / 64 * 64)
  | .peer l a => .peer l (a / 64 * 64)

/-- Sets of a core's L1: 16 ways of 64-byte lines in what its teams' scratchpads leave of the array (R25, R138). -/
def State.l1Sets (s : State) (core : Nat) : Nat := (Config.arrayBytes - s.coreScratch core []) / (64 * Config.l1Ways)

/-- The L1 takes a line; which lines of its set it gives up is its own, and it keeps no more than 16 (R138). -/
def State.l1Allocate (s : State) (core : Nat) (c : CacheLine) : State :=
  let k := s.core core
  let set (x : CacheLine) : Nat := Config.l1Set x.vline % s.l1Sets core
  let mates := k.l1.filter fun x => set x == set c && Config.keeps s.tick x.vline
  s.setCore core { k with l1 := c :: mates.take (Config.l1Ways - 1) ++ k.l1.filter fun x => set x != set c }

/-- The first lines of a list that leave no more than 16 in a set, of `sets` sets. -/
def fitSets (sets : Nat) (lines : List CacheLine) : List CacheLine :=
  lines.foldl (fun kept c =>
    if (kept.filter fun x => Config.l1Set x.vline % sets == Config.l1Set c.vline % sets).length < Config.l1Ways then
      kept ++ [c]
    else kept) []

/-- The scratchpads of a core have changed: its L1 keeps what fits in what they leave of the array (R25, R138). -/
def State.fitL1 (s : State) (core : Nat) : State :=
  let k := s.core core
  s.setCore core { k with l1 := fitSets (s.l1Sets core) k.l1 }

/-- A core's lines, changed where they stand. -/
def State.modL1 (s : State) (core : Nat) (f : CacheLine → CacheLine) : State :=
  let k := s.core core
  s.setCore core { k with l1 := k.l1.map f }

/-- The core holds the line under another alias than this one: an access under this one misses (R141). -/
def State.aliased (s : State) (core tag vline : Nat) (line : Loc) : Bool :=
  ((s.core core).lineAt tag vline).isNone && (s.core core).l1.any fun c => c.loc == line

/-- A device line is valid in an L1 under one alias: held under another, it is removed there and taken in under this
one (R141). -/
def State.aliasMove (s : State) (core tag vline : Nat) (line : Loc) : State :=
  match (s.core core).l1.find? fun c => c.loc == line with
  | some c =>
    if s.aliased core tag vline line then
      let k := s.core core
      (s.setCore core { k with l1 := k.l1.filter fun x => x.loc != line }).l1Allocate core { c with tag := tag, vline := vline }
    else s
  | none => s

/-- Changes the core's fills in flight that read a line and may install it. -/
def State.modFills (s : State) (core : Nat) (line : Loc) (f : ReqPart → ReqPart) : State :=
  { s with reqs := s.reqs.map fun r =>
    if r.core = core then
      { r with parts := r.parts.map fun x => if x.fill && x.keep && x.loc.line == line then f x else x }
    else r }

/-- Fills in flight to a line no longer install (R140, R182). -/
def State.cancelFills (s : State) (core : Nat) (line : Loc) : State :=
  s.modFills core line fun x => { x with keep := false }

/-- Fills in flight take the bytes that the core stores in their line: a fill never hides a store of its own core
(R139). -/
def State.storeInFills (s : State) (core : Nat) (line : Loc) (off : Nat) (bs : List Byte) : State :=
  s.modFills core line fun x => { x with stored := Tab.putAll x.stored off bs }

/-- The core's copy of a line is invalidated. -/
def State.dropLine (s : State) (core : Nat) (line : Loc) : State :=
  let k := s.core core
  (s.setCore core { k with l1 := k.l1.filter fun c => c.loc != line }).cancelFills core line

/-- Offsets of a line's bytes in its valid words, with the bytes. -/
def CacheLine.validBytes (c : CacheLine) : Tab Byte :=
  (List.range 64).filterMap fun i => if c.valid.getLsbD (i / 4) then some (i, c.data.getD i 0) else none

/-- Numbers of the origins of bytes: of all that one store writes, or one fill reads, and of a single byte. -/
def originWhole (id : Nat) : Nat := id * 128
def originByte (id off : Nat) : Nat := id * 128 + 64 + off

/-- Bytes of a line come from one store or one fill (R165, log 21). -/
def CacheLine.single (c : CacheLine) (off len : Nat) : Bool :=
  (List.range len).all fun k => Tab.get c.origin (off + k) 0 == Tab.get c.origin off 0

/-- Numbers the origins of a line's bytes `offs`. -/
def CacheLine.mark (c : CacheLine) (offs : List Nat) (number : Nat → Nat) : CacheLine :=
  { c with origin := offs.foldl (fun t i => Tab.put t i (number i)) c.origin }

/-- A line as a merging fill completes it: the words still invalid take the fill's bytes, those of `stored` being the
core's own, and every word becomes valid (R139). -/
def CacheLine.merge (c : CacheLine) (id : Nat) (data : List Byte) (stored : Tab Byte) : CacheLine :=
  { c.mark ((List.range 64).filter fun i => !c.valid.getLsbD (i / 4)) fun i =>
      if (Tab.find stored i).isSome then originByte id i else originWhole id with
    valid := BitVec.allOnes 16
    data := (List.range 64).map fun i => Tab.get c.validBytes i (Tab.get stored i (data.getD i 0)) }

/-- A merging fill installs (R139). -/
def State.install (s : State) (core tag vline : Nat) (line : Loc) (id : Nat) (data : List Byte) (stored : Tab Byte) :
    State :=
  let s1 := s.aliasMove core tag vline line
  if ((s1.core core).lineAt tag vline).isSome then
    s1.modL1 core fun c => if c.isAt tag vline then c.merge id data stored else c
  else
    s1.l1Allocate core { tag := tag, vline := vline, loc := line, valid := BitVec.allOnes 16
                         data := (List.range 64).map fun i => Tab.get stored i (data.getD i 0)
                         origin := (stored.filter fun e => decide (e.1 < 64)).map fun e => (e.1, originByte id e.1) }

/-- A store of 4, 8 or 16 bytes aligned to its size: the line is allocated without a fetch if missing, and the
written words become valid (Table 10.2). -/
def State.l1Store (s : State) (core tag va : Nat) (line : Loc) (id : Nat) (bytes : List Byte) : State :=
  let filled (c : CacheLine) : CacheLine :=
    { c.mark ((List.range bytes.length).map (va % 64 + ·)) fun _ => originWhole id with
      valid := c.valid ||| wordsTouched (va % 64) bytes.length
      data := setRange c.data (va % 64) bytes }
  if ((s.core core).lineAt tag (va / 64)).isSome then s.modL1 core fun c => if c.isAt tag (va / 64) then filled c else c
  else s.l1Allocate core (filled ⟨tag, va / 64, line, 0, List.replicate 64 0, []⟩)

/-- One byte of any other store: merged into a valid word; otherwise nothing is allocated (Table 10.2). -/
def State.l1Byte (s : State) (core tag va number : Nat) (b : Byte) : State :=
  s.modL1 core fun c =>
    if c.isAt tag (va / 64) && c.valid.getLsbD (va % 64 / 4) then
      { c.mark [va % 64] fun _ => number with data := setRange c.data (va % 64) [b] }
    else c

/-- A fill of the core that is in flight to a line and may install it. -/
def State.fillTwin (s : State) (core : Nat) (start : Loc) : Option ReqPart :=
  (s.reqs.filter fun r => r.core == core && r.installs == (s.core core).acquires).findSome? fun r =>
    r.parts.find? fun y => y.fill && y.keep && !y.bad && y.loc == start

/-- The part of a merging fill whose load takes the bytes `own` from its core. A core's fills to one line that may
install are one read: a later one shares what an earlier one has read, with what the core has stored since (R139, R158,
log 20). -/
def State.fillPart (s : State) (core va : Nat) (loc : Loc) (own : Tab Byte) : ReqPart :=
  let x : ReqPart := { va := va / 64 * 64, loc := loc.lineStart, len := 64, fill := true, keep := true, seen := own }
  match s.fillTwin core x.loc with
  | some y =>
    { x with got := y.got, done := y.done, stored := y.stored, seen := own.foldl (fun t e => Tab.put t e.1 e.2) y.stored }
  | none => x

/-! ### Pieces of an access -/

/-- A piece of an access within one line: virtual address, length and leaf. -/
abbrev Piece := Nat × Nat × Leaf

/-- Cuts a range of at most 64 bytes at the line boundary. -/
def cutLine (g : Piece) : List Piece :=
  let first := min g.2.1 (64 - g.1 % 64)
  if first < g.2.1 then [(g.1, first, g.2.2), (g.1 + first, g.2.1 - first, g.2.2)] else [g]

def cutBytes (g : Piece) : List Piece := (List.range g.2.1).map fun k => (g.1 + k, 1, g.2.2)

/-- The pieces of an access that is single-copy atomic, or its single bytes (R165). -/
def atomicPieces (whole : Bool) (segs : List Piece) : List Piece := if whole then segs else segs.flatMap cutBytes

def isAligned (va size : Nat) : Bool := va % size == 0

/-- Words of a core's copy of a line become invalid. -/
def State.l1Clear (s : State) (core tag vline : Nat) (words : BitVec 16) : State :=
  s.modL1 core fun c => if c.isAt tag vline then { c with valid := c.valid &&& ~~~words } else c

/-- A load whose bytes the core has stored since a fill in flight reads the line anew, and that fill no longer installs:
what it read is older than those bytes (R165, log 21). -/
def State.unshare (s : State) (core va len : Nat) (loc : Loc) : State :=
  match s.fillTwin core loc.lineStart with
  | some y =>
    if (List.range len).any fun k => (Tab.find y.stored (va % 64 + k)).isSome then s.cancelFills core loc.line else s
  | none => s

/-- One line's piece of a load: zeros from a non-resident OPT page; a direct read of a SUC page; the L1's bytes when
every touched word is valid and, of an aligned load, all come from one store or one fill; otherwise a merging fill, which
gives the load all its bytes in one step and installs every word it touched (R139, R165, R173, log 21). A line moved from
another alias is completed by a fill (R141). -/
def State.loadPiece (s : State) (core tag : Nat) (whole : Bool) (g : Piece) : State × List ReqPart :=
  let loc := g.2.2.locate g.1
  if g.2.2.opt && !g.2.2.res then
    (s, [{ va := g.1, loc := loc, len := g.2.1, got := List.replicate g.2.1 0, done := true }])
  else if g.2.2.suc then
    (s, (atomicPieces whole [g]).map fun p => { va := p.1, loc := p.2.2.locate p.1, len := p.2.1 })
  else
    let moved := s.aliased core tag (g.1 / 64) loc.line
    let s1 := s.aliasMove core tag (g.1 / 64) loc.line
    let touched := wordsTouched (g.1 % 64) g.2.1
    match (s1.core core).lineAt tag (g.1 / 64) with
    | some c =>
      if c.valid &&& touched = touched ∧ (whole = false ∨ c.single (g.1 % 64) g.2.1 = true) then
        if moved then (s1, [s1.fillPart core g.1 loc c.validBytes])
        else (s1, [{ va := g.1, loc := loc, len := g.2.1, got := (c.data.drop (g.1 % 64)).take g.2.1, done := true }])
      else
        let s2 := (s1.l1Clear core tag (g.1 / 64) touched).unshare core g.1 g.2.1 loc
        (s2, [s2.fillPart core g.1 loc []])
    | none =>
      let s2 := s1.unshare core g.1 g.2.1 loc
      (s2, [s2.fillPart core g.1 loc []])

def State.loadPieces (s : State) (core tag : Nat) (whole : Bool) : List Piece → State × List ReqPart
  | [] => (s, [])
  | g :: gs =>
    let r := s.loadPiece core tag whole g
    let q := r.1.loadPieces core tag whole gs
    (q.1, r.2 ++ q.2)

/-- The byte of a request at a virtual address. -/
def partByte (parts : List ReqPart) (va : Nat) : Byte :=
  match parts.find? fun x => decide (x.va ≤ va) && decide (va < x.va + x.len) with
  | some x => Tab.get x.seen (va - x.va) (x.got.getD (va - x.va) 0)
  | none => 0

/-- The registers of a load's value: extended to a word below 4 bytes (Table 12.2). -/
def loadWords (size : Nat) (signed : Bool) (bs : List Byte) : List Word :=
  if size < 4 then
    let v := leValue bs
    [if signed then BitVec.ofInt 32 (sextNat (8 * size) v) else BitVec.ofNat 32 v]
  else leWords bs (size / 4)

/-- A load's result once every part is read. -/
def Req.loadResult (r : Req) (size : Nat) (signed : Bool) : Result :=
  { vals := loadWords size signed ((List.range size).map fun k => partByte r.parts (r.va.toNat + k))
    pred := true
    poison := if r.parts.any (·.bad) then some r.va else none }

/-! ### Requests, releases, acquires -/

def State.addReq (s : State) (r : Req) : State := { s with reqs := s.reqs ++ [r], nextId := s.nextId + 1 }

/-- A new request of a thread on a path. -/
def State.newReq (s : State) (th : ThreadRef) (path : Path) (kind : ReqKind) (va : DWord) : Req :=
  { id := s.nextId, path := path, kind := kind, th := th, core := s.coreOf th, tenant := s.tenantOf th
    pc := (s.thread th).pc, va := va, installs := (s.core (s.coreOf th)).acquires
    tag := (s.tenant (s.tenantOf th)).astag }

/-- Lines of a row operation's source, each with its virtual address. -/
def ReqKind.sourceLines : ReqKind → List (Nat × Loc)
  | .rowCopy src => src
  | _ => []

def ReqKind.writes : ReqKind → Bool
  | .load _ _ => false
  | .prefetch => false
  | .query _ _ _ => false
  | _ => true

def ReqKind.reads : ReqKind → Bool
  | .load _ _ => true
  | .rmw _ _ _ true => true
  | .cas _ _ _ => true
  | .query _ _ _ => true
  | _ => false

/-- Whether a scope's point of coherence covers a place, seen from a die (Tables 11.1, 11.2). -/
def scopeCovers (scope die : Nat) (l : Loc) : Bool :=
  match l with
  | .dev a => decide (3 ≤ scope) || (decide (scope = 2) && decide (placeDie a = die))
  | .host _ => decide (4 ≤ scope)
  | .peer _ _ => decide (4 ≤ scope)

/-- The scope at which an operation on a place is performed: promoted to device for a place homed on another die, to
system for a PEER place (R150). -/
def promote (scope die : Nat) (l : Loc) : Nat :=
  match l with
  | .dev a => if scope = 2 ∧ placeDie a ≠ die then 3 else scope
  | .host _ => if scope = 2 then 3 else scope
  | .peer _ _ => if scope = 2 ∨ scope = 3 then 4 else scope

/-- A FENCE of the scope, from a die, orders an operation of path C, M or N on these places: at group and team scope
any; else one with a place that the scope covers, or whose places no walk finds now (R150, R160). -/
def fenceCovers (scope die : Nat) (ls : List Loc) : Bool :=
  decide (scope < 2) || ls.isEmpty || ls.any (scopeCovers scope die)

/-- The parts of a range as it translates now, one for each 4 KiB: the place and the length of each. -/
def State.rangeCells (s : State) (core tenant va len : Nat) : List (Loc × Nat) :=
  (List.range ((va + len + 4095) / 4096 - va / 4096)).filterMap fun k =>
    let a := max va ((va / 4096 + k) * 4096)
    (s.peek core tenant a).map fun l => (l.locate a, min (va + len) ((va / 4096 + k + 1) * 4096) - a)

def State.rangePlaces (s : State) (core tenant va len : Nat) : List Loc := (s.rangeCells core tenant va len).map (·.1)

def State.copyPlaces (s : State) (c : Copy) : List Loc :=
  (List.range c.rows).flatMap fun r => s.rangePlaces c.core c.tenant (c.va + r * c.pitch) c.width

/-- The places of a request: of its parts, or of the string that its stack works on. -/
def State.reqPlaces (s : State) (r : Req) : List Loc :=
  r.parts.map (·.loc) ++ (s.strings.filter fun x => r.onString x.key).flatMap fun x => x.extents.map fun e => .dev e.2.2

def piecePlaces (pieces : List Piece) : List Loc := pieces.map fun g => g.2.2.locate g.1

/-- The places of a near-memory command: of what it has still to send, and of the segments it has sent. -/
def State.commandPlaces (s : State) (c : NmCommand) : List Loc :=
  s.rangePlaces c.core c.tenant c.va c.len ++ (s.segments.filter (·.cmd == c.id)).map fun g => .dev g.loc

/-- The places of an operation that is not over. -/
def State.placesOf (s : State) (id : Nat) : List Loc :=
  (s.reqs.filter (·.id == id)).flatMap s.reqPlaces ++ (s.copies.filter (·.id == id)).flatMap s.copyPlaces ++
  (s.teams.flatMap fun t => t.2.engine.filter (·.id == id)).flatMap (fun e => piecePlaces e.pieces) ++
  (s.merges.filter (·.id == id)).flatMap (fun x => piecePlaces x.pieces) ++
  (s.commands.filter (·.id == id)).flatMap s.commandPlaces

/-- Operations that a release of the thread on path P waits for: its group's writes, and its own loads, that the
scope covers (Table 11.2, the matrices of R155 to R157). A lost write counts wherever it was to go. -/
def State.releaseWaits (s : State) (th : ThreadRef) (scope : Nat) : List Nat :=
  let die := coreDie (s.coreOf th)
  (s.reqs.filter fun r =>
    r.path == .p &&
    ((r.kind.writes && r.th.team == th.team && r.th.group == th.group) || (r.kind.reads && r.th == th)) &&
    decide (2 ≤ scope) && (r.lost.isSome || r.parts.any fun x => scopeCovers scope die x.loc)).map (·.id)

/-- What an acquire's read waits for: the writes of its thread's earlier releases and what its earlier FENCE.RELs wait
for, by the matrix of the narrower of the two scopes (note 4). At die scope both places are homed on the die (note 5); a
FENCE, which names no place, orders the operations that its scope covers (R150). -/
def State.acquireWaits (s : State) (th : ThreadRef) (scope : Nat) (at_ : Option Loc) : List Nat :=
  let die := coreDie (s.coreOf th)
  let kept (e : Nat × Nat) : Bool :=
    let both := min scope e.2
    decide (2 ≤ both) &&
    (match at_ with
     | some l => decide (3 ≤ both) || (scopeCovers both die l && fenceCovers both die (s.placesOf e.1))
     | none => fenceCovers both die (s.placesOf e.1))
  ((s.thread th).releasing.filter kept).map (·.1)

/-- A CAS may fail and perform no write (R152): it is the fence's write only once it has succeeded. -/
def ReqKind.surelyWrites : ReqKind → Bool
  | .cas _ _ _ => false
  | _ => true

/-! ### Class-L results and faults -/

/-- The budget registers that `n` registers from v`k` name. -/
def Thread.indices (t : Thread) (k n : Nat) : List Nat := (List.range n).map fun j => t.index (k + j)

/-- An operation of class L becomes outstanding, with its result if that is known. -/
def State.outstand (s : State) (th : ThreadRef) (id k n : Nat) (pred : Option Nat) (r : Option Result)
    (batch : Nat := 0) : State :=
  s.modThread th fun t => { t with outs := t.outs ++ [⟨id, t.indices k n, pred, r, batch⟩] }

/-- The loads from one address of the ply that issues in this step, as their batch (log 120). -/
def State.plyBatch (s : State) (a : Nat) : Nat := (s.tick + 1) * 2 ^ 57 + a

/-- A result known at issue. -/
def State.ready (s : State) (th : ThreadRef) (k n : Nat) (r : Result) (batch : Nat := 0) : State :=
  (s.outstand th s.nextId k n none (some r) batch).bump

/-- Gives an outstanding operation its result. -/
def State.giveResult (s : State) (th : ThreadRef) (id : Nat) (r : Result) : State :=
  s.modThread th fun t => { t with outs := t.outs.map fun o => if o.op = id then { o with result := some r } else o }

/-- A thread holds at most 32 operations of class L: those outstanding and those whose fault is pending (R26, R306). -/
def Thread.full (t : Thread) : Bool :=
  decide (Config.classLLimit ≤ t.outs.length + t.faults.length + t.shelved.length)

/-- A class-L operation that fails at issue: reported marker-precisely; the thread goes on (R171, R295). -/
def classLBad (th : ThreadRef) (code : Word) (va : Nat) (aux : DWord) (s : State) : Effect :=
  let id := s.nextId
  .go (s.modThread th fun t => { t with
    faults := Tab.put t.faults id ⟨t.pc, code, BitVec.ofNat 64 va, aux⟩ }).bump

/-- A write that fails its checks: PAGE_FAULT is precise, the others leave the thread as a lost write (R171, R303). -/
def writeBad (th : ThreadRef) (path : Path) (code : Word) (va : Nat) (aux : DWord) (s : State) : Effect :=
  if code = codePageFault then .trap s code (BitVec.ofNat 64 va) aux
  else .go (s.addReq { s.newReq th path .store (BitVec.ofNat 64 va) with lost := some (code, aux) })

/-- Address checks before translation: bits [63:57], then alignment (Table 12.1). -/
def addressBad (va : DWord) (align : Nat) : Option DWord :=
  if 2 ^ 57 ≤ va.toNat then some 0 else if va.toNat % align ≠ 0 then some 1 else none

/-! ### Loads -/

/-- LD, LDAQ and LDR once their pages are reached. An acquire reads at the home slice, the others through the L1. -/
def State.issueLoad (s : State) (th : ThreadRef) (va : DWord) (size : Nat) (signed : Bool) (k n : Nat)
    (pred : Option Nat) (scope : Option Nat) (segs : List Piece) : State :=
  let core := s.coreOf th
  let tag := (s.tenant (s.tenantOf th)).astag
  let whole := isAligned va.toNat size
  let away := segs.any fun g => g.2.2.opt && !g.2.2.res
  let id := s.nextId
  match scope with
  | none =>
    let q := s.loadPieces core tag whole (segs.flatMap cutLine)
    let r := { s.newReq th .p (.load size signed) va with parts := q.2 }
    let res := if away ∧ pred.isSome then { vals := List.replicate n 0 } else r.loadResult size signed
    if q.2.all (·.done) ∨ (away ∧ pred.isSome) then (q.1.outstand th id k n pred (some res) (s.plyBatch va.toNat)).bump
    else (q.1.outstand th id k n pred none (s.plyBatch va.toNat)).addReq r
  | some f =>
    let loc := placeAt segs va.toNat
    let eff := promote f (coreDie core) loc
    let s1 := s.dropLine core loc.line
    if away then ((s1.outstand th id k n pred (some { vals := List.replicate n 0 }) (s.plyBatch va.toNat)).bump).acquire th eff
        (s1.acquireWaits th eff (some loc))
    else
      let r := { s1.newReq th .p (.load size signed) va with
        waits := s1.acquireWaits th eff (some loc)
        parts := segs.map fun g => { va := g.1, loc := g.2.2.locate g.1, len := g.2.1 } }
      ((s1.outstand th id k n pred none (s.plyBatch va.toNat)).addReq r).acquire th eff [id]

/-- A load of path P (R171, R173, R174, R181). -/
def loadOp (va : DWord) (size align : Nat) (signed : Bool) (k n : Nat) (pred scope : Option Nat) (th : ThreadRef)
    (s : State) : Effect :=
  if (s.thread th).full || s.heldAtIssue th .p false then .stall s
  else match addressBad va align with
    | some aux => classLBad th codePermission va.toNat aux s
    | none =>
      withPages th va.toNat size { read := true } s (classLBad th) fun segs s =>
        .go (s.issueLoad th va size signed k n pred scope segs)

/-! ### Stores and read-modify-writes -/

/-- A fill without a destination, which completes a line (R141, R182). -/
def State.fillLine (s : State) (th : ThreadRef) (va : Nat) (loc : Loc) : State :=
  s.addReq { s.newReq th .p .prefetch (BitVec.ofNat 64 va) with parts := [s.fillPart (s.coreOf th) va loc []] }

/-- What a write does to the issuing core's L1 (Table 10.2). A line held under another alias moves to this one, and a
fill completes it (R141). -/
def State.l1Write (s : State) (th : ThreadRef) (tag : Nat) (whole : Bool) (va : Nat) (bytes : List Byte)
    (segs : List Piece) : State :=
  let core := s.coreOf th
  (segs.flatMap cutLine).foldl (fun s g =>
    let data := (bytes.drop (g.1 - va)).take g.2.1
    let loc := g.2.2.locate g.1
    if g.2.2.suc then s.dropLine core loc.line
    else
      let s1 := if s.aliased core tag (g.1 / 64) loc.line then
          (s.aliasMove core tag (g.1 / 64) loc.line).fillLine th g.1 loc
        else s
      let s2 := s1.storeInFills core loc.line (g.1 % 64) data
      if whole && decide (4 ≤ bytes.length) then s2.l1Store core tag g.1 loc.line s2.nextId data
      else (List.range g.2.1).foldl (fun s k =>
        s.l1Byte core tag (g.1 + k) (if whole then originWhole s.nextId else originByte s.nextId ((g.1 + k) % 64))
          (data.getD k 0)) s2) s

def writeParts (whole : Bool) (va : Nat) (bytes : List Byte) (segs : List Piece) : List ReqPart :=
  (atomicPieces whole segs).map fun g =>
    { va := g.1, loc := g.2.2.locate g.1, len := g.2.1, data := (bytes.drop (g.1 - va)).take g.2.1 }

/-- ST and STRL once their pages are reached (R173, R175). -/
def State.issueStore (s : State) (th : ThreadRef) (va : DWord) (bytes : List Byte) (scope : Option Nat)
    (segs : List Piece) : State :=
  let core := s.coreOf th
  let tag := (s.tenant (s.tenantOf th)).astag
  let whole := isAligned va.toNat bytes.length
  let loc := placeAt segs va.toNat
  let eff := match scope with | some f => promote f (coreDie core) loc | none => 0
  let s1 := match scope with
    | some _ => s.dropLine core loc.line
    | none => s.l1Write th tag whole va.toNat bytes segs
  (s1.addReq { s1.newReq th .p .store va with
    waits := s1.releaseWaits th eff
    parts := writeParts whole va.toNat bytes segs }).noteWrite th .p s1.nextId eff

def storeOp (va : DWord) (align : Nat) (bytes : List Byte) (scope : Option Nat) (th : ThreadRef) (s : State) :
    Effect :=
  if s.heldAtIssue th .p true then .stall s
  else match addressBad va align with
    | some aux => writeBad th .p codePermission va.toNat aux s
    | none =>
      withPages th va.toNat bytes.length { write := true } s (writeBad th .p) fun segs s =>
        .go (s.issueStore th va bytes scope segs)

/-- ATOM, CAS and RED once their page is reached: the core's copy of the line is invalidated, and the step goes to
the home slice (R176 to R178). -/
def State.issueRmw (s : State) (th : ThreadRef) (kind : ReqKind) (va : DWord) (size : Nat) (o : Ord) (scope : Nat)
    (dst : Option (Nat × Nat)) (segs : List Piece) : State :=
  let core := s.coreOf th
  let loc := placeAt segs va.toNat
  let eff := promote scope (coreDie core) loc
  let s1 := s.dropLine core loc.line
  let id := s1.nextId
  let r := { s1.newReq th .p kind va with
    waits := (if o.releases then s1.releaseWaits th eff else []) ++
      (if o.acquires then s1.acquireWaits th eff (some loc) else [])
    parts := [{ va := va.toNat, loc := loc, len := size }] }
  let s2 := match dst with
    | some (k, n) => s1.outstand th id k n none none
    | none => s1
  let s3 := (s2.addReq r).noteWrite th .p id (if o.releases then eff else 0) kind.surelyWrites
  if o.acquires then s3.acquire th eff [id] else s3

/-- ATOM and CAS (R176, R177). -/
def atomOp (kind : ReqKind) (va : DWord) (size : Nat) (o : Ord) (scope k n : Nat) (th : ThreadRef) (s : State) :
    Effect :=
  if (s.thread th).full || s.heldAtIssue th .p true || s.heldAtIssue th .p false then .stall s
  else match addressBad va size with
    | some aux => classLBad th codePermission va.toNat aux s
    | none =>
      withPages th va.toNat size { read := true, write := true, noSuc := true } s (classLBad th) fun segs s =>
        .go (s.issueRmw th kind va size o scope (some (k, n)) segs)

/-- RED on path P (R178). -/
def redOp (op : RmwOp) (va : DWord) (size val : Nat) (rel : Bool) (scope : Nat) (th : ThreadRef) (s : State) :
    Effect :=
  if s.heldAtIssue th .p true then .stall s
  else match addressBad va size with
    | some aux => writeBad th .p codePermission va.toNat aux s
    | none =>
      withPages th va.toNat size { write := true, noSuc := true } s (writeBad th .p) fun segs s =>
        .go (s.issueRmw th (.rmw op size val false) va size (if rel then .rel else .rlx) scope none segs)

/-! ### Scratchpad -/

def Copy.scratchLen (c : Copy) : Nat := c.width * c.rows

def overlaps (a n b m : Nat) : Bool := decide (a < b + m) && decide (b < a + n)

/-- An access of the team waits for copies in flight over its range: any access for an inward one, a write for an
outward one (R161, R189); and for a multicast that is landing there (R191). -/
def State.scratchBusy (s : State) (team a n : Nat) (write : Bool) : Bool :=
  s.copies.any fun c => overlaps a n c.sp c.scratchLen &&
    (if c.multicast then c.landing.contains (s.team team).index && (s.team c.team).grid == (s.team team).grid
     else c.team == team && (c.inward || write))

def Team.scratchBytes (t : Team) (a n : Nat) : List Byte := (List.range n).map fun k => Tab.get t.scratch (a + k) 0

/-- Words a range touches. -/
def wordRange (a n : Nat) : List Nat := (List.range ((a + n + 3) / 4 - a / 4)).map (a / 4 + ·)

/-- Writes scratchpad bytes; a word written in full loses its poison (R304), by a copy or a multicast too: the model's
choice (log 177). -/
def Team.putScratch (t : Team) (a : Nat) (bs : List Byte) : Team :=
  { t with
    scratch := Tab.putAll t.scratch a bs
    scratchPoison := t.scratchPoison.filter fun w => !(decide (a ≤ 4 * w) && decide (4 * w + 4 ≤ a + bs.length)) }

/-- The poison of a scratchpad range, as the address a poisoned result carries. -/
def Team.scratchBad (t : Team) (a n : Nat) : Option DWord :=
  if (wordRange a n).any t.scratchPoison.contains then some (BitVec.ofNat 64 a) else none

/-- The checks of R172 on a scratchpad range: alignment where the access needs it, then the bound. -/
def Team.scratchDeny (t : Team) (a n align : Nat) : Option DWord :=
  if a % align ≠ 0 then some 1 else if t.scratchSize < a + n then some 0 else none

/-- LDS (R173): performed at issue; the result is of class L. -/
def ldsOp (sea : Word) (q : LdQ) (d : Nat) (th : ThreadRef) (s : State) : Effect :=
  let t := s.team th.team
  match t.scratchDeny sea.toNat q.size 1 with
  | some aux => .trap s codePermission (sea.setWidth 64) aux
  | none =>
    if (s.thread th).full || s.scratchBusy th.team sea.toNat q.size false then .stall s
    else .go (s.ready th d q.regs
      { vals := loadWords q.size q.signed (t.scratchBytes sea.toNat q.size)
        poison := t.scratchBad sea.toNat q.size } (s.plyBatch sea.toNat))

/-- STS (R173): performed at issue. -/
def stsOp (sea : Word) (q : StQ) (bytes : List Byte) (th : ThreadRef) (s : State) : Effect :=
  match (s.team th.team).scratchDeny sea.toNat q.size 1 with
  | some aux => .trap s codePermission (sea.setWidth 64) aux
  | none =>
    if s.scratchBusy th.team sea.toNat q.size true then .stall s
    else .go (s.modTeam th.team fun t => t.putScratch sea.toNat bytes)

/-- ATOMS (R179): the step is performed at issue; the old word is a result of class L. -/
def atomsOp (op : RmwOp) (a : Word) (b : Word) (d : Nat) (th : ThreadRef) (s : State) : Effect :=
  let t := s.team th.team
  match t.scratchDeny a.toNat 4 4 with
  | some aux => .trap s codePermission (a.setWidth 64) aux
  | none =>
    if (s.thread th).full || s.scratchBusy th.team a.toNat 4 true then .stall s
    else
      let old := leValue (t.scratchBytes a.toNat 4)
      let new := op.apply 4 old b.toNat
      let s1 := s.ready th d 1 { vals := [BitVec.ofNat 32 old], poison := t.scratchBad a.toNat 4 }
      .go (s1.modTeam th.team fun t => { t with scratch := Tab.putAll t.scratch a.toNat (leBytes 4 new) })

/-! ### Fences -/

def maskP (m : BitVec 4) : Bool := m.getLsbD 0
def maskC (m : BitVec 4) : Bool := m.getLsbD 1
def maskM (m : BitVec 4) : Bool := m.getLsbD 2
def maskN (m : BitVec 4) : Bool := m.getLsbD 3
/-- The mask names path P and another path. -/
def maskCross (m : BitVec 4) : Bool := maskP m && (maskC m || maskM m || maskN m)

/-- A tile store or merge (path M writes, Table 11.9). -/
def Instr.isTileWrite (i : Instr) : Bool :=
  match i with
  | .tst _ _ _ _ => true
  | .tstDr _ _ _ _ => true
  | .tmergeI64 _ _ _ _ _ => true
  | .tmergeF64 _ _ _ _ _ => true
  | .tmergeF64Ord _ _ _ _ _ => true
  | _ => false

/-- A tile load (path M reads, R160). -/
def Instr.isTileRead (i : Instr) : Bool :=
  match i with
  | .tld _ _ _ _ => true
  | .tldDr _ _ _ _ => true
  | .tldq _ _ _ _ _ => true
  | .tmread _ _ _ _ _ => true
  | _ => false

/-- What the release part of a FENCE waits for (Table 11.9). Across paths the home slice is the point of coherence of
path P at every scope (R160). -/
def State.fenceReleaseIds (s : State) (th : ThreadRef) (m : BitVec 4) (scope : Nat) : List Nat :=
  let covers := fenceCovers scope (coreDie (s.coreOf th))
  let pScope := if maskCross m ∧ scope < 2 then 4 else scope
  (if maskP m then s.releaseWaits th pScope else []) ++
  (if maskC m then (s.copies.filter fun c => sameGroup c.th th && covers (s.copyPlaces c)).map (·.id) else []) ++
  (if maskM m then
    ((s.team th.team).engine.filter fun e =>
      Instr.isTileWrite e.op && sameGroup e.th th && covers (piecePlaces e.pieces)).map (·.id) ++
    (s.merges.filter fun x => sameGroup x.th th && covers (piecePlaces x.pieces)).map (·.id) else []) ++
  (if maskN m then
    (s.reqs.filter fun r => r.path == .n && sameGroup r.th th && covers (s.reqPlaces r)).map (·.id) ++
    (s.commands.filter fun c => sameGroup c.th th && covers (s.commandPlaces c)).map (·.id)
  else [])

/-- What the acquire part of a FENCE waits for, but for the reads of copies: its thread's earlier loads on the named
paths, and the writes and fences of its earlier releases (R152, R160, note 4 of the matrices). -/
def State.fenceAcquireIds (s : State) (th : ThreadRef) (m : BitVec 4) (scope : Nat) : List Nat :=
  let covers := fenceCovers scope (coreDie (s.coreOf th))
  (if maskP m then
    (s.reqs.filter fun r => r.path == .p && r.kind.reads && r.th == th && covers (s.reqPlaces r)).map (·.id) ++
    s.acquireWaits th scope none
  else []) ++
  (if maskM m then
    ((s.team th.team).engine.filter fun e =>
      Instr.isTileRead e.op && e.th == th && covers (piecePlaces e.pieces)).map (·.id) else []) ++
  (if maskN m then
    (s.reqs.filter fun r => r.path == .n && r.kind.reads && r.th == th && covers (s.reqPlaces r)).map (·.id) else [])

/-- The copies whose memory reads the acquire part of a FENCE waits for (R160). -/
def State.fenceCopyReads (s : State) (th : ThreadRef) (m : BitVec 4) (scope : Nat) : List Nat :=
  if maskC m then
    (s.copies.filter fun c =>
      c.th == th && c.inward && fenceCovers scope (coreDie (s.coreOf th)) (s.copyPlaces c)).map (·.id)
  else []

def State.addHold (s : State) (th : ThreadRef) (h : Hold) : State :=
  (s.modThread th fun t => { t with holds := t.holds ++ [h] }).settleHolds th

def State.fenceRelease (s : State) (th : ThreadRef) (m : BitVec 4) (scope : Nat) : State :=
  (s.addHold th ⟨s.fenceReleaseIds th m scope, false, maskP m, maskC m, maskM m, maskN m, false, [], scope⟩).modThread th
    fun t => { t with relNext := if maskP m ∧ 2 ≤ scope then t.relNext ++ [⟨s.nextId, m, scope⟩] else t.relNext }

def State.fenceAcquire (s : State) (th : ThreadRef) (m : BitVec 4) (scope : Nat) : State :=
  s.addHold th ⟨s.fenceAcquireIds th m scope, maskP m, maskP m, maskC m, maskM m, maskN m, maskP m && decide (1 ≤ scope),
    s.fenceCopyReads th m scope, 0⟩

/-! ### Residency and cache control -/

/-- The leaf of an address for an operation that never faults: from the cluster TLB, or by a walk that refills it
(R72, R182). None when a load would find no page. -/
def State.quietLeaf (s : State) (th : ThreadRef) (va : DWord) : State × Option Leaf :=
  let core := s.coreOf th
  let tenant := s.tenantOf th
  let tag := (s.tenant tenant).astag
  let k := s.cluster (coreCluster core)
  if 2 ^ 57 ≤ va.toNat ∨ (s.tenant tenant).en = false then (s, none)
  else match tlbLookup k.tlb tag va.toNat with
    | some l => (s, some l)
    | none =>
      match s.walk (coreDie core) tenant va.toNat with
      | .leaf l base _ =>
        (((s.walkReads (coreDie core) tenant va.toNat).foldl State.touch s).setCluster (coreCluster core) { k with tlb := tlbAdd k.tlb Config.tlbEntries s.tick ⟨tag, base, l⟩ }, some l)
      | .fault _ => (s, none)

/-- What the walk of such an operation reads, where the TLB does not answer. -/
def State.quietReads (s : State) (th : ThreadRef) (va : DWord) : List Loc :=
  let core := s.coreOf th
  let tenant := s.tenantOf th
  if 2 ^ 57 ≤ va.toNat then []
  else match tlbLookup (s.cluster (coreCluster core)).tlb (s.tenant tenant).astag va.toNat with
    | some _ => []
    | none => s.walkReads (coreDie core) tenant va.toNat

/-- The quiet leaf of a page that the program may see. -/
def State.seenLeaf (s : State) (th : ThreadRef) (va : DWord) : State × Option Leaf :=
  let r := s.quietLeaf th va
  (r.1, r.2.filter fun l => !s.hwOwned (l.locate va.toNat))

/-- Runs `k` on the leaf that such an operation sees; its walk waits at a sleeping channel (R342). -/
def withSeen (th : ThreadRef) (va : DWord) (s : State) (k : Option Leaf → State → State) : Effect :=
  if (s.quietReads th va).any s.asleep then .stall (s.want (s.quietReads th va))
  else
    let r := s.seenLeaf th va
    .go (k r.2 r.1)

/-- PREQ (R182): a residency request for the page at `page`, unless one is pending. The cause of its record is 0, and
its access a read (log 129). -/
def State.requestPage (s : State) (th : ThreadRef) (page : Nat) : State :=
  let tenant := s.tenantOf th
  if s.faultRecords.any (fun r => r.tenant == tenant && r.page == page / 4096 && r.kind == 3) ||
     s.faultPosts.any (fun r => r.tenant == tenant && r.page == page / 4096 && r.kind == 3) then s
  else s.postRecord (s.threadPost th 3 page false 0 0)

def preqOp (va : DWord) (th : ThreadRef) (s : State) : Effect :=
  withSeen th va s fun leaf s =>
    match leaf with
    | some l => if l.opt && !l.res && !l.suc && !l.peer then s.requestPage th (va.toNat / l.size * l.size) else s
    | none => s

/-- Whether a prefetch acts on the page: not SUC, not PEER, resident. -/
def prefetchable (l : Leaf) : Bool := !l.suc && !l.peer && !(l.opt && !l.res)

/-- PREF.L1 (R182): a merging fill without a destination. -/
def prefL1Op (va : DWord) (th : ThreadRef) (s : State) : Effect :=
  withSeen th va s fun leaf s =>
    match leaf with
    | some l =>
      if prefetchable l then
        let core := s.coreOf th
        let tag := (s.tenant (s.tenantOf th)).astag
        let loc := l.locate va.toNat
        match (s.core core).lineAt tag (va.toNat / 64) with
        | some c => if c.valid = BitVec.allOnes 16 then s else s.fillLine th va.toNat loc
        | none => (s.aliasMove core tag (va.toNat / 64) loc.line).fillLine th va.toNat loc
      else s
    | none => s

/-- PREF.L2 and PREF.MSC bring a line into a cache that changes no value (R142, R145): only the TLB may change. -/
def prefOp (va : DWord) (th : ThreadRef) (s : State) : Effect := withSeen th va s fun _ s => s

/-- LINV.LINE (R182): the line leaves the core's L1 and fetch cache under the tenant's tag. -/
def linvLineOp (va : DWord) (th : ThreadRef) (s : State) : Effect :=
  withSeen th va s fun leaf s =>
    match leaf with
    | some l =>
      let core := s.coreOf th
      let tag := (s.tenant (s.tenantOf th)).astag
      let k := s.core core
      (s.setCore core { k with
        l1 := k.l1.filter fun c => !c.isAt tag (va.toNat / 64)
        fetch := k.fetch.filter fun c => !c.isAt tag (va.toNat / 64) }).cancelFills core (l.locate va.toNat).line
    | none => s

/-- Empties a core's L1 and fetch cache (R140, R347). -/
def State.linvCore (s : State) (core : Nat) : State :=
  let s1 := s.invalidateL1 core
  s1.setCore core { s1.core core with fetch := [] }

/-- SLICEOF (R72, Table 5.3). -/
def State.sliceOf (s : State) (l : Leaf) (va : Nat) : DWord :=
  let flags := (if l.opt && !l.res then 0 else 2 ^ 37) + l.peer.toNat * 2 ^ 36 + l.stripe.toNat * 2 ^ 35 +
    l.nmok.toNat * 2 ^ 34 + l.opt.toNat * 2 ^ 33 + l.suc.toNat * 2 ^ 32 + 2 ^ 31
  match l.locate va with
  | .dev p =>
    if l.peer then BitVec.ofNat 64 flags
    else BitVec.ofNat 64 (flags + s.servingChannel p * 2 ^ 24 + placeStack p * 2 ^ 16 + placeDie p * 2 ^ 8 +
      homeSlice (dieAddr p))
  | _ => BitVec.ofNat 64 flags

/-! ### The steps of a request -/

def State.findReq (s : State) (id : Nat) : Option Req := s.reqs.find? (·.id == id)
def State.modReq (s : State) (id : Nat) (f : Req → Req) : State :=
  { s with reqs := s.reqs.map fun r => if r.id = id then f r else r }
def State.dropReq (s : State) (id : Nat) : State := { s with reqs := s.reqs.filter (·.id != id) }

/-- The request has yet to reach a line: to perform a part there, or to read it as a row operation's source. -/
def Req.touches (r : Req) (line : Loc) : Bool :=
  r.parts.any fun x => !x.done && (x.loc.line == line || r.kind.sourceLines.any fun e => e.2.line == line)

/-- Requests of path P of one core to one line, and a thread's requests on one path to one line, reach the home slice
in issue order (R158). -/
def State.behind (s : State) (r : Req) (line : Loc) : Bool :=
  s.reqs.any fun q => decide (q.id < r.id) && q.path == r.path && q.touches line &&
    (if r.path = .p then q.core == r.core else q.th == r.th)

/-- A store to a string's line and an operation on the string, of one thread, take effect in program order (R162). -/
def State.afterString (s : State) (r : Req) (l : Loc) : Bool :=
  (s.stringsAt l).any fun e => s.reqs.any fun q => decide (q.id < r.id) && q.th == r.th && q.onString e.1.key

/-- A part of a request may be performed at its home slice; `marks` tells whether it is a write that a splicer must
mark (R158, R200). -/
def State.mayPerform (s : State) (r : Req) (part : Nat) (marks : Bool) : Bool :=
  match r.parts[part]? with
  | none => false
  | some x =>
    !x.done && r.lost.isNone && s.allDone r.waits && !s.behind r x.loc.line && !s.asleep x.loc &&
    (r.kind.writes && !(s.stringsAt x.loc).isEmpty) == marks &&
    (!marks || (!s.writeHeld x.loc && !s.afterString r x.loc)) &&
    (match r.kind with
     | .load _ _ => true
     | .prefetch => true
     | .store => true
     | .rmw _ _ _ _ => true
     | .cas _ _ _ => true
     | _ => false)

def ReqPart.finish (x : ReqPart) (got : List Byte) (bad : Bool) : ReqPart := { x with done := true, got := got, bad := bad }

def setPart (parts : List ReqPart) (k : Nat) (f : ReqPart → ReqPart) : List ReqPart :=
  parts.mapIdx fun j x => if j = k then f x else x

/-- The result of an atomic: the old value. -/
def oldResult (size : Nat) (old : List Byte) (bad : Bool) (va : DWord) : Result :=
  { vals := leWords old (size / 4), poison := if bad then some va else none }

/-- A load whose every part is read delivers at once unless it waits for its merging fill. -/
def State.deliver (s : State) (id : Nat) : State :=
  match s.findReq id with
  | some r =>
    match r.kind with
    | .load size signed =>
      if r.parts.all (·.done) && !r.parts.any (·.fill) then
        ((s.giveResult r.th id (r.loadResult size signed)).dropReq id).settle
      else s
    | _ => s
  | none => s

/-- The core's fills to a line that may install are one read (R139, log 20). -/
def State.shareFill (s : State) (r : Req) (x : ReqPart) (got : List Byte) (bad : Bool) : State :=
  if x.fill && x.keep then
    { s with reqs := s.reqs.map fun q =>
      if q.core = r.core ∧ q.installs = r.installs then
        { q with parts := q.parts.map fun y =>
            if y.fill && y.keep && !y.done && y.loc == x.loc then y.finish got bad else y }
      else q }
  else s

/-- A CAS that has performed its write is the write of the FENCE.RELs before it (R149, R152). -/
def State.casWrote (s : State) (r : Req) : State :=
  s.modThread r.th fun t => { t with relNext := t.relNext.filter fun f => !(f.names .p && decide (f.id ≤ r.id)) }

/-- A request's part is performed at its home slice. -/
def State.perform (s : State) (r : Req) (part : Nat) (x : ReqPart) : State :=
  let got := s.bytesAt x.loc x.len
  let bad := s.isPoisoned x.loc
  let s := s.touch x.loc
  let fin (s : State) : State :=
    (s.modReq r.id fun r => { r with parts := setPart r.parts part (·.finish got bad) }).shareFill r x got bad
  match r.kind with
  | .load _ _ => (fin s).deliver r.id
  | .prefetch => fin s
  | .store => fin (s.writePlace x.loc x.data)
  | .rmw op size val returns =>
    let s1 := s.writePlace x.loc (leBytes size (op.apply size (leValue got) val))
    if returns then ((s1.giveResult r.th r.id (oldResult size got bad r.va)).dropReq r.id).settle else fin s1
  | .cas size cmp new =>
    let s1 := if leValue got = cmp then (s.writePlace x.loc (leBytes size new)).casWrote r else s
    ((s1.giveResult r.th r.id (oldResult size got bad r.va)).dropReq r.id).settle
  | _ => s

/-- A store or RED is acknowledged: every part is performed, and one to a SUC page is marked (R151, R162). -/
def Req.acknowledgeable (r : Req) : Bool :=
  r.lost.isNone && r.parts.all (·.done) &&
  (match r.kind with
   | .store => true
   | .rmw _ _ _ false => true
   | .redNm _ _ _ _ => true
   | .rowZero => true
   | .rowCopy _ => true
   | _ => false)

/-- A fill may return: every part is read. -/
def Req.fillable (r : Req) : Bool :=
  r.parts.all (·.done) && r.parts.any (·.fill) &&
  (match r.kind with
   | .load _ _ => true
   | .prefetch => true
   | _ => false)

/-- Installs the fill parts that may install: not after an acquire of the core, not a poisoned line (R139, R140). -/
def State.installParts (s : State) (r : Req) : State :=
  r.parts.foldl (fun s x =>
    if x.fill && x.keep && !x.bad && (s.core r.core).acquires == r.installs then
      s.install r.core r.tag (x.va / 64) x.loc.line r.id x.got x.stored
    else s) s

/-- Writes a class-L result: its registers, with their poison, and its predicate; or its fault (R26, R295, R304). All of
it is written in one step: the model's choice (log 168). -/
def State.writeResult (s : State) (th : ThreadRef) (o : Outstanding) (r : Result) : State :=
  let s1 := s.modThread th fun t => { t with outs := t.outs.filter (·.op != o.op) }
  match r.fault with
  | some f => s1.modThread th fun t => { t with faults := Tab.put t.faults o.op f }
  | none =>
    let s2 := (o.regs.zip r.vals).foldl (fun s e => s.writeBudget th e.1 e.2) s1
    let s3 := match r.poison with
      | some a => s2.modThread th fun t => { t with poison := o.regs.foldl insertNat t.poison, paddr := a }
      | none => s2
    match o.pred with
    | some k => s3.setPred th k r.pred
    | none => s3

/-- The threads of a team with their outstanding operations. -/
def Team.allOuts (t : Team) (n : Nat) : List (ThreadRef × Outstanding) :=
  t.groups.flatMap fun g => g.2.threads.flatMap fun u => u.2.outs.map fun o => (⟨n, g.1, u.1⟩, o)

/-- Batches of a team one of whose loads has no result yet. -/
def Team.openBatches (t : Team) : List Nat :=
  t.groups.flatMap fun g => (g.2.threads.flatMap fun u =>
    (u.2.outs.filter fun o => o.result.isNone && o.batch != 0).map (·.batch)).eraseDups

/-- Operations whose results are written with that of `o` (log 120). -/
def State.batchOf (s : State) (th : ThreadRef) (o : Outstanding) : List (ThreadRef × Outstanding) :=
  if o.batch = 0 then [(th, o)] else ((s.team th.team).allOuts th.team).filter fun e => e.2.batch == o.batch

/-- A parked thread with nothing outstanding becomes Ready (R12). -/
def State.unpark (s : State) (th : ThreadRef) : State :=
  s.modThread th fun t =>
    if t.status = .parked ∧ t.outs = [] then { t with status := .ready, readyAt := s.tick } else t

/-- An imprecise fault of a group. One that comes after every thread of the group has exited stops the team (R303),
but for a responder, whose ending release takes it (R264, R265). -/
def State.impreciseFault (s : State) (th : ThreadRef) (r : Report) : State :=
  if (s.group th).live then s.modGroup th.team th.group fun g => { g with faults := g.faults ++ [r] }
  else if isResponder th && (Tab.find (s.team th.team).responders th.group).isSome then s.responderTrap th r.code
  else if (s.team th.team).stopping.isNone then s.stopTeam th.team r.code
  else s

/-- The attribution word of R303. -/
def State.attribution (s : State) (team : Nat) (pc : DWord) (path : Path) (cause : Nat) : DWord :=
  let off := (pc - (s.gridOf team).code).toNat / 4
  let pathNo := match path with | .p => 0 | .c => 1 | .m => 2 | .n => 3
  BitVec.ofNat 64 ((if off < 2 ^ 20 ∧ (s.gridOf team).code ≤ pc then off + 2 ^ 20 else 0) + pathNo * 2 ^ 21 + cause * 2 ^ 24)

/-- An access that fails after leaving its thread posts a record of kind 5 and faults its group (R303). TRAPAUX is the
value that the instruction's chapter states, else the attribution word (R294). -/
def State.loseAccess (s : State) (th : ThreadRef) (core : Nat) (write : Bool) (r : Report) (path : Path) : State :=
  let word := s.attribution th.team r.pc path 0
  let p := { s.issuedPost th core 5 r.addr.toNat write 0 word with pc := r.pc }
  if (Tab.find s.teams th.team).isNone then s
  else (s.postRecord p).impreciseFault th { r with aux := if r.aux = 0 then word else r.aux }

/-- What a controller's age cap does: an urgent request changes time only (R146). -/
def State.ageCap (s : State) (_id : Nat) : State := s

/-! ### Meanings -/

/-- SLICEOF (R72). D ← where the line of the address lives. -/
def execSliceof (sw : Bool) (d : BitVec 7) (a : BitVec 7) (s : State) : Host.Outcome State Fault Refusal :=
  runPly (.sliceof sw d a) (fun th s =>
    let va := (s.thread th).pair a.toNat
    withSeen th va s fun leaf s =>
      s.setPair th d.toNat (match leaf with | some l => s.sliceOf l va.toNat | none => 0)) s

/-- LD (R173). D ← the bytes at the effective address, extended; class L. -/
def execLd (sw : Bool) (d : BitVec 7) (a : BitVec 7) (i : BitVec 7) (q : LdQ) (s : State) : Host.Outcome State Fault Refusal :=
  runPly (.ld sw d a i q) (fun th s =>
    loadOp ((s.thread th).ea a i q.size) q.size 1 q.signed d.toNat q.regs none none th s) s

/-- ST (R173). The bytes at the effective address ← D. -/
def execSt (sw : Bool) (d : BitVec 7) (a : BitVec 7) (i : BitVec 7) (q : StQ) (s : State) : Host.Outcome State Fault Refusal :=
  runPly (.st sw d a i q) (fun th s =>
    let u := s.thread th
    storeOp (u.ea a i q.size) 1 (leBytes q.size (u.wide d.toNat q.regs)) none th s) s

/-- LDS (R173). D ← scratchpad bytes, extended; class L. -/
def execLds (sw : Bool) (d : BitVec 7) (a : BitVec 7) (i : BitVec 7) (q : LdQ) (s : State) : Host.Outcome State Fault Refusal :=
  runPly (.lds sw d a i q) (fun th s => ldsOp ((s.thread th).sea a i q.size) q d.toNat th s) s

/-- STS (R173). Scratchpad bytes ← D. -/
def execSts (sw : Bool) (d : BitVec 7) (a : BitVec 7) (i : BitVec 7) (q : StQ) (s : State) : Host.Outcome State Fault Refusal :=
  runPly (.sts sw d a i q) (fun th s =>
    let u := s.thread th
    stsOp (u.sea a i q.size) q (leBytes q.size (u.wide d.toNat q.regs)) th s) s

/-- LDAQ (R174). An acquire load at the home slice. -/
def execLdaq (sw : Bool) (d : BitVec 7) (a : BitVec 7) (z : AccSize) (f : BitVec 3) (s : State) : Host.Outcome State Fault Refusal :=
  runPly (.ldaq sw d a z f) (fun th s =>
    loadOp ((s.thread th).pair a.toNat) z.bytes z.bytes false d.toNat z.regs none (some f.toNat) th s) s

/-- STRL (R175). A release store at the home slice. -/
def execStrl (sw : Bool) (z : AccSize) (a : BitVec 7) (b : BitVec 7) (f : BitVec 3) (s : State) : Host.Outcome State Fault Refusal :=
  runPly (.strl sw z a b f) (fun th s =>
    let u := s.thread th
    storeOp (u.pair a.toNat) z.bytes (leBytes z.bytes (u.wide b.toNat z.regs)) (some f.toNat) th s) s

/-- ATOM_ADD (R176). Memory ← x + b; D ← x, class L. -/
def execAtomAdd (sw : Bool) (o : Ord) (d : BitVec 5) (t : AtomTy) (a : BitVec 5) (b : BitVec 5) (f : BitVec 3) (s : State) : Host.Outcome State Fault Refusal :=
  runPly (.atomAdd sw o d t a b f) (fun th s =>
    let u := s.thread th
    atomOp (.rmw .add (t.width).bytes (u.wide b.toNat (t.width).regs) true) (u.pair a.toNat) (t.width).bytes o f.toNat d.toNat
      (t.width).regs th s) s

/-- ATOM_MIN (R176). Memory ← the smaller of x and b under the type; D ← x, class L. -/
def execAtomMin (sw : Bool) (o : Ord) (d : BitVec 5) (t : AtomTy) (a : BitVec 5) (b : BitVec 5) (f : BitVec 3) (s : State) : Host.Outcome State Fault Refusal :=
  runPly (.atomMin sw o d t a b f) (fun th s =>
    let u := s.thread th
    atomOp (.rmw (.min t.signed) (t.width).bytes (u.wide b.toNat (t.width).regs) true) (u.pair a.toNat) (t.width).bytes o f.toNat d.toNat
      (t.width).regs th s) s

/-- ATOM_MAX (R176). Memory ← the larger of x and b under the type; D ← x, class L. -/
def execAtomMax (sw : Bool) (o : Ord) (d : BitVec 5) (t : AtomTy) (a : BitVec 5) (b : BitVec 5) (f : BitVec 3) (s : State) : Host.Outcome State Fault Refusal :=
  runPly (.atomMax sw o d t a b f) (fun th s =>
    let u := s.thread th
    atomOp (.rmw (.max t.signed) (t.width).bytes (u.wide b.toNat (t.width).regs) true) (u.pair a.toNat) (t.width).bytes o f.toNat d.toNat
      (t.width).regs th s) s

/-- ATOM_ADD_F32 (R176). Memory ← x + b as FP32, rounded to nearest even; D ← x, class L. -/
def execAtomAddF32 (sw : Bool) (o : Ord) (d : BitVec 5) (a : BitVec 5) (b : BitVec 5) (f : BitVec 3) (s : State) : Host.Outcome State Fault Refusal :=
  runPly (.atomAddF32 sw o d a b f) (fun th s =>
    let u := s.thread th
    atomOp (.rmw .addF32 (Width.w32).bytes (u.wide b.toNat (Width.w32).regs) true) (u.pair a.toNat) (Width.w32).bytes o f.toNat d.toNat
      (Width.w32).regs th s) s

/-- ATOM_AND (R176). Memory ← x AND b; D ← x, class L. -/
def execAtomAnd (sw : Bool) (o : Ord) (d : BitVec 5) (z : Width) (a : BitVec 5) (b : BitVec 5) (f : BitVec 3) (s : State) : Host.Outcome State Fault Refusal :=
  runPly (.atomAnd sw o d z a b f) (fun th s =>
    let u := s.thread th
    atomOp (.rmw .and (z).bytes (u.wide b.toNat (z).regs) true) (u.pair a.toNat) (z).bytes o f.toNat d.toNat
      (z).regs th s) s

/-- ATOM_OR (R176). Memory ← x OR b; D ← x, class L. -/
def execAtomOr (sw : Bool) (o : Ord) (d : BitVec 5) (z : Width) (a : BitVec 5) (b : BitVec 5) (f : BitVec 3) (s : State) : Host.Outcome State Fault Refusal :=
  runPly (.atomOr sw o d z a b f) (fun th s =>
    let u := s.thread th
    atomOp (.rmw .or (z).bytes (u.wide b.toNat (z).regs) true) (u.pair a.toNat) (z).bytes o f.toNat d.toNat
      (z).regs th s) s

/-- ATOM_XOR (R176). Memory ← x XOR b; D ← x, class L. -/
def execAtomXor (sw : Bool) (o : Ord) (d : BitVec 5) (z : Width) (a : BitVec 5) (b : BitVec 5) (f : BitVec 3) (s : State) : Host.Outcome State Fault Refusal :=
  runPly (.atomXor sw o d z a b f) (fun th s =>
    let u := s.thread th
    atomOp (.rmw .xor (z).bytes (u.wide b.toNat (z).regs) true) (u.pair a.toNat) (z).bytes o f.toNat d.toNat
      (z).regs th s) s

/-- ATOM_EXCH (R176). Memory ← b; D ← x, class L. -/
def execAtomExch (sw : Bool) (o : Ord) (d : BitVec 5) (z : Width) (a : BitVec 5) (b : BitVec 5) (f : BitVec 3) (s : State) : Host.Outcome State Fault Refusal :=
  runPly (.atomExch sw o d z a b f) (fun th s =>
    let u := s.thread th
    atomOp (.rmw .exch (z).bytes (u.wide b.toNat (z).regs) true) (u.pair a.toNat) (z).bytes o f.toNat d.toNat
      (z).regs th s) s

/-- CAS (R177). Memory ← the new value when it equals the compare value; D ← the old value, class L. -/
def execCas (sw : Bool) (o : Ord) (d : BitVec 5) (z : Width) (a : BitVec 5) (b : BitVec 5) (f : BitVec 3) (s : State) : Host.Outcome State Fault Refusal :=
  runPly (.cas sw o d z a b f) (fun th s =>
    let u := s.thread th
    atomOp (.cas z.bytes (u.wide b.toNat z.regs) (u.wide (b.toNat + z.regs) z.regs)) (u.pair a.toNat) z.bytes o f.toNat
      d.toNat z.regs th s) s

/-- RED_ADD (R178). Memory ← x + b. -/
def execRedAdd (sw : Bool) (o : Bool) (w : Width) (a : BitVec 7) (b : BitVec 7) (f : BitVec 3) (s : State) : Host.Outcome State Fault Refusal :=
  runPly (.redAdd sw o w a b f) (fun th s =>
    let u := s.thread th
    redOp .add (u.pair a.toNat) (w).bytes (u.wide b.toNat (w).regs) o f.toNat th s) s

/-- RED_ADD_F32 (R178). Memory ← x + b as FP32, rounded to nearest even. -/
def execRedAddF32 (sw : Bool) (o : Bool) (a : BitVec 7) (b : BitVec 7) (f : BitVec 3) (s : State) : Host.Outcome State Fault Refusal :=
  runPly (.redAddF32 sw o a b f) (fun th s =>
    let u := s.thread th
    redOp .addF32 (u.pair a.toNat) (Width.w32).bytes (u.wide b.toNat (Width.w32).regs) o f.toNat th s) s

/-- RED_MIN_I32 (R178). Memory ← the smaller of x and b, signed. -/
def execRedMinI32 (sw : Bool) (o : Bool) (a : BitVec 7) (b : BitVec 7) (f : BitVec 3) (s : State) : Host.Outcome State Fault Refusal :=
  runPly (.redMinI32 sw o a b f) (fun th s =>
    let u := s.thread th
    redOp (.min true) (u.pair a.toNat) (Width.w32).bytes (u.wide b.toNat (Width.w32).regs) o f.toNat th s) s

/-- RED_MIN_N32 (R178). Memory ← the smaller of x and b, unsigned. -/
def execRedMinN32 (sw : Bool) (o : Bool) (a : BitVec 7) (b : BitVec 7) (f : BitVec 3) (s : State) : Host.Outcome State Fault Refusal :=
  runPly (.redMinN32 sw o a b f) (fun th s =>
    let u := s.thread th
    redOp (.min false) (u.pair a.toNat) (Width.w32).bytes (u.wide b.toNat (Width.w32).regs) o f.toNat th s) s

/-- RED_MAX_I32 (R178). Memory ← the larger of x and b, signed. -/
def execRedMaxI32 (sw : Bool) (o : Bool) (a : BitVec 7) (b : BitVec 7) (f : BitVec 3) (s : State) : Host.Outcome State Fault Refusal :=
  runPly (.redMaxI32 sw o a b f) (fun th s =>
    let u := s.thread th
    redOp (.max true) (u.pair a.toNat) (Width.w32).bytes (u.wide b.toNat (Width.w32).regs) o f.toNat th s) s

/-- RED_MAX_N32 (R178). Memory ← the larger of x and b, unsigned. -/
def execRedMaxN32 (sw : Bool) (o : Bool) (a : BitVec 7) (b : BitVec 7) (f : BitVec 3) (s : State) : Host.Outcome State Fault Refusal :=
  runPly (.redMaxN32 sw o a b f) (fun th s =>
    let u := s.thread th
    redOp (.max false) (u.pair a.toNat) (Width.w32).bytes (u.wide b.toNat (Width.w32).regs) o f.toNat th s) s

/-- RED_AND (R178). Memory ← x AND b. -/
def execRedAnd (sw : Bool) (o : Bool) (a : BitVec 7) (b : BitVec 7) (f : BitVec 3) (s : State) : Host.Outcome State Fault Refusal :=
  runPly (.redAnd sw o a b f) (fun th s =>
    let u := s.thread th
    redOp .and (u.pair a.toNat) (Width.w32).bytes (u.wide b.toNat (Width.w32).regs) o f.toNat th s) s

/-- RED_OR (R178). Memory ← x OR b. -/
def execRedOr (sw : Bool) (o : Bool) (a : BitVec 7) (b : BitVec 7) (f : BitVec 3) (s : State) : Host.Outcome State Fault Refusal :=
  runPly (.redOr sw o a b f) (fun th s =>
    let u := s.thread th
    redOp .or (u.pair a.toNat) (Width.w32).bytes (u.wide b.toNat (Width.w32).regs) o f.toNat th s) s

/-- RED_XOR (R178). Memory ← x XOR b. -/
def execRedXor (sw : Bool) (o : Bool) (a : BitVec 7) (b : BitVec 7) (f : BitVec 3) (s : State) : Host.Outcome State Fault Refusal :=
  runPly (.redXor sw o a b f) (fun th s =>
    let u := s.thread th
    redOp .xor (u.pair a.toNat) (Width.w32).bytes (u.wide b.toNat (Width.w32).regs) o f.toNat th s) s

/-- ATOMS_ADD (R179). The scratchpad word ← x + b; D ← x, class L. -/
def execAtomsAdd (sw : Bool) (d : BitVec 7) (a : BitVec 7) (b : BitVec 7) (s : State) : Host.Outcome State Fault Refusal :=
  runPly (.atomsAdd sw d a b) (fun th s =>
    let u := s.thread th
    atomsOp .add (u.reg a.toNat) (u.reg b.toNat) d.toNat th s) s

/-- ATOMS_MIN_I32 (R179). The scratchpad word ← the smaller of x and b, signed; D ← x, class L. -/
def execAtomsMinI32 (sw : Bool) (d : BitVec 7) (a : BitVec 7) (b : BitVec 7) (s : State) : Host.Outcome State Fault Refusal :=
  runPly (.atomsMinI32 sw d a b) (fun th s =>
    let u := s.thread th
    atomsOp (.min true) (u.reg a.toNat) (u.reg b.toNat) d.toNat th s) s

/-- ATOMS_MAX_I32 (R179). The scratchpad word ← the larger of x and b, signed; D ← x, class L. -/
def execAtomsMaxI32 (sw : Bool) (d : BitVec 7) (a : BitVec 7) (b : BitVec 7) (s : State) : Host.Outcome State Fault Refusal :=
  runPly (.atomsMaxI32 sw d a b) (fun th s =>
    let u := s.thread th
    atomsOp (.max true) (u.reg a.toNat) (u.reg b.toNat) d.toNat th s) s

/-- ATOMS_MIN_N32 (R179). The scratchpad word ← the smaller of x and b, unsigned; D ← x, class L. -/
def execAtomsMinN32 (sw : Bool) (d : BitVec 7) (a : BitVec 7) (b : BitVec 7) (s : State) : Host.Outcome State Fault Refusal :=
  runPly (.atomsMinN32 sw d a b) (fun th s =>
    let u := s.thread th
    atomsOp (.min false) (u.reg a.toNat) (u.reg b.toNat) d.toNat th s) s

/-- ATOMS_MAX_N32 (R179). The scratchpad word ← the larger of x and b, unsigned; D ← x, class L. -/
def execAtomsMaxN32 (sw : Bool) (d : BitVec 7) (a : BitVec 7) (b : BitVec 7) (s : State) : Host.Outcome State Fault Refusal :=
  runPly (.atomsMaxN32 sw d a b) (fun th s =>
    let u := s.thread th
    atomsOp (.max false) (u.reg a.toNat) (u.reg b.toNat) d.toNat th s) s

/-- ATOMS_AND (R179). The scratchpad word ← x AND b; D ← x, class L. -/
def execAtomsAnd (sw : Bool) (d : BitVec 7) (a : BitVec 7) (b : BitVec 7) (s : State) : Host.Outcome State Fault Refusal :=
  runPly (.atomsAnd sw d a b) (fun th s =>
    let u := s.thread th
    atomsOp .and (u.reg a.toNat) (u.reg b.toNat) d.toNat th s) s

/-- ATOMS_OR (R179). The scratchpad word ← x OR b; D ← x, class L. -/
def execAtomsOr (sw : Bool) (d : BitVec 7) (a : BitVec 7) (b : BitVec 7) (s : State) : Host.Outcome State Fault Refusal :=
  runPly (.atomsOr sw d a b) (fun th s =>
    let u := s.thread th
    atomsOp .or (u.reg a.toNat) (u.reg b.toNat) d.toNat th s) s

/-- ATOMS_EXCH (R179). The scratchpad word ← b; D ← x, class L. -/
def execAtomsExch (sw : Bool) (d : BitVec 7) (a : BitVec 7) (b : BitVec 7) (s : State) : Host.Outcome State Fault Refusal :=
  runPly (.atomsExch sw d a b) (fun th s =>
    let u := s.thread th
    atomsOp .exch (u.reg a.toNat) (u.reg b.toNat) d.toNat th s) s

/-- FENCE_ACQ (R180). An acquire on the paths of the mask. -/
def execFenceAcq (sw : Bool) (m : BitVec 4) (f : BitVec 3) (s : State) : Host.Outcome State Fault Refusal :=
  runPly (.fenceAcq sw m f) (fun th s => .go (s.fenceAcquire th m f.toNat)) s

/-- FENCE_REL (R180). A release without a write on the paths of the mask. -/
def execFenceRel (sw : Bool) (m : BitVec 4) (f : BitVec 3) (s : State) : Host.Outcome State Fault Refusal :=
  runPly (.fenceRel sw m f) (fun th s => .go (s.fenceRelease th m f.toNat)) s

/-- FENCE_AR (R180). FENCE.REL followed by FENCE.ACQ. -/
def execFenceAr (sw : Bool) (m : BitVec 4) (f : BitVec 3) (s : State) : Host.Outcome State Fault Refusal :=
  runPly (.fenceAr sw m f) (fun th s => .go ((s.fenceRelease th m f.toNat).fenceAcquire th m f.toNat)) s

/-- LDR (R181). D and p ← the bytes and true, or zero and false for a non-resident OPT page; class L. -/
def execLdr (sw : Bool) (d : BitVec 7) (a : BitVec 7) (z : AccSize) (p : BitVec 3) (s : State) : Host.Outcome State Fault Refusal :=
  runPly (.ldr sw d a z p) (fun th s =>
    loadOp ((s.thread th).pair a.toNat) z.bytes 1 false d.toNat z.regs (some p.toNat) none th s) s

/-- PREQ (R182). Asks the host for a non-resident OPT page. -/
def execPreq (sw : Bool) (a : BitVec 7) (i : BitVec 7) (s : State) : Host.Outcome State Fault Refusal :=
  runPly (.preq sw a i) (fun th s => preqOp ((s.thread th).ea a i 64) th s) s

/-- PREF_L1 (R182). Fills the line into the L1. -/
def execPrefL1 (sw : Bool) (a : BitVec 7) (i : BitVec 7) (s : State) : Host.Outcome State Fault Refusal :=
  runPly (.prefL1 sw a i) (fun th s => prefL1Op ((s.thread th).ea a i 64) th s) s

/-- PREF_L2 (R182). Brings the line into its home slice, which changes no value. -/
def execPrefL2 (sw : Bool) (a : BitVec 7) (i : BitVec 7) (s : State) : Host.Outcome State Fault Refusal :=
  runPly (.prefL2 sw a i) (fun th s => prefOp ((s.thread th).ea a i 64) th s) s

/-- PREF_MSC (R182). Brings the line into its memory-side cache, which changes no value. -/
def execPrefMsc (sw : Bool) (a : BitVec 7) (i : BitVec 7) (s : State) : Host.Outcome State Fault Refusal :=
  runPly (.prefMsc sw a i) (fun th s => prefOp ((s.thread th).ea a i 64) th s) s

/-- LINV_LINE (R182). Invalidates the line in the core's L1 and fetch cache. -/
def execLinvLine (sw : Bool) (a : BitVec 7) (i : BitVec 7) (s : State) : Host.Outcome State Fault Refusal :=
  runPly (.linvLine sw a i) (fun th s => linvLineOp ((s.thread th).ea a i 64) th s) s

/-- LINV_CORE (R182). Invalidates every line of the core's L1 and empties its fetch cache. -/
def execLinvCore (sw : Bool) (s : State) : Host.Outcome State Fault Refusal :=
  runPly (.linvCore sw) (fun th s => .go (s.linvCore (s.coreOf th))) s

/-- LINV_CLUSTER (R182). Invalidates the L1s of the cluster and empties its fetch caches. -/
def execLinvCluster (sw : Bool) (s : State) : Host.Outcome State Fault Refusal :=
  runPly (.linvCluster sw) (fun th s =>
    .go ((clusterCores (coreCluster (s.coreOf th))).foldl (fun s c => s.linvCore c) s)) s

/-- SUC_WRITE_MARK (R200). A write to a line of a registered string is marked at its splicer and performed at the
stack. -/
def execSucWriteMark (id : Nat) (part : Nat) (s : State) : Host.Outcome State Fault Refusal :=
  match s.findReq id with
  | some r =>
    match r.parts[part]? with
    | some x => if s.mayPerform r part true then .next (s.perform r part x) else .next s
    | none => .next s
  | none => .next s

/-- WRITE_ACKNOWLEDGED (R151). A write that its home slices have performed is over. -/
def execWriteAcknowledged (id : Nat) (s : State) : Host.Outcome State Fault Refusal :=
  match s.findReq id with
  | some r => if r.acknowledgeable then .next (s.dropReq id).settle else .next s
  | none => .next s

/-- MERGING_FILL (R139). A fill returns its line to its load and installs the words still invalid. -/
def execMergingFill (id : Nat) (s : State) : Host.Outcome State Fault Refusal :=
  match s.findReq id with
  | some r =>
    if r.fillable then
      let s1 := s.installParts r
      match r.kind with
      | .load size signed => .next ((s1.giveResult r.th id (r.loadResult size signed)).dropReq id).settle
      | _ => .next (s1.dropReq id).settle
    else .next s
  | none => .next s

/-- CLASS_L_RESULT (R26). The result of an outstanding operation is written; loads of one ply from one address return
together. -/
def execClassLResult (th : ThreadRef) (op : Nat) (s : State) : Host.Outcome State Fault Refusal :=
  match (s.thread th).outs.find? (·.op == op) with
  | some o =>
    let all := s.batchOf th o
    if all.all fun e => e.2.result.isSome then
      .next (all.foldl (fun s e => match e.2.result with
        | some r => (s.writeResult e.1 e.2 r).unpark e.1
        | none => s) s)
    else .next s
  | none => .next s

/-- LOST_WRITE (R303). A write that failed its checks after leaving its thread is reported. -/
def execLostWrite (id : Nat) (s : State) : Host.Outcome State Fault Refusal :=
  match s.findReq id with
  | some r =>
    match r.lost with
    | some (code, aux) => .next ((s.dropReq id).loseAccess r.th r.core true ⟨r.pc, code, r.va, aux⟩ r.path).settle
    | none => .next s
  | none => .next s

/-- CONTROLLER_AGE_CAP (R146). A request older than the cap goes first: time only, no value. -/
def execControllerAgeCap (id : Nat) (s : State) : Host.Outcome State Fault Refusal :=
  .next (s.ageCap id)

end Sys2Proof.Machine
end

