-- ==== Sys2Proof/Machine/Copy.lean ====
section
/-! DEFINITION. Bobbins, copies and multicast (R183 to R191, R346): what each instruction checks and starts, and the
steps in which the copy engine moves words, retires, stops on a fault and delivers. -/
namespace Sys2Proof.Machine
open Sys2Proof

/-! ### Bobbins -/

/-- The status word (Table 12.4). -/
def Bobbin.word (b : Bobbin) : Word :=
  BitVec.ofNat 32 (min b.drops 255 * 65536 + b.status * 256 + b.state.code.toNat)

def State.bobbin (s : State) (team b : Nat) : Bobbin := Tab.get (s.team team).bobbins b {}

/-- A BOBWAIT returns: its thread goes on, with the status word as a result of class L (R186). -/
def State.bobReturn (s : State) (th : ThreadRef) (dst : Nat) (w : Word) : State :=
  (s.ready th dst 1 { vals := [w] }).advance th

/-- A bobbin takes a new state; threads that wait for that state return with the word of this moment (R186). -/
def State.putBobbin (s : State) (team b : Nat) (x : Bobbin) : State :=
  let s1 := s.modTeam team fun t => { t with bobbins := Tab.put t.bobbins b x }
  ((s1.team team).refs team).foldl (fun s th =>
    match (s.thread th).wait with
    | .bobwait n st dst =>
      if n = b ∧ st = x.state ∧ (s.thread th).status = .blocked then s.bobReturn th dst x.word else s
    | _ => s) s1

/-- A code seen and deliveries dropped, as they occur: STATUS is the largest code, DROPS a count (R183, R191). -/
def Bobbin.note (b : Bobbin) (code drops : Nat) : Bobbin :=
  { b with status := max b.status code, drops := b.drops + drops }

/-- The bobbin of a copy takes note of a code and of drops. -/
def State.noteCopy (s : State) (c : Copy) (code drops : Nat) : State :=
  match c.bob with
  | some x => s.modTeam c.team fun t => { t with bobbins := Tab.put t.bobbins x ((Tab.get t.bobbins x {}).note code drops) }
  | none => s

/-- The state of an issue: STATUS and DROPS clear (R183). -/
def Bobbin.issue (st : BobState) (own : Bool) (armed : Nat) : Bobbin :=
  { state := st, own := own, armed := armed }

/-- ILLEGAL_OPERAND with the status word: an event that Table 12.5 does not list. -/
def bobTrap (s : State) (b : Bobbin) : Effect := .trap s codeIllegalOperand 0 (b.word.setWidth 64)

/-- BOBSET (R185). The count is checked before the bobbin's state: the model's choice (log 130). -/
def bobsetOp (x : Nat) (n : Word) (th : ThreadRef) (s : State) : Effect :=
  let b := s.bobbin th.team x
  if n.toNat % 4 ≠ 0 ∨ n.toNat < 4 ∨ 1048576 < n.toNat then .trap s codeIllegalOperand 0 (n.setWidth 64)
  else if b.state = .empty then .go (s.putBobbin th.team x (Bobbin.issue .winding false n.toNat))
  else bobTrap s b

/-- BOBFREE (Table 12.5). -/
def bobfreeOp (x : Nat) (th : ThreadRef) (s : State) : Effect :=
  let b := s.bobbin th.team x
  match b.state with
  | .empty => .go s
  | .full => .go (s.putBobbin th.team x { b with state := .empty })
  | .winding =>
    if b.own then bobTrap s b
    else if b.landing then .go (s.putBobbin th.team x { b with freeing := true })
    else .go (s.putBobbin th.team x { b with state := .empty })
  | .unwinding => bobTrap s b

def bobwaitOp (d x : Nat) (st : BobState) (th : ThreadRef) (s : State) : Effect :=
  let b := s.bobbin th.team x
  if (s.thread th).full then .stall s
  else if b.state = st then .go (s.ready th d 1 { vals := [b.word] })
  else .block s (.bobwait x st d)

/-! ### Starting a copy -/

/-- A copy's shape: the memory side and the scratchpad side (R187, R188). -/
structure CopyShape where
  inward : Bool
  va : DWord
  sp : Word
  width : Nat
  rows : Nat := 1
  pitch : Nat := 0
  deriving DecidableEq, Repr

def badCount (n : Word) : Bool := n.toNat % 4 != 0 || decide (n.toNat < 4) || decide (1048576 < n.toNat)

/-- Order 1 of Table 12.9 for CPY2D: the value that fails. -/
def bad2d (inward : Bool) (w r p : Word) : Option DWord :=
  if w.toNat % 4 ≠ 0 ∨ w.toNat < 4 ∨ 65536 < w.toNat then some (w.setWidth 64)
  else if r.toNat < 1 ∨ 4096 < r.toNat then some (r.setWidth 64)
  else if p.toNat % 4 ≠ 0 then some (p.setWidth 64)
  else if 1048576 < w.toNat * r.toNat then some (BitVec.ofNat 64 (w.toNat * r.toNat))
  else if inward = false ∧ p.toNat < w.toNat ∧ 1 < r.toNat then some (p.setWidth 64)
  else none

/-- Orders 2 to 4 of Table 12.9: the address and TRAPAUX that fail. -/
def badPlaces (va : DWord) (sp : Word) : Option (DWord × DWord) :=
  if 2 ^ 57 ≤ va.toNat then some (va, 0)
  else if va.toNat % 4 ≠ 0 then some (va, 1)
  else if sp.toNat % 4 ≠ 0 then some (sp.setWidth 64, 1)
  else none

/-- Earlier copies of the thread whose memory range overlaps: they move first (R158). -/
def State.copiesBefore (s : State) (th : ThreadRef) (va span : Nat) : List Nat :=
  (s.copies.filter fun c => c.th == th && overlaps va span c.va c.span).map (·.id)

/-- The copy waits at issue: a fence holds path C, the engine is full, or a copy of the team in flight overlaps its
scratchpad range (R160, R189). -/
def State.copyWaits (s : State) (th : ThreadRef) (sp len : Nat) : Bool :=
  s.heldAtIssue th .c true ||
  decide (Config.copyLimit ≤ (s.copies.filter fun c => c.core == s.coreOf th).length) ||
  s.scratchBusy th.team sp len true

def State.addCopy (s : State) (c : Copy) : State := { s with copies := s.copies ++ [c], nextId := s.nextId + 1 }

def State.newCopy (s : State) (th : ThreadRef) (bob : Nat) (k : CopyShape) : Copy :=
  { id := s.nextId, th := th, core := s.coreOf th, tenant := s.tenantOf th, pc := (s.thread th).pc, team := th.team
    inward := k.inward, bob := some bob, va := k.va.toNat, sp := k.sp.toNat, width := k.width, rows := k.rows
    pitch := k.pitch
    after := s.copiesBefore th k.va.toNat ((k.rows - 1) * k.pitch + k.width) }

/-- CPYIN, CPYOUT and CPY2D once their shape has passed (Tables 12.5, 12.9). The wait for an overlapping copy comes
before order 6: the model's choice (log 130). -/
def startCopy (x : Nat) (k : CopyShape) (th : ThreadRef) (s : State) : Effect :=
  let len := k.width * k.rows
  match badPlaces k.va k.sp with
  | some e => .trap s codePermission e.1 e.2
  | none =>
    if (s.team th.team).scratchSize < k.sp.toNat + len then .trap s codePermission (k.sp.setWidth 64) 0
    else if s.copyWaits th k.sp.toNat len then .stall s
    else
      let b := s.bobbin th.team x
      if b.state = .empty ∨ (k.inward = false ∧ b.state = .full) then
        let s1 := (s.putBobbin th.team x (Bobbin.issue (if k.inward then .winding else .unwinding) k.inward 0)).addCopy
          (s.newCopy th x k)
        .go (if k.inward then s1 else s1.noteWrite th .c s.nextId 0)
      else bobTrap s b

/-- CPYIN and CPYOUT (R187). -/
def copyOp (inward : Bool) (x : Nat) (a b : Nat) (th : ThreadRef) (s : State) : Effect :=
  let t := s.thread th
  let n := t.reg (b + 1)
  if badCount n then .trap s codeIllegalOperand 0 (n.setWidth 64)
  else startCopy x { inward := inward, va := t.pair a, sp := t.reg b, width := n.toNat } th s

/-- CPY2D (R188). -/
def copy2dOp (inward : Bool) (x : Nat) (a b : Nat) (th : ThreadRef) (s : State) : Effect :=
  let t := s.thread th
  match bad2d inward (t.reg (b + 1)) (t.reg (b + 2)) (t.reg (b + 3)) with
  | some v => .trap s codeIllegalOperand 0 v
  | none =>
    startCopy x { inward := inward, va := t.pair a, sp := t.reg b, width := (t.reg (b + 1)).toNat
                  rows := (t.reg (b + 2)).toNat, pitch := (t.reg (b + 3)).toNat } th s

/-- CPYMC (R191). -/
def multicastOp (x : Nat) (a b : Nat) (th : ThreadRef) (s : State) : Effect :=
  let t := s.thread th
  let n := t.reg (b + 1)
  let sel := t.reg (b + 3)
  let bobb := s.bobbin th.team x
  if badCount n then .trap s codeIllegalOperand 0 (n.setWidth 64)
  else if sel &&& ~~~(0x1F1F#32) ≠ 0 then .trap s codeIllegalOperand 0 (sel.setWidth 64)
  else match badPlaces (t.pair a) (t.reg b) with
    | some e => .trap s codePermission e.1 e.2
    | none =>
      if s.heldAtIssue th .c true ||
          decide (Config.copyLimit ≤ (s.copies.filter fun c => c.core == s.coreOf th).length) then .stall s
      else if bobb.state = .empty then
        let k : CopyShape := { inward := true, va := t.pair a, sp := t.reg b, width := n.toNat }
        .go ((s.putBobbin th.team x (Bobbin.issue .unwinding false 0)).addCopy { s.newCopy th x k with
          multicast := true
          targets := (List.range (bits sel.toNat 12 8 + 1)).map ((t.reg (b + 2)).toNat + ·)
          landBob := bits sel.toNat 4 0 })
      else bobTrap s bobb

/-! ### Moving words -/

def State.findCopy (s : State) (id : Nat) : Option Copy := s.copies.find? (·.id == id)
def State.modCopy (s : State) (id : Nat) (f : Copy → Copy) : State :=
  { s with copies := s.copies.map fun c => if c.id = id then f c else c }

/-- Words may move: the copy runs, earlier overlapping copies are over, and its scratchpad is not in a save area
(R189, R190, R307). -/
def State.copyRuns (s : State) (c : Copy) : Bool :=
  c.failed.isNone && c.parked.isNone && s.allDone c.after && c.move.isNone &&
  (c.multicast || !(s.team c.team).saved)

/-- One word into the team's scratchpad, or into a multicast's block, with STATUS POISON for a poisoned one (R190). -/
def State.landWord (s : State) (c : Copy) (off : Nat) (bs : List Byte) (bad : Bool) : State :=
  let s1 := if bad then s.noteCopy c 4 0 else s
  if c.multicast then
    s1.modCopy c.id fun c => { c with
      buffer := Tab.putAll c.buffer off bs
      poisoned := if bad then (wordRange off bs.length).foldl insertNat c.poisoned else c.poisoned }
  else
    s1.modTeam c.team fun t =>
      let t1 := t.putScratch (c.sp + off) bs
      { t1 with scratchPoison := if bad then (wordRange (c.sp + off) bs.length).foldl insertNat t1.scratchPoison
                                 else t1.scratchPoison }

/-- The copy moves a word whose page it has reached; with the last one the copy's reads are performed, and its
thread's acquire that waited for them acts (R160). An inward copy reads zeros from a non-resident OPT page; an outward
one that writes poisoned words poisons the line; a write to a host that is gone is lost (R187, R190, R305). -/
def State.moveWord (s : State) (c : Copy) (u : Nat) (g : Piece) : State :=
  let e := c.unit u
  let loc := g.2.2.locate g.1
  let done (s : State) : State :=
    ((s.modCopy c.id fun c => { c with moved := insertNat c.moved u }).touch loc).settleHolds c.th
  if c.inward then
    if g.2.2.opt && !g.2.2.res then done (s.landWord c e.2.2 (List.replicate e.2.1 0) false)
    else done (s.landWord c e.2.2 (s.bytesAt loc e.2.1) (s.isPoisoned loc))
  else if s.writeHeld loc then s
  else
    let t := s.team c.team
    let s1 := s.writePlace loc (t.scratchBytes (c.sp + e.2.2) e.2.1)
    let s2 := if (t.scratchBad (c.sp + e.2.2) e.2.1).isSome then
        (match loc with | .dev a => s1.poisonLine (a / 64) | _ => s1) else s1
    done (if s.unreachable loc then s2.noteCopy c 3 0 else s2)

/-- The record of a copy's page fault, from the core that issued the copy (R190, R299). -/
def State.copyPost (s : State) (c : Copy) (va cause : Nat) : FaultPost :=
  { s.issuedPost c.th c.core 1 va (!c.inward) cause 0 with pc := c.pc, tenant := c.tenant }

/-- An earlier copy of the thread has still to move a word of the same place, under whatever alias: words of one place
move in program order (R158). -/
def State.aliasBefore (s : State) (c : Copy) (loc : Loc) : Bool :=
  let word (l : Loc) : Loc := match l with | .dev a => .dev (a / 8) | .host a => .host (a / 8) | .peer k a => .peer k (a / 8)
  s.copies.any fun x => decide (x.id < c.id) && x.th == c.th && x.failed.isNone && x.unitList.any fun u =>
    !x.moved.contains u &&
    (match s.peek x.core x.tenant (x.unit u).1 with
     | some l => word (l.locate (x.unit u).1) == word loc
     | none => false)

def State.copyPageFault (s : State) (c : Copy) (va cause : Nat) : State :=
  let s1 := if (s.tenant c.tenant).fqEn then s.postPageFault (s.copyPost c va cause) else s
  if (s1.tenant c.tenant).fqEn then s1.modCopy c.id fun c => { c with parked := some va }
  else s1.modCopy c.id fun c => { c with failed := some ⟨c.pc, codePageFault, BitVec.ofNat 64 va, BitVec.ofNat 64 cause⟩ }

/-- Moves one 8-byte word of a copy, translating its page as it goes (R189, R190). -/
def State.copyWord (s : State) (id u : Nat) : State :=
  match s.findCopy id with
  | none => s
  | some c =>
    if s.copyRuns c && c.isUnit u && !c.moved.contains u then
      let e := c.unit u
      match s.reach c.core c.tenant { read := c.inward, write := !c.inward } e.1 e.2.1 with
      | .ok segs =>
        (match segs with
         | g :: _ =>
           let loc := g.2.2.locate g.1
           if s.asleep loc || s.aliasBefore c loc then s else s.moveWord c u g
         | [] => s)
      | .walk v => s.requestWalk ⟨coreCluster c.core, c.tenant, v, !c.inward, .copy id⟩
      | .page v cause => s.copyPageFault c v cause
      | .deny code v aux => s.modCopy id fun c => { c with failed := some ⟨c.pc, code, BitVec.ofNat 64 v, aux⟩ }
    else s

/-! ### Retirement, faults, deliveries -/

def State.dropCopy (s : State) (id : Nat) : State := { s with copies := s.copies.filter (·.id != id) }

/-- The bobbin takes the state that retirement gives, and notes a last code (Table 12.5). -/
def State.retireBobbin (s : State) (c : Copy) (code : Nat) : State :=
  match c.bob with
  | some x =>
    let b := s.bobbin c.team x
    s.putBobbin c.team x { b.note code 0 with state := if b.state = .winding then .full else .empty }
  | none => s

/-- A delivery of the copy to the team is still to land. -/
def State.targetsTeam (s : State) (c : Copy) (t : Nat) : Bool :=
  (s.team c.team).grid == (s.team t).grid && (c.targets ++ c.landing).contains (s.team t).index

/-- The copies that land in the team's scratchpad: its own inward ones, and multicasts that are to deliver there. -/
def State.copiesInto (s : State) (t : Nat) : List Nat :=
  (s.copies.filter fun c => (c.team == t && c.inward && !c.multicast) || s.targetsTeam c t).map (·.id)

/-- The copies that an entry forwards: while its team is saved, all that land in it (R307). -/
def State.entryCopies (s : State) (f : ForwardEntry) : List Nat :=
  match f.copies with
  | some ids => ids
  | none => s.copiesInto f.team

/-- The entries of a restored team name its new core: they forward what waits at them (R307). -/
def State.nameCore (s : State) (t : Nat) : State :=
  { s with forwarding := s.forwarding.map fun f =>
      if f.team = t ∧ f.copies.isNone then { f with copies := some (s.copiesInto t) } else f }

/-- A forwarding entry is freed once every copy it forwards has retired (R307). -/
def State.freeForwarding (s : State) : State :=
  { s with forwarding := s.forwarding.filter fun f =>
      match f.copies with
      | none => (Tab.find s.teams f.team).isSome
      | some ids => s.copies.any fun c => ids.contains c.id }

def Copy.retirable (c : Copy) : Bool :=
  c.failed.isNone && c.move.isNone && c.complete && c.targets.isEmpty && c.landing.isEmpty

def State.retireCopy (s : State) (c : Copy) : State :=
  (((s.dropCopy c.id).retireBobbin c 0).freeForwarding).settle

/-- A copy that met PERMISSION or ISOLATION, or whose page fault failed, stops: STATUS FAULT and an imprecise fault of
its group; only the former post a record of kind 5, which names the access as a read or a write: the model's choice
for a read (R190, R301, R303, log 131). -/
def State.stopCopy (s : State) (c : Copy) (r : Report) : State :=
  let s1 := ((s.dropCopy c.id).retireBobbin c 3).freeForwarding
  (if r.code = codePageFault then
    s1.impreciseFault c.th { r with aux := s1.attribution c.team c.pc .c r.aux.toNat }
  else s1.loseAccess c.th c.core (!c.inward) { r with pc := c.pc, aux := 0 } .c).settle

/-- The team of a grid with a linear index, if it is placed and not ended (R252). -/
def State.teamAt (s : State) (grid index : Nat) : Option Nat :=
  (s.teams.find? fun t => t.2.grid == grid && t.2.index == index).map (·.1)

/-- The fate of a delivery that reaches its target (Table 12.6): waits, is dropped with a code, or lands. -/
inductive Fate where
  | waits | dropped (code : Nat) | lands
  deriving DecidableEq, Repr

def State.fate (s : State) (c : Copy) (index : Nat) : Fate :=
  match s.teamAt (s.team c.team).grid index with
  | none => .dropped 1
  | some t =>
    let b := s.bobbin t c.landBob
    if b.state ≠ .winding ∨ b.own = true ∨ b.landing = true then .dropped 1
    else if b.armed ≠ c.width ∨ (s.team t).scratchSize < c.sp + c.width then .dropped 2
    else if (s.team t).saved ∨ s.scratchBusy t c.sp c.width true = true then .waits
    else .lands

/-- The delivery lands whole; the bobbin goes to FULL and, after a BOBFREE that waited, at once to EMPTY. -/
def State.land (s : State) (c : Copy) (team index : Nat) : State :=
  let bs := (List.range c.width).map fun k => Tab.get c.buffer k 0
  let s1 := s.modTeam team fun t =>
    let t1 := t.putScratch c.sp bs
    { t1 with scratchPoison := (c.poisoned.map (· + c.sp / 4)).foldl insertNat t1.scratchPoison }
  let s2 := s1.modCopy c.id fun c => { c with landing := c.landing.filter (· != index) }
  let b := s2.bobbin team c.landBob
  let full := { b with state := .full, landing := false, freeing := false }
  let s3 := s2.putBobbin team c.landBob full
  (if b.freeing then s3.putBobbin team c.landBob { full with state := .empty } else s3).freeForwarding

/-- A delivery step: a landing that has begun lands; one that arrives begins to land, waits, or is dropped. -/
def State.deliverTo (s : State) (c : Copy) (index : Nat) : State :=
  if c.landing.contains index then
    match s.teamAt (s.team c.team).grid index with
    | some t => if (s.team t).saved then s else s.land c t index
    | none => (s.noteCopy c 1 1).modCopy c.id fun c => { c with landing := c.landing.filter (· != index) }
  else if c.complete && c.failed.isNone && c.targets.contains index then
    match s.fate c index, s.teamAt (s.team c.team).grid index with
    | .dropped code, _ => (s.noteCopy c code 1).modCopy c.id fun c => { c with targets := c.targets.filter (· != index) }
    | .lands, some t =>
      (s.modCopy c.id fun c => { c with targets := c.targets.filter (· != index), landing := c.landing ++ [index] }).modTeam
        t fun x => { x with bobbins := Tab.put x.bobbins c.landBob { s.bobbin t c.landBob with landing := true } }
    | _, _ => s
  else s

/-! ### Meanings -/

/-- CPYIN (R187). Starts a copy from memory to scratchpad. -/
def execCpyin (sw : Bool) (x : BitVec 5) (a : BitVec 7) (b : BitVec 7) (s : State) : Host.Outcome State Fault Refusal :=
  runPly (.cpyin sw x a b) (copyOp true x.toNat a.toNat b.toNat) s

/-- CPYOUT (R187). Starts a copy from scratchpad to memory. -/
def execCpyout (sw : Bool) (x : BitVec 5) (a : BitVec 7) (b : BitVec 7) (s : State) : Host.Outcome State Fault Refusal :=
  runPly (.cpyout sw x a b) (copyOp false x.toNat a.toNat b.toNat) s

/-- CPY2D_IN (R188). Starts a copy of rows from memory to scratchpad. -/
def execCpy2dIn (sw : Bool) (x : BitVec 5) (a : BitVec 7) (b : BitVec 7) (s : State) : Host.Outcome State Fault Refusal :=
  runPly (.cpy2dIn sw x a b) (copy2dOp true x.toNat a.toNat b.toNat) s

/-- CPY2D_OUT (R188). Starts a copy of rows from scratchpad to memory. -/
def execCpy2dOut (sw : Bool) (x : BitVec 5) (a : BitVec 7) (b : BitVec 7) (s : State) : Host.Outcome State Fault Refusal :=
  runPly (.cpy2dOut sw x a b) (copy2dOp false x.toNat a.toNat b.toNat) s

/-- CPYMC (R191). Starts a copy of one block to several teams of the grid. -/
def execCpymc (sw : Bool) (x : BitVec 5) (a : BitVec 7) (b : BitVec 7) (s : State) : Host.Outcome State Fault Refusal :=
  runPly (.cpymc sw x a b) (multicastOp x.toNat a.toNat b.toNat) s

/-- BOBSET (R185). Arms a bobbin for a landing. -/
def execBobset (sw : Bool) (x : BitVec 5) (a : BitVec 7) (s : State) : Host.Outcome State Fault Refusal :=
  runPly (.bobset sw x a) (fun th s => bobsetOp x.toNat ((s.thread th).reg a.toNat) th s) s

/-- BOBWAIT (R186). Waits until the bobbin is in the state, or enters it; D ← the status word, class L. -/
def execBobwait (sw : Bool) (d : BitVec 7) (x : BitVec 5) (bst : BobState) (s : State) : Host.Outcome State Fault Refusal :=
  runPly (.bobwait sw d x bst) (bobwaitOp d.toNat x.toNat bst) s

/-- BOBFREE (R184). Frees a bobbin as Table 12.5 gives. -/
def execBobfree (sw : Bool) (x : BitVec 5) (s : State) : Host.Outcome State Fault Refusal :=
  runPly (.bobfree sw x) (bobfreeOp x.toNat) s

/-- BOBQ (R185). D ← the status word at issue. -/
def execBobq (sw : Bool) (d : BitVec 7) (x : BitVec 5) (s : State) : Host.Outcome State Fault Refusal :=
  runPly (.bobq sw d x) (fun th s => .go (s.setReg th d.toNat (s.bobbin th.team x.toNat).word)) s

/-- HOME_SLICE_ACCESS (R158). A part of a request, or an 8-byte word of a copy, is performed at its home slice. -/
def execHomeSliceAccess (id : Nat) (part : Nat) (s : State) : Host.Outcome State Fault Refusal :=
  match s.findReq id with
  | some r =>
    match r.parts[part]? with
    | some x => if s.mayPerform r part false then .next (s.perform r part x) else .next s
    | none => .next s
  | none => .next (s.copyWord id part)

/-- COPY_RETIRE (R187). A copy whose words have moved and whose deliveries are settled retires. -/
def execCopyRetire (id : Nat) (s : State) : Host.Outcome State Fault Refusal :=
  match s.findCopy id with
  | some c => if c.retirable then .next (s.retireCopy c) else .next s
  | none => .next s

/-- COPY_FAULT_STOP (R190). A copy that met a fault it cannot wait for stops. -/
def execCopyFaultStop (id : Nat) (s : State) : Host.Outcome State Fault Refusal :=
  match s.findCopy id with
  | some c =>
    match c.failed with
    | some r => if c.move.isNone then .next (s.stopCopy c r) else .next s
    | none => .next s
  | none => .next s

/-- MULTICAST_DELIVERY (R191). A delivery reaches its target and begins to land, waits or is dropped; one that has
begun lands. -/
def execMulticastDelivery (id : Nat) (target : Nat) (s : State) : Host.Outcome State Fault Refusal :=
  match s.findCopy id with
  | some c => .next (s.deliverTo c target)
  | none => .next s

end Sys2Proof.Machine
end

