-- ==== Sys2Proof/Machine/FloatOps.lean ====
section
/-! DEFINITION. The floating-point, conversion and quantisation instructions (R83 to R99), each over the exact
operations of Float. -/
namespace Sys2Proof.Machine
open Sys2Proof

def f32Result (r : Nat × Raised) : Word × Raised := (BitVec.ofNat 32 r.1, r.2)
def f64Result (r : Nat × Raised) : DWord × Raised := (BitVec.ofNat 64 r.1, r.2)

/-- An FP32 operand, flushed in an FTZ variant (R47). -/
def Thread.f32 (t : Thread) (ftz : Bool) (k : BitVec 7) : Num := readFlushed fp32 ftz (t.reg k.toNat).toNat
def Thread.f64 (t : Thread) (k : BitVec 7) : Num := readNum fp64 (t.pair k.toNat).toNat

/-- Lane 0 or 1 of a packed FP16 register (R92). -/
def Thread.f16 (t : Thread) (ftz : Bool) (k : BitVec 7) (lane : Nat) : Num :=
  readFlushed fp16 ftz ((t.reg k.toNat).toNat / 2 ^ (16 * lane) % 65536)

/-- Both lanes computed apart, their flags ORed (R92). -/
def halfPair (f : Nat → Nat × Raised) : Word × Raised :=
  (BitVec.ofNat 32 ((f 1).1 * 65536 + (f 0).1), (f 0).2.or (f 1).2)

/-- A floating-point source of any format; FP16 and BF16 read bits [15:0] (R93). -/
def Thread.floatBits (t : Thread) (x : Fmt) (k : BitVec 7) : Nat :=
  match x with
  | .f64 => (t.pair k.toNat).toNat
  | .f32 => (t.reg k.toNat).toNat
  | _ => (t.reg k.toNat).toNat % 65536

/-- An integer source of any type: the low bits of a register, or a pair (R94). -/
def Thread.intValue (t : Thread) (y : IntTy) (k : BitVec 7) : Int :=
  let x := if y.width = 64 then (t.pair k.toNat).toNat else (t.reg k.toNat).toNat % 2 ^ y.width
  if y.signed then sextNat y.width x else x

/-- Writes a result of one or two registers and ORs its flags. -/
def sizedOp (n : Nat) (d : BitVec 7) (f : Thread → DWord × Raised) (th : ThreadRef) (s : State) : Effect :=
  let r := f (s.thread th)
  .go ((if n = 2 then s.setPair th d.toNat r.1 else s.setReg th d.toNat (r.1.setWidth 32)).raise th r.2)

/-! ### Format slots (R56, R58) and quantisation (R96 to R99) -/

/-- A format-slot record, read (Table 4.6). -/
structure SlotRec where
  fmt : Nat
  gsz : Nat
  sgn : Bool
  rnd : Rm
  sate : Bool
  zpe : Bool
  deriving DecidableEq, Repr

def readSlot (w : Word) : SlotRec :=
  { fmt := bits w.toNat 23 20
    gsz := bits w.toNat 19 18
    sgn := w.getLsbD 15
    rnd := Rm.ofCode (w.extractLsb' 13 2)
    sate := w.getLsbD 12
    zpe := w.getLsbD 11 }

/-- Width of the elements of an INT4 or INT8 slot. -/
def SlotRec.elem (r : SlotRec) : Nat := if r.fmt = 4 then 4 else 8
def SlotRec.qmin (r : SlotRec) : Int := if r.sgn then -(2 ^ (r.elem - 1)) else 0
def SlotRec.qmax (r : SlotRec) : Int := if r.sgn then 2 ^ (r.elem - 1) - 1 else 2 ^ r.elem - 1

/-- Runs an instruction through a slot of format INT4 or INT8; any other slot is illegal (R58, R96). -/
def quantOp (f : BitVec 3) (body : SlotRec → ThreadRef → State → Effect) (th : ThreadRef) (s : State) : Effect :=
  let r := readSlot (s.slot th f.toNat)
  if r.fmt = 4 ∨ r.fmt = 5 then body r th s else .trap s codeIllegalOperand 0 (f.setWidth 64)

/-- An element of width `w` read with or without sign (R42). -/
def readElem (sgn : Bool) (w x : Nat) : Int := if sgn then sextNat w x else (x % 2 ^ w : Nat)

/-- The FP16 scale of a group: one that overflows with SATE 0 is +∞ under every RND (R97). -/
def scaleRound (r : SlotRec) (n d : Nat) (e : Int) : Nat × Raised :=
  let x := Ctx.finish ⟨fp16, r.rnd, false, r.sate⟩ false n d e
  (if x.2.of && !r.sate then 0x7C00 else x.1, x.2)

/-- QGRP (R97): the group word of the minimum `a` and the maximum `b`. -/
def groupWord (r : SlotRec) (a b : Num) : Word × Raised :=
  match a, b with
  | .fin sa ma ea, .fin sb mb eb =>
    let lo : Nat := if sa then ma else 0
    let hi : Nat := if sb then 0 else mb
    let span := exactSum [(false, lo, ea), (false, hi, eb)]
    let mag := if (Num.fin false lo ea).order (.fin false hi eb) < 0 then (hi, eb) else (lo, ea)
    let x := if r.zpe then scaleRound r span.1.natAbs (2 ^ r.elem - 1) span.2
             else if r.sgn then scaleRound r mag.1 r.qmax.natAbs mag.2
             else scaleRound r hi r.qmax.natAbs eb
    match (if r.zpe then readNum fp16 x.1 else .inf false) with
    | .fin _ ms es =>
      if ms = 0 then (BitVec.ofNat 32 x.1, x.2)
      else
        let z := r.qmin - (roundInt .rne true lo ms (ea - es)).1
        let y := max r.qmin (min r.qmax z)
        ((BitVec.ofInt 32 (y % 2 ^ r.elem * 65536) ||| BitVec.ofNat 32 x.1), x.2.or { sat := decide (y ≠ z) })
    | _ => (BitVec.ofNat 32 x.1, x.2)
  | _, _ => (0x7E00, { nv := true })

/-- The scale and zero point of a group word (Table 6.5). -/
def groupScale (g : Word) : Num := readNum fp16 (g.toNat % 65536)
def groupZero (r : SlotRec) (g : Word) : Int := if r.zpe then readElem r.sgn r.elem (bits g.toNat 23 16) else 0

/-- One element of QPACK (R98). -/
def packElem (r : SlotRec) (g : Word) (x : Num) : Int × Raised :=
  let z := groupZero r g
  match groupScale g, x with
  | .fin ss ms es, .fin sx mx ex =>
    if ms = 0 then (z, {})
    else
      let num : Int := shiftUp mx (ex - es)
      let den := shiftUp ms (es - ex)
      let tot : Int := (if sx ^^ ss then -num else num) + z * den
      let y := roundInt r.rnd (decide (tot < 0)) tot.natAbs den 0
      let q := max r.qmin (min r.qmax y.1)
      if y.1 = q then (q, { nx := y.2 })
      else if r.sate then (q, { nx := y.2, sat := true })
      else (y.1, { nx := y.2 })
  | .fin ss ms _, .inf sx =>
    if ms = 0 then (z, {}) else (if sx = ss then r.qmax else r.qmin, { sat := true })
  | _, _ => (z, { nv := true })

/-- QPACK (R98): the packed word and the flags of all elements. -/
def packWord (r : SlotRec) (g : Word) (xs : List Word) : Word × Raised :=
  ((List.range (32 / r.elem)).foldl (fun acc j =>
    let e := packElem r g (readNum fp32 (xs.getD j 0).toNat)
    (acc.1 + (e.1 % 2 ^ r.elem).toNat * 2 ^ (r.elem * j), Raised.or acc.2 e.2)) (0, ({} : Raised))) |>
  fun p => (BitVec.ofNat 32 p.1, p.2)

/-- One element of QUNPK (R99). -/
def unpackElem (r : SlotRec) (g : Word) (q : Int) : Word × Raised :=
  let z := groupZero r g
  match groupScale g with
  | .fin ss ms es =>
    if q = z ∨ ms = 0 then (0, {})
    else (BitVec.ofNat 32 (ctx32.finish (ss ^^ decide (q < z)) ((q - z).natAbs * ms) 1 es).1, {})
  | _ => (0x7FC00000, { nv := true })

def unpackWords (r : SlotRec) (g a : Word) : List (Word × Raised) :=
  (List.range (32 / r.elem)).map fun j => unpackElem r g (readElem r.sgn r.elem (a.toNat / 2 ^ (r.elem * j) % 2 ^ r.elem))

/-- FADD (R84). Round of A + B. -/
def execFadd (sw : Bool) (d : BitVec 7) (a : BitVec 7) (b : BitVec 7) (z : Bool) (r : Rm) (s : State) : Host.Outcome State Fault Refusal :=
  runPly (.fadd sw d a b z r) (flagOp d fun u => f32Result ((⟨fp32, r, z, false⟩ : Ctx).add (u.f32 z a) (u.f32 z b))) s

/-- FSUB (R84). Round of A − B. -/
def execFsub (sw : Bool) (d : BitVec 7) (a : BitVec 7) (b : BitVec 7) (z : Bool) (r : Rm) (s : State) : Host.Outcome State Fault Refusal :=
  runPly (.fsub sw d a b z r) (flagOp d fun u => f32Result ((⟨fp32, r, z, false⟩ : Ctx).add (u.f32 z a) (u.f32 z b).negate)) s

/-- FMUL (R84). Round of A × B. -/
def execFmul (sw : Bool) (d : BitVec 7) (a : BitVec 7) (b : BitVec 7) (z : Bool) (r : Rm) (s : State) : Host.Outcome State Fault Refusal :=
  runPly (.fmul sw d a b z r) (flagOp d fun u => f32Result ((⟨fp32, r, z, false⟩ : Ctx).mul (u.f32 z a) (u.f32 z b))) s

/-- FFMA (R84). Round of A × B + D. -/
def execFfma (sw : Bool) (d : BitVec 7) (a : BitVec 7) (b : BitVec 7) (z : Bool) (r : Rm) (s : State) : Host.Outcome State Fault Refusal :=
  runPly (.ffma sw d a b z r) (flagOp d fun u => f32Result ((⟨fp32, r, z, false⟩ : Ctx).fma (u.f32 z a) (u.f32 z b) (u.f32 z d))) s

/-- FDIV (R84). Round of A / B. -/
def execFdiv (sw : Bool) (d : BitVec 7) (a : BitVec 7) (b : BitVec 7) (z : Bool) (r : Rm) (s : State) : Host.Outcome State Fault Refusal :=
  runPly (.fdiv sw d a b z r) (flagOp d fun u => f32Result ((⟨fp32, r, z, false⟩ : Ctx).div (u.f32 z a) (u.f32 z b))) s

/-- FMIN (R86). minimumNumber of A and B. -/
def execFmin (sw : Bool) (d : BitVec 7) (a : BitVec 7) (b : BitVec 7) (s : State) : Host.Outcome State Fault Refusal :=
  runPly (.fmin sw d a b) (flagOp d fun u => f32Result (minMaxBits fp32 false (u.reg a.toNat).toNat (u.reg b.toNat).toNat)) s

/-- FMAX (R86). maximumNumber of A and B. -/
def execFmax (sw : Bool) (d : BitVec 7) (a : BitVec 7) (b : BitVec 7) (s : State) : Host.Outcome State Fault Refusal :=
  runPly (.fmax sw d a b) (flagOp d fun u => f32Result (minMaxBits fp32 true (u.reg a.toNat).toNat (u.reg b.toNat).toNat)) s

/-- FSET (R87). p ← A cond B in FP32. -/
def execFset (sw : Bool) (c : FCond) (p : BitVec 3) (a : BitVec 7) (b : BitVec 7) (z : Bool) (s : State) : Host.Outcome State Fault Refusal :=
  runPly (.fset sw c p a b z) (flagPredOp p fun u => fcompare c (u.f32 z a) (u.f32 z b)) s

/-- DSET (R87). p ← A cond B in FP64. -/
def execDset (sw : Bool) (c : FCond) (p : BitVec 3) (a : BitVec 7) (b : BitVec 7) (s : State) : Host.Outcome State Fault Refusal :=
  runPly (.dset sw c p a b) (flagPredOp p fun u => fcompare c (u.f64 a) (u.f64 b)) s

/-- FSEL (R88). D ← A where p[c] holds, else B, bit for bit. -/
def execFsel (sw : Bool) (d : BitVec 7) (a : BitVec 7) (b : BitVec 7) (c : BitVec 3) (s : State) : Host.Outcome State Fault Refusal :=
  runPly (.fsel sw d a b c) (regOp d fun u => if u.pred c.toNat then u.reg a.toNat else u.reg b.toNat) s

/-- FRCP (R89). Round(FP32, RNE) of the function at A, with the special inputs of Table 6.3. -/
def execFrcp (sw : Bool) (d : BitVec 7) (a : BitVec 7) (s : State) : Host.Outcome State Fault Refusal :=
  runPly (.frcp sw d a) (flagOp d fun u => f32Result (frcp (u.f32 false a))) s

/-- FRSQ (R89). Round(FP32, RNE) of the function at A, with the special inputs of Table 6.3. -/
def execFrsq (sw : Bool) (d : BitVec 7) (a : BitVec 7) (s : State) : Host.Outcome State Fault Refusal :=
  runPly (.frsq sw d a) (flagOp d fun u => f32Result (frsq (u.f32 false a))) s

/-- FSQRT (R89). Round(FP32, RNE) of the function at A, with the special inputs of Table 6.3. -/
def execFsqrt (sw : Bool) (d : BitVec 7) (a : BitVec 7) (s : State) : Host.Outcome State Fault Refusal :=
  runPly (.fsqrt sw d a) (flagOp d fun u => f32Result (fsqrt (u.f32 false a))) s

/-- FEXP2 (R89). Round(FP32, RNE) of the function at A, with the special inputs of Table 6.3. -/
def execFexp2 (sw : Bool) (d : BitVec 7) (a : BitVec 7) (s : State) : Host.Outcome State Fault Refusal :=
  runPly (.fexp2 sw d a) (flagOp d fun u => f32Result (fexp2 (u.f32 false a))) s

/-- FLOG2 (R89). Round(FP32, RNE) of the function at A, with the special inputs of Table 6.3. -/
def execFlog2 (sw : Bool) (d : BitVec 7) (a : BitVec 7) (s : State) : Host.Outcome State Fault Refusal :=
  runPly (.flog2 sw d a) (flagOp d fun u => f32Result (flog2 (u.f32 false a))) s

/-- FSINP (R89). Round(FP32, RNE) of the function at A, with the special inputs of Table 6.3. -/
def execFsinp (sw : Bool) (d : BitVec 7) (a : BitVec 7) (s : State) : Host.Outcome State Fault Refusal :=
  runPly (.fsinp sw d a) (flagOp d fun u => f32Result (fsinp (u.f32 false a))) s

/-- FCOSP (R89). Round(FP32, RNE) of the function at A, with the special inputs of Table 6.3. -/
def execFcosp (sw : Bool) (d : BitVec 7) (a : BitVec 7) (s : State) : Host.Outcome State Fault Refusal :=
  runPly (.fcosp sw d a) (flagOp d fun u => f32Result (fcosp (u.f32 false a))) s

/-- FRND (R90). A rounded to an integral value in the mode. -/
def execFrnd (sw : Bool) (d : BitVec 7) (a : BitVec 7) (r : Rm) (s : State) : Host.Outcome State Fault Refusal :=
  runPly (.frnd sw d a r) (flagOp d fun u => f32Result (frnd r (u.reg a.toNat).toNat)) s

/-- DADD (R91). Round of A + B. -/
def execDadd (sw : Bool) (d : BitVec 7) (a : BitVec 7) (b : BitVec 7) (r : Rm) (s : State) : Host.Outcome State Fault Refusal :=
  runPly (.dadd sw d a b r) (flagPairOp d fun u => f64Result ((⟨fp64, r, false, false⟩ : Ctx).add (u.f64 a) (u.f64 b))) s

/-- DMUL (R91). Round of A × B. -/
def execDmul (sw : Bool) (d : BitVec 7) (a : BitVec 7) (b : BitVec 7) (r : Rm) (s : State) : Host.Outcome State Fault Refusal :=
  runPly (.dmul sw d a b r) (flagPairOp d fun u => f64Result ((⟨fp64, r, false, false⟩ : Ctx).mul (u.f64 a) (u.f64 b))) s

/-- DFMA (R91). Round of A × B + D. -/
def execDfma (sw : Bool) (d : BitVec 7) (a : BitVec 7) (b : BitVec 7) (r : Rm) (s : State) : Host.Outcome State Fault Refusal :=
  runPly (.dfma sw d a b r) (flagPairOp d fun u => f64Result ((⟨fp64, r, false, false⟩ : Ctx).fma (u.f64 a) (u.f64 b) (u.f64 d))) s

/-- HPADD (R92). Round of A + B in each lane. -/
def execHpadd (sw : Bool) (d : BitVec 7) (a : BitVec 7) (b : BitVec 7) (z : Bool) (r : Rm) (s : State) : Host.Outcome State Fault Refusal :=
  runPly (.hpadd sw d a b z r) (flagOp d fun u => halfPair fun l => (⟨fp16, r, z, false⟩ : Ctx).add (u.f16 z a l) (u.f16 z b l)) s

/-- HPMUL (R92). Round of A × B in each lane. -/
def execHpmul (sw : Bool) (d : BitVec 7) (a : BitVec 7) (b : BitVec 7) (z : Bool) (r : Rm) (s : State) : Host.Outcome State Fault Refusal :=
  runPly (.hpmul sw d a b z r) (flagOp d fun u => halfPair fun l => (⟨fp16, r, z, false⟩ : Ctx).mul (u.f16 z a l) (u.f16 z b l)) s

/-- HPFMA (R92). Round of A × B + D in each lane. -/
def execHpfma (sw : Bool) (d : BitVec 7) (a : BitVec 7) (b : BitVec 7) (z : Bool) (r : Rm) (s : State) : Host.Outcome State Fault Refusal :=
  runPly (.hpfma sw d a b z r) (flagOp d fun u => halfPair fun l => (⟨fp16, r, z, false⟩ : Ctx).fma (u.f16 z a l) (u.f16 z b l) (u.f16 z d l)) s

/-- F2I (R93). D ← the value of A rounded to the integer type. -/
def execF2i (sw : Bool) (d : BitVec 7) (a : BitVec 7) (x : Fmt) (t : IntTy) (r : Rm) (s : State) : Host.Outcome State Fault Refusal :=
  runPly (.f2i sw d a x t r) (sizedOp t.regs d fun u =>
    let v := toInteger t r (readNum (fmtSpec x) (u.floatBits x a))
    (BitVec.ofInt 64 v.1, v.2)) s

/-- I2F (R94). D ← Round of the integer A. -/
def execI2f (sw : Bool) (d : BitVec 7) (a : BitVec 7) (x : Fmt) (t : IntTy) (r : Rm) (s : State) : Host.Outcome State Fault Refusal :=
  runPly (.i2f sw d a x t r) (sizedOp x.regs d fun u => f64Result ((⟨fmtSpec x, r, false, false⟩ : Ctx).ofInt (u.intValue t a))) s

/-- F2F (R95). D ← Round of the value of A in the destination format. -/
def execF2f (sw : Bool) (d : BitVec 7) (a : BitVec 7) (x : Fmt) (y : Fmt) (z : Bool) (r : Rm) (s : State) : Host.Outcome State Fault Refusal :=
  runPly (.f2f sw d a x y z r) (sizedOp y.regs d fun u => f64Result
    ((⟨fmtSpec y, r, z && y != .f64, false⟩ : Ctx).convert (readFlushed (fmtSpec x) (z && x != .f64) (u.floatBits x a)))) s

/-- QGRP (R97). D ← the group word of the minimum A and the maximum B. -/
def execQgrp (sw : Bool) (d : BitVec 7) (a : BitVec 7) (b : BitVec 7) (f : BitVec 3) (s : State) : Host.Outcome State Fault Refusal :=
  runPly (.qgrp sw d a b f) (quantOp f fun r => flagOp d fun u => groupWord r (u.f32 false a) (u.f32 false b)) s

/-- QPACK (R98). D ← the packed elements of the octet A under the group word B. -/
def execQpack (sw : Bool) (d : BitVec 7) (a : BitVec 7) (b : BitVec 7) (f : BitVec 3) (s : State) : Host.Outcome State Fault Refusal :=
  runPly (.qpack sw d a b f) (quantOp f fun r => flagOp d fun u => packWord r (u.reg b.toNat) (u.words a.toNat 8)) s

/-- QUNPK (R99). The octet D ← the elements of A under the group word B. -/
def execQunpk (sw : Bool) (d : BitVec 7) (a : BitVec 7) (b : BitVec 7) (f : BitVec 3) (s : State) : Host.Outcome State Fault Refusal :=
  runPly (.qunpk sw d a b f) (quantOp f fun r th s =>
    let u := s.thread th
    let v := unpackWords r (u.reg b.toNat) (u.reg a.toNat)
    .go ((s.setWords th d.toNat (v.map (·.1))).raise th (v.foldl (fun x e => Raised.or x e.2) {}))) s

end Sys2Proof.Machine
end

