-- ==== Sys2Proof/Machine/Sync.lean ====
section
/-! DEFINITION. Team barriers, GSYNC, WAITV with its watches, the watchdog, and signals to other teams (R243 to
R253). The checks of a barrier and of a rendezvous stand in Ops, where exits use them too. -/
namespace Sys2Proof.Machine
open Sys2Proof

/-! ### Barriers -/

def Thread.hasArrived (t : Thread) (b : Nat) : Bool := t.arrived.getLsbD b

/-- The thread's arrival is counted (R245). A team-scope release on path P waits for nothing here: the core's port and
L1 take every write at issue (Table 11.2). -/
def State.countArrival (s : State) (th : ThreadRef) (b : Nat) : State :=
  let x := s.barrier th.team b
  (s.modThread th fun t => { t with arrived := t.arrived ||| (1#16 <<< b) }).setBarrier th.team b
    { x with arr := x.arr + 1 }

/-- BAR.SYNC: arrives, then blocks until the phase completes; an earlier arrival still standing is waited for first. An
arrival is a write on path P: it waits for the thread's earlier acquires and fences (R247, R152). -/
def barSyncOp (b : Nat) (th : ThreadRef) (s : State) : Effect :=
  if s.heldAtIssue th .p true then .stall s
  else if (s.thread th).hasArrived b then .block s (.barrier b true true)
  else .done (((s.countArrival th b).block th (.barrier b true false)).checkBarrier th.team b)

def barArriveOp (b : Nat) (th : ThreadRef) (s : State) : Effect :=
  if s.heldAtIssue th .p true then .stall s
  else if (s.thread th).hasArrived b then .block s (.barrier b true true)
  else .go ((s.countArrival th b).checkBarrier th.team b)

def barWaitOp (b : Nat) (th : ThreadRef) (s : State) : Effect :=
  if (s.thread th).hasArrived b then .block s (.barrier b false false) else .go s

/-- BARSET's operand: A[10:0] from 1 to 1,024, A[15:11] and A[31:20] zero (R245). -/
def barsetBad (a : Word) : Bool :=
  bits a.toNat 10 0 == 0 || decide (1024 < bits a.toNat 10 0) || bits a.toNat 15 11 != 0 || bits a.toNat 31 20 != 0

def barsetOp (b : Nat) (a : Word) (th : ThreadRef) (s : State) : Effect :=
  if barsetBad a then .trap s codeIllegalOperand 0 (a.setWidth 64)
  else
    let x := s.barrier th.team b
    .go ((s.setBarrier th.team b { x with
      exp := bits a.toNat 10 0, mask := BitVec.ofNat 4 (bits a.toNat 19 16), defer := 0 }).checkBarrier th.team b)

/-! ### GSYNC -/

/-- GSYNC (R248): the thread's own bit counts as set. -/
def gsyncOp (m : DWord) (th : ThreadRef) (s : State) : Effect := .block s (.gsync (m ||| (1#64 <<< th.lane)))

/-- A GSYNC's ply: its threads all stand at the rendezvous before it is checked for release (R248). -/
def runGsync (i : Instr) (mask : Thread → DWord) (s : State) : Host.Outcome State Fault Refusal :=
  match runPly i (fun th s => gsyncOp (mask (s.thread th)) th s) s with
  | .next t => .next ((match s.ply with | some p => p.members | none => []).foldl (fun s th => s.tryGsync th) t)
  | r => r

/-! ### WAITV -/

/-- The comparison of WAITV on the word read (R249). -/
def waitHolds (c : ICond) (signed : Bool) (w : Width) (x b : DWord) : Bool :=
  match w with
  | .w32 => icompare c signed (x.setWidth 32) (b.setWidth 32)
  | .w64 => icompare c signed x b

def State.wordAt (s : State) (l : Loc) (w : Width) : DWord := BitVec.ofNat 64 (leValue (s.bytesAt l w.bytes))

/-- Home slice of a place among the package's, for its watches; none for a place this package does not home. -/
def watchSlice : Loc → Option Nat
  | .dev a => some (placeDie a * 48 + homeSlice (dieAddr a))
  | _ => none

/-- Watches a slice holds (R250). -/
def State.watches (s : State) (slice : Nat) : Nat :=
  (s.allRefs.filter fun th =>
    match (s.thread th).wait with
    | .waitv _ true k _ _ _ _ => k == slice && (s.thread th).status == .blocked
    | _ => false).length

/-- A watch on the line: a free one of its slice, or the peer's; a host line has none (R250). -/
def State.placeWatch (s : State) (l : Loc) : Bool × Nat :=
  match l with
  | .peer _ _ => (true, 0)
  | l =>
    match watchSlice l with
    | some k => (decide (s.watches k < Config.sliceWatches), k)
    | none => (false, 0)

/-- Some request of the core to the line is still to be performed: a home-slice read of the thread waits (R158). -/
def State.lineBusy (s : State) (core : Nat) (line : Loc) : Bool :=
  s.reqs.any fun r => r.path == .p && r.core == core && r.touches line

/-- The read of WAITV's loop at its place: done when it holds, otherwise the thread blocks (R249). It compares the bytes
that stand there, be the line poisoned or its link down: the model's choice (log 163). -/
def waitvRead (ea : DWord) (c : ICond) (signed : Bool) (w : Width) (b : DWord) (l : Loc) (th : ThreadRef) (s : State) :
    Effect :=
  let s1 := s.dropLine (s.coreOf th) l.line
  if waitHolds c signed w (s.wordAt l w) b then .go (s1.acquire th 4 [])
  else
    let p := s.placeWatch l
    .block s1 (.waitv ea p.1 p.2 c signed w b)

def waitvOp (ea : DWord) (c : ICond) (signed : Bool) (w : Width) (b : DWord) (th : ThreadRef) (s : State) : Effect :=
  if s.heldAtIssue th .p false then .stall s
  else match addressBad ea w.bytes with
    | some aux => .trap s codePermission ea aux
    | none =>
      withPages th ea.toNat w.bytes { read := true, resident := true } s preciseBad fun segs s =>
        let l := placeAt segs ea.toNat
        if s.lineBusy (s.coreOf th) l.line || !s.allDone (s.acquireWaits th 4 (some l)) then .stall s
        else if s.asleep l then .stall (s.want [l])
        else waitvRead ea c signed w b l th s

/-- The place a blocked WAITV reads now: its page may have moved (R290). -/
def State.waitPlace (s : State) (th : ThreadRef) (ea : DWord) : Option Loc :=
  match (s.seenLeaf th ea).2 with
  | some l => if l.r && !(l.opt && !l.res) then some (l.locate ea.toNat) else none
  | none => none

/-- A blocked waiter would now read a value that ends its wait, or has lost its page. -/
def State.waitEnds (s : State) (th : ThreadRef) : Bool :=
  match (s.thread th).wait with
  | .waitv ea _ _ c signed w b =>
    match s.waitPlace th ea with
    | some l => waitHolds c signed w (s.wordAt l w) b && !s.lineBusy (s.coreOf th) l.line
    | none => true
  | _ => false

/-- A waiter reads its word again: its wait ends, or goes on; without its page it issues again (R249, R250). -/
def State.rereadWait (s : State) (th : ThreadRef) : State :=
  match (s.thread th).wait with
  | .waitv ea _ _ c signed w b =>
    s.awake (s.quietReads th ea ++ (s.waitPlace th ea).toList) fun s =>
      let s1 := (s.seenLeaf th ea).1
      match s.waitPlace th ea with
      | some l => if waitHolds c signed w (s.wordAt l w) b then (s1.acquire th 4 []).advance th else s1
      | none => s1.wake th
  | _ => s

def State.waitWatched (s : State) (th : ThreadRef) : Option Bool :=
  match (s.thread th).wait with
  | .waitv _ k _ _ _ _ _ => if (s.thread th).status = .blocked ∧ (s.team th.team).saved = false then some k else none
  | _ => none

/-- Cycles the thread has been blocked (R251). -/
def State.blockedFor (s : State) (th : ThreadRef) : Nat := s.cyclesOf (s.coreOf th) - (s.thread th).blockedAt

/-! ### The watchdog -/

/-- Whether the watchdog of a blocked thread has expired (R251). -/
def State.stallDue (s : State) (th : ThreadRef) : Bool :=
  let w := (s.gridOf th.team).wdog
  decide (w ≠ 0) && (s.thread th).status == .blocked && !(s.team th.team).saved &&
  decide (w * 1024 ≤ s.blockedFor th) &&
  (match (s.thread th).wait with
   | .barrier _ _ _ => true
   | .gsync _ => true
   | .waitv _ _ _ _ _ _ _ => true
   | .bobwait _ _ _ => true
   | _ => false)

/-- BARRIER_STALL in one thread, precise at its waiting instruction; a thread that its team's stop has abandoned takes
none (R298). -/
def State.stallTrap (s : State) (addr aux : DWord) (th : ThreadRef) : State :=
  if (s.thread th).status = .exited then s
  else s.takeTrap th .precise ⟨(s.thread th).pc, codeBarrierStall, addr, aux⟩ (s.thread th).pc

/-- The arrival of a thread blocked at BAR.SYNC is withdrawn. -/
def State.withdraw (s : State) (b : Nat) (th : ThreadRef) : State :=
  match (s.thread th).wait with
  | .barrier _ true false =>
    let x := s.barrier th.team b
    (s.modThread th fun t => { t with arrived := t.arrived &&& ~~~(1#16 <<< b) }).setBarrier th.team b
      { x with arr := x.arr - 1 }
  | _ => s

/-- The watchdog ends a wait (R251). -/
def State.expire (s : State) (th : ThreadRef) : State :=
  match (s.thread th).wait with
  | .barrier b _ _ =>
    let refs := ((s.team th.team).refs th.team).filter fun u =>
      (s.thread u).status == .blocked && (s.thread u).wait.onBarrier b
    refs.foldl (fun s u => s.stallTrap 0 (BitVec.ofNat 64 b) u) (refs.foldl (fun s u => s.withdraw b u) s)
  | .gsync _ => (s.rendezvous th).foldl (fun s u => s.stallTrap 0 0x100 u) s
  | .waitv ea _ _ _ _ _ _ => s.stallTrap ea 0x200 th
  | .bobwait b _ _ => s.stallTrap 0 (BitVec.ofNat 64 (0x300 + b)) th
  | _ => s

/-! ### Signals -/

def Grid.size (g : Grid) : Nat := g.nx * g.ny * g.nz

/-- The locator's entry for a team of a grid; none beyond the grid (R252). -/
def State.locator (s : State) (grid index : Nat) : Option Locator :=
  if index < (s.grid grid).size then some (Tab.get (Tab.get s.locators grid []) index .notPlaced) else none

def State.setLocator (s : State) (grid index : Nat) (x : Locator) : State :=
  { s with locators := Tab.put s.locators grid (Tab.put (Tab.get s.locators grid []) index x) }

/-- SIGNAL waits as a release at device scope, then at issue until its status is written (R253). -/
def signalOp (b : Nat) (a : Nat) (th : ThreadRef) (s : State) : Effect :=
  let t := s.thread th
  if t.waitOp.isSome then .stall s
  else if s.heldAtIssue th .p true then .stall s
  else
    .stall ((({ s with signals := s.signals ++ [Signal.mk th (s.team th.team).grid (t.reg a).toNat b (a + 1)
      (s.releaseWaits th 3)] }).modThread th fun t => { t with waitOp := some s.nextId }).bump)

def State.signalOf (s : State) (th : ThreadRef) : Option Signal := s.signals.find? fun x => x.th == th

/-- The signal may reach its entry: its release is over and the entry is not between states. -/
def State.signalReady (s : State) (x : Signal) : Bool :=
  s.allDone x.waits && s.locator x.grid x.index != some .saving && s.locator x.grid x.index != some .restoring

/-- An arrival by signal. -/
def State.signalArrive (s : State) (team b : Nat) : State :=
  let x := s.barrier team b
  (s.setBarrier team b { x with arr := x.arr + 1, sig := true }).checkBarrier team b

/-- The signal's status, and the state it leaves (R253). -/
def State.applySignal (s : State) (x : Signal) : State :=
  let s0 := { s with signals := s.signals.filter (· != x) }
  let fin (s : State) (status : Word) : State := (s.setReg x.th x.dst status).advanceLive x.th
  match s.locator x.grid x.index, s.teamAt x.grid x.index with
  | some (.running _), some t => fin (s0.signalArrive t x.barrier) 0
  | some .saved, some t => fin (s0.signalArrive t x.barrier) 1
  | _, _ => fin s0 2

/-! ### Meanings -/

/-- BAR_SYNC (R245). Arrives at the barrier and blocks until its phase completes. -/
def execBarSync (sw : Bool) (x : BitVec 4) (s : State) : Host.Outcome State Fault Refusal :=
  runPly (.barSync sw x) (barSyncOp x.toNat) s

/-- BAR_ARRIVE (R245). Arrives at the barrier and goes on. -/
def execBarArrive (sw : Bool) (x : BitVec 4) (s : State) : Host.Outcome State Fault Refusal :=
  runPly (.barArrive sw x) (barArriveOp x.toNat) s

/-- BAR_WAIT (R245). Blocks while the thread's arrival stands in the phase. -/
def execBarWait (sw : Bool) (x : BitVec 4) (s : State) : Host.Outcome State Fault Refusal :=
  runPly (.barWait sw x) (barWaitOp x.toNat) s

/-- BARSET (R245). Sets the barrier's expected count and exit mask. -/
def execBarset (sw : Bool) (x : BitVec 4) (a : BitVec 7) (s : State) : Host.Outcome State Fault Refusal :=
  runPly (.barset sw x a) (fun th s => barsetOp x.toNat ((s.thread th).reg a.toNat) th s) s

/-- GSYNC (R248). Blocks until every live lane that the pair names stands at the GSYNC. -/
def execGsync (sw : Bool) (a : BitVec 7) (s : State) : Host.Outcome State Fault Refusal :=
  runGsync (.gsync sw a) (fun t => t.pair a.toNat) s

/-- GSYNC_IMM (R248). Blocks until every live lane that the immediate names stands at the GSYNC. -/
def execGsyncImm (sw : Bool) (m : BitVec 14) (s : State) : Host.Outcome State Fault Refusal :=
  runGsync (.gsyncImm sw m) (fun _ => m.signExtend 64) s

/-- WAITV (R249). Blocks until the memory word satisfies the condition; an acquire at system scope. -/
def execWaitv (sw : Bool) (c : ICond) (g : Bool) (a : BitVec 7) (b : BitVec 7) (w : Width) (s : State) : Host.Outcome State Fault Refusal :=
  runPly (.waitv sw c g a b w) (fun th s =>
    let u := s.thread th
    waitvOp (u.pair a.toNat) c g w (u.value w b.toNat) th s) s

/-- SIGNAL (R253). Sends an arrival to a barrier of another team of the grid; vA+1 ← its status. -/
def execSignal (sw : Bool) (x : BitVec 4) (a : BitVec 7) (s : State) : Host.Outcome State Fault Refusal :=
  runPly (.signal sw x a) (signalOp x.toNat a.toNat) s

/-- WAITV_WAKE (R250). A write on a watched line makes its waiter read again. -/
def execWaitvWake (th : ThreadRef) (s : State) : Host.Outcome State Fault Refusal :=
  if s.waitWatched th = some true ∧ s.waitEnds th = true then .next (s.rereadWait th) else .next s

/-- WAITV_POLL (R250). A waiter without a watch reads again, from 1,024 cycles of its core after it blocked. -/
def execWaitvPoll (th : ThreadRef) (s : State) : Host.Outcome State Fault Refusal :=
  if s.waitWatched th = some false ∧ s.waitEnds th = true ∧ 1024 ≤ s.blockedFor th then .next (s.rereadWait th)
  else .next s

/-- BARRIER_STALL (R251). The watchdog ends a wait with BARRIER_STALL. -/
def execBarrierStall (th : ThreadRef) (s : State) : Host.Outcome State Fault Refusal :=
  if s.stallDue th then .next (s.expire th) else .next s

/-- SIGNAL_APPLY (R253). A signal reaches its target's entry and counts as an arrival, or finds it gone. -/
def execSignalApply (th : ThreadRef) (s : State) : Host.Outcome State Fault Refusal :=
  match s.signalOf th with
  | some x => if s.signalReady x then .next (s.applySignal x) else .next s
  | none => .next s

end Sys2Proof.Machine
end

