-- ==== Sys2Proof/Machine/Tiles.lean ====
section
/-! DEFINITION. The matrix engine (R100 to R119) and butterfly mode (R120 to R131): tiles and side bands, the engine
queues and the lease, knots, and what the engine's operations compute. -/
namespace Sys2Proof

/-- The tiles that an engine operation reads, TA before TB (R115), and writes (R104). That TD's accumulators come after
them, and the even tile of a pair before the odd, for the PADDR that is copied, is the model's choice (log 169). -/
def Instr.tilesRead (i : Instr) : List Nat :=
  match i with
  | .tst _ d _ _ => [d.toNat]
  | .tstDr _ d _ _ => [d.toNat]
  | .tmma _ _ d a b _ => [a.toNat, b.toNat, d.toNat, d.toNat + 1]
  | .tcvt _ _ _ a _ => [a.toNat, a.toNat + 1]
  | .tmergeI64 _ _ m _ _ => [2 * m.toNat, 2 * m.toNat + 1]
  | .tmergeF64 _ _ m _ _ => [2 * m.toNat, 2 * m.toNat + 1]
  | .tmergeF64Ord _ _ m _ _ => [2 * m.toNat, 2 * m.toNat + 1]
  | .tbfy _ _ _ a => [a.toNat]
  | _ => []

def Instr.tilesWritten (i : Instr) : List Nat :=
  match i with
  | .tld _ d _ _ => [d.toNat]
  | .tldDr _ d _ _ => [d.toNat]
  | .tldq _ d _ _ _ => [d.toNat]
  | .tzero _ t w => if w then [t.toNat, t.toNat + 1] else [t.toNat]
  | .tmma _ _ d _ _ _ => [d.toNat, d.toNat + 1]
  | .tcvt _ _ d _ _ => [d.toNat]
  | .tmread _ _ m _ _ => [2 * m.toNat, 2 * m.toNat + 1]
  | .tbfy _ _ d _ => [d.toNat]
  | _ => []

end Sys2Proof

namespace Sys2Proof.Machine
open Sys2Proof

/-! ### Tiles: 1,024 data words and 256 side-band words (R100, R101) -/

def Tile.word (t : Tile) (i : Nat) : Word := Tab.get t i 0
def Tile.setWord (t : Tile) (i : Nat) (w : Word) : Tile := if w = 0 then Tab.drop t i else Tab.put t i w

def Tile.setWords (t : Tile) (i : Nat) : List Word → Tile
  | [] => t
  | w :: ws => Tile.setWords (Tile.setWord t i w) (i + 1) ws

/-- `n` bits from bit position `k` of the data. -/
def Tile.bitsAt (t : Tile) (k n : Nat) : Nat := (Tile.word t (k / 32)).toNat / 2 ^ (k % 32) % 2 ^ n
def Tile.dword (t : Tile) (i : Nat) : DWord := Tile.word t (2 * i + 1) ++ Tile.word t (2 * i)
def Tile.bytes (t : Tile) (n : Nat) : List Byte := (List.range n).map fun k => BitVec.ofNat 8 (Tile.bitsAt t (8 * k) 8)
def dwordWords (v : DWord) : List Word := [v.extractLsb' 0 32, v.extractLsb' 32 32]

def sideFormat : Nat := 1024 + 192
def sideExp : Nat := 1024 + 193
def sidePoison : Nat := 1024 + 194
def sidePaddr : Nat := 1024 + 195

/-- The writable bits of side-band word `j` (Table 7.2). -/
def sideMask (j : Nat) : Word :=
  if j < 193 then BitVec.allOnes 32 else if j = 193 then 0xFF else if j = 194 then 1
  else if j < 197 then BitVec.allOnes 32 else 0

def Tile.poisoned (t : Tile) : Bool := (Tile.word t sidePoison).getLsbD 0
def Tile.paddr (t : Tile) : DWord := Tile.word t (sidePaddr + 1) ++ Tile.word t sidePaddr
def Tile.mark (t : Tile) (a : DWord) : Tile := Tile.setWords t sidePoison (1 :: dwordWords a)
/-- ORs poison of a line at `a` into the tile (R115). -/
def Tile.poison (t : Tile) (a : DWord) : Tile := if t.poisoned then t else t.mark a
/-- BEXP: the block exponent of a complex Q15 tile (R53). -/
def Tile.blockExp (t : Tile) : Int := sextNat 8 (Tile.word t sideExp).toNat
def Tile.scale (t : Tile) (n : Nat) : Nat := Tile.bitsAt t (32 * 1024 + 16 * n) 16
def Tile.zeroPoint (t : Tile) (n : Nat) : Nat := Tile.bitsAt t (32 * 1024 + 4096 + 8 * n) 8
def Tile.sideBand (t : Tile) : Tile := t.filter fun e => decide (1024 ≤ e.1)

def Team.tile (t : Team) (n : Nat) : Tile := Tab.get t.tiles n []
def Team.setTile (t : Team) (n : Nat) (x : Tile) : Team := { t with tiles := Tab.put t.tiles n x }

/-- Element k of an accumulator pair, as 64 bits (Table 7.1). -/
def Team.acc (t : Team) (d k : Nat) : DWord := Tile.dword (t.tile (d + k / 512)) (k % 512)

/-- Replaces the data of a tile, side band kept. -/
def Tile.withData (t : Tile) (ws : List Word) : Tile := Tile.setWords (Tile.sideBand t) 0 ws

/-- Writes the 1,024 elements of an accumulator pair, side bands kept. -/
def Team.setAcc (t : Team) (d : Nat) (vs : List DWord) : Team :=
  (t.setTile d ((t.tile d).withData ((vs.take 512).flatMap dwordWords))).setTile (d + 1)
    ((t.tile (d + 1)).withData ((vs.drop 512).flatMap dwordWords))

/-! ### The engine queue and its scoreboard (R103, R104) -/

def State.engineFull (s : State) (team : Nat) : Bool := decide (Config.engineDepth ≤ (s.team team).engine.length)

/-- An operation that would enter the queue waits: the queue is full, or a fence holds the thread's tile operations. -/
def State.tileWaits (s : State) (th : ThreadRef) : Bool := s.engineFull th.team || s.heldAtIssue th .m true

/-- A team of the core holds the engine's lease: its queue is not empty and its count is below its quantum (R107). -/
def State.leaseHeld (s : State) (core : Nat) : Bool :=
  match (s.core core).lease with
  | some (h, c) => !(s.team h).engine.isEmpty && decide (c < (s.team h).lease)
  | none => false

/-- The engine passes to a team, whose count starts at 0. -/
def State.giveLease (s : State) (core team : Nat) : State := s.setCore core { s.core core with lease := some (team, 0) }

/-- An operation issues: it enters its team's queue, or, of a KSET that finds the queue full, waits for an entry (R105);
a team that finds the engine free takes the lease. A tile store or merge is a write of its thread on path M (R149). -/
def State.enqueue (s : State) (th : ThreadRef) (op : Instr) (addr : DWord) (bval slot : Word) (cfg : List Word)
    (pieces : List Piece) : State :=
  let s1 := if s.leaseHeld (s.coreOf th) then s else s.giveLease (s.coreOf th) th.team
  let s2 := (s1.modTeam th.team fun t => { t with
    engine := t.engine ++ [{ id := s.nextId, op := op, th := th, pc := (s.thread th).pc, addr := addr, bval := bval
                             pieces := pieces, slot := slot, cfg := cfg }] }).bump
  if Instr.isTileWrite op then s2.noteWrite th .m s.nextId 0 else s2

/-- The address checks of R108: bits [63:57], alignment, then the pages. -/
def tilePages (va : DWord) (len align : Nat) (x : Need) (th : ThreadRef) (s : State)
    (k : List Piece → State → Effect) : Effect :=
  match addressBad va align with
  | some aux => .trap s codePermission va aux
  | none => withPages th va.toNat len x s preciseBad k

def needLoad : Need := { read := true }
def needStore : Need := { write := true, noSuc := true, noPeer := true }
def needMerge : Need := { read := true, write := true, noSuc := true, noPeer := true }
def needRegion : Need := { read := true, noSuc := true, noPeer := true }

/-- An unknotted operation of one thread on `len` bytes (R102, R108). -/
def tileOp (op : Instr) (va : DWord) (len : Nat) (x : Need) (slot : Word) (cfg : List Word) (th : ThreadRef)
    (s : State) : Effect :=
  tilePages va len 64 x th s fun pieces s =>
    if s.tileWaits th then .stall s else .go (s.enqueue th op va 0 slot cfg pieces)

/-! ### Transform configurations (R122 to R124) -/

def radixOf (c : Nat) : Nat :=
  match c with
  | 1 => 2
  | 2 => 3
  | 3 => 4
  | 4 => 5
  | 5 => 8
  | _ => 0

def cfgCode (w0 : Word) (k : Nat) : Nat := bits w0.toNat (3 * k + 2) (3 * k)
/-- The radices of stages 0 to L − 1: nonzero codes, first to last. -/
def cfgRadices (w0 : Word) : List Nat := (((List.range 6).map (cfgCode w0)).takeWhile (· != 0)).map radixOf
def cfgElem (w0 : Word) : Nat := bits w0.toNat 23 22
def cfgStage (w0 : Word) : Nat := bits w0.toNat 20 18
def cfgInverse (w0 : Word) : Bool := w0.getLsbD 21
def cfgAuto (w0 : Word) : Bool := w0.getLsbD 24
def cfgScale (w1 : Word) (k : Nat) : Nat := bits w1.toNat (2 * k + 1) (2 * k)
/-- Elements in a tile under a format. -/
def tileElems (elem : Nat) : Nat := if elem = 1 then 512 else 1024
def cfgLength (w0 : Word) : Nat := (cfgRadices w0).foldl (· * ·) 1

/-- The checks of R123 on word 0. -/
def cfgBad0 (w0 : Word) : Bool :=
  bits w0.toNat 31 25 != 0 || (List.range 6).any (fun k => decide (6 ≤ cfgCode w0 k)) || cfgElem w0 == 3 ||
  cfgCode w0 0 == 0 ||
  ((List.range 5).any fun k => cfgCode w0 k == 0 && cfgCode w0 (k + 1) != 0) ||
  decide (tileElems (cfgElem w0) < cfgLength w0) || decide ((cfgRadices w0).length ≤ cfgStage w0)

/-- The first word that fails, with its index (R123). -/
def cfgBad (ws : List Word) : Option DWord :=
  let at_ (k : Nat) : DWord := BitVec.ofNat 64 (k * 2 ^ 32 + (ws.getD k 0).toNat)
  if cfgBad0 (ws.getD 0 0) then some (at_ 0)
  else if bits (ws.getD 1 0).toNat 31 12 ≠ 0 then some (at_ 1)
  else if ws.getD 2 0 ≠ 0 then some (at_ 2)
  else if ws.getD 3 0 ≠ 0 then some (at_ 3)
  else none

def Team.cfgStages (t : Team) : Nat := (cfgRadices (t.tfcfg.getD 0 0)).length

/-- STAGE ← (STAGE + 1) mod L (R125). -/
def Team.nextStage (t : Team) : Team :=
  let w0 := t.tfcfg.getD 0 0
  let k := (cfgStage w0 + 1) % t.cfgStages
  { t with tfcfg := t.tfcfg.set 0 ((w0 &&& ~~~(7#32 <<< 18)) ||| (BitVec.ofNat 32 k <<< 18)) }

/-- A configuration of no stage is refused with TRAPAUX 3 (R125, R131). -/
def noStages (s : State) : Effect := .trap s codeIllegalOperand 0 3

/-- TLD.DR and TST.DR: the configuration is checked before the address (R131). -/
def digitOp (op : Instr) (va : DWord) (x : Need) (th : ThreadRef) (s : State) : Effect :=
  if (s.team th.team).cfgStages = 0 then noStages s
  else tileOp op va 4096 x 0 (s.team th.team).tfcfg th s

def tfcfgOp (a : Nat) (th : ThreadRef) (s : State) : Effect :=
  let ws := (s.thread th).words a 4
  match cfgBad ws with
  | some v => .trap s codeIllegalOperand 0 v
  | none => .go (s.modTeam th.team fun t => { t with tfcfg := ws })

/-! ### Knots (R105, R106) -/

def State.knot (s : State) (team k : Nat) : Knot := Tab.get (s.team team).knots k {}
def State.setKnot (s : State) (team k : Nat) (x : Knot) : State :=
  s.modTeam team fun t => { t with knots := Tab.put t.knots k x }

def isTbfy : Instr → Bool
  | .tbfy _ _ _ _ => true
  | _ => false

/-- The slot a knotted operation names. -/
def knotSlot (s : State) (th : ThreadRef) (op : Instr) : Word :=
  match op with
  | .tmma _ _ _ _ _ f => s.slot th f.toNat
  | .tcvt _ _ _ _ f => s.slot th f.toNat
  | _ => 0

/-- A knotted operation issues; a TBFY takes the configuration and advances its stage (R122, R125). -/
def State.issueKnotted (s : State) (th : ThreadRef) (op : Instr) (addr : DWord) (bval : Word) (pieces : List Piece) :
    State :=
  let t := s.team th.team
  if isTbfy op then (s.enqueue th op addr bval 0 t.tfcfg pieces).modTeam th.team Team.nextStage
  else s.enqueue th op addr bval (knotSlot s th op) [] pieces

/-- The operation would issue from a configuration of no stage. -/
def State.noStage (s : State) (team : Nat) (op : Instr) : Bool := isTbfy op && (s.team team).cfgStages == 0

/-- One tie (R106). -/
def tieOp (k : Nat) (op : Instr) (addr : DWord) (bval : Word) (pieces : List Piece) (th : ThreadRef) (s : State) :
    Effect :=
  let x := s.knot th.team k
  if 0 < x.t ∧ (x.word ≠ some op ∨ x.addr ≠ addr ∨ x.bval ≠ bval) then
    .trap s codeKnotMismatch 0 (BitVec.ofNat 64 k)
  else
    let tied : Knot := { x with word := some op, addr := addr, bval := bval, t := x.t + 1 }
    if tied.t = x.n then
      if s.noStage th.team op then noStages (s.setKnot th.team k { tied with t := 0 })
      else if s.tileWaits th then .stall s
      else .go ((s.setKnot th.team k { tied with t := 0 }).issueKnotted th op addr bval pieces)
    else .go (s.setKnot th.team k tied)

/-- The pages of the record of a knot, for an operation that names an address. -/
def knotNeed : Instr → Option Need
  | .tmergeI64 _ _ _ _ _ => some needMerge
  | .tmergeF64 _ _ _ _ _ => some needMerge
  | .tmergeF64Ord _ _ _ _ _ => some needMerge
  | .tmread _ _ _ _ _ => some needRegion
  | _ => none

/-- The pages of an operation that a KSET issues, as they translate now; none where a page has gone since the tie. -/
def State.knotPieces (s : State) (th : ThreadRef) (op : Instr) (addr : Nat) : Option (List Piece) :=
  match knotNeed op with
  | none => some []
  | some need =>
    let pieces := [addr, addr + 4096].filterMap fun a =>
      (s.peek (s.coreOf th) (s.tenantOf th) a).map fun l => (a, 4096, l)
    if pieces.length = 2 ∧ (s.checkOrders need pieces).isNone then some pieces else none

/-- A KSET's operations issue, `m` of them, one after another (R105). The checks of R108 were made at the tie and are
not made again. -/
def State.ksetIssue (s : State) (th : ThreadRef) (op : Instr) (addr : DWord) (bval : Word) : Nat → State
  | 0 => s
  | m + 1 =>
    (s.issueKnotted th op addr bval ((s.knotPieces th op addr.toNat).getD [])).ksetIssue th op addr bval m

/-- The operation `id` has issued and waits for an entry of its team's queue (R105). -/
def State.beyondQueue (s : State) (team id : Nat) : Bool :=
  ((s.team team).engine.drop Config.engineDepth).any (·.id == id)

/-- KSET (R105): what it completes issues at once, and its thread waits until the last operation has entered the
queue. -/
def ksetOp (k n : Nat) (th : ThreadRef) (s : State) : Effect :=
  match (s.thread th).waitOp with
  | some id => if s.beyondQueue th.team id then .stall s else .go s
  | none =>
    let x := s.knot th.team k
    let counted := s.setKnot th.team k { x with n := n }
    match x.word with
    | none => .go counted
    | some op =>
      if x.t < n then .go counted
      else if s.noStage th.team op then noStages s
      else if s.heldAtIssue th .m true then .stall s
      else
        let s1 := (s.setKnot th.team k { x with n := n, t := x.t % n }).ksetIssue th op x.addr x.bval (x.t / n)
        let last := s1.nextId - 1
        if s1.beyondQueue th.team last then .stall (s1.modThread th fun t => { t with waitOp := some last }) else .go s1

/-- TMMA, TCVT and TBFY tie without an address. -/
def plainTie (k : Nat) (op : Instr) (th : ThreadRef) (s : State) : Effect := tieOp k op 0 0 [] th s

/-- TMMA and TCVT check their slot at the tie (R58, R106). -/
def slotTie (k : Nat) (op : Instr) (f : BitVec 3) (formats : List Nat) (th : ThreadRef) (s : State) : Effect :=
  if formats.contains (readSlot (s.slot th f.toNat)).fmt then plainTie k op th s
  else .trap s codeIllegalOperand 0 (f.setWidth 64)

/-- TMERGE and TMREAD check their address at the tie, and an ordered merge its B value (R106, R108, R117), after the
address and its pages: the model's choice (log 171). -/
def regionTie (k : Nat) (op : Instr) (va : DWord) (bval : Word) (x : Need) (ordered : Bool) (th : ThreadRef)
    (s : State) : Effect :=
  tilePages va 8192 8192 x th s fun pieces s =>
    let e := bits bval.toNat 3 0
    let n := bits bval.toNat 8 4
    if ordered ∧ (512 ≤ bval.toNat ∨ n = 0 ∨ 16 < n ∨ n ≤ e) then .trap s codeIllegalOperand 0 (bval.setWidth 64)
    else tieOp k op va bval pieces th s

/-! ### TGETF and TSETF (R114, R115) -/

def State.tileBusy (s : State) (team tile : Nat) (reads : Bool) : Bool :=
  (s.team team).engine.any fun e =>
    (Instr.tilesWritten e.op).contains tile || (reads && (Instr.tilesRead e.op).contains tile)

def tgetfOp (d : Nat) (tile : Nat) (i : Word) (th : ThreadRef) (s : State) : Effect :=
  let t := (s.team th.team).tile tile
  if 1280 ≤ i.toNat then .trap s codeIllegalOperand 0 (i.setWidth 64)
  else if s.tileBusy th.team tile false then .stall s
  else if t.poisoned ∧ i.toNat ≠ sidePaddr ∧ i.toNat ≠ sidePaddr + 1 then
    .trap s codePoison t.paddr (BitVec.ofNat 64 tile)
  else .go (s.setReg th d (Tile.word t i.toNat))

def tsetfOp (v : Word) (tile : Nat) (i : Word) (th : ThreadRef) (s : State) : Effect :=
  let t := (s.team th.team).tile tile
  if 1280 ≤ i.toNat then .trap s codeIllegalOperand 0 (i.setWidth 64)
  else if s.tileBusy th.team tile true then .stall s
  else
    let m := if i.toNat < 1024 then BitVec.allOnes 32 else sideMask (i.toNat - 1024)
    let w := (Tile.word t i.toNat &&& ~~~m) ||| (v &&& m)
    .go (s.modTeam th.team fun x => x.setTile tile (Tile.setWord t i.toNat w))

/-! ### Memory of an operation -/

/-- Bytes at the pieces of a range, and whether some line is poisoned; a non-resident OPT page reads as zeros. -/
def State.readPieces (s : State) (pieces : List Piece) : List Byte :=
  pieces.flatMap fun g =>
    if g.2.2.opt && !g.2.2.res then List.replicate g.2.1 0 else s.bytesAt (g.2.2.locate g.1) g.2.1

/-- The lines of a range: virtual address, place and length of each. -/
def pieceLines (pieces : List Piece) : List (Nat × Loc × Nat) :=
  pieces.flatMap fun g => (List.range ((g.1 + g.2.1 + 63) / 64 - g.1 / 64)).map fun k =>
    let a := max g.1 ((g.1 / 64 + k) * 64)
    (a, g.2.2.locate a, min (g.1 + g.2.1) ((g.1 / 64 + k + 1) * 64) - a)

/-- The first poisoned line of a range. -/
def State.badLine (s : State) (pieces : List Piece) : Option DWord :=
  ((pieceLines (pieces.filter fun g => !(g.2.2.opt && !g.2.2.res))).find? fun e => s.isPoisoned e.2.1).map fun e =>
    BitVec.ofNat 64 e.1

def ofBytes (bs : List Byte) : List Word := leWords bs (bs.length / 4)

/-- A tile operation's write of whole lines; a line written from an unpoisoned tile is clean again (R115, R304). -/
def State.writeLines (s : State) (pieces : List Piece) (va : Nat) (bs : List Byte) (bad : Bool) : State :=
  (pieceLines pieces).foldl (fun s e =>
    let s1 := s.writePlace e.2.1 ((bs.drop (e.1 - va)).take e.2.2)
    match e.2.1 with
    | .dev a => if bad then s1.poisonLine (a / 64) else s1.clearPoison (a / 64)
    | _ => s1) s

/-! ### Loads of quantised records (R110) -/

def SlotRec.groupLen (r : SlotRec) : Nat :=
  match r.gsz with
  | 1 => 32
  | 2 => 64
  | 3 => 128
  | _ => 0

/-- K of a slot's elements (R112). -/
def SlotRec.depth (r : SlotRec) : Nat :=
  match r.fmt with
  | 4 => 256
  | 5 => 128
  | _ => 64

/-- The number of groups of a record. -/
def SlotRec.groups (r : SlotRec) : Nat := if r.groupLen = 0 then 0 else 32 * r.depth / r.groupLen
def SlotRec.recordLen (r : SlotRec) : Nat :=
  if r.fmt = 10 then 4096 else 4096 + 2 * r.groups + (if r.zpe then r.groups else 0)

/-- What TLDQ writes (R110). -/
def loadQuant (r : SlotRec) (slot : Word) (bs : List Byte) (t : Tile) : Tile :=
  let t1 := Tile.withData t (ofBytes (bs.take 4096))
  if r.fmt = 10 then Tile.setWord (Tile.setWord t1 sideFormat slot) sideExp 0
  else
    let g := r.groups
    let scales := (bs.drop 4096).take (2 * g) ++ List.replicate (512 - 2 * g) 0
    let zps := if r.zpe then ((bs.drop (4096 + 2 * g)).take g).map (fun b => BitVec.ofNat 8 (b.toNat % 2 ^ r.elem)) else []
    let side := scales ++ zps ++ List.replicate (256 - zps.length) 0
    Tile.setWord (Tile.setWords t1 1024 (ofBytes side)) sideFormat slot

/-- TLDQ (R110). The slot's format is checked before the address and its pages: the model's choice (log 170). -/
def tldqOp (op : Instr) (va : DWord) (q : BitVec 3) (th : ThreadRef) (s : State) : Effect :=
  let slot := s.slot th q.toNat
  let r := readSlot slot
  if r.fmt = 4 ∨ r.fmt = 5 ∨ r.fmt = 10 then tileOp op va r.recordLen needLoad slot [] th s
  else .trap s codeIllegalOperand 0 (q.setWidth 64)

/-! ### The tile multiply and conversion (R112, R113) -/

/-- Element (l, k) of an integer operand. -/
def SlotRec.operand (r : SlotRec) (t : Tile) (l k : Nat) : Int :=
  readElem r.sgn r.elem (Tile.bitsAt t ((128 * l * 8) + r.elem * k) r.elem)

/-- Round of an exact sum of terms with the special values of R112; all terms zero and negative gives −0. -/
def sumRound (xs : List Num) : DWord :=
  if xs.any Num.isNan then BitVec.ofNat 64 fp64.nanBits
  else if xs.any Num.isInf then
    if xs.any (fun x => x.isInf && x.neg?) && xs.any (fun x => x.isInf && !x.neg?) then BitVec.ofNat 64 fp64.nanBits
    else BitVec.ofNat 64 (ctx64.inf (xs.any fun x => x.isInf && x.neg?)).1
  else
    let r := exactSum (xs.filterMap fun x => match x with | .fin n m e => some (n, m, e) | _ => none)
    if r.1 = 0 then BitVec.ofNat 64 (ctx64.zero (xs.all fun x => x.isZero && x.neg?)).1
    else BitVec.ofNat 64 (ctx64.finish (decide (r.1 < 0)) r.1.natAbs 1 r.2).1

/-- FP16 and BF16: one exact sum, one rounding. -/
def mmaFloat (f : FmtSpec) (a b : Tile) (i j : Nat) (c : DWord) : DWord :=
  sumRound (readNum fp64 c.toNat :: (List.range 64).map fun k =>
    (readNum f (Tile.bitsAt a (8 * (128 * i + 2 * k)) 16)).mul (readNum f (Tile.bitsAt b (8 * (128 * j + 2 * k)) 16)))

/-- INT4 and INT8 without groups: modulo 2^64. -/
def mmaInt (r : SlotRec) (a b : Tile) (i j : Nat) (c : DWord) : DWord :=
  BitVec.ofInt 64 (c.toInt + ((List.range r.depth).map fun k => r.operand a i k * r.operand b j k).sum)

def intNum (d : Int) : Num := .fin (decide (d < 0)) d.natAbs 0

/-- d × Sa × Sb: a NaN or infinite scale makes the term a NaN; a zero difference or scale gives +0 (R54, R55). -/
def groupTerm (d : Int) (sa sb : Num) : Num :=
  match sa, sb with
  | .fin _ _ _, .fin _ _ _ =>
    let x := ((intNum d).mul sa).mul sb
    if x.isZero then .fin false 0 0 else x
  | _, _ => .nan false

/-- Groups enter in ascending K, each rounded once. -/
def mmaGroups (r : SlotRec) (a b : Tile) (i j : Nat) (c : DWord) : DWord :=
  let per := r.depth / r.groupLen
  (List.range per).foldl (fun c h =>
    let na := i * per + h
    let nb := j * per + h
    let za := if r.zpe then readElem r.sgn r.elem (Tile.zeroPoint a na) else 0
    let zb := if r.zpe then readElem r.sgn r.elem (Tile.zeroPoint b nb) else 0
    let d := ((List.range r.groupLen).map fun k =>
      (r.operand a i (h * r.groupLen + k) - za) * (r.operand b j (h * r.groupLen + k) - zb)).sum
    sumRound [readNum fp64 c.toNat, groupTerm d (readNum fp16 (Tile.scale a na)) (readNum fp16 (Tile.scale b nb))]) c

def mmaElement (r : SlotRec) (a b : Tile) (i j : Nat) (c : DWord) : DWord :=
  match r.fmt with
  | 0 => mmaFloat fp16 a b i j c
  | 1 => mmaFloat bf16 a b i j c
  | _ => if r.groupLen = 0 then mmaInt r a b i j c else mmaGroups r a b i j c

def tmmaTeam (r : SlotRec) (d a b : Nat) (t : Team) : Team :=
  t.setAcc d ((List.range 1024).map fun e => mmaElement r (t.tile a) (t.tile b) (e / 32) (e % 32) (t.acc d e))

/-- One element of TCVT, as the bits of its format (R113). -/
def convertElement (r : SlotRec) (x : DWord) : Nat :=
  let float (f : FmtSpec) : Nat := ((⟨f, r.rnd, false, r.sate⟩ : Ctx).convert (readNum fp64 x.toNat)).1
  let int (w : Nat) : Nat :=
    let lo : Int := if r.sgn then -(2 ^ (w - 1)) else 0
    let hi : Int := if r.sgn then 2 ^ (w - 1) - 1 else 2 ^ w - 1
    let v := if r.sate then max lo (min hi x.toInt) else x.toInt
    (BitVec.ofInt w v).toNat
  match r.fmt with
  | 0 => float fp16
  | 1 => float bf16
  | 2 => float fp32
  | 5 => int 8
  | 6 => int 16
  | _ => int 32

/-- Bytes of an element of TCVT's result (Table 7.1). -/
def SlotRec.resultBytes (r : SlotRec) : Nat :=
  match r.fmt with
  | 0 => 2
  | 1 => 2
  | 5 => 1
  | 6 => 2
  | _ => 4

def tcvtTeam (r : SlotRec) (d a : Nat) (t : Team) : Team :=
  let bs := (List.range 1024).flatMap fun e => leBytes r.resultBytes (convertElement r (t.acc a e))
  t.setTile d (Tile.setWords [] 0 (ofBytes bs))

/-! ### Twiddles (R120, R121) -/

/-- Round(FP32, RNE) of sin(π n / d), with a zero as +0. -/
def sinPiRat (n d : Nat) : Nat × Raised :=
  let r := n % (2 * d)
  let neg := decide (d ≤ r)
  let q := if d ≤ r then r - d else r
  let h := if d < 2 * q then d - q else q
  if h = 0 then ctx32.zero false
  else if 2 * h = d then ctx32.finish neg 1 1 0
  else if 6 * h = d then ctx32.finish neg 1 2 0
  else ctx32.sticky neg (sinPiFix h d) 0

/-- G(k, M) = (gc, gs) (R120). -/
def twiddleCos (k m : Nat) : Nat × Raised := sinPiRat (4 * (k % m) + m) (2 * m)
/-- −sin x = sin (x + π). -/
def twiddleSin (k m : Nat) : Nat × Raised := sinPiRat (2 * (k % m) + m) m

def ttwidOp (d : Nat) (k m : Word) (th : ThreadRef) (s : State) : Effect :=
  if m.toNat = 0 ∨ 2 ^ 24 < m.toNat then
    .go ((s.setPair th d (0x7FC00000#32 ++ 0x7FC00000#32)).raise th { nv := true })
  else
    let c := twiddleCos k.toNat m.toNat
    let n := twiddleSin k.toNat m.toNat
    .go ((s.setPair th d (BitVec.ofNat 32 n.1 ++ BitVec.ofNat 32 c.1)).raise th { nx := c.2.nx || n.2.nx })

/-! ### Butterfly stages (R124 to R131) -/

/-- An exact dyadic value m × 2^e. -/
abbrev Dyadic := Int × Int

def Dyadic.mul (x y : Dyadic) : Dyadic := (x.1 * y.1, x.2 + y.2)
def Dyadic.add (x y : Dyadic) : Dyadic :=
  if x.1 = 0 then y else if y.1 = 0 then x
  else
    let e := min x.2 y.2
    (x.1 * 2 ^ (x.2 - e).toNat + y.1 * 2 ^ (y.2 - e).toNat, e)
def Dyadic.neg (x : Dyadic) : Dyadic := (-x.1, x.2)

def numDyadic : Num → Dyadic
  | .fin n m e => (if n then -(m : Int) else m, e)
  | _ => (0, 0)

/-- A complex value of exact parts. -/
abbrev Cplx := Dyadic × Dyadic

def Cplx.mul (x y : Cplx) : Cplx :=
  ((x.1.mul y.1).add (x.2.mul y.2).neg, (x.1.mul y.2).add (x.2.mul y.1))
def Cplx.add (x y : Cplx) : Cplx := (x.1.add y.1, x.2.add y.2)

/-- Tw(i, M) of a direction (R126). -/
def stageTwiddle (inverse : Bool) (i m : Nat) : Cplx :=
  let gs := numDyadic (readNum fp32 (twiddleSin i m).1)
  (numDyadic (readNum fp32 (twiddleCos i m).1), if inverse then gs.neg else gs)

/-- The parts of element p of a tile, as numbers: complex FP16, FP32 or Q15 with exponent X (R52, R53). -/
def tileParts (elem : Nat) (t : Tile) (p : Nat) : Num × Num :=
  match elem with
  | 0 => (readNum fp16 (Tile.bitsAt t (32 * p) 16), readNum fp16 (Tile.bitsAt t (32 * p + 16) 16))
  | 1 => (readNum fp32 (Tile.word t (2 * p)).toNat, readNum fp32 (Tile.word t (2 * p + 1)).toNat)
  | _ =>
    let q (k : Nat) : Num :=
      let v := sextNat 16 (Tile.bitsAt t (32 * p + 16 * k) 16)
      .fin (decide (v < 0)) v.natAbs (t.blockExp - 15)
    (q 0, q 1)

def partsValue (x : Num × Num) : Cplx := (numDyadic x.1, numDyadic x.2)
def partsSpecial (x : Num × Num) : Bool := x.1.isNan || x.1.isInf || x.2.isNan || x.2.isInf

/-- A stage: its radix, P, P', scale code and direction. -/
structure Stage where
  r : Nat
  before : Nat
  scale : Nat
  inverse : Bool
  deriving DecidableEq, Repr

def stageOf (cfg : List Word) : Stage :=
  let rs := cfgRadices (cfg.getD 0 0)
  let k := cfgStage (cfg.getD 0 0)
  { r := rs.getD k 1, before := (rs.take k).foldl (· * ·) 1, scale := cfgScale (cfg.getD 1 0) k
    inverse := cfgInverse (cfg.getD 0 0) }

/-- The inputs of output q's butterfly, ascending (R126). -/
def Stage.inputs (g : Stage) (q : Nat) : List Nat :=
  let span := g.before * g.r
  (List.range g.r).map fun j => q / span * span + q % span % g.before + j * g.before

/-- The exact value v[q] of a stage (R126). -/
def Stage.value (g : Stage) (x : Nat → Cplx) (q : Nat) : Cplx :=
  let span := g.before * g.r
  let m := q % span % g.before
  let k := q % span / g.before
  let terms := (List.range g.r).map fun j =>
    ((x (q / span * span + m + j * g.before)).mul (stageTwiddle g.inverse (j * m % span) span)).mul
      (stageTwiddle g.inverse (j * k % g.r) g.r)
  let v := terms.foldl Cplx.add ((0, 0), (0, 0))
  ((v.1.1, v.1.2 - g.scale), (v.2.1, v.2.2 - g.scale))

/-- Round of a part: an exact zero is +0 (R127). -/
def roundPart (f : FmtSpec) (v : Dyadic) : Nat :=
  if v.1 = 0 then 0 else ((⟨f, .rne, false, false⟩ : Ctx).finish (decide (v.1 < 0)) v.1.natAbs 1 v.2).1

/-- RoundInt(v / 2^(X − 15), RNE) (R128). -/
def quantPart (x : Int) (v : Dyadic) : Int := (roundInt .rne (decide (v.1 < 0)) v.1.natAbs 1 (v.2 - (x - 15))).1

def fitsQ15 (v : Int) : Bool := decide (-32768 ≤ v) && decide (v ≤ 32767)
def clampQ15 (v : Int) : Nat := (BitVec.ofInt 16 (max (-32768) (min 32767 v))).toNat

/-- The exponent X' of a Q15 stage (R128). -/
def nextExp (auto : Bool) (x : Int) (vs : List Cplx) : Int :=
  if auto then
    let e := (((List.range 8).map Int.ofNat).find? fun e => vs.all fun v =>
      fitsQ15 (quantPart (x + e) v.1) && fitsQ15 (quantPart (x + e) v.2)).getD 8
    min (x + e) 127
  else x

/-- The words of an element: real part low (R52). -/
def packParts (elem : Nat) (re im : Nat) : List Word :=
  if elem = 1 then [BitVec.ofNat 32 re, BitVec.ofNat 32 im] else [BitVec.ofNat 32 (re + 2 ^ 16 * im)]

def elemWords (elem : Nat) (t : Tile) (p : Nat) : List Word :=
  if elem = 1 then [Tile.word t (2 * p), Tile.word t (2 * p + 1)] else [Tile.word t p]

/-- One stage on tile `a`: the whole tile TD receives (R126 to R129). -/
def stageTile (cfg : List Word) (a : Tile) : Tile :=
  let w0 := cfg.getD 0 0
  let elem := cfgElem w0
  let g := stageOf cfg
  let n := cfgLength w0
  let used := tileElems elem / n * n
  let x (p : Nat) : Cplx := partsValue (tileParts elem a p)
  let vs := (List.range used).map (g.value x)
  let rest := (List.range (tileElems elem - used)).flatMap fun k => elemWords elem a (used + k)
  if elem = 2 then
    let e := nextExp (cfgAuto w0) a.blockExp vs
    let ws := vs.flatMap fun v => packParts elem (clampQ15 (quantPart e v.1)) (clampQ15 (quantPart e v.2))
    Tile.setWord (Tile.withData a (ws ++ rest)) sideExp (BitVec.ofNat 32 (BitVec.ofInt 8 e).toNat)
  else
    let f := if elem = 1 then fp32 else fp16
    let ws := (List.range used).flatMap fun q =>
      if (g.inputs q).any fun p => partsSpecial (tileParts elem a p) then packParts elem f.nanBits f.nanBits
      else packParts elem (roundPart f (g.value x q).1) (roundPart f (g.value x q).2)
    Tile.withData a (ws ++ rest)

/-- ρ(p): the digits of p in the radices, reversed (R130). -/
def digitReverse (radices : List Nat) (p : Nat) : Nat :=
  match radices with
  | [] => 0
  | r :: rest => p % r * rest.foldl (· * ·) 1 + digitReverse rest (p / r)

/-- The memory element of tile element i (R131). -/
def digitIndex (w0 : Word) (i : Nat) : Nat :=
  let n := cfgLength w0
  if i < tileElems (cfgElem w0) / n * n then i / n * n + digitReverse (cfgRadices w0) (i % n) else i

def elemBytes (w0 : Word) : Nat := if cfgElem w0 = 1 then 8 else 4

/-- TLD.DR: the tile's bytes from the block's. -/
def gatherDigits (w0 : Word) (bs : List Byte) : List Byte :=
  (List.range (tileElems (cfgElem w0))).flatMap fun i => (bs.drop (digitIndex w0 i * elemBytes w0)).take (elemBytes w0)

/-- TST.DR: the block's bytes from the tile's. -/
def scatterDigits (w0 : Word) (bs : List Byte) : List Byte :=
  (List.range (tileElems (cfgElem w0))).foldl (fun acc i =>
    setRange acc (digitIndex w0 i * elemBytes w0) ((bs.drop (i * elemBytes w0)).take (elemBytes w0))) bs

/-! ### The engine performs an operation (R103, R107 to R118) -/

/-- Poison of the tiles an operation reads passes to the tiles it writes (R115). -/
def spreadPoison (op : Instr) (before after : Team) : Team :=
  match ((Instr.tilesRead op).map before.tile).find? Tile.poisoned with
  | some x => (Instr.tilesWritten op).foldl (fun t n => t.setTile n ((t.tile n).mark x.paddr)) after
  | none => after

/-- A tile that a memory range fills. -/
def fillTile (bad : Option DWord) (d : Nat) (f : Tile → Tile) (t : Team) : Team :=
  let x := f (t.tile d)
  t.setTile d (match bad with | some a => x.poison a | none => x)

/-- The contributions of an accumulator pair (R116). -/
def Team.contributions (t : Team) (d : Nat) : List (Nat × DWord) := (List.range 1024).map fun k => (k, t.acc d k)

def EngineOp.merge (e : EngineOp) (s : State) (m : Nat) (float : Bool) (order : Option (Nat × Nat)) : Merge :=
  { id := e.id, th := e.th, core := s.coreOf e.th, tenant := s.tenantOf e.th, pc := e.pc, va := e.addr
    pieces := e.pieces, float := float, words := (s.team e.th.team).contributions (2 * m)
    bad := ((s.team e.th.team).tile (2 * m)).poisoned || ((s.team e.th.team).tile (2 * m + 1)).poisoned
    order := order, applying := order.isNone }

def State.addMerge (s : State) (m : Merge) : State := { s with merges := s.merges ++ [m] }

/-- A merge leaves for its words' home slices. One that a KSET issued over a page that has gone since the tie is a lost
write (R105, R303, log 133). -/
def State.sendMerge (s : State) (e : EngineOp) (m : Merge) : State :=
  if e.pieces.isEmpty then s.loseAccess e.th (s.coreOf e.th) true ⟨e.pc, codePermission, e.addr, 0⟩ .m else s.addMerge m

/-- What the operation does (R109 to R118, R126, R131). A TMREAD of a poisoned line poisons both tiles of its pair with
the region's first poisoned line: the model's choice (log 134). A TMREAD that a KSET issued over a page that has gone
since the tie reads free values (log 133). -/
def State.engineEffect (s : State) (team : Nat) (e : EngineOp) : State :=
  let t := s.team team
  let load (d : Nat) (f : List Byte → Tile → Tile) : State :=
    s.modTeam team (fillTile (s.badLine e.pieces) d (f (s.readPieces e.pieces)))
  let store (d : Nat) (f : List Byte → List Byte) : State :=
    s.writeLines e.pieces e.addr.toNat (f (Tile.bytes (t.tile d) 4096)) (t.tile d).poisoned
  let compute (f : Team → Team) : State := s.modTeam team fun t => spreadPoison e.op t (f t)
  match e.op with
  | .tld _ d _ _ => load d.toNat fun bs x => Tile.withData x (ofBytes bs)
  | .tldDr _ d _ _ => load d.toNat fun bs x => Tile.withData x (ofBytes (gatherDigits (e.cfg.getD 0 0) bs))
  | .tldq _ d _ _ _ => load d.toNat fun bs x => loadQuant (readSlot e.slot) e.slot bs x
  | .tst _ d _ _ => store d.toNat id
  | .tstDr _ d _ _ => store d.toNat (scatterDigits (e.cfg.getD 0 0))
  | .tzero _ _ _ => s.modTeam team fun t => (Instr.tilesWritten e.op).foldl (fun t n => t.setTile n []) t
  | .tmma _ _ d a b _ => compute (tmmaTeam (readSlot e.slot) d.toNat a.toNat b.toNat)
  | .tcvt _ _ d a _ => compute (tcvtTeam (readSlot e.slot) d.toNat a.toNat)
  | .tbfy _ _ d a => compute fun t => t.setTile d.toNat (stageTile e.cfg (t.tile a.toNat))
  | .tmergeI64 _ _ m _ _ => s.sendMerge e (e.merge s m.toNat false none)
  | .tmergeF64 _ _ m _ _ => s.sendMerge e (e.merge s m.toNat true none)
  | .tmergeF64Ord _ _ m _ _ =>
    s.sendMerge e (e.merge s m.toNat true (some (bits e.bval.toNat 3 0, bits e.bval.toNat 8 4)))
  | .tmread _ _ m _ _ =>
    let r := if e.pieces.isEmpty then s.fresh 2048 else (ofBytes (s.readPieces e.pieces), s)
    let bad := s.badLine e.pieces
    r.2.modTeam team fun t =>
      (fillTile bad (2 * m.toNat) (fun x => Tile.withData x (r.1.take 1024)) t) |>
        fillTile bad (2 * m.toNat + 1) fun x => Tile.withData x (r.1.drop 1024)
  | _ => s

/-- The place of a region's first line. -/
def regionPlace (pieces : List Piece) : Loc :=
  match pieces with
  | g :: _ => g.2.2.locate g.1
  | [] => .dev 0

/-- The places of the words of a merge that are still to be applied. -/
def Merge.places (m : Merge) : List Loc := m.words.map fun w => placeAt m.pieces (m.va.toNat + 8 * w.1)

/-- A merge of the thread has still to apply a word in a line that the operation writes: the thread's writes to one
place on path M are performed in program order (R158). -/
def State.mergesBefore (s : State) (e : EngineOp) : Bool :=
  let lines := (pieceLines e.pieces).map fun x => x.2.1.line
  s.merges.any fun m => m.th == e.th && m.places.any fun l => lines.contains l.line

/-- The operation can begin: a TMREAD waits for its team's earlier merges to the region and, as .F64, for an open
sequence (R118); a store waits for its thread's earlier merges there (R158), and while a string's stack holds its lines
(R202). Any of them waits at a sleeping channel (R342). -/
def State.engineReady (s : State) (team : Nat) (e : EngineOp) : Bool :=
  let awake := !(pieceLines e.pieces).any fun x => s.asleep x.2.1
  let stores := awake && !s.mergesBefore e && !s.writesHeld ((pieceLines e.pieces).map (·.2.1))
  match e.op with
  | .tld _ _ _ _ => awake
  | .tldDr _ _ _ _ => awake
  | .tldq _ _ _ _ _ => awake
  | .tmread _ _ _ _ f64 =>
    awake && !(s.merges.any fun m => m.th.team == team && regionPlace m.pieces == regionPlace e.pieces) &&
    !(f64 && s.records.any fun r => r.region == regionPlace e.pieces)
  | .tst _ _ _ _ => stores
  | .tstDr _ _ _ _ => stores
  | _ => true

/-- Teams of a core in the order of their turns after a team: by resident place, round-robin (R107). -/
def State.turnsAfter (s : State) (core team : Nat) : List Nat :=
  let all := s.residents core
  (all.dropWhile (· != team)).tail ++ all.takeWhile (· != team) ++ all.filter (· == team)

/-- The team that the engine works for: the holder of the lease, else the first with a queued operation (R107). -/
def State.engineTeam (s : State) (core : Nat) : Option Nat :=
  match (s.core core).lease with
  | some (h, _) => if s.leaseHeld core then some h else (s.turnsAfter core h).find? fun t => !(s.team t).engine.isEmpty
  | none => (s.residents core).find? fun t => !(s.team t).engine.isEmpty

/-- The next operation of the core's engine, once it can begin (R103, R107). -/
def State.nextEngine (s : State) (core : Nat) : Option (Nat × EngineOp) :=
  (s.engineTeam core).bind fun t =>
    match (s.team t).engine with
    | e :: _ => if s.engineReady t e then some (t, e) else none
    | [] => none

/-- The quantum count: operations begun while another resident team's queue is not empty (R107). -/
def State.leaseAfter (s : State) (core team : Nat) : Nat × Nat :=
  let others := (s.residents core).any fun t => t != team && !(s.team t).engine.isEmpty
  let c := match (s.core core).lease with
    | some (h, c) => if h = team ∧ c < (s.team team).lease then c else 0
    | none => 0
  (team, if others then c + 1 else c)

/-- The lease passes on when its holder's queue is empty or its quantum is used; with every queue empty, the place of
the last holder stays known (R107). -/
def State.passLease (s : State) (core team : Nat) : State :=
  if s.leaseHeld core then s
  else match (s.turnsAfter core team).find? fun t => !(s.team t).engine.isEmpty with
    | some t => s.giveLease core t
    | none => s

/-- The operation leaves the queue once performed. -/
def State.runEngine (s : State) (core team : Nat) (e : EngineOp) : State :=
  let lease := s.leaseAfter core team
  let s1 := (pieceLines e.pieces).foldl (fun s x => s.touch x.2.1) (s.engineEffect team e)
  let s2 := s1.modTeam team fun t => { t with engine := t.engine.filter (·.id != e.id) }
  ((s2.setCore core { s2.core core with lease := some lease }).passLease core team).settle

/-! ### Merges (R116, R117) -/

def State.findMerge (s : State) (id : Nat) : Option Merge := s.merges.find? (·.id == id)

/-- The anchor slice of a region. -/
def anchorSlice (l : Loc) : Nat := (watchSlice l).getD 0

def State.findRecord (s : State) (region : Loc) : Option MergeRecord := s.records.find? (·.region == region)
def State.putRecord (s : State) (r : MergeRecord) : State :=
  { s with records := (s.records.filter (·.region != r.region)) ++ [r] }

/-- The last word of an ordered contribution has been applied: the next index may follow, or the record is freed. -/
def State.closeOrdered (s : State) (m : Merge) : State :=
  match m.order, s.findRecord (regionPlace m.pieces) with
  | some (e, n), some r =>
    if e + 1 = n then { s with records := s.records.filter (·.region != r.region) }
    else s.putRecord { r with next := e + 1 }
  | _, _ => s

/-- One word's step at its home slice. -/
def State.applyWord (s : State) (m : Merge) (k : Nat) (c : DWord) : State :=
  let loc := placeAt m.pieces (m.va.toNat + 8 * k)
  let x := leValue (s.bytesAt loc 8)
  let v := if m.float then addF64Bits x c.toNat else (x + c.toNat) % 2 ^ 64
  let s1 := (s.writePlace loc (leBytes 8 v)).touch loc
  let s2 := if m.bad then (match loc with | .dev a => s1.poisonLine (a / 64) | _ => s1) else s1
  let left := m.words.filter fun w => w.1 != k
  if left.isEmpty then
    (({ s2 with merges := s2.merges.filter (·.id != m.id) }).closeOrdered m).settle
  else { s2 with merges := s2.merges.map fun x => if x.id = m.id then { x with words := left } else x }

/-- A word of a merge may be applied: its place is not held (R202), and no earlier merge of the thread has the place
still to write, but that the ordered contributions of a region go by their indices (R117, R158). -/
def State.mayApply (s : State) (m : Merge) (k : Nat) : Bool :=
  let l := placeAt m.pieces (m.va.toNat + 8 * k)
  m.applying && !s.asleep l && !s.writeHeld l && !s.merges.any fun x =>
    decide (x.id < m.id) && x.th == m.th && !(x.order.isSome && m.order.isSome) && x.places.contains l

def State.dropMerge (s : State) (id : Nat) : State := { s with merges := s.merges.filter (·.id != id) }

/-- An ordered contribution at its anchor slice: held, begun, dropped with MERGE_SEQUENCE, or waiting for a record. -/
def State.orderMerge (s : State) (m : Merge) (e n : Nat) : State :=
  let region := regionPlace m.pieces
  let begin_ (s : State) : State :=
    { s with merges := s.merges.map fun x => if x.id = m.id then { x with applying := true } else x }
  match s.findRecord region with
  | none =>
    let slice := anchorSlice region
    if Config.mergeRecords ≤ (s.records.filter fun r => r.slice == slice).length then s
    else
      let s1 := s.putRecord { slice := slice, region := region, tenant := m.tenant, count := n, held := [(e, m.id)] }
      if e = 0 then begin_ s1 else s1
  | some r =>
    let here := (Tab.find r.held e).getD m.id
    if here ≠ m.id ∨ r.count ≠ n ∨ e < r.next then
      ((s.dropMerge m.id).impreciseFault m.th
        ⟨m.pc, codeMergeSequence, m.va, s.attribution m.th.team m.pc .m 0⟩).settle
    else
      let s1 := s.putRecord { r with held := Tab.put r.held e m.id }
      if e = r.next then begin_ s1 else s1

/-- Ordered contributions that a step at the anchor can act on. -/
def State.orderActs (s : State) (m : Merge) : Bool :=
  match m.order with
  | some (e, n) =>
    !m.applying &&
    (match s.findRecord (regionPlace m.pieces) with
     | none => decide ((s.records.filter fun r => r.slice == anchorSlice (regionPlace m.pieces)).length < Config.mergeRecords)
     | some r => Tab.find r.held e != some m.id || e == r.next || r.count != n)
  | none => false

/-! ### Meanings -/

/-- KSET_IMM (R105). The knot's tie count ← c + 1; what it completes issues. -/
def execKsetImm (sw : Bool) (k : BitVec 4) (c : BitVec 10) (s : State) : Host.Outcome State Fault Refusal :=
  runWhole (.ksetImm sw k c) (ksetOp k.toNat (c.toNat + 1)) s

/-- KSET (R105). The knot's tie count ← A; what it completes issues. -/
def execKset (sw : Bool) (k : BitVec 4) (a : BitVec 7) (s : State) : Host.Outcome State Fault Refusal :=
  runWhole (.kset sw k a) (fun th s =>
    let v := (s.thread th).reg a.toNat
    if v.toNat = 0 ∨ 1024 < v.toNat then .trap s codeIllegalOperand 0 (v.setWidth 64)
    else ksetOp k.toNat v.toNat th s) s

/-- TLD (R109). Queues a load of the tile's data. -/
def execTld (sw : Bool) (d : BitVec 7) (a : BitVec 7) (i : BitVec 7) (s : State) : Host.Outcome State Fault Refusal :=
  runWhole (.tld sw d a i) (fun th s => tileOp (.tld false d a i) ((s.thread th).ea a i 4096) 4096 needLoad 0 [] th s) s

/-- TLD_DR (R131). Queues a load of the tile in digit-reversed order. -/
def execTldDr (sw : Bool) (d : BitVec 7) (a : BitVec 7) (i : BitVec 7) (s : State) : Host.Outcome State Fault Refusal :=
  runWhole (.tldDr sw d a i) (fun th s => digitOp (.tldDr false d a i) ((s.thread th).ea a i 4096) needLoad th s) s

/-- TST (R109). Queues a store of the tile's data. -/
def execTst (sw : Bool) (d : BitVec 7) (a : BitVec 7) (i : BitVec 7) (s : State) : Host.Outcome State Fault Refusal :=
  runWhole (.tst sw d a i) (fun th s => tileOp (.tst false d a i) ((s.thread th).ea a i 4096) 4096 needStore 0 [] th s) s

/-- TST_DR (R131). Queues a store of the tile in digit-reversed order. -/
def execTstDr (sw : Bool) (d : BitVec 7) (a : BitVec 7) (i : BitVec 7) (s : State) : Host.Outcome State Fault Refusal :=
  runWhole (.tstDr sw d a i) (fun th s => digitOp (.tstDr false d a i) ((s.thread th).ea a i 4096) needStore th s) s

/-- TLDQ (R110). Queues the load of a quantised operand through the slot. -/
def execTldq (sw : Bool) (d : BitVec 7) (a : BitVec 7) (i : BitVec 7) (q : BitVec 3) (s : State) : Host.Outcome State Fault Refusal :=
  runWhole (.tldq sw d a i q) (fun th s => tldqOp (.tldq false d a i q) ((s.thread th).ea a i 4096) q th s) s

/-- TZERO (R111). Queues the zeroing of a tile or a pair. -/
def execTzero (sw : Bool) (t : BitVec 4) (w : Bool) (s : State) : Host.Outcome State Fault Refusal :=
  runWhole (.tzero sw t w) (fun th s =>
    if s.tileWaits th then .stall s else .go (s.enqueue th (.tzero false t w) 0 0 0 [] [])) s

/-- TMMA (R112). Ties into the knot for a tile multiply. -/
def execTmma (sw : Bool) (k : BitVec 4) (d : BitVec 4) (a : BitVec 4) (b : BitVec 4) (f : BitVec 3) (s : State) : Host.Outcome State Fault Refusal :=
  runWhole (.tmma sw k d a b f) (slotTie k.toNat (.tmma false k d a b f) f [0, 1, 4, 5]) s

/-- TCVT (R113). Ties into the knot for a conversion. -/
def execTcvt (sw : Bool) (k : BitVec 4) (d : BitVec 4) (a : BitVec 4) (f : BitVec 3) (s : State) : Host.Outcome State Fault Refusal :=
  runWhole (.tcvt sw k d a f) (slotTie k.toNat (.tcvt false k d a f) f [0, 1, 2, 5, 6, 7]) s

/-- TGETF (R114). D ← a word of the tile. -/
def execTgetf (sw : Bool) (d : BitVec 7) (t : BitVec 4) (b : BitVec 7) (s : State) : Host.Outcome State Fault Refusal :=
  runPly (.tgetf sw d t b) (fun th s => tgetfOp d.toNat t.toNat ((s.thread th).reg b.toNat) th s) s

/-- TSETF (R114). A word of the tile ← D. -/
def execTsetf (sw : Bool) (d : BitVec 7) (t : BitVec 4) (b : BitVec 7) (s : State) : Host.Outcome State Fault Refusal :=
  runPly (.tsetf sw d t b) (fun th s =>
    let u := s.thread th
    tsetfOp (u.reg d.toNat) t.toNat (u.reg b.toNat) th s) s

/-- TMERGE_I64 (R116). Ties into the knot for a merge of the pair into the region. -/
def execTmergeI64 (sw : Bool) (k : BitVec 4) (m : BitVec 3) (a : BitVec 7) (b : BitVec 7) (s : State) : Host.Outcome State Fault Refusal :=
  runWhole (.tmergeI64 sw k m a b) (fun th s =>
    let u := s.thread th
    regionTie k.toNat (.tmergeI64 false k m a b) (u.pair a.toNat) (u.reg b.toNat) needMerge false th s) s

/-- TMERGE_F64 (R116). Ties into the knot for a merge of the pair into the region. -/
def execTmergeF64 (sw : Bool) (k : BitVec 4) (m : BitVec 3) (a : BitVec 7) (b : BitVec 7) (s : State) : Host.Outcome State Fault Refusal :=
  runWhole (.tmergeF64 sw k m a b) (fun th s =>
    let u := s.thread th
    regionTie k.toNat (.tmergeF64 false k m a b) (u.pair a.toNat) (u.reg b.toNat) needMerge false th s) s

/-- TMERGE_F64_ORD (R117). Ties into the knot for a merge of the pair into the region. -/
def execTmergeF64Ord (sw : Bool) (k : BitVec 4) (m : BitVec 3) (a : BitVec 7) (b : BitVec 7) (s : State) : Host.Outcome State Fault Refusal :=
  runWhole (.tmergeF64Ord sw k m a b) (fun th s =>
    let u := s.thread th
    regionTie k.toNat (.tmergeF64Ord false k m a b) (u.pair a.toNat) (u.reg b.toNat) needMerge true th s) s

/-- TMREAD (R118). Ties into the knot for a read of the region into the pair. It has no B operand: the tie record's B
value is 0, the model's choice (log 135). -/
def execTmread (sw : Bool) (k : BitVec 4) (m : BitVec 3) (a : BitVec 7) (w : Bool) (s : State) : Host.Outcome State Fault Refusal :=
  runWhole (.tmread sw k m a w) (fun th s =>
    regionTie k.toNat (.tmread false k m a w) ((s.thread th).pair a.toNat) 0 needRegion false th s) s

/-- TBFY (R125). Ties into the knot for a butterfly stage. -/
def execTbfy (sw : Bool) (k : BitVec 4) (d : BitVec 4) (a : BitVec 4) (s : State) : Host.Outcome State Fault Refusal :=
  runWhole (.tbfy sw k d a) (plainTie k.toNat (.tbfy false k d a)) s

/-- TFCFG (R123). The team's transform configuration ← the quad, checked. -/
def execTfcfg (sw : Bool) (a : BitVec 7) (s : State) : Host.Outcome State Fault Refusal :=
  runPly (.tfcfg sw a) (tfcfgOp a.toNat) s

/-- TTWID (R121). D ← the cosine and minus the sine of 2πk/M. -/
def execTtwid (sw : Bool) (d : BitVec 7) (a : BitVec 7) (b : BitVec 7) (s : State) : Host.Outcome State Fault Refusal :=
  runPly (.ttwid sw d a b) (fun th s =>
    let u := s.thread th
    ttwidOp d.toNat (u.reg a.toNat) (u.reg b.toNat) th s) s

/-- ENGINE_OPERATION (R103). The engine performs the next queued operation. -/
def execEngineOperation (core : Nat) (s : State) : Host.Outcome State Fault Refusal :=
  match s.nextEngine core with
  | some (t, e) => .next (s.runEngine core t e)
  | none => .next s

/-- MERGE_CONTRIBUTION (R116). A merge contribution is applied to its word at the home slice. -/
def execMergeContribution (id : Nat) (word : Nat) (s : State) : Host.Outcome State Fault Refusal :=
  match s.findMerge id with
  | some m =>
    match Tab.find m.words word with
    | some c =>
      if s.mayApply m word then .next (s.applyWord m word c) else .next s
    | none => .next s
  | none => .next s

/-- ORDERED_MERGE_APPLY (R117). An ordered contribution is held, begun or dropped at the anchor slice. -/
def execOrderedMergeApply (id : Nat) (s : State) : Host.Outcome State Fault Refusal :=
  match s.findMerge id with
  | some m =>
    match m.order with
    | some (e, n) => if s.orderActs m then .next (s.orderMerge m e n) else .next s
    | none => .next s
  | none => .next s

end Sys2Proof.Machine
end

