-- ==== Sys2Proof/Machine/Strings.lean ====
section
/-! DEFINITION. Succinct strings (R193 to R209): registration, the count directory and its splicer, queries, updates
in place, and housekeeping. -/
namespace Sys2Proof.Machine
open Sys2Proof

/-! ### Bits and counts -/

/-- Bit p of a string (R193). -/
def State.strBit (s : State) (x : Str) (p : Nat) : Bool := (Memory.read s.mem (x.place (p / 8))).getLsbD (p % 8)

/-- O(i): ones in positions 0 to i − 1 (R204). -/
def State.onesTo (s : State) (x : Str) : Nat → Nat
  | 0 => 0
  | n + 1 => s.onesTo x n + (s.strBit x n).toNat

/-- EXCESS(i − 1), with EXCESS(−1) = 0 (R204). -/
def State.excessTo (s : State) (x : Str) (i : Nat) : Int := 2 * (s.onesTo x i : Int) - i

/-- The block entry of Table 13.3, from the string's bits. -/
def State.blockEntry (s : State) (x : Str) (b : Nat) : Word :=
  let n := min 512 (x.len - 512 * b)
  let step (acc : Int × Int × Int × Nat) (k : Nat) : Int × Int × Int × Nat :=
    let one := s.strBit x (512 * b + k)
    let e := acc.1 + if one then 1 else -1
    (e, if k = 0 then e else min acc.2.1 e, if k = 0 then e else max acc.2.2.1 e, acc.2.2.2 + one.toNat)
  let r := (List.range n).foldl step (0, 0, 0, 0)
  BitVec.ofInt 11 r.2.2.1 ++ BitVec.ofInt 11 r.2.1 ++ BitVec.ofNat 10 r.2.2.2

def entryOnes (w : Word) : Nat := bits w.toNat 9 0
def entryMin (w : Word) : Int := sextNat 11 (bits w.toNat 20 10)
def entryMax (w : Word) : Int := sextNat 11 (bits w.toNat 31 21)
def Str.entry (x : Str) (b : Nat) : Word := Tab.get x.entries b 0

/-- Positions of a block below LEN. -/
def Str.counted (x : Str) (b : Nat) : Nat := min 512 (x.len - 512 * b)

/-- An excess with the least and the greatest prefix excess; zeros while there is no position. -/
abbrev Excess := Int × Int × Int

/-- From the block entries: the excess of blocks lo to hi − 1, and their least and greatest prefix excess relative to
their start (R198, R199, R203). -/
def Str.excessOf (x : Str) (lo hi : Nat) : Excess :=
  (List.range (min hi ((x.len + 511) / 512) - lo)).foldl (fun acc k =>
    let w := x.entry (lo + k)
    let least := acc.1 + entryMin w
    let greatest := acc.1 + entryMax w
    (acc.1 + 2 * (entryOnes w : Int) - x.counted (lo + k),
      if k = 0 then least else min acc.2.1 least, if k = 0 then greatest else max acc.2.2 greatest)) (0, 0, 0)

/-- UNBAL of a BP string: a total excess that is not zero or a negative prefix excess (R203). -/
def Str.balance (x : Str) : Str :=
  if x.bp then
    let r := x.excessOf 0 x.blocks
    { x with unbal := decide (r.1 ≠ 0) || decide (r.2.1 < 0) }
  else x

/-! ### The directory's paths (R198, R199, R201) -/

/-- An entry of a table whose absent entries are zero. -/
def Tab.putEntry {n : Nat} (t : Tab (BitVec n)) (k : Nat) (w : BitVec n) : Tab (BitVec n) :=
  if w = 0 then Tab.drop t k else Tab.put t k w

/-- S, the superblocks of a string (R199). -/
def Str.superblocks (x : Str) : Nat := (x.blocks + 7) / 8

/-- H, the levels of the tree over `n` superblocks (R199). -/
def treeLevels (n : Nat) : Nat := max 1 (((List.range 10).find? fun h => decide (n ≤ 8 ^ h)).getD 10)

def lowbit (n : Nat) : Nat := n - Nat.land n (n - 1)

/-- The Fenwick nodes, of `n`, whose span holds superblock `k` (R198). -/
def fenPath (n : Nat) : Nat → Nat → List Nat
  | 0, _ => []
  | fuel + 1, k => if k < n then k :: fenPath n fuel (k + lowbit (k + 1)) else []

def Str.super (x : Str) (k : Nat) : DWord := Tab.get x.supers k 0
/-- FEN of a superblock entry. -/
def superFen (w : DWord) : Nat := bits w.toNat 39 0

/-- The Fenwick nodes whose sum counts the ones before superblock `k` (R198). -/
def fenPrefix : Nat → Nat → List Nat
  | 0, _ => []
  | fuel + 1, k => if k = 0 then [] else (k - 1) :: fenPrefix fuel (k - lowbit k)

/-- Bytes of an area of a directory region, which starts the next on a 64-byte boundary (R199). -/
def areaBytes (n : Nat) : Nat := (n + 63) / 64 * 64

/-- Offset in the region of a superblock entry, and of node `m` of level `h + 1` of the tree (R199). -/
def Str.superOffset (x : Str) (k : Nat) : Nat := areaBytes (4 * x.blocks) + 8 * k
def Str.nodeOffset (x : Str) (h m : Nat) : Nat :=
  x.superOffset 0 + areaBytes (8 * x.superblocks) +
    16 * ((((List.range h).map fun j => (x.superblocks + 8 ^ (j + 1) - 1) / 8 ^ (j + 1)).sum) + m)

/-- The directory entries on the tree path above block `b`, with those of its superblock's blocks. -/
def Str.treePath (x : Str) (b : Nat) : List Nat :=
  32 * (b / 8) :: x.superOffset (b / 8) ::
    (List.range (treeLevels x.superblocks)).map fun h => x.nodeOffset h (b / 8 / 8 ^ (h + 1))

/-- The places of the directory that a new entry of block `b` writes: the entry, its Fenwick path and its tree path
(R201). -/
def Str.writePath (x : Str) (b : Nat) : List Loc :=
  (4 * b :: ((fenPath x.superblocks 40 (b / 8)).map x.superOffset ++ x.treePath b)).map fun o => .dev (x.dirBase + o)

/-- The places of the directory that a count to block `b` reads: its Fenwick prefix and its tree path. -/
def Str.readPath (x : Str) (b : Nat) : List Loc :=
  ((fenPrefix 40 (b / 8)).map x.superOffset ++ x.treePath b).map fun o => .dev (x.dirBase + o)

/-- A value in 12 bits, saturating (R198). -/
def saturate12 (v : Int) : BitVec 12 := BitVec.ofInt 12 (max (-2048) (min 2047 v))

/-- A change in ONES goes along the Fenwick path of a superblock. -/
def Str.addOnes (x : Str) (k : Nat) (d : Int) : Str :=
  { x with supers := (fenPath x.superblocks 40 k).foldl (fun t j =>
      let w := Tab.get t j 0
      Tab.putEntry t j (w.extractLsb' 40 24 ++ BitVec.ofInt 40 (superFen w + d))) x.supers }

/-- MINEX and MAXEX of a superblock, recomputed. -/
def Str.boundSuper (x : Str) (k : Nat) : Str :=
  let r := x.excessOf (8 * k) (8 * k + 8)
  { x with supers := Tab.putEntry x.supers k (saturate12 r.2.2 ++ saturate12 r.2.1 ++ (x.super k).extractLsb' 0 40) }

/-- The tree nodes above a superblock, recomputed. -/
def Str.boundNodes (x : Str) (k : Nat) : Str :=
  { x with nodes := (List.range (treeLevels x.superblocks)).foldl (fun t h =>
      let span := 8 ^ (h + 1)
      let r := x.excessOf (8 * (k / span * span)) (8 * (k / span * span + span))
      Tab.putEntry t ((h + 1) * 2 ^ 32 + k / span)
        (0#24 ++ BitVec.ofInt 40 r.2.2 ++ 0#24 ++ BitVec.ofInt 40 r.2.1)) x.nodes }

/-- A block's new entry, with the Fenwick path and the tree path above it (R201, R206). -/
def Str.setBlock (x : Str) (b : Nat) (w : Word) : Str :=
  let d := (entryOnes w : Int) - entryOnes (x.entry b)
  (({ x with entries := Tab.putEntry x.entries b w } : Str).addOnes (b / 8) d).boundSuper (b / 8) |>.boundNodes (b / 8)

/-! ### The splicer (R201) -/

def State.findStr (s : State) (key : Nat) : Option Str := s.strings.find? (·.key == key)

/-- The registered string a handle value names for a tenant (R196). -/
def State.strOf (s : State) (tenant : Nat) (h : Word) : Option Str :=
  if h.toNat < 4096 then s.findStr (tenant * 4096 + h.toNat) else none

/-- The splicer takes the block at the head of its queue and reads its line once. -/
def State.takeBlock (s : State) (stack : Nat) : State :=
  let p := s.splicer stack
  match p.queue with
  | [] => s
  | (key, b) :: rest =>
    match s.findStr key with
    | none => s.setSplicer stack { p with queue := rest }
    | some x =>
      let build := decide (x.blocks ≤ b)
      let c := if build then x.buildFrom else b
      s.awake [.dev (x.place (64 * c))] fun s =>
        let s1 := s.modStr key fun y =>
          if build then { y with buildFrom := y.buildFrom + 1 } else { y with stale := y.stale.filter (· != b) }
        s1.setSplicer stack { p with
          queue := if build ∧ c + 1 < x.blocks then p.queue else rest
          repairing := some (key, c, s.blockEntry x c)
          again := false }

/-- The repair ends: the entry and its paths are written, and the balance is checked, but not before the build's last
repair (R203); a block marked meanwhile is STALE again, another is VALID (R201). It is queued again though the queue be
full: the model's choice (log 173). -/
def State.finishRepair (s : State) (stack key b : Nat) (w : Word) : State :=
  let p := s.splicer stack
  match s.findStr key with
  | none => s.setSplicer stack { p with repairing := none, again := false }
  | some x =>
    let y := { x.setBlock b w with
      building := x.building && decide (b + 1 ≠ x.blocks)
      stale := if p.again then insertNat x.stale b else x.stale }
    let z := if y.building then y else y.balance
    (s.modStr key fun _ => z).setSplicer stack { p with
      queue := if p.again then p.queue ++ [(key, b)] else p.queue, repairing := none, again := false }

def State.splice (s : State) (stack : Nat) : State :=
  let p := s.splicer stack
  match p.repairing with
  | some (key, b, w) =>
    s.awake (match s.findStr key with | some x => x.writePath b | none => []) fun s => s.finishRepair stack key b w
  | none => s.takeBlock stack

def State.splicerActs (s : State) (stack : Nat) : Bool :=
  let p := s.splicer stack
  !p.failed && (p.repairing.isSome || !p.queue.isEmpty)

/-! ### Admission at the home stack (R162, R202) -/

/-- An earlier near-memory command of the thread has yet to reach these bytes, under whatever alias. -/
def State.afterCommand (s : State) (th : ThreadRef) (id va loc len : Nat) : Bool :=
  s.commands.any fun c => decide (c.id < id) && c.th == th &&
    (overlaps va len c.va c.len ||
     ((s.rangeCells c.core c.tenant c.va c.len).any fun e =>
       match e.1 with | .dev a => overlaps loc len a e.2 | _ => false) ||
     s.segments.any fun g => g.cmd == c.id && overlaps loc len g.loc g.len)

/-- A query or an update follows what the thread did earlier on path N in the string's lines, reads and writes: row
operations, reductions and near-memory commands (R158). -/
def State.stringBehind (s : State) (r : Req) (key : Nat) : Bool :=
  let here (l : Loc) : Bool := (s.stringsAt l).any fun e => e.1.key == key
  let follows : Bool :=
    (s.reqs.any fun q => decide (q.id < r.id) && q.th == r.th && q.path == .n && q.parts.any fun x =>
      !x.done && (here x.loc || q.kind.sourceLines.any fun e => here e.2)) ||
    s.strings.any fun x => x.key == key && x.extents.any fun e => s.afterCommand r.th r.id (x.base + e.1) e.2.2 e.2.1
  match r.kind with
  | .query _ _ _ => follows
  | .update _ _ _ _ _ => follows
  | _ => false

/-- An operation on a string may be admitted: the thread's earlier operations on the string have been, and its earlier
stores to the string's lines have been performed; and, for a query or an update, its earlier operations there on path
N. -/
def State.mayAdmit (s : State) (r : Req) (h : Word) : Bool :=
  let key := r.tenant * 4096 + h.toNat
  !(s.reqs.any fun q => decide (q.id < r.id) && q.th == r.th &&
    ((q.onString key && q.admitted.isNone) ||
     (q.path == .p && q.kind.writes && q.parts.any fun x => !x.done && (s.stringsAt x.loc).any fun e => e.1.key == key))) &&
  !s.stringBehind r key

/-- Updates and drops of the string admitted earlier are over (R206, R207); for an update or a drop, every operation
admitted earlier is. -/
def State.turnOf (s : State) (r : Req) (h : Word) (all : Bool) : Bool :=
  match r.admitted with
  | none => false
  | some n => !(s.reqs.any fun q => q.id != r.id && q.onString (r.tenant * 4096 + h.toNat) &&
      (match q.admitted with | some m => decide (m < n) || (decide (m = n) && decide (q.id < r.id)) | none => false) &&
      (all || (match q.kind with
        | .update _ _ _ _ _ => true
        | .sdrop _ => true
        | _ => false)))

def State.admitReq (s : State) (r : Req) : State := s.modReq r.id fun x => { x with admitted := some s.tick }

/-! ### Queries (R204, R205) -/

/-- The sentinel NONE. -/
def noneValue : DWord := BitVec.allOnes 64
def natValue (n : Option Nat) : DWord := match n with | some p => BitVec.ofNat 64 p | none => noneValue

/-- The least position from `lo` below `hi` that satisfies `f`; the greatest below `hi`. -/
def leastFrom (f : Nat → Bool) (lo hi : Nat) : Option Nat := ((List.range (hi - lo)).map (lo + ·)).find? f
def greatestBelow (f : Nat → Bool) (hi : Nat) : Option Nat := (List.range hi).reverse.find? f

/-- The value of a query, by its number: RANK0, RANK1, SEL0, SEL1, EXCESS, CLOSE, OPEN, ENCL (R204). -/
def State.queryValue (s : State) (x : Str) (f i : Nat) : DWord :=
  let l := x.len
  let o := s.onesTo x
  let e := s.excessTo x
  match f with
  | 0 => if i ≤ l then BitVec.ofNat 64 (i - o i) else noneValue
  | 1 => if i ≤ l then BitVec.ofNat 64 (o i) else noneValue
  | 2 => natValue (if i = 0 then none else leastFrom (fun p => !s.strBit x p && p - o p == i - 1) 0 l)
  | 3 => natValue (if i = 0 then none else leastFrom (fun p => s.strBit x p && o p == i - 1) 0 l)
  | 4 => if i < l then (BitVec.ofInt 40 (e (i + 1))).setWidth 64 else noneValue
  | 5 => natValue (if i < l ∧ s.strBit x i then leastFrom (fun j => e (j + 1) == e (i + 1) - 1) (i + 1) l else none)
  | 6 => natValue (if i < l ∧ !s.strBit x i then greatestBelow (fun j => e j == e (i + 1)) i else none)
  | _ => natValue (if i < l ∧ s.strBit x i then greatestBelow (fun j => e j == e (i + 1) - 2) i else none)

/-- Dependence set: the number of leading blocks (R202). -/
def Str.depends (x : Str) (f i : Nat) : Nat :=
  match f with
  | 0 => min ((i + 511) / 512) x.blocks
  | 1 => min ((i + 511) / 512) x.blocks
  | 4 => min (i / 512 + 1) x.blocks
  | _ => x.blocks

def State.blocksValid (s : State) (x : Str) (n : Nat) : Bool := (List.range n).all (s.blockValid x)

/-- A poisoned line among the leading blocks, as the address a poisoned result carries (R205, R304): the lines of the
dependence set only, and the first of them: the model's choice (log 172). -/
def State.strBad (s : State) (x : Str) (n : Nat) : Option DWord :=
  ((List.range n).find? fun b => s.isPoisoned (.dev (x.place (64 * b)))).map fun b => BitVec.ofNat 64 (x.base + 64 * b)

/-- The answer to a query on a registered string. A bracket query of a PLAIN string gives NONE without poison: the
model's choice (log 172). -/
def State.answer (s : State) (x : Str) (r : Req) (f : Nat) (operand : DWord) : Result × State :=
  if (s.splicer x.stack).failed then
    let q := s.fresh 2
    ({ vals := q.1, poison := some (BitVec.ofNat 64 x.base) }, q.2)
  else if 5 ≤ f ∧ x.bp = false then ({ vals := dwordWords noneValue }, s)
  else if 5 ≤ f ∧ x.unbal then
    ({ fault := some ⟨r.pc, codeUnbalanced, operand, BitVec.ofNat 64 x.handle⟩ }, s)
  else ({ vals := dwordWords (s.queryValue x f operand.toNat), poison := s.strBad x (x.depends f operand.toNat) }, s)

/-- The lines of the first `n` blocks: a query waits for their channels (R342, log 62). -/
def Str.lines (x : Str) (n : Nat) : List Loc := (List.range n).map fun b => .dev (x.place (64 * b))

/-- The places of the directory that a query reads: the paths of the block it names, and of the one its answer lies in
(log 62). -/
def State.queryReads (s : State) (x : Str) (f i : Nat) : List Loc :=
  let named := if f = 2 ∨ f = 3 then [] else [i / 512]
  let found := if f = 0 ∨ f = 1 ∨ f = 4 then [] else [(s.queryValue x f i).toNat / 512]
  ((named ++ found).filter fun b => decide (b < x.blocks)).flatMap x.readPath

/-- A query at its home stack: it is admitted, and answered once its dependence set is VALID and its turn has come. -/
def State.runQuery (s : State) (r : Req) (f : Nat) (h : Word) (operand : DWord) : State :=
  match r.admitted with
  | none => if s.mayAdmit r h then s.admitReq r else s
  | some _ =>
    if s.turnOf r h false then
      match s.strOf r.tenant h with
      | none => ((s.giveResult r.th r.id { vals := dwordWords noneValue }).dropReq r.id).settle
      | some x =>
        if (s.splicer x.stack).failed then
          let q := s.answer x r f operand
          ((q.2.giveResult r.th r.id q.1).dropReq r.id).settle
        else if s.blocksValid x (x.depends f operand.toNat) then
          s.awake (x.lines (x.depends f operand.toNat) ++ s.queryReads x f operand.toNat) fun s =>
            let q := s.answer x r f operand
            ((q.2.giveResult r.th r.id q.1).dropReq r.id).settle
        else s
    else s

/-- A query waits for repairs. -/
def State.queryActs (s : State) (r : Req) (f : Nat) (h : Word) (operand : DWord) : Bool :=
  match r.admitted with
  | none => s.mayAdmit r h
  | some _ => s.turnOf r h false &&
    (match s.strOf r.tenant h with
     | none => true
     | some x => (s.splicer x.stack).failed || s.blocksValid x (x.depends f operand.toNat))

/-- A query of a thread on path N; class L (R205). -/
def queryOp (f : Nat) (d a b : Nat) (th : ThreadRef) (s : State) : Effect :=
  let t := s.thread th
  if t.full || s.heldAtIssue th .n false then .stall s
  else
    .go ((s.outstand th s.nextId d 2 none none).addReq (s.newReq th .n (.query f (t.reg a) (t.pair b)) (t.pair b)))

/-! ### Updates in place (R206) -/

/-- BINS: bit p of the string afterwards. -/
def insertedBit (old : Nat → Bool) (pos c len : Nat) (pattern : DWord) (p : Nat) : Bool :=
  if p < pos then old p else if p < pos + c then pattern.getLsbD (p - pos) else if p < len + c then old (p - c) else old p

/-- BDEL: bit p of the string afterwards. -/
def deletedBit (old : Nat → Bool) (pos c len : Nat) (p : Nat) : Bool :=
  if p < pos then old p else if p + c < len then old (p + c) else if p < len then false else old p

def packBits (f : Nat → Bool) (k : Nat) : Byte :=
  BitVec.ofNat 8 (((List.range 8).map fun j => if f (8 * k + j) then 2 ^ j else 0).sum)

/-- The refusal of an update against the string as it stands: code and TRAPAUX. -/
def updateBad (x : Option Str) (insert : Bool) (pos : DWord) (c : Word) : Option (Word × DWord) :=
  match x with
  | none => some (codeIllegalOperand, 1)
  | some x =>
    if c.toNat = 0 ∨ 64 < c.toNat then some (codeIllegalOperand, 2)
    else if insert then
      if x.len < pos.toNat then some (codeIllegalOperand, 3)
      else if x.cap < x.len + c.toNat then some (codeCapacity, BitVec.ofNat 64 x.handle)
      else none
    else if x.len < pos.toNat + c.toNat then some (codeIllegalOperand, 3)
    else none

/-- The other line whose bits an update moves into block `b`: the one before for BINS, the next for BDEL; its own bits
keep their poison in any case. -/
def movedFrom (insert : Bool) (pos c len b : Nat) : Option Nat :=
  if insert then
    if max (512 * b) (pos + c) < min (512 * b + c) (len + c) then some (b - 1) else none
  else if max pos (512 * (b + 1) - c) < min (512 * (b + 1)) (len - c) then some (b + 1) else none

/-- Blocks whose lines an update rewrites. -/
def updatedBlocks (insert : Bool) (pos c len : Nat) : List Nat :=
  let top := if insert then len + c else len
  (List.range ((top + 511) / 512 - pos / 512)).map (pos / 512 + ·)

/-- An update marks the blocks of other strings that share a line it rewrites (R200). -/
def State.markOthers (s : State) (x : Str) (b : Nat) : State :=
  (s.stringsAt (.dev (x.place (64 * b)))).foldl (fun s e => if e.1.key = x.key then s else s.mark e.1 e.2) s

/-- Rewrites bytes lo to hi − 1 of the range; a line that takes poisoned source bits from another is written poisoned.
-/
def State.rewrite (s : State) (x : Str) (f : Nat → Bool) (lo hi : Nat) (blocks : List Nat) (near : Nat → Option Nat) :
    State :=
  let bs := (List.range (hi - lo)).map fun k => packBits f (lo + k)
  let s1 := (List.range (hi - lo)).foldl (fun s' k => s'.setBytes (.dev (x.place (lo + k))) [bs.getD k 0])
    (blocks.foldl (fun s b => s.markOthers x b) s)
  blocks.foldl (fun s' b =>
    match near b with
    | some n => if s.isPoisoned (.dev (x.place (64 * n))) then s'.poisonLine (x.place (64 * b) / 64) else s'
    | none => s') s1

/-- The string's blocks recounted at a new length, with their paths, and its balance checked (R203, R206). -/
def State.recount (s : State) (key len : Nat) (blocks : List Nat) : State :=
  s.modStr key fun x =>
    let y := { x with len := len }
    (blocks.foldl (fun y b => y.setBlock b (s.blockEntry y b)) y).balance

def State.performUpdate (s : State) (x : Str) (insert : Bool) (pos : Nat) (pattern : DWord) (c : Nat) : State :=
  let new := if insert then x.len + c else x.len - c
  let f := if insert then insertedBit (s.strBit x) pos c x.len pattern else deletedBit (s.strBit x) pos c x.len
  let blocks := updatedBlocks insert pos c x.len
  (s.rewrite x f (pos / 8) ((max x.len new + 7) / 8) blocks (movedFrom insert pos c x.len)).recount x.key new blocks

/-- A line that an update rewrites is held for another string that shares it: an operation admitted there earlier is
held, or its splicer's queue is full (R200, R202). -/
def State.updateHeld (s : State) (r : Req) (x : Str) (insert : Bool) (pos c : Nat) : Bool :=
  let es := ((updatedBlocks insert pos c x.len).flatMap fun b => s.stringsAt (.dev (x.place (64 * b)))).filter fun e =>
    e.1.key != x.key
  s.marksWait es || es.any fun e => s.reqs.any fun q => q.onString e.1.key &&
    (match q.admitted, r.admitted with | some m, some n => decide (m < n) || (m == n && decide (q.id < r.id)) | _, _ => false) &&
    (match q.kind.handle? with | some (_, h) => h | none => false)

/-- An admitted update's turn has come, every block is VALID, and what it writes is held for no other string. -/
def State.updateDue (s : State) (r : Req) (insert : Bool) (h : Word) (pos : DWord) (c : Word) : Bool :=
  s.turnOf r h true &&
  (match s.strOf r.tenant h with
   | some x => s.blocksValid x x.blocks &&
     ((updateBad (some x) insert pos c).isSome || !s.updateHeld r x insert pos.toNat c.toNat)
   | none => true)

/-- The lines that an update reads and rewrites, when it is not refused, and the directory's for the blocks it rewrites:
it waits for their channels (R342). -/
def updateLines (x : Option Str) (insert : Bool) (pos : DWord) (c : Word) : List Loc :=
  match x, updateBad x insert pos c with
  | some x, none =>
    let blocks := updatedBlocks insert pos.toNat c.toNat x.len
    ((blocks ++ blocks.filterMap (movedFrom insert pos.toNat c.toNat x.len)).map fun b => .dev (x.place (64 * b))) ++
      blocks.flatMap x.writePath
  | _, _ => []

/-- A BINS or BDEL at its home stack: admitted, then checked and performed in its turn once every block is VALID. -/
def State.runUpdate (s : State) (r : Req) (insert : Bool) (h : Word) (pos pattern : DWord) (c : Word) : State :=
  match r.admitted with
  | none => if s.mayAdmit r h then s.admitReq r else s
  | some _ =>
    let x := s.strOf r.tenant h
    if s.updateDue r insert h pos c then
      s.awake (updateLines x insert pos c) fun s =>
        let s1 := s.dropReq r.id
        match updateBad x insert pos c, x with
        | some e, _ =>
          if (s1.thread r.th).status = .exited then s1.settle
          else (s1.takeTrap r.th .precise ⟨r.pc, e.1, 0, e.2⟩ r.pc).settle
        | none, some x => ((s1.performUpdate x insert pos.toNat pattern c.toNat).advanceLive r.th).settle
        | none, none => s1
    else s

def State.updateActs (s : State) (r : Req) (insert : Bool) (h : Word) (pos : DWord) (c : Word) : Bool :=
  match r.admitted with
  | none => s.mayAdmit r h
  | some _ => s.updateDue r insert h pos c

/-- BINS and BDEL wait at issue until the home stack has checked them. -/
def updateOp (insert : Bool) (h : Word) (pos pattern : DWord) (c : Word) (th : ThreadRef) (s : State) : Effect :=
  if (s.thread th).waitOp.isSome || s.heldAtIssue th .n true then .stall s
  else
    .stall (((s.modThread th fun t => { t with waitOp := some s.nextId }).addReq
      (s.newReq th .n (.update insert h pos pattern c) pos)).noteWrite th .n s.nextId 0)

/-! ### SREG (R195) -/

/-- A descriptor's value from its 64 bytes: BASE, CAP, LEN, KIND; none when a must-be-zero bit is set or a limit of
Table 13.1 is broken. -/
def readDescriptor (bs : List Byte) : Option (Nat × Nat × Nat × Bool) :=
  let v := leValue bs
  let base := bits v 56 0
  let cap := bits v 102 64
  let len := bits v 166 128
  if bits v 511 201 ≠ 0 ∨ bits v 199 193 ≠ 0 ∨ bits v 191 167 ≠ 0 ∨ bits v 127 103 ≠ 0 ∨ bits v 63 57 ≠ 0 then none
  else if base % 512 ≠ 0 ∨ cap % 512 ≠ 0 ∨ cap < 512 ∨ 2 ^ 38 < cap ∨ cap < len then none
  else some (base, cap, len, v / 2 ^ 192 % 2 == 1)

/-- A page of a range meets R193: SUC, R and W, one HOME die, none of STRIPE, OPT and PEER. -/
def rangeLeaf (l : Leaf) (home : Nat) : Bool :=
  l.suc && l.r && l.w && l.home == home && !l.stripe && !l.opt && !l.peer

/-- The device pieces of a range, 4 KiB at a time; none when a page breaks R193 (R195). -/
def State.bindRange (s : State) (th : ThreadRef) (base bytes : Nat) : Nat → Option (List (Nat × Nat × Nat))
  | 0 => some []
  | n + 1 =>
    match s.bindRange th base bytes n with
    | none => none
    | some ps =>
      let off := n * 4096 - base % 4096
      let lo := if n = 0 then 0 else off
      let hi := min bytes ((n + 1) * 4096 - base % 4096)
      let home := match (s.seenLeaf th (BitVec.ofNat 64 base)).2 with | some l => l.home | none => 0
      if 2 ^ 57 ≤ base + lo then none
      else match (s.seenLeaf th (BitVec.ofNat 64 (base + lo))).2 with
        | some l =>
          if rangeLeaf l home then
            match l.locate (base + lo) with
            | .dev a => some (ps ++ [(lo, hi - lo, a)])
            | _ => none
          else none
        | none => none

/-- What the walks for the range of a descriptor read, where the TLB does not answer. -/
def State.bindReads (s : State) (th : ThreadRef) (desc : Loc) : List Loc :=
  match readDescriptor (s.bytesAt desc 64) with
  | some (base, cap, _, _) =>
    (List.range ((base % 4096 + cap / 8 + 4095) / 4096)).flatMap fun k =>
      s.quietReads th (BitVec.ofNat 64 (base / 4096 * 4096 + 4096 * k))
  | none => []

/-- Bytes of a directory region (R199). -/
def directoryBytes (cap : Nat) : Nat :=
  let b := cap / 512
  let n := (b + 7) / 8
  let up (x : Nat) : Nat := (x + 63) / 64 * 64
  let nodes := ((List.range (treeLevels n)).map fun h => (n + 8 ^ (h + 1) - 1) / 8 ^ (h + 1)).sum
  (up (4 * b) + up (8 * n) + 16 * nodes + 4095) / 4096 * 4096

/-- A stack's directory pool, as package places: the die's pool above its save pool and below its reserved rows,
halved between its stacks (R292). -/
def State.directoryPool (s : State) (stack : Nat) : Nat × Nat :=
  let die := stack / 2
  let lo := s.carveOut die + 0x40000000
  let units := (Config.dieBytes - 0x20000 - lo) / 4096
  let half := units / 2
  let base := die * Config.dieBytes + lo
  if stack % 2 = 0 then (base, base + half * 4096) else (base + half * 4096, base + units * 4096)

/-- The lowest free run of a pool that holds `len` bytes, among regions in use (R292). -/
def firstFit (used : List (Nat × Nat)) (pool : Nat × Nat) (len : Nat) : Option Nat :=
  let starts := pool.1 :: used.map fun r => r.1 + r.2
  let fits := starts.filter fun a => decide (pool.1 ≤ a) && decide (a + len ≤ pool.2) &&
    !(used.any fun r => overlaps a len r.1 r.2)
  fits.foldl (fun b a => match b with | some c => some (min c a) | none => some a) none

def Str.rangeOverlaps (x : Str) (tenant base bytes : Nat) : Bool :=
  x.tenant == tenant && overlaps base bytes x.base (x.cap / 8)

/-- SREG's checks and effect, in the order of Table 13.2: the state after it, and D. Poison of the descriptor's line is
ignored: the model's choice (log 136). -/
def State.register (s : State) (th : ThreadRef) (desc : Loc) (descVa : Nat) : State × Word :=
  let tenant := s.tenantOf th
  match readDescriptor (s.bytesAt desc 64) with
  | none => (s, 0x80000001)
  | some (base, cap, len, bp) =>
    match s.bindRange th base (cap / 8) ((base % 4096 + cap / 8 + 4095) / 4096) with
    | none => (s, 0x80000002)
    | some pieces =>
      let stack := match pieces with | p :: _ => placeStack p.2.2 | [] => 0
      let size := directoryBytes cap
      if s.strings.any fun x => x.rangeOverlaps tenant base (cap / 8) then (s, 0x80000003)
      else match (List.range 4096).find? fun h => !(s.strings.any fun x => x.key == tenant * 4096 + h) with
        | none => (s, 0x80000004)
        | some h =>
          match firstFit s.dirRegions (s.directoryPool stack) size with
          | none => (s, 0x80000005)
          | some dir =>
            if Config.stackStrings ≤ (s.strings.filter fun x => x.stack == stack).length then (s, 0x80000005)
            else
              let x : Str := { tenant := tenant, handle := h, base := base, cap := cap, len := len, bp := bp
                               stack := stack, extents := pieces, descriptor := desc, descVa := descVa
                               dirBase := dir, dirUnits := size / 4096 }
              let p := s.splicer stack
              (({ s with strings := s.strings ++ [x], dirRegions := s.dirRegions ++ [(dir, size)] }).setSplicer stack
                { p with queue := p.queue ++ [(x.key, x.blocks)] }, BitVec.ofNat 32 h)

/-- SREG (R195): the descriptor is read at its home slice, past the L1. -/
def sregOp (d : Nat) (va : DWord) (th : ThreadRef) (s : State) : Effect :=
  if s.heldAtIssue th .p false || s.heldAtIssue th .n true then .stall s
  else match addressBad va 64 with
    | some aux => .trap s codePermission va aux
    | none =>
      withPages th va.toNat 64 { read := true } s preciseBad fun segs s =>
        let l := placeAt segs va.toNat
        if s.lineBusy (s.coreOf th) l.line then .stall s
        else if (l :: s.bindReads th l).any s.asleep then .stall (s.want (l :: s.bindReads th l))
        else
          let away := segs.any fun g => g.2.2.opt && !g.2.2.res
          let r := ((l :: s.bindReads th l).foldl State.touch s).dropLine (s.coreOf th) l.line
          let q := if away then (r, 0x80000001) else r.register th l va.toNat
          .go (q.1.setReg th d q.2)

/-! ### SDROP, SSTAT, SSYNC (R207 to R209) -/

/-- The string is gone: its queue entries and its directory region, which is zeroed, are freed (R291, Table 13.5). -/
def State.removeStr (s : State) (x : Str) : State :=
  let p := s.splicer x.stack
  ({ s.zeroing (runPlaces x.dirBase (4096 * x.dirUnits)) with
      strings := s.strings.filter (·.key != x.key)
      dirRegions := s.dirRegions.filter (·.1 != x.dirBase) }).setSplicer x.stack { p with
    queue := p.queue.filter (·.1 != x.key)
    repairing := match p.repairing with | some (k, b, w) => if k = x.key then none else some (k, b, w) | none => none
    again := match p.repairing with | some (k, _, _) => p.again && k != x.key | none => p.again }

def sdropOp (h : Word) (th : ThreadRef) (s : State) : Effect :=
  if s.heldAtIssue th .n true then .stall s
  else .go ((s.addReq (s.newReq th .n (.sdrop h) 0)).noteWrite th .n s.nextId 0)

def State.runDrop (s : State) (r : Req) (h : Word) : State :=
  match r.admitted with
  | none => if s.mayAdmit r h then s.admitReq r else s
  | some _ =>
    if s.turnOf r h true then
      match s.strOf r.tenant h with
      | some x => ((s.removeStr x).dropReq r.id).settle
      | none => (s.dropReq r.id).settle
    else s

def State.dropActs (s : State) (r : Req) (h : Word) : Bool :=
  match r.admitted with
  | none => s.mayAdmit r h
  | some _ => s.turnOf r h true

/-- An operation at issue follows the thread's earlier stores to the string and operations on it (R162, R202). -/
def State.stringTurn (s : State) (th : ThreadRef) (h : Word) : Bool :=
  let r := s.newReq th .n (.ssync h) 0
  s.mayAdmit r h && !(s.reqs.any fun q => q.th == th && q.onString (r.tenant * 4096 + h.toNat) &&
    (match q.kind with | .sdrop _ => true | _ => false))

/-- The record of Table 13.6. -/
def State.statRecord (s : State) (x : Str) : Nat :=
  let pend := ((List.range x.blocks).filter fun b => !s.blockValid x b).length
  x.len + x.bp.toNat * 2 ^ 39 + x.unbal.toNat * 2 ^ 40 + x.building.toNat * 2 ^ 41 + 2 ^ 42 + x.stack * 2 ^ 44 +
    dieAddr x.dirBase / 4096 * 2 ^ 48 + x.dirUnits * 2 ^ 73 + min pend 255 * 2 ^ 120

/-- SSTAT (R208); one that waits for its turn completes its wait before a save (R211). -/
def sstatOp (d : Nat) (h : Word) (th : ThreadRef) (s : State) : Effect :=
  if s.heldAtIssue th .n true then .stall s
  else if !s.stringTurn th h then .stall (s.modThread th fun t => { t with waitOp := some 0 })
  else
    let v := match s.strOf (s.tenantOf th) h with | some x => s.statRecord x | none => 0
    .go (s.setWords th d ((List.range 4).map fun k => BitVec.ofNat 32 (v / 2 ^ (32 * k))))

/-- Writes LEN and UNBAL into the descriptor, and nothing else of it (Table 13.1). -/
def State.writeDescriptor (s : State) (x : Str) (core : Nat) : State :=
  let l := x.descriptor
  let old := s.bytesAt l 64
  let b20 := (old.getD 20 0 &&& 0x80) ||| BitVec.ofNat 8 (x.len / 2 ^ 32 % 128)
  let b25 := (old.getD 25 0 &&& 0xFE) ||| BitVec.ofNat 8 x.unbal.toNat
  ((s.writePlace (l.plus 16) (leBytes 4 x.len ++ [b20])).writePlace (l.plus 25) [b25]).dropLine core l.line

/-- SSYNC's wait is over, and the write of its descriptor may be performed: it is held for no string, and the core's
earlier requests to the line have been performed (R158, R202, R209), but for those that the string itself holds off. -/
def State.syncDue (s : State) (x : Str) (th : ThreadRef) : Bool :=
  let own := (s.stringsAt x.descriptor).any fun e => e.1.key == x.key
  s.blocksValid x x.blocks && !s.writeHeld x.descriptor &&
  !s.reqs.any fun r => r.path == .p && r.core == s.coreOf th && r.touches x.descriptor.line && (r.th == th || !own)

/-- SSYNC's write is a write of the thread on path P. -/
def State.finishSync (s : State) (x : Str) (th : ThreadRef) : State :=
  (((s.touch x.descriptor).writeDescriptor x (s.coreOf th)).noteWrite th .p 0 0).settle

/-- SSYNC waits at issue until every block is VALID; while it waits, the string is held (R202, R209). A fence or an
acquire holds it on path P too (R151, R160). One that waits for its turn completes its wait before a save (R211). -/
def ssyncOp (h : Word) (th : ThreadRef) (s : State) : Effect :=
  match s.strOf (s.tenantOf th) h, (s.thread th).waitOp.filter (· != 0) with
  | none, some id => .go (s.dropReq id).settle
  | some x, some id =>
    if !(s.dropReq id).syncDue x th then .stall s
    else if s.asleep x.descriptor then .stall (s.want [x.descriptor])
    else .go ((s.dropReq id).finishSync x th)
  | e, none =>
    if s.heldAtIssue th .n true || s.heldAtIssue th .p true then .stall s
    else if !s.stringTurn th h then .stall (s.modThread th fun t => { t with waitOp := some 0 })
    else match e with
      | none => .go s
      | some x =>
        if s.syncDue x th && !s.asleep x.descriptor then .go (s.finishSync x th)
        else
          .stall ((s.modThread th fun t => { t with waitOp := some s.nextId }).addReq
            { s.newReq th .n (.ssync h) 0 with admitted := some s.tick })

/-! ### Meanings -/

/-- RANK0 (R205). D ← the zeros below position i, or NONE; class L. -/
def execRank0 (sw : Bool) (d : BitVec 7) (a : BitVec 7) (b : BitVec 7) (s : State) : Host.Outcome State Fault Refusal :=
  runPly (.rank0 sw d a b) (queryOp 0 d.toNat a.toNat b.toNat) s

/-- RANK1 (R205). D ← the ones below position i, or NONE; class L. -/
def execRank1 (sw : Bool) (d : BitVec 7) (a : BitVec 7) (b : BitVec 7) (s : State) : Host.Outcome State Fault Refusal :=
  runPly (.rank1 sw d a b) (queryOp 1 d.toNat a.toNat b.toNat) s

/-- SEL0 (R205). D ← the position of the k-th zero, or NONE; class L. -/
def execSel0 (sw : Bool) (d : BitVec 7) (a : BitVec 7) (b : BitVec 7) (s : State) : Host.Outcome State Fault Refusal :=
  runPly (.sel0 sw d a b) (queryOp 2 d.toNat a.toNat b.toNat) s

/-- SEL1 (R205). D ← the position of the k-th one, or NONE; class L. -/
def execSel1 (sw : Bool) (d : BitVec 7) (a : BitVec 7) (b : BitVec 7) (s : State) : Host.Outcome State Fault Refusal :=
  runPly (.sel1 sw d a b) (queryOp 3 d.toNat a.toNat b.toNat) s

/-- EXCESS (R205). D ← the excess at position i, or NONE; class L. -/
def execExcess (sw : Bool) (d : BitVec 7) (a : BitVec 7) (b : BitVec 7) (s : State) : Host.Outcome State Fault Refusal :=
  runPly (.excess sw d a b) (queryOp 4 d.toNat a.toNat b.toNat) s

/-- CLOSE (R205). D ← the matching close bracket, or NONE; class L. -/
def execCloseBr (sw : Bool) (d : BitVec 7) (a : BitVec 7) (b : BitVec 7) (s : State) : Host.Outcome State Fault Refusal :=
  runPly (.closeBr sw d a b) (queryOp 5 d.toNat a.toNat b.toNat) s

/-- OPEN (R205). D ← the matching open bracket, or NONE; class L. -/
def execOpenBr (sw : Bool) (d : BitVec 7) (a : BitVec 7) (b : BitVec 7) (s : State) : Host.Outcome State Fault Refusal :=
  runPly (.openBr sw d a b) (queryOp 6 d.toNat a.toNat b.toNat) s

/-- ENCL (R205). D ← the open bracket of the enclosing pair, or NONE; class L. -/
def execEnclBr (sw : Bool) (d : BitVec 7) (a : BitVec 7) (b : BitVec 7) (s : State) : Host.Outcome State Fault Refusal :=
  runPly (.enclBr sw d a b) (queryOp 7 d.toNat a.toNat b.toNat) s

/-- BINS (R206). Inserts the low bits of the pattern at a position. -/
def execBins (sw : Bool) (d : BitVec 7) (a : BitVec 7) (b : BitVec 7) (s : State) : Host.Outcome State Fault Refusal :=
  runPly (.bins sw d a b) (fun th s =>
    let u := s.thread th
    updateOp true (u.reg a.toNat) (u.pair b.toNat) (u.pair d.toNat) (u.reg (d.toNat + 2)) th s) s

/-- BDEL (R206). Removes bits at a position. -/
def execBdel (sw : Bool) (d : BitVec 7) (a : BitVec 7) (b : BitVec 7) (s : State) : Host.Outcome State Fault Refusal :=
  runPly (.bdel sw d a b) (fun th s =>
    let u := s.thread th
    updateOp false (u.reg a.toNat) (u.pair b.toNat) 0 (u.reg d.toNat) th s) s

/-- SREG (R195). Registers the string of a descriptor; D ← its handle or a refusal code. -/
def execSreg (sw : Bool) (d : BitVec 7) (a : BitVec 7) (s : State) : Host.Outcome State Fault Refusal :=
  runPly (.sreg sw d a) (fun th s => sregOp d.toNat ((s.thread th).pair a.toNat) th s) s

/-- SDROP (R207). Drops a string, in the string's order. -/
def execSdrop (sw : Bool) (a : BitVec 7) (s : State) : Host.Outcome State Fault Refusal :=
  runPly (.sdrop sw a) (fun th s => sdropOp ((s.thread th).reg a.toNat) th s) s

/-- SSTAT (R208). D ← the string's record. -/
def execSstat (sw : Bool) (d : BitVec 7) (a : BitVec 7) (s : State) : Host.Outcome State Fault Refusal :=
  runPly (.sstat sw d a) (fun th s => sstatOp d.toNat ((s.thread th).reg a.toNat) th s) s

/-- SSYNC (R209). Waits until every block is VALID and writes LEN and UNBAL into the descriptor. -/
def execSsync (sw : Bool) (a : BitVec 7) (s : State) : Host.Outcome State Fault Refusal :=
  runPly (.ssync sw a) (fun th s => ssyncOp ((s.thread th).reg a.toNat) th s) s

/-- SPLICER_REPAIR (R201). The splicer takes a STALE block, or ends the repair under way. -/
def execSplicerRepair (stack : Nat) (s : State) : Host.Outcome State Fault Refusal :=
  if s.splicerActs stack then .next (s.splice stack) else .next s

/-- SUCCINCT_QUERY (R202). A query is admitted, or answered. -/
def execSuccinctQuery (id : Nat) (s : State) : Host.Outcome State Fault Refusal :=
  match s.findReq id with
  | some r =>
    match r.kind with
    | .query f h operand => .next (s.runQuery r f h operand)
    | _ => .next s
  | none => .next s

/-- STRING_UPDATE_PERFORM (R206). A BINS or BDEL is admitted, or checked and performed. -/
def execStringUpdatePerform (id : Nat) (s : State) : Host.Outcome State Fault Refusal :=
  match s.findReq id with
  | some r =>
    match r.kind with
    | .update insert h pos pattern c => .next (s.runUpdate r insert h pos pattern c)
    | _ => .next s
  | none => .next s

/-- SDROP_PERFORM (R207). A drop is admitted, or performed. -/
def execSdropPerform (id : Nat) (s : State) : Host.Outcome State Fault Refusal :=
  match s.findReq id with
  | some r =>
    match r.kind with
    | .sdrop h => .next (s.runDrop r h)
    | _ => .next s
  | none => .next s

end Sys2Proof.Machine
end

