-- ==== Sys2Proof/Machine/NearMem.lean ====
section
/-! DEFINITION. Near-memory units and row operations (R213 to R225, R342): programs and their checks, the dispatcher,
the units, return-free reductions, row operations, and the power states of channels. -/
namespace Sys2Proof.Machine
open Sys2Proof

/-! ### Program words (Table 14.1) -/

def nmEnd (w : DWord) : Bool := w.getLsbD 63
def nmFetch (w : DWord) : Bool := w.getLsbD 62
def nmBack (w : DWord) : Nat := bits w.toNat 61 60
def nmOpc (w : DWord) : Nat := bits w.toNat 59 56
def nmAcc (w : DWord) : Nat := bits w.toNat 55 52
def nmCombine (w : DWord) : Nat := bits w.toNat 51 48
def nmImm (w : DWord) : Word := w.setWidth 32

/-- A word that NMLOAD refuses, at index `k` of the program (R215). -/
def nmBadWord (k : Nat) (w : DWord) : Bool :=
  nmOpc w == 15 || decide (2 ≤ nmCombine w) || (k != 0 && nmCombine w != 0) || bits w.toNat 47 32 != 0

/-- TRAPAUX of a refused program: the first bad word, or no END. -/
def nmBadProgram (ws : List DWord) : Option DWord :=
  match (List.range ws.length).find? fun k => nmBadWord k (ws.getD k 0) with
  | some k => some (BitVec.ofNat 64 (0x100 + k))
  | none => if ws.any nmEnd then none else some 0x200

/-- The body: the words up to and with the first END. -/
def nmBody : List DWord → List DWord
  | [] => []
  | w :: ws => if nmEnd w then [w] else w :: nmBody ws

def nmWrites (body : List DWord) : Bool := body.any fun w => nmBack w != 0

/-! ### A unit's word (R213, R214, Table 14.2) -/

def nmSum (f : Word → Nat) (x : List Word) : DWord := BitVec.ofNat 64 (x.map f).sum

/-- Y after an operation that writes it. -/
def nmMap (w : DWord) : Option (Word → Word) :=
  let i := nmImm w
  match nmOpc w with
  | 1 => some fun x => x + i
  | 2 => some fun x => x * i
  | 3 => some fun x => BitVec.ofNat 32 (addF32Bits x.toNat i.toNat)
  | 4 => some fun x => BitVec.ofNat 32 (ctx32.mul (readNum fp32 x.toNat) (readNum fp32 i.toNat)).1
  | 5 => some fun x => x &&& i
  | 6 => some fun x => x ||| i
  | 7 => some fun x => x ^^^ i
  | 8 => some fun _ => i
  | _ => none

/-- A[a] after an operation that writes it. -/
def nmAccumulate (w : DWord) (a : DWord) (x : List Word) : Option DWord :=
  let num (e : Word) : Num := readNum fp32 e.toNat
  match nmOpc w with
  | 9 => some (a + nmSum (fun e => if e = nmImm w then 1 else 0) x)
  | 10 => some (a + (x.map fun e => e.signExtend 64).foldl (· + ·) 0)
  | 11 => some (a + nmSum (fun e => e.toNat) x)
  | 12 => some (a + nmSum (fun e => countOnes e.toNat 32) x)
  | 13 => some (sumRound (readNum fp64 a.toNat :: x.map num))
  | 14 => some (sumRound (readNum fp64 a.toNat :: x.map fun e => (num e).mul (num e)))
  | _ => none

def firstBad (a b : Option Nat) : Option Nat := match a with | some v => some v | none => b

/-- The operation of a word on the unit's registers. -/
def NmUnit.operate (u : NmUnit) (w : DWord) : NmUnit :=
  match nmMap w, nmAccumulate w (Tab.get u.acc (nmAcc w) 0) u.x with
  | some f, _ => { u with y := u.x.map f, yBad := if nmOpc w = 8 then none else u.xBad }
  | none, some v =>
    { u with
      acc := Tab.put u.acc (nmAcc w) v
      accBad := match firstBad (Tab.find u.accBad (nmAcc w)) u.xBad with
        | some b => Tab.put u.accBad (nmAcc w) b
        | none => u.accBad }
  | none, none => u

def wordBytes (ws : List Word) : List Byte := ws.flatMap fun w => leBytes 4 w.toNat

/-- The write back of a word to its column; poisoned contents poison the line. -/
def State.nmStore (s : State) (u : NmUnit) (w : DWord) (loc : Nat) : State :=
  let put_ (ws : List Word) (bad : Option Nat) : State :=
    let s1 := s.writePlace (.dev loc) (wordBytes ws)
    if bad.isSome then s1.poisonLine (loc / 64) else s1
  match nmBack w with
  | 1 => put_ u.y u.yBad
  | 2 => put_ u.x u.xBad
  | 3 => put_ [0, 0, 0, 0, 0, 0, 0, 0] none
  | _ => s

/-- One body word on one column: FETCH, the operation, then WB (R214). -/
def State.nmWord (s : State) (u : NmUnit) (w : DWord) (loc va : Nat) : State × NmUnit :=
  let u1 := if nmFetch w then
      { u with
        x := leWords (s.bytesAt (.dev loc) 32) 8
        xBad := if s.isPoisoned (.dev loc) then some va else none }
    else u
  let u2 := u1.operate w
  (s.nmStore u2 w loc, u2)

/-- A segment runs column by column, in ascending address order (R214). -/
def State.nmColumns (s : State) (u : NmUnit) (body : List DWord) (loc va : Nat) : Nat → State × NmUnit
  | 0 => (s, u)
  | n + 1 =>
    let r := body.foldl (fun (r : State × NmUnit) w => r.1.nmWord r.2 w loc va) (s, u)
    r.1.nmColumns r.2 body (loc + 32) (va + 32) n

/-! ### Channels -/

def unitStack (u : Nat) : Nat := u / 32
def unitChannel (u : Nat) : Nat := u % 32
/-- The unit of a place's channel (R144). -/
def placeUnit (p : Nat) : Nat := placeStack p * 32 + homeChannel (dieAddr p)

/-- The channel takes in new work: it is active and enters no other state (R225). A retired or offline one is in no
power state (Table 25.9). -/
def Channel.active (c : Channel) : Bool := c.gone || (c.state == 0 && !c.busy)
def State.channelOf (s : State) (u : Nat) : Channel := s.channel (unitStack u) (unitChannel u)
def State.channelActive (s : State) (u : Nat) : Bool := (s.channelOf u).active
/-- A stack takes in work on a place: at its channel, or, where that is retired, at the home slice, whose access waits
only while the channel that the line moved to sleeps (R225, R311, R342). -/
def State.placeActive (s : State) (p : Nat) : Bool :=
  if (s.channelOf (placeUnit p)).retired then !s.asleep (.dev p) else s.channelActive (placeUnit p)
/-- An access reaches a channel (R342). -/
def State.touchChannel (s : State) (u : Nat) : State :=
  s.setChannel (unitStack u) (unitChannel u) { s.channelOf u with lastAccess := s.now }

def State.nmUnit (s : State) (u : Nat) : NmUnit := Tab.get s.units u {}
def State.setUnit (s : State) (u : Nat) (x : NmUnit) : State := { s with units := Tab.put s.units u x }

/-! ### NMLOAD and NMRUN -/

def dwords (bs : List Byte) (n : Nat) : List DWord :=
  (List.range n).map fun k => BitVec.ofNat 64 (leValue ((bs.drop (8 * k)).take 8))

/-- NMLOAD (R215): reads the program at the home slices, past the L1, and checks it. A poisoned line gives its bytes as
they stand: the model's choice (log 154). -/
def nmloadOp (va : DWord) (n : Word) (th : ThreadRef) (s : State) : Effect :=
  if n.toNat < 1 ∨ 64 < n.toNat then .trap s codeIllegalOperand 0 (n.setWidth 64)
  else if s.heldAtIssue th .p false || s.heldAtIssue th .n true then .stall s
  else match addressBad va 8 with
    | some aux => .trap s codePermission va aux
    | none =>
      withPages th va.toNat (8 * n.toNat) { read := true } s preciseBad fun segs s =>
        let lines := (pieceLines segs).map fun e => e.2.1.line
        let places := (pieceLines segs).map (·.2.1)
        if lines.any (s.lineBusy (s.coreOf th)) then .stall s
        else if places.any s.asleep then .stall (s.want places)
        else
          let s1 := lines.foldl (fun s l => s.dropLine (s.coreOf th) l) (places.foldl State.touch s)
          let ws := dwords (s1.readPieces segs) n.toNat
          match nmBadProgram ws with
          | some aux => .trap s1 codeIllegalOperand 0 aux
          | none => .go (s1.modTeam th.team fun t => { t with nmStore := ws })

/-- NMRUN and NMRUN.RET (R216): a command with a snapshot of the program store. -/
def nmrunOp (ret : Option Nat) (va len : DWord) (th : ThreadRef) (s : State) : Effect :=
  let store := (s.team th.team).nmStore
  if va.toNat % 32 ≠ 0 then .trap s codeIllegalOperand 0 1
  else if len.toNat % 32 ≠ 0 ∨ len.toNat < 32 ∨ 2 ^ 36 < len.toNat then .trap s codeIllegalOperand 0 2
  else if !store.any nmEnd then .trap s codeIllegalOperand 0 3
  else if s.heldAtIssue th .n true || (ret.isSome && (s.thread th).full) then .stall s
  else
    let c : NmCommand :=
      { id := s.nextId, th := th, core := s.coreOf th, tenant := s.tenantOf th, pc := (s.thread th).pc
        body := nmBody store, va := va.toNat, len := len.toNat, ret := ret.isSome }
    let s1 := match ret with
      | some d => s.outstand th s.nextId d 2 none none
      | none => s
    let s2 : State := { s1 with commands := s1.commands ++ [c], nextId := s1.nextId + 1 }
    .go (if nmWrites c.body then s2.noteWrite th .n c.id 0 else s2)

/-! ### The dispatcher -/

def State.findCommand (s : State) (id : Nat) : Option NmCommand := s.commands.find? (·.id == id)
def State.modCommand (s : State) (id : Nat) (f : NmCommand → NmCommand) : State :=
  { s with commands := s.commands.map fun c => if c.id = id then f c else c }
def State.dropCommand (s : State) (id : Nat) : State := { s with commands := s.commands.filter (·.id != id) }

/-- The base die whose dispatcher and TLB serve a command: that of stack 2d (R216). -/
def NmCommand.stack (c : NmCommand) : Nat := 2 * coreDie c.core
/-- Bytes of the next segment: the rest of its 256-byte chunk. -/
def NmCommand.piece (c : NmCommand) : Nat := min c.len (256 - c.va % 256)

def NmCommand.need (c : NmCommand) : Need :=
  { read := true, write := nmWrites c.body, noPeer := true, nmok := true, resident := true }

/-- The page checks of the next segment. -/
def State.nmReach (s : State) (c : NmCommand) : Reach :=
  s.reachFrom (Tab.get s.baseTlbs c.stack []) c.tenant c.need 2 c.va c.piece

def NmCommand.sending (c : NmCommand) : Bool := c.parked.isNone && c.failed.isNone && decide (0 < c.len)

/-- Units close a command that has no segment left to them: for good when the dispatcher has sent the last one, into
the reserved row while it is parked (R216, R217). -/
def State.closeUnits (s : State) (id : Nat) : State :=
  match s.findCommand id with
  | none => s
  | some c =>
    c.opened.foldl (fun s u =>
      if s.segments.any fun g => g.cmd == id && g.unit == u then s
      else
        let x := s.nmUnit u
        let here := x.open_ == some id
        if c.len = 0 then
          let y := if here then x else Tab.get c.kept u {}
          if here || (Tab.find c.kept u).isSome then
            (if here then s.setUnit u {} else s).modCommand id fun c => { c with
              closed := Tab.put c.closed u (Tab.get y.acc 0 0, Tab.find y.accBad 0), kept := Tab.drop c.kept u }
          else s
        else if c.parked.isSome && here then
          (s.setUnit u {}).modCommand id fun c => { c with kept := Tab.put c.kept u { x with open_ := none } }
        else s) s

/-- The dispatcher sends the next segment (R216). -/
def State.sendSegment (s : State) (c : NmCommand) (l : Leaf) : State :=
  match l.locate c.va with
  | .dev p =>
    let u := placeUnit p
    let g : NmSegment := { id := s.nextId, cmd := c.id, unit := u, va := c.va, loc := p, len := c.piece
                           accepted := s.channelActive u }
    let s1 := { s with segments := s.segments ++ [g], nextId := s.nextId + 1 }
    (s1.modCommand c.id fun c => { c with
      va := c.va + c.piece, len := c.len - c.piece, opened := insertNat c.opened u }).closeUnits c.id
  | _ => s

/-- The dispatcher sends a thread's commands one after another: the segments of an earlier one stand before this one's
in every queue (log 153). -/
def State.sends (s : State) (c : NmCommand) : Bool :=
  c.sending && !s.commands.any fun x => decide (x.id < c.id) && x.th == c.th && decide (0 < x.len)

/-- The dispatcher's step: a segment, or a walk for it. -/
def State.dispatchNm (s : State) (c : NmCommand) : State :=
  if s.sends c then
    match s.nmReach c with
    | .ok segs => (match segs with | g :: _ => s.sendSegment c g.2.2 | [] => s)
    | .walk v => s.requestWalk ⟨coreCluster c.core, c.tenant, v, nmWrites c.body, .nm c.id⟩
    | _ => s
  else s

/-- The dispatcher can send or ask for a walk that is not under way. -/
def State.dispatchReady (s : State) (c : NmCommand) : Bool :=
  s.sends c &&
  (match s.nmReach c with
   | .ok _ => true
   | .walk v => !s.walks.contains ⟨coreCluster c.core, c.tenant, v, nmWrites c.body, .nm c.id⟩
   | _ => false)

def State.nmPost (s : State) (c : NmCommand) (va cause : Nat) : FaultPost :=
  { s.issuedPost c.th c.core 2 va (nmWrites c.body) cause 0 with pc := c.pc, tenant := c.tenant }

def State.failCommand (s : State) (id : Nat) (code : Word) (va : Nat) (aux : DWord) : State :=
  (s.modCommand id fun c => { c with
    failed := some ⟨c.pc, code, BitVec.ofNat 64 va, aux⟩, len := 0, parked := none }).closeUnits id

/-- A page fault parks the command; with the fault queue off it fails at once (R217, R301). -/
def State.parkCommand (s : State) (c : NmCommand) (va cause : Nat) : State :=
  let s1 := if (s.tenant c.tenant).fqEn then s.postPageFault (s.nmPost c va cause) else s
  if (s1.tenant c.tenant).fqEn then
    (s1.modCommand c.id fun c => { c with parked := some va }).closeUnits c.id
  else s1.failCommand c.id codePageFault va (BitVec.ofNat 64 cause)

/-- Every segment sent has run and every unit opened has closed. -/
def State.nmOver (s : State) (c : NmCommand) : Bool :=
  decide (c.len = 0) && !(s.segments.any fun g => g.cmd == c.id) && c.opened.all fun u => (Tab.find c.closed u).isSome

/-- A failed command reports: marker-precisely with .RET, imprecisely without (R217, R301). -/
def State.reportCommand (s : State) (c : NmCommand) (r : Report) : State :=
  let s1 := s.dropCommand c.id
  (if c.ret then s1.giveResult c.th c.id { fault := some r }
   else if r.code = codePageFault then
     s1.impreciseFault c.th { r with aux := s1.attribution c.th.team c.pc .n r.aux.toNat }
   else s1.loseAccess c.th c.core (nmWrites c.body) { r with pc := c.pc } .n).settle

/-- A fault of a running command: it parks, it stops, or, stopped and drained, it reports. R217 states no TRAPAUX for a
page that the units cannot reach: it is 0 (R294). -/
def State.commandFault (s : State) (c : NmCommand) : State :=
  match c.failed with
  | some r => if s.nmOver c then s.reportCommand c r else s
  | none =>
    if s.sends c then
      match s.nmReach c with
      | .page v cause => s.parkCommand c v cause
      | .deny code v _ => s.failCommand c.id code v 0
      | _ => s
    else s

def State.commandFaults (s : State) (c : NmCommand) : Bool :=
  match c.failed with
  | some _ => s.nmOver c
  | none => s.sends c && (match s.nmReach c with | .page _ _ => true | .deny _ _ _ => true | _ => false)

/-- The combine of the A0 values, in ascending (stack, channel) order (R216). -/
def NmCommand.value (c : NmCommand) : DWord :=
  if nmCombine (c.body.getD 0 0) = 1 then
    BitVec.ofNat 64 (c.closed.foldl (fun v e => addF64Bits v e.2.1.toNat) 0)
  else c.closed.foldl (fun v e => v + e.2.1) 0

def NmCommand.poison (c : NmCommand) : Option DWord := (c.closed.findSome? fun e => e.2.2).map (BitVec.ofNat 64 ·)

def State.commandDone (s : State) (c : NmCommand) : Bool := c.failed.isNone && c.parked.isNone && s.nmOver c

def State.retireCommand (s : State) (c : NmCommand) : State :=
  (if c.ret then (s.dropCommand c.id).giveResult c.th c.id { vals := dwordWords c.value, poison := c.poison }
   else s.dropCommand c.id).settle

/-! ### The order of a thread's path N (R158, R162) -/

/-- An earlier request of the thread on path N has yet to reach a line of these bytes. -/
def State.afterRequest (s : State) (th : ThreadRef) (id loc len : Nat) : Bool :=
  s.reqs.any fun q => decide (q.id < id) && q.path == .n && q.th == th &&
    (List.range ((loc + len + 63) / 64 - loc / 64)).any fun k => q.touches (.dev (loc / 64 + k))

/-- An earlier query or update of the thread on a string that has this line is not over (R158). -/
def State.afterQuery (s : State) (th : ThreadRef) (id : Nat) (l : Loc) : Bool :=
  (s.stringsAt l).any fun e => s.reqs.any fun q => decide (q.id < id) && q.th == th && q.onString e.1.key

/-- The lines of a range are not held for an operation on a string (R202). -/
def State.rangeHeld (s : State) (loc len : Nat) : Bool :=
  s.writesHeld ((List.range ((loc + len + 63) / 64 - loc / 64)).map fun k => .dev ((loc / 64 + k) * 64))

/-! ### Units -/

/-- The next segment of a unit: the first of the open command, or the first of all when none is open. -/
def State.unitHead (s : State) (u : Nat) : Option NmSegment :=
  s.segments.find? fun x => x.unit == u && (match (s.nmUnit u).open_ with | some c => x.cmd == c | none => true)

def State.segmentNext (s : State) (g : NmSegment) : Bool :=
  match s.unitHead g.unit with
  | some x => x.id == g.id
  | none => false

/-- The lines of a segment. -/
def NmSegment.lines (g : NmSegment) : List Loc :=
  (List.range ((g.loc + g.len + 63) / 64 - g.loc / 64)).map fun k => .dev ((g.loc / 64 + k) * 64)

/-- The segment may run now (R214, R216, R224); on lines that have moved from a retired channel it runs at the home
slice (R311). -/
def State.segmentReady (s : State) (g : NmSegment) : Bool :=
  match s.findCommand g.cmd with
  | none => false
  | some c => g.accepted && (!(s.channelOf g.unit).retired || !g.lines.any s.asleep) && s.segmentNext g && !s.afterCommand c.th c.id g.va g.loc g.len &&
    !s.afterRequest c.th c.id g.loc g.len && !(g.lines.any fun l => s.afterQuery c.th c.id l) && (!nmWrites c.body || !s.rangeHeld g.loc g.len)

/-- The unit as it runs a command: open already, reopened with its kept registers, or opened with zeros. -/
def State.openUnit (s : State) (c : NmCommand) (u : Nat) : NmUnit :=
  if (s.nmUnit u).open_ = some c.id then s.nmUnit u else { Tab.get c.kept u {} with open_ := some c.id }

def State.runSegment (s : State) (c : NmCommand) (g : NmSegment) : State :=
  let r := s.nmColumns (s.openUnit c g.unit) c.body g.loc g.va (g.len / 32)
  let s0 := r.1.setUnit g.unit r.2
  let s1 := if (s.channelOf g.unit).retired then g.lines.foldl State.touch s0 else s0.touchChannel g.unit
  let s2 := { s1 with segments := s1.segments.filter (·.id != g.id) }
  (s2.modCommand c.id fun c => { c with kept := Tab.drop c.kept g.unit }).closeUnits c.id

/-! ### RED.NM (R219, R220) -/

/-- RED.NM: a write on path N; the L1 is not touched. -/
def redNmOp (op : RmwOp) (va : DWord) (size val : Nat) (rel : Bool) (scope : Nat) (th : ThreadRef) (s : State) :
    Effect :=
  if s.heldAtIssue th .n true then .stall s
  else match addressBad va size with
    | some aux => writeBad th .n codePermission va.toNat aux s
    | none =>
      withPages th va.toNat size { write := true, noSuc := true, noPeer := true } s (writeBad th .n) fun segs s =>
        let loc := placeAt segs va.toNat
        let eff := promote scope (coreDie (s.coreOf th)) loc
        let nmok := segs.any fun g => g.2.2.nmok
        .go ((s.addReq { s.newReq th .n (.redNm op size val nmok) va with
          waits := if rel then s.fenceReleaseIds th 9 eff else []
          parts := [{ va := va.toNat, loc := loc, len := size }] }).noteWrite th .n s.nextId (if rel then eff else 0))

/-- A channel that is entering a state has taken the request in: it has a segment in its queue that comes after the
request in its thread's order (R158, R225). -/
def State.takenIn (s : State) (r : Req) (u : Nat) : Bool :=
  (s.channelOf u).state == 0 && s.segments.any fun g => g.unit == u && g.accepted &&
    (match s.findCommand g.cmd with | some c => c.th == r.th && decide (r.id < c.id) | none => false)

/-- A stack takes the request in at a place: its channel is active, or took it in before it began to enter a state. -/
def State.takes (s : State) (r : Req) (l : Loc) : Bool :=
  match l with
  | .dev a => s.placeActive a || s.takenIn r (placeUnit a)
  | _ => true

/-- An earlier operation of the thread on path N comes first at the line of a place (R158). -/
def State.lineBehind (s : State) (r : Req) (va : Nat) (l : Loc) (len : Nat) : Bool :=
  s.behind r l.line || (match l with | .dev a => s.afterCommand r.th r.id va a len | _ => false) ||
  s.afterQuery r.th r.id l

def State.rowBehind (s : State) (r : Req) (x : ReqPart) : Bool := s.lineBehind r x.va x.loc x.len

/-- The reduction reaches its home slice (R220): it runs there when the line is present or the page lacks NMOK, and
otherwise at the line's channel unit; either way the channel must be awake (R225, R342). -/
def State.redPlaceable (s : State) (r : Req) (x : ReqPart) (nmok : Bool) : Bool :=
  !x.done && r.lost.isNone && s.allDone r.waits && !s.rowBehind r x && !s.writeHeld x.loc &&
  (Config.l2Holds s.tick ||
    (if nmok then s.takes r x.loc else !s.asleep x.loc))

def State.placeRed (s : State) (r : Req) (x : ReqPart) (op : RmwOp) (size val : Nat) : State :=
  let got := s.bytesAt x.loc size
  let s1 := (s.writePlace x.loc (leBytes size (op.apply size (leValue got) val))).touch x.loc
  s1.modReq r.id fun r => { r with parts := r.parts.map (·.finish got false) }

/-! ### Row operations (R221 to R223) -/

/-- The die addresses of a row's eight chunks. -/
def rowChunks (a : Nat) : List Nat :=
  (List.range 8).map fun h =>
    a / 2 ^ 17 * 2 ^ 17 + h * 2 ^ 14 + Nat.xor (homeChannel a) (bits a 25 21) * 2 ^ 9 +
      Nat.xor (stackBit a) (h / 4) * 2 ^ 8

/-- The 32 lines of a row, from the operand's virtual address and its place: (virtual address, place). -/
def rowLines (va p : Nat) : List (Nat × Nat) :=
  let a := dieAddr p
  (rowChunks a).flatMap fun c => (List.range 4).map fun k =>
    (va - a % 2 ^ 17 + c % 2 ^ 17 + 64 * k, placeDie p * Config.dieBytes + c + 64 * k)

/-- One row operand: its address, its page and R221's conditions, which come before the page's residency (R171). -/
def rowOperand (va : DWord) (x : Need) (th : ThreadRef) (s : State) (k : Nat → Bool → State → Effect) : Effect :=
  if 2 ^ 57 ≤ va.toNat then .trap s codePermission va 0
  else if va.toNat % 256 ≠ 0 then .trap s codePermission va 3
  else
    withPages th va.toNat 256 { x with row := true } s preciseBad fun segs s =>
      match placeAt segs va.toNat with
      | .dev p => k p (segs.any fun g => g.2.2.opt && !g.2.2.res) s
      | _ => .trap s codePermission va 3

def rowParts (va p : Nat) : List ReqPart := (rowLines va p).map fun e => { va := e.1, loc := .dev e.2, len := 64 }

def rzeroOp (va : DWord) (th : ThreadRef) (s : State) : Effect :=
  if s.heldAtIssue th .n true then .stall s
  else rowOperand va { write := true } th s fun p _ s =>
    .go ((s.addReq { s.newReq th .n .rowZero va with parts := rowParts va.toNat p }).noteWrite th .n s.nextId 0)

/-- RCOPY; a non-resident OPT source reads as zeros. The destination is checked whole before the source: the model's
choice (log 155). A page fault that failed at either operand is taken before either page is translated again. -/
def rcopyOp (va vb : DWord) (th : ThreadRef) (s : State) : Effect :=
  let body (s : State) : Effect :=
    rowOperand va { write := true } th s fun p _ s =>
      rowOperand vb { read := true } th s fun q away s =>
        let kind := if away then .rowZero else .rowCopy ((rowLines vb.toNat q).map fun e => (e.1, .dev e.2))
        .go ((s.addReq { s.newReq th .n kind va with parts := rowParts va.toNat p }).noteWrite th .n s.nextId 0)
  if s.heldAtIssue th .n true then .stall s
  else match (s.thread th).xfault with
    | some (v, cause) =>
      if vb.toNat ≤ v ∧ v < vb.toNat + 256 ∧ va ≠ vb then
        preciseBad codePageFault v (BitVec.ofNat 64 cause) (s.modThread th fun t => { t with xfault := none })
      else body s
    | none => body s

/-- Contents of a source line, and its poison. -/
def State.lineAt (s : State) (l : Loc) : List Byte × Bool := (s.bytesAt l 64, s.isPoisoned l)

/-- Lines of the row operation's source. -/
def ReqKind.sources (k : ReqKind) : List Loc := k.sourceLines.map (·.2)

def ReqKind.isRow : ReqKind → Bool
  | .rowZero => true
  | .rowCopy _ => true
  | _ => false

/-- The row operation may be performed: its lines are reached in the thread's order, no string holds them, and its
channels are awake. -/
def State.rowReady (s : State) (r : Req) : Bool :=
  r.lost.isNone && r.kind.isRow && s.allDone r.waits && !(r.parts.any fun x => x.done || s.rowBehind r x || !s.takes r x.loc) &&
  !s.writesHeld (r.parts.map (·.loc)) &&
  !(r.kind.sourceLines.any fun e => s.lineBehind r e.1 e.2 64 || !s.takes r e.2)

/-- One write to each destination line; a line that takes clean bytes whole is clean again (R223, R304). -/
def State.writeRow (s : State) (parts : List ReqPart) (lines : List (List Byte × Bool)) : State :=
  (parts.zip lines).foldl (fun s e =>
    let s1 := s.writePlace e.1.loc e.2.1
    match e.1.loc with
    | .dev a => if e.2.2 then s1.poisonLine (a / 64) else s1.clearPoison (a / 64)
    | _ => s1) s

/-- A row operation is performed: the whole source is read before a byte is written; onto itself it has no effect. -/
def State.performRow (s : State) (r : Req) : State :=
  let lines := match r.kind with
    | .rowCopy src => src.map fun e => s.lineAt e.2
    | _ => r.parts.map fun _ => (List.replicate 64 0, false)
  let same := r.kind.sources == r.parts.map (·.loc)
  let s1 := (r.kind.sources ++ r.parts.map (·.loc)).foldl State.touch (if same then s else s.writeRow r.parts lines)
  s1.modReq r.id fun r => { r with parts := r.parts.map fun x => { x with done := true } }

/-! ### Power states (R225, R342) -/

/-- The state that the channel is to be in. -/
def Channel.target (c : Channel) : Nat := if c.thermal then 1 else c.req
/-- STATE as CHPWR shows it (Table 25.9). -/
def Channel.shown (c : Channel) : Nat := if c.gone then 3 else c.state
def Channel.word (c : Channel) : DWord := BitVec.ofNat 64 (c.busy.toNat * 128 + c.shown * 16 + c.req)

/-- Segments at a channel are taken in, or held at their slices. -/
def State.acceptSegments (s : State) (u : Nat) (b : Bool) : State :=
  { s with segments := s.segments.map fun g => if g.unit = u then { g with accepted := b } else g }

/-- The channel leaves its state: its unit's registers are restored and what waited proceeds. -/
def State.leavePower (s : State) (u : Nat) (c : Channel) : State :=
  ((s.setChannel (unitStack u) (unitChannel u) { c with state := 0, busy := false, wanted := false, lastAccess := s.now }).setUnit u
    { s.nmUnit u with saved := false }).acceptSegments u true

/-- The channel is on its way out of its state (Table 25.9). -/
def Channel.leaving (c : Channel) : Bool := c.busy && c.state != 0 && (c.woken || c.target == 0)

/-- Everything that the channel took in has retired (R225): row operations and forwarded steps are taken in as they are
performed, so what is left are segments. Those that stand behind a command whose next segment is held at its slice
stay in the queue: that command stays open (step 3), and they come after it (log 150). -/
def State.entryReady (s : State) (u : Nat) : Bool :=
  let c := s.channelOf u
  c.busy && !c.leaving && !c.gone && decide (c.target ≠ 0) &&
  (match s.unitHead u with
   | some g => !g.accepted
   | none => !(s.segments.any fun g => g.unit == u && g.accepted))

def State.enterPower (s : State) (u : Nat) : State :=
  let c := s.channelOf u
  let s1 := s.setChannel (unitStack u) (unitChannel u) { c with state := c.target, busy := false, woken := false }
  (s1.setUnit u { s.nmUnit u with saved := (s.nmUnit u).open_.isSome }).acceptSegments u false

/-- The channel starts to leave its state; the wake takes its time (R342). -/
def State.startLeave (s : State) (u : Nat) (c : Channel) : State :=
  if c.state = 0 then s.leavePower u c
  else s.setChannel (unitStack u) (unitChannel u) { c with busy := true }

/-- A CHPWR write of REQ (Table 25.9). -/
def State.requestPower (s : State) (u req : Nat) : State :=
  let c := s.channelOf u
  if c.gone then s
  else
    let d := { c with req := req, woken := false }
    if req ≠ 0 then s.setChannel (unitStack u) (unitChannel u) { d with busy := true }
    else if c.thermal then s.setChannel (unitStack u) (unitChannel u) d
    else s.startLeave u d

/-- The unit's channel serves a place. -/
def State.servedBy (s : State) (u : Nat) (l : Loc) : Bool :=
  match l with
  | .dev a => placeUnit a == u || placeStack a * 32 + s.servingChannel a == u
  | _ => false

/-- The places that an access from outside reaches. -/
def State.inputPlaces (s : State) : List Loc :=
  let lines (p n : Nat) : List Loc := (List.range ((p % 64 + n + 63) / 64)).map fun k => .dev ((p / 64 + k) * 64)
  match s.outsideRest with
  | some r => lines r.place r.bytes.length
  | none =>
  match s.inputs with
  | .hostMemRead off len :: _ => lines off len
  | .hostMemWrite off bytes :: _ => lines off bytes.length
  | .peerRequest die a _ bytes :: _ => lines (die * Config.dieBytes + a) bytes.length
  | _ => []

/-- An access waits at a sleeping channel: one that has found it asleep, a segment, a request, a word of a copy, an
operation of an engine, a merge's word, or an access from outside. -/
def State.waitsAt (s : State) (u : Nat) : Bool :=
  (s.channelOf u).wanted || s.segments.any (fun g => g.unit == u || g.lines.any (s.servedBy u)) || s.inputPlaces.any (s.servedBy u) ||
  (s.reqs.any fun r => s.allDone r.waits &&
    ((r.parts.any fun x => !x.done && s.servedBy u x.loc) || r.kind.sources.any (s.servedBy u))) ||
  (s.copies.any fun c => s.copyRuns c && c.unitList.any fun k => !c.moved.contains k &&
    (match s.peek c.core c.tenant (c.unit k).1 with | some l => s.servedBy u (l.locate (c.unit k).1) | none => false)) ||
  (s.teams.any fun t => t.2.engine.any fun e => (pieceLines e.pieces).any fun x => s.servedBy u x.2.1) ||
  (s.merges.any fun m => m.places.any (s.servedBy u))

/-- An access wakes its sleeping channel, or a channel that leaves its state has left it. -/
def State.wakeReady (s : State) (u : Nat) : Bool :=
  let c := s.channelOf u
  !c.gone && (c.leaving || (decide (c.state ≠ 0) && !c.busy && s.waitsAt u))

def State.wakeChannel (s : State) (u : Nat) : State :=
  let c := s.channelOf u
  if c.leaving then s.leavePower u c else s.startLeave u { c with woken := true }

def State.idleReady (s : State) (u : Nat) : Bool :=
  let c := s.channelOf u
  c.woken && !c.busy && !c.gone && decide (c.target ≠ 0) && decide (10000 ≤ s.now - c.lastAccess)

/-- A thermal limit appears or clears. -/
def State.thermal (s : State) (u : Nat) (hot : Bool) : State :=
  let c := s.channelOf u
  if c.gone then s
  else
    let d := { c with thermal := hot, woken := false }
    if d.target = 0 then s.startLeave u d
    else if d.target = c.state then s.setChannel (unitStack u) (unitChannel u) d
    else s.setChannel (unitStack u) (unitChannel u) { d with busy := true }

def isChannel (stack channel : Nat) : Bool := decide (stack < 16) && decide (channel < 32)

/-! ### Meanings -/

/-- NMLOAD (R215). The team's program store ← the words at the address, checked. -/
def execNmload (sw : Bool) (a : BitVec 7) (b : BitVec 7) (s : State) : Host.Outcome State Fault Refusal :=
  runPly (.nmload sw a b) (fun th s =>
    let u := s.thread th
    nmloadOp (u.pair a.toNat) (u.reg b.toNat) th s) s

/-- NMRUN (R216). Runs the program store over a range. -/
def execNmrun (sw : Bool) (a : BitVec 7) (b : BitVec 7) (s : State) : Host.Outcome State Fault Refusal :=
  runPly (.nmrun sw a b) (fun th s =>
    let u := s.thread th
    nmrunOp none (u.pair a.toNat) (u.pair b.toNat) th s) s

/-- NMRUN_RET (R216). Runs the program store over a range; D ← the combine of the A0 values, class L. -/
def execNmrunRet (sw : Bool) (d : BitVec 7) (a : BitVec 7) (b : BitVec 7) (s : State) : Host.Outcome State Fault Refusal :=
  runPly (.nmrunRet sw d a b) (fun th s =>
    let u := s.thread th
    nmrunOp (some d.toNat) (u.pair a.toNat) (u.pair b.toNat) th s) s

/-- RED_NM_ADD (R219). Memory ← x + b, beside memory. -/
def execRedNmAdd (sw : Bool) (o : Bool) (w : Width) (a : BitVec 7) (b : BitVec 7) (f : BitVec 3) (s : State) : Host.Outcome State Fault Refusal :=
  runPly (.redNmAdd sw o w a b f) (fun th s =>
    let u := s.thread th
    redNmOp .add (u.pair a.toNat) (w).bytes (u.wide b.toNat (w).regs) o f.toNat th s) s

/-- RED_NM_ADD_F32 (R219). Memory ← x + b as FP32, rounded to nearest even, beside memory. -/
def execRedNmAddF32 (sw : Bool) (o : Bool) (a : BitVec 7) (b : BitVec 7) (f : BitVec 3) (s : State) : Host.Outcome State Fault Refusal :=
  runPly (.redNmAddF32 sw o a b f) (fun th s =>
    let u := s.thread th
    redNmOp .addF32 (u.pair a.toNat) (Width.w32).bytes (u.wide b.toNat (Width.w32).regs) o f.toNat th s) s

/-- RED_NM_MIN_I32 (R219). Memory ← the smaller of x and b, signed, beside memory. -/
def execRedNmMinI32 (sw : Bool) (o : Bool) (a : BitVec 7) (b : BitVec 7) (f : BitVec 3) (s : State) : Host.Outcome State Fault Refusal :=
  runPly (.redNmMinI32 sw o a b f) (fun th s =>
    let u := s.thread th
    redNmOp (.min true) (u.pair a.toNat) (Width.w32).bytes (u.wide b.toNat (Width.w32).regs) o f.toNat th s) s

/-- RED_NM_MIN_N32 (R219). Memory ← the smaller of x and b, unsigned, beside memory. -/
def execRedNmMinN32 (sw : Bool) (o : Bool) (a : BitVec 7) (b : BitVec 7) (f : BitVec 3) (s : State) : Host.Outcome State Fault Refusal :=
  runPly (.redNmMinN32 sw o a b f) (fun th s =>
    let u := s.thread th
    redNmOp (.min false) (u.pair a.toNat) (Width.w32).bytes (u.wide b.toNat (Width.w32).regs) o f.toNat th s) s

/-- RED_NM_MAX_I32 (R219). Memory ← the larger of x and b, signed, beside memory. -/
def execRedNmMaxI32 (sw : Bool) (o : Bool) (a : BitVec 7) (b : BitVec 7) (f : BitVec 3) (s : State) : Host.Outcome State Fault Refusal :=
  runPly (.redNmMaxI32 sw o a b f) (fun th s =>
    let u := s.thread th
    redNmOp (.max true) (u.pair a.toNat) (Width.w32).bytes (u.wide b.toNat (Width.w32).regs) o f.toNat th s) s

/-- RED_NM_MAX_N32 (R219). Memory ← the larger of x and b, unsigned, beside memory. -/
def execRedNmMaxN32 (sw : Bool) (o : Bool) (a : BitVec 7) (b : BitVec 7) (f : BitVec 3) (s : State) : Host.Outcome State Fault Refusal :=
  runPly (.redNmMaxN32 sw o a b f) (fun th s =>
    let u := s.thread th
    redNmOp (.max false) (u.pair a.toNat) (Width.w32).bytes (u.wide b.toNat (Width.w32).regs) o f.toNat th s) s

/-- RED_NM_OR (R219). Memory ← x OR b, beside memory. -/
def execRedNmOr (sw : Bool) (o : Bool) (a : BitVec 7) (b : BitVec 7) (f : BitVec 3) (s : State) : Host.Outcome State Fault Refusal :=
  runPly (.redNmOr sw o a b f) (fun th s =>
    let u := s.thread th
    redNmOp .or (u.pair a.toNat) (Width.w32).bytes (u.wide b.toNat (Width.w32).regs) o f.toNat th s) s

/-- RZERO (R222). Every byte of the row ← 0. -/
def execRzero (sw : Bool) (a : BitVec 7) (s : State) : Host.Outcome State Fault Refusal :=
  runPly (.rzero sw a) (fun th s => rzeroOp ((s.thread th).pair a.toNat) th s) s

/-- RCOPY (R222). The destination row ← the source row. -/
def execRcopy (sw : Bool) (a : BitVec 7) (b : BitVec 7) (s : State) : Host.Outcome State Fault Refusal :=
  runPly (.rcopy sw a b) (fun th s =>
    let u := s.thread th
    rcopyOp (u.pair a.toNat) (u.pair b.toNat) th s) s

/-- NM_SEGMENT_RUN (R214). A unit runs a segment, or, for a command's number, its dispatcher sends the next one. -/
def execNmSegmentRun (id : Nat) (s : State) : Host.Outcome State Fault Refusal :=
  match s.findCommand id with
  | some c => .next (s.dispatchNm c)
  | none =>
    match s.segments.find? (·.id == id) with
    | some g =>
      match s.findCommand g.cmd with
      | some c => if s.segmentReady g then .next (s.runSegment c g) else .next s
      | none => .next s
    | none => .next s

/-- NM_COMMAND_RETIRE (R216). A command whose units have closed retires. -/
def execNmCommandRetire (id : Nat) (s : State) : Host.Outcome State Fault Refusal :=
  match s.findCommand id with
  | some c => if s.commandDone c then .next (s.retireCommand c) else .next s
  | none => .next s

/-- NM_COMMAND_FAULT (R217). A command parks on a page fault, stops on another fault, or reports the fault that
stopped it. -/
def execNmCommandFault (id : Nat) (s : State) : Host.Outcome State Fault Refusal :=
  match s.findCommand id with
  | some c => .next (s.commandFault c)
  | none => .next s

/-- RED_NM_PLACE (R220). A near reduction is performed, at its slice or at its channel's unit. -/
def execRedNmPlace (id : Nat) (s : State) : Host.Outcome State Fault Refusal :=
  match s.findReq id with
  | some r =>
    match r.kind, r.parts with
    | .redNm op size val nmok, x :: _ => if s.redPlaceable r x nmok then .next (s.placeRed r x op size val) else .next s
    | _, _ => .next s
  | none => .next s

/-- ROW_OPERATION_PERFORM (R223). A row operation is performed as one write to each line of its row. -/
def execRowOperationPerform (id : Nat) (s : State) : Host.Outcome State Fault Refusal :=
  match s.findReq id with
  | some r => if s.rowReady r then .next (s.performRow r) else .next s
  | none => .next s

/-- CHANNEL_POWER_ENTRY (R225). A channel enters the state that was asked for once its work has retired. -/
def execChannelPowerEntry (stack : Nat) (channel : Nat) (s : State) : Host.Outcome State Fault Refusal :=
  if isChannel stack channel then
    if s.entryReady (stack * 32 + channel) then .next (s.enterPower (stack * 32 + channel)) else .next s
  else .fault .noSuchUnit

/-- CHANNEL_WAKE (R342). A waiting access wakes its channel, or the wake that has begun is over. -/
def execChannelWake (stack : Nat) (channel : Nat) (s : State) : Host.Outcome State Fault Refusal :=
  if isChannel stack channel then
    if s.wakeReady (stack * 32 + channel) then .next (s.wakeChannel (stack * 32 + channel)) else .next s
  else .fault .noSuchUnit

/-- CHANNEL_IDLE_TIMEOUT (R342). A woken channel without an access for 10 µs starts into its state again. -/
def execChannelIdleTimeout (stack : Nat) (channel : Nat) (s : State) : Host.Outcome State Fault Refusal :=
  if isChannel stack channel then
    let u := stack * 32 + channel
    if s.idleReady u then .next (s.setChannel stack channel { s.channelOf u with busy := true, woken := false })
    else .next s
  else .fault .noSuchUnit

/-- CHPWR_ACTIVE (R342). REQ 0: the channel leaves its state. -/
def execChpwrActive (stack : Nat) (channel : Nat) (s : State) : Host.Outcome State Fault Refusal :=
  hostWrite (isChannel stack channel) (fun s => s.requestPower (stack * 32 + channel) 0) s

/-- CHPWR_SELF_REFRESH (R342). REQ 1: entry to self-refresh starts. -/
def execChpwrSelfRefresh (stack : Nat) (channel : Nat) (s : State) : Host.Outcome State Fault Refusal :=
  hostWrite (isChannel stack channel) (fun s => s.requestPower (stack * 32 + channel) 1) s

/-- CHPWR_POWER_DOWN (R342). REQ 2: entry to power-down starts. -/
def execChpwrPowerDown (stack : Nat) (channel : Nat) (s : State) : Host.Outcome State Fault Refusal :=
  hostWrite (isChannel stack channel) (fun s => s.requestPower (stack * 32 + channel) 2) s

/-- THERMAL_SELF_REFRESH (R342). A thermal limit puts the channel into self-refresh, or clears. -/
def execThermalSelfRefresh (stack : Nat) (channel : Nat) (hot : Bool) (s : State) : Host.Outcome State Fault Refusal :=
  if isChannel stack channel then .next (s.thermal (stack * 32 + channel) hot) else .fault .noSuchUnit

end Sys2Proof.Machine
end

