-- ==== Sys2Proof/Machine/Issue.lean ====
section
/-! DEFINITION. Issue: the fetch of a ply's instruction (R240, R302, R347), what an illegal word does (R33), the
active hold (R239), and the page walks that serve TLB misses (R286, R289). -/
namespace Sys2Proof.Machine
open Sys2Proof

/-- The word at `pc` in a core's fetch cache, if its line is there (R347). At a pc that the debug window has set to no
multiple of 4, it is the bytes that stand there up to the end of the line: the model's choice (log 157). -/
def State.fetchWord (s : State) (core tenant : Nat) (pc : DWord) : Option Word :=
  match (s.core core).fetch.find? (·.isAt (s.tenant tenant).astag (pc.toNat / 64)) with
  | some l => some (BitVec.ofNat 32 (leValue ((l.data.drop (pc.toNat % 64)).take 4)))
  | none => none

/-- One thread at a word that decodes to no instruction: the switch marker of the word still acts (R32), then the
word traps ILLEGAL_OPCODE. -/
def State.runIllegal (s : State) (word : Word) (th : ThreadRef) : State :=
  let t := s.thread th
  if sw word ∧ t.outs ≠ [] then s.setStatus th .parked
  else
    let s1 := s.closeUnspec th (sw word)
    match (if sw word ∧ t.replay = none then t.faults.head?.map (·.2) else none) with
    | some r => s1.hold th (.fault .marker r)
    | none => s1.hold th (.trap codeIllegalOpcode 0 (word.setWidth 64))

/-- A ply at a word that decodes to no instruction. -/
def State.illegalPly (s : State) (p : Ply) : State :=
  if p.members.any (fun th => (s.thread th).joined != 0) && p.members.any fun th => sw p.word && !(s.thread th).outs.isEmpty
  then s.parkAll p
  else (p.members.foldl (fun s th => s.runIllegal p.word th) (s.leaveJoined p)).stopMarked s p.team

/-- The thread waits for a fetch of the line at its program counter. -/
def State.requestFetch (s : State) (core : Nat) (th : ThreadRef) : State :=
  let f : Fetch := ⟨core, s.tenantOf th, (s.thread th).pc.toNat, th⟩
  let s1 : State := if s.fetches.contains f then s else { s with fetches := s.fetches ++ [f] }
  s1.stall th

/-- A thread of a ply whose word is not in the fetch cache waits for the fetch, or for a failed one takes the trap
(R302). -/
def State.missFetch (s : State) (core : Nat) (th : ThreadRef) : State :=
  let pc := (s.thread th).pc
  if (s.thread th).status ≠ .ready then s
  else match (s.thread th).xfault with
    | some (v, cause) =>
      if v = pc.toNat then s.takeTrap th .precise ⟨pc, codePageFault, pc, BitVec.ofNat 64 cause⟩ pc
      else s.requestFetch core th
    | none => s.requestFetch core th

/-- A ply forms around T: with its word in the fetch cache it is latched to issue, or traps when the word is no
instruction; otherwise the ply waits for the fetch, each of its threads (R240, R302). -/
def State.formPly (s : State) (core quad : Nat) : State :=
  let s0 := ({ s with ply := none } : State).refreshActive core quad
  match s0.issueTop core quad with
  | none => s0
  | some top =>
    let pc := (s0.thread top).pc
    match s0.fetchWord core (s0.tenantOf top) pc with
    | none => (s0.plyAround core quad top).foldl (fun s th => s.missFetch core th) s0
    | some w =>
      let p : Ply := ⟨core, quad, top.team, s0.plyAround core quad top, pc, w⟩
      match decode w with
      | .error _ => ({ s0 with ply := some p } : State).illegalPly p
      | .ok _ => { s0 with ply := some p }

/-- A step of the quadrant can issue or begin a fetch. -/
def State.canForm (s : State) (core quad : Nat) : Bool := ((s.refreshActive core quad).issueTop core quad).isSome

/-- The thread is of the ply, which has run, and did not stay at its instruction to wait. -/
def State.hasIssued (s : State) (p : Ply) (th : ThreadRef) : Bool :=
  p.members.contains th && (s.thread th).status != .stalled && (s.thread th).status != .parked

/-- After a ply has run: a STEP is over once the selected thread's ply has issued (R308). -/
def State.settleStep (s : State) (p : Ply) : State :=
  match (s.core p.core).ctl.step with
  | none => s
  | some th =>
    if s.hasIssued p th then
      let c := s.core p.core
      s.setCore p.core { c with ctl := { c.ctl with step := none, dstat := 1 } }
    else s

/-- What a fetch needs of its page (R302). -/
def needFetch : Need := { exec := true, noPeer := true, resident := true }

/-- A fetch cache takes a line; which others it gives up is its own (R347). -/
def State.fillFetch (s : State) (core : Nat) (l : CacheLine) : State :=
  let k := s.core core
  let rest := k.fetch.filter fun x => !x.isAt l.tag l.vline && Config.keeps s.tick x.vline
  s.setCore core { k with fetch := (l :: rest).take Config.fetchLines }

def State.dropFetches (s : State) (th : ThreadRef) : State := { s with fetches := s.fetches.filter (·.th != th) }

/-- The thread of a fetch still waits for it: its line has not come. -/
def State.fetchWanted (s : State) (f : Fetch) : Bool :=
  (s.thread f.th).status == .stalled && (s.thread f.th).pc.toNat == f.va && s.coreOf f.th == f.core &&
  (s.fetchWord f.core f.tenant (s.thread f.th).pc).isNone

/-- Serves a fetch miss: the checks of R302, the line from its home slice in one step, or the trap (R302, R347). A fetch
waits at a sleeping channel (R342). -/
def State.serveFetch (s : State) (f : Fetch) : State :=
  let s0 := s.dropFetches f.th
  let pc := BitVec.ofNat 64 f.va
  if !s.fetchWanted f then s0
  else if 2 ^ 57 ≤ f.va then s0.takeTrap f.th .precise ⟨pc, codePermission, pc, 1⟩ pc
  else match s.reach f.core f.tenant needFetch f.va 4 with
    | .walk v => s.requestWalk ⟨coreCluster f.core, f.tenant, v, false, .thread f.th⟩
    | .page v cause => s0.threadPageFault f.th v false cause
    | .deny code _ aux => s0.takeTrap f.th .precise ⟨pc, code, pc, aux⟩ pc
    | .ok segs =>
      let l := (placeAt segs f.va).lineStart
      if s.asleep l then s.want [l]
      else
        (s0.touch l).fillFetch f.core ⟨(s.tenant f.tenant).astag, f.va / 64, l.line, BitVec.allOnes 16, s.bytesAt l 64, []⟩

/-- A fetch can go on: it needs no walk, or asks for one that is not under way. -/
def State.fetchActs (s : State) (f : Fetch) : Bool :=
  !s.fetchWanted f || decide (2 ^ 57 ≤ f.va) ||
  (match s.reach f.core f.tenant needFetch f.va 4 with
   | .walk v => !s.walks.contains ⟨coreCluster f.core, f.tenant, v, false, .thread f.th⟩
   | _ => true)

/-- A group has held its active place for its time while a pending group is ready (R15, R239). -/
def State.holdOver (s : State) (team group : Nat) : Bool :=
  let g := (s.team team).group group
  let core := (s.team team).core
  g.active && !(s.team team).saved && decide (Config.holdCycles ≤ s.cyclesOf core - g.since) && s.readyPending core g.quad

/-! ### Page walks -/

/-- The TLB of a walker takes the leaf (R289). -/
def State.fillTlb (s : State) (w : Walk) (e : TlbEntry) : State :=
  match w.who with
  | .nm id =>
    match s.findCommand id with
    | some c =>
      let tlb := tlbAdd (Tab.get s.baseTlbs c.stack []) Config.baseTlbEntries s.tick e
      { s with baseTlbs := Tab.put s.baseTlbs c.stack tlb }
    | none => s
  | _ =>
    let k := s.cluster w.cluster
    s.setCluster w.cluster { k with tlb := tlbAdd k.tlb Config.tlbEntries s.tick e }

/-- A walk that faults parks who waits for it, or fails (R288, R299 to R301). -/
def State.walkFault (s : State) (w : Walk) (cause : Nat) : State :=
  match w.who with
  | .thread th =>
    if (s.thread th).status = .stalled then (s.dropFetches th).threadPageFault th w.va w.write cause else s
  | .copy id =>
    match s.findCopy id with
    | some c => s.copyPageFault c w.va cause
    | none => s
  | .nm id =>
    match s.findCommand id with
    | some c => s.parkCommand c w.va cause
    | none => s

/-- The walkers of a die keep the table entries read, and give up others of their own choice (R289). -/
def State.keepWalk (s : State) (die : Nat) (seen : List WalkEntry) : State :=
  let old := (Tab.get s.walkCaches die []).filter fun x => Config.keeps s.tick x.base
  { s with walkCaches := Tab.put s.walkCaches die (seen ++ old) }

/-- One walk ends; it waits at a sleeping channel (R342). -/
def State.endWalk (s : State) (w : Walk) : State :=
  s.awake (s.walkReads (w.cluster / 12) w.tenant w.va) fun s =>
    let s0 : State := { s with walks := s.walks.filter (· != w) }
    match s0.walk (w.cluster / 12) w.tenant w.va with
    | .leaf l base seen => (s0.keepWalk (w.cluster / 12) seen).fillTlb w ⟨(s.tenant w.tenant).astag, base, l⟩
    | .fault cause => s0.walkFault w cause

/-- Every walk of a cluster for an address ends. -/
def State.endWalks (s : State) (cluster tenant va : Nat) : State :=
  (s.walks.filter fun w => w.cluster == cluster && w.tenant == tenant && w.va == va).foldl (fun s w => s.endWalk w) s

/-! ### The events -/

/-- ISSUE_PLY (R240). -/
def execIssuePly (core quad : Nat) (s : State) : Host.Outcome State Fault Refusal := .next (s.formPly core quad)

/-- INSTRUCTION_FETCH (R302). -/
def execInstructionFetch (core tenant : Nat) (va : DWord) (s : State) : Host.Outcome State Fault Refusal :=
  .next ((s.fetches.filter fun f => f.core == core && f.tenant == tenant && f.va == va.toNat).foldl
    (fun s f => s.serveFetch f) s)

/-- ACTIVE_HOLD_EXPIRED (R239). -/
def execActiveHoldExpired (team group : Nat) (s : State) : Host.Outcome State Fault Refusal :=
  .next (if s.holdOver team group then
    (s.leaveActive (team, group)).fillActive (s.team team).core ((s.team team).group group).quad Config.activePlaces
  else s)

/-- PAGE_WALK (R286). -/
def execPageWalk (cluster tenant : Nat) (va : DWord) (s : State) : Host.Outcome State Fault Refusal :=
  .next (s.endWalks cluster tenant va.toNat)

end Sys2Proof.Machine
end

