-- ==== Sys2Proof/Machine/Solicit.lean ====
section
/-! DEFINITION. Solicit and census (R256 to R272): tile directories, solicits and what a core does with them,
responders, tickets, and tiles that move. -/
namespace Sys2Proof.Machine
open Sys2Proof

/-! ### The tile directory (R256 to R259) -/

def State.entry (s : State) (core n : Nat) : DirEntry := Tab.get (s.core core).dir n {}
def State.setEntry (s : State) (core n : Nat) (e : DirEntry) : State :=
  s.setCore core { s.core core with dir := Tab.put (s.core core).dir n e }

/-- GONE and not reserved as a move's destination: TDADD may take it (Table 17.2). -/
def DirEntry.free (e : DirEntry) : Bool := e.state == .gone && !e.reserved
/-- The lowest free entry of a core. -/
def State.freeEntry (s : State) (core : Nat) : Option Nat := (List.range 256).find? fun n => (s.entry core n).free
def State.freeEntries (s : State) (core : Nat) : Nat := ((List.range 256).filter fun n => (s.entry core n).free).length

/-- The entry of an image, or none when the image breaks Table 17.1. -/
def readImage (v : Nat) : Option DirEntry :=
  let e : DirEntry :=
    { keyLo := bits v 47 0, keyHi := bits v 111 64, handler := bits v 184 128, spBase := bits v 223 192
      len := bits v 255 224 }
  if bits v 63 48 ≠ 0 ∨ bits v 127 112 ≠ 0 ∨ bits v 191 185 ≠ 0 ∨ e.keyHi < e.keyLo ∨ e.handler % 4 ≠ 0 ∨
      e.spBase % 4 ≠ 0 ∨ e.len % 4 ≠ 0 then none
  else some e

def dirBadEntry : Word := 0x80000001
def dirFull : Word := 0x80000002
def dirNoEntry : Word := 0x80000003
def dirNoTeam : Word := 0x80000004
def dirSize : Word := 0x80000005

/-- TDADD (R258): the directory and D. -/
def State.addEntry (s : State) (th : ThreadRef) (image : Nat) : State × Word :=
  match readImage image with
  | none => (s, dirBadEntry)
  | some e =>
    let core := s.coreOf th
    if (s.team th.team).scratchSize < e.spBase + e.len then (s, dirBadEntry)
    else match s.freeEntry core with
      | none => (s, dirFull)
      | some n =>
        ((s.setEntry core n { e with team := th.team, tenant := s.tenantOf th, state := .live, stamp := s.nextId }).bump,
          BitVec.ofNat 32 n)

/-- Responders admitted on the entry: waiting or running (R259). -/
def State.entryBusy (s : State) (core n : Nat) : Bool :=
  (s.core core).spawns.any (fun x => x.entry == n) ||
  s.teams.any fun t => t.2.core == core && t.2.responders.any fun r => r.2.entry == n

/-- A LIVE entry of the team that TDDEL has not deleted: one that it has is no entry for a further TDDEL or a TDMOVE,
the model's choice (log 176). -/
def DirEntry.owned (e : DirEntry) (team : Nat) : Bool := e.state == .live && !e.deleted && e.team == team

/-- TDDEL (R259). -/
def State.deleteEntry (s : State) (th : ThreadRef) (n : Word) : State × Word :=
  let core := s.coreOf th
  let e := s.entry core n.toNat
  if n.toNat < 256 ∧ e.owned th.team then
    (s.setEntry core n.toNat (if s.entryBusy core n.toNat then { e with deleted := true } else {}), 0)
  else (s, dirNoEntry)

/-! ### Early and late solicits (R271) -/

/-- The census root: 0 to 7 of a die, 8 of the package (R260). -/
def Solicit.root (q : Solicit) : Nat := if q.device then 8 else coreDie q.core

/-- The last numbers that the nine roots have given. -/
def State.rootNumbers (s : State) : List Nat := (List.range 9).map fun r => Tab.get s.roots r 0

/-- The solicit is early for a move registered with these numbers. -/
def Solicit.earlyFor (q : Solicit) (nums : List Nat) : Bool :=
  match q.accepted with
  | some n => decide (n ≤ nums.getD q.root 0)
  | none => false

/-- The entry serves the solicit's tenant and key, and is no destination for which the solicit is early. -/
def DirEntry.serves (e : DirEntry) (q : Solicit) : Bool :=
  e.tenant == q.tenant && decide (e.keyLo ≤ q.key) && decide (q.key ≤ e.keyHi) &&
  !(!e.regDest.isEmpty && q.earlyFor e.regDest)

def DirEntry.spawns (e : DirEntry) (q : Solicit) : Bool := e.serves q && e.state == .live && !e.deleted

/-- A MOVING entry is not registered yet: every solicit that reaches it is early. -/
def DirEntry.forwards (e : DirEntry) (q : Solicit) : Bool :=
  e.serves q && (e.state == .moving || (e.state == .forward && q.earlyFor e.regSource))

/-! ### Issuing (R260) -/

def State.ticket (s : State) (team q : Nat) : Ticket := Tab.get (s.team team).tickets q {}
def State.setTicket (s : State) (team q : Nat) (x : Ticket) : State :=
  s.modTeam team fun t => { t with tickets := Tab.put t.tickets q x }

/-- The solicit has left for its census root: its release is over. -/
def State.sent (s : State) (id : Nat) : Bool := !s.solicits.any fun q => q.id == id && q.accepted.isNone

/-- SOLICIT (R260): the ticket is PENDING, the thread waits as a release, and goes on once the solicit is sent. -/
def solicitOp (q a n : Nat) (c : Combine) (scope : Nat) (th : ThreadRef) (s : State) : Effect :=
  let t := s.thread th
  match t.waitOp with
  | some id => if s.sent id then .go s else .stall s
  | none =>
  if bits (t.reg (a + 1)).toNat 31 16 ≠ 0 then .trap s codeIllegalOperand 0 1
  else if (s.ticket th.team q).state = .pending then .trap s codeIllegalOperand 0 2
  else
    let device := scope == 3
    let x : Solicit :=
      { id := s.nextId, tenant := s.tenantOf th, core := s.coreOf th, team := th.team, ticket := q
        key := (t.pair a).toNat
        args := (List.range 4).map fun k => if k < n then t.reg (a + 2 + k) else 0
        count := n, combine := c, device := device, waits := s.releaseWaits th scope }
    let s1 := s.setTicket th.team q { state := .pending, deviceScope := device }
    let s2 := ({ s1 with solicits := s1.solicits ++ [x], nextId := s1.nextId + 1 } : State).acceptSolicits
    if s2.sent s.nextId then .go s2 else .stall (s2.modThread th fun t => { t with waitOp := some s.nextId })

def State.findSolicit (s : State) (id : Nat) : Option Solicit := s.solicits.find? (·.id == id)
def State.modSolicit (s : State) (id : Nat) (f : Solicit → Solicit) : State :=
  { s with solicits := s.solicits.map fun q => if q.id = id then f q else q }

/-! ### Admission (R261) -/

/-- Solicits in a core's queue: those with a spawn still to start. -/
def Core.queued (k : Core) : List Nat := (k.spawns.map (·.solicit)).eraseDups

def Core.hasPlace (k : Core) : Bool := decide (k.queued.length < Config.solicitDepth)

def Solicit.reaches (q : Solicit) (core : Nat) : Bool := decide (core < 768) && (q.device || coreDie core == coreDie q.core)

/-- Some responder runs on the core. -/
def State.responding (s : State) (core : Nat) : Bool := s.teams.any fun t => t.2.core == core && !t.2.responders.isEmpty

/-- A core under self-test admits nothing until its responders have ended (R309). -/
def State.admitReady (s : State) (q : Solicit) (core : Nat) : Bool :=
  let k := s.core core
  q.accepted.isSome && q.reaches core && !k.disabled && !q.reached.contains core && k.hasPlace && !k.admitHold

/-- A forward for an entry that moves: to its destination, or to the team locator. -/
def State.newForward (s : State) (q : Solicit) (core n : Nat) (e : DirEntry) : Forward :=
  match e.dest with
  | some (c, m, stamp) =>
    { id := s.nextId, solicit := q.id, srcCore := core, srcEntry := n, dstCore := some c, dstEntry := m, stamp := stamp }
  | none =>
    { id := s.nextId, solicit := q.id, srcCore := core, srcEntry := n, dstCore := none, dstEntry := 0, stamp := e.stamp }

/-- The core examines its whole directory in one step and reports its spawn count. -/
def State.admitSolicit (s : State) (q : Solicit) (core : Nat) : State :=
  let s1 := (List.range 256).foldl (fun s n =>
    let e := s.entry core n
    if e.spawns q then
      (s.setCore core { s.core core with spawns := (s.core core).spawns ++ [⟨q.id, n⟩] }).modSolicit q.id fun q =>
        { q with spawned := q.spawned + 1 }
    else if e.forwards q then
      (({ s with forwards := s.forwards ++ [s.newForward q core n e] } : State).bump).modSolicit q.id fun q =>
        { q with spawned := q.spawned + 1 }
    else s) s
  s1.modSolicit q.id fun q => { q with reached := insertNat q.reached core }

/-! ### Responders (R262 to R265) -/

/-- The next free responder slot of a core: group 16 of quadrant 2, then group 17 of quadrant 3. -/
def State.freeSlot (s : State) (core : Nat) : Option Nat :=
  [16, 17].find? fun g => !(s.teams.any fun t => t.2.core == core && (Tab.find t.2.groups g).isSome)

def combineCode : Combine → Nat
  | .addI64 => 0 | .addF64 => 1 | .minI64 => 2 | .minN64 => 3 | .minF64 => 4 | .maxI64 => 5 | .maxN64 => 6
  | .maxF64 => 7 | .and64 => 8 | .or64 => 9 | .xor64 => 10 | .first => 11 | .count => 12

/-- Registers at a responder's start (Table 17.3). -/
def responderRegs (q : Solicit) (n : Nat) (e : DirEntry) (index : Nat) : Tab Word :=
  let w (v : Nat) : Word := BitVec.ofNat 32 v
  [(0, w q.key), (1, w (q.key / 2 ^ 32)), (2, q.args.getD 0 0), (3, q.args.getD 1 0), (4, q.args.getD 2 0),
   (5, q.args.getD 3 0), (6, w q.core), (7, w (combineCode q.combine + 16 * q.count + 128 * q.device.toNat)), (8, w n),
   (9, w e.spBase), (10, w e.len), (11, w index)]

def State.spawnReady (s : State) (core : Nat) : Bool := !(s.core core).spawns.isEmpty && (s.freeSlot core).isSome

/-- A spawn starts as a responder group of 64 threads, with an acquire on path P. -/
def State.startResponder (s : State) (core : Nat) : State :=
  match (s.core core).spawns, s.freeSlot core with
  | sp :: rest, some g =>
    let s0 := s.setCore core { s.core core with spawns := rest }
    match s.findSolicit sp.solicit with
    | none => s0
    | some q =>
      let e := s.entry core sp.entry
      let t := s.team e.team
      let x : Thread := { pc := BitVec.ofNat 64 e.handler, regs := responderRegs q sp.entry e t.index, readyAt := s.tick }
      let group : Group :=
        { role := 4, budget := 128, quad := g - 14, place := 15, since := s.tick
          threads := (List.range 64).map fun l => (l, x) }
      (s0.modTeam e.team fun t => { t with
        groups := Tab.put t.groups g group
        responders := Tab.put t.responders g ⟨sp.solicit, sp.entry, q.device, none, none⟩ }).invalidateL1 core
  | _, _ => s

def State.findResponder (s : State) (th : ThreadRef) : Option Responder := Tab.find (s.team th.team).responders th.group

def replyOp (v : DWord) (th : ThreadRef) (s : State) : Effect :=
  if isResponder th then
    .go (s.modTeam th.team fun t => { t with responders := Tab.adjust t.responders th.group fun r =>
      if r.reply.isNone then { r with reply := some v } else r })
  else .trap s codeIllegalOperand 0 0x79

/-- A spawn is completed with an order key, and with a reply, an error, or neither (R265, R267). -/
def State.complete (s : State) (id core entry : Nat) (reply : Option DWord) (error : Option Word) : State :=
  s.modSolicit id fun q => { q with
    completed := q.completed + 1
    replies := match error, reply with
      | none, some v => q.replies ++ [(core, entry, v)]
      | _, _ => q.replies
    errors := match error with
      | some c => q.errors ++ [(core, entry, c)]
      | none => q.errors }

/-- Every thread has exited and the ending release is over. -/
def State.responderOver (s : State) (team group : Nat) (r : Responder) : Bool :=
  !((s.team team).group group).live && s.allDone (s.releaseWaits ⟨team, group, 0⟩ (if r.device then 3 else 2))

def State.endResponder (s : State) (team group : Nat) (r : Responder) : State :=
  (s.modTeam team fun t => { t with
    groups := Tab.drop t.groups group, responders := Tab.drop t.responders group }).complete r.solicit (s.team team).core
    r.entry r.reply r.error

/-! ### The census and the ticket (R266 to R268) -/

def keyLe (a b : Nat × Nat) : Bool := decide (a.1 < b.1) || (a.1 == b.1 && decide (a.2 ≤ b.2))

/-- Inserts by order key. -/
def insertKey {α : Type} (x : Nat × Nat × α) : List (Nat × Nat × α) → List (Nat × Nat × α)
  | [] => [x]
  | y :: ys => if keyLe (x.1, x.2.1) (y.1, y.2.1) then x :: y :: ys else y :: insertKey x ys

def byKey {α : Type} (xs : List (Nat × Nat × α)) : List (Nat × Nat × α) := xs.foldr insertKey []

/-- minimumNumber or maximumNumber over the replies, canonical when all are NaN (R86, R46). -/
def foldMinMax (wantMax : Bool) (identity : DWord) : List DWord → DWord
  | [] => identity
  | v :: vs => BitVec.ofNat 64 ((v :: vs).foldl (fun a x => (minMaxBits fp64 wantMax a x.toNat).1) v.toNat)

/-- The combine of replies in ascending order key (Table 17.4). -/
def combineReplies (c : Combine) (vs : List DWord) : DWord :=
  match c with
  | .addI64 => vs.foldl (· + ·) 0
  | .addF64 => BitVec.ofNat 64 (vs.foldl (fun a v => addF64Bits a v.toNat) 0)
  | .minI64 => vs.foldl (fun a v => if v.slt a then v else a) 0x7FFFFFFFFFFFFFFF
  | .minN64 => vs.foldl (fun a v => if v.ult a then v else a) (BitVec.allOnes 64)
  | .minF64 => foldMinMax false 0x7FF0000000000000 vs
  | .maxI64 => vs.foldl (fun a v => if a.slt v then v else a) 0x8000000000000000
  | .maxN64 => vs.foldl (fun a v => if a.ult v then v else a) 0
  | .maxF64 => foldMinMax true 0xFFF0000000000000 vs
  | .and64 => vs.foldl (· &&& ·) (BitVec.allOnes 64)
  | .or64 => vs.foldl (· ||| ·) 0
  | .xor64 => vs.foldl (· ^^^ ·) 0
  | .first => vs.headD (BitVec.allOnes 64)
  | .count => BitVec.ofNat 64 vs.length

/-- Every enabled core of the scope has reported, and completions equal spawns (R267). -/
def State.censusReady (s : State) (q : Solicit) : Bool :=
  q.accepted.isSome && q.completed == q.spawned &&
  (List.range 768).all fun c => !q.reaches c || q.reached.contains c || (s.core c).disabled

/-- The status word (Table 17.5). -/
def Solicit.status (q : Solicit) : Word :=
  match byKey q.errors with
  | [] => 1
  | e :: _ => BitVec.ofNat 32 (e.2.2.toNat % 256 * 2 ^ 24 + min q.errors.length 255 * 2 ^ 16 + 2)

def ticketScope (x : Ticket) : Nat := if x.deviceScope then 3 else 2

/-- A CWAIT's result: value, count, status; for a DONE ticket with an acquire at the solicit's scope (R268, R269). -/
def State.ticketResult (s : State) (th : ThreadRef) (d : Nat) (x : Ticket) : State :=
  let s1 := s.ready th d 4 { vals := dwordWords x.value ++ [x.count, x.status] }
  if x.state = .done then s1.acquire th (ticketScope x) [] else s1

def cwaitOp (d q : Nat) (th : ThreadRef) (s : State) : Effect :=
  let x := s.ticket th.team q
  if (s.thread th).full then .stall s
  else if x.state = .pending then .block s (.cwait q d)
  else .go (s.ticketResult th d x)

/-- The census completes: the ticket is DONE and its waiters return. A team that is gone receives nothing (R272). -/
def State.finishCensus (s : State) (q : Solicit) : State :=
  let s1 := { s with solicits := s.solicits.filter (·.id != q.id) }
  let x : Ticket :=
    { state := .done, value := combineReplies q.combine ((byKey q.replies).map (·.2.2))
      count := BitVec.ofNat 32 q.replies.length, status := q.status, deviceScope := q.device }
  let s2 := s1.setTicket q.team q.ticket x
  ((s2.team q.team).refs q.team).foldl (fun s th =>
    match (s.thread th).wait with
    | .cwait n d => if n = q.ticket ∧ (s.thread th).status = .blocked then (s.ticketResult th d x).advance th else s
    | _ => s) s2

/-! ### Tiles that move (R270 to R272) -/

/-- The team of a grid that is resident on a core, with the lowest linear index. -/
def State.gridTeamOn (s : State) (grid core : Nat) : Option Nat :=
  leastBy (fun t => (s.team t).index) ((s.residents core).filter fun t => (s.team t).grid == grid)

/-- TDMOVE's checks: the refusal, or the destination team and entry. -/
def State.moveTarget (s : State) (th : ThreadRef) (a b : Word) : Word ⊕ (Nat × Nat) :=
  let core := s.coreOf th
  let e := s.entry core a.toNat
  if 256 ≤ a.toNat ∨ e.owned th.team = false then .inl dirNoEntry
  else if 768 ≤ b.toNat ∨ b.toNat = core then .inl dirNoTeam
  else match s.gridTeamOn (s.team th.team).grid b.toNat with
    | none => .inl dirNoTeam
    | some v =>
      if (s.team v).scratchSize < e.spBase + e.len then .inl dirSize
      else match s.freeEntry b.toNat with
        | none => .inl dirFull
        | some n => .inr (v, n)

/-- TDMOVE: the destination is reserved, the source is MOVING, and the thread waits at issue. -/
def tdmoveOp (d : Nat) (a b : Word) (th : ThreadRef) (s : State) : Effect :=
  let core := s.coreOf th
  if (s.thread th).waitOp.isSome then .stall s
  else match s.moveTarget th a b with
    | .inl code => .go (s.setReg th d code)
    | .inr (v, n) =>
      let m : Move :=
        { id := s.nextId, th := th, d := d, srcCore := core, srcEntry := a.toNat, dstCore := b.toNat, dstEntry := n
          stamp := s.nextId, team := v }
      let s1 := s.setEntry b.toNat n { reserved := true, stamp := m.stamp }
      let s2 := s1.setEntry core a.toNat { s1.entry core a.toNat with
        state := .moving, dest := some (b.toNat, n, m.stamp) }
      .stall ({ s2.modThread th (fun t => { t with waitOp := some m.id }) with
        moves := s2.moves ++ [m], nextId := s2.nextId + 1 })

def State.findMove (s : State) (id : Nat) : Option Move := s.moves.find? (·.id == id)

/-- The two sides of a move's copy, as copies in flight that hold their scratchpad ranges (R161, R189). -/
def State.moveCopy (s : State) (m : Move) (team : Nat) (inward : Bool) (e : DirEntry) : Copy :=
  { id := s.nextId, th := m.th, core := m.srcCore, tenant := e.tenant, pc := (s.thread m.th).pc, team := team
    inward := inward, bob := none, va := 0, sp := e.spBase, width := e.len, move := some m.id }

/-- The copy of a move may start: the responders on the source have ended and no copy in flight is in its way. -/
def State.moveStarts (s : State) (m : Move) : Bool :=
  let e := s.entry m.srcCore m.srcEntry
  !m.started && !s.entryBusy m.srcCore m.srcEntry && !s.scratchBusy e.team e.spBase e.len false &&
  !s.scratchBusy m.team e.spBase e.len true

def State.startMove (s : State) (m : Move) : State :=
  let e := s.entry m.srcCore m.srcEntry
  let s1 : State := { s with copies := s.copies ++ [s.moveCopy m e.team false e], nextId := s.nextId + 1 }
  let s2 : State := { s1 with copies := s1.copies ++ [s1.moveCopy m m.team true e], nextId := s1.nextId + 1 }
  { s2 with moves := s2.moves.map fun x => if x.id = m.id then { x with started := true } else x }

/-- The tile's bytes land; their poison travels. -/
def State.landTile (s : State) (m : Move) (e : DirEntry) : State :=
  let t := s.team e.team
  let bad := (wordRange e.spBase e.len).filter t.scratchPoison.contains
  s.modTeam m.team fun v =>
    let v1 := v.putScratch e.spBase (t.scratchBytes e.spBase e.len)
    { v1 with scratchPoison := bad.foldl insertNat v1.scratchPoison }

/-- The destination is LIVE, the move is registered, the source is FORWARD, and TDMOVE's thread goes on (R270, R271). -/
def State.registerMove (s : State) (m : Move) : State :=
  let e := s.entry m.srcCore m.srcEntry
  let nums := s.rootNumbers
  let s1 := s.landTile m e
  let s2 := s1.setEntry m.dstCore m.dstEntry { e with
    team := m.team, state := .live, reserved := false, stamp := m.stamp, dest := none, deleted := false
    regSource := [], regDest := nums }
  let s3 := s2.setEntry m.srcCore m.srcEntry { e with
    state := .forward, dest := some (m.dstCore, m.dstEntry, m.stamp), regSource := nums }
  let s4 : State := { s3 with
    copies := s3.copies.filter fun c => c.move != some m.id, moves := s3.moves.filter (·.id != m.id) }
  ((s4.setReg m.th m.d (BitVec.ofNat 32 m.dstEntry)).advanceLive m.th).settle

def State.moveReady (s : State) (m : Move) : Bool := (m.started && !(s.team m.team).saved) || s.moveStarts m

/-- Where a forward stands at its destination (R271). -/
inductive Arrival where
  | waits | spawns | onward | lost (code : Word)
  deriving DecidableEq, Repr

def State.arrival (s : State) (f : Forward) : Arrival :=
  match f.dstCore with
  | none => .waits
  | some c =>
    let e := s.entry c f.dstEntry
    if (s.core c).lostStamps.contains f.stamp then .lost codeCoreLost
    else if s.moves.any (fun m => m.stamp == f.stamp) then .waits
    else if e.stamp ≠ f.stamp then .lost codeTileGone
    else match e.state with
      | .live => if e.deleted then .lost codeTileGone else if (s.core c).hasPlace then .spawns else .waits
      | .moving => .onward
      | .forward => .onward
      | .gone => .lost codeTileGone

/-- A forward spawns, goes on along a chain of moves, or is settled as a completion in error. -/
def State.arrive (s : State) (f : Forward) : State :=
  let s0 : State := { s with forwards := s.forwards.filter (·.id != f.id) }
  match s.arrival f, f.dstCore with
  | .spawns, some c =>
    s0.setCore c { s0.core c with spawns := (s0.core c).spawns ++ [⟨f.solicit, f.dstEntry⟩] }
  | .onward, some c =>
    let e := s.entry c f.dstEntry
    let g : Forward := match e.dest with
      | some (k, m, stamp) => { f with srcCore := c, srcEntry := f.dstEntry, dstCore := some k, dstEntry := m, stamp := stamp }
      | none => { f with srcCore := c, srcEntry := f.dstEntry, dstCore := none, dstEntry := 0, stamp := e.stamp }
    { s0 with forwards := s0.forwards ++ [g] }
  | .lost code, some c => s0.complete f.solicit c f.dstEntry none (some code)
  | _, _ => s

/-- Every early census of the entry's move has completed. -/
def State.sourceOver (s : State) (e : DirEntry) : Bool :=
  e.state == .forward && !s.solicits.any fun q => q.earlyFor e.regSource

def State.deletedOver (s : State) (core n : Nat) : Bool :=
  let e := s.entry core n
  e.deleted && e.state == .live && !s.entryBusy core n

/-! ### Entries of a team that is saved, restored or ends (R272) -/

def Core.entriesOf (k : Core) (team : Nat) : Tab DirEntry := k.dir.filter fun e => e.2.team == team && e.2.state == .live

/-- The team's LIVE entries become MOVING with no destination, and the context keeps them (Table 17.6). -/
def State.moveEntries (s : State) (team : Nat) : State :=
  let core := (s.team team).core
  let es := ((s.core core).entriesOf team).filter fun e => !e.2.deleted
  (es.foldl (fun s e => s.setEntry core e.1 { e.2 with state := .moving, dest := none }) s).modTeam team fun t =>
    { t with entries := es.foldl (fun x e => Tab.put x e.1 e.2) t.entries }

/-- The save: entries that became LIVE since it began are MOVING too, and deleted ones are GONE. -/
def State.saveEntries (s : State) (team : Nat) : State :=
  let core := (s.team team).core
  let gone := ((s.core core).entriesOf team).filter fun e => e.2.deleted
  gone.foldl (fun s e => s.setEntry core e.1 {}) (s.moveEntries team)

/-- The forwards that wait at the locator for an entry follow it to where it stands now. -/
def State.releaseForwards (s : State) (core n stamp newCore m newStamp : Nat) : State :=
  { s with forwards := s.forwards.map fun f =>
    if f.dstCore = none ∧ f.srcCore = core ∧ f.srcEntry = n ∧ f.stamp = stamp then
      { f with dstCore := some newCore, dstEntry := m, stamp := newStamp }
    else f }

/-- The old entry still stands on the core that the team was saved from. -/
def State.entryStands (s : State) (core n : Nat) (e : DirEntry) : Bool :=
  (s.entry core n).stamp == e.stamp && (s.entry core n).state == .moving

/-- One entry on a restore: LIVE again on its old core, or placed on the new one and registered. -/
def State.restoreEntry (s : State) (old new n : Nat) (e : DirEntry) : State :=
  if old = new ∧ s.entryStands old n e then
    (s.setEntry new n { s.entry new n with state := .live }).releaseForwards old n e.stamp new n e.stamp
  else match s.freeEntry new with
    | none => s
    | some m =>
      let nums := s.rootNumbers
      let stamp := s.nextId
      let s1 := (s.setEntry new m { e with state := .live, stamp := stamp, dest := none, regSource := [], regDest := nums }).bump
      let s2 := if s.entryStands old n e then
          s1.setEntry old n { s1.entry old n with state := .forward, dest := some (new, m, stamp), regSource := nums }
        else s1
      s2.releaseForwards old n e.stamp new m stamp

/-- The destination entry of a move is still reserved for it: a change of owner wipes reservations (Table 21.4). -/
def State.reservation (s : State) (m : Move) : Bool :=
  (s.entry m.dstCore m.dstEntry).reserved && (s.entry m.dstCore m.dstEntry).stamp == m.stamp

def State.unreserve (s : State) (m : Move) : State :=
  if s.reservation m then s.setEntry m.dstCore m.dstEntry {} else s

/-- Moves into the team that are not registered take an entry of the new core (R270). -/
def State.restoreMove (s : State) (new : Nat) (m : Move) : State :=
  if m.dstCore = new ∧ s.reservation m then s
  else match s.freeEntry new with
    | none => s
    | some n =>
      let stamp := s.nextId
      let s1 := ((s.unreserve m).setEntry new n { reserved := true, stamp := stamp }).bump
      let s2 := s1.setEntry m.srcCore m.srcEntry { s1.entry m.srcCore m.srcEntry with dest := some (new, n, stamp) }
      { s2 with
        moves := s2.moves.map fun x => if x.id = m.id then { x with dstCore := new, dstEntry := n, stamp := stamp } else x
        forwards := s2.forwards.map fun f =>
          if f.dstCore = some m.dstCore ∧ f.stamp = m.stamp then { f with dstCore := some new, dstEntry := n, stamp := stamp }
          else f }

def State.restoreEntries (s : State) (team new : Nat) : State :=
  let old := (s.team team).savedFrom
  let s1 := (s.team team).entries.foldl (fun s e => s.restoreEntry old new e.1 e.2) s
  let s2 := (s1.moves.filter fun m => m.team == team).foldl (fun s m => s.restoreMove new m) s1
  s2.modTeam team fun t => { t with entries := [] }

/-- Entries that a restore on a core would take. -/
def State.entriesNeeded (s : State) (team new : Nat) : Nat :=
  let t := s.team team
  (t.entries.filter fun e => !(t.savedFrom == new && s.entryStands new e.1 e.2)).length +
  (s.moves.filter fun m => m.team == team && !(m.dstCore == new && s.reservation m)).length

/-- The team's LIVE entries are GONE (R272). -/
def State.endEntries (s : State) (team : Nat) : State :=
  let core := (s.team team).core
  ((s.core core).entriesOf team).foldl (fun s e => s.setEntry core e.1 {}) s

/-- Responders on the team's entries, waiting or running. -/
def State.tilesBusy (s : State) (team : Nat) : Bool :=
  let core := (s.team team).core
  !(s.team team).responders.isEmpty || (s.core core).spawns.any fun x => (s.entry core x.entry).team == team

/-! ### Meanings -/

/-- SOLICIT (R260). Asks every tile of the scope that serves the key; the ticket is PENDING. -/
def execSolicit (sw : Bool) (q : BitVec 4) (a : BitVec 7) (n : ArgCount) (c : Combine) (f : BitVec 3) (s : State) : Host.Outcome State Fault Refusal :=
  runPly (.solicit sw q a n c f) (solicitOp q.toNat a.toNat n.code.toNat c f.toNat) s

/-- REPLY (R265). In a responder, its first reply is recorded. -/
def execReply (sw : Bool) (a : BitVec 7) (s : State) : Host.Outcome State Fault Refusal :=
  runPly (.reply sw a) (fun th s => replyOp ((s.thread th).pair a.toNat) th s) s

/-- CWAIT (R268). D ← value, count and status once the ticket is DONE; class L. -/
def execCwait (sw : Bool) (d : BitVec 7) (q : BitVec 4) (s : State) : Host.Outcome State Fault Refusal :=
  runPly (.cwait sw d q) (cwaitOp d.toNat q.toNat) s

/-- CPOLL (R268). p ← the ticket is not PENDING. -/
def execCpoll (sw : Bool) (p : BitVec 3) (q : BitVec 4) (s : State) : Host.Outcome State Fault Refusal :=
  runPly (.cpoll sw p q) (fun th s =>
    .go (s.setPred th p.toNat ((s.ticket th.team q.toNat).state != .pending))) s

/-- TDADD (R258). Adds a directory entry; D ← its number or a refusal. -/
def execTdadd (sw : Bool) (d : BitVec 7) (a : BitVec 7) (s : State) : Host.Outcome State Fault Refusal :=
  runPly (.tdadd sw d a) (fun th s =>
    let r := s.addEntry th ((s.thread th).wide a.toNat 8)
    .go (r.1.setReg th d.toNat r.2)) s

/-- TDDEL (R259). Deletes a directory entry; D ← 0 or a refusal. -/
def execTddel (sw : Bool) (d : BitVec 7) (a : BitVec 7) (s : State) : Host.Outcome State Fault Refusal :=
  runPly (.tddel sw d a) (fun th s =>
    let r := s.deleteEntry th ((s.thread th).reg a.toNat)
    .go (r.1.setReg th d.toNat r.2)) s

/-- TDMOVE (R270). Moves a tile to another team of the grid; D ← its new entry or a refusal. -/
def execTdmove (sw : Bool) (d : BitVec 7) (a : BitVec 7) (b : BitVec 7) (s : State) : Host.Outcome State Fault Refusal :=
  runPly (.tdmove sw d a b) (fun th s =>
    let u := s.thread th
    tdmoveOp d.toNat (u.reg a.toNat) (u.reg b.toNat) th s) s

/-- SOLICIT_ADMIT (R261). A core admits a solicit, examines its directory and reports its spawn count. -/
def execSolicitAdmit (id : Nat) (core : Nat) (s : State) : Host.Outcome State Fault Refusal :=
  match s.findSolicit id with
  | some q => if s.admitReady q core then .next (s.admitSolicit q core) else .next s
  | none => .next s

/-- RESPONDER_START (R262). The next spawn of a core becomes a responder group. -/
def execResponderStart (core : Nat) (s : State) : Host.Outcome State Fault Refusal :=
  if s.spawnReady core then .next (s.startResponder core) else .next s

/-- RESPONDER_END (R265). A responder whose threads have exited and whose release is over reports its completion. -/
def execResponderEnd (team : Nat) (group : Nat) (s : State) : Host.Outcome State Fault Refusal :=
  match Tab.find (s.team team).responders group with
  | some r => if s.responderOver team group r then .next (s.endResponder team group r) else .next s
  | none => .next s

/-- CENSUS_COMPLETE (R267). The ticket becomes DONE when the census is complete. -/
def execCensusComplete (id : Nat) (s : State) : Host.Outcome State Fault Refusal :=
  match s.findSolicit id with
  | some q => if s.censusReady q then .next (s.finishCensus q) else .next s
  | none => .next s

/-- FORWARD_ARRIVE (R271). A forward reaches its destination: it spawns, goes on, waits, or is settled in error. -/
def execForwardArrive (id : Nat) (s : State) : Host.Outcome State Fault Refusal :=
  match s.forwards.find? (·.id == id) with
  | some f => .next (s.arrive f)
  | none => .next s

/-- MOVE_REGISTER (R271). A move starts its copy, or, once that has retired, is registered. -/
def execMoveRegister (id : Nat) (s : State) : Host.Outcome State Fault Refusal :=
  match s.findMove id with
  | some m =>
    if m.started then (if (s.team m.team).saved then .next s else .next (s.registerMove m))
    else if s.moveStarts m then .next (s.startMove m) else .next s
  | none => .next s

/-- SOURCE_ENTRY_GONE (R271). A FORWARD entry is GONE once every early census has completed. -/
def execSourceEntryGone (core : Nat) (entry : Nat) (s : State) : Host.Outcome State Fault Refusal :=
  if s.sourceOver (s.entry core entry) then .next (s.setEntry core entry {}) else .next s

/-- ENTRY_GONE (R259). A deleted entry is GONE once its responders have ended. -/
def execEntryGone (core : Nat) (entry : Nat) (s : State) : Host.Outcome State Fault Refusal :=
  if s.deletedOver core entry then .next (s.setEntry core entry {}) else .next s

end Sys2Proof.Machine
end

