-- ==== Sys2Proof/Machine/Launch.lean ====
section
/-! DEFINITION. Launch queues, placement and preemption (R228 to R242, R252, R272, R298, R345). -/
namespace Sys2Proof.Machine
open Sys2Proof

/-! ### The managers' accesses (R345) -/

/-- Outcome of a manager's access: its pieces, a page fault that waits, a failure, or places it reads or writes of which
a channel sleeps (R342). -/
inductive MgrAccess where
  | ok (pieces : List Piece)
  | waits (va cause : Nat)
  | fails (va : Nat)
  | sleeps (ls : List Loc)
  deriving DecidableEq, Repr

def queueTenant (q : Nat) : Nat := q / 4

/-- One page of a manager's access, walked at its die; non-resident pages never read as zeros. -/
def State.mgrPage (s : State) (q va : Nat) (x : Need) : Leaf ⊕ MgrAccess :=
  if 2 ^ 57 ≤ va then .inr (.fails va)
  else match s.walk (q % 8) (queueTenant q) va with
    | .fault cause => .inr (if cause = causeBadEntry then .fails va else .waits va cause)
    | .leaf l _ _ =>
      match s.checkLeaf { x with resident := true } l va with
      | none => .inl l
      | some (.page v c) => .inr (.waits v c)
      | some _ => .inr (.fails va)

/-- A manager's access of at most one page of bytes, channels apart. -/
def State.mgrPieces (s : State) (q va len : Nat) (x : Need) : MgrAccess :=
  let first := min len (4096 - va % 4096)
  match s.mgrPage q va x with
  | .inr r => r
  | .inl l =>
    if first = len then .ok [(va, len, l)]
    else match s.mgrPage q (va + first) x with
      | .inr r => r
      | .inl m => .ok [(va, first, l), (va + first, len - first, m)]

/-- The places that such an access reads or writes: its walks, and its bytes. -/
def State.mgrPlaces (s : State) (q va len : Nat) (x : Need) : List Loc :=
  let walk (a : Nat) : List Loc := if 2 ^ 57 ≤ a then [] else s.walkReads (q % 8) (queueTenant q) a
  let last := va + (len - 1)
  walk va ++ (if last / 4096 = va / 4096 then [] else walk last) ++
  (match s.mgrPieces q va len x with | .ok ps => (pieceLines ps).map (·.2.1) | _ => [])

/-- A manager's access: it waits at a channel that sleeps. -/
def State.mgrAccess (s : State) (q va len : Nat) (x : Need) : MgrAccess :=
  if (s.mgrPlaces q va len x).any s.asleep then .sleeps (s.mgrPlaces q va len x) else s.mgrPieces q va len x

/-- The access has reached its channels. -/
def State.mgrTouch (s : State) (q va len : Nat) (x : Need) : State := (s.mgrPlaces q va len x).foldl State.touch s

def State.mgrBytes (s : State) (pieces : List Piece) : List Byte :=
  pieces.flatMap fun g => s.bytesAt (g.2.2.locate g.1) g.2.1

/-- The value that a manager's read finds, when it succeeds. -/
def State.mgrRead (s : State) (q va len : Nat) : Option Nat :=
  match s.mgrPieces q va len { read := true } with
  | .ok ps => some (leValue (s.mgrBytes ps))
  | _ => none

/-- A write at the home slices of its lines. -/
def State.mgrWrite (s : State) (pieces : List Piece) (va : Nat) (bs : List Byte) : State :=
  (pieceLines pieces).foldl (fun s e => s.writePlace e.2.1 ((bs.drop (e.1 - va)).take e.2.2)) s

def State.piecesHeld (s : State) (pieces : List Piece) : Bool := s.writesHeld ((pieceLines pieces).map (·.2.1))

/-! ### Queues (R228, R229) -/

def State.slotVa (s : State) (q n : Nat) : Nat := (s.queue q).ring + 192 * (n % 2 ^ (s.queue q).logsz)
def tailOffset : Nat := 16
def dispOffset : Nat := 24
def headOffset : Nat := 32
def statusOffset : Nat := 120
def stopOffset : Nat := 128

/-- Queue of `records` whose grid has not retired. -/
def State.gridRunning (s : State) (q n : Nat) : Bool :=
  s.grids.any fun g => g.2.queue == q && g.2.record == n && !g.2.retired

def State.pushOps (s : State) (q : Nat) (ops : List MgrOp) : State :=
  s.setQueue q { s.queue q with ops := (s.queue q).ops ++ ops }

/-- HEAD past the leading retired records; one record per unit of fuel. -/
def advanceHead (retired : List Nat) : Nat → Nat → Nat
  | h, 0 => h
  | h, n + 1 => if retired.contains h then advanceHead retired (h + 1) n else h

/-- Queue after a record has retired: HEAD advances, and is written when it moved. -/
def Queue.moveHead (x : Queue) (record : Nat) : Queue :=
  let h := advanceHead x.retired x.head x.retired.length
  { x with
    head := h
    retired := x.retired.filter (h ≤ ·)
    ops := if h = x.head then x.ops else x.ops ++ [⟨record, .store (x.base + headOffset) (leBytes 8 h), none⟩] }

/-- The QCB passes Table 15.1 and R229. -/
def qcbGood (v : Nat) : Bool :=
  let logsz := bits v 4 0
  let head := bits v 319 256
  let disp := bits v 255 192
  let tail := bits v 191 128
  bits v 511 320 == 0 && bits v 63 9 == 0 && bits v 7 5 == 0 && decide (1 ≤ logsz) && decide (logsz ≤ 16) &&
  bits v 69 64 == 0 && decide (head ≤ disp) && decide (disp ≤ tail) && decide (tail - head ≤ 2 ^ logsz)

/-- Takes the counters of a good QCB and counts every record that no running grid holds as retired (R229). -/
def State.enableQueue (s : State) (q base v : Nat) : State :=
  let head := bits v 319 256
  let disp := bits v 255 192
  let x : Queue :=
    { s.queue q with
      en := true, qcb := base, base := base, ring := bits v 127 64, logsz := bits v 4 0, prod := bits v 8 8 == 1
      head := head, disp := disp, tail := bits v 191 128, parked := none, looked := none
      retired := ((List.range (disp - head)).map (head + ·)).filter fun n => !s.gridRunning q n }
  s.setQueue q (x.moveHead head)

/-- The manager reads the QCB, and enables the queue or leaves it off (R229); a channel that sleeps is waited for. -/
def State.openQueue (s : State) (q : Nat) : State :=
  let base := (s.queue q).qcb
  let need : Need := { read := true, write := true }
  let off (s : State) : State := s.setQueue q { s.queue q with opening := false }
  match s.mgrAccess q base 64 need with
  | .ok ps =>
    let w := leValue (s.mgrBytes ps)
    let s1 := off (s.mgrTouch q base 64 need)
    if qcbGood w then s1.enableQueue q base w else s1
  | .sleeps ls => s.want ls
  | _ => off s

/-- A QCTL write (R229). -/
def State.writeQctl (s : State) (q : Nat) (v : DWord) : State :=
  let on := v.getLsbD 63
  let s1 := s.setQueue q { s.queue q with
    en := false, qcb := bits v.toNat 56 6 * 64, parked := none, appending := none, opening := on }
  if on then s1.openQueue q else s1

/-- The queue stops (R345): EN clears and event 12 is logged. -/
def State.stopQueue (s : State) (q va : Nat) : State :=
  (s.setQueue q { s.queue q with en := false, parked := none, appending := none }).logEvent 12 (q % 8) q va

/-- The value of TAIL that a write on the watched line left (R229). -/
def State.newTail (s : State) (q : Nat) : Option Nat :=
  let x := s.queue q
  if x.en ∧ x.parked = none then
    match s.mgrRead q (x.base + tailOffset) 8 with
    | some t => if t = x.tail then none else some t
    | none => none
  else none

/-- What the manager reads TAIL with. -/
def State.tailPlaces (s : State) (q : Nat) : List Loc := s.mgrPlaces q ((s.queue q).base + tailOffset) 8 { read := true }

def State.takeTail (s : State) (q t : Nat) : State :=
  let x := s.queue q
  if 2 ^ x.logsz < t - x.head ∨ t < x.disp then s.setQueue q { x with en := false } else s.setQueue q { x with tail := t }

/-! ### Launch records (R231, R232) -/

def roleField (v n : Nat) : Nat := bits v (288 + 16 * n + 15) (288 + 16 * n)
/-- Roles present, in order: group count and budget (R11). -/
def recordRoles (v : Nat) : List (Nat × Nat) :=
  ((List.range 4).map fun n => (bits (roleField v n) 4 0, 32 * (bits (roleField v n) 9 5 + 1))).takeWhile fun r => r.1 != 0

def badPc (p : Nat) : Bool := p % 4 != 0 || decide (2 ^ 57 ≤ p)

/-- BAD_RECORD (Table 15.4). -/
def recordBad (v : Nat) : Bool :=
  let groups := (List.range 4).map fun n => bits (roleField v n) 4 0
  let extents := [bits v 223 192, bits v 255 224, bits v 287 256]
  bits v 1535 1088 != 0 || bits v 1023 992 != 0 || bits v 399 386 != 0 || bits v 415 410 != 0 || bits v 383 381 != 0 ||
  ((List.range 4).any fun n => bits (roleField v n) 15 10 != 0) ||
  badPc (bits v 63 0) || badPc (bits v 127 64) || bits v 450 448 != 0 || bits v 578 576 != 0 ||
  extents.any (· == 0) || decide (2 ^ 32 < extents.foldl (· * ·) 1) ||
  groups.getD 0 0 == 0 || groups.any (fun n => decide (16 < n)) ||
  ((List.range 3).any fun n => groups.getD n 0 == 0 && groups.getD (n + 1) 0 != 0) || decide (16 < groups.sum) ||
  decide (8 < bits v 355 352) || decide (16 < bits v 360 356) || decide (64 < bits v 367 361) || bits v 377 376 == 3

/-- R57's rules on a format slot. -/
def slotBad (w : Nat) : Bool :=
  let fmt := bits w 23 20
  let gsz := bits w 19 18
  let scf := bits w 17 16
  let sgn := bits w 15 15
  bits w 31 24 != 0 || bits w 10 0 != 0 || decide (10 < fmt) || decide (1 < scf) ||
  (gsz != 0 && fmt != 4 && fmt != 5) || (gsz == 0) != (scf == 0) || (bits w 11 11 == 1 && gsz == 0) ||
  (sgn == 1 && (decide (fmt ≤ 3) || fmt == 8 || fmt == 9)) || (fmt == 10 && sgn == 0)

/-- Groups of a shape in order: role, quadrant and budget (R10, R11). -/
def shapeGroups (roles : List (Nat × Nat)) : List (Nat × Nat × Nat) :=
  let all := (roles.mapIdx fun r g => List.replicate g.1 (r, g.2)).flatten
  all.mapIdx fun k g => (g.1, k % 4, g.2)

def quadLimit (quad : Nat) : Nat := if quad < 2 then 1024 else 896
def quadPlaces (quad : Nat) : Nat := if quad < 2 then 16 else 15

/-- Quadrant and budget of the groups that hold room on a core: the live ordinary groups of its resident teams but
those of `skip` (R12, R24). -/
def State.coreLoad (s : State) (core : Nat) (skip : List Nat) : List (Nat × Nat) :=
  ((s.residents core).filter fun t => !skip.contains t).flatMap fun t =>
    ((s.team t).groups.filter fun g => decide (g.1 < 16) && g.2.live).map fun g => (g.2.quad, g.2.budget)

/-- The fit test of R24. -/
def fitsLoad (load : List (Nat × Nat)) (tiles scratch : Nat) : Bool :=
  ((List.range 4).all fun q =>
    let mine := load.filter fun g => g.1 == q
    decide ((mine.map (·.2)).sum ≤ quadLimit q) && decide (mine.length ≤ quadPlaces q)) &&
  decide (tiles ≤ 16) && decide (scratch ≤ 0x100000)

def State.coreTiles (s : State) (core : Nat) (skip : List Nat) : Nat :=
  (((s.residents core).filter fun t => !skip.contains t).map fun t => (s.team t).tileCount).sum

/-- Dies on which the tenant owns a cluster. -/
def State.ownedDies (s : State) (tenant : Nat) : List Nat :=
  (List.range 8).filter fun d => (List.range 12).any fun k =>
    (s.cluster (12 * d + k)).owned && (s.cluster (12 * d + k)).tenant == tenant

/-- The refusal code of a record, 0 for none (Table 15.4). -/
def State.refusal (s : State) (q v : Nat) : Nat :=
  let dies := (s.ownedDies (queueTenant q)).filter fun d => bits v 375 368 / 2 ^ d % 2 == 1
  if recordBad v then 1
  else if (List.range 8).any fun n => slotBad (bits v (704 + 32 * n + 31) (704 + 32 * n)) then 2
  else if dies.isEmpty then 3
  else if !fitsLoad ((shapeGroups (recordRoles v)).map (·.2)) 0 0 then 4
  else if bits v 384 384 = 1 ∧ dies.any (fun d => (List.range 64).any fun c =>
      let x := s.channel (2 * d + c / 32) (c % 32)
      x.retired || x.narrowed || x.offline) then 5
  else 0

/-- The grid of a record that passes. -/
def State.readGrid (s : State) (q n v : Nat) : Grid :=
  let dw (lo : Nat) : DWord := BitVec.ofNat 64 (bits v (lo + 63) lo)
  { queue := q, record := n, recordVa := s.slotVa q n, tenant := queueTenant q
    code := dw 0, handler := dw 64, param := dw 128
    nx := bits v 223 192, ny := bits v 255 224, nz := bits v 287 256
    roles := recordRoles v, scr := bits v 355 352, tileCount := bits v 360 356
    lease := if bits v 367 361 = 0 then 16 else bits v 367 361
    policy := bits v 377 376, priority := bits v 380 378
    dies := (s.ownedDies (queueTenant q)).filter fun d => bits v 375 368 / 2 ^ d % 2 == 1
    wdog := bits v 447 416
    fslots := (List.range 8).map fun k => BitVec.ofNat 32 (bits v (704 + 32 * k + 31) (704 + 32 * k))
    doneAddr := dw 576, doneInc := dw 640, doneIntr := bits v 385 385 == 1, dvec := bits v 409 400 }

def statusWord (state code : Nat) : List Byte := leBytes 4 (state + 256 * code)

/-- What the managers can read at a dispatch point. -/
inductive Point where
  | none
  | blocked
  | refuse (v code : Nat)
  | take (v : Nat)
  deriving DecidableEq, Repr

/-- An access of the queue waits for its page. -/
def Queue.waits (x : Queue) : Bool := x.parked.isSome || x.appending.isSome || x.ops.any (·.parked.isSome)

/-- The record at a queue's dispatch point: it is checked when it gets there, and taken once its wait counter has been
reached (R232, R233); that it is read and checked anew while it waits is the model's choice (log 175). While an access of the queue waits, nothing is dispatched (R345). -/
def State.point (s : State) (q : Nat) : Point :=
  let x := s.queue q
  if x.en = false ∨ x.waits ∨ s.lcDue.isSome ∨ x.tail ≤ x.disp then .none
  else match s.mgrRead q (s.slotVa q x.disp) 192 with
    | none => .blocked
    | some v =>
      let code := s.refusal q v
      if code ≠ 0 then .refuse v code
      else
        let wait := bits v 511 448
        if wait = 0 then .take v
        else match s.mgrRead q wait 8 with
          | none => .blocked
          | some w => if bits v 575 512 ≤ w then .take v else .none

/-- What the managers read at a dispatch point: the slot, and the wait counter. -/
def State.pointPlaces (s : State) (q : Nat) : List Loc :=
  let slot := s.slotVa q (s.queue q).disp
  s.mgrPlaces q slot 192 { read := true } ++
  (match s.mgrRead q slot 192 with
   | some v => if bits v 511 448 = 0 then [] else s.mgrPlaces q (bits v 511 448) 8 { read := true }
   | none => [])

/-- DISP advances, and the record is refused, or becomes RUNNING with its grid (R232, R233). -/
def State.takeRecord (s : State) (q : Nat) : State :=
  let x := s.queue q
  let n := x.disp
  let disp : MgrOp := ⟨n, .store (x.base + dispOffset) (leBytes 8 (n + 1)), none⟩
  let status (state code : Nat) : MgrOp := ⟨n, .store (s.slotVa q n + statusOffset) (statusWord state code), none⟩
  let s1 := s.setQueue q { x with disp := n + 1 }
  match s.point q with
  | .refuse _ code => s1.pushOps q [disp, status 3 code, ⟨n, .retire, none⟩]
  | .take v =>
    let g := s.readGrid q n v
    ({ s1.pushOps q [disp, status 1 0] with
      grids := Tab.put s.grids s.nextId { g with waitingSince := none }, nextId := s.nextId + 1 } : State)
  | _ => s

/-- The managers read the dispatch point again and act on its record; a channel that sleeps is waited for. -/
def State.dispatch (s : State) (q : Nat) : State := s.awake (s.pointPlaces q) fun s => s.takeRecord q

def State.pointActs (s : State) (q : Nat) : Bool :=
  match s.point q with
  | .refuse _ _ => true
  | .take _ => true
  | _ => false

/-! ### The managers' writes, in each record's order -/

/-- The address a store writes. -/
def MgrAct.target : MgrAct → Option Nat
  | .store va _ => some va
  | _ => none

/-- An act comes after an earlier one of its record, and a store after an earlier one to its address: HEAD and DISP
never go back. -/
def MgrOp.follows (x y : MgrOp) : Bool := x.record == y.record || (x.act.target.isSome && x.act.target == y.act.target)

/-- The first act whose turn has come and that does not wait. -/
def Queue.nextOp (x : Queue) : Option (Nat × MgrOp) :=
  ((List.range x.ops.length).zip x.ops).find? fun e =>
    e.2.parked.isNone && !((x.ops.take e.1).any fun o => e.2.follows o)

def Queue.dropOp (x : Queue) (k : Nat) : Queue := { x with ops := x.ops.eraseIdx k }

/-- A manager's page fault: a record of kind 6, and the access waits; with the fault queue off it fails (R299, R345). -/
def State.mgrFault (s : State) (q va cause : Nat) (write : Bool) (wait fail : State → State) : State :=
  let t := queueTenant q
  let p : FaultPost := ⟨t, va / 4096, write, 6, cause, BitVec.ofNat 64 va, 0, 0, 0, BitVec.ofNat 64 q⟩
  let s1 := if (s.tenant t).fqEn then s.postPageFault p else s
  if (s1.tenant t).fqEn then wait s1 else fail s1

/-- A manager's write: performed, waiting, or lost. -/
def State.mgrStore (s : State) (q k va len : Nat) (x : Need) (data : List Piece → List Byte) : State :=
  let gone (s : State) : State := s.setQueue q ((s.queue q).dropOp k)
  match s.mgrAccess q va len x with
  | .ok ps => if s.piecesHeld ps then s else gone ((s.mgrTouch q va len x).mgrWrite ps va (data ps))
  | .sleeps ls => s.want ls
  | .waits v cause =>
    s.mgrFault q v cause true
      (fun s => s.setQueue q { s.queue q with ops := (s.queue q).ops.mapIdx fun j o =>
        if j = k then { o with parked := some v } else o })
      fun s => (gone s).stopQueue q v
  | .fails v => (gone s).stopQueue q v

def State.mgrOp (s : State) (q k : Nat) (o : MgrOp) : State :=
  match o.act with
  | .store va data => s.mgrStore q k va data.length { write := true } fun _ => data
  | .addDone va inc =>
    s.mgrStore q k va 8 { read := true, write := true } fun ps => leBytes 8 ((leValue (s.mgrBytes ps) + inc) % 2 ^ 64)
  | .interrupt v => (s.setQueue q ((s.queue q).dropOp k)).sendVector (queueTenant q) v []
  | .retire =>
    let x := (s.queue q).dropOp k
    ({ s with grids := s.grids.map fun g =>
        (g.1, if g.2.queue = q ∧ g.2.record = o.record then { g.2 with retired := true } else g.2) } : State).setQueue q
      ({ x with retired := insertNat x.retired o.record }.moveHead o.record)

/-- A read that the managers need and that fails: of TAIL, of the slot, or of the wait counter. It may happen at any time,
without a write to the line: the model's choice (log 174). -/
def State.mgrBlocked (s : State) (q : Nat) : Option MgrAccess :=
  let x := s.queue q
  let try_ (va len : Nat) : Option MgrAccess :=
    match s.mgrPieces q va len { read := true } with
    | .ok _ => none
    | r => some r
  if x.en = false ∨ x.parked.isSome then none
  else match try_ (x.base + tailOffset) 8 with
    | some r => some r
    | none =>
      if s.point q = .blocked then
        match try_ (s.slotVa q x.disp) 192 with
        | some r => some r
        | none =>
          match s.mgrRead q (s.slotVa q x.disp) 192 with
          | some v => try_ (bits v 511 448) 8
          | none => none
      else none

/-- A read that fails: it waits for its page, or stops the queue. -/
def State.failRead (s : State) (q : Nat) (r : MgrAccess) : State :=
  match r with
  | .waits v cause =>
    s.mgrFault q v cause false (fun s => s.setQueue q { s.queue q with parked := some v }) fun s => s.stopQueue q v
  | .fails v => s.stopQueue q v
  | _ => s

/-- A record has come to the dispatch point and the managers have yet to read it. -/
def State.lookDue (s : State) (q : Nat) : Bool :=
  let x := s.queue q
  x.en && !x.waits && decide (x.disp < x.tail) && x.looked != some x.disp

/-- QUEUE_MANAGER_ACCESS: the next write, the QCB of a queue that opens, a read that fails (R345), or the first read of
a record at the dispatch point. -/
def State.mgrStep (s : State) (q : Nat) : State :=
  match (s.queue q).nextOp with
  | some (k, o) => s.mgrOp q k o
  | none =>
    if (s.queue q).opening then s.openQueue q
    else match s.mgrBlocked q with
      | some r => s.awake (s.tailPlaces q ++ s.pointPlaces q) fun s => s.failRead q r
      | none =>
        if s.lookDue q then
          s.awake (s.pointPlaces q) fun s => s.setQueue q { s.queue q with looked := some (s.queue q).disp }
        else s

def State.mgrActs (s : State) (q : Nat) : Bool :=
  (s.queue q).nextOp.isSome || (s.queue q).opening || (s.mgrBlocked q).isSome || s.lookDue q

/-! ### Choosing and placing (R233 to R235) -/

/-- The next team of a grid: a saved one, oldest save first, else the next not yet placed. -/
inductive NextTeam where
  | saved (t : Nat)
  | fresh (index : Nat)
  deriving DecidableEq, Repr

def State.nextTeamOf (s : State) (gid : Nat) : Option NextTeam :=
  let g := s.grid gid
  match leastBy (fun t => (s.team t).savedAt) ((s.teams.filter fun t => t.2.grid == gid && t.2.saved).map (·.1)) with
  | some t => some (.saved t)
  | none => if g.stopped.isNone && decide (g.placed < g.size) then some (.fresh g.placed) else none

def State.nextIndex (s : State) : NextTeam → Nat
  | .saved t => (s.team t).index
  | .fresh k => k

/-- Groups a team needs room for: quadrant and budget. -/
def State.nextGroups (s : State) (gid : Nat) : NextTeam → List (Nat × Nat)
  | .saved t => ((s.team t).groups.filter fun g => decide (g.1 < 16) && g.2.live).map fun g => (g.2.quad, g.2.budget)
  | .fresh _ => (shapeGroups (s.grid gid).roles).map (·.2)

/-- Bytes of a save area for a shape, each section on a 4,096-byte boundary (R306). -/
def saveBytes (g : Grid) : Nat :=
  let up (n : Nat) : Nat := (n + 4095) / 4096 * 4096
  let groups := (g.roles.map (·.1)).sum
  4096 + 4096 + up (64 * 256 + 4096) + up (8192 * groups) + up (32 * 32 * 64 * groups) +
  up ((g.roles.map fun r => r.1 * 64 * (r.2 * 33 / 8)).sum) + up (5120 * g.tileCount) + g.scr * 131072

/-- The save pool of a die, as package places (R292). -/
def State.savePool (s : State) (die : Nat) : Nat × Nat :=
  let lo := die * Config.dieBytes + s.carveOut die
  (lo, lo + 0x40000000)

/-- The core may take a team of the grid now, room apart (R234, R308, R343). One with a self-test due takes none: the
model's choice (log 161). -/
def State.coreOpen (s : State) (g : Grid) (core : Nat) : Bool :=
  let k := s.core core
  let c := s.cluster (coreCluster core)
  g.dies.contains (coreDie core) && c.owned && c.tenant == g.tenant && !c.busy && !k.disabled &&
  k.ctl.pstat == 0 && !k.ctl.pgate && !k.ctl.halt && !k.admitHold

/-- The grid's next team fits the core once the teams of `skip` are gone from it. -/
def State.fitsOn (s : State) (gid : Nat) (n : NextTeam) (core : Nat) (skip : List Nat) : Bool :=
  let g := s.grid gid
  s.coreOpen g core &&
  fitsLoad (s.coreLoad core skip ++ s.nextGroups gid n) (s.coreTiles core skip + g.tileCount)
    (s.coreScratch core skip + g.scr * 131072) &&
  (match n with
   | .saved t => decide (s.entriesNeeded t core ≤ s.freeEntries core)
   | .fresh _ => (firstFit s.saveAreas (s.savePool (coreDie core)) (saveBytes g)).isSome)

/-- The dies a grid's team may go to under its policy. -/
def State.teamDies (s : State) (gid : Nat) (n : NextTeam) : List Nat :=
  let g := s.grid gid
  if g.policy = 2 then [g.dies.getD (s.nextIndex n % g.dies.length) 0] else g.dies

def dieCores (d : Nat) : List Nat := (List.range 96).map (96 * d + ·)

def State.fittingOn (s : State) (gid : Nat) (n : NextTeam) (die : Nat) : List Nat :=
  (dieCores die).filter fun c => s.fitsOn gid n c []

def State.fewest (s : State) (cores : List Nat) : Option Nat := leastBy (fun c => (s.residents c).length) cores

/-- The core that POLICY chooses (R234); ties go to the lowest core number. -/
def State.pickCore (s : State) (gid : Nat) (n : NextTeam) : Option Nat :=
  let g := s.grid gid
  if g.policy = 1 then
    leastBy (fun c => 64 - (s.residents c).length) (g.dies.flatMap fun d => s.fittingOn gid n d)
  else if g.policy = 2 then (s.teamDies gid n).findSome? fun d => s.fewest (s.fittingOn gid n d)
  else
    let order := match g.lastDie with
      | some l => g.dies.filter (fun d => decide (l < d)) ++ g.dies.filter fun d => decide (d ≤ l)
      | none => g.dies
    order.findSome? fun d => s.fewest (s.fittingOn gid n d)

/-- The offer of R233: highest priority, then round-robin by queue, then the earliest grid: grid, team and core. At a
priority that no queue has been served at, the round begins with queue 0: the model's choice (log 159). -/
def State.offer (s : State) : Option (Nat × NextTeam × Nat) :=
  let cands := s.grids.filterMap fun g =>
    match s.nextTeamOf g.1 with
    | none => none
    | some n => (s.pickCore g.1 n).map fun c => (g.1, n, c)
  leastBy (fun e =>
    let g := s.grid e.1
    let turn := match Tab.find s.served g.priority with
      | some q => (g.queue + 63 - q) % 64
      | none => g.queue
    ((7 - g.priority) * 64 + turn) * 2 ^ 40 + e.1) cands

def leastFree (used : List Nat) : Nat := ((List.range (used.length + 1)).find? fun k => !used.contains k).getD 0

/-- Resident places for a team's groups (R239): from the last group to the first, each takes the lowest free place of
its quadrant, the model's choice (log 160). -/
def State.placeGroups (s : State) (core : Nat) : Tab Group → Tab Group
  | [] => []
  | (n, g) :: rest =>
    let rest' := s.placeGroups core rest
    let used := ((s.residents core).flatMap fun t => ((s.team t).groups.filter fun x =>
      decide (x.1 < 16) && x.2.live && x.2.quad == g.quad).map fun x => x.2.place) ++
      (rest'.filter fun x => x.2.quad == g.quad).map fun x => x.2.place
    (n, { g with place := leastFree used }) :: rest'

/-- A thread at grid start (R8). -/
def Grid.thread (g : Grid) (tick : Nat) : Thread :=
  { pc := g.code, regs := [(0, g.param.extractLsb' 0 32), (1, g.param.extractLsb' 32 32)], readyAt := tick }

def State.freshGroups (s : State) (g : Grid) : Tab Group :=
  (shapeGroups g.roles).mapIdx fun k x =>
    (k, { role := x.1, budget := x.2.2, quad := x.2.1, since := s.tick
          threads := (List.range 64).map fun l => (l, g.thread s.tick) })

/-- The place of a team on its core: the lowest free one, the model's choice (log 160). -/
def State.nextRank (s : State) (core : Nat) : Nat := leastFree ((s.residents core).map fun t => (s.team t).rank)

/-- A core that a team starts or resumes on acquires and empties its fetch cache (R235, R170, R347). -/
def State.settleCore (s : State) (core : Nat) : State := s.linvCore core

def State.placeFresh (s : State) (gid index core : Nat) : State :=
  let g := s.grid gid
  let t := s.nextTeam
  let bytes := saveBytes g
  let area := (firstFit s.saveAreas (s.savePool (coreDie core)) bytes).getD 0
  let team : Team :=
    { grid := gid, index := index, tenant := g.tenant, core := core, placedAt := s.now, rank := s.nextRank core
      area := area, areaSize := bytes, groups := s.placeGroups core (s.freshGroups g)
      scratchSize := g.scr * 131072, tileCount := g.tileCount, lease := g.lease }
  ((({ s with
      teams := Tab.put s.teams t team, nextTeam := t + 1
      saveAreas := s.saveAreas ++ [(area, bytes)] } : State).setLocator gid index (.running core)).modGrid gid fun g =>
    { g with placed := g.placed + 1 }).settleCore core

/-- A restored thread: ready again where it stood, with its waits counted anew on its core (R242). -/
def Thread.restored (tick cycles : Nat) (x : Thread) : Thread := { x with readyAt := tick, blockedAt := cycles }

def State.placeSaved (s : State) (t core : Nat) : State :=
  let s1 := s.restoreEntries t core
  let rank := s1.nextRank core
  let groups := s1.placeGroups core ((s1.team t).groups.map fun g =>
    (g.1, { g.2 with since := s.tick, active := false, threads := g.2.threads.map fun x =>
      (x.1, x.2.restored s.tick (s.cyclesOf core)) }))
  ((s1.modTeam t fun x => { x with
    core := core, saved := false, placedAt := s.now, rank := rank, groups := groups }).setLocator (s1.team t).grid
      (s1.team t).index (.running core)).settleCore core |>.nameCore t |>.freeForwarding

/-- One offer places one team. -/
def State.place (s : State) (gid : Nat) (n : NextTeam) (core : Nat) : State :=
  let g := s.grid gid
  let s1 := match n with
    | .saved t => s.placeSaved t core
    | .fresh k => s.placeFresh gid k core
  { s1.modGrid gid (fun g => { g with lastDie := some (coreDie core), waitingSince := none }) with
    served := Tab.put s1.served g.priority g.queue }

/-! ### Ends and stops (R235, R236, R272, R298) -/

/-- An ordered contribution that its anchor slice holds for its turn (R117). One that waits for a record at a slice
whose records are all in use is not held: its team's end and save wait for it, the model's choice (log 158). -/
def State.heldAtAnchor (s : State) (m : Merge) : Bool :=
  !m.applying && s.records.any fun r => r.held.any fun e => e.2 == m.id

/-- Nothing that the team's threads issued is under way, but for ordered contributions held at an anchor slice (R119).
-/
def State.teamQuiet (s : State) (t : Nat) : Bool :=
  (s.team t).engine.isEmpty && !(s.reqs.any fun r => r.th.team == t) && !(s.commands.any fun c => c.th.team == t) &&
  !(s.merges.any fun m => m.th.team == t && !s.heldAtAnchor m)

def State.teamOver (s : State) (t : Nat) : Bool :=
  let x := s.team t
  (Tab.find s.teams t).isSome && !x.saved && !x.saving && (x.stopping.isNone || x.reported) &&
  !(x.groups.any fun g => decide (g.1 < 16) && g.2.live) && s.teamQuiet t &&
  !(s.copies.any fun c => c.th.team == t || c.team == t) && !(x.tickets.any fun q => q.2.state == .pending) &&
  !s.tilesBusy t && !(s.moves.any fun m => m.th.team == t || m.team == t)

/-- The places of a team's save area. -/
def State.areaPlaces (s : State) (t : Nat) : List Loc :=
  match s.saveAreas.find? fun a => a.1 == (s.team t).area with
  | some a => runPlaces a.1 a.2
  | none => []

/-- A save area is zeroed and returned to its pool; what it held stands in the model's team, so nothing is left. -/
def State.freeArea (s : State) (t : Nat) : State :=
  { s.zeroing (s.areaPlaces t) with saveAreas := s.saveAreas.filter (·.1 != (s.team t).area) }

/-- The grid has ended: STATUS, then the done counter and vector when DONE, then HEAD (R235, R236). -/
def State.finishGrid (s : State) (gid : Nat) : State :=
  let g := s.grid gid
  let done := g.stopped.isNone
  let op (a : MgrAct) : MgrOp := ⟨g.record, a, none⟩
  s.pushOps g.queue ([op (.store (g.recordVa + statusOffset) (statusWord (if done then 2 else 4) 0))] ++
    (if done ∧ g.doneAddr ≠ 0 then [op (.addDone g.doneAddr.toNat g.doneInc.toNat)] else []) ++
    (if done ∧ g.doneIntr then [op (.interrupt g.dvec)] else []) ++ [op .retire])

/-- One of the grid's teams has ended. -/
def State.countEnd (s : State) (gid : Nat) : State :=
  let s1 := s.modGrid gid fun g => { g with ended := g.ended + 1 }
  let g := s1.grid gid
  if g.ended = g.placed ∧ (g.placed = g.size ∨ g.stopped.isSome) then s1.finishGrid gid else s1

/-- The team ends: its entries are GONE, its locator entry ENDED, and its resources free. -/
def State.endTeam (s : State) (t : Nat) : State :=
  let x := s.team t
  let s1 := ((s.endEntries t).freeArea t).setLocator x.grid x.index .ended
  ((({ s1 with teams := Tab.drop s1.teams t } : State).fitL1 x.core).freeForwarding).countEnd x.grid

/-- A stop report of the team comes first at the manager: its grid has none yet, or one that came in this cycle of a
team with a higher index (R236). -/
def State.firstReport (s : State) (t : Nat) : Bool :=
  let g := s.grid (s.team t).grid
  match g.stopped with
  | none => true
  | some (index, _) => g.stoppedAt == s.now && decide ((s.team t).index < index)

/-- The stop report reaches the manager: the first one is recorded (R236). -/
def State.takeReport (s : State) (t : Nat) (code : Word) : State :=
  let x := s.team t
  let g := s.grid x.grid
  let s1 := s.modTeam t fun t => { t with reported := true }
  if s.firstReport t then
    let q := s1.queue g.queue
    let va := g.recordVa + stopOffset
    ((s1.modGrid x.grid fun g => { g with stopped := some (x.index, code), stoppedAt := s.now }).setQueue g.queue
      { q with ops := q.ops.filter fun o => o.act.target != some va }).pushOps g.queue
      [⟨g.record, .store va (leBytes 4 x.index ++ leBytes 4 code.toNat), none⟩]
  else s1

/-! ### Preemption (R241, R242, R272, R306, R307) -/

/-- The team is to be saved: its LIVE entries are MOVING from now on (Table 17.6). -/
def State.preempt (s : State) (t : Nat) : State :=
  let x := s.team t
  if (Tab.find s.teams t).isSome ∧ x.saving = false ∧ x.saved = false then
    ((s.modTeam t fun x => { x with saving := true }).moveEntries t).setLocator x.grid x.index .saving
  else s

/-- Teams of a core that are being saved. -/
def State.leaving (s : State) (core : Nat) : List Nat := (s.residents core).filter fun t => (s.team t).saving

/-- The teams to remove from a core, fewest first in the order given, so that the grid's next team fits. -/
def State.removals (s : State) (gid : Nat) (n : NextTeam) (core : Nat) (order : List Nat) : Option (List Nat) :=
  (List.range (order.length + 1)).findSome? fun k =>
    if s.fitsOn gid n core (s.leaving core ++ order.take k) then some (order.take k) else none

/-- Lower-priority teams of a core: lowest priority first, then the most recently placed. -/
def State.victimOrder (s : State) (core priority : Nat) : List Nat :=
  let cands := (s.residents core).filter fun t =>
    decide ((s.gridOf t).priority < priority) && !(s.team t).saving
  cands.foldr (insertBy fun t => (s.gridOf t).priority * 2 ^ 64 + (2 ^ 64 - 1 - (s.team t).placedAt)) []

def State.allowedCores (s : State) (gid : Nat) (n : NextTeam) : List Nat := (s.teamDies gid n).flatMap dieCores

/-- The victims of a priority preemption: of the allowed core that loses the fewest teams (R241). -/
def State.victims (s : State) (gid : Nat) : Option (List Nat) :=
  match s.nextTeamOf gid with
  | none => none
  | some n =>
    let plans := (s.allowedCores gid n).filterMap fun c =>
      s.removals gid n c (s.victimOrder c (s.grid gid).priority)
    match leastBy List.length plans with
    | some [] => none
    | r => r

/-- The grid's next team fits no allowed core. -/
def State.unplaced (s : State) (gid : Nat) : Bool :=
  match s.nextTeamOf gid with
  | some n => (s.pickCore gid n).isNone
  | none => false

def State.graceOver (s : State) (gid : Nat) : Bool :=
  match (s.grid gid).waitingSince with
  | some t => decide (Config.graceCycles ≤ s.now - t) && s.unplaced gid && (s.victims gid).isSome
  | none => false

def State.preemptAll (s : State) (ts : List Nat) : State := ts.foldl (fun s t => s.preempt t) s

/-- The team's time slice has run (R241). -/
def State.sliceRun (s : State) (t : Nat) : Bool :=
  let x := s.team t
  let slice := (s.tenant x.tenant).slice
  (Tab.find s.teams t).isSome && decide (slice ≠ 0) && !x.saved && !x.saving && x.stopping.isNone &&
  !(s.core x.core).ctl.halt && decide (slice * 1000 ≤ s.now - x.placedAt)

/-- The team whose removal makes room for a grid's next team: of those whose slice has run, on the lowest core, the one
of lowest priority, then the one placed last. None while the team fits, or will once the teams being saved have gone. -/
def State.sliceVictim (s : State) (gid : Nat) : Option Nat :=
  match s.nextTeamOf gid with
  | none => none
  | some n =>
    if (s.allowedCores gid n).any fun c => s.fitsOn gid n c (s.leaving c) then none
    else
      let cands := (s.teams.map (·.1)).filter fun t =>
        let x := s.team t
        x.tenant == (s.grid gid).tenant && decide ((s.gridOf t).priority ≤ (s.grid gid).priority) && s.sliceRun t &&
        (s.allowedCores gid n).contains x.core && s.fitsOn gid n x.core (t :: s.leaving x.core)
      leastBy (fun t => ((s.team t).core * 8 + (s.gridOf t).priority) * 2 ^ 64 + (2 ^ 64 - 1 - (s.team t).placedAt)) cands

def State.sliceOver (s : State) (t : Nat) : Bool := s.grids.any fun g => s.sliceVictim g.1 == some t

/-- A SIGNAL that waits at a SAVING or RESTORING entry does not hold the save (R242). -/
def State.signalYields (s : State) (x : Signal) : Bool :=
  s.locator x.grid x.index == some .saving || s.locator x.grid x.index == some .restoring

def Wait.isPageFault : Wait → Bool
  | .pageFault _ _ _ _ => true
  | _ => false

/-- A thread is ready to be saved: its results are written and it waits at issue for nothing but such a SIGNAL, or it is
parked on a page fault, and its access replays after the restore (R300). -/
def State.threadSaves (s : State) (th : ThreadRef) : Bool :=
  let x := s.thread th
  let mine := s.signals.filter fun g => g.th == th
  x.outs.isEmpty && mine.all s.signalYields && (x.waitOp.isNone || x.wait.isPageFault || !mine.isEmpty)

/-- A ply that has begun to enter the engine queue ends before the save, unless a page fault holds it (R134, R300). -/
def State.plySaves (s : State) (o : OpenPly) : Bool :=
  o.entered.isEmpty || (match s.headOf o with | some th => (s.thread th).wait.isPageFault | none => true)

/-- A preempted team may be saved: its waits are over and its groups' releases on every path have been performed, the
reads and writes of its copies included (R170, R242, R306). -/
def State.saveReady (s : State) (t : Nat) : Bool :=
  let x := s.team t
  x.saving && !x.saved && s.teamQuiet t && (x.refs t).all s.threadSaves && x.plies.all s.plySaves && !s.tilesBusy t &&
  !(s.moves.any fun m => m.th.team == t) && !(s.copies.any fun c => c.team == t && !c.complete && !(c.inward && c.move.isSome)) &&
  decide ((s.forwarding.filter fun f => f.core == x.core).length < Config.forwardEntries)

/-- A thread in the saved context: a Stalled thread is Ready at the instruction it waits to issue (R306). One whose
SIGNAL waits (`again`) issues it anew; one that a page fault parks while its instruction waits goes on with that wait,
which may be over by then (R260, R300). -/
def Thread.saved (x : Thread) (again : Bool) : Thread :=
  let y := if again then { x with waitOp := none, after := [] } else x
  if y.status = .stalled then { y with status := .ready } else y

/-- The team is saved: its context leaves the core, its LIVE entries are MOVING, and the core keeps a forwarding
entry (R242, R272, R307). -/
def State.saveTeam (s : State) (t : Nat) : State :=
  let x := s.team t
  let s1 := s.saveEntries t
  let s2 := s1.modTeam t fun x => { x with
    saving := false, saved := true, savedAt := s.tick, saveCount := x.saveCount + 1, savedFrom := x.core
    plies := x.plies.filter fun o => !o.entered.isEmpty
    groups := x.groups.map fun g => (g.1, { g.2 with
      active := false
      threads := g.2.threads.map fun y => (y.1, y.2.saved (s.signals.any fun z => z.th == ⟨t, g.1, y.1⟩)) }) }
  ((({ s2 with
    signals := s2.signals.filter fun g => g.th.team != t
    fetches := s2.fetches.filter fun f => f.th.team != t
    forwarding := s2.forwarding ++ [{ core := x.core, team := t }] } : State).fitL1 x.core)).setLocator x.grid x.index .saved

/-! ### LAUNCH and INTR (R237, R238) -/

def launchBadQueue : Word := 0x80000001
def launchOff : Word := 0x80000002
def launchHost : Word := 0x80000003
def launchFull : Word := 0x80000004

/-- The record's bytes as appended: STATUS, STOPTEAM and STOPCODE zero. -/
def cleanRecord (bs : List Byte) : List Byte :=
  setRange (setRange bs statusOffset (List.replicate 4 0)) stopOffset (List.replicate 8 0)

/-- The manager's append, in one step: the state after it and D; none while one of its accesses waits. An access that
fails stops the queue, which is then off (R237, R345). -/
def State.append (s : State) (q : Nat) (bs : List Byte) : State × Option Word :=
  let x := s.queue q
  let both : Need := { read := true, write := true }
  let bad (r : MgrAccess) : State × Option Word :=
    match r with
    | .waits v cause =>
      let s1 := s.mgrFault q v cause true (fun s => s.setQueue q { s.queue q with appending := some v }) fun s =>
        s.stopQueue q v
      (s1, if (s1.queue q).en then none else some launchOff)
    | .fails v => (s.stopQueue q v, some launchOff)
    | .sleeps ls => (s.want ls, none)
    | .ok _ => (s, some launchOff)
  match s.mgrAccess q (x.base + tailOffset) 8 both with
  | .ok tp =>
    let tail := leValue (s.mgrBytes tp)
    if 2 ^ x.logsz ≤ tail - x.head then (s, some launchFull)
    else match s.mgrAccess q (s.slotVa q tail) 192 { write := true } with
      | .ok sp =>
        if s.piecesHeld sp || s.piecesHeld tp then (s, none)
        else
          ((((s.mgrTouch q (x.base + tailOffset) 8 both).mgrTouch q (s.slotVa q tail) 192 { write := true }).mgrWrite sp
            (s.slotVa q tail) (cleanRecord bs)).mgrWrite tp (x.base + tailOffset)
            (leBytes 8 ((tail + 1) % 2 ^ 64)), some (BitVec.ofNat 32 (tail % 2 ^ 31)))
      | r => bad r
  | r => bad r

def State.launchInto (s : State) (tenant : Nat) (q : Word) (bs : List Byte) : State × Option Word :=
  if 63 < q.toNat ∨ queueTenant q.toNat ≠ tenant then (s, some launchBadQueue)
  else if (s.queue q.toNat).en = false then (s, some launchOff)
  else if (s.queue q.toNat).prod = false then (s, some launchHost)
  else if (s.queue q.toNat).appending.isSome then (s, none)
  else s.append q.toNat bs

/-- LAUNCH: a release at device scope first, then the record is read, as a read of path P that the thread's acquires hold
back (R151), then it is appended. Poison of the record's
lines is ignored: the model's choice (log 162). -/
def launchOp (d : Nat) (va : DWord) (q : Word) (th : ThreadRef) (s : State) : Effect :=
  let t := s.thread th
  if t.waitOp.isNone then
    .stall ((s.modThread th fun t => { t with after := s.releaseWaits th 3, waitOp := some s.nextId }).bump)
  else if !s.allDone t.after || s.heldAtIssue th .p false then .stall s
  else if 2 ^ 57 ≤ va.toNat then .trap s codePermission va 0
  else if va.toNat % 64 ≠ 0 then .trap s codePermission va 1
  else
    withPages th va.toNat 192 { read := true } s preciseBad fun segs s =>
      let places := (pieceLines segs).map (·.2.1)
      if places.any fun l => s.lineBusy (s.coreOf th) l.line then .stall s
      else if places.any s.asleep then .stall (s.want places)
      else
        let r := (places.foldl State.touch s).launchInto (s.tenantOf th) q (s.readPieces segs)
        match r.2 with
        | some w => .go (r.1.setReg th d w)
        | none => .stall r.1

def intrOp (k : Nat) (th : ThreadRef) (s : State) : Effect :=
  let tenant := s.tenantOf th
  if (s.tenant tenant).tintrCount ≤ k then .trap s codeIllegalOperand 0 (BitVec.ofNat 64 k)
  else .go (s.sendVector tenant k (s.fenceReleaseIds th 15 4))

def isQueue (q : Nat) : Bool := decide (q < 64)

/-! ### Meanings -/

/-- LAUNCH (R237). Appends the record to a queue; D ← its number or a refusal. -/
def execLaunch (sw : Bool) (d : BitVec 7) (a : BitVec 7) (b : BitVec 7) (s : State) : Host.Outcome State Fault Refusal :=
  runPly (.launch sw d a b) (fun th s =>
    let u := s.thread th
    launchOp d.toNat (u.pair a.toNat) (u.reg b.toNat) th s) s

/-- INTR (R238). Sends the tenant's vector k after a release at system scope. -/
def execIntr (sw : Bool) (k : BitVec 10) (s : State) : Host.Outcome State Fault Refusal :=
  runPly (.intr sw k) (intrOp k.toNat) s

/-- QCTL_WRITE (R229). Enables a queue after checking its QCB, or stops dispatch from it. -/
def execQctlWrite (q : Nat) (v : DWord) (s : State) : Host.Outcome State Fault Refusal :=
  hostWrite (isQueue q) (fun s => s.writeQctl q v) s

/-- QUEUE_WATCH_WAKE (R229). A write to the line of TAIL makes the manager read it again. -/
def execQueueWatchWake (q : Nat) (s : State) : Host.Outcome State Fault Refusal :=
  if isQueue q then
    match s.newTail q with
    | some t => .next (s.awake (s.tailPlaces q) fun s => s.takeTail q t)
    | none => .next s
  else .fault .noSuchUnit

/-- RECORD_DISPATCH (R233). The record at the dispatch point is refused, or becomes a placing grid. -/
def execRecordDispatch (q : Nat) (s : State) : Host.Outcome State Fault Refusal :=
  if isQueue q then (if s.pointActs q then .next (s.dispatch q) else .next s) else .fault .noSuchUnit

/-- What a placement reads: the save area of a team that is restored. -/
def State.placeReads (s : State) (n : NextTeam) : List Loc :=
  match n with
  | .saved t => s.areaPlaces t
  | .fresh _ => []

/-- TEAM_PLACE (R234). One offer: one team is placed on the core that its policy chooses, once the channels of its save
area are awake. -/
def execTeamPlace (s : State) : Host.Outcome State Fault Refusal :=
  match s.offer with
  | some (g, n, core) => .next (s.awake (s.placeReads n) fun s => s.place g n core)
  | none => .next s

/-- TEAM_END (R235). A team whose groups have all ended and whose operations are over ends. -/
def execTeamEnd (team : Nat) (s : State) : Host.Outcome State Fault Refusal :=
  if s.teamOver team then .next (s.endTeam team) else .next s

/-- STOP_REPORT (R236). A stopped team's report reaches the queue manager. -/
def execStopReport (team : Nat) (s : State) : Host.Outcome State Fault Refusal :=
  match (s.team team).stopping with
  | some code => if (s.team team).reported then .next s else .next (s.takeReport team code)
  | none => .next s

/-- QUEUE_MANAGER_ACCESS (R345). A manager's next write is performed, waits or fails; or a read that fails does. -/
def execQueueManagerAccess (q : Nat) (s : State) : Host.Outcome State Fault Refusal :=
  if isQueue q then (if s.mgrActs q then .next (s.mgrStep q) else .next s) else .fault .noSuchUnit

/-- PRIORITY_GRACE_EXPIRED (R241). The grace period has run: lower-priority teams are preempted. -/
def execPriorityGraceExpired (grid : Nat) (s : State) : Host.Outcome State Fault Refusal :=
  if s.graceOver grid then
    match s.victims grid with
    | some ts => .next (s.preemptAll ts)
    | none => .next s
  else .next s

/-- TIME_SLICE_EXPIRED (R241). A team whose time slice has run is preempted for a team that waits for its core. -/
def execTimeSliceExpired (team : Nat) (s : State) : Host.Outcome State Fault Refusal :=
  if s.sliceOver team then .next (s.preempt team) else .next s

/-- TEAM_SAVE (R242). A preempted team whose waits are over is saved, once the channels of its save area are awake. -/
def execTeamSave (team : Nat) (s : State) : Host.Outcome State Fault Refusal :=
  if s.saveReady team then .next (s.awake (s.areaPlaces team) fun s => s.saveTeam team) else .next s

end Sys2Proof.Machine
end

