-- ==== Sys2Proof/Machine/Tenancy.lean ====
section
/-! DEFINITION. What the host's driver does to tenants through the package management block: address spaces (R282),
cluster owners (R283, R284), clears (R285), invalidations (R290), fault queues (R299 to R301) and vectors (R333). -/
namespace Sys2Proof.Machine
open Sys2Proof

def isTenant (t : Nat) : Bool := decide (t < 16)
def isCluster (k : Nat) : Bool := decide (k < 96)
def isCore (c : Nat) : Bool := decide (c < 768)
def isLink (l : Nat) : Bool := decide (l < 8)

def field (v : DWord) (hi lo : Nat) : Nat := bits v.toNat hi lo

/-! ### TROOT (R282) -/

/-- Another enabled tenant holds the tag. -/
def State.tagTaken (s : State) (tenant tag : Nat) : Bool :=
  s.tenants.any fun t => t.1 != tenant && t.2.en && t.2.astag == tag

/-- Walks under the tag no longer start from table entries that the old root led to (R282). -/
def State.dropWalks (s : State) (tag : Nat) : State :=
  { s with walkCaches := s.walkCaches.map fun k => (k.1, k.2.filter (·.tag != tag)) }

/-- Translations under a tag leave every TLB and walker cache. -/
def State.dropTag (s : State) (tag : Nat) : State :=
  { s with
    clusters := s.clusters.map fun k => (k.1, { k.2 with tlb := k.2.tlb.filter (·.tag != tag) })
    baseTlbs := s.baseTlbs.map fun k => (k.1, k.2.filter (·.tag != tag))
    walkCaches := s.walkCaches.map fun k => (k.1, k.2.filter (·.tag != tag)) }

/-- Nothing is left that a lookup under the tag could hit: no translation, and no line of an L1 or a fetch cache. -/
def State.forgetTag (s : State) (tag : Nat) : State :=
  let s1 := s.dropTag tag
  { s1 with cores := s1.cores.map fun k =>
      (k.1, { k.2 with l1 := k.2.l1.filter (·.tag != tag), fetch := k.2.fetch.filter (·.tag != tag) }) }

/-- The tag passes to the tenant, or away from it: entries under an old tag are never hit again (R282), so nothing
stays under the one it had or, where another tenant had it, under the one it takes; lines that its loads in flight bring
are not kept. -/
def State.moveTag (s : State) (tenant tag : Nat) : State :=
  let old := (s.tenant tenant).astag
  if tag = old then (if s.tenants.any fun t => t.1 != tenant && t.2.astag == tag then s.forgetTag tag else s)
  else
    let s1 := (s.forgetTag old).forgetTag tag
    { s1 with reqs := s1.reqs.map fun q =>
        if q.tenant = tenant then { q with parts := q.parts.map fun x => { x with keep := false } } else q }

def State.writeTroot (s : State) (tenant : Nat) (v : DWord) : State :=
  let t := s.tenant tenant
  let en := v.getLsbD 63
  let tag := field v 55 40
  let root := field v 39 21
  if en && (s.tagTaken tenant tag || t.clearBusy) then s
  else if Config.dieBytes < root * 0x200000 + 0x200000 then s
  else
    let s1 := s.moveTag tenant tag
    let s2 := if t.rdie = field v 58 56 ∧ t.root = root then s1 else s1.dropWalks tag
    s2.setTenant tenant { t with en := en, rdie := field v 58 56, astag := tag, root := root }

/-! ### Cluster owners (R283, R284) -/

/-- The ordinary teams of a core are preempted without the grace period. While the core is halted they are not (R284,
R308, R309), except for power gating, during which HALT cannot be cleared (R343, log 140). -/
def State.evict (s : State) (core : Nat) : State :=
  if (s.core core).held then s else s.preemptAll (s.residents core)

/-- Something empties the core of its ordinary teams: a change of owner, power gating or a self-test. -/
def State.emptying (s : State) (core : Nat) : Bool :=
  (s.cluster (coreCluster core)).busy || (s.core core).ctl.pstat == 1 || (s.core core).admitHold

def State.writeClusown (s : State) (k : Nat) (v : Word) : State :=
  let c := s.cluster k
  let owned := v.getLsbD 30
  let tenant := bits v.toNat 3 0
  if c.busy ∨ (c.owned = owned ∧ c.tenant = tenant) then s
  else
    let s1 := s.setCluster k { c with
      busy := true, nextOwned := owned, nextTenant := tenant, since := (clusterCores k).map s.cyclesOf }
    (clusterCores k).foldl (fun s core => s.evict core) s1

/-- Responders of a core, each as its team and group. -/
def State.respondersOn (s : State) (core : Nat) : List (Nat × Nat) :=
  s.teams.flatMap fun t => if t.2.core = core then t.2.responders.map fun r => (t.1, r.1) else []

/-- Responders still running 1,000,000 cycles of their core into a change of owner. -/
def State.overdue (s : State) (k : Nat) : List ThreadRef :=
  let c := s.cluster k
  if c.busy then
    ((clusterCores k).zip c.since).flatMap fun e =>
      if Config.responderGrace ≤ s.cyclesOf e.1 - e.2 then
        ((s.respondersOn e.1).filter fun r => ((s.team r.1).group r.2).live).map fun r => ⟨r.1, r.2, 0⟩
      else []
  else []

/-- The core's SRAM is wiped as Table 21.4 gives for a change of owner. -/
def Core.wiped (k : Core) : Core :=
  { k with
    l1 := [], fetch := [], lease := none, acquires := k.acquires + 1
    dir := k.dir.filter fun e => e.2.state == .moving || e.2.state == .forward }

def State.wipeCore (s : State) (core : Nat) : State := s.setCore core (s.core core).wiped

/-- A copy that goes on through forwarding entries: a team's own into it while it is saved, or a multicast that has only
deliveries to saved teams left (R284, R307). -/
def State.forwarded (s : State) (c : Copy) : Bool :=
  let away (i : Nat) : Bool := match s.teamAt (s.team c.team).grid i with | some t => (s.team t).saved | none => false
  if c.multicast then c.complete && (c.targets ++ c.landing).all away && !(c.targets ++ c.landing).isEmpty
  else c.inward && (s.team c.team).saved

/-- The core holds no ordinary team, no responder, and nothing of what it issued but forwarded copies and ordered
contributions held at an anchor slice (R119, R284). -/
def State.coreDrained (s : State) (core : Nat) : Bool :=
  (s.residents core).isEmpty && !s.responding core && (s.core core).spawns.isEmpty &&
  !(s.reqs.any fun r => r.core == core) && !(s.commands.any fun c => c.core == core) &&
  !(s.merges.any fun m => m.core == core && !s.heldAtAnchor m) && !(s.copies.any fun c => c.core == core && !s.forwarded c)

def State.ownerReady (s : State) (k : Nat) : Bool := (s.cluster k).busy && (clusterCores k).all s.coreDrained

def State.changeOwner (s : State) (k : Nat) : State :=
  let s1 := (clusterCores k).foldl (fun s c => s.wipeCore c) s
  let c := s1.cluster k
  s1.setCluster k { c with tlb := [], busy := false, owned := c.nextOwned, tenant := c.nextTenant, since := [] }

/-! ### Clearing a tenant (R285) -/

def tenantQueues (t : Nat) : List Nat := [4 * t, 4 * t + 1, 4 * t + 2, 4 * t + 3]

def State.clearRefused (s : State) (t : Nat) : Bool :=
  (s.tenant t).en || (s.clusters.any fun k => k.2.tenant == t && (k.2.owned || k.2.busy)) ||
  (tenantQueues t).any fun q => (s.queue q).en

def State.writeTclear (s : State) (t : Nat) (v : DWord) : State :=
  let x := s.tenant t
  if !v.getLsbD 63 ∨ x.clearBusy then s
  else if s.clearRefused t then s.setTenant t { x with clearRefused := true }
  else s.setTenant t { x with clearBusy := true, clearRefused := false }

/-- Spawns that forwards hold for an entry complete as errors with code CORE_LOST (R272). -/
def State.dropForwards (s : State) (which : Forward → Bool) : State :=
  let s1 : State := { s with forwards := s.forwards.filter fun f => !which f }
  (s.forwards.filter which).foldl (fun s f => s.complete f.solicit f.srcCore f.srcEntry none (some codeCoreLost)) s1

/-- Every directory entry of a team that `which` names becomes GONE, and the forwards held for it complete as errors. -/
def State.dropEntries (s : State) (team : Nat) (which : DirEntry → Bool) : State :=
  s.cores.foldl (fun s c => c.2.dir.foldl (fun s e =>
    if e.2.team = team ∧ which e.2 then
      (s.dropForwards fun f => f.dstCore.isNone && f.srcCore == c.1 && f.srcEntry == e.1 && f.stamp == e.2.stamp).setEntry
        c.1 e.1 {}
    else s) s) s

/-- A saved team is discarded (step 3 of R285). Its copies go with it; deliveries to it find its locator GONE. -/
def State.discardTeam (s : State) (t : Nat) : State :=
  let x := s.team t
  let s1 := (s.setLocator x.grid x.index .gone).freeArea t
  let s2 := s1.dropEntries t fun e => e.state == .moving || e.state == .forward
  { s2 with
    teams := Tab.drop s2.teams t
    copies := s2.copies.filter fun c => c.th.team != t && c.team != t
    moves := s2.moves.filter fun m => m.th.team != t && m.team != t
    forwarding := s2.forwarding.filter (·.team != t) }

/-- Strings and sequencing records of the tenant go (steps 1 and 2). -/
def State.clearStrings (s : State) (t : Nat) : State :=
  let s1 := (s.strings.filter fun x => x.tenant == t).foldl (fun s x => s.removeStr x) s
  let held := (s1.records.filter fun r => r.tenant == t).flatMap fun r => r.held.map (·.2)
  { s1 with
    records := s1.records.filter fun r => r.tenant != t
    merges := s1.merges.filter fun m => !held.contains m.id }

/-- Saved teams of the tenant go, and with them its grids: no queue of the tenant holds a record any more (step 3). -/
def State.clearTeams (s : State) (t : Nat) : State :=
  let s1 := (s.teams.filter fun x => x.2.tenant == t).foldl (fun s x => s.discardTeam x.1) s
  { s1 with grids := s1.grids.filter fun g => g.2.tenant != t }

/-- Fault records, and the registers that return to their reset values (step 4). -/
def State.clearRegisters (s : State) (t : Nat) : State :=
  let x := s.tenant t
  let s1 := (tenantQueues t).foldl (fun s q => s.setQueue q {}) s
  ({ s1 with
    faultRecords := s1.faultRecords.filter fun r => r.tenant != t
    faultPosts := s1.faultPosts.filter fun r => r.tenant != t } : State).setTenant t
    { en := x.en, rdie := x.rdie, astag := x.astag, root := x.root, invaddr := x.invaddr, clearRefused := x.clearRefused }

def State.clearTenant (s : State) (t : Nat) : State :=
  (((s.clearStrings t).clearTeams t).clearRegisters t).dropTag (s.tenant t).astag

/-! ### Invalidation (R290) -/

/-- The range an invalidation drops: first address and the address past the last. -/
def Tenant.invRange (t : Tenant) : Nat × Nat :=
  if t.invAll then (0, 2 ^ 57) else (t.invaddr * 4096, t.invaddr * 4096 + t.invCount * 4096)

def meets (r : Nat × Nat) (a n : Nat) : Bool := decide (r.1 < r.2) && overlaps r.1 (r.2 - r.1) a n

/-- Entries of the range under the tag leave the TLBs and the walkers' caches, and lines of it the L1s and fetch
caches of the clusters that the tenant owns. -/
def State.dropRange (s : State) (t tag : Nat) (r : Nat × Nat) : State :=
  let mine (k : Nat) : Bool := (s.cluster k).owned && (s.cluster k).tenant == t
  let keepTlb (e : TlbEntry) : Bool := e.tag != tag || !meets r e.base e.leaf.size
  let keepLine (l : CacheLine) : Bool := l.tag != tag || !meets r (l.vline * 64) 64
  { s with
    clusters := s.clusters.map fun k => if mine k.1 then (k.1, { k.2 with tlb := k.2.tlb.filter keepTlb }) else k
    cores := s.cores.map fun c =>
      if mine (coreCluster c.1) then (c.1, { c.2 with l1 := c.2.l1.filter keepLine, fetch := c.2.fetch.filter keepLine })
      else c
    baseTlbs := s.baseTlbs.map fun k => (k.1, k.2.filter keepTlb)
    walkCaches := s.walkCaches.map fun k =>
      (k.1, k.2.filter fun e => e.tag != tag || !meets r e.base (walkSpan e.level))
    reqs := s.reqs.map fun q =>
      if q.tenant = t then
        { q with parts := q.parts.map fun x => if meets r x.va x.len then { x with keep := false } else x }
      else q }

/-- A store that still waits in its core's memory port translates again: to new places, or it is lost when its page
now forbids it; a page that faults leaves it its old translation (R290, R303). -/
def State.retranslate (s : State) (q : Req) : Req :=
  q.parts.foldl (fun q x =>
    match s.walk (coreDie q.core) q.tenant x.va with
    | .leaf l _ _ =>
      match s.checkLeaf { write := true } l x.va with
      | some (.deny code _ _) => { q with lost := some (code, 0) }
      | some _ => q
      | none => { q with parts := q.parts.map fun y => if y.va = x.va then { y with loc := l.locate y.va } else y }
    | .fault _ => q) q

def State.deferredStore (s : State) (t : Nat) (r : Nat × Nat) (q : Req) : Bool :=
  q.tenant == t && q.kind == .store && q.path == .p && q.lost.isNone && !(q.parts.any (·.done)) &&
  q.parts.any (fun x => meets r x.va x.len) && Config.deferred s.tick q.id

def State.retranslateStores (s : State) (t : Nat) (r : Nat × Nat) : State :=
  { s with reqs := s.reqs.map fun q => if s.deferredStore t r q then s.retranslate q else q }

def piecesMeet (r : Nat × Nat) (ps : List Piece) : Bool := ps.any fun p => meets r p.1 p.2.1

/-- The accesses in flight that use a translation of the range. -/
def State.usersOf (s : State) (t : Nat) (r : Nat × Nat) : List Nat :=
  (s.reqs.filter fun q => q.tenant == t && ((q.parts.any fun x => meets r x.va x.len) ||
    q.kind.sourceLines.any fun e => meets r e.1 64)).map (·.id) ++
  (s.merges.filter fun m => m.tenant == t && piecesMeet r m.pieces).map (·.id) ++
  (s.teams.flatMap fun x => if x.2.tenant = t then (x.2.engine.filter fun e => piecesMeet r e.pieces).map (·.id) else []) ++
  (s.segments.filter fun g => (s.commands.any fun c => c.id == g.cmd && c.tenant == t) && meets r g.va g.len).map (·.id)

def State.writeInvctl (s : State) (t : Nat) (v : DWord) : State :=
  let x := s.tenant t
  if x.invBusy then s
  else
    let x1 : Tenant := { x with invBusy := v.getLsbD 63, invAll := v.getLsbD 62, invCount := field v 31 0 }
    if v.getLsbD 63 then
      let r := x1.invRange
      let s1 := (s.dropRange t x.astag r).retranslateStores t r
      s1.setTenant t { x1 with invWaits := s1.usersOf t r }
    else s.setTenant t x1

def State.invReady (s : State) (t : Nat) : Bool :=
  let x := s.tenant t
  x.invBusy && s.allDone x.invWaits && !s.segments.any fun g => x.invWaits.contains g.id

/-! ### Fault records and their resolution (R299 to R301) -/

/-- Accesses parked on a page and direction: threads, wherever their team is. -/
def Wait.onPage (w : Wait) (page : Nat) (write : Bool) : Bool :=
  match w with
  | .pageFault p d _ _ => p == page && d == write
  | _ => false

/-- The thread goes on: at its access again, or, where `cause` is given, to its failure. -/
def Thread.resolved (x : Thread) (tick page : Nat) (write : Bool) (cause : Option Nat) : Thread :=
  match x.wait with
  | .pageFault p d va own =>
    if p = page ∧ d = write then
      { x with
        status := .ready, wait := .none, readyAt := tick
        xfault := match cause with
          | some c => if own then some (va.toNat, c) else x.xfault
          | none => x.xfault }
    else x
  | _ => x

def State.resolveThreads (s : State) (tenant page : Nat) (write : Bool) (cause : Option Nat) : State :=
  { s with teams := s.teams.map fun t =>
    if t.2.tenant = tenant then
      (t.1, { t.2 with groups := t.2.groups.map fun g =>
        (g.1, { g.2 with threads := g.2.threads.map fun x => (x.1, x.2.resolved s.tick page write cause) }) })
    else t }

def parkedOn (p : Option Nat) (page : Nat) : Bool :=
  match p with
  | some va => va / 4096 == page
  | none => false

/-- A manager's write that is parked on a page and direction. -/
def MgrOp.parkedAt (o : MgrOp) (page : Nat) (write : Bool) : Bool := write && parkedOn o.parked page

/-- The queue's read and its append that wait for a page and direction go on. -/
def Queue.unpark (x : Queue) (page : Nat) (write : Bool) : Queue :=
  { x with
    parked := if !write && parkedOn x.parked page then none else x.parked
    appending := if write && parkedOn x.appending page then none else x.appending }

/-- The addresses of the queue's accesses that wait for a page and direction. -/
def Queue.parkedAt (x : Queue) (page : Nat) (write : Bool) : List Nat :=
  (if write then x.appending.toList ++ x.ops.filterMap (·.parked) else x.parked.toList).filter fun va => va / 4096 == page

/-- RETRY: every access parked on the page and direction translates again (R301). -/
def State.retryPage (s : State) (tenant page : Nat) (write : Bool) : State :=
  let s1 := s.resolveThreads tenant page write none
  { s1 with
    copies := s1.copies.map fun c =>
      if c.tenant = tenant ∧ parkedOn c.parked page ∧ (!c.inward) = write then { c with parked := none } else c
    commands := s1.commands.map fun c =>
      if c.tenant = tenant ∧ parkedOn c.parked page ∧ nmWrites c.body = write then { c with parked := none } else c
    queues := s1.queues.map fun q =>
      if queueTenant q.1 = tenant then
        (q.1, { q.2.unpark page write with
          ops := q.2.ops.map fun o => if o.parkedAt page write then { o with parked := none } else o })
      else q }

/-- The queue manager's accesses parked on the page and direction fail: their writes are dropped, and each stops the
queue and is logged (R345). -/
def State.failQueue (s : State) (q page : Nat) (write : Bool) : State :=
  let x := s.queue q
  (x.parkedAt page write).foldl (fun s va => s.stopQueue q va)
    (s.setQueue q { x with ops := x.ops.filter fun o => !o.parkedAt page write })

/-- FAIL: every access parked on the page and direction fails with PAGE_FAULT (R301). -/
def State.failPage (s : State) (tenant page : Nat) (write : Bool) (cause : Nat) : State :=
  let s1 := s.resolveThreads tenant page write (some cause)
  let s2 : State := { s1 with
    copies := s1.copies.map fun c =>
      if c.tenant = tenant ∧ parkedOn c.parked page ∧ (!c.inward) = write then
        { c with
          parked := none
          failed := some ⟨c.pc, codePageFault, BitVec.ofNat 64 (c.parked.getD 0), BitVec.ofNat 64 cause⟩ }
      else c }
  let s3 := (s2.commands.filter fun c => c.tenant == tenant && parkedOn c.parked page && nmWrites c.body == write).foldl
    (fun s c => s.failCommand c.id codePageFault (c.parked.getD 0) (BitVec.ofNat 64 cause)) s2
  (tenantQueues tenant).foldl (fun s q => s.failQueue q page write) s3

/-- A record of kind 0, 1, 2 or 6 has accesses parked on it. -/
def kindParks (kind : Nat) : Bool := kind == 0 || kind == 1 || kind == 2 || kind == 6

def State.failPost (s : State) (p : FaultPost) : State :=
  if kindParks p.kind then s.failPage p.tenant p.page p.write p.cause else s

/-- Records that waited for room are posted; with the queue off, the faults behind them fail (R299, R301). -/
def State.drainPosts (s : State) (tenant : Nat) : State :=
  let s0 : State := { s with faultPosts := s.faultPosts.filter fun p => p.tenant != tenant }
  (s.faultPosts.filter fun p => p.tenant == tenant).foldl (fun s p =>
    let s1 := s.postRecord p
    if (s1.tenant tenant).fqEn then s1 else s1.failPost p) s0

/-- Records whose slots were held are posted once nothing holds them. -/
def State.postHeld (s : State) : State :=
  (s.faultPosts.map (·.tenant)).eraseDups.foldl (fun s t => if s.slotWaits t then s else s.drainPosts t) s

def State.writeFqbase (s : State) (t : Nat) (v : DWord) : State :=
  let log := field v 3 0
  (s.setTenant t { s.tenant t with fqEn := v.getLsbD 63 && log != 0, fqRing := field v 56 6, fqLog := log }).drainPosts t

def State.findRecordOf (s : State) (tenant : Nat) (seq : Word) : Option FaultRecord :=
  s.faultRecords.find? fun r => r.tenant == tenant && r.seq == seq

/-- A record is resolved: its slot is free, `act` happens to what is parked on it, and waiting records are posted. -/
def State.resolve (s : State) (tenant : Nat) (seq : Word) (act : State → FaultRecord → State) : State :=
  match s.findRecordOf tenant seq with
  | none => s
  | some r =>
    let s1 : State := { s with faultRecords := s.faultRecords.filter (· != r) }
    (if kindParks r.kind then act s1 r else s1).drainPosts tenant

def retryRecord (s : State) (r : FaultRecord) : State := s.retryPage r.tenant r.page r.write
def failRecord (s : State) (r : FaultRecord) : State := s.failPage r.tenant r.page r.write r.cause

/-! ### TINTR (R333) -/

def State.vectorsOverlap (s : State) (t base count : Nat) : Bool :=
  s.tenants.any fun x => x.1 != t && x.2.tintrCount != 0 && overlaps base count x.2.tintrBase x.2.tintrCount

def State.writeTintr (s : State) (t : Nat) (v : DWord) : State :=
  let count := field v 42 32
  let base := field v 10 0
  if 1024 < count ∨ 2048 < base + count ∨ (count ≠ 0 ∧ s.vectorsOverlap t base count) then s
  else s.setTenant t { s.tenant t with tintrCount := count, tintrBase := base }

/-! ### The events -/

/-- TROOT_WRITE (R282). -/
def execTrootWrite (tenant : Nat) (v : DWord) (s : State) : Host.Outcome State Fault Refusal :=
  hostWrite (isTenant tenant) (fun s => s.writeTroot tenant v) s

/-- CLUSOWN_WRITE (R284). Step 1 of a change of owner, and the preemption of step 2. -/
def execClusownWrite (cluster : Nat) (v : Word) (s : State) : Host.Outcome State Fault Refusal :=
  hostWrite (isCluster cluster) (fun s => s.writeClusown cluster v) s

/-- CLUSTER_RESPONDER_TIMEOUT (R284). Overdue responders end with ISOLATION. -/
def execClusterResponderTimeout (cluster : Nat) (s : State) : Host.Outcome State Fault Refusal :=
  .next ((s.overdue cluster).foldl (fun s th => s.responderTrap th codeIsolation) s)

/-- OWNER_CHANGE_COMPLETE (R284). Steps 5 and 6, once step 4 holds. -/
def execOwnerChangeComplete (cluster : Nat) (s : State) : Host.Outcome State Fault Refusal :=
  .next (if s.ownerReady cluster then s.changeOwner cluster else s)

/-- TCLEAR_WRITE (R285). Starts a clear or is refused. -/
def execTclearWrite (tenant : Nat) (v : DWord) (s : State) : Host.Outcome State Fault Refusal :=
  hostWrite (isTenant tenant) (fun s => s.writeTclear tenant v) s

/-- TENANT_CLEAR_COMPLETE (R285). Steps 1 to 6 of a clear. -/
def execTenantClearComplete (tenant : Nat) (s : State) : Host.Outcome State Fault Refusal :=
  .next (if (s.tenant tenant).clearBusy then s.clearTenant tenant else s)

/-- INVCTL_WRITE (R290). Steps 1 and 2 of an invalidation. -/
def execInvctlWrite (tenant : Nat) (v : DWord) (s : State) : Host.Outcome State Fault Refusal :=
  hostWrite (isTenant tenant) (fun s => s.writeInvctl tenant v) s

/-- INVALIDATION_COMPLETE (R290). Steps 3 and 4. -/
def execInvalidationComplete (tenant : Nat) (s : State) : Host.Outcome State Fault Refusal :=
  .next (if s.invReady tenant then s.setTenant tenant { s.tenant tenant with invBusy := false, invWaits := [] } else s)

/-- FQBASE_WRITE (R299). -/
def execFqbaseWrite (tenant : Nat) (v : DWord) (s : State) : Host.Outcome State Fault Refusal :=
  hostWrite (isTenant tenant) (fun s => s.writeFqbase tenant v) s

/-- FRES_RETRY (R301). -/
def execFresRetry (tenant : Nat) (seq : Word) (s : State) : Host.Outcome State Fault Refusal :=
  hostWrite (isTenant tenant) (fun s => s.resolve tenant seq retryRecord) s

/-- FRES_FAIL (R301). -/
def execFresFail (tenant : Nat) (seq : Word) (s : State) : Host.Outcome State Fault Refusal :=
  hostWrite (isTenant tenant) (fun s => s.resolve tenant seq failRecord) s

/-- FRES_ACK (R301). -/
def execFresAck (tenant : Nat) (seq : Word) (s : State) : Host.Outcome State Fault Refusal :=
  hostWrite (isTenant tenant) (fun s => s.resolve tenant seq retryRecord) s

/-- TINTR_WRITE (R333). -/
def execTintrWrite (tenant : Nat) (v : DWord) (s : State) : Host.Outcome State Fault Refusal :=
  hostWrite (isTenant tenant) (fun s => s.writeTintr tenant v) s

end Sys2Proof.Machine
end

