-- ==== Sys2Proof/Machine/Cores.lean ====
section
/-! DEFINITION. Cores from outside: debugging (R308, R336), reset (R313), power gating (R343), and what storage
errors, self-tests and repairs do (R309 to R312). -/
namespace Sys2Proof.Machine
open Sys2Proof

def State.modCtl (s : State) (core : Nat) (f : CoreCtl → CoreCtl) : State :=
  let k := s.core core
  s.setCore core { k with ctl := f k.ctl }

/-! ### CORECTL (R308) -/

/-- The group at a resident place of a quadrant. -/
def State.groupAtPlace (s : State) (core quad place : Nat) : Option (Nat × Nat) :=
  (s.quadGroups core quad).find? fun e => (s.groupAt e).place == place

def State.selected (s : State) (core : Nat) : Option ThreadRef :=
  let c := (s.core core).ctl
  (s.groupAtPlace core c.quad c.place).map fun e => ⟨e.1, e.2, c.lane⟩

def State.writeHalt (s : State) (core : Nat) (on : Bool) : State :=
  if (s.core core).ctl.pstat ≠ 0 then s
  else
    let s1 := s.modCtl core fun c => { c with halt := on, step := if on then c.step else none }
    if !on ∧ s1.emptying core then s1.evict core else s1

/-- STEP: the selected thread is to issue; one that is not Ready, or not there, gives DSTAT 2 or 3. -/
def State.writeStep (s : State) (core quad place lane : Nat) : State :=
  let s1 := s.modCtl core fun c => { c with quad := quad, place := place, lane := lane }
  let c := (s1.core core).ctl
  if c.halt = false ∨ c.pstat ≠ 0 then s1
  else match s1.selected core with
    | none => s1.modCtl core fun c => { c with dstat := 3 }
    | some th =>
      let st := (s1.thread th).status
      if st = .blocked ∨ st = .exited then s1.modCtl core fun c => { c with dstat := 2 }
      else s1.modCtl core fun c => { c with step := some th }

/-- ATTACH, and the selection that the debug window shows (R308, R336). -/
def State.writeSelection (s : State) (core : Nat) (v : DWord) : State :=
  s.modCtl core fun c => { c with
    attach := v.getLsbD 63, quad := field v 21 20, place := field v 19 16, lane := field v 5 0 }

/-! ### The debug window (R336, Table 22.7) -/

/-- One field of a thread record: its value and its width, from the highest field down. -/
def packFields : List (Nat × Nat) → Nat
  | [] => 0
  | (v, w) :: rest => (v % 2 ^ w) * 2 ^ ((rest.map (·.2)).sum) + packFields rest

def condCode : ICond → Nat
  | .eq => 0 | .ne => 1 | .lt => 2 | .le => 3 | .gt => 4 | .ge => 5

/-- WAITA, WAITB and WAITK of a wait (Table 22.7). The places of a WAITV's condition and type in WAITK are the model's
choice (log 178). -/
def Wait.fields (w : Wait) : Nat × Nat × Nat :=
  match w with
  | .none => (0, 0, 0)
  | .barrier b _ _ => (0, 0, 64 + b)
  | .gsync m => (m.toNat, 0, 128)
  | .waitv ea _ _ c signed w b => (ea.toNat, b.toNat, 192 + condCode c * 4 + signed.toNat * 2 + (if w = .w64 then 1 else 0))
  | .bobwait b _ _ => (0, 0, 256 + b)
  | .cwait q _ => (0, 0, 320 + q)
  | .pageFault _ _ va _ => (va.toNat, 0, 384)

def Status.code : Status → Nat
  | .ready => 0 | .stalled => 0 | .parked => 1 | .blocked => 2 | .exited => 3

/-- WAITA, WAITB and WAITK of a thread: those of its wait, or what the debug window has left there. -/
def Thread.waitFields (t : Thread) : Nat × Nat × Nat :=
  match t.shown with
  | some (w, f) => if w = t.wait then f else t.wait.fields
  | none => t.wait.fields

/-- Marker-precise faults that are pending: those of the next switch point, and those that wait for theirs to be reached
again (R295). -/
def Thread.pendingFaults (t : Thread) : Tab Report := t.shelved ++ t.faults

/-- The thread record of Table 22.7. -/
def Thread.record (t : Thread) : Nat :=
  let w := t.waitFields
  packFields
    [(t.pc.toNat, 64), (t.trap.pc.toNat, 64), (t.trap.code.toNat, 32), (t.trap.addr.toNat, 64), (t.trap.aux.toNat, 64),
     (t.frame.pc.toNat, 64), ((t.frame.v.getD 3 0).toNat, 32), ((t.frame.v.getD 2 0).toNat, 32),
     ((t.frame.v.getD 1 0).toNat, 32), ((t.frame.v.getD 0 0).toNat, 32), (t.paddr.toNat, 64), (w.1, 64), (w.2.1, 64),
     (t.arrived.toNat, 16), (t.win, 10), (t.frame.b, 10), (t.preds.toNat / 2, 7), (t.frame.p.toNat / 2, 7),
     (t.flags.toNat, 6), (t.status.code, 2), (t.inHandler.toNat, 1), (w.2.2, 9), (t.pendingFaults.length, 6), (0, 278)]

/-- The condition that `condCode` numbers; 6 and 7 name none, and leave the one that stands. -/
def condOf (code : Nat) (old : ICond) : ICond :=
  match code with
  | 0 => .eq | 1 => .ne | 2 => .lt | 3 => .le | 4 => .gt | 5 => .ge | _ => old

/-- What WAITA, WAITB and WAITK make of a Blocked thread's wait: a wait of WAITK's kind. What the record does not hold
(whether a barrier wait synchronises, the state a BOBWAIT waits for, a D) stays from a wait of the same kind, and has a
fixed value after a change of kind; kind 7 changes nothing (log 142). -/
def Wait.rewritten (w : Wait) (a b k : Nat) : Wait :=
  let i := k % 64
  let cond (old : ICond) : ICond := condOf (i / 4 % 8) old
  let waitv (slice : Nat) (old : ICond) : Wait :=
    .waitv (BitVec.ofNat 64 a) false slice (cond old) (i / 2 % 2 == 1) (if i % 2 = 1 then .w64 else .w32) (BitVec.ofNat 64 b)
  match k / 64, w with
  | 0, _ => .none
  | 1, .barrier _ sync early => .barrier (i % 16) sync early
  | 1, _ => .barrier (i % 16) true false
  | 2, _ => .gsync (BitVec.ofNat 64 a)
  | 3, .waitv _ _ slice c _ _ _ => waitv slice c
  | 3, _ => waitv 0 .eq
  | 4, .bobwait _ st d => .bobwait (i % 32) st d
  | 4, _ => .bobwait (i % 32) .full 0
  | 5, .cwait _ d => .cwait (i % 16) d
  | 5, _ => .cwait (i % 16) 0
  | 6, .pageFault _ d _ own => .pageFault (a / 4096) d (BitVec.ofNat 64 a) own
  | 6, _ => .pageFault (a / 4096) false (BitVec.ofNat 64 a) true
  | _, w => w

/-- The thread after a write of its record: STATE and the bits marked zero keep their values. A thread that is not
Blocked keeps WAITA, WAITB and WAITK as they are written. A smaller MPF takes the last pending faults away; a larger one
adds `more` (log 142). -/
def Thread.ofRecord (t : Thread) (r : Nat) (more : Tab Report) : Thread :=
  let a := bits r 479 416
  let b := bits r 415 352
  let k := bits r 292 284
  let n := bits r 283 278
  let wait := if t.status = .blocked then t.wait.rewritten a b k else t.wait
  let d (hi lo : Nat) : DWord := BitVec.ofNat 64 (bits r hi lo)
  let w (lo : Nat) : Word := BitVec.ofNat 32 (bits r (lo + 31) lo)
  { t with
    pc := d 1023 960
    trap := ⟨d 959 896, w 864, d 863 800, d 799 736⟩
    frame := ⟨d 735 672, bits r 325 316, BitVec.ofNat 8 (bits r 308 302 * 2 + 1), [w 544, w 576, w 608, w 640]⟩
    paddr := d 543 480
    wait := wait
    shown := if (a, b, k) = wait.fields then none else some (wait, a, b, k)
    arrived := BitVec.ofNat 16 (bits r 351 336)
    win := bits r 335 326
    preds := BitVec.ofNat 8 (bits r 315 309 * 2 + 1)
    flags := BitVec.ofNat 6 (bits r 301 296)
    inHandler := bits r 293 293 == 1
    shelved := t.shelved.take n
    faults := (t.faults ++ more).take (n - t.shelved.length) }

/-- Pending faults of which nothing is known but that they are there, `n` of them: free values. -/
def State.freeFaults (s : State) (n : Nat) : Tab Report × State :=
  let q := s.fresh (7 * n)
  let d (j : Nat) : DWord := q.1.getD (j + 1) 0 ++ q.1.getD j 0
  ((List.range n).map fun k => (s.nextId + k, ⟨d (7 * k), q.1.getD (7 * k + 6) 0, d (7 * k + 2), d (7 * k + 4)⟩),
    { q.2 with nextId := s.nextId + n })

/-- The record with 32 bits replaced at a byte offset. -/
def replaceWord (r off : Nat) (v : Word) : Nat :=
  r - bits r (8 * off + 31) (8 * off) * 2 ^ (8 * off) + v.toNat * 2 ^ (8 * off)

/-- A read of the debug window: zero while HALT is 0, where no thread is selected, and past its registers. -/
def State.readDebug (s : State) (core off : Nat) : Word :=
  if (s.core core).ctl.halt = false ∨ off % 4 ≠ 0 then 0
  else match s.selected core with
    | none => 0
    | some th =>
      if off < 0x80 then BitVec.ofNat 32 (bits (s.thread th).record (8 * off + 31) (8 * off))
      else if 0x1000 ≤ off ∧ (off - 0x1000) / 4 < (s.group th).budget then Tab.get (s.thread th).regs ((off - 0x1000) / 4) 0
      else 0

/-- A write to the debug window of a halted core. -/
def State.writeDebug (s : State) (core off : Nat) (v : Word) : State :=
  if (s.core core).ctl.halt = false ∨ off % 4 ≠ 0 then s
  else match s.selected core with
    | none => s
    | some th =>
      if off < 0x80 then
        let r := replaceWord (s.thread th).record off v
        let q := s.freeFaults (bits r 283 278 - (s.thread th).pendingFaults.length)
        q.2.modThread th fun t => t.ofRecord r q.1
      else if 0x1000 ≤ off ∧ (off - 0x1000) / 4 < (s.group th).budget then
        s.modThread th fun t => { t with
          regs := Tab.put t.regs ((off - 0x1000) / 4) v, poison := t.poison.filter (· != (off - 0x1000) / 4) }
      else s

/-! ### Core reset (R313, R272, R307) -/

/-- Forwards for the team's entries that wait at its locator: the spawns they owe are lost with it (R272). -/
def State.loseOwed (s : State) (t : Nat) : State :=
  let core := (s.team t).core
  s.dropForwards fun f =>
    f.dstCore.isNone && f.srcCore == core && (s.entry core f.srcEntry).team == t && (s.entry core f.srcEntry).stamp == f.stamp

/-- A team that was lost with its core: its grid stops, and nothing of it runs on. -/
def State.loseTeam (s : State) (t : Nat) : State :=
  let x := s.team t
  let s1 := ((s.loseOwed t).takeReport t codeCoreLost).setLocator x.grid x.index .gone
  let s2 := s1.freeArea t
  ({ s2 with
    teams := Tab.drop s2.teams t
    signals := s2.signals.filter fun g => g.th.team != t
    reqs := s2.reqs.filter fun r => !(r.th.team == t && (r.kind.isSsync || r.lost.isSome))
    fetches := s2.fetches.filter fun f => f.th.team != t } : State).countEnd x.grid

/-- Spawns that the core admitted and did not complete are completed as errors: waiting and running ones, and those
whose forwards wait for a move. -/
def State.loseSpawns (s : State) (core : Nat) : State :=
  let s1 := (s.core core).spawns.foldl (fun s x => s.complete x.solicit core x.entry none (some codeCoreLost)) s
  let s2 := (s.respondersOn core).foldl (fun s r =>
    match Tab.find (s.team r.1).responders r.2 with
    | some x => s.complete x.solicit core x.entry none (some codeCoreLost)
    | none => s) s1
  s2.dropForwards fun f => f.srcCore == core && s.moves.any fun m => m.stamp == f.stamp && m.srcCore == core

/-- Moves out of the core end; of those into it, the ones whose team is lost are registered with nothing behind the
entry, and the thread goes on. -/
def State.endMoves (s : State) (core : Nat) : State :=
  let out := s.moves.filter fun m => m.srcCore == core
  let into := s.moves.filter fun m => m.srcCore != core && m.dstCore == core && (Tab.find s.teams m.team).isNone
  let s1 := out.foldl (fun s m => s.unreserve m) s
  let gone (m : Move) : Bool := out.contains m || into.contains m
  let s2 : State := { s1 with
    moves := s1.moves.filter fun m => !gone m
    copies := s1.copies.filter fun c => match c.move with | some id => !(s.moves.any fun m => m.id == id && gone m) | none => true }
  into.foldl (fun s m =>
    let s1 := s.setEntry m.srcCore m.srcEntry { s.entry m.srcCore m.srcEntry with state := .forward, regSource := s.rootNumbers }
    (s1.setReg m.th m.d (BitVec.ofNat 32 m.dstEntry)).advanceLive m.th) s2

/-- A delivery that was landing ends without its bytes: its bobbin is armed again, or EMPTY after a BOBFREE. -/
def State.abortLandings (s : State) (c : Copy) (hit : List Nat) : State :=
  hit.foldl (fun s i =>
    match s.teamAt (s.team c.team).grid i with
    | some t =>
      let b := s.bobbin t c.landBob
      s.putBobbin t c.landBob
        { b with landing := false, freeing := false, state := if b.freeing then .empty else b.state }
    | none => s) s

/-- Copies of the core's engine keep what they have written and drop the rest: those of teams that live on retire with
STATUS FAULT, and what they were landing does not land. -/
def State.loseCopies (s : State) (core : Nat) : State :=
  (s.copies.filter fun c => c.core == core && c.move.isNone).foldl (fun s c =>
    ((s.dropCopy c.id).abortLandings c c.landing).retireBobbin c 3) s

/-- A copy that a lost entry forwarded: the team's own retires with STATUS FAULT, a multicast's delivery to the team is
dropped (TARGET_GONE). -/
def State.loseForwarded (s : State) (t : Nat) (c : Copy) : State :=
  let i := (s.team t).index
  if c.team = t ∧ c.multicast = false then (s.dropCopy c.id).retireBobbin c 3
  else if s.targetsTeam c t then
    (((if c.landing.contains i then s.abortLandings c [i] else s).noteCopy c 1 1).modCopy c.id fun c => { c with
      targets := c.targets.filter (· != i), landing := c.landing.filter (· != i) })
  else s

/-- The core's forwarding entries are lost, with what they forward (R307). -/
def State.loseForwarding (s : State) (core : Nat) : State :=
  (s.forwarding.filter (·.core == core)).foldl (fun s f =>
    (s.copies.filter fun c => (s.entryCopies f).contains c.id).foldl (fun s c => s.loseForwarded f.team c) s)
    { s with forwarding := s.forwarding.filter (·.core != core) }

/-- The core's directory, SRAM and queues after a reset; the stamps of its entries tell forwards what was lost. -/
def State.blankCore (s : State) (core : Nat) : State :=
  let k := s.core core
  s.setCore core { k with
    l1 := [], fetch := [], lease := none, acquires := k.acquires + 1, spawns := [], dir := []
    lostStamps := k.lostStamps ++ k.dir.map (·.2.stamp)
    admitHold := false, ctl := { k.ctl with step := none, resetDue := false } }

/-- A reset of the core. The manager takes the stop reports of the teams that it loses in the order of their indices
(R236). -/
def State.resetCore (s : State) (core : Nat) : State :=
  let lost := (s.residents core).foldr (insertBy fun t => (s.team t).index) []
  let s1 := s.loseSpawns core
  let s2 := lost.foldl (fun s t => s.loseTeam t) s1
  ((((s2.endMoves core).loseCopies core).loseForwarding core).blankCore core).settle

/-- Spare cores of a die, and spare rows of a channel: 6 MiB of 2 KiB rows (R310). -/
def spareCores : Nat := 4
def spareRows : Nat := 3072

/-- A lasting failure of a core's storage: a spare takes its index, or the index is disabled. -/
def State.spareCore (s : State) (core : Nat) : State :=
  let d := coreDie core
  let n := Tab.get s.sparesUsed d 0
  if n < spareCores then ({ s with sparesUsed := Tab.put s.sparesUsed d (n + 1) } : State).logEvent 3 d core 0
  else (s.setCore core { s.core core with disabled := true }).logEvent 7 d core 0

/-! ### Power gating (R343) -/

def State.writePgate (s : State) (core : Nat) (on : Bool) : State :=
  let p := (s.core core).ctl.pstat
  if p = 0 ∧ on then (s.modCtl core fun c => { c with pgate := true, pstat := 1 }).evict core
  else if p = 2 ∧ !on then s.modCtl core fun c => { c with pgate := false, pstat := 3 }
  else s

def State.gateReady (s : State) (core : Nat) : Bool :=
  (s.core core).ctl.pstat == 1 && (s.residents core).isEmpty && !s.responding core && (s.core core).spawns.isEmpty

def State.gate_ (s : State) (core : Nat) : State :=
  let s1 := s.wipeCore core
  let k := s1.core core
  (s1.setCore core { k with gatedAt := some (s.clockOf core), ctl := { k.ctl with pstat := 2 } }).logEvent 11 (coreDie core) core 0

/-- The core is powered again, and reset if a RESET woke it. It tests its storage first; whether that fails is the
part's own, and a failure is repaired as one that a self-test finds (R309, log 141). -/
def State.ungate (s : State) (core : Nat) : State :=
  let k := s.core core
  let due := k.ctl.resetDue
  let stood := match k.gatedAt with | some g => s.clockOf core - g | none => 0
  let s1 := (s.setCore core { k with
    gatedAt := none, stopped := k.stopped + stood, ctl := { k.ctl with pstat := 0, resetDue := false } }).logEvent 11
      (coreDie core) core 0
  let s2 := if Config.storageFails s.tick then s1.spareCore core else s1
  if due then s2.resetCore core else s2

def State.writeReset (s : State) (core : Nat) : State :=
  if (s.core core).ctl.pstat = 2 then s.modCtl core fun c => { c with pgate := false, pstat := 3, resetDue := true }
  else s.resetCore core

/-! ### Errors, self-tests and repairs (R309 to R312) -/

/-- The core whose storage a site names. -/
def siteCore (site : ErrorSite) : Option Nat :=
  match site with
  | .register c _ _ => some c
  | .scratch c _ _ => some c
  | .l1 c _ => some c
  | .tile c _ _ => some c
  | .core c => some c
  | _ => none

/-- The Valern controller has a self-test of the site to run. One of core storage empties the core of its teams and
holds off solicits first (R309). -/
def State.scheduleTest (s : State) (site : ErrorSite) : State :=
  let s1 : State := { s with tests := if s.tests.contains site then s.tests else s.tests ++ [site] }
  match siteCore site with
  | some c => (s1.setCore c { s1.core c with admitHold := true }).evict c
  | none => s1

/-- Die, unit and address of a site in an event record: the core, or the stack and the place (R335). -/
def sitePlace (site : ErrorSite) : Nat × Nat × Nat :=
  let ofLine (line : Nat) : Nat × Nat × Nat := (placeDie (line * 64), placeStack (line * 64), line * 64)
  match site with
  | .register c _ _ => (coreDie c, c, 0)
  | .scratch c _ _ => (coreDie c, c, 0)
  | .l1 c _ => (coreDie c, c, 0)
  | .tile c _ _ => (coreDie c, c, 0)
  | .core c => (coreDie c, c, 0)
  | .cacheLine line _ => ofLine line
  | .row line => ofLine line
  | .directory st _ _ _ => (st / 2, st, 0)
  | .channelLane st ch => (st / 2, st, ch)
  | .channelRows st ch => (st / 2, st, ch)

/-- The team stands on the core: its storage there can err. -/
def State.standsOn (s : State) (team core : Nat) : Bool :=
  (Tab.find s.teams team).isSome && (s.team team).core == core && !(s.team team).saved

/-- What an uncorrectable error does to the data (Table 22.10). A directory error marks its block though the repair queue
be full: the model's choice (log 173). -/
def State.corrupt (s : State) (site : ErrorSite) : State :=
  match site with
  | .register c th r =>
    if s.standsOn th.team c then s.modThread th fun t => { t with poison := insertNat t.poison r } else s
  | .scratch c t w =>
    if s.standsOn t c then s.modTeam t fun t => { t with scratchPoison := insertNat t.scratchPoison w } else s
  | .l1 c n => s.setCore c { s.core c with l1 := (s.core c).l1.eraseIdx n }
  | .tile c t n => if s.standsOn t c then s.modTeam t fun t => t.setTile n ((t.tile n).poison 0) else s
  | .cacheLine line dirty => if dirty then s.poisonLine line else s
  | .directory st tenant handle block =>
    match s.strings.find? fun x => x.tenant == tenant && x.handle == handle && x.stack == st with
    | some x => if block < x.blocks then s.mark x block else s
    | none => s
  | .row line => s.poisonLine line
  | .channelLane _ _ => s
  | .channelRows _ _ => s
  | .core _ => s

/-- A channel whose rows cannot be spared is retired, or, where its stack has retired one already, goes offline
(R311). It is in no power state from then on, and what waited at it goes on (R342). -/
def State.retireChannel (s : State) (stack ch : Nat) : State :=
  let c := s.channel stack ch
  if c.retired ∨ c.offline then s
  else if (List.range 32).any fun k => (s.channel stack k).retired then
    (s.leavePower (stack * 32 + ch) { c with offline := true, woken := false }).logEvent 6 (stack / 2) stack ch
  else (s.leavePower (stack * 32 + ch) { c with retired := true, woken := false }).logEvent 5 (stack / 2) stack ch

/-- A spare row of the channel that holds the line takes the row's place, or the channel has none left (R310, R311). -/
def State.spareRow (s : State) (line : Nat) : State :=
  let st := placeStack (line * 64)
  let ch := s.servingChannel (line * 64)
  let c := s.channel st ch
  if c.spared < spareRows then
    (s.setChannel st ch { c with spared := c.spared + 1 }).logEvent 3 (st / 2) st (line * 64)
  else s.retireChannel st ch

/-- A spare row of an L2 slice, a directory cache or a memory-side cache, for a site at a place. -/
def State.spareSlice (s : State) (unit : Nat) (at_ : Nat × Nat × Nat) : State :=
  ({ s with sliceSpares := Tab.put s.sliceSpares unit (Tab.get s.sliceSpares unit 0 + 1) } : State).logEvent 3
    at_.1 at_.2.1 at_.2.2

def State.repair (s : State) (site : ErrorSite) : State :=
  match site with
  | .register c _ _ => s.spareCore c
  | .scratch c _ _ => s.spareCore c
  | .l1 c _ => s.spareCore c
  | .tile c _ _ => s.spareCore c
  | .core c => s.spareCore c
  | .cacheLine line _ =>
    s.spareSlice (placeDie (line * 64) * 48 + homeSlice (dieAddr (line * 64))) (sitePlace (.cacheLine line false))
  | .directory st _ _ _ => s.spareSlice (384 + st) (st / 2, st, 0)
  | .row line => s.spareRow line
  | .channelLane st ch => (s.setChannel st ch { s.channel st ch with narrowed := true }).logEvent 4 (st / 2) st ch
  | .channelRows st ch => s.retireChannel st ch

/-- A self-test of core storage may run: the core's ordinary teams are saved and its running responders have ended. -/
def State.testReady (s : State) (site : ErrorSite) : Bool :=
  match siteCore site with
  | some c => s.tests.contains site && (s.residents c).isEmpty && !s.responding c
  | none => true

/-- A self-test's outcome: a pass is logged as transient, a failure is repaired. Its core admits solicits again once no
other self-test of it is to run. -/
def State.runTest (s : State) (site : ErrorSite) (lasting : Bool) : State :=
  let p := sitePlace site
  let s1 := if lasting then s.repair site else s.logEvent 2 p.1 p.2.1 p.2.2
  let s2 : State := { s1 with tests := s1.tests.filter (· != site) }
  match siteCore site with
  | some c => s2.setCore c { s2.core c with admitHold := s2.tests.any fun x => siteCore x == some c }
  | none => s2

/-- The units that a site names exist (R4). -/
def siteOk (site : ErrorSite) : Bool :=
  match site with
  | .register c _ _ => isCore c
  | .scratch c _ _ => isCore c
  | .l1 c _ => isCore c
  | .tile c _ _ => isCore c
  | .cacheLine line _ => decide (line * 64 < 8 * Config.dieBytes)
  | .directory st t _ _ => decide (st < 16) && isTenant t
  | .row line => decide (line * 64 < 8 * Config.dieBytes)
  | .channelLane st ch => isChannel st ch
  | .channelRows st ch => isChannel st ch
  | .core c => isCore c

/-! ### The events -/

/-- CORECTL_ATTACH (R308). -/
def execCorectlAttach (core : Nat) (on : Bool) (s : State) : Host.Outcome State Fault Refusal :=
  hostWrite (isCore core) (fun s => s.modCtl core fun c => { c with attach := on }) s

/-- CORECTL_HALT (R308). -/
def execCorectlHalt (core : Nat) (on : Bool) (s : State) : Host.Outcome State Fault Refusal :=
  hostWrite (isCore core) (fun s => s.writeHalt core on) s

/-- CORECTL_STEP (R308). The ply issues as soon as the selected thread can. -/
def execCorectlStep (core quad place lane : Nat) (s : State) : Host.Outcome State Fault Refusal :=
  hostWrite (isCore core) (fun s => s.writeStep core (quad % 4) (place % 16) (lane % 64)) s

/-- CORECTL_RESET (R313). -/
def execCorectlReset (core : Nat) (s : State) : Host.Outcome State Fault Refusal :=
  hostWrite (isCore core) (fun s => s.writeReset core) s

/-- CORECTL_PGATE (R343). -/
def execCorectlPgate (core : Nat) (on : Bool) (s : State) : Host.Outcome State Fault Refusal :=
  hostWrite (isCore core) (fun s => s.writePgate core on) s

/-- CORE_GATED (R343). -/
def execCoreGated (core : Nat) (s : State) : Host.Outcome State Fault Refusal :=
  .next (if s.gateReady core then s.gate_ core else s)

/-- CORE_WOKEN (R343). -/
def execCoreWoken (core : Nat) (s : State) : Host.Outcome State Fault Refusal :=
  .next (if (s.core core).ctl.pstat = 3 then s.ungate core else s)

/-- DEBUG_WINDOW_WRITE (R336). -/
def execDebugWindowWrite (core off : Nat) (v : Word) (s : State) : Host.Outcome State Fault Refusal :=
  hostWrite (isCore core) (fun s => s.writeDebug core off v) s

/-- CORE_LOST (R313). The Valern controller resets the core. -/
def execCoreLost (core : Nat) (s : State) : Host.Outcome State Fault Refusal :=
  if isCore core then .next (s.writeReset core) else .fault .noSuchUnit

/-- UNCORRECTABLE_ERROR (R309). -/
def execUncorrectableError (site : ErrorSite) (s : State) : Host.Outcome State Fault Refusal :=
  if siteOk site then .next ((s.corrupt site).scheduleTest site) else .fault .noSuchUnit

/-- CORRECTED_ERROR (R309). -/
def execCorrectedError (site : ErrorSite) (s : State) : Host.Outcome State Fault Refusal :=
  if siteOk site then .next (s.scheduleTest site) else .fault .noSuchUnit

/-- SELF_TEST (R309). A test of core storage that finds the core in use is to run once it is not. -/
def execSelfTest (site : ErrorSite) (lasting : Bool) (s : State) : Host.Outcome State Fault Refusal :=
  if siteOk site then
    .next (if s.testReady site then s.runTest site lasting else s.scheduleTest site)
  else .fault .noSuchUnit

/-- SUCCINCT_UNIT_FAILURE (R312). -/
def execSuccinctUnitFailure (stack : Nat) (s : State) : Host.Outcome State Fault Refusal :=
  if stack < 16 then .next (s.setSplicer stack { s.splicer stack with failed := true }) else .fault .noSuchUnit

end Sys2Proof.Machine
end

