-- ==== Sys2Proof/Machine/Links.lean ====
section
/-! DEFINITION. The outside of the package: the host over CXL.mem (R331), the CXL.cache path to host memory and its
loss (R305, R332), and the Flalen links and peers (R334). -/
namespace Sys2Proof.Machine
open Sys2Proof

def Loc.isHost : Loc → Bool
  | .host _ => true
  | _ => false

/-! ### Link loss (R305, R334) -/

/-- A link event for every tenant whose fault queue is on, and for the event log. -/
def State.linkEvent (s : State) (aux unit : Nat) : State :=
  ((List.range 16).foldl (fun s t => s.postRecord ⟨t, 0, false, 4, 0, 0, 0, 0, 0, BitVec.ofNat 64 aux⟩) s).logEvent 8 0 unit aux

/-- What a request to host memory comes to when it is lost: a read is poisoned, a write has no effect. -/
def State.loseReq (s : State) (q : Req) : State :=
  let parts := q.parts.map fun x => if x.loc.isHost && !x.done then x.finish (s.bytesAt x.loc x.len) true else x
  let fin := s.modReq q.id fun r => { r with parts := parts }
  match q.kind with
  | .load _ _ => fin.deliver q.id
  | .rmw _ size _ true => ((s.giveResult q.th q.id (oldResult size (s.bytesAt (placeOf q) size) true q.va)).dropReq q.id).settle
  | .cas size _ _ => ((s.giveResult q.th q.id (oldResult size (s.bytesAt (placeOf q) size) true q.va)).dropReq q.id).settle
  | _ => fin
where
  placeOf (q : Req) : Loc :=
    match q.parts with
    | x :: _ => x.loc
    | [] => .dev 0

def Req.onHost (q : Req) : Bool := q.parts.any fun x => x.loc.isHost && !x.done

/-- An outstanding word is lost: poisoned on its way in, dropped on its way out, with STATUS FAULT. -/
def State.loseWord (s : State) (c : Copy) (u : Nat) : State :=
  let e := c.unit u
  let done (s : State) : State := s.modCopy c.id fun c => { c with moved := insertNat c.moved u }
  match s.reach c.core c.tenant { read := c.inward, write := !c.inward } e.1 e.2.1 with
  | .ok (g :: _) =>
    let loc := g.2.2.locate g.1
    if loc.isHost then
      if c.inward then done (s.landWord c e.2.2 (s.bytesAt loc e.2.1) true)
      else done (s.noteCopy c 3 0)
    else s
  | _ => s

def State.loseCopyWords (s : State) (c : Copy) : State :=
  if s.copyRuns c then
    (c.unitList.filter fun u => !c.moved.contains u && Config.outstanding s.tick u).foldl (fun s u => s.loseWord c u) s
  else s

/-- Every outstanding request to host memory completes poisoned or is lost. -/
def State.loseOutstanding (s : State) : State :=
  let s1 := (s.reqs.filter (·.onHost)).foldl (fun s q => s.loseReq q) s
  s1.copies.foldl (fun s c => s.loseCopyWords c) s1

/-- The requests and copies that the CXL port holds: sent, and to host memory. -/
def State.atPort (s : State) : List Nat :=
  (s.reqs.filter fun q => q.onHost && s.allDone q.waits).map (·.id) ++
  (s.copies.filter fun c => s.copyRuns c && !c.complete && (s.copyPlaces c).any Loc.isHost).map (·.id)

/-- The port counts its cycles from when it takes a request (R5, R305). -/
def State.updatePort (s : State) : State :=
  { s with port := s.atPort.map fun id => (id, Tab.get s.port id s.now) }

/-- The request has waited at the port for its time (R305). -/
def State.cxlWaits (s : State) (id : Nat) : Bool :=
  s.atPort.contains id && decide (Config.cxlTimeout ≤ s.now - Tab.get s.port id s.now)

/-! ### The host's accesses to device memory (R291, R331) -/

/-- Device memory is offered: the firmware runs, the part is not RETIRED, and the link is up (R337, R338). -/
def State.memoryOpen (s : State) : Bool := !s.recovery && s.lifecycle != 4 && !s.cxlDown

/-- Bytes of the HDM range. -/
def hdmBytes : Nat := 8 * Config.dieBytes

/-- The lines of a range: first place, offset in the range, length. -/
def rangeLines (p n : Nat) : List (Nat × Nat × Nat) :=
  (List.range ((p % 64 + n + 63) / 64)).map fun k =>
    let lo := if k = 0 then p else (p / 64 + k) * 64
    let hi := min ((p / 64 + k + 1) * 64) (p + n)
    (lo, lo - p, hi - lo)

def State.readLine (s : State) (p n : Nat) : List Byte := if s.hwOwned (.dev p) then List.replicate n 0 else s.bytesAt (.dev p) n

/-- Accesses that reach the carve-out are logged as event 1. -/
def State.logCarveOut (s : State) (p : Nat) : State :=
  if s.hwOwned (.dev p) then s.logEvent 1 (placeDie p) 0 (dieAddr p) else s

/-- What an outside read of a range returns. -/
def State.outsideRead (s : State) (p n : Nat) : State :=
  let lines := rangeLines p n
  let s1 := lines.foldl (fun s l => s.logCarveOut l.1) s
  { s1 with
    reply := lines.flatMap fun l => s.readLine l.1 l.2.2
    replyPoison := lines.any fun l => !s.hwOwned (.dev l.1) && s.isPoisoned (.dev l.1) }

/-- The lines that the host reads it may cache (R331). -/
def State.hostCaches (s : State) (p n : Nat) : State :=
  { s with snoop := (rangeLines p n).foldl (fun ks l => if s.hwOwned (.dev l.1) then ks else insertNat ks (l.1 / 64)) s.snoop }

/-- An outside write, line by line. -/
def State.outsideWrite (s : State) (p : Nat) (bytes : List Byte) : State :=
  (rangeLines p bytes.length).foldl (fun s l =>
    if s.hwOwned (.dev l.1) then s.logCarveOut l.1
    else s.writePlace (.dev l.1) ((bytes.drop l.2.1).take l.2.2)) s

/-- The bytes of an outside write that are performed together: those of as many lines as a repair queue has entries. The
rest follows as a write of its own (R200, log 93). -/
def outsidePiece (p n : Nat) : Nat := min n (64 * Config.repairDepth - p % 64)

/-- A write that a string holds off waits at its stack (R200, R202). -/
def State.outsideHeld (s : State) (p n : Nat) : Bool :=
  s.writesHeld (((rangeLines p n).map fun l => Loc.dev l.1).filter fun l => !s.hwOwned l)

/-- An outside access waits at a sleeping channel (R342). -/
def State.outsideAsleep (s : State) (p n : Nat) : Bool :=
  (rangeLines p n).any fun l => !s.hwOwned (.dev l.1) && s.asleep (.dev l.1)

/-- An outside access has reached its channels. -/
def State.outsideTouch (s : State) (p n : Nat) : State := (rangeLines p n).foldl (fun s l => s.touch (.dev l.1)) s

def State.hostForgets (s : State) (p n : Nat) : State :=
  let lines := (rangeLines p n).map (·.1 / 64)
  { s with snoop := s.snoop.filter fun k => !lines.contains k }

/-- A write by the host, or by a peer, of its first piece; what is left waits to be performed next. -/
def State.writeOutside (s : State) (host : Bool) (p : Nat) (bytes : List Byte) : State :=
  let n := outsidePiece p bytes.length
  let s1 := (((if host then s.hostForgets p n else s).outsideWrite p (bytes.take n)).outsideTouch p n)
  if (bytes.drop n).isEmpty then s1 else { s1 with outsideRest := some ⟨host, p + n, bytes.drop n⟩ }

/-- Writes from outside are taken: the host's while it is offered device memory, a peer's while the firmware runs and the
part is not RETIRED. -/
def State.writesOpen (s : State) (host : Bool) : Bool :=
  if host then s.memoryOpen else !s.recovery && s.lifecycle != 4

/-- The next piece of a long write from outside. What is no longer taken is dropped. -/
def State.continueOutside (s : State) (r : OutsideRest) : State :=
  let s1 := { s with outsideRest := none }
  if s.writesOpen r.host then s1.writeOutside r.host r.place r.bytes else s1

/-! ### The events -/

/-- CXL_REQUEST_TIMEOUT (R305). -/
def execCxlRequestTimeout (id : Nat) (s : State) : Host.Outcome State Fault Refusal :=
  .next (if s.cxlWaits id then s.loseOutstanding.linkEvent 1 0 else s)

/-- CXL_LINK_DOWN (R305). -/
def execCxlLinkDown (s : State) : Host.Outcome State Fault Refusal :=
  .next (if s.cxlDown then s else ({ s with cxlDown := true } : State).loseOutstanding.linkEvent 2 0)

/-- FLALEN_LINK_DOWN (R334). What is outstanding over the link reads poisoned or is dropped as it is performed. -/
def execFlalenLinkDown (link : Nat) (s : State) : Host.Outcome State Fault Refusal :=
  if isLink link then
    .next (if s.linkDown.contains link then s
      else ({ s with linkDown := insertNat s.linkDown link } : State).linkEvent (0x10 + link) link)
  else .fault .noSuchUnit

/-- HOST_MEM_READ (R331). The host reads device memory. -/
def execHostMemRead (off len : Nat) (s : State) : Host.Outcome State Fault Refusal :=
  if off + len ≤ hdmBytes then
    .next (if s.memoryOpen then ((s.outsideRead off len).hostCaches off len).outsideTouch off len
      else { s with reply := [], replyPoison := false })
  else .fault .noSuchAddress

/-- HOST_MEM_WRITE (R331). The host writes device memory. -/
def execHostMemWrite (off : Nat) (bytes : List Byte) (s : State) : Host.Outcome State Fault Refusal :=
  if off + bytes.length ≤ hdmBytes then
    let n := outsidePiece off bytes.length
    .next (if s.memoryOpen && !s.outsideHeld off n then s.writeOutside true off bytes else s)
  else .fault .noSuchAddress

/-- PEER_REQUEST (R288, R291, R334). A peer package reads or writes this package's memory. -/
def execPeerRequest (die a : Nat) (write : Bool) (bytes : List Byte) (s : State) : Host.Outcome State Fault Refusal :=
  if die < 8 ∧ a + bytes.length ≤ Config.dieBytes then
    let p := die * Config.dieBytes + a
    .next (if s.recovery || s.lifecycle == 4 then s
      else if write then
        if s.outsideHeld p (outsidePiece p bytes.length) then s else s.writeOutside false p bytes
      else (s.outsideRead p bytes.length).outsideTouch p bytes.length)
  else .fault .noSuchAddress

/-- HOST_SNOOP (R332). It is answered with no data, and changes nothing. -/
def execHostSnoop (_pa : Nat) (s : State) : Host.Outcome State Fault Refusal := .next s

end Sys2Proof.Machine
end

