-- ==== Sys2Proof/Machine/Digest.lean ====
section
/-! DEFINITION. The digest and the signature that R337 and R339 name: SHA-512 (FIPS 180-4) and the verification of
Ed25519 (RFC 8032). The spec names the two and leaves their definitions to these standards: PRESUMED (log 143). -/
namespace Sys2Proof.Machine.Digest
open Sys2Proof

/-- Value of bytes, the first the most significant. -/
def fromBe (bs : List Byte) : Nat := bs.foldl (fun v b => 256 * v + b.toNat) 0
/-- The `n` low bytes of a value, the most significant first. -/
def toBe (n v : Nat) : List Byte := (List.range n).map fun k => BitVec.ofNat 8 (v / 256 ^ (n - 1 - k))

/-! ### SHA-512 -/

/-- The greatest `r` of `n` bits above `low` with `r ^ k ≤ v`. -/
def rootBits (k v : Nat) : Nat → Nat → Nat
  | 0, low => low
  | n + 1, low => rootBits k v n (if (low + 2 ^ n) ^ k ≤ v then low + 2 ^ n else low)

/-- The first 80 primes. -/
def primes : List Nat := (List.range 410).filter fun n => decide (2 ≤ n) && (List.range n).all fun d => decide (d < 2) || n % d != 0

/-- The first 64 bits of the fractional part of a `k`-th root. -/
def rootFraction (k p : Nat) : DWord := BitVec.ofNat 64 (rootBits k (p * 2 ^ (64 * k)) 72 0)

/-- K and the initial hash value. -/
def roundConstants : List DWord := primes.map (rootFraction 3)
def startHash : List DWord := (primes.take 8).map (rootFraction 2)

/-- The xor of three rotations; and of two rotations and a shift. -/
def rotations (x : DWord) (a b c : Nat) : DWord := x.rotateRight a ^^^ x.rotateRight b ^^^ x.rotateRight c
def rotationsShift (x : DWord) (a b c : Nat) : DWord := x.rotateRight a ^^^ x.rotateRight b ^^^ (x >>> c)

/-- The message schedule, the last word first. -/
def schedule (block : List DWord) : Nat → List DWord
  | 0 => block.reverse
  | n + 1 =>
    let w := schedule block n
    (rotationsShift (w.getD 1 0) 19 61 6 + w.getD 6 0 + rotationsShift (w.getD 14 0) 1 8 7 + w.getD 15 0) :: w

/-- One round on the eight working variables, with K + W. -/
def round (v : List DWord) (kw : DWord) : List DWord :=
  let x (n : Nat) : DWord := v.getD n 0
  let choose := (x 4 &&& x 5) ^^^ (~~~(x 4) &&& x 6)
  let majority := (x 0 &&& x 1) ^^^ (x 0 &&& x 2) ^^^ (x 1 &&& x 2)
  let t := x 7 + rotations (x 4) 14 18 41 + choose + kw
  [t + rotations (x 0) 28 34 39 + majority, x 0, x 1, x 2, x 3 + t, x 4, x 5, x 6]

/-- The hash value after a block of 16 words. -/
def hashBlock (hash block : List DWord) : List DWord :=
  let kw := (roundConstants.zip (schedule block 64).reverse).map fun e => e.1 + e.2
  (hash.zip (kw.foldl round hash)).map fun e => e.1 + e.2

/-- The padded message. -/
def padded (bs : List Byte) : List Byte :=
  bs ++ [0x80] ++ List.replicate ((239 - bs.length % 128) % 128) 0 ++ toBe 16 (8 * bs.length)

/-- The words of `n` blocks, one block after another. -/
def blocks (bs : List Byte) : List (List DWord) :=
  (List.range (bs.length / 128)).map fun b => (List.range 16).map fun k =>
    BitVec.ofNat 64 (fromBe ((bs.drop (128 * b + 8 * k)).take 8))

def sha512 (bs : List Byte) : List Byte :=
  ((blocks (padded bs)).foldl hashBlock startHash).flatMap fun w => toBe 8 w.toNat

/-! ### Ed25519 -/

/-- The prime of the field, and the order of the base point. -/
def prime : Nat := 2 ^ 255 - 19
def order : Nat := 2 ^ 252 + 27742317777372353535851937790883648493

/-- `x ^ e` in the field, for an exponent of `n` bits. -/
def power (x e : Nat) : Nat → Nat
  | 0 => 1
  | n + 1 =>
    let r := power x (e / 2) n
    if e % 2 = 1 then r * r * x % prime else r * r % prime

def inverse (x : Nat) : Nat := power (x % prime) (prime - 2) 255
def minus (x y : Nat) : Nat := (x + (prime - y % prime)) % prime

/-- The curve's constant, -121665 / 121666. -/
def curve : Nat := minus 0 121665 * inverse 121666 % prime

/-- A point, as its two coordinates. -/
abbrev Point := Nat × Nat

/-- The sum of two points of -x² + y² = 1 + curve x² y². -/
def add (a b : Point) : Point :=
  let t := curve * (a.1 * b.1 % prime) * (a.2 * b.2 % prime) % prime
  ((a.1 * b.2 + b.1 * a.2) * inverse (1 + t) % prime, (a.2 * b.2 + a.1 * b.1) * inverse (minus 1 t) % prime)

/-- A multiple of a point, by the `n` low bits of the factor. -/
def multiple (k : Nat) (a : Point) : Nat → Point
  | 0 => (0, 1)
  | n + 1 =>
    let r := multiple (k / 2) a n
    let s := add r r
    if k % 2 = 1 then add s a else s

/-- A square root in the field, where there is one. -/
def squareRoot (v : Nat) : Option Nat :=
  let r := power v ((prime + 3) / 8) 253
  if r * r % prime = v then some r
  else
    let q := r * power 2 ((prime - 1) / 4) 253 % prime
    if q * q % prime = v then some q else none

/-- The point with a given y whose x has the given lowest bit. -/
def pointAt (y sign : Nat) : Option Point :=
  if prime ≤ y then none
  else match squareRoot (minus (y * y) 1 * inverse (curve * (y * y % prime) + 1) % prime) with
    | none => none
    | some x =>
      if x = 0 then (if sign = 0 then some (0, y) else none)
      else some (if x % 2 = sign then x else prime - x, y)

/-- The point that 32 bytes encode. -/
def readPoint (bs : List Byte) : Option Point := pointAt (leValue bs % 2 ^ 255) (leValue bs / 2 ^ 255)

/-- The base point: y is 4/5 and x is even. -/
def basePoint : Point := (pointAt (4 * inverse 5 % prime) 0).getD (0, 1)

/-- A signature of 64 bytes verifies over a message under a public key, cofactor included. -/
def verifies (key sig message : List Byte) : Bool :=
  let s := leValue (sig.drop 32)
  match readPoint key, readPoint (sig.take 32) with
  | some a, some r =>
    let k := leValue (sha512 (sig.take 32 ++ key ++ message)) % order
    key.length == 32 && sig.length == 64 && decide (s < order) &&
    multiple 8 (multiple s basePoint 253) 4 == multiple 8 (add r (multiple k a 253)) 4
  | _, _ => false

end Sys2Proof.Machine.Digest
end

