-- ==== Sys2Proof/Machine/Package.lean ====
section
/-! DEFINITION. The package as a whole: cold reset and wipe (R314), firmware and the load mailbox (R337, R339),
life-cycle states (R338), the event ring (R335), reefing (R340), and registers with no behaviour of their own. -/
namespace Sys2Proof.Machine
open Sys2Proof

/-! ### Firmware and the mailbox (R337, R339) -/

def byteRange (bs : List Byte) (lo n : Nat) : Nat := leValue ((bs.drop lo).take n)
def allZero (bs : List Byte) (lo n : Nat) : Bool := ((bs.drop lo).take n).all (· == 0)

/-- The header of a firmware image is as R339 lays it out. -/
def imageHeader (bs : List Byte) : Bool :=
  byteRange bs 0 4 == 0x47385746 && byteRange bs 8 8 == bs.length && allZero bs 16 48

/-- The signature of an object, its bytes 64 to 127, verifies over the digest of what it signs, with the fused key
(R337, R339). -/
def signedOver (bs body : List Byte) : Bool :=
  Digest.verifies Config.publicKey ((bs.drop 64).take 64) (Digest.sha512 body)

/-- A firmware image is signed over the whole image with bytes 64 to 127 taken as zero. -/
def imageSigned (bs : List Byte) : Bool := signedOver bs (bs.take 64 ++ List.replicate 64 0 ++ bs.drop 128)

/-- A return authorisation is signed over its bytes 0 to 63. -/
def returnSigned (bs : List Byte) : Bool := signedOver bs (bs.take 64)

/-- A return authorisation is well formed, and for this package and nonce. -/
def authorises (nonce : Word) (bs : List Byte) : Bool :=
  bs.length == 128 && byteRange bs 0 8 == Config.serial.toNat && allZero bs 9 7 &&
  byteRange bs 16 4 == nonce.toNat && allZero bs 20 44

/-- NONCE of LCSTATE. -/
def State.nonce (s : State) : Word := Config.nonce s.nonceDraws

/-- The mailbox answers: in normal operation and in recovery mode, but not when RETIRED (R337 to R339). -/
def State.mailboxOpen (s : State) : Bool := s.lifecycle != 4 && !s.cxlDown

def cmdBegin : Nat := 1
def cmdChunk : Nat := 2
def cmdCommit : Nat := 3
def cmdAbort : Nat := 4

/-- RESULT codes (Table 25.8). -/
def mbIdle : Nat := 0
def mbOpen : Nat := 1
def mbAccepted : Nat := 2
def mbBadSignature : Nat := 3
def mbBadLength : Nat := 4
def mbBadOrder : Nat := 5
def mbBadKind : Nat := 6

/-- A write of GO with a command: ignored while BUSY. -/
def State.mailboxGo (s : State) (cmd : Nat) : State :=
  if s.mailboxOpen ∧ s.mailbox.busy = false then { s with mailbox := { s.mailbox with cmd := cmd, busy := true } } else s

def Mailbox.closed (m : Mailbox) (result : Nat) : Mailbox :=
  { m with result := result, isOpen := false, object := [], next := 0 }

def Mailbox.runBegin (m : Mailbox) : Mailbox :=
  if m.len % 64 ≠ 0 ∨ m.len < 128 ∨ 64 * 2 ^ 20 < m.len then m.closed mbBadLength
  else { m with result := mbOpen, isOpen := true, openKind := m.kind, openLen := m.len, next := 0, object := [] }

def Mailbox.runChunk (m : Mailbox) : Mailbox :=
  if m.isOpen = false ∨ m.off ≠ m.next ∨ m.openLen < m.off + m.cnt ∨ m.cnt % 64 ≠ 0 ∨ m.cnt < 64 ∨ 524288 < m.cnt then
    m.closed mbBadOrder
  else { m with next := m.next + m.cnt, object := m.object ++ (List.range m.cnt).map fun k => Tab.get m.window k 0 }

/-- COMMIT: the object is checked, and an accepted one takes effect. -/
def State.runCommit (s : State) : State :=
  let m := s.mailbox
  let close (s : State) (r : Nat) : State := { s with mailbox := m.closed r }
  if m.isOpen = false ∨ m.next ≠ m.openLen then { s with mailbox := { m with result := mbBadOrder } }
  else if m.openKind then
    if !authorises s.nonce m.object then close s mbBadKind
    else if !returnSigned m.object then close s mbBadSignature
    else close { s with authorisation := some (byteRange m.object 8 1) } mbAccepted
  else if !imageHeader m.object then close s mbBadKind
  else if !imageSigned m.object then close s mbBadSignature
  else close { s with firmware := m.object } mbAccepted

/-- The command is performed, with the registers as they stand when it completes: the model's choice (log 179). -/
def State.runMailbox (s : State) : State :=
  let m := s.mailbox
  let s1 :=
    if m.cmd = cmdBegin then { s with mailbox := m.runBegin }
    else if m.cmd = cmdChunk then { s with mailbox := m.runChunk }
    else if m.cmd = cmdCommit then s.runCommit
    else { s with mailbox := m.closed mbIdle }
  { s1 with mailbox := { s1.mailbox with busy := false } }

/-! ### Cold reset and wipe (R314, R337) -/

/-- What a channel keeps through a wipe: its repair maps. -/
def Channel.kept (c : Channel) : Channel :=
  { narrowed := c.narrowed, retired := c.retired, offline := c.offline, spared := c.spared }

/-- A core keeps only that it is disabled. -/
def Core.kept (k : Core) : Core := { disabled := k.disabled }

/-- The stored firmware image: the one accepted last, else the one of manufacture (R337, R339). -/
def State.image (s : State) : List Byte := if s.firmware.isEmpty then Config.factoryImage else s.firmware

/-- The boot ROM's check of the stored image: its header, and its signature (R337). -/
def State.bootPasses (s : State) : Bool := imageHeader s.image && imageSigned s.image

/-- HWBASE of every die, as the Valern controller sets it at boot: at most 0xBDFF (R291, R335, log 144). -/
def State.bootBases (s : State) : Tab Nat := (List.range 8).map fun d => (d, min 0xBDFF (Config.bootBase (s.nonceDraws + 1) d))

/-- A cold reset: everything is as after reset but for what the package keeps in fuses, in its repair maps and in its
event log, and for what lies outside the package. -/
def State.coldReset (s : State) : State :=
  { State.reset with
    tick := s.tick, born := s.tick, free := s.free, nextId := s.nextId, now := s.now
    inputs := s.inputs, reply := s.reply, replyPoison := s.replyPoison, irqs := s.irqs
    hostMem := s.hostMem, peerMem := s.peerMem, backInvalidated := s.backInvalidated
    cores := (s.cores.filter fun k => k.2.disabled).map fun k => (k.1, k.2.kept)
    channels := s.channels.map fun c => (c.1, c.2.kept)
    sparesUsed := s.sparesUsed, sliceSpares := s.sliceSpares
    events := s.events, evtTail := s.evtTail, evtFull := s.evtFull
    firmware := s.firmware, recovery := !s.bootPasses, hwbase := s.bootBases
    lifecycle := s.lifecycle, lcLeft := s.lcLeft, nonceDraws := s.nonceDraws + 1 }

/-! ### Life-cycle states (R338) -/

/-- The repair maps are cleared: spares are free again, and no channel or core is out of use. -/
def State.clearMaps (s : State) : State :=
  { s with
    cores := s.cores.map fun k => (k.1, { k.2 with disabled := false })
    channels := s.channels.map fun c => (c.1, { c.2 with narrowed := false, retired := false, offline := false, spared := 0 })
    sparesUsed := [], sliceSpares := [] }

/-- Whether Table 25.5's changes allow this one at all. -/
def lcAllowed (state target : Nat) (clear : Bool) : Bool :=
  (state == 1 && target == 2) || (state == 2 && target == 3) || (state == 3 && target == 2) || target == 4 ||
  (state == 1 && target == 1 && clear)

def lcNeedsReturn (state target : Nat) : Bool := (state == 2 && target == 3) || (state == 3 && target == 2)

/-- A change is accepted: RESULT is 1 and LEFT counts down; dispatch stops, and the rest follows (R338). -/
def State.acceptChange (s : State) (target : Nat) (clear : Bool) : State :=
  { s with
    lcResult := 1, lcDue := some (target, clear), lcLeft := if target = 4 then s.lcLeft else s.lcLeft - 1 }

/-- The rest of an accepted change: the new state, the wipe and the cold reset, and event 10. -/
def State.changeLifecycle (s : State) (target : Nat) (clear : Bool) : State :=
  let s1 := if clear && target == 1 then s.clearMaps else s
  ({ s1 with lifecycle := target } : State).coldReset.logEvent 10 0 0 target

/-- A cold reset, which also completes a change of life-cycle state that is due. -/
def State.resetPackage (s : State) : State :=
  match s.lcDue with
  | some (target, clear) => s.changeLifecycle target clear
  | none => s.coldReset

/-- A write of LCREQ. With GO it consumes the return authorisation that is held, whatever its target. While an accepted
change is under way it is ignored: the model's choice (log 139). -/
def State.writeLcreq (s : State) (v : DWord) : State :=
  if !v.getLsbD 63 ∨ s.lcDue.isSome then s
  else
    let target := field v 2 0
    let held := s.authorisation
    let s1 : State := { s with
      authorisation := none, nonceDraws := if held.isSome then s.nonceDraws + 1 else s.nonceDraws }
    if !lcAllowed s.lifecycle target (v.getLsbD 3) then { s1 with lcResult := 2 }
    else if lcNeedsReturn s.lifecycle target ∧ held ≠ some target then { s1 with lcResult := 3 }
    else if s.lcLeft = 0 ∧ target ≠ 4 then { s1 with lcResult := 4 }
    else s1.acceptChange target (v.getLsbD 3)

/-! ### Registers with no behaviour of their own -/

/-- The mailbox's registers and window, offsets from their bases (Table 25.8). -/
def Mailbox.store (m : Mailbox) (off : Nat) (v : DWord) : Mailbox :=
  match off with
  | 0x08 => { m with len := field v 31 0 }
  | 0x10 => { m with off := field v 31 0 }
  | 0x18 => { m with cnt := field v 19 0 }
  | 0x28 => { m with kind := v.getLsbD 0 }
  | _ => m

def State.storeMailbox (s : State) (off : Nat) (v : DWord) : State := { s with mailbox := s.mailbox.store off v }

def State.storeWindow (s : State) (off : Nat) (v : DWord) : State :=
  { s with mailbox := { s.mailbox with window := Tab.putAll s.mailbox.window off (leBytes 8 v.toNat) } }

/-- Index of a register in an array of `n` at `base`, one every `stride` bytes. -/
def inArray (off base stride n : Nat) : Option Nat :=
  if base ≤ off ∧ off < base + stride * n ∧ (off - base) % stride = 0 then some ((off - base) / stride) else none

/-- A write of a whole CORECTL: the fields, then what its bits ask for (R308, R343). -/
def State.writeCorectl (s : State) (core : Nat) (v : DWord) : State :=
  let c := (s.core core).ctl
  let s1 := s.writeSelection core v
  let s2 := if v.getLsbD 62 = c.halt then s1 else s1.writeHalt core (v.getLsbD 62)
  let s3 := if v.getLsbD 61 then s2.writeStep core (field v 21 20) (field v 19 16) (field v 5 0) else s2
  let s4 := if v.getLsbD 57 = c.pgate then s3 else s3.writePgate core (v.getLsbD 57)
  if v.getLsbD 60 then s4.writeReset core else s4

/-- TSLICE, INVADDR, CORECTL, STKAGE, and the mailbox's registers and window; any other offset ignores the write (R146,
R241, R290, R308, R339). -/
def State.storeRegister (s : State) (off : Nat) (v : DWord) : State :=
  if !s.mailboxOpen then s
  else if 0x80000 ≤ off ∧ off + 8 ≤ 0x100000 then s.storeWindow (off - 0x80000) v
  else if s.recovery then s.storeMailbox off v
  else if 0x9000 ≤ off ∧ off < 0x9030 then s.storeMailbox (off - 0x9000) v
  else match inArray off 0x1400 4 16, inArray off 0x2008 32 16, inArray off 0x4000 16 768, inArray off 0x100040 0x1000 16 with
    | some t, _, _, _ => s.setTenant t { s.tenant t with slice := field v 19 0 }
    | _, some t, _, _ => s.setTenant t { s.tenant t with invaddr := field v 56 12 }
    | _, _, some c, _ => s.writeCorectl c v
    | _, _, _, some k => { s with stkage := Tab.put s.stkage k (field v 5 0) }
    | _, _, _, _ => s

/-! ### Reefing (R340) -/

/-- Steps of 68.75 MHz from 1.1 GHz down to 275 MHz. -/
def reefSteps : Nat := 12

/-! ### The events -/

/-- COLD_RESET (R314, R338). -/
def execColdReset (s : State) : Host.Outcome State Fault Refusal := .next s.resetPackage

/-- LCREQ_WRITE (R338). -/
def execLcreqWrite (v : DWord) (s : State) : Host.Outcome State Fault Refusal :=
  hostWrite true (fun s => s.writeLcreq v) s

/-- MAILBOX_BEGIN (R339). -/
def execMailboxBegin (s : State) : Host.Outcome State Fault Refusal := .next (s.mailboxGo cmdBegin)

/-- MAILBOX_CHUNK (R339). -/
def execMailboxChunk (s : State) : Host.Outcome State Fault Refusal := .next (s.mailboxGo cmdChunk)

/-- MAILBOX_COMMIT (R339). -/
def execMailboxCommit (s : State) : Host.Outcome State Fault Refusal := .next (s.mailboxGo cmdCommit)

/-- MAILBOX_ABORT (R339). -/
def execMailboxAbort (s : State) : Host.Outcome State Fault Refusal := .next (s.mailboxGo cmdAbort)

/-- MAILBOX_COMMAND_COMPLETE (R339). -/
def execMailboxCommandComplete (s : State) : Host.Outcome State Fault Refusal :=
  .next (if s.mailbox.busy then s.runMailbox else s)

/-- EVTTAIL_WRITE (R335). A zero in bit 63 clears the overflow bit. -/
def execEvttailWrite (v : DWord) (s : State) : Host.Outcome State Fault Refusal :=
  hostWrite true (fun s => if v.getLsbD 63 then s else { s with evtFull := false }) s

/-- REEF_STEP_DOWN (R340). -/
def execReefStepDown (s : State) : Host.Outcome State Fault Refusal :=
  .next (if s.reef < reefSteps then ({ s with reef := s.reef + 1 } : State).logEvent 9 0 0 0 else s)

/-- REEF_STEP_UP (R340). -/
def execReefStepUp (s : State) : Host.Outcome State Fault Refusal :=
  .next (if 0 < s.reef then ({ s with reef := s.reef - 1 } : State).logEvent 9 0 0 0 else s)

/-- REGISTER_WRITE (R146). -/
def execRegisterWrite (off : Nat) (v : DWord) (s : State) : Host.Outcome State Fault Refusal := .next (s.storeRegister off v)

end Sys2Proof.Machine
end

