-- ==== Sys2Proof/Machine/Dispatch.lean ====
section
/-! DEFINITION. One arm per constructor of Instr: the meaning of each instruction and of each event of the
opcode table, as one direct call. -/
namespace Sys2Proof.Machine

def exec (i : Instr) (s : State) : Host.Outcome State Fault Refusal :=
  match i with
  | .iadd sw d a b w => Sys2Proof.Machine.execIadd sw d a b w s
  | .iaddSat sw d a b t => Sys2Proof.Machine.execIaddSat sw d a b t s
  | .isub sw d a b w => Sys2Proof.Machine.execIsub sw d a b w s
  | .isubSat sw d a b t => Sys2Proof.Machine.execIsubSat sw d a b t s
  | .iaddImm sw d a imm => Sys2Proof.Machine.execIaddImm sw d a imm s
  | .iaddc sw d a b c => Sys2Proof.Machine.execIaddc sw d a b c s
  | .isubb sw d a b c => Sys2Proof.Machine.execIsubb sw d a b c s
  | .imul sw d a b w => Sys2Proof.Machine.execImul sw d a b w s
  | .imulh sw d a b t => Sys2Proof.Machine.execImulh sw d a b t s
  | .imad sw d a b w => Sys2Proof.Machine.execImad sw d a b w s
  | .idiv sw d a b t => Sys2Proof.Machine.execIdiv sw d a b t s
  | .irem sw d a b t => Sys2Proof.Machine.execIrem sw d a b t s
  | .imin sw d a b t => Sys2Proof.Machine.execImin sw d a b t s
  | .imax sw d a b t => Sys2Proof.Machine.execImax sw d a b t s
  | .iabs sw d a => Sys2Proof.Machine.execIabs sw d a s
  | .ineg sw d a => Sys2Proof.Machine.execIneg sw d a s
  | .andR sw d a b w => Sys2Proof.Machine.execAndR sw d a b w s
  | .orR sw d a b w => Sys2Proof.Machine.execOrR sw d a b w s
  | .xorR sw d a b w => Sys2Proof.Machine.execXorR sw d a b w s
  | .andnR sw d a b w => Sys2Proof.Machine.execAndnR sw d a b w s
  | .andImm sw d a imm => Sys2Proof.Machine.execAndImm sw d a imm s
  | .isubImm sw d a imm => Sys2Proof.Machine.execIsubImm sw d a imm s
  | .shl sw d a b w => Sys2Proof.Machine.execShl sw d a b w s
  | .shr sw d a b w => Sys2Proof.Machine.execShr sw d a b w s
  | .sar sw d a b w => Sys2Proof.Machine.execSar sw d a b w s
  | .rol sw d a b => Sys2Proof.Machine.execRol sw d a b s
  | .shlImm sw d a w n => Sys2Proof.Machine.execShlImm sw d a w n s
  | .shrImm sw d a w n => Sys2Proof.Machine.execShrImm sw d a w n s
  | .sarImm sw d a w n => Sys2Proof.Machine.execSarImm sw d a w n s
  | .rolImm sw d a n => Sys2Proof.Machine.execRolImm sw d a n s
  | .popc sw d a w => Sys2Proof.Machine.execPopc sw d a w s
  | .clz sw d a => Sys2Proof.Machine.execClz sw d a s
  | .ctz sw d a => Sys2Proof.Machine.execCtz sw d a s
  | .brev sw d a => Sys2Proof.Machine.execBrev sw d a s
  | .bfxN32 sw d a p w => Sys2Proof.Machine.execBfxN32 sw d a p w s
  | .bfxI32 sw d a p w => Sys2Proof.Machine.execBfxI32 sw d a p w s
  | .bfi sw d a p w => Sys2Proof.Machine.execBfi sw d a p w s
  | .iset sw c g p a b w => Sys2Proof.Machine.execIset sw c g p a b w s
  | .isetImm sw c g p a imm => Sys2Proof.Machine.execIsetImm sw c g p a imm s
  | .isel sw d a b c => Sys2Proof.Machine.execIsel sw d a b c s
  | .psetAnd sw p x y => Sys2Proof.Machine.execPsetAnd sw p x y s
  | .psetOr sw p x y => Sys2Proof.Machine.execPsetOr sw p x y s
  | .psetXor sw p x y => Sys2Proof.Machine.execPsetXor sw p x y s
  | .psetAndn sw p x y => Sys2Proof.Machine.execPsetAndn sw p x y s
  | .mov sw d a w => Sys2Proof.Machine.execMov sw d a w s
  | .movi sw d imm => Sys2Proof.Machine.execMovi sw d imm s
  | .movh sw d imm => Sys2Proof.Machine.execMovh sw d imm s
  | .lea sw d a b f => Sys2Proof.Machine.execLea sw d a b f s
  | .leaImm sw d a imm => Sys2Proof.Machine.execLeaImm sw d a imm s
  | .gets sw d imm => Sys2Proof.Machine.execGets sw d imm s
  | .sets sw a imm => Sys2Proof.Machine.execSets sw a imm s
  | .sliceof sw d a => Sys2Proof.Machine.execSliceof sw d a s
  | .fadd sw d a b z r => Sys2Proof.Machine.execFadd sw d a b z r s
  | .fsub sw d a b z r => Sys2Proof.Machine.execFsub sw d a b z r s
  | .fmul sw d a b z r => Sys2Proof.Machine.execFmul sw d a b z r s
  | .ffma sw d a b z r => Sys2Proof.Machine.execFfma sw d a b z r s
  | .fmin sw d a b => Sys2Proof.Machine.execFmin sw d a b s
  | .fmax sw d a b => Sys2Proof.Machine.execFmax sw d a b s
  | .fset sw c p a b z => Sys2Proof.Machine.execFset sw c p a b z s
  | .fsel sw d a b c => Sys2Proof.Machine.execFsel sw d a b c s
  | .frcp sw d a => Sys2Proof.Machine.execFrcp sw d a s
  | .frsq sw d a => Sys2Proof.Machine.execFrsq sw d a s
  | .fsqrt sw d a => Sys2Proof.Machine.execFsqrt sw d a s
  | .fexp2 sw d a => Sys2Proof.Machine.execFexp2 sw d a s
  | .flog2 sw d a => Sys2Proof.Machine.execFlog2 sw d a s
  | .fsinp sw d a => Sys2Proof.Machine.execFsinp sw d a s
  | .fcosp sw d a => Sys2Proof.Machine.execFcosp sw d a s
  | .fdiv sw d a b z r => Sys2Proof.Machine.execFdiv sw d a b z r s
  | .frnd sw d a r => Sys2Proof.Machine.execFrnd sw d a r s
  | .dadd sw d a b r => Sys2Proof.Machine.execDadd sw d a b r s
  | .dmul sw d a b r => Sys2Proof.Machine.execDmul sw d a b r s
  | .dfma sw d a b r => Sys2Proof.Machine.execDfma sw d a b r s
  | .dset sw c p a b => Sys2Proof.Machine.execDset sw c p a b s
  | .hpadd sw d a b z r => Sys2Proof.Machine.execHpadd sw d a b z r s
  | .hpmul sw d a b z r => Sys2Proof.Machine.execHpmul sw d a b z r s
  | .hpfma sw d a b z r => Sys2Proof.Machine.execHpfma sw d a b z r s
  | .f2i sw d a x t r => Sys2Proof.Machine.execF2i sw d a x t r s
  | .i2f sw d a x t r => Sys2Proof.Machine.execI2f sw d a x t r s
  | .f2f sw d a x y z r => Sys2Proof.Machine.execF2f sw d a x y z r s
  | .qgrp sw d a b f => Sys2Proof.Machine.execQgrp sw d a b f s
  | .qpack sw d a b f => Sys2Proof.Machine.execQpack sw d a b f s
  | .qunpk sw d a b f => Sys2Proof.Machine.execQunpk sw d a b f s
  | .shflIdx sw d a b => Sys2Proof.Machine.execShflIdx sw d a b s
  | .shflUp sw d a b => Sys2Proof.Machine.execShflUp sw d a b s
  | .shflDown sw d a b => Sys2Proof.Machine.execShflDown sw d a b s
  | .shflXor sw d a b => Sys2Proof.Machine.execShflXor sw d a b s
  | .voteAny sw p x => Sys2Proof.Machine.execVoteAny sw p x s
  | .voteAll sw p x => Sys2Proof.Machine.execVoteAll sw p x s
  | .voteBallot sw d x => Sys2Proof.Machine.execVoteBallot sw d x s
  | .matchLanes sw d a w => Sys2Proof.Machine.execMatchLanes sw d a w s
  | .elect sw p => Sys2Proof.Machine.execElect sw p s
  | .scanAdd sw d a => Sys2Proof.Machine.execScanAdd sw d a s
  | .scanAddEx sw d a => Sys2Proof.Machine.execScanAddEx sw d a s
  | .scanMin sw d a => Sys2Proof.Machine.execScanMin sw d a s
  | .scanMax sw d a => Sys2Proof.Machine.execScanMax sw d a s
  | .lmask sw d => Sys2Proof.Machine.execLmask sw d s
  | .bra sw p n o => Sys2Proof.Machine.execBra sw p n o s
  | .brcAny sw p n o => Sys2Proof.Machine.execBrcAny sw p n o s
  | .brcAll sw p n o => Sys2Proof.Machine.execBrcAll sw p n o s
  | .call sw p n o => Sys2Proof.Machine.execCall sw p n o s
  | .ret sw a => Sys2Proof.Machine.execRet sw a s
  | .jmpv sw a => Sys2Proof.Machine.execJmpv sw a s
  | .wbase sw k => Sys2Proof.Machine.execWbase sw k s
  | .nop sw => Sys2Proof.Machine.execNop sw s
  | .yield sw => Sys2Proof.Machine.execYield sw s
  | .exitT sw => Sys2Proof.Machine.execExitT sw s
  | .ld sw d a imm q => Sys2Proof.Machine.execLd sw d a imm q s
  | .st sw d a imm q => Sys2Proof.Machine.execSt sw d a imm q s
  | .lds sw d a imm q => Sys2Proof.Machine.execLds sw d a imm q s
  | .sts sw d a imm q => Sys2Proof.Machine.execSts sw d a imm q s
  | .ldaq sw d a z f => Sys2Proof.Machine.execLdaq sw d a z f s
  | .strl sw z a b f => Sys2Proof.Machine.execStrl sw z a b f s
  | .atomAdd sw o d t a b f => Sys2Proof.Machine.execAtomAdd sw o d t a b f s
  | .atomMin sw o d t a b f => Sys2Proof.Machine.execAtomMin sw o d t a b f s
  | .atomMax sw o d t a b f => Sys2Proof.Machine.execAtomMax sw o d t a b f s
  | .atomAddF32 sw o d a b f => Sys2Proof.Machine.execAtomAddF32 sw o d a b f s
  | .atomAnd sw o d z a b f => Sys2Proof.Machine.execAtomAnd sw o d z a b f s
  | .atomOr sw o d z a b f => Sys2Proof.Machine.execAtomOr sw o d z a b f s
  | .atomXor sw o d z a b f => Sys2Proof.Machine.execAtomXor sw o d z a b f s
  | .atomExch sw o d z a b f => Sys2Proof.Machine.execAtomExch sw o d z a b f s
  | .cas sw o d z a b f => Sys2Proof.Machine.execCas sw o d z a b f s
  | .redAdd sw o w a b f => Sys2Proof.Machine.execRedAdd sw o w a b f s
  | .redAddF32 sw o a b f => Sys2Proof.Machine.execRedAddF32 sw o a b f s
  | .redMinI32 sw o a b f => Sys2Proof.Machine.execRedMinI32 sw o a b f s
  | .redMinN32 sw o a b f => Sys2Proof.Machine.execRedMinN32 sw o a b f s
  | .redMaxI32 sw o a b f => Sys2Proof.Machine.execRedMaxI32 sw o a b f s
  | .redMaxN32 sw o a b f => Sys2Proof.Machine.execRedMaxN32 sw o a b f s
  | .redAnd sw o a b f => Sys2Proof.Machine.execRedAnd sw o a b f s
  | .redOr sw o a b f => Sys2Proof.Machine.execRedOr sw o a b f s
  | .redXor sw o a b f => Sys2Proof.Machine.execRedXor sw o a b f s
  | .atomsAdd sw d a b => Sys2Proof.Machine.execAtomsAdd sw d a b s
  | .atomsMinI32 sw d a b => Sys2Proof.Machine.execAtomsMinI32 sw d a b s
  | .atomsMaxI32 sw d a b => Sys2Proof.Machine.execAtomsMaxI32 sw d a b s
  | .atomsMinN32 sw d a b => Sys2Proof.Machine.execAtomsMinN32 sw d a b s
  | .atomsMaxN32 sw d a b => Sys2Proof.Machine.execAtomsMaxN32 sw d a b s
  | .atomsAnd sw d a b => Sys2Proof.Machine.execAtomsAnd sw d a b s
  | .atomsOr sw d a b => Sys2Proof.Machine.execAtomsOr sw d a b s
  | .atomsExch sw d a b => Sys2Proof.Machine.execAtomsExch sw d a b s
  | .fenceAcq sw m f => Sys2Proof.Machine.execFenceAcq sw m f s
  | .fenceRel sw m f => Sys2Proof.Machine.execFenceRel sw m f s
  | .fenceAr sw m f => Sys2Proof.Machine.execFenceAr sw m f s
  | .ldr sw d a z p => Sys2Proof.Machine.execLdr sw d a z p s
  | .preq sw a imm => Sys2Proof.Machine.execPreq sw a imm s
  | .prefL1 sw a imm => Sys2Proof.Machine.execPrefL1 sw a imm s
  | .prefL2 sw a imm => Sys2Proof.Machine.execPrefL2 sw a imm s
  | .prefMsc sw a imm => Sys2Proof.Machine.execPrefMsc sw a imm s
  | .linvLine sw a imm => Sys2Proof.Machine.execLinvLine sw a imm s
  | .linvCore sw => Sys2Proof.Machine.execLinvCore sw s
  | .linvCluster sw => Sys2Proof.Machine.execLinvCluster sw s
  | .barSync sw x => Sys2Proof.Machine.execBarSync sw x s
  | .barArrive sw x => Sys2Proof.Machine.execBarArrive sw x s
  | .barWait sw x => Sys2Proof.Machine.execBarWait sw x s
  | .barset sw x a => Sys2Proof.Machine.execBarset sw x a s
  | .gsync sw a => Sys2Proof.Machine.execGsync sw a s
  | .gsyncImm sw m => Sys2Proof.Machine.execGsyncImm sw m s
  | .ksetImm sw k c => Sys2Proof.Machine.execKsetImm sw k c s
  | .kset sw k a => Sys2Proof.Machine.execKset sw k a s
  | .waitv sw c g a b w => Sys2Proof.Machine.execWaitv sw c g a b w s
  | .signal sw x a => Sys2Proof.Machine.execSignal sw x a s
  | .cpyin sw x a b => Sys2Proof.Machine.execCpyin sw x a b s
  | .cpyout sw x a b => Sys2Proof.Machine.execCpyout sw x a b s
  | .cpy2dIn sw x a b => Sys2Proof.Machine.execCpy2dIn sw x a b s
  | .cpy2dOut sw x a b => Sys2Proof.Machine.execCpy2dOut sw x a b s
  | .cpymc sw x a b => Sys2Proof.Machine.execCpymc sw x a b s
  | .bobset sw x a => Sys2Proof.Machine.execBobset sw x a s
  | .bobwait sw d x bst => Sys2Proof.Machine.execBobwait sw d x bst s
  | .bobfree sw x => Sys2Proof.Machine.execBobfree sw x s
  | .bobq sw d x => Sys2Proof.Machine.execBobq sw d x s
  | .tld sw d a imm => Sys2Proof.Machine.execTld sw d a imm s
  | .tldDr sw d a imm => Sys2Proof.Machine.execTldDr sw d a imm s
  | .tst sw d a imm => Sys2Proof.Machine.execTst sw d a imm s
  | .tstDr sw d a imm => Sys2Proof.Machine.execTstDr sw d a imm s
  | .tldq sw d a imm q => Sys2Proof.Machine.execTldq sw d a imm q s
  | .tzero sw t w => Sys2Proof.Machine.execTzero sw t w s
  | .tmma sw k d a b f => Sys2Proof.Machine.execTmma sw k d a b f s
  | .tcvt sw k d a f => Sys2Proof.Machine.execTcvt sw k d a f s
  | .tgetf sw d t b => Sys2Proof.Machine.execTgetf sw d t b s
  | .tsetf sw d t b => Sys2Proof.Machine.execTsetf sw d t b s
  | .tmergeI64 sw k m a b => Sys2Proof.Machine.execTmergeI64 sw k m a b s
  | .tmergeF64 sw k m a b => Sys2Proof.Machine.execTmergeF64 sw k m a b s
  | .tmergeF64Ord sw k m a b => Sys2Proof.Machine.execTmergeF64Ord sw k m a b s
  | .tmread sw k m a w => Sys2Proof.Machine.execTmread sw k m a w s
  | .tbfy sw k d a => Sys2Proof.Machine.execTbfy sw k d a s
  | .tfcfg sw a => Sys2Proof.Machine.execTfcfg sw a s
  | .ttwid sw d a b => Sys2Proof.Machine.execTtwid sw d a b s
  | .rank0 sw d a b => Sys2Proof.Machine.execRank0 sw d a b s
  | .rank1 sw d a b => Sys2Proof.Machine.execRank1 sw d a b s
  | .sel0 sw d a b => Sys2Proof.Machine.execSel0 sw d a b s
  | .sel1 sw d a b => Sys2Proof.Machine.execSel1 sw d a b s
  | .excess sw d a b => Sys2Proof.Machine.execExcess sw d a b s
  | .closeBr sw d a b => Sys2Proof.Machine.execCloseBr sw d a b s
  | .openBr sw d a b => Sys2Proof.Machine.execOpenBr sw d a b s
  | .enclBr sw d a b => Sys2Proof.Machine.execEnclBr sw d a b s
  | .bins sw d a b => Sys2Proof.Machine.execBins sw d a b s
  | .bdel sw d a b => Sys2Proof.Machine.execBdel sw d a b s
  | .sreg sw d a => Sys2Proof.Machine.execSreg sw d a s
  | .sdrop sw a => Sys2Proof.Machine.execSdrop sw a s
  | .sstat sw d a => Sys2Proof.Machine.execSstat sw d a s
  | .ssync sw a => Sys2Proof.Machine.execSsync sw a s
  | .nmload sw a b => Sys2Proof.Machine.execNmload sw a b s
  | .nmrun sw a b => Sys2Proof.Machine.execNmrun sw a b s
  | .nmrunRet sw d a b => Sys2Proof.Machine.execNmrunRet sw d a b s
  | .redNmAdd sw o w a b f => Sys2Proof.Machine.execRedNmAdd sw o w a b f s
  | .redNmAddF32 sw o a b f => Sys2Proof.Machine.execRedNmAddF32 sw o a b f s
  | .redNmMinI32 sw o a b f => Sys2Proof.Machine.execRedNmMinI32 sw o a b f s
  | .redNmMinN32 sw o a b f => Sys2Proof.Machine.execRedNmMinN32 sw o a b f s
  | .redNmMaxI32 sw o a b f => Sys2Proof.Machine.execRedNmMaxI32 sw o a b f s
  | .redNmMaxN32 sw o a b f => Sys2Proof.Machine.execRedNmMaxN32 sw o a b f s
  | .redNmOr sw o a b f => Sys2Proof.Machine.execRedNmOr sw o a b f s
  | .rzero sw a => Sys2Proof.Machine.execRzero sw a s
  | .rcopy sw a b => Sys2Proof.Machine.execRcopy sw a b s
  | .solicit sw q a n c f => Sys2Proof.Machine.execSolicit sw q a n c f s
  | .reply sw a => Sys2Proof.Machine.execReply sw a s
  | .cwait sw d q => Sys2Proof.Machine.execCwait sw d q s
  | .cpoll sw p q => Sys2Proof.Machine.execCpoll sw p q s
  | .tdadd sw d a => Sys2Proof.Machine.execTdadd sw d a s
  | .tddel sw d a => Sys2Proof.Machine.execTddel sw d a s
  | .tdmove sw d a b => Sys2Proof.Machine.execTdmove sw d a b s
  | .launch sw d a b => Sys2Proof.Machine.execLaunch sw d a b s
  | .intr sw k => Sys2Proof.Machine.execIntr sw k s
  | .trap sw k => Sys2Proof.Machine.execTrap sw k s
  | .tretRe sw => Sys2Proof.Machine.execTretRe sw s
  | .tretSkip sw => Sys2Proof.Machine.execTretSkip sw s
  | .bkpt sw => Sys2Proof.Machine.execBkpt sw s
  | .issuePly core quad => Sys2Proof.Machine.execIssuePly core quad s
  | .instructionFetch core tenant va => Sys2Proof.Machine.execInstructionFetch core tenant va s
  | .classLResult th op => Sys2Proof.Machine.execClassLResult th op s
  | .activeHoldExpired team group => Sys2Proof.Machine.execActiveHoldExpired team group s
  | .engineOperation core => Sys2Proof.Machine.execEngineOperation core s
  | .mergeContribution id word => Sys2Proof.Machine.execMergeContribution id word s
  | .orderedMergeApply id => Sys2Proof.Machine.execOrderedMergeApply id s
  | .homeSliceAccess id part => Sys2Proof.Machine.execHomeSliceAccess id part s
  | .writeAcknowledged id => Sys2Proof.Machine.execWriteAcknowledged id s
  | .mergingFill id => Sys2Proof.Machine.execMergingFill id s
  | .pageWalk cluster tenant va => Sys2Proof.Machine.execPageWalk cluster tenant va s
  | .controllerAgeCap id => Sys2Proof.Machine.execControllerAgeCap id s
  | .copyRetire id => Sys2Proof.Machine.execCopyRetire id s
  | .copyFaultStop id => Sys2Proof.Machine.execCopyFaultStop id s
  | .multicastDelivery id target => Sys2Proof.Machine.execMulticastDelivery id target s
  | .sucWriteMark id part => Sys2Proof.Machine.execSucWriteMark id part s
  | .splicerRepair stack => Sys2Proof.Machine.execSplicerRepair stack s
  | .succinctQuery id => Sys2Proof.Machine.execSuccinctQuery id s
  | .stringUpdatePerform id => Sys2Proof.Machine.execStringUpdatePerform id s
  | .sdropPerform id => Sys2Proof.Machine.execSdropPerform id s
  | .nmSegmentRun id => Sys2Proof.Machine.execNmSegmentRun id s
  | .nmCommandRetire id => Sys2Proof.Machine.execNmCommandRetire id s
  | .nmCommandFault id => Sys2Proof.Machine.execNmCommandFault id s
  | .redNmPlace id => Sys2Proof.Machine.execRedNmPlace id s
  | .rowOperationPerform id => Sys2Proof.Machine.execRowOperationPerform id s
  | .channelPowerEntry stack channel => Sys2Proof.Machine.execChannelPowerEntry stack channel s
  | .channelWake stack channel => Sys2Proof.Machine.execChannelWake stack channel s
  | .channelIdleTimeout stack channel => Sys2Proof.Machine.execChannelIdleTimeout stack channel s
  | .chpwrActive stack channel => Sys2Proof.Machine.execChpwrActive stack channel s
  | .chpwrSelfRefresh stack channel => Sys2Proof.Machine.execChpwrSelfRefresh stack channel s
  | .chpwrPowerDown stack channel => Sys2Proof.Machine.execChpwrPowerDown stack channel s
  | .thermalSelfRefresh stack channel hot => Sys2Proof.Machine.execThermalSelfRefresh stack channel hot s
  | .qctlWrite q v => Sys2Proof.Machine.execQctlWrite q v s
  | .queueWatchWake q => Sys2Proof.Machine.execQueueWatchWake q s
  | .recordDispatch q => Sys2Proof.Machine.execRecordDispatch q s
  | .teamPlace => Sys2Proof.Machine.execTeamPlace s
  | .teamEnd team => Sys2Proof.Machine.execTeamEnd team s
  | .stopReport team => Sys2Proof.Machine.execStopReport team s
  | .queueManagerAccess q => Sys2Proof.Machine.execQueueManagerAccess q s
  | .priorityGraceExpired grid => Sys2Proof.Machine.execPriorityGraceExpired grid s
  | .timeSliceExpired team => Sys2Proof.Machine.execTimeSliceExpired team s
  | .teamSave team => Sys2Proof.Machine.execTeamSave team s
  | .waitvWake th => Sys2Proof.Machine.execWaitvWake th s
  | .waitvPoll th => Sys2Proof.Machine.execWaitvPoll th s
  | .barrierStall th => Sys2Proof.Machine.execBarrierStall th s
  | .signalApply th => Sys2Proof.Machine.execSignalApply th s
  | .solicitAdmit id core => Sys2Proof.Machine.execSolicitAdmit id core s
  | .responderStart core => Sys2Proof.Machine.execResponderStart core s
  | .responderEnd team group => Sys2Proof.Machine.execResponderEnd team group s
  | .censusComplete id => Sys2Proof.Machine.execCensusComplete id s
  | .forwardArrive id => Sys2Proof.Machine.execForwardArrive id s
  | .moveRegister id => Sys2Proof.Machine.execMoveRegister id s
  | .sourceEntryGone core entry => Sys2Proof.Machine.execSourceEntryGone core entry s
  | .entryGone core entry => Sys2Proof.Machine.execEntryGone core entry s
  | .trootWrite tenant v => Sys2Proof.Machine.execTrootWrite tenant v s
  | .clusownWrite cluster v => Sys2Proof.Machine.execClusownWrite cluster v s
  | .clusterResponderTimeout cluster => Sys2Proof.Machine.execClusterResponderTimeout cluster s
  | .ownerChangeComplete cluster => Sys2Proof.Machine.execOwnerChangeComplete cluster s
  | .tclearWrite tenant v => Sys2Proof.Machine.execTclearWrite tenant v s
  | .invctlWrite tenant v => Sys2Proof.Machine.execInvctlWrite tenant v s
  | .invalidationComplete tenant => Sys2Proof.Machine.execInvalidationComplete tenant s
  | .fqbaseWrite tenant v => Sys2Proof.Machine.execFqbaseWrite tenant v s
  | .fresRetry tenant seq => Sys2Proof.Machine.execFresRetry tenant seq s
  | .fresFail tenant seq => Sys2Proof.Machine.execFresFail tenant seq s
  | .fresAck tenant seq => Sys2Proof.Machine.execFresAck tenant seq s
  | .lostWrite id => Sys2Proof.Machine.execLostWrite id s
  | .cxlRequestTimeout id => Sys2Proof.Machine.execCxlRequestTimeout id s
  | .cxlLinkDown => Sys2Proof.Machine.execCxlLinkDown s
  | .flalenLinkDown link => Sys2Proof.Machine.execFlalenLinkDown link s
  | .hostMemRead off len => Sys2Proof.Machine.execHostMemRead off len s
  | .hostMemWrite off bytes => Sys2Proof.Machine.execHostMemWrite off bytes s
  | .peerRequest die a write bytes => Sys2Proof.Machine.execPeerRequest die a write bytes s
  | .hostSnoop pa => Sys2Proof.Machine.execHostSnoop pa s
  | .corectlAttach core on => Sys2Proof.Machine.execCorectlAttach core on s
  | .corectlHalt core on => Sys2Proof.Machine.execCorectlHalt core on s
  | .corectlStep core quad place lane => Sys2Proof.Machine.execCorectlStep core quad place lane s
  | .corectlReset core => Sys2Proof.Machine.execCorectlReset core s
  | .corectlPgate core on => Sys2Proof.Machine.execCorectlPgate core on s
  | .coreGated core => Sys2Proof.Machine.execCoreGated core s
  | .coreWoken core => Sys2Proof.Machine.execCoreWoken core s
  | .debugWindowWrite core off v => Sys2Proof.Machine.execDebugWindowWrite core off v s
  | .coreLost core => Sys2Proof.Machine.execCoreLost core s
  | .uncorrectableError site => Sys2Proof.Machine.execUncorrectableError site s
  | .correctedError site => Sys2Proof.Machine.execCorrectedError site s
  | .selfTest site lasting => Sys2Proof.Machine.execSelfTest site lasting s
  | .succinctUnitFailure stack => Sys2Proof.Machine.execSuccinctUnitFailure stack s
  | .coldReset => Sys2Proof.Machine.execColdReset s
  | .lcreqWrite v => Sys2Proof.Machine.execLcreqWrite v s
  | .mailboxBegin => Sys2Proof.Machine.execMailboxBegin s
  | .mailboxChunk => Sys2Proof.Machine.execMailboxChunk s
  | .mailboxCommit => Sys2Proof.Machine.execMailboxCommit s
  | .mailboxAbort => Sys2Proof.Machine.execMailboxAbort s
  | .tintrWrite tenant v => Sys2Proof.Machine.execTintrWrite tenant v s
  | .evttailWrite v => Sys2Proof.Machine.execEvttailWrite v s
  | .reefStepDown => Sys2Proof.Machine.execReefStepDown s
  | .reefStepUp => Sys2Proof.Machine.execReefStepUp s
  | .registerWrite off v => Sys2Proof.Machine.execRegisterWrite off v s
  | .tenantClearComplete tenant => Sys2Proof.Machine.execTenantClearComplete tenant s
  | .mailboxCommandComplete => Sys2Proof.Machine.execMailboxCommandComplete s

end Sys2Proof.Machine
end

