-- ==== Sys2Proof/Machine/Events.lean ====
section
/-! DEFINITION. What can happen next: every event that the part can take in a state, the host's next request, and
the plies that can issue; and what the passing of a step changes (R22, R229). -/
namespace Sys2Proof.Machine
open Sys2Proof

/-- What an event does: the meaning of its constructor. -/
abbrev Run := State → Host.Outcome State Fault Refusal

/-- `x` when `b`. -/
def when_ (b : Bool) (x : Run) : List Run := if b then [x] else []

/-! ### Events that are enabled, by what they concern -/

/-- Steps of a request in flight. -/
def State.reqEvents (s : State) (r : Req) : List Run :=
  ((List.range r.parts.length).flatMap fun k =>
    when_ (s.mayPerform r k false) (execHomeSliceAccess r.id k) ++ when_ (s.mayPerform r k true) (execSucWriteMark r.id k)) ++
  when_ r.acknowledgeable (execWriteAcknowledged r.id) ++ when_ r.fillable (execMergingFill r.id) ++
  when_ r.lost.isSome (execLostWrite r.id) ++
  (match r.kind with
   | .query f h operand => when_ (s.queryActs r f h operand) (execSuccinctQuery r.id)
   | .update insert h pos _ c => when_ (s.updateActs r insert h pos c) (execStringUpdatePerform r.id)
   | .sdrop h => when_ (s.dropActs r h) (execSdropPerform r.id)
   | .redNm _ _ _ nmok => when_ (r.parts.any fun x => s.redPlaceable r x nmok) (execRedNmPlace r.id)
   | _ => when_ (s.rowReady r) (execRowOperationPerform r.id))

/-- Steps of a copy: one of its words, a delivery, its end. -/
def State.copyEvents (s : State) (c : Copy) : List Run :=
  let left := c.unitList.filter fun u => !c.moved.contains u
  when_ (s.copyRuns c && !left.isEmpty)
    (execHomeSliceAccess c.id (left.getD (Config.nextWord s.tick c.id % left.length) 0)) ++
  when_ c.retirable (execCopyRetire c.id) ++ when_ (c.failed.isSome && c.move.isNone) (execCopyFaultStop c.id) ++
  (c.landing.flatMap fun i => when_ (!((s.teamAt (s.team c.team).grid i).elim false fun t => (s.team t).saved))
    (execMulticastDelivery c.id i)) ++
  (if c.complete && c.failed.isNone then
    c.targets.flatMap fun i => when_ (match s.fate c i with | .waits => false | _ => true) (execMulticastDelivery c.id i)
   else [])

/-- Steps of a thread: results, but for those of batches with a load that has none yet; waits that end; watchdogs. -/
def State.threadEvents (s : State) (late : List Nat) (th : ThreadRef) : List Run :=
  let t := s.thread th
  (t.outs.flatMap fun o => when_ (o.result.isSome && !late.contains o.batch) (execClassLResult th o.op)) ++
  when_ (s.waitWatched th == some true && s.waitEnds th) (execWaitvWake th) ++
  when_ (s.waitWatched th == some false && s.waitEnds th && decide (1024 ≤ s.blockedFor th)) (execWaitvPoll th) ++
  when_ (s.stallDue th) (execBarrierStall th)

def State.teamEvents (s : State) (t : Nat) : List Run :=
  let x := s.team t
  ((x.refs t).flatMap fun th => s.threadEvents x.openBatches th) ++
  (x.groups.flatMap fun g => when_ (s.holdOver t g.1) (execActiveHoldExpired t g.1)) ++
  (x.responders.flatMap fun r => when_ (s.responderOver t r.1 r.2) (execResponderEnd t r.1)) ++
  when_ (s.teamOver t) (execTeamEnd t) ++ when_ (x.stopping.isSome && !x.reported) (execStopReport t) ++
  when_ (s.sliceOver t) (execTimeSliceExpired t) ++ when_ (s.saveReady t) (execTeamSave t)

def State.mergeEvents (s : State) (m : Merge) : List Run :=
  (m.words.flatMap fun w => when_ (s.mayApply m w.1) (execMergeContribution m.id w.1)) ++
  when_ (m.order.isSome && s.orderActs m) (execOrderedMergeApply m.id)

def State.commandEvents (s : State) (c : NmCommand) : List Run :=
  when_ (s.dispatchReady c) (execNmSegmentRun c.id) ++ when_ (s.commandDone c) (execNmCommandRetire c.id) ++
  when_ (s.commandFaults c) (execNmCommandFault c.id)

def State.channelEvents (s : State) (u : Nat) : List Run :=
  if isChannel (u / 32) (u % 32) then
    when_ (s.entryReady u) (execChannelPowerEntry (u / 32) (u % 32)) ++ when_ (s.wakeReady u) (execChannelWake (u / 32) (u % 32)) ++
    when_ (s.idleReady u) (execChannelIdleTimeout (u / 32) (u % 32))
  else []

def State.queueEvents (s : State) (q : Nat) : List Run :=
  if isQueue q then
    when_ (s.newTail q).isSome (execQueueWatchWake q) ++ when_ (s.pointActs q) (execRecordDispatch q) ++
    when_ (s.mgrActs q) (execQueueManagerAccess q)
  else []

def State.solicitEvents (s : State) (q : Solicit) : List Run :=
  ((List.range 768).flatMap fun c => when_ (s.admitReady q c) (execSolicitAdmit q.id c)) ++
  when_ (s.censusReady q) (execCensusComplete q.id)

def State.coreEvents (s : State) (core : Nat) : List Run :=
  let k := s.core core
  when_ (s.nextEngine core).isSome (execEngineOperation core) ++ when_ (s.spawnReady core) (execResponderStart core) ++
  (k.dir.flatMap fun e => when_ (s.sourceOver e.2) (execSourceEntryGone core e.1) ++
    when_ (s.deletedOver core e.1) (execEntryGone core e.1)) ++
  when_ (s.gateReady core) (execCoreGated core) ++ when_ (k.ctl.pstat == 3) (execCoreWoken core)

def State.clusterEvents (s : State) (k : Nat) : List Run :=
  when_ (!(s.overdue k).isEmpty) (execClusterResponderTimeout k) ++ when_ (s.ownerReady k) (execOwnerChangeComplete k)

def State.tenantEvents (s : State) (t : Nat) : List Run :=
  when_ (s.tenant t).clearBusy (execTenantClearComplete t) ++ when_ (s.invReady t) (execInvalidationComplete t)

/-- Cores that hold something: those with a record of their own and those with a resident team. -/
def State.liveCores (s : State) : List Nat :=
  (s.cores.map (·.1) ++ (s.teams.filter fun t => !t.2.saved).map (·.2.core)).eraseDups

/-- Every event that the part can take of its own. -/
def State.internalEvents (s : State) : List Run :=
  (s.reqs.flatMap s.reqEvents) ++ (s.copies.flatMap s.copyEvents) ++ (s.teams.flatMap fun t => s.teamEvents t.1) ++
  (s.merges.flatMap s.mergeEvents) ++ (s.commands.flatMap s.commandEvents) ++
  (s.segments.flatMap fun g => when_ (s.segmentReady g) (execNmSegmentRun g.id)) ++
  (s.splicers.flatMap fun p => when_ (s.splicerActs p.1) (execSplicerRepair p.1)) ++
  (s.channels.flatMap fun c => s.channelEvents c.1) ++ (s.queues.flatMap fun q => s.queueEvents q.1) ++
  (s.grids.flatMap fun g => when_ (s.graceOver g.1) (execPriorityGraceExpired g.1)) ++
  when_ s.offer.isSome execTeamPlace ++ (s.solicits.flatMap s.solicitEvents) ++
  (s.moves.flatMap fun m => when_ (s.moveReady m) (execMoveRegister m.id)) ++
  (s.forwards.flatMap fun f => when_ (s.arrival f != .waits) (execForwardArrive f.id)) ++
  (s.signals.flatMap fun g => when_ (s.signalReady g) (execSignalApply g.th)) ++
  (s.walks.map fun w => execPageWalk w.cluster w.tenant (BitVec.ofNat 64 w.va)) ++
  (s.fetches.flatMap fun f => when_ (s.fetchActs f) (execInstructionFetch f.core f.tenant (BitVec.ofNat 64 f.va))) ++
  (s.liveCores.flatMap s.coreEvents) ++ (s.clusters.flatMap fun k => s.clusterEvents k.1) ++
  (s.tenants.flatMap fun t => s.tenantEvents t.1) ++ when_ s.mailbox.busy execMailboxCommandComplete ++
  when_ s.lcDue.isSome execColdReset ++
  (s.port.flatMap fun p => when_ (s.cxlWaits p.1) (execCxlRequestTimeout p.1)) ++
  (s.tests.flatMap fun site => when_ (s.testReady site) (execSelfTest site (Config.lasting s.tick)))

/-! ### The host's next request -/

/-- The request at the head can be taken now: a write that a string holds off waits at its stack (R200, R202), an access
waits for its channel to wake (R342). -/
def State.inputReady (s : State) (i : Instr) : Bool :=
  match i with
  | .hostMemRead off len => !s.memoryOpen || !s.outsideAsleep off len
  | .hostMemWrite off bytes =>
    let n := outsidePiece off bytes.length
    !s.memoryOpen || (!s.outsideHeld off n && !s.outsideAsleep off n)
  | .peerRequest die a write bytes =>
    let p := die * Config.dieBytes + a
    let n := if write then outsidePiece p bytes.length else bytes.length
    !s.outsideAsleep p n && (!write || !s.outsideHeld p n)
  | _ => true

/-! ### Choosing -/

/-- What kind of thing a step does: an event of the part, the host's request at the head of the queue, or the issue
of a ply on a core. -/
inductive ActKind where
  | event
  | input
  | issue (core : Nat)
  deriving DecidableEq, Repr

/-- Something that can happen next. -/
structure Act where
  kind : ActKind
  run : Run

/-- The next piece of a long write can be performed now, or is no longer taken. -/
def State.restReady (s : State) (r : OutsideRest) : Bool :=
  let n := outsidePiece r.place r.bytes.length
  !s.writesOpen r.host || (!s.outsideHeld r.place n && !s.outsideAsleep r.place n)

/-- The request at the head of the queue, or first what is left of the one before it. -/
def State.inputActs (s : State) (exec : Instr → Run) : List Act :=
  match s.outsideRest with
  | some r => if s.restReady r then [⟨.event, fun s => .next (s.continueOutside r)⟩] else []
  | none =>
  match s.inputs with
  | i :: _ => if s.inputReady i then [⟨.input, exec i⟩] else []
  | [] => []

/-- The quadrants that can issue. -/
def State.issueActs (s : State) : List Act :=
  s.liveCores.flatMap fun c => (List.range 4).flatMap fun q => if s.canForm c q then [⟨.issue c, execIssuePly c q⟩] else []

/-- The ply in which a thread that waits at issue tries its instruction again: the rest of its open ply, or itself. -/
def State.retryPly (s : State) (th : ThreadRef) (w : Word) : Ply :=
  ⟨s.coreOf th, (s.group th).quad, th.team, match s.openPly? th with | some o => o.rest | none => [th], (s.thread th).pc, w⟩

/-- The wait of a Stalled thread is over: its line has come, whoever fetched it, or its instruction, tried again, would
do something (R12, R240, log 127). -/
def State.stallEnds (s : State) (exec : Instr → Run) (th : ThreadRef) : Bool :=
  (s.thread th).status == .stalled && s.leadsPly th &&
  match s.fetchWord (s.coreOf th) (s.tenantOf th) (s.thread th).pc with
  | none => !(s.fetches.any fun f => f.th == th && f.core == s.coreOf th)
  | some w =>
    match decode w with
    | .error _ => true
    | .ok i =>
      match exec i { s with ply := some (s.retryPly th w) } with
      | .next t => t != s
      | _ => true

/-- Stalled threads whose wait is over become Ready, before anything else happens; their ready time stays (R240). -/
def State.stallActs (s : State) (exec : Instr → Run) : List Act :=
  match s.allRefs.filter (s.stallEnds exec) with
  | [] => []
  | ths => [⟨.event, fun s => .next (ths.foldl (fun s th => s.setStatus th .ready) s)⟩]

/-- Everything that can happen next. Kept folded: a comparison of two forms of the step need not list the events. -/
@[irreducible]
def State.acts (s : State) (exec : Instr → Run) : List Act :=
  match s.stallActs exec with
  | [] => (s.internalEvents.map fun r => ⟨.event, r⟩) ++ s.inputActs exec ++ s.issueActs
  | l => l

/-- One of several, by the part's free choice (log 2). -/
def pickAct (tick : Nat) : List Act → Option Act
  | [] => none
  | [a] => some a
  | a :: rest => some ((a :: rest).getD (Config.choice tick % (rest.length + 1)) a)

/-- The request that is taken leaves the queue. -/
def State.dropInput (s : State) : State := { s with inputs := s.inputs.tail }

/-- The state in which an act runs. -/
def State.prepare (s : State) (a : Act) : State :=
  match a.kind with
  | .input => s.dropInput
  | _ => s

/-! ### The passing of a step -/

/-- A grid whose next team fits nowhere waits from now on, or no longer (R241). -/
def State.updateWaiting (s : State) : State :=
  let since (g : Nat × Grid) : Option Nat :=
    if s.unplaced g.1 then some (match g.2.waitingSince with | some t => t | none => s.now) else none
  { s with grids := s.grids.map fun g => (g.1, { g.2 with waitingSince := since g }) }

/-- An issue counts a cycle of its core; an idle step counts one of every clock. -/
def State.count (s : State) (k : Option ActKind) : State :=
  match k with
  | some (.issue c) => s.setCore c { s.core c with cycles := (s.core c).cycles + 1 }
  | some _ => s
  | none => { s with idle := s.idle + 1, now := s.now + 1 }

/-- Time passes: any number of cycles of each clock besides those counted (R5, R22, log 4). -/
def State.elapse (s : State) (k : Option ActKind) : State :=
  let s1 := s.count k
  ({ s1 with tick := s1.tick + 1, now := s1.now + Config.elapsed 768 s.tick } : State).updateWaiting.updatePort

/-- The quadrants of the cores that hold teams, each once. -/
def State.usedQuads (s : State) : List (Nat × Nat) :=
  ((s.teams.filter fun t => !t.2.saved).map (·.2.core)).eraseDups.flatMap fun c => (List.range 4).map fun q => (c, q)

/-- The end of a cycle: groups that have gone idle leave their active sets, and vacancies are filled (R239). -/
def State.turnActive (s : State) : State :=
  s.leaveIdle.usedQuads.foldl (fun s e => s.fillActive e.1 e.2 Config.activePlaces) s.leaveIdle

/-- The end of a step: fault records that can be written now are, active sets turn, and time passes. -/
def State.pass (s : State) (k : Option ActKind) : State := s.postHeld.turnActive.elapse k

end Sys2Proof.Machine
end

