-- ==== Sys2Proof/Machine/Step.lean ====
section
/-! DEFINITION. One step of the part, and the state in which a given word is the next to issue. -/
namespace Sys2Proof.Machine
open Sys2Proof

/-- The ply that has formed runs its instruction, and a STEP whose ply it was is over (R308). One at a word that decodes
to no instruction has trapped as it formed. -/
def runFormed (s : State) : Host.Outcome State Fault Refusal :=
  match s.ply with
  | none => .next s
  | some p =>
    match decode p.word with
    | .ok i =>
      match exec i s with
      | .next t => .next (t.settleStep p)
      | .fault f => .fault f
      | .refused r => .refused r
    | .error _ => .next (s.endPly.settleStep p)

/-- What an act does, before time passes: its meaning, then the instruction of the ply that it formed. -/
def perform (a : Act) (s : State) : Host.Outcome State Fault Refusal :=
  match a.run (s.prepare a) with
  | .next s1 => runFormed s1
  | .fault f => .fault f
  | .refused r => .refused r

/-- One step: the part takes one of the things that can happen next; with nothing to do, time passes. -/
def step (s : State) : Host.Outcome State Fault Refusal :=
  match pickAct s.tick (s.acts exec) with
  | none => .next (s.pass none)
  | some a =>
    match perform a s with
    | .next s1 => .next (s1.pass (some a.kind))
    | .fault f => .fault f
    | .refused r => .refused r

/-- The line that holds one word at virtual address 0. -/
def wordLine (tag w : Nat) : CacheLine :=
  ⟨tag, 0, .dev 0, BitVec.allOnes 16, leBytes 64 (w % 2 ^ 32), []⟩

/-- A team with one live thread, at virtual address 0. -/
def soloTeam (tick : Nat) : Team :=
  { grid := 0, tileCount := 16, scratchSize := 0x100000
    groups := [(0, { budget := 1024, active := true, threads := [(0, { readyAt := tick })] })] }

/-- The word stands next to issue: the fetch cache of core 0 holds it at virtual address 0, where the one live thread
of the one team stands (log 6). -/
def State.withFetchWord (s : State) (_nbits w : Nat) : State :=
  { s with
    inputs := [], outsideRest := none
    teams := [(0, soloTeam s.tick)], nextTeam := 1
    grids := [(0, { placed := 1, tileCount := 16, roles := [(1, 1024)], scr := 8, dies := [0] })]
    locators := [(0, [(0, .running 0)])]
    cores := [(0, { fetch := [wordLine (s.tenant 0).astag w] })] }

end Sys2Proof.Machine
end

