-- ==== Sys2Proof/Machine/Readout.lean ====
section
/-! DEFINITION. What the host reads of the registers: the package management block, the stacks' blocks (BAR0) and the
debug windows (BAR2) (R330, R335, R336, R338, R339). No event of the opcode table is a register read: a read changes
nothing. A register array is read at the offset of a register; where no register lies, nothing answers. -/
namespace Sys2Proof.Machine
open Sys2Proof

/-- Fields of a register, each at its lowest bit; the rest reads zero. -/
def regWord (fs : List (Nat × Nat)) : DWord := BitVec.ofNat 64 ((fs.map fun f => f.2 * 2 ^ f.1).sum)

/-- QCTL (Table 15.2). -/
def Queue.word (q : Queue) : DWord := regWord [(63, q.en.toNat), (0, q.qcb)]

/-- TROOT (Table 21.2). -/
def Tenant.rootWord (t : Tenant) : DWord := regWord [(63, t.en.toNat), (56, t.rdie), (40, t.astag), (21, t.root)]

/-- INVADDR (R290). -/
def Tenant.addrWord (t : Tenant) : DWord := regWord [(12, t.invaddr)]

/-- INVCTL (Table 21.8). -/
def Tenant.invWord (t : Tenant) : DWord := regWord [(63, t.invBusy.toNat), (62, t.invAll.toNat), (0, t.invCount)]

/-- FQBASE (Table 22.4): RING is kept as its bits [56:6]. -/
def Tenant.ringWord (t : Tenant) : DWord := regWord [(63, t.fqEn.toNat), (6, t.fqRing), (0, t.fqLog)]

/-- TCLEAR (Table 21.12). -/
def Tenant.clearWord (t : Tenant) : DWord := regWord [(63, t.clearBusy.toNat), (62, t.clearRefused.toNat)]

/-- TINTR (Table 25.3). -/
def Tenant.intrWord (t : Tenant) : DWord := regWord [(32, t.tintrCount), (0, t.tintrBase)]

/-- CLUSOWN (Table 21.3). -/
def Cluster.word (k : Cluster) : DWord := regWord [(31, k.busy.toNat), (30, k.owned.toNat), (0, k.tenant)]

/-- CORECTL (Table 22.8); STEP and RESET read zero. -/
def CoreCtl.word (c : CoreCtl) : DWord :=
  regWord [(63, c.attach.toNat), (62, c.halt.toNat), (58, c.dstat), (57, c.pgate.toNat), (55, c.pstat), (20, c.quad),
    (16, c.place), (0, c.lane)]

/-- STKAGE of a stack: 7 until it is written (Table 10.4). -/
def State.age (s : State) (stack : Nat) : Nat := Tab.get s.stkage stack 7

/-- EVTTAIL (R335). -/
def State.tailWord (s : State) : DWord := regWord [(63, s.evtFull.toNat), (0, s.evtTail % 2 ^ 63)]

/-- The record in a slot of the event ring: the last 256 records stand at their numbers mod 256 (R335). -/
def State.ringSlot (s : State) (slot : Nat) : Option Event :=
  let first := s.evtTail - s.events.length
  (s.events.zip (List.range s.events.length)).findSome? fun e =>
    if (first + e.2) % Config.eventRing = slot then some e.1 else none

/-- The two words of an event record: code, die and unit, then the address. -/
def Event.words (e : Event) : DWord × DWord := (regWord [(0, e.code), (16, e.die), (32, e.unit)], BitVec.ofNat 64 e.addr)

/-- LCSTATE (Table 25.6). -/
def State.lcWord (s : State) : DWord := regWord [(40, s.lcLeft.toNat), (8, s.nonce.toNat), (0, s.lifecycle)]

/-- LCREQ reads its RESULT (Table 25.7). -/
def State.lcreqWord (s : State) : DWord := regWord [(56, s.lcResult)]

/-- The mailbox registers, at offsets from their base (Table 25.8); GO and CMD read zero. -/
def State.mailboxWord (s : State) (off : Nat) : Option DWord :=
  let m := s.mailbox
  match off with
  | 0x00 => some 0
  | 0x08 => some (regWord [(0, m.len)])
  | 0x10 => some (regWord [(0, m.off)])
  | 0x18 => some (regWord [(0, m.cnt)])
  | 0x20 => some (regWord [(63, m.busy.toNat), (0, m.result)])
  | 0x28 => some (regWord [(0, m.kind.toNat)])
  | 0x30 => some s.lcWord
  | _ => none

/-- The mailbox's data window. -/
def State.windowWord (s : State) (off : Nat) : DWord :=
  BitVec.ofNat 64 (leValue ((List.range 8).map fun k => Tab.get s.mailbox.window (off + k) 0))

/-- Registers of the package management block that come one a tenant, by their offset. -/
def State.tenantWord (s : State) (off : Nat) : Option DWord :=
  match inArray off 0x1400 4 16, inArray off 0x2000 8 64, inArray off 0x3A00 8 16, inArray off 0x3C00 8 16 with
  | some t, _, _, _ => some (regWord [(0, (s.tenant t).slice)])
  | _, some k, _, _ =>
    let t := s.tenant (k / 4)
    some (match k % 4 with | 0 => t.rootWord | 1 => t.addrWord | 2 => t.invWord | _ => t.ringWord)
  | _, _, some t, _ => some (s.tenant t).clearWord
  | _, _, _, some t => some (s.tenant t).intrWord
  | _, _, _, _ => none

/-- Registers that come one a queue, cluster, die, core, stack or channel, and the write-only FRES. -/
def State.unitWord (s : State) (off : Nat) : Option DWord :=
  match inArray off 0x1000 8 64, inArray off 0x3000 4 96, inArray off 0x3400 8 8, inArray off 0x3800 8 16,
    inArray off 0x4000 16 768 with
  | some q, _, _, _, _ => some (s.queue q).word
  | _, some k, _, _, _ => some (s.cluster k).word
  | _, _, some d, _, _ => some (regWord [(0, s.hwBase d)])
  | _, _, _, some _, _ => some 0
  | _, _, _, _, some c => some (s.core c).ctl.word
  | _, _, _, _, _ => none

/-- The Valern controller's event ring and life-cycle registers. -/
def State.valernWord (s : State) (off : Nat) : Option DWord :=
  if off = 0x7000 then some s.tailWord
  else if 0x7100 ≤ off ∧ off < 0x7100 + 16 * Config.eventRing ∧ off % 8 = 0 then
    match s.ringSlot ((off - 0x7100) / 16) with
    | some e => some (if off % 16 = 0 then e.words.1 else e.words.2)
    | none => some 0
  else if off = 0x9100 then some s.lcWord
  else if off = 0x9108 then some s.lcreqWord
  else if off = 0x9110 then some Config.serial
  else none

/-- Registers of stack s's block at 0x10_0000 + 0x1000 × s: STKAGE and CHPWR. -/
def State.stackWord (s : State) (off : Nat) : Option DWord :=
  let st := (off - 0x100000) / 0x1000
  if off < 0x100000 ∨ 16 ≤ st then none
  else if off % 0x1000 = 0x40 then some (regWord [(0, s.age st)])
  else match inArray (off % 0x1000) 0x100 8 32 with
    | some c => some (s.channel st c).word
    | none => none

/-- A read of BAR0. RETIRED leaves LCSTATE and LCSERIAL; recovery mode leaves the mailbox, from offset 0 (R337 to
R339). -/
def State.readBar0 (s : State) (off : Nat) : Option DWord :=
  if s.cxlDown then none
  else if s.lifecycle = 4 then
    if off = 0x9100 then some s.lcWord else if off = 0x9110 then some Config.serial else none
  else if 0x80000 ≤ off ∧ off + 8 ≤ 0x100000 then some (s.windowWord (off - 0x80000))
  else if s.recovery then s.mailboxWord off
  else if 0x9000 ≤ off ∧ off < 0x9038 then s.mailboxWord (off - 0x9000)
  else (((s.tenantWord off).or (s.unitWord off)).or (s.valernWord off)).or (s.stackWord off)

/-- A read of BAR2: core c's debug window at 0x2000 × c (R330, R336). -/
def State.readBar2 (s : State) (off : Nat) : Option Word :=
  if s.registersOpen && decide (off / 0x2000 < 768) then some (s.readDebug (off / 0x2000) (off % 0x2000)) else none

end Sys2Proof.Machine
end

