-- ==== Sys2Proof/Safety.lean ====
section
/-! DEFINITION. The words that claims are stated in: what a safe step is, what holds when a ply issues, and what an
instruction that only changes its threads leaves unchanged. -/
namespace Sys2Proof

/-- The rows of the table that are events: what the host, a pin or the machine itself does. They have no word. -/
def Instr.isEvent : Instr → Bool
  | .issuePly _ _ => true
  | .instructionFetch _ _ _ => true
  | .classLResult _ _ => true
  | .activeHoldExpired _ _ => true
  | .engineOperation _ => true
  | .mergeContribution _ _ => true
  | .orderedMergeApply _ => true
  | .homeSliceAccess _ _ => true
  | .writeAcknowledged _ => true
  | .mergingFill _ => true
  | .pageWalk _ _ _ => true
  | .controllerAgeCap _ => true
  | .copyRetire _ => true
  | .copyFaultStop _ => true
  | .multicastDelivery _ _ => true
  | .sucWriteMark _ _ => true
  | .splicerRepair _ => true
  | .succinctQuery _ => true
  | .stringUpdatePerform _ => true
  | .sdropPerform _ => true
  | .nmSegmentRun _ => true
  | .nmCommandRetire _ => true
  | .nmCommandFault _ => true
  | .redNmPlace _ => true
  | .rowOperationPerform _ => true
  | .channelPowerEntry _ _ => true
  | .channelWake _ _ => true
  | .channelIdleTimeout _ _ => true
  | .chpwrActive _ _ => true
  | .chpwrSelfRefresh _ _ => true
  | .chpwrPowerDown _ _ => true
  | .thermalSelfRefresh _ _ _ => true
  | .qctlWrite _ _ => true
  | .queueWatchWake _ => true
  | .recordDispatch _ => true
  | .teamPlace => true
  | .teamEnd _ => true
  | .stopReport _ => true
  | .queueManagerAccess _ => true
  | .priorityGraceExpired _ => true
  | .timeSliceExpired _ => true
  | .teamSave _ => true
  | .waitvWake _ => true
  | .waitvPoll _ => true
  | .barrierStall _ => true
  | .signalApply _ => true
  | .solicitAdmit _ _ => true
  | .responderStart _ => true
  | .responderEnd _ _ => true
  | .censusComplete _ => true
  | .forwardArrive _ => true
  | .moveRegister _ => true
  | .sourceEntryGone _ _ => true
  | .entryGone _ _ => true
  | .trootWrite _ _ => true
  | .clusownWrite _ _ => true
  | .clusterResponderTimeout _ => true
  | .ownerChangeComplete _ => true
  | .tclearWrite _ _ => true
  | .invctlWrite _ _ => true
  | .invalidationComplete _ => true
  | .fqbaseWrite _ _ => true
  | .fresRetry _ _ => true
  | .fresFail _ _ => true
  | .fresAck _ _ => true
  | .lostWrite _ => true
  | .cxlRequestTimeout _ => true
  | .cxlLinkDown => true
  | .flalenLinkDown _ => true
  | .hostMemRead _ _ => true
  | .hostMemWrite _ _ => true
  | .peerRequest _ _ _ _ => true
  | .hostSnoop _ => true
  | .corectlAttach _ _ => true
  | .corectlHalt _ _ => true
  | .corectlStep _ _ _ _ => true
  | .corectlReset _ => true
  | .corectlPgate _ _ => true
  | .coreGated _ => true
  | .coreWoken _ => true
  | .debugWindowWrite _ _ _ => true
  | .coreLost _ => true
  | .uncorrectableError _ => true
  | .correctedError _ => true
  | .selfTest _ _ => true
  | .succinctUnitFailure _ => true
  | .coldReset => true
  | .lcreqWrite _ => true
  | .mailboxBegin => true
  | .mailboxChunk => true
  | .mailboxCommit => true
  | .mailboxAbort => true
  | .tintrWrite _ _ => true
  | .evttailWrite _ => true
  | .reefStepDown => true
  | .reefStepUp => true
  | .registerWrite _ _ => true
  | .tenantClearComplete _ => true
  | .mailboxCommandComplete => true
  | _ => false

/-- The instructions that a ply runs thread by thread, in ascending lane order, each thread on the state that the one
before it leaves: all of the table but the lane operations (R73), the branches on the whole ply (R78) and the
operations of the tile engine, which a ply enters whole (R103). -/
def Instr.inTurn (i : Instr) : Bool :=
  i.encode.isSome && (match i with
    | .shflIdx _ _ _ _ => false
    | .shflUp _ _ _ _ => false
    | .shflDown _ _ _ _ => false
    | .shflXor _ _ _ _ => false
    | .voteAny _ _ _ => false
    | .voteAll _ _ _ => false
    | .voteBallot _ _ _ => false
    | .matchLanes _ _ _ _ => false
    | .elect _ _ => false
    | .scanAdd _ _ _ => false
    | .scanAddEx _ _ _ => false
    | .scanMin _ _ _ => false
    | .scanMax _ _ _ => false
    | .lmask _ _ => false
    | .brcAny _ _ _ _ => false
    | .brcAll _ _ _ _ => false
    | .ksetImm _ _ _ => false
    | .kset _ _ _ => false
    | .tld _ _ _ _ => false
    | .tldDr _ _ _ _ => false
    | .tst _ _ _ _ => false
    | .tstDr _ _ _ _ => false
    | .tldq _ _ _ _ _ => false
    | .tzero _ _ _ => false
    | .tmma _ _ _ _ _ _ => false
    | .tcvt _ _ _ _ _ => false
    | .tmergeI64 _ _ _ _ _ => false
    | .tmergeF64 _ _ _ _ _ => false
    | .tmergeF64Ord _ _ _ _ _ => false
    | .tmread _ _ _ _ _ => false
    | .tbfy _ _ _ _ => false
    | _ => true)

end Sys2Proof

namespace Sys2Proof.Machine
open Sys2Proof

/-- A step is safe when it goes on. -/
def Safe (s : State) : Prop := ∃ t, step s = .next t

/-- Device memory is in its canonical form. -/
def State.MemOk (s : State) : Prop := Memory.wf s.mem = true

/-- The tables of teams, of a team's groups and of a group's threads list their keys in ascending order, each once. -/
def State.Orderly (s : State) : Prop :=
  s.teams.Pairwise (fun x y => x.1 < y.1) ∧ ∀ t ∈ s.teams, t.2.groups.Pairwise (fun x y => x.1 < y.1) ∧
    ∀ g ∈ t.2.groups, g.2.threads.Pairwise (fun x y => x.1 < y.1)

/-! ### Threads before and after their instruction -/

/-- A thread as its instruction finds it: it has left its GSYNC, and a switch point has closed the registers and
predicates left unspecified before it (R27, R248). -/
def Thread.entering (i : Instr) (t : Thread) : Thread :=
  { t with
    joined := 0
    unspec := if i.parks then [] else t.unspec
    unspecPreds := if i.parks then [] else t.unspecPreds }

/-- A thread that goes on at `pc` from tick `n` on (R12, R240). -/
def Thread.goingTo (pc : DWord) (n : Nat) (t : Thread) : Thread :=
  { t with pc := pc, status := .ready, wait := .none, readyAt := n, replay := none }

/-- A thread that goes on after its instruction: at the next word, or at frame.PC when TRET.RE ran the instruction
once more (R31, R297). -/
def Thread.leaving (n : Nat) (t : Thread) : Thread :=
  { t.goingTo (t.replay.getD (t.pc + 4)) n with after := [], waitOp := none, xfault := none }

/-- Register v`k` takes `v`, and loses its poison (R17, R304). -/
def Thread.write (t : Thread) (k : Nat) (v : Word) : Thread :=
  { t with regs := Tab.put t.regs (t.index k) v, poison := t.poison.filter (· != t.index k) }

/-- The pair v`k`:v`k + 1` takes `v`, low word first (R18). -/
def Thread.writePair (t : Thread) (k : Nat) (v : DWord) : Thread :=
  (t.write k (v.extractLsb' 0 32)).write (k + 1) (v.extractLsb' 32 32)

/-- A register, or a pair, takes `v`. -/
def Thread.writeWidth (t : Thread) (w : Width) (k : Nat) (v : DWord) : Thread :=
  match w with
  | .w32 => t.write k (v.setWidth 32)
  | .w64 => t.writePair k v

/-- p`k` takes `b`; p0 stays (R19). -/
def Thread.writePred (t : Thread) (k : Nat) (b : Bool) : Thread :=
  if k = 0 then t
  else { t with preds := if b then t.preds ||| (1#8 <<< k) else t.preds &&& ~~~(1#8 <<< k) }

/-- FLAGS gains bits (R50). -/
def Thread.orFlags (t : Thread) (f : BitVec 6) : Thread := { t with flags := t.flags ||| f }

/-- No class-L result is due to the `n` registers from v`k`, and none was left unspecified since the last switch
point (R26, R27). -/
def Thread.settled (t : Thread) (k n : Nat) : Prop :=
  ∀ j, j < n → t.outstanding (t.index (k + j)) = false ∧ t.unspec.contains (t.index (k + j)) = false

/-- p`k` is no result that is due, and was not left unspecified since the last switch point (R26, R27, R59). -/
def Thread.predSettled (t : Thread) (k : Nat) : Prop :=
  k = 0 ∨ (t.predOutstanding k = false ∧ t.unspecPreds.contains k = false)

/-! ### A ply in issue -/

/-- The ply `p` is in issue with the instruction `i`, and every one of its threads passes the checks before it. -/
structure Issuing (s : State) (i : Instr) (p : Ply) : Prop where
  ply : s.ply = some p
  distinct : p.members.Nodup
  here : ∀ th ∈ p.members, s.holds th = true
  pass : ∀ th ∈ p.members, s.gate i p.word th = .pass

/-- `t` is `s` but for threads of `ms` and the end of the ply: every other field of the state, every other thread,
what a team and a group hold beside their threads, and every byte of memory stand as before. -/
structure OnlyThreads (s t : State) (ms : List ThreadRef) : Prop where
  rest : t = { s with teams := t.teams, ply := t.ply }
  teams : ∀ n, { t.team n with groups := [] } = { s.team n with groups := [] }
  groups : ∀ n g, { (t.team n).group g with threads := [] } = { (s.team n).group g with threads := [] }
  threads : ∀ th, th ∉ ms → t.thread th = s.thread th
  bytes : ∀ a, Memory.read t.mem a = Memory.read s.mem a

/-- The ply has run: each of its threads is as `f` gives it, nothing else has changed, and the ply is over. -/
structure Ran (s t : State) (p : Ply) (f : ThreadRef → Thread) : Prop where
  ended : t.ply = none
  members : ∀ th ∈ p.members, t.thread th = f th
  frame : OnlyThreads s t p.members

/-- The instruction runs to its end in every thread of the ply: `f` gives each thread's own effect on the thread as
the instruction finds it, and the thread goes on at the next word. -/
def Completes (s : State) (i : Instr) (p : Ply) (f : ThreadRef → Thread → Thread) : Prop :=
  ∃ t, exec i s = .next t ∧ Ran s t p fun th => (f th ((s.thread th).entering i)).leaving s.tick

/-- The instruction runs to its end in every thread of the ply, and each thread goes where `target` says. -/
def Jumps (s : State) (i : Instr) (p : Ply) (f : ThreadRef → Thread → Thread) (target : ThreadRef → DWord) : Prop :=
  ∃ t, exec i s = .next t ∧
    Ran s t p fun th => (f th ((s.thread th).entering i)).goingTo (target th) s.tick

/-- The destination registers of every thread of the ply are settled when the instruction finds them. -/
def Settled (s : State) (i : Instr) (p : Ply) (k n : Nat) : Prop :=
  ∀ th ∈ p.members, ((s.thread th).entering i).settled k n

/-- The destination predicate of every thread of the ply is settled when the instruction finds it. -/
def SettledPred (s : State) (i : Instr) (p : Ply) (k : Nat) : Prop :=
  ∀ th ∈ p.members, ((s.thread th).entering i).predSettled k

/-- The threads that a lane operation acts on: the ply's, each as it stands before the instruction (R14, R73). -/
def State.lanesOf (s : State) (p : Ply) : List (ThreadRef × Thread) :=
  p.members.map fun th => (th, { s.thread th with joined := 0 })

/-! ### What an instruction writes, for every ply that issues it -/

/-- The instruction writes v`d` of each thread of the ply with `f` of that thread, and nothing else of it (R59). -/
def WritesReg (i : Instr) (d : BitVec 7) (f : Thread → Word) : Prop :=
  ∀ s p, Issuing s i p → Settled s i p d.toNat 1 → Completes s i p fun _ u => u.write d.toNat (f u)

/-- The same, of the pair v`d`:v`d + 1`. -/
def WritesPair (i : Instr) (d : BitVec 7) (f : Thread → DWord) : Prop :=
  ∀ s p, Issuing s i p → Settled s i p d.toNat 2 → Completes s i p fun _ u => u.writePair d.toNat (f u)

/-- The same, of a register or a pair. -/
def WritesWidth (i : Instr) (w : Width) (d : BitVec 7) (f : Thread → DWord) : Prop :=
  ∀ s p, Issuing s i p → Settled s i p d.toNat w.regs → Completes s i p fun _ u => u.writeWidth w d.toNat (f u)

/-- The instruction writes p`q` of each thread of the ply with `f` of that thread; a write to p0 is ignored (R19). -/
def WritesPred (i : Instr) (q : BitVec 3) (f : Thread → Bool) : Prop :=
  ∀ s p, Issuing s i p → SettledPred s i p q.toNat → Completes s i p fun _ u => u.writePred q.toNat (f u)

/-- The instruction writes v`d` and ORs bits into FLAGS. -/
def WritesRegFlags (i : Instr) (d : BitVec 7) (f : Thread → Word × BitVec 6) : Prop :=
  ∀ s p, Issuing s i p → Settled s i p d.toNat 1 →
    Completes s i p fun _ u => (u.write d.toNat (f u).1).orFlags (f u).2

/-- The instruction writes the pair v`d`:v`d + 1` and ORs bits into FLAGS. -/
def WritesPairFlags (i : Instr) (d : BitVec 7) (f : Thread → DWord × BitVec 6) : Prop :=
  ∀ s p, Issuing s i p → Settled s i p d.toNat 2 →
    Completes s i p fun _ u => (u.writePair d.toNat (f u).1).orFlags (f u).2

/-- The instruction writes p`q` and ORs bits into FLAGS. -/
def WritesPredFlags (i : Instr) (q : BitVec 3) (f : Thread → Bool × BitVec 6) : Prop :=
  ∀ s p, Issuing s i p → SettledPred s i p q.toNat →
    Completes s i p fun _ u => (u.writePred q.toNat (f u).1).orFlags (f u).2

/-- A lane operation writes v`d` of each thread with `f` of the ply's threads, the thread's lane and the thread. -/
def WritesLane (i : Instr) (d : BitVec 7) (f : List (ThreadRef × Thread) → Nat → Thread → Word) : Prop :=
  ∀ s p, Issuing s i p → Settled s i p d.toNat 1 →
    Completes s i p fun th u => u.write d.toNat (f (s.lanesOf p) th.lane u)

def WritesLanePair (i : Instr) (d : BitVec 7) (f : List (ThreadRef × Thread) → Nat → Thread → DWord) : Prop :=
  ∀ s p, Issuing s i p → Settled s i p d.toNat 2 →
    Completes s i p fun th u => u.writePair d.toNat (f (s.lanesOf p) th.lane u)

def WritesLanePred (i : Instr) (q : BitVec 3) (f : List (ThreadRef × Thread) → Nat → Bool) : Prop :=
  ∀ s p, Issuing s i p → SettledPred s i p q.toNat →
    Completes s i p fun th u => u.writePred q.toNat (f (s.lanesOf p) th.lane)

/-! ### Traps -/

/-- A thread that has entered its trap handler (R296): the trap registers hold the report, the frame holds what TRET
restores, the window base is 0 and the thread is ready at HANDLER. -/
def Thread.trapped (r : Report) (imprecise : Bool) (back handler : DWord) (n : Nat) (t : Thread) : Thread :=
  { t with
    trap := r, imprecise := imprecise, inHandler := true
    frame := ⟨back, t.win, t.preds, [t.reg 28, t.reg 29, t.reg 30, t.reg 31]⟩
    win := 0, pc := handler, status := .ready, wait := .none, readyAt := n
    replay := none, xfault := none, after := [], waitOp := none }

/-- After a marker-precise trap the other faults of the switch point wait until it is reached again (R295). -/
def Thread.shelving (k : Precision) (t : Thread) : Thread :=
  if k = .marker then { t with faults := [], shelved := t.faults } else t

/-- The thread takes its traps in a handler: its grid names one, and the thread is no responder and not in it yet
(R264, R296). -/
def State.handles (s : State) (th : ThreadRef) : Prop :=
  isResponder th = false ∧ (s.gridOf th.team).handler ≠ 0 ∧ (s.thread th).inHandler = false

/-- Every thread of the ply takes a precise trap, with its pc, `code`, `addr` and `aux` in the trap registers, and
nothing else changes (R295, R296). -/
def Traps (s : State) (i : Instr) (p : Ply) (code : Word) (addr aux : ThreadRef → DWord) : Prop :=
  ∃ t, exec i s = .next t ∧ Ran s t p fun th =>
    let u := (s.thread th).entering i
    u.trapped ⟨u.pc, code, addr th, aux th⟩ false u.pc (s.gridOf th.team).handler s.tick

/-- Every thread of the ply takes the trap of its check before the instruction, as Table 3.6 orders them: the
instruction itself does nothing. -/
structure Barred (s : State) (i : Instr) (p : Ply) (code : Word) (addr aux : ThreadRef → DWord) : Prop where
  ply : s.ply = some p
  distinct : p.members.Nodup
  here : ∀ th ∈ p.members, s.holds th = true
  gate : ∀ th ∈ p.members, s.gate i p.word th = .trap code (addr th) (aux th)
  alone : ∀ th ∈ p.members, (s.thread th).joined = 0
  handles : ∀ th ∈ p.members, s.handles th

/-! ### Exact values of floating point -/

/-- The value of a finite operand (R45). -/
def Num.rat : Num → ℚ
  | .fin neg mag exp => (if neg then -1 else 1) * (mag : ℚ) * 2 ^ exp
  | _ => 0

/-- An exact value rounded to an integer in a mode (R48). -/
def integerIn (m : Rm) (x : ℚ) : ℤ :=
  match m with
  | .rup => ⌈x⌉
  | .rdn => ⌊x⌋
  | .rtz => if x < 0 then ⌈x⌉ else ⌊x⌋
  | .rne => if x - ⌊x⌋ < 1 / 2 ∨ (x - ⌊x⌋ = 1 / 2 ∧ ⌊x⌋ % 2 = 0) then ⌊x⌋ else ⌊x⌋ + 1

/-- Round of an exact value; a zero takes the sign `neg` (R48). -/
def Ctx.round (c : Ctx) (neg : Bool) (x : ℚ) : Nat × Raised :=
  if x = 0 then c.zero neg else c.finish (decide (x < 0)) x.num.natAbs x.den 0

/-- The answer of an operation on `xs` whose exact value is `x`, or an infinity of sign `inf`, with the NaNs of Table
6.2. -/
def Ctx.answer (c : Ctx) (xs : List Num) (invalid : Bool) (inf : Option Bool) (neg : Bool) (x : ℚ) : Nat × Raised :=
  if xs.any Num.isSig || invalid then c.nan true
  else if xs.any Num.isNan then c.nan false
  else match inf with
    | some b => c.inf b
    | none => c.round neg x

/-- R84, R85: the answer of a sum, a product, a fused product and sum, and a quotient. -/
def Ctx.sum (c : Ctx) (a b : Num) : Nat × Raised :=
  c.answer [a, b] (a.isInf && b.isInf && a.neg? != b.neg?)
    (if a.isInf then some a.neg? else if b.isInf then some b.neg? else none)
    (if a.isZero && b.isZero && a.neg? == b.neg? then a.neg? else c.m == .rdn) (a.rat + b.rat)
def Ctx.product (c : Ctx) (a b : Num) : Nat × Raised :=
  c.answer [a, b] ((a.isZero && b.isInf) || (a.isInf && b.isZero))
    (if a.isInf || b.isInf then some (a.neg? != b.neg?) else none) (a.neg? != b.neg?) (a.rat * b.rat)
def Ctx.fused (c : Ctx) (a b d : Num) : Nat × Raised :=
  let neg := a.neg? != b.neg?
  let inf := a.isInf || b.isInf
  c.answer [a, b, d]
    ((a.isZero && b.isInf) || (a.isInf && b.isZero) || (inf && !a.isNan && !b.isNan && d.isInf && neg != d.neg?))
    (if inf then some neg else if d.isInf then some d.neg? else none)
    (if (a.isZero || b.isZero) && d.isZero && neg == d.neg? then neg else c.m == .rdn) (a.rat * b.rat + d.rat)
def Ctx.quotient (c : Ctx) (a b : Num) : Nat × Raised :=
  if !a.isNan && !a.isInf && !a.isZero && b.isZero then ((c.inf (a.neg? != b.neg?)).1, { dz := true })
  else c.answer [a, b] ((a.isZero && b.isZero) || (a.isInf && b.isInf))
    (if a.isInf then some (a.neg? != b.neg?) else none) (a.neg? != b.neg?) (a.rat / b.rat)

/-- What a register, or a pair, and FLAGS take of an answer. -/
def single (r : Nat × Raised) : Word × BitVec 6 := (BitVec.ofNat 32 r.1, r.2.bits)
def double (r : Nat × Raised) : DWord × BitVec 6 := (BitVec.ofNat 64 r.1, r.2.bits)

/-- A word that is no NaN as a signed integer that orders as its value does, with both zeros at 0 (R45). -/
def FmtSpec.rank (f : FmtSpec) (w : Nat) : ℤ :=
  if w / f.signBit % 2 = 1 then -(w % f.signBit : ℕ) else (w % f.signBit : ℕ)

/-! ### A ply of one thread -/

/-- The thread `th` alone is in issue with the instruction `i`, and passes the checks before it. -/
structure Alone (s : State) (i : Instr) (th : ThreadRef) : Prop where
  ply : ∃ p, s.ply = some p ∧ p.members = [th] ∧ s.gate i p.word th = .pass
  here : s.holds th = true

/-- The state as the thread's instruction finds it. -/
def State.entered (s : State) (i : Instr) (th : ThreadRef) : State :=
  s.modThread th (Thread.entering i)

/-- The thread alone ends its instruction as `f` gives it, and all else of the state is as `u` has it. -/
def Ends (s : State) (i : Instr) (th : ThreadRef) (f : Thread → Thread) (u : State) : Prop :=
  exec i s = .next { u.modThread th fun x => f (x.entering i) with ply := none }

/-- The thread alone runs the instruction to its end: it takes `f` and goes on at the next word, and all else of the
state is as `u` has it. -/
def Does (s : State) (i : Instr) (th : ThreadRef) (f : Thread → Thread) (u : State) : Prop :=
  Ends s i th (fun x => (f x).leaving s.tick) u

/-- The thread alone issues an instruction of the tile engine, which a ply enters whole (R103): for the first time, or
once more after it has waited alone. -/
structure Enters (s : State) (i : Instr) (th : ThreadRef) : Prop where
  alone : Alone s i th
  own : ∀ p, s.ply = some p → p.team = th.team
  fresh : (s.thread th).waitOp = none
  free : (s.thread th).wait = .none
  first : ∀ o ∈ (s.team th.team).plies, o.rest = [th] → o.entered = []

/-- The thread waits no more at the head of its ply. -/
def State.closing (s : State) (th : ThreadRef) : State :=
  s.modTeam th.team fun t => { t with plies := t.plies.filter (· != ⟨[], [th]⟩) }

/-- The state as the thread's tile operation enters its team's queue: a team that finds the engine free takes it, with
its count at 0 (R107). -/
def State.queueing (s : State) (th : ThreadRef) : State :=
  if s.leaseHeld (s.coreOf th) then s.closing th
  else (s.closing th).setCore (s.coreOf th) { s.core (s.coreOf th) with lease := some (th.team, 0) }

/-- The thread alone traps at its instruction, precise, and nothing else changes (R295). -/
def Falls (s : State) (i : Instr) (th : ThreadRef) (code : Word) (addr aux : DWord) : Prop :=
  Ends s i th (fun v => v.trapped ⟨v.pc, code, addr, aux⟩ false v.pc (s.gridOf th.team).handler s.tick) s

/-- A thread that blocks with `w` (R12). -/
def Thread.blocking (w : Wait) (n : Nat) (t : Thread) : Thread :=
  { t with status := .blocked, wait := w, blockedAt := n, shown := none }

/-- The thread alone runs the instruction and blocks with `w`. -/
def Blocks (s : State) (i : Instr) (th : ThreadRef) (w : Wait) (f : Thread → Thread) (u : State) : Prop :=
  Ends s i th (fun x => (f x).blocking w (s.cyclesOf (s.coreOf th))) u

/-! ### Memory accesses -/

/-- The thread's access of `n` bytes at `va` passes the checks of Tables 12.1 and 21.7, and lies in the pieces `segs`
of its pages (R171, R288). -/
structure Reached (s : State) (th : ThreadRef) (x : Need) (va : DWord) (n align : Nat)
    (segs : List (Nat × Nat × Leaf)) : Prop where
  low : va.toNat < 2 ^ 57
  aligned : va.toNat % align = 0
  clear : (s.thread th).xfault = none
  pages : s.reach (s.coreOf th) (s.tenantOf th) x va.toNat n = .ok segs

/-- The thread's instruction has sent the request `r`, the last of those in flight: the thread has taken `f` but for
its holds and goes on at the next word; every other thread, and every byte of memory, stands as before. -/
structure Sent (s t : State) (i : Instr) (th : ThreadRef) (r : Req) (f : Thread → Thread) : Prop where
  ended : t.ply = none
  last : t.reqs.getLast? = some r
  length : t.reqs.length = s.reqs.length + 1
  number : t.nextId = s.nextId + 1
  thread : { t.thread th with holds := [] } = { (f ((s.thread th).entering i)).leaving s.tick with holds := [] }
  threads : ∀ u, u ≠ th → t.thread u = s.thread u
  bytes : ∀ a, Memory.read t.mem a = Memory.read s.mem a

/-- The same of a store, before which the lines that it moves from another alias are filled (R141): the fills of `r`'s
lines stand between the requests in flight before and `r`. -/
structure SentAfterFills (s t : State) (i : Instr) (th : ThreadRef) (r : Req) (f : Thread → Thread) : Prop where
  ended : t.ply = none
  requests : ∃ old fills, t.reqs = old ++ fills ++ [r] ∧ r.id = s.nextId + fills.length ∧ t.nextId = r.id + 1 ∧
    old.map (fun q => (q.id, q.kind, q.th)) = s.reqs.map (fun q => (q.id, q.kind, q.th)) ∧
    (∀ q ∈ fills, q.kind = .prefetch ∧ q.th = th) ∧
    ((∀ c ∈ (s.core (s.coreOf th)).l1, ∀ x ∈ r.parts, c.loc ≠ x.loc.line) → fills = [])
  thread : { t.thread th with holds := [] } = { (f ((s.thread th).entering i)).leaving s.tick with holds := [] }
  threads : ∀ u, u ≠ th → t.thread u = s.thread u
  bytes : ∀ a, Memory.read t.mem a = Memory.read s.mem a

/-- A class-L operation stands outstanding (R26): `n` registers from v`k` wait for its result. -/
def Thread.awaits (op k n : Nat) (q : Option Nat) (x : Option Result) (batch : Nat) (t : Thread) : Thread :=
  { t with outs := t.outs ++ [⟨op, t.indices k n, q, x, batch⟩] }

/-- The registers of a loaded value: a byte or a half word is extended as its size says (Table 12.2). -/
def extendedLoad (q : LdQ) (v : Nat) : List Word :=
  match q with
  | .n8 => [(BitVec.ofNat 8 v).setWidth 32]
  | .i8 => [(BitVec.ofNat 8 v).signExtend 32]
  | .n16 => [(BitVec.ofNat 16 v).setWidth 32]
  | .i16 => [(BitVec.ofNat 16 v).signExtend 32]
  | q => (List.range q.regs).map fun j => BitVec.ofNat 32 (v / 2 ^ (32 * j))

/-- The little-endian value of `n` bytes, and byte `k` of a value (R3). -/
def valueOf (byte : Nat → Byte) (n : Nat) : Nat := ((List.range n).map fun k => (byte k).toNat * 256 ^ k).sum
def byteOf (v k : Nat) : Byte := BitVec.ofNat 8 (v / 256 ^ k)

/-- A byte of a team's scratchpad. -/
def Team.scratchByte (t : Team) (a : Nat) : Byte := Tab.get t.scratch a 0

/-- The scratchpad holds the `n` bytes of `v` at `a`, and else what it held. -/
def ScratchTakes (t : Team) (sc : Tab Byte) (a n v : Nat) : Prop :=
  ∀ k, Tab.get sc k 0 = if a ≤ k ∧ k < a + n then byteOf v (k - a) else t.scratchByte k

/-- The bytes `bs` have landed at `l`, and every other byte of the part, the host and the peers stands as before. -/
def Landed (s t : State) (l : Loc) (bs : List Byte) : Prop :=
  (∀ k, k < bs.length → t.byteAt (l.plus k) = bs.getD k 0) ∧
    ∀ m, (∀ k, k < bs.length → m ≠ l.plus k) → t.byteAt m = s.byteAt m

/-- The words of a value, the lowest first. -/
def wordsOf (v n : Nat) : List Word := (List.range n).map fun j => BitVec.ofNat 32 (v / 2 ^ (32 * j))

/-- The thread's outstanding operation `op` has the result `x`, and the others what they had. -/
def Answered (s t : State) (th : ThreadRef) (op : Nat) (x : Result) : Prop :=
  (t.thread th).outs = (s.thread th).outs.map fun o => if o.op = op then { o with result := some x } else o

end Sys2Proof.Machine
end

