-- ==== Sys2Proof/Certificates/Slice0/Obligations.lean ====
section
/-! DEFINITION. What is claimed of the machine, for the provers: one statement per name. An instruction of a ply is
stated for every ply that issues it (Issuing): its threads are distinct, the state holds them, and each passes the
checks that stand before an instruction. -/

open Sys2Proof Sys2Proof.Machine

/-! ### Integer, lane and control-flow instructions -/

/-- R60: the arithmetic instructions of Table 5.1, but those of R61 to R63. The saturating forms take the exact result
to the nearest value of the type's range and set SAT (FLAGS bit 5, R50) when that changes it. R61: with c the
predicate that F names (p0 reads true), IADDC writes the low word of the exact sum and the carry out of 2^32; ISUBB
the low word of the exact difference and whether it is negative. A write to p0 is lost. R62 and R63: the parts of the
exact product that IMUL and IMULH keep, and the truncated quotient and its remainder, with all ones and the dividend
for a zero divisor; F names their type. -/
def Obligations.IntegerArithmetic : Prop :=
  (∀ (sw : Bool) (d a b : BitVec 7) (w : Width) (t : Sgn) (k : BitVec 10),
     WritesWidth (.iadd sw d a b w) w d (fun u => u.value w a + u.value w b) ∧
     WritesWidth (.isub sw d a b w) w d (fun u => u.value w a - u.value w b) ∧
     WritesRegFlags (.iaddSat sw d a b t) d (fun u =>
       let x := t.value (u.reg a.toNat) + t.value (u.reg b.toNat)
       let y := max t.low (min t.high x)
       (BitVec.ofInt 32 y, if y = x then 0 else 0x20)) ∧
     WritesRegFlags (.isubSat sw d a b t) d (fun u =>
       let x := t.value (u.reg a.toNat) - t.value (u.reg b.toNat)
       let y := max t.low (min t.high x)
       (BitVec.ofInt 32 y, if y = x then 0 else 0x20)) ∧
     WritesReg (.iaddImm sw d a k) d (fun u => u.reg a.toNat + k.setWidth 32) ∧
     WritesReg (.isubImm sw d a k) d (fun u => u.reg a.toNat - k.setWidth 32) ∧
     WritesWidth (.imad sw d a b w) w d (fun u => u.value w a * u.value w b + u.value w d) ∧
     WritesReg (.imin sw d a b t) d (fun u =>
       if t.value (u.reg a.toNat) ≤ t.value (u.reg b.toNat) then u.reg a.toNat else u.reg b.toNat) ∧
     WritesReg (.imax sw d a b t) d (fun u =>
       if t.value (u.reg b.toNat) ≤ t.value (u.reg a.toNat) then u.reg a.toNat else u.reg b.toNat) ∧
     WritesReg (.iabs sw d a) d (fun u => if (u.reg a.toNat).toInt < 0 then - u.reg a.toNat else u.reg a.toNat) ∧
     WritesReg (.ineg sw d a) d (fun u => - u.reg a.toNat)) ∧
  (∀ (sw : Bool) (d a b : BitVec 7) (c : BitVec 3) (s : State) (p : Ply),
     (Issuing s (.iaddc sw d a b c) p → Settled s (.iaddc sw d a b c) p d.toNat 1 →
       SettledPred s (.iaddc sw d a b c) p c.toNat →
       Completes s (.iaddc sw d a b c) p fun _ u =>
         let x := (u.reg a.toNat).toNat + (u.reg b.toNat).toNat + (u.pred c.toNat).toNat
         (u.write d.toNat (BitVec.ofNat 32 x)).writePred c.toNat (decide (2 ^ 32 ≤ x))) ∧
     (Issuing s (.isubb sw d a b c) p → Settled s (.isubb sw d a b c) p d.toNat 1 →
       SettledPred s (.isubb sw d a b c) p c.toNat →
       Completes s (.isubb sw d a b c) p fun _ u =>
         let x : Int := (u.reg a.toNat).toNat - (u.reg b.toNat).toNat - (u.pred c.toNat).toNat
         (u.write d.toNat (BitVec.ofInt 32 x)).writePred c.toNat (decide (x < 0)))) ∧
  (∀ (sw : Bool) (d a b : BitVec 7) (w : Width) (t : Sgn),
     WritesWidth (.imul sw d a b w) w d (fun u => u.value w a * u.value w b) ∧
     WritesReg (.imulh sw d a b t) d (fun u =>
       BitVec.ofInt 32 (t.value (u.reg a.toNat) * t.value (u.reg b.toNat) / 2 ^ 32)) ∧
     WritesReg (.idiv sw d a b t) d (fun u =>
       if u.reg b.toNat = 0 then 0xFFFFFFFF
       else BitVec.ofInt 32 ((t.value (u.reg a.toNat)).tdiv (t.value (u.reg b.toNat)))) ∧
     WritesReg (.irem sw d a b t) d (fun u =>
       if u.reg b.toNat = 0 then u.reg a.toNat
       else BitVec.ofInt 32 (t.value (u.reg a.toNat) -
         t.value (u.reg b.toNat) * (t.value (u.reg a.toNat)).tdiv (t.value (u.reg b.toNat)))) ∧
     decode (BitVec.ofBool sw ++ 0x07#7 ++ d ++ a ++ b ++ 0#2 ++ (if t = .i32 then 0#1 else 1#1)) = .ok (.idiv sw d a b t) ∧
     decode (BitVec.ofBool sw ++ 0x08#7 ++ d ++ a ++ b ++ 0#2 ++ (if t = .i32 then 0#1 else 1#1)) = .ok (.irem sw d a b t))

/-- Table 5.2: the logic instructions, on registers and on pairs. R65: shifts by a register's whole unsigned value or
by an immediate, as arithmetic on the shifted value: SHL multiplies, SHR divides the unsigned value and SAR the signed
one, rounding toward minus infinity, whatever the amount; ROL rotates by the amount modulo 32. R65 and R66: counts,
bit reversal and bit fields, each said of the bits of the result, with the fields of the immediate that hold the
position and the width. -/
def Obligations.LogicShiftsAndFields : Prop :=
  (∀ (sw : Bool) (d a b : BitVec 7) (w : Width) (k : BitVec 10),
     WritesWidth (.andR sw d a b w) w d (fun u => u.value w a &&& u.value w b) ∧
     WritesWidth (.orR sw d a b w) w d (fun u => u.value w a ||| u.value w b) ∧
     WritesWidth (.xorR sw d a b w) w d (fun u => u.value w a ^^^ u.value w b) ∧
     WritesWidth (.andnR sw d a b w) w d (fun u => u.value w a &&& ~~~(u.value w b)) ∧
     WritesReg (.andImm sw d a k) d (fun u => u.reg a.toNat &&& k.signExtend 32)) ∧
  (∀ (sw : Bool) (d a b : BitVec 7) (w : Width) (n6 : BitVec 6) (n5 : BitVec 5),
     let left (u : Thread) (n : Nat) : DWord := match w with
       | .w32 => BitVec.ofNat 64 ((u.reg a.toNat).toNat * 2 ^ n % 2 ^ 32)
       | .w64 => BitVec.ofNat 64 ((u.pair a.toNat).toNat * 2 ^ n)
     let right (u : Thread) (n : Nat) : DWord := match w with
       | .w32 => BitVec.ofNat 64 ((u.reg a.toNat).toNat / 2 ^ n)
       | .w64 => BitVec.ofNat 64 ((u.pair a.toNat).toNat / 2 ^ n)
     let arith (u : Thread) (n : Nat) : DWord := match w with
       | .w32 => BitVec.ofInt 64 ((u.reg a.toNat).toInt / 2 ^ n)
       | .w64 => BitVec.ofInt 64 ((u.pair a.toNat).toInt / 2 ^ n)
     WritesWidth (.shl sw d a b w) w d (fun u => left u (u.reg b.toNat).toNat) ∧
     WritesWidth (.shlImm sw d a w n6) w d (fun u => left u n6.toNat) ∧
     WritesWidth (.shr sw d a b w) w d (fun u => right u (u.reg b.toNat).toNat) ∧
     WritesWidth (.shrImm sw d a w n6) w d (fun u => right u n6.toNat) ∧
     WritesWidth (.sar sw d a b w) w d (fun u => arith u (u.reg b.toNat).toNat) ∧
     WritesWidth (.sarImm sw d a w n6) w d (fun u => arith u n6.toNat) ∧
     WritesReg (.rol sw d a b) d (fun u => (u.reg a.toNat).rotateLeft ((u.reg b.toNat).toNat % 32)) ∧
     WritesReg (.rolImm sw d a n5) d (fun u => (u.reg a.toNat).rotateLeft n5.toNat)) ∧
  (∀ (sw : Bool) (d a : BitVec 7) (w : Width) (p n : BitVec 5),
     WritesReg (.popc sw d a w) d (fun u => BitVec.ofNat 32 ((List.range 64).filter fun k => (u.value w a).getLsbD k).length) ∧
     (∃ f, WritesReg (.clz sw d a) d f ∧ ∀ u, (f u).toNat ≤ 32 ∧
       (∀ k, k < (f u).toNat → (u.reg a.toNat).getLsbD (31 - k) = false) ∧
       ((f u).toNat < 32 → (u.reg a.toNat).getLsbD (31 - (f u).toNat) = true)) ∧
     (∃ f, WritesReg (.ctz sw d a) d f ∧ ∀ u, (f u).toNat ≤ 32 ∧
       (∀ k, k < (f u).toNat → (u.reg a.toNat).getLsbD k = false) ∧
       ((f u).toNat < 32 → (u.reg a.toNat).getLsbD (f u).toNat = true)) ∧
     (∃ f, WritesReg (.brev sw d a) d f ∧ ∀ u k, k < 32 → (f u).getLsbD k = (u.reg a.toNat).getLsbD (31 - k)) ∧
     (∃ f, WritesReg (.bfxN32 sw d a p n) d f ∧ ∀ u k, k < 32 →
       (f u).getLsbD k = (decide (k ≤ n.toNat) && (u.reg a.toNat).getLsbD (p.toNat + k))) ∧
     (∃ f, WritesReg (.bfxI32 sw d a p n) d f ∧ ∀ u k, k < 32 →
       (f u).getLsbD k = (u.reg a.toNat).getLsbD (min 31 (p.toNat + min k n.toNat))) ∧
     (∃ f, WritesReg (.bfi sw d a p n) d f ∧ ∀ u k, k < 32 →
       (f u).getLsbD k = if p.toNat ≤ k ∧ k ≤ p.toNat + n.toNat then (u.reg a.toNat).getLsbD (k - p.toNat)
         else (u.reg d.toNat).getLsbD k) ∧
     decode (BitVec.ofBool sw ++ 0x11#7 ++ d ++ a ++ p ++ n) = .ok (.bfxN32 sw d a p n) ∧
     decode (BitVec.ofBool sw ++ 0x12#7 ++ d ++ a ++ p ++ n) = .ok (.bfxI32 sw d a p n) ∧
     decode (BitVec.ofBool sw ++ 0x13#7 ++ d ++ a ++ p ++ n) = .ok (.bfi sw d a p n))

/-- R67: ISET writes the comparison of two registers, of two pairs, or of a register and a sign-extended immediate,
signed or unsigned. R68: ISEL selects by a predicate, and PSET combines two; p0 reads true and is not written. -/
def Obligations.CompareAndSelect : Prop :=
  (∀ (sw : Bool) (c : ICond) (g : Bool) (q : BitVec 3) (a b : BitVec 7) (k : BitVec 10),
     let holds (x y : Int) : Bool := match c with
       | .eq => decide (x = y) | .ne => decide (x ≠ y) | .lt => decide (x < y)
       | .le => decide (x ≤ y) | .gt => decide (y < x) | .ge => decide (y ≤ x)
     WritesPred (.iset sw c g q a b .w32) q (fun u =>
       if g then holds (u.reg a.toNat).toInt (u.reg b.toNat).toInt
       else holds (u.reg a.toNat).toNat (u.reg b.toNat).toNat) ∧
     WritesPred (.iset sw c g q a b .w64) q (fun u =>
       if g then holds (u.pair a.toNat).toInt (u.pair b.toNat).toInt
       else holds (u.pair a.toNat).toNat (u.pair b.toNat).toNat) ∧
     WritesPred (.isetImm sw c g q a k) q (fun u =>
       if g then holds (u.reg a.toNat).toInt (k.signExtend 32).toInt
       else holds (u.reg a.toNat).toNat (k.signExtend 32).toNat)) ∧
  (∀ (sw : Bool) (d a b : BitVec 7) (c q x y : BitVec 3),
     WritesReg (.isel sw d a b c) d (fun u => if u.pred c.toNat then u.reg a.toNat else u.reg b.toNat) ∧
     WritesPred (.psetAnd sw q x y) q (fun u => u.pred x.toNat && u.pred y.toNat) ∧
     WritesPred (.psetOr sw q x y) q (fun u => u.pred x.toNat || u.pred y.toNat) ∧
     WritesPred (.psetXor sw q x y) q (fun u => u.pred x.toNat != u.pred y.toNat) ∧
     WritesPred (.psetAndn sw q x y) q (fun u => u.pred x.toNat && !u.pred y.toNat))

/-- R69 and R70: moves, constants and addresses. R71, Table 2.3: GETS reads the special register its selector names,
at issue; an unlisted selector, and an odd D of a 64-bit one, are illegal. SETS FLAGS writes the six flags, and no
other selector is legal. -/
def Obligations.MovesAndSpecialRegisters : Prop :=
  (∀ (sw : Bool) (d a b : BitVec 7) (w : Width) (k17 : BitVec 17) (k10 : BitVec 10) (f : BitVec 3),
     WritesWidth (.mov sw d a w) w d (fun u => u.value w a) ∧
     WritesReg (.movi sw d k17) d (fun _ => k17.signExtend 32) ∧
     WritesReg (.movh sw d k17) d (fun u => k17 ++ (u.reg d.toNat).extractLsb' 0 15) ∧
     WritesPair (.lea sw d a b f) d (fun u =>
       u.pair a.toNat + (u.reg b.toNat).signExtend 64 * BitVec.ofNat 64 (2 ^ f.toNat)) ∧
     WritesPair (.leaImm sw d a k10) d (fun u => u.pair a.toNat + k10.signExtend 64) ∧
     decode (BitVec.ofBool sw ++ 0x1B#7 ++ d ++ a ++ b ++ f) = .ok (.lea sw d a b f) ∧
     decode (BitVec.ofBool sw ++ 0x1C#7 ++ d ++ a ++ k10) = .ok (.leaImm sw d a k10)) ∧
  ((∀ (sw : Bool) (d a : BitVec 7) (k : BitVec 10) (s : State) (p : Ply),
     let word (i : Instr) : DWord := (i.encode.getD 0).setWidth 64
     (∀ (v : ThreadRef → DWord), Issuing s (.gets sw d k) p → Settled s (.gets sw d k) p d.toNat 1 →
       (∀ th ∈ p.members, s.special th k.toNat = some (1, v th)) →
       Completes s (.gets sw d k) p fun th u => u.write d.toNat ((v th).setWidth 32)) ∧
     (∀ (v : ThreadRef → DWord), Issuing s (.gets sw d k) p → Settled s (.gets sw d k) p d.toNat 2 →
       (∀ th ∈ p.members, s.special th k.toNat = some (2, v th)) → d.toNat % 2 = 0 →
       Completes s (.gets sw d k) p fun th u => u.writePair d.toNat (v th)) ∧
     (Issuing s (.sets sw a 0x10) p →
       Completes s (.sets sw a 0x10) p fun _ u => { u with flags := (u.reg a.toNat).setWidth 6 }) ∧
     ((∀ th ∈ p.members, s.handles th) →
       (Issuing s (.gets sw d k) p → (∀ th ∈ p.members, s.special th k.toNat = none) →
         Traps s (.gets sw d k) p 0x002 (fun _ => 0) fun _ => k.setWidth 64) ∧
       (Issuing s (.gets sw d k) p → (∀ th ∈ p.members, ∃ v, s.special th k.toNat = some (2, v)) → d.toNat % 2 = 1 →
         Traps s (.gets sw d k) p 0x002 (fun _ => 0) fun _ => word (.gets sw d k)) ∧
       (Issuing s (.sets sw a k) p → k ≠ 0x10 →
         Traps s (.sets sw a k) p 0x002 (fun _ => 0) fun _ => word (.sets sw a k)))) ∧
   ∀ (s : State) (th : ThreadRef),
     let t := s.thread th
     let m := s.team th.team
     let g := s.grid m.grid
     let w (n : ℕ) : Option (ℕ × DWord) := some (1, BitVec.ofNat 64 n)
     let cluster := m.core % 96 / 8
     (List.range 24).map (s.special th) =
       [w th.lane, w (min th.group 16), w (s.group th).role, w m.index, w (m.index % g.nx), w (m.index / g.nx % g.ny),
         w (m.index / g.nx / g.ny), w g.nx, w g.ny, w g.nz, w (s.group th).quad, w m.core, w cluster, w (m.core / 96),
         w (4 * cluster + m.core % 96 / 2 % 4), some (2, BitVec.ofNat 64 (s.cyclesOf m.core)), w t.flags.toNat, w m.tenant,
         some (2, t.trap.pc), w t.trap.code.toNat, some (2, t.trap.addr), some (2, t.trap.aux), w (s.group th).budget,
         w t.win] ∧
     ∀ n, 24 ≤ n → s.special th n = none)

/-- R74 to R77: the lane operations act on exactly the threads of the issuing ply, each as it stands before the
instruction. -/
def Obligations.LaneOperations : Prop :=
  ∀ (sw : Bool) (d a b : BitVec 7) (q x : BitVec 3) (w : Width),
    let fromLane (ms : List (ThreadRef × Thread)) (l : Int) (u : Thread) : Word :=
      match ms.find? fun e => decide ((e.1.lane : Int) = l) && decide (l ≤ 63) with
      | some e => e.2.reg a.toNat
      | none => u.reg a.toNat
    let mask (ms : List (ThreadRef × Thread)) (f : Thread → Bool) : DWord :=
      ms.foldl (fun m e => if f e.2 then m ||| (1#64 <<< e.1.lane) else m) 0
    let upTo (ms : List (ThreadRef × Thread)) (l : Nat) : List Word :=
      (ms.filter fun e => decide (e.1.lane ≤ l)).map fun e => e.2.reg a.toNat
    WritesLane (.shflIdx sw d a b) d (fun ms _ u => fromLane ms ((u.reg b.toNat).toNat % 64 : Nat) u) ∧
    WritesLane (.shflUp sw d a b) d (fun ms l u => fromLane ms ((l : Int) - (u.reg b.toNat).toNat) u) ∧
    WritesLane (.shflDown sw d a b) d (fun ms l u => fromLane ms ((l : Int) + (u.reg b.toNat).toNat) u) ∧
    WritesLane (.shflXor sw d a b) d (fun ms l u => fromLane ms (l ^^^ ((u.reg b.toNat).toNat % 64) : Nat) u) ∧
    WritesLanePred (.voteAny sw q x) q (fun ms _ => ms.any fun e => e.2.pred x.toNat) ∧
    WritesLanePred (.voteAll sw q x) q (fun ms _ => ms.all fun e => e.2.pred x.toNat) ∧
    WritesLanePair (.voteBallot sw d x) d (fun ms _ _ => mask ms fun u => u.pred x.toNat) ∧
    WritesLanePair (.matchLanes sw d a w) d (fun ms _ v => mask ms fun u => u.value w a == v.value w a) ∧
    WritesLanePred (.elect sw q) q (fun ms l => ms.all fun e => decide (l ≤ e.1.lane)) ∧
    WritesLanePair (.lmask sw d) d (fun ms _ _ => mask ms fun _ => true) ∧
    WritesLane (.scanAdd sw d a) d (fun ms l _ => (upTo ms l).sum) ∧
    WritesLane (.scanAddEx sw d a) d (fun ms l _ =>
      ((ms.filter fun e => decide (e.1.lane < l)).map fun e => e.2.reg a.toNat).sum) ∧
    WritesLane (.scanMin sw d a) d (fun ms l u =>
      (upTo ms l).foldl (fun m v => if v.toInt < m.toInt then v else m) (u.reg a.toNat)) ∧
    WritesLane (.scanMax sw d a) d (fun ms l u =>
      (upTo ms l).foldl (fun m v => if m.toInt < v.toInt then v else m) (u.reg a.toNat))

/-! ### Floating point, conversion and quantisation -/

/-- R84, R85 and R91: the arithmetic of FP32 and FP64 is one rounding of the exact sum, product, product and sum or
quotient, with the special cases of Table 6.2; FTZ flushes FP32 operands and results (R47). R92: the two FP16 lanes of
the half-pair instructions are computed apart, and their flags are ORed. R48 and R49: what is rounded becomes the
neighbour that the mode chooses, the nearest one with ties to the even, or Table 4.3's where the value rounded without
a bound reaches the power of two above the largest finite value; OF and NX are set there, NX wherever the result is
not exact, and UF where it is so and tiny; FTZ makes a subnormal result a zero of its sign. -/
def Obligations.FloatArithmetic : Prop :=
  (∀ (sw : Bool) (d a b : BitVec 7) (z : Bool) (r : Rm),
     let c : Ctx := ⟨fp32, r, z, false⟩
     let e : Ctx := ⟨fp64, r, false, false⟩
     WritesRegFlags (.fadd sw d a b z r) d (fun u => single (c.sum (u.f32 z a) (u.f32 z b))) ∧
     WritesRegFlags (.fsub sw d a b z r) d (fun u => single (c.sum (u.f32 z a) (u.f32 z b).negate)) ∧
     WritesRegFlags (.fmul sw d a b z r) d (fun u => single (c.product (u.f32 z a) (u.f32 z b))) ∧
     WritesRegFlags (.ffma sw d a b z r) d (fun u => single (c.fused (u.f32 z a) (u.f32 z b) (u.f32 z d))) ∧
     WritesRegFlags (.fdiv sw d a b z r) d (fun u => single (c.quotient (u.f32 z a) (u.f32 z b))) ∧
     WritesPairFlags (.dadd sw d a b r) d (fun u => double (e.sum (u.f64 a) (u.f64 b))) ∧
     WritesPairFlags (.dmul sw d a b r) d (fun u => double (e.product (u.f64 a) (u.f64 b))) ∧
     WritesPairFlags (.dfma sw d a b r) d (fun u => double (e.fused (u.f64 a) (u.f64 b) (u.f64 d)))) ∧
  (∀ (sw : Bool) (d a b : BitVec 7) (z : Bool) (r : Rm),
     let c : Ctx := ⟨fp16, r, z, false⟩
     let lanes (f : ℕ → ℕ × Raised) : Word × BitVec 6 :=
       (BitVec.ofNat 16 (f 1).1 ++ BitVec.ofNat 16 (f 0).1, (f 0).2.bits ||| (f 1).2.bits)
     WritesRegFlags (.hpadd sw d a b z r) d (fun u => lanes fun l => c.sum (u.f16 z a l) (u.f16 z b l)) ∧
     WritesRegFlags (.hpmul sw d a b z r) d (fun u => lanes fun l => c.product (u.f16 z a l) (u.f16 z b l)) ∧
     WritesRegFlags (.hpfma sw d a b z r) d (fun u =>
       lanes fun l => c.fused (u.f16 z a l) (u.f16 z b l) (u.f16 z d l))) ∧
  (∀ (g : FmtSpec) (m : Rm) (sat neg : Bool) (x : ℚ), g ∈ [fp16, bf16, fp32, fp64] → x ≠ 0 →
     let r := (⟨g, m, false, sat⟩ : Ctx).round neg x
     let z := (⟨g, m, true, sat⟩ : Ctx).round neg x
     let value (w : ℕ) : ℚ := (readNum g w).rat
     let finite (w : ℕ) : Prop := (readNum g w).isNan = false ∧ (readNum g w).isInf = false
     let sign : ℕ := if x < 0 then 2 ^ (g.frac + g.exps) else 0
     let inf : ℕ := (2 ^ g.exps - 1) * 2 ^ g.frac
     let top : ℤ := 2 ^ (g.exps - 1)
     let away : Prop := (m = .rup ∧ 0 < x) ∨ (m = .rdn ∧ x < 0)
     let reaches (p : ℤ) : Prop :=
       (m = .rne ∧ (2 : ℚ) ^ p - 2 ^ (p - 2 - g.frac) ≤ |x|) ∨ (away ∧ (2 : ℚ) ^ p - 2 ^ (p - 1 - g.frac) < |x|) ∨
         (m ≠ .rne ∧ ¬away ∧ (2 : ℚ) ^ p ≤ |x|)
     let v := value r.1
     (reaches top → r.2 = { of := true, nx := true } ∧
       (sat = false → m = .rne ∨ away → r.1 = sign + inf) ∧ (sat = true ∨ (m ≠ .rne ∧ ¬away) → r.1 = sign + inf - 1)) ∧
     (¬reaches top →
       (∃ b, b < inf ∧ r.1 = sign + b) ∧
       (r.2.nx = true ↔ v ≠ x) ∧ (r.2.uf = true ↔ v ≠ x ∧ ¬reaches (2 - top)) ∧
       r.2.nv = false ∧ r.2.dz = false ∧ r.2.of = false ∧ r.2.sat = false ∧
       ∀ w, finite w → match m with
         | .rne => |v - x| ≤ |value w - x| ∧ (|v - x| = |value w - x| → value w ≠ v → r.1 % 2 = 0)
         | .rtz => |v| ≤ |x| ∧ (|value w| ≤ |x| → |value w| ≤ |v|)
         | .rup => x ≤ v ∧ (x ≤ value w → v ≤ value w)
         | .rdn => v ≤ x ∧ (value w ≤ x → value w ≤ v)) ∧
     (if 0 < |v| ∧ |v| < 2 ^ (2 - top) ∧ ¬reaches top then
        z.1 = sign ∧ z.2.uf = true ∧ z.2.nx = true ∧ z.2.nv = false ∧ z.2.dz = false ∧ z.2.of = false ∧ z.2.sat = false
      else z = r))

/-- R86 to R88: FMIN and FMAX give the number where one operand is a NaN and order −0 below +0; FSET and DSET compare
with both zeros equal, an unordered pair by the condition; FSEL copies bits. -/
def Obligations.FloatCompareAndSelect : Prop :=
  ∀ (sw : Bool) (c : FCond) (d a b : BitVec 7) (q x : BitVec 3) (z : Bool),
    let nan (f : FmtSpec) (w : ℕ) : Bool := decide (f.infBits < w % f.signBit)
    let signals (f : FmtSpec) (w : ℕ) : Bool := nan f w && w / 2 ^ (f.frac - 1) % 2 == 0
    let below (v w : Word) : Bool :=
      fp32.rank v.toNat < fp32.rank w.toNat || (fp32.rank v.toNat == fp32.rank w.toNat && v.msb && !w.msb)
    let number (v w : Word) (better : Word) : Word :=
      if nan fp32 v.toNat && nan fp32 w.toNat then 0x7FC00000
      else if nan fp32 v.toNat then w else if nan fp32 w.toNat then v else better
    let nv (v w : Word) : BitVec 6 := if signals fp32 v.toNat || signals fp32 w.toNat then 1 else 0
    let compare (f : FmtSpec) (v w : ℕ) : Bool × BitVec 6 :=
      let un := nan f v || nan f w
      let quiet : BitVec 6 := if signals f v || signals f w then 1 else 0
      let any : BitVec 6 := if un then 1 else 0
      match c with
      | .eq => (!un && f.rank v == f.rank w, quiet)
      | .ne => (un || f.rank v != f.rank w, quiet)
      | .un => (un, quiet)
      | .ord => (!un, quiet)
      | .lt => (!un && decide (f.rank v < f.rank w), any)
      | .le => (!un && decide (f.rank v ≤ f.rank w), any)
      | .gt => (!un && decide (f.rank w < f.rank v), any)
      | .ge => (!un && decide (f.rank w ≤ f.rank v), any)
    let read (v : Word) : ℕ := if z then flushBits fp32 v.toNat else v.toNat
    WritesRegFlags (.fmin sw d a b) d (fun u =>
      let v := u.reg a.toNat
      let w := u.reg b.toNat
      (number v w (if below v w then v else w), nv v w)) ∧
    WritesRegFlags (.fmax sw d a b) d (fun u =>
      let v := u.reg a.toNat
      let w := u.reg b.toNat
      (number v w (if below w v then v else w), nv v w)) ∧
    WritesPredFlags (.fset sw c q a b z) q (fun u => compare fp32 (read (u.reg a.toNat)) (read (u.reg b.toNat))) ∧
    WritesPredFlags (.dset sw c q a b) q (fun u => compare fp64 (u.pair a.toNat).toNat (u.pair b.toNat).toNat) ∧
    WritesReg (.fsel sw d a b x) d (fun u => if u.pred x.toNat then u.reg a.toNat else u.reg b.toNat) ∧
    decode (BitVec.ofBool sw ++ 0x26#7 ++ d ++ a ++ b ++ x) = .ok (.fsel sw d a b x)

/-- R89, Table 6.3: the functions of major 0x27 complete on every operand, with the special inputs of the table and
the exact values where the function has one: FRCP everywhere, FSQRT of a square, FRSQ of a power of four, FEXP2 of an
integer, FLOG2 of a power of two, FSINP and FCOSP of multiples of one half. -/
def Obligations.FloatFunctions : Prop :=
  ∀ (sw : Bool) (d a : BitVec 7),
    let alternating (k : ℤ) : ℚ := if k % 2 = 0 then 1 else -1
    let finite (x : Machine.Num) : Prop := x.isNan = false ∧ x.isInf = false
    WritesRegFlags (.frcp sw d a) d (fun u =>
      let x := u.f32 false a
      single (if x.isZero then ((ctx32.inf x.neg?).1, { dz := true }) else ctx32.answer [x] false none x.neg? (1 / x.rat))) ∧
    (∃ f, WritesRegFlags (.fsqrt sw d a) d f ∧ ∀ u, let x := u.f32 false a
      (x.isNan → f u = single (ctx32.answer [x] false none false 0)) ∧ (x.isZero → f u = single (ctx32.zero x.neg?)) ∧
      (x.neg? → x.isZero = false → f u = single (ctx32.nan true)) ∧ (x = .inf false → f u = single (ctx32.inf false)) ∧
      (∀ q : ℚ, 0 < q → x.rat = q * q → f u = single (ctx32.round false q))) ∧
    (∃ f, WritesRegFlags (.frsq sw d a) d f ∧ ∀ u, let x := u.f32 false a
      (x.isNan → f u = single (ctx32.answer [x] false none false 0)) ∧
      (x.isZero → f u = single ((ctx32.inf x.neg?).1, { dz := true })) ∧
      (x.neg? → x.isZero = false → f u = single (ctx32.nan true)) ∧ (x = .inf false → f u = single (ctx32.zero false)) ∧
      (∀ k : ℤ, x.rat = 4 ^ k → f u = single (ctx32.round false (2 ^ (-k))))) ∧
    (∃ f, WritesRegFlags (.fexp2 sw d a) d f ∧ ∀ u, let x := u.f32 false a
      (x.isNan → f u = single (ctx32.answer [x] false none false 0)) ∧
      (x = .inf false → f u = single (ctx32.inf false)) ∧ (x = .inf true → f u = single (ctx32.zero false)) ∧
      (∀ k : ℤ, finite x → x.rat = k → f u = single (ctx32.round false (2 ^ k)))) ∧
    (∃ f, WritesRegFlags (.flog2 sw d a) d f ∧ ∀ u, let x := u.f32 false a
      (x.isNan → f u = single (ctx32.answer [x] false none false 0)) ∧
      (x.isZero → f u = single ((ctx32.inf true).1, { dz := true })) ∧
      (x.neg? → x.isZero = false → f u = single (ctx32.nan true)) ∧ (x = .inf false → f u = single (ctx32.inf false)) ∧
      (∀ k : ℤ, x.rat = 2 ^ k → f u = single (ctx32.round false k))) ∧
    (∃ f, WritesRegFlags (.fsinp sw d a) d f ∧ ∀ u, let x := u.f32 false a
      (x.isNan → f u = single (ctx32.answer [x] false none false 0)) ∧ (x.isInf → f u = single (ctx32.nan true)) ∧
      (∀ k : ℤ, finite x → x.rat = k → f u = single (ctx32.zero x.neg?)) ∧
      (∀ k : ℤ, x.rat = k + 1 / 2 → f u = single (ctx32.round false (alternating k)))) ∧
    (∃ f, WritesRegFlags (.fcosp sw d a) d f ∧ ∀ u, let x := u.f32 false a
      (x.isNan → f u = single (ctx32.answer [x] false none false 0)) ∧ (x.isInf → f u = single (ctx32.nan true)) ∧
      (∀ k : ℤ, finite x → x.rat = k → f u = single (ctx32.round false (alternating k))) ∧
      (∀ k : ℤ, x.rat = k + 1 / 2 → f u = single (ctx32.zero false)))

/-- R90 and R93 to R95: rounding to an integral value, and the conversions between integers and floating-point
formats, by the exact value of the source and one rounding. R96 to R99: through a slot of format INT4 or INT8, QGRP
writes the group word of a minimum and a maximum, QPACK packs 32 / w elements and QUNPK unpacks them. -/
def Obligations.ConversionsAndQuantisation : Prop :=
  (∀ (sw : Bool) (d a : BitVec 7) (x y : Fmt) (t : IntTy) (z : Bool) (r : Rm),
     let low : ℤ := if t.signed then -2 ^ (t.width - 1) else 0
     let high : ℤ := if t.signed then 2 ^ (t.width - 1) - 1 else 2 ^ t.width - 1
     let toInt (v : Machine.Num) : ℤ × BitVec 6 :=
       let n := integerIn r v.rat
       if v.isNan then (0, 1)
       else if v.isInf then (if v.neg? then low else high, 1)
       else if high < n then (high, 1) else if n < low then (low, 1)
       else (n, if (n : ℚ) = v.rat then 0 else 0x10)
     let ofInt (u : Thread) : ℕ × Raised := Ctx.round ⟨fmtSpec x, r, false, false⟩ false (u.intValue t a)
     let move (u : Thread) : ℕ × Raised :=
       let v := readFlushed (fmtSpec x) (z && x != .f64) (u.floatBits x a)
       Ctx.answer ⟨fmtSpec y, r, z && y != .f64, false⟩ [v] false (if v.isInf then some v.neg? else none) v.neg? v.rat
     WritesRegFlags (.frnd sw d a r) d (fun u =>
       let v := u.f32 false a
       let n := integerIn r v.rat
       if v.isNan then single (ctx32.answer [v] false none false 0) else if v.isInf then (u.reg a.toNat, 0)
       else ((single (ctx32.round v.neg? n)).1, 0)) ∧
     (t.width ≠ 64 → WritesRegFlags (.f2i sw d a x t r) d fun u =>
       let v := toInt (readNum (fmtSpec x) (u.floatBits x a))
       (BitVec.ofInt 32 v.1, v.2)) ∧
     (t.width = 64 → WritesPairFlags (.f2i sw d a x t r) d fun u =>
       let v := toInt (readNum (fmtSpec x) (u.floatBits x a))
       (BitVec.ofInt 64 v.1, v.2)) ∧
     (x ≠ .f64 → WritesRegFlags (.i2f sw d a x t r) d fun u => single (ofInt u)) ∧
     (x = .f64 → WritesPairFlags (.i2f sw d a x t r) d fun u => double (ofInt u)) ∧
     (y ≠ .f64 → WritesRegFlags (.f2f sw d a x y z r) d fun u => single (move u)) ∧
     (y = .f64 → WritesPairFlags (.f2f sw d a x y z r) d fun u => double (move u))) ∧
  (∀ (sw : Bool) (d a b : BitVec 7) (f : BitVec 3) (s : State) (p : Ply) (r : SlotRec),
     (r.fmt = 4 ∨ r.fmt = 5) → (∀ th ∈ p.members, readSlot (s.slot th f.toNat) = r) →
     let w := r.elem
     let element (x : BitVec 32) (lo : ℕ) : ℤ :=
       if r.sgn then (BitVec.ofNat w (x.toNat / 2 ^ lo)).toInt else (BitVec.ofNat w (x.toNat / 2 ^ lo)).toNat
     let qmin : ℤ := if r.sgn then -2 ^ (w - 1) else 0
     let qmax : ℤ := if r.sgn then 2 ^ (w - 1) - 1 else 2 ^ w - 1
     let zero (u : Thread) : ℤ := if r.zpe then element (u.reg b.toNat) 16 else 0
     let scale (u : Thread) : Machine.Num := readNum fp16 ((u.reg b.toNat).toNat % 65536)
     let real (x : Machine.Num) : Bool := !x.isNan && !x.isInf
     let group (u : Thread) : Word × BitVec 6 :=
       let x := u.f32 false a
       let y := u.f32 false b
       let lo := min x.rat 0
       let hi := max y.rat 0
       let c : Ctx := ⟨fp16, r.rnd, false, r.sate⟩
       let e0 := c.round false (if r.zpe then (hi - lo) / (2 ^ w - 1) else if r.sgn then max (-lo) hi / qmax else hi / qmax)
       let e := if e0.2.of && !r.sate then (0x7C00, e0.2) else e0
       let v := readNum fp16 e.1
       let z0 := qmin - integerIn .rne (lo / v.rat)
       let z := if r.zpe && !v.isZero && !v.isInf then max qmin (min qmax z0) else 0
       if real x && real y then
         (BitVec.ofNat 32 ((z % 2 ^ w).toNat * 65536 + e.1),
           e.2.bits ||| if r.zpe && !v.isZero && !v.isInf && z != z0 then 0x20 else 0)
       else (0x7E00, 1)
     let pack (u : Thread) (j : ℕ) : ℤ × BitVec 6 :=
       let x := readNum fp32 (u.reg (a.toNat + j)).toNat
       let v := scale u
       let e : ℚ := x.rat / v.rat + zero u
       let y := integerIn r.rnd e
       let nx : BitVec 6 := if (y : ℚ) = e then 0 else 0x10
       if x.isNan || !real v then (zero u, 1)
       else if v.isZero then (zero u, 0)
       else if x.isInf then (if x.neg? = v.neg? then qmax else qmin, 0x20)
       else if qmin ≤ y ∧ y ≤ qmax then (y, nx)
       else if r.sate then (max qmin (min qmax y), nx ||| 0x20) else (y, nx)
     let unpack (u : Thread) (j : ℕ) : Word :=
       let q := element (u.reg a.toNat) (w * j)
       if real (scale u) then (single (ctx32.round false ((q - zero u) * (scale u).rat))).1 else 0x7FC00000
     (Issuing s (.qgrp sw d a b f) p → Settled s (.qgrp sw d a b f) p d.toNat 1 →
       Completes s (.qgrp sw d a b f) p fun _ u => (u.write d.toNat (group u).1).orFlags (group u).2) ∧
     (Issuing s (.qpack sw d a b f) p → Settled s (.qpack sw d a b f) p d.toNat 1 →
       Completes s (.qpack sw d a b f) p fun _ u =>
         (u.write d.toNat (BitVec.ofNat 32 ((List.range (32 / w)).map fun j =>
           ((pack u j).1 % 2 ^ w).toNat * 2 ^ (w * j)).sum)).orFlags
           (((List.range (32 / w)).map fun j => (pack u j).2).foldl (· ||| ·) 0)) ∧
     (Issuing s (.qunpk sw d a b f) p → Settled s (.qunpk sw d a b f) p d.toNat (32 / w) →
       Completes s (.qunpk sw d a b f) p fun _ u =>
         ((List.range (32 / w)).foldl (fun t j => t.write (d.toNat + j) (unpack u j)) u).orFlags
           (if real (scale u) then 0 else 1)))

/-! ### Control flow and traps -/

/-- R78: a thread whose guard p[P] XOR N holds goes to its own address plus four times the offset; BRC.ANY and BRC.ALL
decide for the whole ply. R79: CALL links v30:v31 in the threads that go. R79: RET and JMPV go to their A pair; a
target at or above 2^57, or no multiple of 4, raises PERMISSION with the target in TRAPADDR. R80 and R81: WBASE takes
0, or a multiple of 32 that leaves 64 registers within the budget, and traps on any other base; NOP has no effect;
YIELD has none while no ready pending group waits in its quadrant; while one does, and the active set is full, the
thread's group leaves the set, becomes the youngest pending one, and a group that was pending takes its place (R239).
R81 and R246: a thread that executes EXIT has exited. At each barrier whose mask names its role, it leaves the
expected count, or, if it had arrived in the phase, waits to leave it, unless the phase completes; every other barrier
stands. No register, predicate or byte of memory changes. -/
def Obligations.BranchesJumpsAndExit : Prop :=
  (∀ (sw n : Bool) (q : BitVec 3) (o : BitVec 20) (s : State) (p : Ply),
     let guard (u : Thread) : Bool := (u.pred q.toNat) != n
     let target (u : Thread) : DWord := u.pc + 4 * o.signExtend 64
     let step (go : Bool) (u : Thread) : Thread := if go then u.goingTo (target u) s.tick else u.leaving s.tick
     let ends (i : Instr) (f : Thread → Thread) : Prop :=
       ∃ t, exec i s = .next t ∧ Ran s t p fun th => f ((s.thread th).entering i)
     (Issuing s (.bra sw q n o) p → ends (.bra sw q n o) fun u => step (guard u) u) ∧
     (Issuing s (.brcAny sw q n o) p → ends (.brcAny sw q n o) (step ((s.lanesOf p).any fun e => guard e.2))) ∧
     (Issuing s (.brcAll sw q n o) p → ends (.brcAll sw q n o) (step ((s.lanesOf p).all fun e => guard e.2))) ∧
     (Issuing s (.call sw q n o) p → Settled s (.call sw q n o) p 30 2 → ends (.call sw q n o) fun u =>
       if guard u then (u.writePair 30 (u.pc + 4)).goingTo (target u) s.tick else u.leaving s.tick)) ∧
  (∀ (sw : Bool) (a : BitVec 7) (s : State) (p : Ply) (i : Instr), i = .ret sw a ∨ i = .jmpv sw a → Issuing s i p →
     let target (th : ThreadRef) : DWord := (s.thread th).pair a.toNat
     ((∀ th ∈ p.members, (target th).toNat < 2 ^ 57 ∧ (target th).toNat % 4 = 0) → Jumps s i p (fun _ u => u) target) ∧
     ((∀ th ∈ p.members, ¬((target th).toNat < 2 ^ 57 ∧ (target th).toNat % 4 = 0)) →
       (∀ th ∈ p.members, s.handles th) → Traps s i p 0x006 target fun _ => 0)) ∧
  (∀ (sw : Bool) (k : BitVec 17) (s : State) (p : Ply),
     let fits (th : ThreadRef) : Prop := k = 0 ∨ (k.toNat % 32 = 0 ∧ k.toNat + 64 ≤ (s.group th).budget)
     (Issuing s (.wbase sw k) p → (∀ th ∈ p.members, fits th) →
       Completes s (.wbase sw k) p fun _ u => { u with win := k.toNat }) ∧
     (Issuing s (.wbase sw k) p → (∀ th ∈ p.members, ¬fits th) → (∀ th ∈ p.members, s.handles th) →
       Traps s (.wbase sw k) p 0x002 (fun _ => 0) fun _ => k.setWidth 64) ∧
     (Issuing s (.nop sw) p → Completes s (.nop sw) p fun _ u => u) ∧
     (Issuing s (.yield sw) p →
       (∀ th ∈ p.members, s.readyPending (s.coreOf th) (s.group th).quad = false) →
       Completes s (.yield sw) p fun _ u => u)) ∧
  (∀ (sw : Bool) (s : State) (th : ThreadRef), Alone s (.yield sw) th → s.Orderly →
     let quad := s.quadGroups (s.coreOf th) (s.group th).quad
     isResponder th = false → (th.team, th.group) ∈ quad → (s.group th).active = true →
     (s.activeGroups (s.coreOf th) (s.group th).quad).length = 8 →
     s.readyPending (s.coreOf th) (s.group th).quad = true →
     (∀ e ∈ quad, (s.groupAt e).active = false → (s.groupAt e).since < s.tick ∧ (s.groupAt e).place < 16) →
     ∃ t, exec (.yield sw) s = .next t ∧ t.mem = s.mem ∧ t.ply = none ∧
       t.thread th = ((s.thread th).entering (.yield sw)).leaving s.tick ∧
       (t.group th).active = false ∧ (t.group th).since = s.tick ∧
       ∃ e ∈ quad, (s.groupAt e).active = false ∧ (s.groupAt e).hasReady = true ∧ (t.groupAt e).active = true) ∧
  (∀ (sw : Bool) (s : State) (th : ThreadRef), Alone s (.exitT sw) th → isResponder th = false →
     ∃ t, exec (.exitT sw) s = .next t ∧ t.ply = none ∧ (t.thread th).status = .exited ∧
       (∀ u, (t.thread u).regs = (s.thread u).regs ∧ (t.thread u).preds = (s.thread u).preds) ∧
       (∀ a, Memory.read t.mem a = Memory.read s.mem a) ∧
       ∀ b, b < 16 →
         let x := s.barrier th.team b
         let y := t.barrier th.team b
         let mine := x.mask.getLsbD (s.group th).role
         let arrived := (s.thread th).arrived.getLsbD b
         (mine = false → y = x) ∧
         (mine → arrived = false → x.arr + 1 < x.exp → y = { x with exp := x.exp - 1 }) ∧
         (mine → arrived → x.arr < x.exp → y = { x with defer := x.defer + 1 }) ∧
         (mine → arrived = false → x.exp ≤ x.arr + 1 → y.phase = x.phase + 1 ∧ y.arr = 0))

/-- R297: TRAP raises 0x400 plus its immediate and BKPT raises BREAKPOINT, precise. Outside the handler TRET is
illegal. R297: TRET restores v28 to v31, the predicates and the window base from the frame and leaves the handler; the
faults that were shelved at the handler's entry are pending again (R295). After an imprecise trap TRET stops the team
with the code of the trap (R298). TRET.RE goes to TRAPPC, and after that instruction to frame.PC; TRET.SKIP skips the
instruction at TRAPPC, or goes to frame.PC where that is another address. -/
def Obligations.TrapsAndReturns : Prop :=
  (∀ (sw : Bool) (k : BitVec 10) (s : State) (p : Ply), (∀ th ∈ p.members, isResponder th = false ∧
       (s.gridOf th.team).handler ≠ 0 ∧ (s.thread th).inHandler = false) →
     (Issuing s (.trap sw k) p → Traps s (.trap sw k) p (0x400 + k.setWidth 32) (fun _ => 0) fun _ => k.setWidth 64) ∧
     (Issuing s (.bkpt sw) p → Traps s (.bkpt sw) p 0x00D (fun _ => 0) fun _ => 0) ∧
     (Issuing s (.tretRe sw) p → Traps s (.tretRe sw) p 0x002 (fun _ => 0) fun _ => 0x7F) ∧
     (Issuing s (.tretSkip sw) p → Traps s (.tretSkip sw) p 0x002 (fun _ => 0) fun _ => 0x7F)) ∧
  (∀ (sw : Bool) (s : State) (p : Ply),
     let back (u : Thread) : Thread :=
       { u with
         regs := (List.range 4).foldl (fun r j => Tab.put r (28 + j) (u.frame.v.getD j 0)) u.regs
         poison := u.poison.filter fun n => n < 28 || 31 < n
         preds := (u.frame.p &&& 0xFE) ||| (u.preds &&& 1), win := u.frame.b, inHandler := false
         faults := u.shelved ++ u.faults, shelved := [] }
     let settled (i : Instr) : Prop := Settled s i p 28 4 ∧ ∀ k, k < 8 → SettledPred s i p k
     let ends (i : Instr) (f : Thread → Thread) : Prop :=
       ∃ t, exec i s = .next t ∧ Ran s t p fun th => f ((s.thread th).entering i)
     (∀ th ∈ p.members, (s.thread th).inHandler = true ∧ (s.thread th).imprecise = false) →
     (Issuing s (.tretRe sw) p → settled (.tretRe sw) → ends (.tretRe sw) fun u =>
       { (back u).goingTo u.trap.pc s.tick with
         replay := if u.frame.pc = u.trap.pc then none else some u.frame.pc }) ∧
     (Issuing s (.tretSkip sw) p → settled (.tretSkip sw) → ends (.tretSkip sw) fun u =>
       (back u).goingTo (if u.frame.pc = u.trap.pc then u.trap.pc + 4 else u.frame.pc) s.tick)) ∧
  (∀ (i : Instr) (s : State) (th : ThreadRef), (∃ sw, i = .tretRe sw ∨ i = .tretSkip sw) → Alone s i th →
     isResponder th = false → (s.thread th).inHandler = true → (s.thread th).imprecise = true →
     (s.team th.team).stopping = none → ∃ t, exec i s = .next t ∧ t.mem = s.mem ∧ t.ply = none ∧
       (t.thread th).status = .exited ∧ (t.team th.team).stopping = some (s.thread th).trap.code)

/-- R296, R298: what a trap does wherever it comes from. With a handler and outside it, the thread enters the handler
and nothing else changes, but that the other faults of a switch point are shelved (R295); in the handler, or without
one, the team stops with the code, unless the core's host has attached, and then the core halts with the thread at its
instruction. -/
def Obligations.TakingATrap : Prop :=
  ∀ (s : State) (th : ThreadRef) (k : Precision) (r : Report) (back : DWord), s.holds th = true →
    isResponder th = false →
    let t := s.takeTrap th k r back
    ((s.gridOf th.team).handler ≠ 0 → (s.thread th).inHandler = false →
      t.thread th =
        ((s.thread th).trapped r (decide (k = .imprecise)) back (s.gridOf th.team).handler s.tick).shelving k ∧
      OnlyThreads s t [th]) ∧
    ((s.gridOf th.team).handler = 0 ∨ (s.thread th).inHandler = true →
      (t.thread th).trap = r ∧ (∀ a, Memory.read t.mem a = Memory.read s.mem a) ∧
      if (s.core (s.coreOf th)).ctl.attach then
        (t.core (s.coreOf th)).ctl.halt = true ∧ (t.thread th).pc = (s.thread th).pc ∧
          (t.thread th).inHandler = (s.thread th).inHandler
      else
        (t.team th.team).stopping = some (((s.team th.team).stopping).getD r.code) ∧ (t.thread th).status = .exited)

/-- R39, Table 3.6, orders 4 to 6, R264 and R304: the checks before an instruction, in order, of a thread that stops
for nothing else: a misaligned register field or a scope without meaning (ILLEGAL_OPERAND with the word), a register
beyond the budget and a tile beyond the tile count (REGISTER_BOUNDS with the number of the first), what a responder
may not run (ILLEGAL_OPERAND with the major), and a poisoned source (POISON with the address and the register). One
that fails gives its precise trap and leaves the instruction without effect; in a responder it ends the responder,
with the code of its first trap. The model's choices: a responder's check follows those of Table 3.6 (log 122), and
POISON comes before what the instruction itself checks (log 137). -/
def Obligations.ChecksBeforeAnInstruction : Prop :=
  (∀ (i : Instr) (w : Word) (s : State) (th : ThreadRef),
     let u := s.thread th
     let named (os : List RegOperand) : List ℕ := os.flatMap fun o => (List.range o.count).map fun k => u.index (o.first + k)
     let tiles : List ℕ := i.tileOperands.flatMap fun o => (List.range o.count).map fun k => o.first + k
     let upper : List ℕ := match i with
       | .qpack _ _ a _ f =>
         if (s.slot th f.toNat).extractLsb' 20 4 = 4 then (List.range 4).map fun k => u.index (a.toNat + 4 + k) else []
       | _ => []
     let sources := named (i.regOperands.filter fun o => o.role = .src ∨ o.role = .both) ++ upper
     (u.status = .ready ∨ u.status = .stalled) → (i.parks = true → u.outs = [] ∧ (u.replay = none → u.faults = [])) →
     (i.takesImprecise = true → (s.group th).faults = [] ∨ (i.sends = true ∧ u.waitOp ≠ none)) →
     (i.awaitsAnswer = true → u.waitOp = none) →
     s.gate i w th =
       if i.aligned = false ∨ i.scopeOk = false then .trap 0x002 0 (w.setWidth 64)
       else match (named i.regOperands).find? fun n => (s.group th).budget ≤ n with
         | some n => .trap 0x003 0 (BitVec.ofNat 64 n)
         | none => match tiles.find? fun n => (if isResponder th then 0 else (s.team th.team).tileCount) ≤ n with
           | some n => .trap 0x003 0 (BitVec.ofNat 64 n)
           | none =>
             if isResponder th = true ∧ i.barredToResponder = true then .trap 0x002 0 (BitVec.ofNat 64 i.major)
             else match sources.find? fun n => u.poison.contains n with
               | some n => .trap 0x008 u.paddr (BitVec.ofNat 64 n)
               | none => .pass) ∧
  (∀ (i : Instr) (x : Word), i.encode = some x →
     let major := x.toNat / 2 ^ 24 % 128
     let f := x.toNat % 8
     i.major = major ∧
     (i.barredToResponder = true ↔ (major = 0x56 ∧ f ≠ 4 ∧ f ≠ 5) ∨ (0x58 ≤ major ∧ major ≤ 0x5F) ∨
       major ∈ [0x6A, 0x78, 0x7A, 0x7B, 0x7C] ∨ (major = 0x79 ∧ (f = 1 ∨ f = 2)))) ∧
  (∀ (i : Instr) (s : State) (p : Ply) (code : Word) (addr aux : ThreadRef → DWord), i.encode.isSome = true →
     (∀ o ∈ (s.team p.team).plies, o.rest ≠ p.members) → Barred s i p code addr aux →
     ∃ t, exec i s = .next t ∧ Ran s t p fun th =>
       ((s.thread th).entering i).trapped ⟨(s.thread th).pc, code, addr th, aux th⟩ false (s.thread th).pc
         (s.gridOf th.team).handler s.tick) ∧
  (∀ (i : Instr) (s : State) (p : Ply) (th : ThreadRef) (code : Word) (addr aux : DWord), i.encode.isSome = true →
     s.ply = some p → p.team = th.team → p.members = [th] → (∀ o ∈ (s.team p.team).plies, o.rest ≠ p.members) →
     s.holds th = true → isResponder th = true → s.gate i p.word th = .trap code addr aux →
     ∃ t, exec i s = .next t ∧ t.ply = none ∧ t.mem = s.mem ∧ t.copies = s.copies ∧
       (∀ v, v.team = th.team → v.group = th.group → s.holds v = true → (t.thread v).status = .exited) ∧
       (∀ v, v.team ≠ th.team ∨ v.group ≠ th.group → t.thread v = s.thread v) ∧
       (∀ r, r ∈ t.reqs ↔ r ∈ s.reqs ∧ ¬(r.th.team = th.team ∧ r.th.group = th.group ∧ r.kind.isSsync = true)) ∧
       Tab.find (t.team th.team).responders th.group = (Tab.find (s.team th.team).responders th.group).map fun r =>
         { r with reply := none, error := some (r.error.getD code) })

/-- The model's choice (log 1), for what R13 leaves open: a ply runs an instruction of its own threads in ascending
lane order within one step, each thread on the state that the ones before it leave; so what is stated of a ply of one
thread holds of each thread's turn. A team that one of them stops does so once the whole ply has run the instruction
(R298). The threads of a GSYNC all stand at the rendezvous before it is checked (R248). -/
def Obligations.ThreadsTakeTurns : Prop :=
  ∀ i : Instr, i.inTurn = true → ∃ turn : Word → State → ThreadRef → State, ∀ (s : State) (p : Ply), s.ply = some p →
    s.joinedWaits i p = false →
    let t : State := { (p.members.foldl (turn p.word) (s.leaveJoined p)).stopMarked s p.team with ply := none }
    exec i s = .next (match i with
      | .gsync _ _ => p.members.foldl State.tryGsync t
      | .gsyncImm _ _ => p.members.foldl State.tryGsync t
      | _ => t)

/-! ### Memory, of a thread that issues alone (ThreadsTakeTurns extends it to a ply) -/

/-- R173: LDS reads its team's scratchpad at issue, and its registers wait for the extended value; STS writes it at
issue. The effective address is the A register plus the scaled immediate modulo 2^32. R179: ATOMS replaces a
scratchpad word at issue, and D waits for the old word. R172: a scratchpad access at or beyond the team's size, or an
ATOMS that is not aligned, raises PERMISSION with the 32-bit address. The model's choices: a poisoned result carries the
scratchpad address (log 36), and the loads of one ply from one address return together (log 120). -/
def Obligations.Scratchpad : Prop :=
  (∀ (sw : Bool) (d a i : BitVec 7) (s : State) (th : ThreadRef),
     let u := s.thread th
     let t := s.team th.team
     let at_ (n : ℕ) : ℕ := (u.reg a.toNat + i.signExtend 32 * BitVec.ofNat 32 n).toNat
     let poisoned (x n : ℕ) : Bool := t.scratchPoison.any fun w => decide (4 * w < x + n) && decide (x < 4 * w + 4)
     (∀ q : LdQ, Alone s (.lds sw d a i q) th → at_ q.size + q.size ≤ t.scratchSize → u.full = false →
       s.scratchBusy th.team (at_ q.size) q.size false = false →
       Does s (.lds sw d a i q) th
         (Thread.awaits s.nextId d.toNat q.regs none
           (some { vals := extendedLoad q (valueOf (fun k => t.scratchByte (at_ q.size + k)) q.size)
                   poison := if poisoned (at_ q.size) q.size then some (BitVec.ofNat 64 (at_ q.size)) else none })
           (s.plyBatch (at_ q.size)))
         { s with nextId := s.nextId + 1 }) ∧
     (∀ q : StQ, Alone s (.sts sw d a i q) th → at_ q.size + q.size ≤ t.scratchSize →
       s.scratchBusy th.team (at_ q.size) q.size true = false →
       ∃ sc po, ScratchTakes t sc (at_ q.size) q.size (u.wide d.toNat q.regs) ∧
         (∀ w, w ∈ po ↔ w ∈ t.scratchPoison ∧ ¬(at_ q.size ≤ 4 * w ∧ 4 * w + 4 ≤ at_ q.size + q.size)) ∧
         Does s (.sts sw d a i q) th id (s.modTeam th.team fun t => { t with scratch := sc, scratchPoison := po }))) ∧
  (∀ (sw : Bool) (d a b : BitVec 7) (s : State) (th : ThreadRef),
     let u := s.thread th
     let t := s.team th.team
     let x := (u.reg a.toNat).toNat
     let old : Word := BitVec.ofNat 32 (valueOf (fun k => t.scratchByte (x + k)) 4)
     ∀ e ∈ ([(.atomsAdd sw d a b, fun x y => x + y), (.atomsMinI32 sw d a b, fun x y => if y.slt x then y else x),
         (.atomsMaxI32 sw d a b, fun x y => if x.slt y then y else x),
         (.atomsMinN32 sw d a b, fun x y => if y.ult x then y else x),
         (.atomsMaxN32 sw d a b, fun x y => if x.ult y then y else x), (.atomsAnd sw d a b, fun x y => x &&& y),
         (.atomsOr sw d a b, fun x y => x ||| y), (.atomsExch sw d a b, fun _ y => y)] :
         List (Instr × (Word → Word → Word))),
       Alone s e.1 th → x % 4 = 0 → x + 4 ≤ t.scratchSize → u.full = false →
       s.scratchBusy th.team x 4 true = false →
       ∃ sc, ScratchTakes t sc x 4 (e.2 old (u.reg b.toNat)).toNat ∧
         Does s e.1 th
           (Thread.awaits s.nextId d.toNat 1 none
             (some { vals := [old], poison := if t.scratchPoison.contains (x / 4) then some (BitVec.ofNat 64 x) else none })
             0)
           ({ s with nextId := s.nextId + 1 }.modTeam th.team fun t => { t with scratch := sc })) ∧
  (∀ (sw : Bool) (d a i b : BitVec 7) (s : State) (th : ThreadRef), s.handles th →
     let u := s.thread th
     let at_ (n : ℕ) : Word := u.reg a.toNat + i.signExtend 32 * BitVec.ofNat 32 n
     let denied (i : Instr) (x : Word) (aux : DWord) : Prop :=
       Ends s i th (fun v => v.trapped ⟨v.pc, 0x006, x.setWidth 64, aux⟩ false v.pc (s.gridOf th.team).handler s.tick) s
     (∀ q : LdQ, Alone s (.lds sw d a i q) th → (s.team th.team).scratchSize < (at_ q.size).toNat + q.size →
       denied (.lds sw d a i q) (at_ q.size) 0) ∧
     (∀ q : StQ, Alone s (.sts sw d a i q) th → (s.team th.team).scratchSize < (at_ q.size).toNat + q.size →
       denied (.sts sw d a i q) (at_ q.size) 0) ∧
     ∀ e ∈ ([.atomsAdd sw d a b, .atomsMinI32 sw d a b, .atomsMaxI32 sw d a b, .atomsMinN32 sw d a b,
         .atomsMaxN32 sw d a b, .atomsAnd sw d a b, .atomsOr sw d a b, .atomsExch sw d a b] : List Instr),
       let x := (u.reg a.toNat).toNat
       Alone s e th →
         (x % 4 ≠ 0 → x + 4 ≤ (s.team th.team).scratchSize → denied e (u.reg a.toNat) 1) ∧
         (x % 4 = 0 → (s.team th.team).scratchSize < x + 4 → denied e (u.reg a.toNat) 0))

/-- R173, R174, R181: a load's registers wait for its result, with LDR's predicate. The value stands at once where
every word that the load touches is valid in the L1, or belongs to a non-resident OPT page, which reads zero; of an
LDR whose page is a non-resident OPT page, it is zero and false (R181). The model's choices: an LDR of two pages is so
as a whole where one of them is such a page (log 118); and an aligned load takes its bytes from the L1 only where they
come from one store or one fill (log 21). Else, unless a fill of the core stands in flight already (a fill may share
an earlier one, log 20), a request goes out: its parts are the bytes themselves, at their places, or the lines that
fill the L1. LDAQ reads its bytes at their home, after the thread's earlier releases, and holds later accesses of path
P (R151). Nothing else of the thread, no other thread and no byte of memory changes. That the loads of one ply from
one address return together is the model's choice (log 120). -/
def Obligations.Loads : Prop :=
  ∀ (sw : Bool) (d a i : BitVec 7) (q : LdQ) (z : AccSize) (f x : BitVec 3) (s : State) (th : ThreadRef)
      (segs : List (Nat × Nat × Leaf)),
    let u := s.thread th
    let ea : DWord := u.pair a.toNat + i.signExtend 64 * BitVec.ofNat 64 q.size
    let core := s.coreOf th
    let tag := (s.tenant (s.tenantOf th)).astag
    let gone (g : Nat × Nat × Leaf) : Bool := g.2.2.opt && !g.2.2.res
    let away : Bool := segs.any gone
    let pieces := segs.flatMap cutLine
    let present (whole : Bool) (g : Nat × Nat × Leaf) : Bool := gone g || (!g.2.2.suc &&
      match (s.core core).lineAt tag (g.1 / 64) with
      | some c => ((List.range g.2.1).all fun k => c.valid.getLsbD ((g.1 + k) % 64 / 4)) &&
          (!whole || c.single (g.1 % 64) g.2.1)
      | none => false)
    let byte (y : ℕ) : Byte :=
      if segs.any fun g => gone g && decide (g.1 ≤ y) && decide (y < g.1 + g.2.1) then 0
      else match (s.core core).lineAt tag (y / 64) with
        | some c => c.data.getD (y % 64) 0
        | none => 0
    let filling : Prop := ∃ r ∈ s.reqs, r.core = core ∧ ∃ y ∈ r.parts, y.fill = true
    let moving : Bool := pieces.any fun g => s.aliased core tag (g.1 / 64) (g.2.2.locate g.1).line
    let issued (t : State) (i : Instr) (va : DWord) (regs : ℕ) (q : Option ℕ) (res : Option Result) : Prop :=
      t.ply = none ∧ t.nextId = s.nextId + 1 ∧
      { t.thread th with holds := [] } = { ((((u.entering i).awaits s.nextId d.toNat regs q res (s.plyBatch va.toNat))).leaving
        s.tick) with holds := [] } ∧
      (∀ v, v ≠ th → t.thread v = s.thread v) ∧ (∀ b, Memory.read t.mem b = Memory.read s.mem b) ∧
      t.reqs.length = s.reqs.length + (if res = none then 1 else 0)
    let asks (t : State) (r : Req) (va : DWord) (n : ℕ) (sg : Bool) : Prop :=
      r ∈ t.reqs ∧ r.id = s.nextId ∧ r.path = .p ∧ r.kind = .load n sg ∧ r.th = th ∧ r.va = va ∧ r.lost = none
    let covers (r : Req) (va : DWord) (n : ℕ) : Prop :=
      (∀ y ∈ r.parts, if y.fill then ∃ k, k < n ∧ y.va = (va.toNat + k) / 64 * 64 ∧ y.len = 64 ∧
          y.loc = (placeAt segs (va.toNat + k)).lineStart
        else va.toNat ≤ y.va ∧ y.va + y.len ≤ va.toNat + n ∧ y.loc = placeAt segs y.va ∧
          (moving = false → y.done = true → ∀ j, j < y.len → y.got.getD j 0 = byte (y.va + j))) ∧
      ∀ k, k < n → ∃ y ∈ r.parts, y.va ≤ va.toNat + k ∧ va.toNat + k < y.va + y.len
    let reads (i : Instr) (va : DWord) (n : ℕ) (sg : Bool) (regs : ℕ) (q : Option ℕ) (now : Option Result) : Prop :=
      ∃ t res, exec i s = .next t ∧ issued t i va regs q res ∧ (now ≠ none → res = now) ∧
        (now = none → ¬filling → res = none) ∧
        (res = none → ∃ r, asks t r va n sg ∧ r.waits = [] ∧ covers r va n)
    let value (va : DWord) (n : ℕ) : ℕ := valueOf (fun k => byte (va.toNat + k)) n
    let all (va : DWord) (n : ℕ) : Bool := pieces.all (present (decide (va.toNat % n = 0)))
    u.full = false → s.heldAtIssue th .p false = false →
    (Alone s (.ld sw d a i q) th → Reached s th { read := true } ea q.size 1 segs →
      reads (.ld sw d a i q) ea q.size (q = .i8 ∨ q = .i16) q.regs none
        (if all ea q.size then some { vals := extendedLoad q (value ea q.size), pred := true } else none)) ∧
    (Alone s (.ldr sw d a z x) th → Reached s th { read := true } (u.pair a.toNat) z.bytes 1 segs →
      reads (.ldr sw d a z x) (u.pair a.toNat) z.bytes false z.regs (some x.toNat)
        (if away then some { vals := List.replicate z.regs 0 }
         else if all (u.pair a.toNat) z.bytes then some { vals := wordsOf (value (u.pair a.toNat) z.bytes) z.regs, pred := true } else none)) ∧
    (Alone s (.ldaq sw d a z f) th → Reached s th { read := true } (u.pair a.toNat) z.bytes z.bytes segs →
      let va := u.pair a.toNat
      let place := placeAt segs va.toNat
      let scope := promote f.toNat (coreDie core) place
      let earlier := s.acquireWaits th scope (some place)
      let holds (t : State) (ids : List ℕ) : Prop := ∃ h ∈ (t.thread th).holds, h.ids = ids ∧ h.reads = true ∧
        h.writes = true ∧ h.inval = decide (1 ≤ scope)
      ∃ t, exec (.ldaq sw d a z f) s = .next t ∧
        if away then issued t (.ldaq sw d a z f) va z.regs none (some { vals := List.replicate z.regs 0 }) ∧
          (s.allDone earlier = false → holds t earlier)
        else issued t (.ldaq sw d a z f) va z.regs none none ∧ holds t [s.nextId] ∧
          ∃ r, asks t r va z.bytes false ∧ r.waits = earlier ∧
            r.parts = [{ va := va.toNat, loc := place, len := z.bytes }])

/-- R173, R175: a store sends the bytes of its source, each to the place of its address, and the thread goes on; the
request of STRL is a release that waits for the writes its scope covers. R141: a line that the store moves from another
alias is filled. R149: the store is the write of every FENCE.REL before it that names path P and has still to take its
write. -/
def Obligations.Stores : Prop :=
  ∀ (sw : Bool) (d a i b : BitVec 7) (q : StQ) (z : AccSize) (f : BitVec 3) (s : State) (th : ThreadRef)
      (segs : List (Nat × Nat × Leaf)),
    let u := s.thread th
    let ea : DWord := u.pair a.toNat + i.signExtend 64 * BitVec.ofNat 64 q.size
    let carries (r : Req) (va : DWord) (n v : ℕ) : Prop :=
      r.path = .p ∧ r.kind = .store ∧ r.th = th ∧ r.va = va ∧ r.lost = none ∧
      (∀ x ∈ r.parts, x.done = false ∧ x.data.length = x.len ∧ x.loc = placeAt segs x.va ∧
        ∀ j, j < x.len → x.data[j]? = some (byteOf v (x.va + j - va.toNat))) ∧
      ∀ k, k < n → ∃ x ∈ r.parts, x.va ≤ va.toNat + k ∧ va.toNat + k < x.va + x.len
    let noted (t : State) : Prop := (t.thread th).relNext = u.relNext.filter fun f => !f.paths.getLsbD 0
    s.heldAtIssue th .p true = false →
    (Alone s (.st sw d a i q) th → Reached s th { write := true } ea q.size 1 segs →
      ∃ t r, exec (.st sw d a i q) s = .next t ∧ carries r ea q.size (u.wide d.toNat q.regs) ∧
        r.waits = [] ∧ SentAfterFills s t (.st sw d a i q) th r (fun v => v.noteWrite t.pending .p r.id 0) ∧ noted t) ∧
    (Alone s (.strl sw z a b f) th → Reached s th { write := true } (u.pair a.toNat) z.bytes z.bytes segs →
      ∃ t r, exec (.strl sw z a b f) s = .next t ∧ carries r (u.pair a.toNat) z.bytes (u.wide b.toNat z.regs) ∧
        r.waits = s.releaseWaits th (promote f.toNat (coreDie (s.coreOf th)) (placeAt segs (u.pair a.toNat).toNat)) ∧
        r.id = s.nextId ∧ noted t ∧ Sent s t (.strl sw z a b f) th r fun v =>
          v.noteWrite t.pending .p r.id (promote f.toNat (coreDie (s.coreOf th)) (placeAt segs (u.pair a.toNat).toNat)))

/-- R176 to R178: ATOM, CAS and RED send one indivisible operation to the home of their address, with its operand and,
for ATOM and CAS, the registers that wait for the old value. A release waits for the writes its scope covers, an
acquire for the thread's earlier releases. R149, R152: all but CAS are the write of the FENCE.RELs before them that
name path P; a CAS is that only once it has written. R176 to R178 and Table 12.3: what the home slice does with a
read-modify-write. -/
def Obligations.Atomics : Prop :=
  (∀ (sw rel : Bool) (o : Ord) (ty : AtomTy) (w : Width) (d a b : BitVec 5) (x y : BitVec 7) (f : BitVec 3) (s : State)
       (th : ThreadRef) (segs : List (Nat × Nat × Leaf)),
     let u := s.thread th
     let v (w : Width) (k : ℕ) : ℕ := match w with
       | .w32 => (u.reg k).toNat
       | .w64 => (u.pair k).toNat
     let tw : Width := match ty with | .i32 => .w32 | .n32 => .w32 | _ => .w64
     let sg : Bool := match ty with | .i32 => true | .i64 => true | _ => false
     let acq : Bool := o = .acq ∨ o = .ar
     let rls : Bool := o = .rel ∨ o = .ar
     let carries (r : Req) (k : ReqKind) (va : DWord) (n : ℕ) (acq rls : Bool) : Prop :=
       let place := placeAt segs va.toNat
       let scope := promote f.toNat (coreDie (s.coreOf th)) place
       r.id = s.nextId ∧ r.path = .p ∧ r.kind = k ∧ r.th = th ∧ r.va = va ∧
         r.parts = [{ va := va.toNat, loc := place, len := n }] ∧
         r.waits = (if rls then s.releaseWaits th scope else []) ++ if acq then s.acquireWaits th scope (some place) else []
     let noted (r : Req) (t : State) (rls sure : Bool) (z : Thread) : Thread :=
       z.noteWrite t.pending .p r.id
         (if rls then promote f.toNat (coreDie (s.coreOf th)) (placeAt segs r.va.toNat) else 0) sure
     (∀ e ∈ ([(.atomAdd sw o d ty a b f, .rmw .add (4 * tw.regs) (v tw b.toNat) true, tw),
         (.atomMin sw o d ty a b f, .rmw (.min sg) (4 * tw.regs) (v tw b.toNat) true, tw),
         (.atomMax sw o d ty a b f, .rmw (.max sg) (4 * tw.regs) (v tw b.toNat) true, tw),
         (.atomAddF32 sw o d a b f, .rmw .addF32 4 (v .w32 b.toNat) true, .w32),
         (.atomAnd sw o d w a b f, .rmw .and (4 * w.regs) (v w b.toNat) true, w),
         (.atomOr sw o d w a b f, .rmw .or (4 * w.regs) (v w b.toNat) true, w),
         (.atomXor sw o d w a b f, .rmw .xor (4 * w.regs) (v w b.toNat) true, w),
         (.atomExch sw o d w a b f, .rmw .exch (4 * w.regs) (v w b.toNat) true, w),
         (.cas sw o d w a b f, .cas (4 * w.regs) (v w b.toNat) (v w (b.toNat + w.regs)), w)] :
         List (Instr × ReqKind × Width)),
       Alone s e.1 th → u.full = false → s.heldAtIssue th .p false = false → s.heldAtIssue th .p true = false →
       Reached s th { read := true, write := true, noSuc := true } (u.pair a.toNat) (4 * e.2.2.regs) (4 * e.2.2.regs) segs →
       ∃ t r, exec e.1 s = .next t ∧ carries r e.2.1 (u.pair a.toNat) (4 * e.2.2.regs) acq rls ∧
         Sent s t e.1 th r (fun z => noted r t rls e.2.1.surelyWrites (z.awaits s.nextId d.toNat e.2.2.regs none none 0)) ∧
         (t.thread th).relNext = (match e.2.1 with
           | .cas _ _ _ => u.relNext
           | _ => u.relNext.filter fun f => !f.paths.getLsbD 0) ∧
         (acq = true → ∃ h ∈ (t.thread th).holds, h.ids = [s.nextId] ∧ h.reads = true ∧ h.writes = true)) ∧
     (∀ e ∈ ([(.redAdd sw rel w x y f, .add, w), (.redAddF32 sw rel x y f, .addF32, .w32),
         (.redMinI32 sw rel x y f, .min true, .w32), (.redMinN32 sw rel x y f, .min false, .w32),
         (.redMaxI32 sw rel x y f, .max true, .w32), (.redMaxN32 sw rel x y f, .max false, .w32),
         (.redAnd sw rel x y f, .and, .w32), (.redOr sw rel x y f, .or, .w32), (.redXor sw rel x y f, .xor, .w32)] :
         List (Instr × RmwOp × Width)),
       Alone s e.1 th → s.heldAtIssue th .p true = false →
       Reached s th { write := true, noSuc := true } (u.pair x.toNat) (4 * e.2.2.regs) (4 * e.2.2.regs) segs →
       ∃ t r, exec e.1 s = .next t ∧
         carries r (.rmw e.2.1 (4 * e.2.2.regs) (v e.2.2 y.toNat) false) (u.pair x.toNat) (4 * e.2.2.regs) false rel ∧
         Sent s t e.1 th r (noted r t rel true) ∧
         (t.thread th).relNext = u.relNext.filter fun f => !f.paths.getLsbD 0)) ∧
  (∀ (n x y : ℕ), n = 4 ∨ n = 8 → x < 2 ^ (8 * n) → y < 2 ^ (8 * n) →
     let sx : ℤ := (BitVec.ofNat (8 * n) x).toInt
     let sy : ℤ := (BitVec.ofNat (8 * n) y).toInt
     RmwOp.add.apply n x y = (x + y) % 2 ^ (8 * n) ∧
     (RmwOp.min false).apply n x y = min x y ∧ (RmwOp.max false).apply n x y = max x y ∧
     (RmwOp.min true).apply n x y = (if sx ≤ sy then x else y) ∧ (RmwOp.max true).apply n x y = (if sy ≤ sx then x else y) ∧
     RmwOp.and.apply n x y = x &&& y ∧ RmwOp.or.apply n x y = x ||| y ∧ RmwOp.xor.apply n x y = x ^^^ y ∧
     RmwOp.exch.apply n x y = y ∧
     RmwOp.addF32.apply 4 x y = (ctx32.sum (readNum fp32 x) (readNum fp32 y)).1)

/-- R151, R152 and R180: FENCE goes on at once. Its release part holds later writes on the named paths until the
writes it covers are over; its acquire part holds every later operation on those paths, and, once what it waits for is
over, invalidates the L1 at team scope or wider (R140). Registers, requests and memory stand. R72 and R182: on a page
that the core's TLB holds and the program may see, SLICEOF writes where the line lives; PREQ asks for a non-resident
OPT page of the package and leaves the rest; PREF.L1 sends a fill of a line that the L1 lacks in part, and PREF.L2 and
PREF.MSC change no value; LINV drops lines of the L1 and the fetch cache. None of them writes memory, but for PREQ,
whose record may enter the fault queue at once. The model's choices: what a copy or a string operation covers is read
from its pages as they translate now (log 27), a fill may share an earlier one (log 20), and LINV.LINE leaves the line
under other aliases (log 23). -/
def Obligations.FencesAndCacheControl : Prop :=
  (∀ (sw : Bool) (m : BitVec 4) (f : BitVec 3) (s : State) (th : ThreadRef),
     let p := m.getLsbD 0
     let holds (t : State) (ids copies : List ℕ) (reads : Bool) : Prop :=
       if (s.allDone ids && copies.all s.copyRead) = true then
         reads = true → 1 ≤ f.toNat → (t.core (s.coreOf th)).l1 = []
       else ∃ h ∈ (t.thread th).holds, h.ids = ids ∧ h.copies = copies ∧ h.reads = reads ∧ h.writes = p ∧
         h.c = m.getLsbD 1 ∧ h.m = m.getLsbD 2 ∧ h.n = m.getLsbD 3 ∧ h.inval = (reads && decide (1 ≤ f.toNat))
     let taken : List RelFence := if p ∧ 2 ≤ f.toNat then [⟨s.nextId, m, f.toNat⟩] else []
     let released : State := s.fenceRelease th m f.toNat
     let reads : List ℕ := s.fenceCopyReads th m f.toNat
     let ends (i : Instr) (facts : State → Prop) (rel : Bool) : Prop :=
       ∃ t, exec i s = .next t ∧ t.ply = none ∧ t.reqs = s.reqs ∧ facts t ∧
         { t.thread th with holds := [] } = { ((s.thread th).entering i).leaving s.tick with
           holds := [], relNext := (s.thread th).relNext ++ if rel then taken else [] } ∧
         (∀ u, u ≠ th → t.thread u = s.thread u) ∧ ∀ a, Memory.read t.mem a = Memory.read s.mem a
     (Alone s (.fenceRel sw m f) th →
       ends (.fenceRel sw m f) (fun t => holds t (s.fenceReleaseIds th m f.toNat) [] false) true) ∧
     (Alone s (.fenceAcq sw m f) th →
       ends (.fenceAcq sw m f) (fun t => holds t (s.fenceAcquireIds th m f.toNat) reads p) false) ∧
     (Alone s (.fenceAr sw m f) th →
       ends (.fenceAr sw m f) (fun t => holds t (s.fenceReleaseIds th m f.toNat) [] false ∧
         holds t (released.fenceAcquireIds th m f.toNat) reads p) true)) ∧
  (∀ (sw : Bool) (d a i : BitVec 7) (s : State) (th : ThreadRef) (l : Leaf),
     let u := s.thread th
     let core := s.coreOf th
     let tag := (s.tenant (s.tenantOf th)).astag
     let seen (va : DWord) : Prop := va.toNat < 2 ^ 57 ∧ (s.tenant (s.tenantOf th)).en = true ∧
       tlbLookup (s.cluster (coreCluster core)).tlb tag va.toNat = some l ∧ s.hwOwned (l.locate va.toNat) = false
     let ea : DWord := u.pair a.toNat + i.signExtend 64 * 64
     let away := l.opt && !l.res
     let page := ea.toNat / l.size * l.size / 4096
     let filled (t : State) (x : ReqPart) : Prop :=
       ∃ r : Req, r.kind = .prefetch ∧ r.th = th ∧ r.parts = [x] ∧ Sent s t (.prefL1 sw a i) th r fun v => v
     (Alone s (.sliceof sw d a) th → (u.entering (.sliceof sw d a)).settled d.toNat 2 → seen (u.pair a.toNat) →
       Does s (.sliceof sw d a) th (fun v => v.writePair d.toNat (s.sliceOf l (u.pair a.toNat).toNat)) s) ∧
     (Alone s (.sliceof sw d a) th → (u.entering (.sliceof sw d a)).settled d.toNat 2 →
       2 ^ 57 ≤ (u.pair a.toNat).toNat → Does s (.sliceof sw d a) th (fun v => v.writePair d.toNat 0) s) ∧
     (Alone s (.preq sw a i) th → seen ea → (!away || l.suc || l.peer) = true → Does s (.preq sw a i) th id s) ∧
     (Alone s (.preq sw a i) th → seen ea → away = true → l.suc = false → l.peer = false →
       ∃ t, exec (.preq sw a i) s = .next t ∧ t.ply = none ∧ t.thread th = (u.entering (.preq sw a i)).leaving s.tick ∧
         ((s.tenant (s.tenantOf th)).fqEn = true → 2 ^ (s.tenant (s.tenantOf th)).fqLog ≤ s.unresolved (s.tenantOf th) ∨
             (s.faultSlot (s.tenantOf th)).isSome = true →
           t.faultPosts.any (fun r => r.tenant == s.tenantOf th && r.page == page && r.kind == 3) = true ∨
           t.faultRecords.any (fun r => r.tenant == s.tenantOf th && r.page == page && r.kind == 3) = true)) ∧
     (Alone s (.prefL1 sw a i) th → seen ea → away = false → l.suc = false → l.peer = false →
       (∀ c, (s.core core).lineAt tag (ea.toNat / 64) = some c → c.valid ≠ BitVec.allOnes 16) →
       ∃ t x, exec (.prefL1 sw a i) s = .next t ∧ filled t x ∧ x.va = ea.toNat / 64 * 64 ∧
         x.loc = (l.locate ea.toNat).lineStart ∧ x.len = 64 ∧ x.fill = true ∧ x.keep = true ∧
         ((∀ c ∈ (s.core core).l1, c.isAt tag (ea.toNat / 64) = false ∧ c.loc ≠ (l.locate ea.toNat).line) →
           (∀ q ∈ s.reqs, q.core = core → ∀ y ∈ q.parts, y.loc ≠ x.loc) →
           x = { va := x.va, loc := x.loc, len := 64, fill := true, keep := true })) ∧
     (Alone s (.prefL1 sw a i) th → seen ea → away = true ∨ l.suc = true ∨ l.peer = true ∨
       (∃ c, (s.core core).lineAt tag (ea.toNat / 64) = some c ∧ c.valid = BitVec.allOnes 16) →
       Does s (.prefL1 sw a i) th id s) ∧
     (Alone s (.prefL2 sw a i) th → seen ea → Does s (.prefL2 sw a i) th id s) ∧
     (Alone s (.prefMsc sw a i) th → seen ea → Does s (.prefMsc sw a i) th id s) ∧
     (Alone s (.linvLine sw a i) th → seen ea →
       ∃ t, exec (.linvLine sw a i) s = .next t ∧ t.ply = none ∧ t.mem = s.mem ∧
         t.thread th = (u.entering (.linvLine sw a i)).leaving s.tick ∧
         ∀ c, (c ∈ (t.core core).l1 ↔ c ∈ (s.core core).l1 ∧ ¬(c.tag = tag ∧ c.vline = ea.toNat / 64)) ∧
           (c ∈ (t.core core).fetch ↔ c ∈ (s.core core).fetch ∧ ¬(c.tag = tag ∧ c.vline = ea.toNat / 64))) ∧
     (Alone s (.linvCore sw) th →
       Does s (.linvCore sw) th id
         (s.setCore core { s.core core with l1 := [], fetch := [], acquires := (s.core core).acquires + 1 })) ∧
     (Alone s (.linvCluster sw) th →
       ∃ t, exec (.linvCluster sw) s = .next t ∧ t.ply = none ∧ t.mem = s.mem ∧
         t.thread th = (u.entering (.linvCluster sw)).leaving s.tick ∧
         ∀ c, if c ∈ clusterCores (coreCluster core) then (t.core c).l1 = [] ∧ (t.core c).fetch = []
           else t.core c = s.core c))

/-! ### The steps of a request -/

/-- R158, R166: HOME_SLICE_ACCESS performs a part of a request at the home of its place: a store's bytes land there; a
read-modify-write lands its new value and gives back the old one, a CAS only where the old value is the one compared;
a load reads. Nothing else in memory changes. R200: SUC_WRITE_MARK performs a store to a line of a registered string
and marks its block: a block that was valid joins the stack's repair queue. -/
def Obligations.HomeSliceAccess : Prop :=
  (∀ (s : State) (id k : ℕ) (r : Req) (x : ReqPart), s.MemOk → s.findReq id = some r → r.parts[k]? = some x →
     s.mayPerform r k false = true → s.dropsWrites x.loc = false →
     let e : Instr := .homeSliceAccess id k
     let old (n : ℕ) : ℕ := valueOf (fun j => s.byteAt (x.loc.plus j)) n
     let result (n : ℕ) : Result :=
       { vals := wordsOf (old n) (n / 4), poison := if s.isPoisoned x.loc then some r.va else none }
     let finished (t : State) : Prop := ∃ q ∈ t.reqs, q.id = id ∧ (q.parts[k]?).map (·.done) = some true
     let gone (t : State) : Prop := ∀ q ∈ t.reqs, q.id ≠ id
     (r.kind = .store → ∃ t, exec e s = .next t ∧ Landed s t x.loc x.data ∧ finished t) ∧
     (∀ op n v, r.kind = .rmw op n v true → x.len = n → ∃ t, exec e s = .next t ∧
       Landed s t x.loc (leBytes n (op.apply n (old n) v)) ∧ gone t ∧ Answered s t r.th id (result n)) ∧
     (∀ op n v, r.kind = .rmw op n v false → x.len = n → ∃ t, exec e s = .next t ∧
       Landed s t x.loc (leBytes n (op.apply n (old n) v)) ∧ finished t) ∧
     (∀ n c v, r.kind = .cas n c v → x.len = n → ∃ t, exec e s = .next t ∧ gone t ∧ Answered s t r.th id (result n) ∧
       if old n = c then Landed s t x.loc (leBytes n v) else ∀ m, t.byteAt m = s.byteAt m) ∧
     (∀ n g, r.kind = .load n g → ∃ t, exec e s = .next t ∧ (∀ m, t.byteAt m = s.byteAt m)) ∧
     (∀ q : LdQ, r.kind = .load q.size (decide (q = .i8 ∨ q = .i16)) → r.parts = [x] → x.fill = false →
       x.va = r.va.toNat → x.len = q.size → ∃ t, exec e s = .next t ∧ gone t ∧
         Answered s t r.th id
           { vals := extendedLoad q (valueOf (fun j => Tab.get x.seen j (s.byteAt (x.loc.plus j))) q.size), pred := true
             poison := if s.isPoisoned x.loc then some r.va else none })) ∧
  (∀ (s : State) (id k : ℕ) (r : Req) (x : ReqPart) (y : Str) (b : ℕ), s.MemOk → s.findReq id = some r → r.parts[k]? = some x →
     s.mayPerform r k true = true → s.dropsWrites x.loc = false → r.kind = .store → s.stringsAt x.loc = [(y, b)] →
     ∃ t, exec (.sucWriteMark id k) s = .next t ∧ Landed s t x.loc x.data ∧
       (y.isStale b = false → (s.splicer y.stack).repairs y.key b = false →
         (t.splicer y.stack).queue = (s.splicer y.stack).queue ++ [(y.key, b)] ∧
         ∀ z ∈ t.strings, z.key = y.key → b ∈ z.stale) ∧
       (y.isStale b = true → (s.splicer y.stack).repairs y.key b = false →
         (t.splicer y.stack).queue = (s.splicer y.stack).queue) ∧
       ((s.splicer y.stack).repairs y.key b = true → (t.splicer y.stack).again = true))

/-- R139 and R151: WRITE_ACKNOWLEDGED ends a write that is performed. MERGING_FILL returns a filled line to its load:
the registers' value is that of the line's bytes, a line that the L1 lacks is installed whole, and of one that it
holds the valid words stand and the others take the fill's bytes. A line that is installed displaces lines of its own
set only (R138). The model's choices: a core's fills of one line are one read, which takes what the core has stored
since (log 20); nothing is installed where the core has acquired since, the fill was cancelled (log 20) or the line is
poisoned (log 22). The operations of a batch return together (log 120); this is of one in none. R26, R304 and R295:
CLASS_L_RESULT writes the registers and the predicate of an outstanding operation, or poisons the registers, or
reports the operation's fault and leaves them; a parked thread with nothing outstanding becomes Ready. -/
def Obligations.ResultsAndFills : Prop :=
  (∀ (s : State) (id : ℕ) (r : Req), s.findReq id = some r →
     (r.acknowledgeable = true → ∃ t, exec (.writeAcknowledged id) s = .next t ∧
       t.reqs = s.reqs.filter (fun q => q.id != id) ∧ t.mem = s.mem ∧ ∀ th, (t.thread th).regs = (s.thread th).regs) ∧
     (∀ (q : LdQ) (x : ReqPart), r.kind = .load q.size (decide (q = .i8 ∨ q = .i16)) → r.parts = [x] → x.done = true →
       x.fill = true → x.len = 64 → x.got.length = 64 → x.va ≤ r.va.toNat → r.va.toNat + q.size ≤ x.va + 64 →
       let loaded (i : ℕ) : Byte := Tab.get x.seen i (x.got.getD i 0)
       let stored (i : ℕ) : Byte := Tab.get x.stored i (x.got.getD i 0)
       let l1 := (s.core r.core).l1
       let set (c : CacheLine) : ℕ := Config.l1Set c.vline % s.l1Sets r.core
       ∃ t, exec (.mergingFill id) s = .next t ∧ t.reqs = s.reqs.filter (fun q => q.id != id) ∧ t.mem = s.mem ∧
         Answered s t r.th id
           { vals := extendedLoad q (valueOf (fun j => loaded (r.va.toNat - x.va + j)) q.size), pred := true
             poison := if x.bad then some r.va else none } ∧
         (x.keep = true → x.bad = false → (s.core r.core).acquires = r.installs →
           (∀ th, s.holds th = true → (s.thread th).holds = []) →
           (l1.all (fun c => !c.isAt r.tag (x.va / 64) && c.loc != x.loc.line) = true →
             ∃ o, let new : CacheLine := ⟨r.tag, x.va / 64, x.loc.line, BitVec.allOnes 16, (List.range 64).map stored, o⟩
             new ∈ (t.core r.core).l1 ∧ (∀ c ∈ (t.core r.core).l1, c = new ∨ c ∈ l1) ∧
               ∀ c ∈ l1, set c ≠ set new → c ∈ (t.core r.core).l1) ∧
           (∀ c, (s.core r.core).lineAt r.tag (x.va / 64) = some c → ∃ c' ∈ (t.core r.core).l1,
             c' = { c with valid := BitVec.allOnes 16, data := c'.data, origin := c'.origin } ∧
             ∀ i, i < 64 → c'.data.getD i 0 = if c.valid.getLsbD (i / 4) then c.data.getD i 0 else stored i)) ∧
         (x.keep = false ∨ x.bad = true ∨ (s.core r.core).acquires ≠ r.installs →
           (∀ th, s.holds th = true → (s.thread th).holds = []) → (t.core r.core).l1 = (s.core r.core).l1))) ∧
  (∀ (s : State) (th : ThreadRef) (op : ℕ) (o : Outstanding) (r : Result), s.holds th = true →
     (s.thread th).outs.find? (fun x => x.op == op) = some o → o.batch = 0 → o.result = some r →
     let u := s.thread th
     let rest := u.outs.filter fun x => x.op != op
     let ready (n : ℕ) (v : Thread) : Thread :=
       if u.status = .parked ∧ rest = [] then { v with status := .ready, readyAt := n } else v
     (∀ f, r.fault = some f → ∃ t, exec (.classLResult th op) s = .next t ∧
       t.thread th = ready s.tick { u with outs := rest, faults := Tab.put u.faults op f } ∧ OnlyThreads s t [th]) ∧
     (r.fault = none → o.regs.length = r.vals.length → o.regs.Nodup →
       (∀ i ∈ o.regs, u.unspec.contains i = false ∧ ∀ x ∈ rest, i ∉ x.regs) →
       (∀ k, o.pred = some k → k = 0 ∨ (u.unspecPreds.contains k = false ∧ ∀ x ∈ rest, x.pred ≠ some k)) →
       ∃ t, exec (.classLResult th op) s = .next t ∧ OnlyThreads s t [th] ∧
         (∀ j, j < o.regs.length → Tab.get (t.thread th).regs (o.regs.getD j 0) 0 = r.vals.getD j 0) ∧
         (∀ i, i ∉ o.regs → Tab.get (t.thread th).regs i 0 = Tab.get u.regs i 0) ∧
         (∀ i, i ∈ (t.thread th).poison ↔ (i ∈ o.regs ∧ r.poison.isSome) ∨ (i ∈ u.poison ∧ i ∉ o.regs)) ∧
         t.thread th = ready s.tick { u with
           outs := rest, regs := (t.thread th).regs, poison := (t.thread th).poison
           paddr := r.poison.getD u.paddr
           preds := match o.pred with | some k => (u.writePred k r.pred).preds | none => u.preds }))

/-- R303: LOST_WRITE reports a write that failed its checks after leaving its thread: the group holds the fault for
its next release or EXIT, with the TRAPAUX that the instruction's chapter states, else the attribution word (R294).
R146: CONTROLLER_AGE_CAP changes time only. R295 and R303: an imprecise fault that a group holds is taken at the next
release or EXIT of any of its threads, before that instruction; a marker-precise fault of a thread at its next switch
point, with the program counter of the instruction that failed, and the thread's other faults wait until that switch
point is reached again. The model's choice: one that comes while a SOLICIT waits to be sent is for the next release
(log 25). -/
def Obligations.LostWritesAndHeldFaults : Prop :=
  (∀ (s : State) (id : ℕ), exec (.controllerAgeCap id) s = .next s ∧
     ∀ (r : Req) (code : Word) (aux : DWord), s.findReq id = some r → r.lost = some (code, aux) →
       (s.group r.th).live = true →
       let off := (r.pc - (s.gridOf r.th.team).code).toNat / 4
       let path := match r.path with | .p => 0 | .c => 1 | .m => 2 | .n => 3
       let word : DWord := BitVec.ofNat 64 <| (if off < 2 ^ 20 ∧ (s.gridOf r.th.team).code ≤ r.pc then off + 2 ^ 20 else 0) + 2 ^ 21 * path
       ∃ t, exec (.lostWrite id) s = .next t ∧ t.reqs = s.reqs.filter (fun q => q.id != id) ∧
         (t.group r.th).faults = (s.group r.th).faults ++ [⟨r.pc, code, r.va, if aux = 0 then word else aux⟩] ∧
         ∀ th, (t.thread th).regs = (s.thread th).regs) ∧
  (∀ (i : Instr) (s : State) (th : ThreadRef) (p : Ply) (r : Report), i.inTurn = true → s.ply = some p →
     p.members = [th] → s.holds th = true → s.handles th → (s.thread th).joined = 0 →
     ((s.thread th).status = .ready ∨ (s.thread th).status = .stalled) →
     (i.takesImprecise = true → (i.parks = true → (s.thread th).outs = [] ∧ (s.thread th).faults = []) →
       (i.sends = true → (s.thread th).waitOp = none) → (s.group th).faults.head? = some r →
       ∃ t, exec i s = .next t ∧ (t.group th).faults = (s.group th).faults.tail ∧
         t.thread th = ((s.thread th).entering i).trapped { r with pc := (s.thread th).pc } true (s.thread th).pc
           (s.gridOf th.team).handler s.tick) ∧
     (i.parks = true → (s.thread th).outs = [] → (s.thread th).replay = none →
       ∀ n, (s.thread th).faults.head? = some (n, r) →
       ∃ t, exec i s = .next t ∧
         t.thread th = (({ (s.thread th).entering i with faults := (s.thread th).faults.tail } : Thread).trapped r false
           (s.thread th).pc (s.gridOf th.team).handler s.tick).shelving .marker))

/-! ### Barriers, rendezvous, waits and signals -/

/-- R243 to R245, R247: an arrival waits for its thread's earlier acquires and fences, and counts once in each phase;
BAR.SYNC then blocks and BAR.ARRIVE goes on, unless the phase completes; an arrival that still stands is waited for
first. BAR.WAIT blocks while its thread's arrival stands. BARSET sets the expected count and the exit mask. R244: the
arrival that reaches the expected count completes the phase: the phase number rises by 1 modulo 2^16, the count starts
anew, the deferred exits leave the expected count, no arrival stands, and no thread of the team waits at the barrier
any more. -/
def Obligations.TeamBarriers : Prop :=
  (∀ (sw : Bool) (k : BitVec 4) (a : BitVec 7) (s : State) (th : ThreadRef),
     let b := k.toNat
     let x := s.barrier th.team b
     let arrived := (s.thread th).arrived.getLsbD b
     let counts (v : Thread) : Thread := { v with arrived := v.arrived ||| (1#16 <<< b) }
     let with_ (y : Barrier) : State := s.modTeam th.team fun t => { t with barriers := Tab.put t.barriers b y }
     let v := ((s.thread th).reg a.toNat).toNat
     (Alone s (.barSync sw k) th → s.heldAtIssue th .p true = false → arrived = false → x.arr + 1 < x.exp →
       Blocks s (.barSync sw k) th (.barrier b true false) counts (with_ { x with arr := x.arr + 1 })) ∧
     (Alone s (.barSync sw k) th → s.heldAtIssue th .p true = false → arrived = true →
       Blocks s (.barSync sw k) th (.barrier b true true) id s) ∧
     (Alone s (.barArrive sw k) th → s.heldAtIssue th .p true = false → arrived = false → x.arr + 1 < x.exp →
       Does s (.barArrive sw k) th counts (with_ { x with arr := x.arr + 1 })) ∧
     (Alone s (.barArrive sw k) th → s.heldAtIssue th .p true = false → arrived = true →
       Blocks s (.barArrive sw k) th (.barrier b true true) id s) ∧
     (Alone s (.barWait sw k) th → arrived = false → Does s (.barWait sw k) th id s) ∧
     (Alone s (.barWait sw k) th → arrived = true → Blocks s (.barWait sw k) th (.barrier b false false) id s) ∧
     (Alone s (.barset sw k a) th → 1 ≤ v % 2048 → v % 2048 ≤ 1024 → v / 2048 % 32 = 0 → v / 2 ^ 20 = 0 →
       x.arr < v % 2048 → Does s (.barset sw k a) th id
         (with_ { x with exp := v % 2048, mask := BitVec.ofNat 4 (v / 2 ^ 16), defer := 0 }))) ∧
  (∀ (sw : Bool) (k : BitVec 4) (s : State) (th : ThreadRef), s.Orderly →
     let b := k.toNat
     let x := s.barrier th.team b
     ∀ i ∈ ([.barSync sw k, .barArrive sw k] : List Instr), Alone s i th → s.heldAtIssue th .p true = false →
       (s.thread th).arrived.getLsbD b = false → x.exp ≤ x.arr + 1 →
       ∃ t, exec i s = .next t ∧ t.ply = none ∧
         t.barrier th.team b = { x with phase := x.phase + 1, arr := 0, exp := x.exp - x.defer, defer := 0, sig := false } ∧
         (t.thread th).status = .ready ∧ (t.thread th).pc = (s.thread th).replay.getD ((s.thread th).pc + 4) ∧
         (∀ u, u.team = th.team → t.holds u = true →
           (t.thread u).arrived.getLsbD b = false ∧ ¬((t.thread u).status = .blocked ∧ (t.thread u).wait.onBarrier b = true)) ∧
         (∀ u, (t.thread u).regs = (s.thread u).regs) ∧ ∀ n, Memory.read t.mem n = Memory.read s.mem n)

/-- R248: a thread at GSYNC blocks while a live lane that it names stands elsewhere. When every live lane that it or
any thread of the rendezvous names stands there, all of them go on, as one ply. -/
def Obligations.GroupRendezvous : Prop :=
  ∀ (sw : Bool) (a : BitVec 7) (m : BitVec 14) (s : State) (th : ThreadRef), s.Orderly →
    let there (l : ℕ) : Prop := l = th.lane ∨ ∃ v n, Tab.find (s.group th).threads l = some v ∧ v.status = .blocked ∧
      v.pc = (s.thread th).pc ∧ v.wait = .gsync n
    let live (l : ℕ) : Prop := ∃ v, Tab.find (s.group th).threads l = some v ∧ v.status ≠ .exited
    ∀ e ∈ ([(.gsync sw a, (s.thread th).pair a.toNat), (.gsyncImm sw m, m.signExtend 64)] : List (Instr × DWord)),
      Alone s e.1 th →
      ((∃ l, live l ∧ e.2.getLsbD l = true ∧ ¬there l) →
        Blocks s e.1 th (.gsync (e.2 ||| (1#64 <<< th.lane))) id s) ∧
      ((∀ l, live l → (e.2.getLsbD l = true ∨ ∃ j v n, there j ∧ j ≠ th.lane ∧
          Tab.find (s.group th).threads j = some v ∧ v.wait = .gsync n ∧ n.getLsbD l = true) → there l) →
        ∃ t, exec e.1 s = .next t ∧ t.ply = none ∧ ∀ l, there l →
          let v := t.thread ⟨th.team, th.group, l⟩
          let w := s.thread ⟨th.team, th.group, l⟩
          v.status = .ready ∧ v.wait = .none ∧ v.joined = s.tick + 1 ∧ v.pc = w.replay.getD (w.pc + 4) ∧ v.regs = w.regs)

/-- R249: WAITV reads its word at the home, once the thread's earlier releases are performed and the line's channel is
awake (R342); where the comparison holds the thread goes on as an acquire at system scope, with the core's L1
invalidated; otherwise it blocks, watching its line where the slice has a watch left (R250). Memory stands. R250 and
R251: a waiter that its watch wakes, or that polls, reads its word again and goes on where the comparison holds; the
watchdog raises BARRIER_STALL in a thread blocked at a WAITV or a BOBWAIT for WDOG × 1,024 cycles. That the bytes of a
poisoned line are compared as they stand is the model's choice (log 163). -/
def Obligations.Waits : Prop :=
  (∀ (sw g : Bool) (c : ICond) (a b : BitVec 7) (w : Width) (s : State) (th : ThreadRef) (segs : List (ℕ × ℕ × Leaf)),
     let i : Instr := .waitv sw c g a b w
     let u := s.thread th
     let ea := u.pair a.toNat
     let l := placeAt segs ea.toNat
     let x : DWord := BitVec.ofNat 64 (valueOf (fun k => s.byteAt (l.plus k)) (4 * w.regs))
     Alone s i th → s.heldAtIssue th .p false = false → s.allDone (s.acquireWaits th 4 (some l)) = true →
     Reached s th { read := true, resident := true } ea (4 * w.regs) (4 * w.regs) segs →
     s.lineBusy (s.coreOf th) l.line = false → s.asleep l = false →
     ∃ t, exec i s = .next t ∧ t.ply = none ∧ t.mem = s.mem ∧ (∀ v, v ≠ th → t.thread v = s.thread v) ∧
       if waitHolds c g w x (u.value w b) then
         { t.thread th with holds := [] } = { (u.entering i).leaving s.tick with holds := [] } ∧
           (t.core (s.coreOf th)).l1 = []
       else ∃ watched slice,
         t.thread th = (u.entering i).blocking (.waitv ea watched slice c g w (u.value w b)) (s.cyclesOf (s.coreOf th)) ∧
         ∀ d, l = .dev d → (watched = true ↔ s.watches slice < Config.sliceWatches) ∧
           slice = placeDie d * 48 + homeSlice (dieAddr d)) ∧
  (∀ (s : State) (th : ThreadRef), s.holds th = true →
     (∀ ea watched k c g w b l, (s.thread th).wait = .waitv ea watched k c g w b → s.waitPlace th ea = some l →
       s.waitWatched th = some watched → s.waitEnds th = true → (watched = false → 1024 ≤ s.blockedFor th) →
       (s.quietReads th ea ++ [l]).any s.asleep = false →
       ∃ t, exec (if watched then .waitvWake th else .waitvPoll th) s = .next t ∧ t.mem = s.mem ∧
         { t.thread th with holds := [] } = { (s.thread th).leaving s.tick with holds := [] } ∧
         ∀ u, u ≠ th → t.thread u = s.thread u) ∧
     (s.stallDue th = true → s.handles th →
       let falls (addr aux : DWord) : Prop := ∃ t, exec (.barrierStall th) s = .next t ∧ OnlyThreads s t [th] ∧
         t.thread th = (s.thread th).trapped ⟨(s.thread th).pc, 0x00B, addr, aux⟩ false (s.thread th).pc
           (s.gridOf th.team).handler s.tick
       (∀ ea watched k c g w b, (s.thread th).wait = .waitv ea watched k c g w b → falls ea 0x200) ∧
       (∀ n st d, (s.thread th).wait = .bobwait n st d → falls 0 (BitVec.ofNat 64 (0x300 + n)))))

/-- R253: SIGNAL sends an arrival, as a release at device scope that no acquire or fence of the thread holds back
(R152), and waits for its status. SIGNAL_APPLY counts it at the target's barrier and gives status 0 for a team that
runs, 1 for a saved one, and 2 where there is none. -/
def Obligations.Signals : Prop :=
  ∀ (sw : Bool) (k : BitVec 4) (a : BitVec 7) (s : State) (th : ThreadRef),
    (Alone s (.signal sw k a) th → (s.thread th).waitOp = none → s.heldAtIssue th .p true = false →
      Ends s (.signal sw k a) th
        (fun v => { v with waitOp := some s.nextId, status := .stalled })
        { s with
          signals := s.signals ++ [⟨th, (s.team th.team).grid, ((s.thread th).reg a.toNat).toNat, k.toNat, a.toNat + 1,
            s.releaseWaits th 3⟩]
          nextId := s.nextId + 1 }) ∧
    (∀ x : Signal, s.signalOf th = some x → x.th = th → s.signalReady x = true → s.holds th = true →
      (s.thread th).settled x.dst 1 → (s.thread th).status = .stalled → (s.thread th).wait = .none →
      let ends (status : Word) (facts : State → Prop) : Prop := ∃ t, exec (.signalApply th) s = .next t ∧
        t.signals = s.signals.filter (· != x) ∧ (t.thread th).reg x.dst = status ∧ (t.thread th).status = .ready ∧
        (t.thread th).pc = (s.thread th).replay.getD ((s.thread th).pc + 4) ∧ facts t
      let counted (n : ℕ) (t : State) : Prop :=
        let y := s.barrier n x.barrier
        y.arr + 1 < y.exp → t.barrier n x.barrier = { y with arr := y.arr + 1, sig := true }
      (∀ c n, s.locator x.grid x.index = some (.running c) → s.teamAt x.grid x.index = some n →
        (Tab.find s.teams n).isSome = true → (s.barrier n x.barrier).arr + 1 < (s.barrier n x.barrier).exp →
        ends 0 (counted n)) ∧
      (∀ n, s.locator x.grid x.index = some .saved → s.teamAt x.grid x.index = some n →
        (Tab.find s.teams n).isSome = true → (s.barrier n x.barrier).arr + 1 < (s.barrier n x.barrier).exp →
        ends 1 (counted n)) ∧
      (s.teamAt x.grid x.index = none → ends 2 fun t => ∀ n, t.barrier n x.barrier = s.barrier n x.barrier))

/-! ### Bobbins and copies -/

/-- R183 to R186 and Table 12.5: BOBSET arms an empty bobbin; BOBFREE empties one that is full, or armed with no
delivery landing, and leaves an empty one; BOBQ reads the status word (Table 12.4); BOBWAIT gives that word where the
bobbin is in its state, and otherwise blocks. -/
def Obligations.Bobbins : Prop :=
  ∀ (sw : Bool) (k : BitVec 5) (a d : BitVec 7) (st : BobState) (s : State) (th : ThreadRef),
    let b := s.bobbin th.team k.toNat
    let word : Word := BitVec.ofNat 32 (min b.drops 255 * 2 ^ 16 + b.status * 2 ^ 8 + b.state.code.toNat)
    let quiet (st : BobState) : Prop := ∀ u n, u.team = th.team → (s.thread u).wait ≠ .bobwait k.toNat st n
    let with_ (y : Bobbin) : State := s.modTeam th.team fun t => { t with bobbins := Tab.put t.bobbins k.toNat y }
    let n := ((s.thread th).reg a.toNat).toNat
    (Alone s (.bobset sw k a) th → n % 4 = 0 → 4 ≤ n → n ≤ 2 ^ 20 → b.state = .empty → quiet .winding →
      Does s (.bobset sw k a) th id (with_ { state := .winding, armed := n })) ∧
    (Alone s (.bobfree sw k) th → b.state = .empty → Does s (.bobfree sw k) th id s) ∧
    (Alone s (.bobfree sw k) th → b.state = .full ∨ (b.state = .winding ∧ b.own = false ∧ b.landing = false) →
      quiet .empty → Does s (.bobfree sw k) th id (with_ { b with state := .empty })) ∧
    (Alone s (.bobfree sw k) th → b.state = .winding → b.own = false → b.landing = true → quiet .winding →
      Does s (.bobfree sw k) th id (with_ { b with freeing := true })) ∧
    (Alone s (.bobq sw d k) th → ((s.thread th).entering (.bobq sw d k)).settled d.toNat 1 →
      Does s (.bobq sw d k) th (fun v => v.write d.toNat word) s) ∧
    (Alone s (.bobwait sw d k st) th → (s.thread th).full = false → b.state = st →
      Does s (.bobwait sw d k st) th (Thread.awaits s.nextId d.toNat 1 none (some { vals := [word] }) 0)
        { s with nextId := s.nextId + 1 }) ∧
    (Alone s (.bobwait sw d k st) th → (s.thread th).full = false → b.state ≠ st →
      Blocks s (.bobwait sw d k st) th (.bobwait k.toNat st d.toNat) id s)

/-- R187, R188, R191 and R346: a copy whose shape and places pass starts: its bobbin winds or unwinds with STATUS and
DROPS clear, and the copy of rows between memory and the team's scratchpad is in flight, after the thread's earlier
copies over the same virtual addresses (log 32; under other aliases their words keep their order, CopiesRun). R185,
R187 and Tables 12.5 and 12.9: counts that are no multiple of 4 from 4 to 2^20, places that are misaligned or beyond
the scratchpad, and events that a bobbin's state does not list are precise traps, in that order; that a copy waits for
an overlapping one before the last of these checks is the model's choice (log 130). R149: a copy to memory is the write
of the FENCE.RELs before it that name path C. -/
def Obligations.CopiesStart : Prop :=
  (∀ (sw : Bool) (k : BitVec 5) (a b : BitVec 7) (s : State) (th : ThreadRef),
     let u := s.thread th
     let r (j : ℕ) : ℕ := (u.reg (b.toNat + j)).toNat
     let va := (u.pair a.toNat).toNat
     let counts (n : ℕ) : Prop := n % 4 = 0 ∧ 4 ≤ n ∧ n ≤ 2 ^ 20
     let places : Prop := va < 2 ^ 57 ∧ va % 4 = 0 ∧ r 0 % 4 = 0
     let quiet (st : BobState) : Prop := ∀ v n, v.team = th.team → (s.thread v).wait ≠ .bobwait k.toNat st n
     let starts (i : Instr) (y : Bobbin) (c : Copy) : Prop :=
       let t : State := { s.modTeam th.team fun t => { t with bobbins := Tab.put t.bobbins k.toNat y } with
         copies := s.copies ++ [c], nextId := s.nextId + 1 }
       Does s i th (fun v => if c.inward then v else v.noteWrite t.pending .c c.id 0) t
     let copy (inward : Bool) (width rows pitch : ℕ) : Copy :=
       { id := s.nextId, th := th, core := s.coreOf th, tenant := s.tenantOf th, pc := u.pc, team := th.team
         inward := inward, bob := some k.toNat, va := va, sp := r 0, width := width, rows := rows, pitch := pitch
         after := (s.copies.filter fun c => c.th == th && decide (va < c.va + ((c.rows - 1) * c.pitch + c.width)) &&
           decide (c.va < va + ((rows - 1) * pitch + width))).map (·.id) }
     let state := (s.bobbin th.team k.toNat).state
     (Alone s (.cpyin sw k a b) th → counts (r 1) → places → r 0 + r 1 ≤ (s.team th.team).scratchSize →
       s.copyWaits th (r 0) (r 1) = false → state = .empty → quiet .winding →
       starts (.cpyin sw k a b) { state := .winding, own := true } (copy true (r 1) 1 0)) ∧
     (Alone s (.cpyout sw k a b) th → counts (r 1) → places → r 0 + r 1 ≤ (s.team th.team).scratchSize →
       s.copyWaits th (r 0) (r 1) = false → state = .empty ∨ state = .full → quiet .unwinding →
       starts (.cpyout sw k a b) { state := .unwinding } (copy false (r 1) 1 0)) ∧
     (∀ inward : Bool, Alone s (if inward then .cpy2dIn sw k a b else .cpy2dOut sw k a b) th →
       r 1 % 4 = 0 → 4 ≤ r 1 → r 1 ≤ 2 ^ 16 → 1 ≤ r 2 → r 2 ≤ 2 ^ 12 → r 3 % 4 = 0 → r 1 * r 2 ≤ 2 ^ 20 →
       (inward = false → r 1 ≤ r 3 ∨ r 2 = 1) → places → r 0 + r 1 * r 2 ≤ (s.team th.team).scratchSize →
       s.copyWaits th (r 0) (r 1 * r 2) = false → state = .empty ∨ (inward = false ∧ state = .full) →
       quiet (if inward then .winding else .unwinding) →
       starts (if inward then .cpy2dIn sw k a b else .cpy2dOut sw k a b)
         { state := if inward then .winding else .unwinding, own := inward } (copy inward (r 1) (r 2) (r 3))) ∧
     (Alone s (.cpymc sw k a b) th → counts (r 1) → r 3 / 32 % 8 = 0 → r 3 / 2 ^ 13 = 0 → places →
       s.heldAtIssue th .c true = false → (s.copies.filter fun c => c.core == s.coreOf th).length < Config.copyLimit →
       state = .empty → quiet .unwinding →
       starts (.cpymc sw k a b) { state := .unwinding }
         { copy true (r 1) 1 0 with
           multicast := true, landBob := r 3 % 32
           targets := (List.range (r 3 / 2 ^ 8 % 32 + 1)).map (r 2 + ·) })) ∧
  (∀ (sw : Bool) (k : BitVec 5) (a b : BitVec 7) (s : State) (th : ThreadRef), s.handles th →
     let u := s.thread th
     let va := u.pair a.toNat
     let sp := u.reg b.toNat
     let n := u.reg (b.toNat + 1)
     let counts : Prop := n.toNat % 4 = 0 ∧ 4 ≤ n.toNat ∧ n.toNat ≤ 2 ^ 20
     let x := s.bobbin th.team k.toNat
     let word : DWord := BitVec.ofNat 64 (BitVec.ofNat 32 (min x.drops 255 * 2 ^ 16 + x.status * 2 ^ 8 + x.state.code.toNat)).toNat
     let falls (i : Instr) (code : Word) (addr aux : DWord) : Prop :=
       Ends s i th (fun v => v.trapped ⟨v.pc, code, addr, aux⟩ false v.pc (s.gridOf th.team).handler s.tick) s
     (∀ i ∈ ([.cpyin sw k a b, .cpyout sw k a b] : List Instr), Alone s i th →
       (¬counts → falls i 0x002 0 (n.setWidth 64)) ∧
       (counts → 2 ^ 57 ≤ va.toNat → falls i 0x006 va 0) ∧
       (counts → va.toNat < 2 ^ 57 → va.toNat % 4 ≠ 0 → falls i 0x006 va 1) ∧
       (counts → va.toNat < 2 ^ 57 → va.toNat % 4 = 0 → sp.toNat % 4 ≠ 0 → falls i 0x006 (sp.setWidth 64) 1) ∧
       (counts → va.toNat < 2 ^ 57 → va.toNat % 4 = 0 → sp.toNat % 4 = 0 →
         (s.team th.team).scratchSize < sp.toNat + n.toNat → falls i 0x006 (sp.setWidth 64) 0) ∧
       (counts → va.toNat < 2 ^ 57 → va.toNat % 4 = 0 → sp.toNat % 4 = 0 →
         sp.toNat + n.toNat ≤ (s.team th.team).scratchSize → s.copyWaits th sp.toNat n.toNat = false →
         x.state = .winding ∨ x.state = .unwinding → falls i 0x002 0 word)) ∧
     (Alone s (.bobset sw k a) th → (u.reg a.toNat).toNat % 4 = 0 → 4 ≤ (u.reg a.toNat).toNat →
       (u.reg a.toNat).toNat ≤ 2 ^ 20 → x.state ≠ .empty → falls (.bobset sw k a) 0x002 0 word) ∧
     (Alone s (.bobfree sw k) th → x.state = .unwinding ∨ (x.state = .winding ∧ x.own = true) →
       falls (.bobfree sw k) 0x002 0 word))

/-- R187 to R190: HOME_SLICE_ACCESS moves one 8-byte word of a copy between its page and the scratchpad; COPY_RETIRE
ends a copy that has moved every word, and its bobbin goes to FULL from WINDING and to EMPTY from UNWINDING;
COPY_FAULT_STOP ends one that met a fault: STATUS is then the largest code, 3 or one noted before (R183). A word waits
for the earlier copies' words of the same place (R158, log 32). R191 and Table 12.6: a delivery that reaches a team
whose armed bobbin waits for exactly its count begins to land, and lands whole; its bobbin is then FULL. One that
finds no team, or a bobbin not so armed, is dropped and counted at once in the bobbin of its copy; one to a saved
team, or to a scratchpad range in use, waits. The model's choice: a bobbin in which another delivery is landing counts
as not armed, so that one that reaches it then is dropped and counted (log 38). -/
def Obligations.CopiesRun : Prop :=
  (∀ (s : State) (id n : ℕ) (c : Copy), s.MemOk → s.findCopy id = some c →
     (s.findReq id = none → s.copyRuns c = true → c.isUnit n = true → c.moved.contains n = false → c.multicast = false →
       (Tab.find s.teams c.team).isSome = true →
       ∀ g gs, s.reach c.core c.tenant { read := c.inward, write := !c.inward } (c.unit n).1 (c.unit n).2.1 = .ok (g :: gs) →
         let l := g.2.2.locate g.1
         let at_ := c.sp + (c.unit n).2.2
         let len := (c.unit n).2.1
         s.asleep l = false → s.aliasBefore c l = false →
         (c.inward = true → ∃ t, exec (.homeSliceAccess id n) s = .next t ∧ (∀ m, t.byteAt m = s.byteAt m) ∧
           (∀ k, (t.team c.team).scratchByte k = if at_ ≤ k ∧ k < at_ + len then
             (if g.2.2.opt && !g.2.2.res then 0 else s.byteAt (l.plus (k - at_))) else (s.team c.team).scratchByte k) ∧
           ∃ c' ∈ t.copies, c'.id = id ∧ n ∈ c'.moved) ∧
         (c.inward = false → s.writeHeld l = false → s.dropsWrites l = false → ∃ t, exec (.homeSliceAccess id n) s = .next t ∧
           Landed s t l ((List.range len).map fun k => (s.team c.team).scratchByte (at_ + k)) ∧
           ∃ c' ∈ t.copies, c'.id = id ∧ n ∈ c'.moved)) ∧
     (∀ k, c.retirable = true → c.bob = some k → (Tab.find s.teams c.team).isSome = true →
       let b := s.bobbin c.team k
       ∃ t, exec (.copyRetire id) s = .next t ∧ t.copies = s.copies.filter (fun x => x.id != c.id) ∧
         t.bobbin c.team k = { b with state := if b.state = .winding then .full else .empty } ∧ t.mem = s.mem) ∧
     (∀ k r, c.failed = some r → c.move = none → c.bob = some k → (Tab.find s.teams c.team).isSome = true →
       let b := s.bobbin c.team k
       ∃ t, exec (.copyFaultStop id) s = .next t ∧ t.copies = s.copies.filter (fun x => x.id != c.id) ∧
         t.bobbin c.team k = { b with
           state := if b.state = .winding then .full else .empty, status := max b.status 3 } ∧
         ((s.group c.th).live = true → ∃ f, (t.group c.th).faults = (s.group c.th).faults ++ [f] ∧ f.code = r.code))) ∧
  (∀ (s : State) (id k : ℕ) (c : Copy) (n : ℕ), s.findCopy id = some c →
     (k ∈ c.landing → s.teamAt (s.team c.team).grid k = some n → (s.team n).saved = false →
       (Tab.find s.teams n).isSome = true → (s.bobbin n c.landBob).freeing = false →
       ∃ t, exec (.multicastDelivery id k) s = .next t ∧ (t.bobbin n c.landBob).state = .full ∧
         (t.bobbin n c.landBob).landing = false ∧
         (∀ a, (t.team n).scratchByte a = if c.sp ≤ a ∧ a < c.sp + c.width then Tab.get c.buffer (a - c.sp) 0
           else (s.team n).scratchByte a) ∧ (∃ c' ∈ t.copies, c'.id = id ∧ k ∉ c'.landing) ∧ t.mem = s.mem) ∧
     (k ∉ c.landing → c.complete = true → c.failed = none → k ∈ c.targets →
       let at_ := s.teamAt (s.team c.team).grid k
       let b (n : ℕ) : Bobbin := s.bobbin n c.landBob
       let armed (n : ℕ) : Prop := (b n).state = .winding ∧ (b n).own = false ∧ (b n).landing = false
       let fits (n : ℕ) : Prop := (b n).armed = c.width ∧ c.sp + c.width ≤ (s.team n).scratchSize
       let free (n : ℕ) : Prop := (s.team n).saved = false ∧ s.scratchBusy n c.sp c.width true = false
       let drops (code : ℕ) : Prop := ∃ t, exec (.multicastDelivery id k) s = .next t ∧
         (∃ c' ∈ t.copies, c'.id = id ∧ k ∉ c'.targets) ∧ t.mem = s.mem ∧
         ∀ j, c.bob = some j → (Tab.find s.teams c.team).isSome = true →
           let y := s.bobbin c.team j
           t.bobbin c.team j = { y with status := max y.status code, drops := y.drops + 1 }
       (∀ n, at_ = some n → armed n → fits n → free n → (Tab.find s.teams n).isSome = true →
         ∃ t, exec (.multicastDelivery id k) s = .next t ∧ t.bobbin n c.landBob = { b n with landing := true } ∧
           (∃ c' ∈ t.copies, c'.id = id ∧ k ∈ c'.landing ∧ k ∉ c'.targets) ∧ t.mem = s.mem) ∧
       (∀ n, at_ = some n → armed n → fits n → ¬free n → exec (.multicastDelivery id k) s = .next s) ∧
       (at_ = none → drops 1) ∧
       (∀ n, at_ = some n → ¬armed n → drops 1) ∧
       (∀ n, at_ = some n → armed n → ¬fits n → drops 2)))

/-! ### The matrix engine -/

/-- R102, R103, R108 to R111, R122 and R131: a tile load, store or zeroing whose addresses pass enters its team's
engine queue, with the pages, the slot and the configuration it found; a tile store is the write of the FENCE.RELs
before it that name path M (R149). R114: TGETF and TSETF reach one word of a tile that no queued operation uses; R115
gives the trap of a poisoned tile. R107: a team that finds the engine free takes its lease. R123: TFCFG checks its
words, the trap naming the first that fails, and writes the configuration. R121: TTWID's special values and its exact
points. -/
def Obligations.TilesAndTheQueue : Prop :=
  ∀ (sw w : Bool) (d a b i : BitVec 7) (q : BitVec 3) (n : BitVec 4) (s : State) (th : ThreadRef)
      (segs : List (ℕ × ℕ × Leaf)),
    let u := s.thread th
    let va : DWord := u.pair a.toNat + i.signExtend 64 * 4096
    let team := s.team th.team
    let tile : Tile := Tab.get team.tiles n.toNat []
    let word (k : ℕ) : Word := Tab.get tile k 0
    let k := (u.reg b.toNat).toNat
    let r := readSlot (s.slot th q.toNat)
    let queues (x e : Instr) (va : DWord) (slot : Word) (cfg : List Word) (segs : List (ℕ × ℕ × Leaf)) : Prop :=
      let t : State := { (s.queueing th).modTeam th.team fun y => { y with
            engine := y.engine ++ [{ id := s.nextId, op := e, th := th, pc := u.pc, addr := va, pieces := segs,
                                     slot := slot, cfg := cfg }] } with
          nextId := s.nextId + 1 }
      Enters s x th → s.tileWaits th = false →
        Does s x th (fun v => if Instr.isTileWrite e then v.noteWrite t.pending .m s.nextId 0 else v) t
    let roBits : Word := if k < 1024 + 193 then 0 else if k = 1024 + 193 then 0xFFFFFF00 else if k = 1024 + 194 then 0xFFFFFFFE
      else if k < 1024 + 197 then 0 else 0xFFFFFFFF
    let c (j : ℕ) : ℕ := (u.reg (a.toNat + j)).toNat
    let code (j : ℕ) : ℕ := c 0 / 8 ^ j % 8
    let elem := c 0 / 2 ^ 22 % 4
    let stages : Prop :=
      c 0 < 2 ^ 25 ∧ (∀ j, j < 6 → code j ≤ 5) ∧ elem ≠ 3 ∧ code 0 ≠ 0 ∧ (∀ j, j < 5 → code j = 0 → code (j + 1) = 0) ∧
      ((List.range 6).map fun j => ([1, 2, 3, 4, 5, 8] : List ℕ).getD (code j) 1).prod ≤ (if elem = 1 then 512 else 1024) ∧
      c 0 / 2 ^ 18 % 8 < ((List.range 6).filter fun j => code j ≠ 0).length
    let passes (j : ℕ) : Prop := match j with
      | 0 => stages
      | 1 => c 1 < 2 ^ 12
      | j => c j = 0
    (Reached s th needLoad va 4096 64 segs → queues (.tld sw d a i) (.tld false d a i) va 0 [] segs) ∧
    (Reached s th needStore va 4096 64 segs → queues (.tst sw d a i) (.tst false d a i) va 0 [] segs) ∧
    (team.cfgStages ≠ 0 → Reached s th needLoad va 4096 64 segs →
      queues (.tldDr sw d a i) (.tldDr false d a i) va 0 team.tfcfg segs) ∧
    (team.cfgStages ≠ 0 → Reached s th needStore va 4096 64 segs →
      queues (.tstDr sw d a i) (.tstDr false d a i) va 0 team.tfcfg segs) ∧
    (r.fmt = 4 ∨ r.fmt = 5 ∨ r.fmt = 10 → Reached s th needLoad va r.recordLen 64 segs →
      queues (.tldq sw d a i q) (.tldq false d a i q) va (s.slot th q.toNat) [] segs) ∧
    queues (.tzero sw n w) (.tzero false n w) 0 0 [] [] ∧
    (Alone s (.tgetf sw d n b) th → (u.entering (.tgetf sw d n b)).settled d.toNat 1 → k < 1280 →
      (∀ e ∈ team.engine, n.toNat ∉ e.op.tilesWritten) →
      ((word 1218).getLsbD 0 = false ∨ k = 1219 ∨ k = 1220 →
        Does s (.tgetf sw d n b) th (fun v => v.write d.toNat (word k)) s) ∧
      ((word 1218).getLsbD 0 = true → k ≠ 1219 → k ≠ 1220 → s.handles th →
        Falls s (.tgetf sw d n b) th 0x008 (word 1220 ++ word 1219) (n.setWidth 64))) ∧
    (Alone s (.tsetf sw d n b) th → k < 1280 → (∀ e ∈ team.engine, n.toNat ∉ e.op.tilesWritten ∧ n.toNat ∉ e.op.tilesRead) →
      Does s (.tsetf sw d n b) th id (s.modTeam th.team fun y => y.setTile n.toNat
        (Tile.setWord tile k ((word k &&& roBits) ||| (u.reg d.toNat &&& ~~~roBits))))) ∧
    (Alone s (.tfcfg sw a) th →
      ((∀ j, j < 4 → passes j) → Does s (.tfcfg sw a) th id
        (s.modTeam th.team fun y => { y with tfcfg := (List.range 4).map fun j => u.reg (a.toNat + j) })) ∧
      ∀ j, j < 4 → ¬passes j → (∀ k, k < j → passes k) → s.handles th →
        Falls s (.tfcfg sw a) th 0x002 0 (BitVec.ofNat 64 (j * 2 ^ 32 + c j))) ∧
    (∃ f, WritesPairFlags (.ttwid sw d a b) d f ∧ ∀ v,
      let m := (v.reg b.toNat).toNat
      let k := (v.reg a.toNat).toNat % m
      (m = 0 ∨ 2 ^ 24 < m → f v = (0x7FC000007FC00000, 1)) ∧
      (0 < m → m ≤ 2 ^ 24 → (k = 0 → f v = (0x000000003F800000, 0)) ∧ (4 * k = m → f v = (0xBF80000000000000, 0)) ∧
        (2 * k = m → f v = (0x00000000BF800000, 0)) ∧ (4 * k = 3 * m → f v = (0x3F80000000000000, 0))))

/-- R105 and R106: a tie whose instruction and values are those of the knot counts; the tie that reaches the knot's
count issues the operation once, into the team's queue, and a TBFY takes the configuration and advances STAGE (R125);
a tie that differs raises KNOT_MISMATCH and does not count. A merge that issues is the write of the FENCE.RELs before
it that name path M (R149). KSET sets the count, and issues at once what it completes, its thread waiting while some
of that has no entry of the queue yet. The model's choice: a TMREAD, which has no B operand, ties with the B value 0
(log 135). -/
def Obligations.Knots : Prop :=
  ∀ (sw w : Bool) (k d x y : BitVec 4) (m q : BitVec 3) (a b : BitVec 7) (c : BitVec 10) (s : State) (th : ThreadRef)
      (segs : List (ℕ × ℕ × Leaf)),
    let u := s.thread th
    let z := Tab.get (s.team th.team).knots k.toNat {}
    let slot := s.slot th q.toNat
    let fmt := (readSlot slot).fmt
    let va := u.pair a.toNat
    let bv := u.reg b.toNat
    let e := bv.toNat % 16
    let n := bv.toNat / 16
    let falls (i : Instr) (code : Word) (aux : DWord) : Prop :=
      Ends s i th (fun v => v.trapped ⟨v.pc, code, 0, aux⟩ false v.pc (s.gridOf th.team).handler s.tick) (s.closing th)
    let ties (i e : Instr) (addr : DWord) (bval slot : Word) (cfg : List Word) (segs : List (ℕ × ℕ × Leaf))
        (stage : Team → Team) : Prop :=
      let tied (j : ℕ) (y : Team) : Team :=
        { y with knots := Tab.put y.knots k.toNat { z with word := some e, addr := addr, bval := bval, t := j } }
      Enters s i th → z.t < z.n →
      (z.t = 0 ∨ (z.word = some e ∧ z.addr = addr ∧ z.bval = bval) →
        (z.t + 1 < z.n → Does s i th id ((s.closing th).modTeam th.team (tied (z.t + 1)))) ∧
        (z.t + 1 = z.n → s.tileWaits th = false →
          let t : State := { (s.queueing th).modTeam th.team fun y => stage { tied 0 y with
              engine := y.engine ++ [{ id := s.nextId, op := e, th := th, pc := u.pc, addr := addr, bval := bval,
                                       pieces := segs, slot := slot, cfg := cfg }] } with
            nextId := s.nextId + 1 }
          Does s i th (fun v => if Instr.isTileWrite e then v.noteWrite t.pending .m s.nextId 0 else v) t)) ∧
      (0 < z.t → z.word ≠ some e ∨ z.addr ≠ addr ∨ z.bval ≠ bval → s.handles th → falls i 0x004 (k.setWidth 64))
    let w0 := (s.team th.team).tfcfg.getD 0 0
    let nextStage : Word := BitVec.ofNat 32 ((w0.toNat / 2 ^ 18 % 8 + 1) % (s.team th.team).cfgStages)
    let advance (y : Team) : Team := { y with tfcfg := y.tfcfg.set 0 ((w0 &&& 0xFFE3FFFF) ||| (nextStage <<< 18)) }
    let sets (i : Instr) (n : ℕ) : Prop := Enters s i th → 0 < n →
      (z.t < n → Does s i th id ((s.closing th).modTeam th.team fun y => { y with knots := Tab.put y.knots k.toNat { z with n := n } })) ∧
      (∀ op : Instr, op = .tmma false k d x y q → z.word = some op → n ≤ z.t →
        (s.team th.team).engine.length + z.t / n ≤ 8 → u.holds = [] → Does s i th id
          { (s.queueing th).modTeam th.team fun y => { y with
              knots := Tab.put y.knots k.toNat { z with n := n, t := z.t % n }
              engine := y.engine ++ (List.range (z.t / n)).map fun j =>
                { id := s.nextId + j, op := op, th := th, pc := u.pc, addr := z.addr, bval := z.bval, slot := slot } } with
            nextId := s.nextId + z.t / n }) ∧
      (∀ op : Instr, op = .tmma false k d x y q → z.word = some op → n ≤ z.t →
        8 < (s.team th.team).engine.length + z.t / n → u.holds = [] → ∃ t, exec i s = .next t ∧ t.mem = s.mem ∧
          Tab.get (t.team th.team).knots k.toNat {} = { z with n := n, t := z.t % n } ∧
          (t.team th.team).engine = (s.team th.team).engine ++ (List.range (z.t / n)).map (fun j =>
            { id := s.nextId + j, op := op, th := th, pc := u.pc, addr := z.addr, bval := z.bval, slot := slot }) ∧
          (t.thread th).status = .stalled ∧ (t.thread th).pc = u.pc ∧
          (t.thread th).waitOp = some (s.nextId + z.t / n - 1))
    (fmt ∈ [0, 1, 4, 5] → ties (.tmma sw k d x y q) (.tmma false k d x y q) 0 0 slot [] [] id) ∧
    (fmt ∈ [0, 1, 2, 5, 6, 7] → ties (.tcvt sw k d x q) (.tcvt false k d x q) 0 0 slot [] [] id) ∧
    ((s.team th.team).cfgStages ≠ 0 →
      ties (.tbfy sw k d x) (.tbfy false k d x) 0 0 0 (s.team th.team).tfcfg [] advance) ∧
    (Reached s th needMerge va 8192 8192 segs →
      ties (.tmergeI64 sw k m a b) (.tmergeI64 false k m a b) va bv 0 [] segs id ∧
      ties (.tmergeF64 sw k m a b) (.tmergeF64 false k m a b) va bv 0 [] segs id ∧
      (n ≤ 16 → e < n → ties (.tmergeF64Ord sw k m a b) (.tmergeF64Ord false k m a b) va bv 0 [] segs id)) ∧
    (Reached s th needRegion va 8192 8192 segs → ties (.tmread sw k m a w) (.tmread false k m a w) va 0 0 [] segs id) ∧
    sets (.ksetImm sw k c) (c.toNat + 1) ∧
    ((u.reg a.toNat).toNat ≤ 1024 → sets (.kset sw k a) (u.reg a.toNat).toNat) ∧
    ((u.reg a.toNat).toNat = 0 ∨ 1024 < (u.reg a.toNat).toNat → Enters s (.kset sw k a) th → s.handles th →
      falls (.kset sw k a) 0x002 ((u.reg a.toNat).setWidth 64))

/-- R103: the engine performs the next queued operation, and it leaves the queue. TZERO clears its tiles (R111); TLD
fills the data and keeps the side band, and TST writes the data to memory (R109); TLDQ fills the data, the scales, the
zero points and the format word (R110); TMMA on integers without groups adds the exact sum modulo 2^64, with groups
rounds once for each, and on FP16 and BF16 rounds the exact sum of finite terms once (R112); TCVT converts each element
(R113); TMREAD fills the accumulators from the region (R118); a first TBFY stage of radix 2 on complex FP32 rounds the
scaled sums and differences, and TD has TA's side band (R126, R127, R129); TMERGE reads its accumulators and sets out to
merge them (R116). MERGE_CONTRIBUTION applies one word; ORDERED_MERGE_APPLY holds, begins or drops a contribution by its
index (R117). -/
def Obligations.TheEngineAndMerges : Prop :=
  ∀ (s : State), s.MemOk →
    (∀ (core team : ℕ) (e : EngineOp), s.nextEngine core = some (team, e) → e.th.team = team →
      let x (n : ℕ) : Tile := Tab.get (s.team team).tiles n []
      let acc (t : State) (d k : ℕ) : DWord :=
        let z : Tile := Tab.get (t.team team).tiles (d + k / 512) []
        (Tab.get z (2 * (k % 512) + 1) 0 : Word) ++ (Tab.get z (2 * (k % 512)) 0 : Word)
      let half (z : Tile) (k : ℕ) : ℕ := (Tab.get z (k / 2) 0 : Word).toNat / 2 ^ (16 * (k % 2)) % 2 ^ 16
      let side (z : Tile) (n : ℕ) : Byte := byteOf (Tab.get z (1024 + n / 4) 0 : Word).toNat (n % 4)
      let finite (v : Machine.Num) : Prop := v.isNan = false ∧ v.isInf = false
      ∃ t, exec (.engineOperation core) s = .next t ∧
        (t.team team).engine = (s.team team).engine.filter (fun o => o.id != e.id) ∧
        (∀ sw d w, e.op = .tzero sw d w → t.mem = s.mem ∧ ∀ n, Tab.get (t.team team).tiles n [] =
          if n = d.toNat ∨ (w = true ∧ n = d.toNat + 1) then [] else x n) ∧
        (∀ sw d a i, e.op = .tld sw d a i → s.badLine e.pieces = none → (s.readPieces e.pieces).length = 4096 →
          t.mem = s.mem ∧ ∀ k, Tab.get (Tab.get (t.team team).tiles d.toNat []) k 0 =
            if k < 1024 then BitVec.ofNat 32 (valueOf (fun j => (s.readPieces e.pieces).getD (4 * k + j) 0) 4)
            else Tab.get (x d.toNat) k 0) ∧
        (∀ sw k d a b f, e.op = .tmma sw k d a b f → t.mem = s.mem ∧ ∀ i j, i < 32 → j < 32 →
          let r := readSlot e.slot
          let c := acc s d.toNat (32 * i + j)
          (r.fmt = 4 ∨ r.fmt = 5 → r.gsz = 0 → acc t d.toNat (32 * i + j) = BitVec.ofInt 64 (c.toInt +
            ((List.range r.depth).map fun k => r.operand (x a.toNat) i k * r.operand (x b.toNat) j k).sum)) ∧
          (∀ g, (r.fmt = 0 ∧ g = fp16) ∨ (r.fmt = 1 ∧ g = bf16) →
            let va (k : ℕ) : Machine.Num := readNum g (half (x a.toNat) (64 * i + k))
            let vb (k : ℕ) : Machine.Num := readNum g (half (x b.toNat) (64 * j + k))
            let vc := readNum fp64 c.toNat
            let sum : ℚ := vc.rat + ((List.range 64).map fun k => (va k).rat * (vb k).rat).sum
            finite vc → (∀ k, k < 64 → finite (va k) ∧ finite (vb k)) → sum ≠ 0 →
            acc t d.toNat (32 * i + j) = BitVec.ofNat 64 (ctx64.round false sum).1) ∧
          (r.fmt = 4 ∨ r.fmt = 5 → r.gsz ≠ 0 →
            let m := 16 * 2 ^ r.gsz
            let group (l h : ℕ) : ℕ := l * (r.depth / m) + h
            let zero (y : Tile) (l h : ℕ) : ℤ := if r.zpe then readElem r.sgn r.elem (side y (512 + group l h)).toNat else 0
            let scale (y : Tile) (l h : ℕ) : Machine.Num :=
              readNum fp16 ((side y (2 * group l h)).toNat + 256 * (side y (2 * group l h + 1)).toNat)
            ∃ cs : ℕ → DWord, cs 0 = c ∧ acc t d.toNat (32 * i + j) = cs (r.depth / m) ∧ ∀ h, h < r.depth / m →
              let dot : ℤ := ((List.range m).map fun k => (r.operand (x a.toNat) i (h * m + k) - zero (x a.toNat) i h) *
                (r.operand (x b.toNat) j (h * m + k) - zero (x b.toNat) j h)).sum
              let q : ℚ := (readNum fp64 (cs h).toNat).rat + dot * (scale (x a.toNat) i h).rat * (scale (x b.toNat) j h).rat
              finite (readNum fp64 (cs h).toNat) → finite (scale (x a.toNat) i h) → finite (scale (x b.toNat) j h) → q ≠ 0 →
              cs (h + 1) = BitVec.ofNat 64 (ctx64.round false q).1)) ∧
        (∀ sw d a i q, e.op = .tldq sw d a i q →
          let r := readSlot e.slot
          let bs := s.readPieces e.pieces
          let g := r.groups
          let z : Tile := Tab.get (t.team team).tiles d.toNat []
          s.badLine e.pieces = none → r.fmt = 4 ∨ r.fmt = 5 ∨ r.fmt = 10 → bs.length = r.recordLen → t.mem = s.mem ∧
          (∀ k, k < 1024 → Tab.get z k 0 = BitVec.ofNat 32 (valueOf (fun j => bs.getD (4 * k + j) 0) 4)) ∧
          Tab.get z 1216 0 = e.slot ∧ (r.fmt = 10 → Tab.get z 1217 0 = 0 ∧ ∀ n, n < 768 → side z n = side (x d.toNat) n) ∧
          (r.fmt ≠ 10 → (∀ n, n < 512 → side z n = if n < 2 * g then bs.getD (4096 + n) 0 else 0) ∧
            ∀ n, n < 256 → side z (512 + n) = if r.zpe = true ∧ n < g then
              BitVec.ofNat 8 ((bs.getD (4096 + 2 * g + n) 0).toNat % 2 ^ r.elem) else 0)) ∧
        (∀ sw d a i, e.op = .tst sw d a i → ∀ l rp, e.pieces = [(e.addr.toNat, 4096, l)] → e.addr.toNat % 64 = 0 →
          (∀ j, j < 4096 → l.locate (e.addr.toNat + j) = rp.plus j ∧ s.dropsWrites (rp.plus j) = false) →
          (t.team team).tiles = (s.team team).tiles ∧
          Landed s t rp ((List.range 4096).map fun j => byteOf (Tab.get (x d.toNat) (j / 4) 0 : Word).toNat (j % 4))) ∧
        (∀ sw k m a w, e.op = .tmread sw k m a w → e.pieces ≠ [] → s.badLine e.pieces = none →
          (s.readPieces e.pieces).length = 8192 → t.mem = s.mem ∧ ∀ j, j < 1024 → acc t (2 * m.toNat) j =
            BitVec.ofNat 64 (valueOf (fun b => (s.readPieces e.pieces).getD (8 * j + b) 0) 8)) ∧
        (∀ sw k d a q, e.op = .tcvt sw k d a q → t.mem = s.mem ∧ ∀ n, n < 1024 →
          let r := readSlot e.slot
          let c := acc s a.toNat n
          let v := readNum fp64 c.toNat
          let z : Tile := Tab.get (t.team team).tiles d.toNat []
          let elem (w : ℕ) : ℕ := (Tab.get z (n / (32 / w)) 0 : Word).toNat / 2 ^ (w * (n % (32 / w))) % 2 ^ w
          (∀ f w, (r.fmt, f, w) ∈ [(0, fp16, 16), (1, bf16, 16), (2, fp32, 32)] → finite v → v.rat ≠ 0 →
            elem w = ((⟨f, r.rnd, false, r.sate⟩ : Ctx).round false v.rat).1) ∧
          ∀ w, (r.fmt, w) ∈ [(5, 8), (6, 16), (7, 32)] →
            let lo : ℤ := if r.sgn then -2 ^ (w - 1) else 0
            let hi : ℤ := if r.sgn then 2 ^ (w - 1) - 1 else 2 ^ w - 1
            elem w = (BitVec.ofInt w (if r.sate then max lo (min hi c.toInt) else c.toInt)).toNat) ∧
        (∀ sw k d a, e.op = .tbfy sw k d a → t.mem = s.mem ∧
          let w0 := e.cfg.getD 0 0
          let used := 512 / cfgLength w0 * cfgLength w0
          let part (y : Tile) (p : ℕ) : Word := Tab.get y p 0
          let num (p : ℕ) : Machine.Num := readNum fp32 (part (x a.toNat) p).toNat
          let z : Tile := Tab.get (t.team team).tiles d.toNat []
          let rounded (v : ℚ) : Word := if v = 0 then 0 else BitVec.ofNat 32 (ctx32.round false v).1
          (w0.toNat % 8 = 1 → w0.toNat / 2 ^ 18 % 8 = 0 → w0.toNat / 2 ^ 22 % 4 = 1 →
            ∀ p, p % 2 = 0 → p + 1 < used → (∀ k, k < 4 → finite (num (2 * p + k))) → ∀ c, c < 2 →
              let half : ℚ := 2 ^ ((e.cfg.getD 1 0).toNat % 4)
              part z (2 * p + c) = rounded (((num (2 * p + c)).rat + (num (2 * p + 2 + c)).rat) / half) ∧
              part z (2 * p + 2 + c) = rounded (((num (2 * p + c)).rat - (num (2 * p + 2 + c)).rat) / half)) ∧
          ((x a.toNat).poisoned = false → ∀ n, 1024 ≤ n → w0.toNat / 2 ^ 22 % 4 ≠ 2 → Tab.get z n 0 = part (x a.toNat) n)) ∧
        (∀ sw k m a b, e.op = .tmergeI64 sw k m a b ∨ e.op = .tmergeF64 sw k m a b ∨ e.op = .tmergeF64Ord sw k m a b →
          e.pieces ≠ [] → t.mem = s.mem ∧ ∃ y, t.merges = s.merges ++ [y] ∧ y.id = e.id ∧ y.va = e.addr ∧
            y.words = (List.range 1024).map fun k => (k, acc s (2 * m.toNat) k))) ∧
    (∀ (id k : ℕ) (m : Merge) (c : DWord), s.findMerge id = some m → Tab.find m.words k = some c → s.mayApply m k = true →
      let l := placeAt m.pieces (m.va.toNat + 8 * k)
      let old := valueOf (fun j => s.byteAt (l.plus j)) 8
      let sum : ℕ := if m.float then (ctx64.sum (readNum fp64 old) (readNum fp64 c.toNat)).1 else (old + c.toNat) % 2 ^ 64
      s.dropsWrites l = false →
      ∃ t, exec (.mergeContribution id k) s = .next t ∧ Landed s t l (leBytes 8 sum) ∧
        ∀ y ∈ t.merges, y.id = id → Tab.find y.words k = none) ∧
    (∀ (id e n : ℕ) (m : Merge), s.findMerge id = some m → m.order = some (e, n) → m.applying = false →
      let region := regionPlace m.pieces
      let ends (facts : State → Prop) : Prop := ∃ t, exec (.orderedMergeApply id) s = .next t ∧ t.mem = s.mem ∧ facts t
      let begins (t : State) : Prop := t.merges = s.merges.map fun y => if y.id = id then { y with applying := true } else y
      (s.findRecord region = none → (s.records.filter fun r => r.slice == anchorSlice region).length < 16 → ends fun t =>
        t.records = s.records ++ [{ slice := anchorSlice region, region := region, tenant := m.tenant, count := n,
                                    held := [(e, id)] }] ∧
        if e = 0 then begins t else t.merges = s.merges) ∧
      (∀ r, s.findRecord region = some r → r.count = n → Tab.find r.held e = none ∨ Tab.find r.held e = some id →
        e = r.next → ends begins) ∧
      (∀ r, s.findRecord region = some r →
        r.count ≠ n ∨ (∃ o, Tab.find r.held e = some o ∧ o ≠ id) ∨ (Tab.find r.held e = none ∧ e < r.next) →
        ends fun t => t.merges = s.merges.filter (fun y => y.id != id) ∧
          ((s.group m.th).live = true → ∃ f, (t.group m.th).faults = (s.group m.th).faults ++ [f] ∧ f.code = 0x00C ∧
            f.pc = m.pc ∧ f.addr = m.va)))


/-! ### Succinct strings -/

/-- R205, R207: a query sends its operand to the home stack of its handle, class L, and SDROP its handle; R206: BINS
and BDEL wait at issue for the home stack; a BINS, BDEL or SDROP is the write of the FENCE.RELs before it that name
path N (R149). R195: SREG gives a refusal code and registers nothing, or registers a string that keeps Table 13.1's
limits under the lowest free handle of the tenant, with every block STALE. R208: SSTAT writes the record of Table
13.6. R209: SSYNC waits until every block is VALID, while another string holds the descriptor's line (R202), and for
the core's earlier requests to it (R158); it then writes LEN and UNBAL into the descriptor. SREG ignores poison of the
descriptor's line: the model's choice (log 136). -/
def Obligations.StringInstructions : Prop :=
  ∀ (sw : Bool) (d a b : BitVec 7) (s : State) (th : ThreadRef), s.heldAtIssue th .n true = false →
    let u := s.thread th
    let h := u.reg a.toNat
    let tenant := s.tenantOf th
    let req (k : ReqKind) (va : DWord) : Req :=
      { id := s.nextId, path := .n, kind := k, th := th, core := s.coreOf th, tenant := tenant, pc := u.pc, va := va,
        installs := (s.core (s.coreOf th)).acquires, tag := (s.tenant tenant).astag }
    let sends (r : Req) : State := { s with reqs := s.reqs ++ [r], nextId := s.nextId + 1 }
    let writes (r : Req) (v : Thread) : Thread := v.noteWrite (sends r).pending .n s.nextId 0
    let waits (i : Instr) (r : Req) (f : Thread → Thread) : Prop :=
      Ends s i th (fun v => { f v with waitOp := some s.nextId, status := .stalled }) (sends r)
    let pend (x : Str) : ℕ := ((List.range x.blocks).filter fun j => !s.blockValid x j).length
    let record : ℕ := match s.strOf tenant h with
      | none => 0
      | some x => x.len + x.bp.toNat * 2 ^ 39 + x.unbal.toNat * 2 ^ 40 + x.building.toNat * 2 ^ 41 + 2 ^ 42 +
          x.stack * 2 ^ 44 + dieAddr x.dirBase / 4096 * 2 ^ 48 + x.dirUnits * 2 ^ 73 + min (pend x) 255 * 2 ^ 120
    let field (j : ℕ) : Word := BitVec.ofNat 32 (record / 2 ^ (32 * j))
    (∀ e ∈ ([(.rank0 sw d a b, 0), (.rank1 sw d a b, 1), (.sel0 sw d a b, 2), (.sel1 sw d a b, 3), (.excess sw d a b, 4),
        (.closeBr sw d a b, 5), (.openBr sw d a b, 6), (.enclBr sw d a b, 7)] : List (Instr × ℕ)), Alone s e.1 th →
      s.heldAtIssue th .n false = false → u.full = false →
      Does s e.1 th (Thread.awaits s.nextId d.toNat 2 none none 0) (sends (req (.query e.2 h (u.pair b.toNat)) (u.pair b.toNat)))) ∧
    (Alone s (.sdrop sw a) th → Does s (.sdrop sw a) th (writes (req (.sdrop h) 0)) (sends (req (.sdrop h) 0))) ∧
    (Alone s (.bins sw d a b) th → u.waitOp = none →
      let r := req (.update true h (u.pair b.toNat) (u.pair d.toNat) (u.reg (d.toNat + 2))) (u.pair b.toNat)
      waits (.bins sw d a b) r (writes r)) ∧
    (Alone s (.bdel sw d a b) th → u.waitOp = none →
      let r := req (.update false h (u.pair b.toNat) 0 (u.reg d.toNat)) (u.pair b.toNat)
      waits (.bdel sw d a b) r (writes r)) ∧
    (Alone s (.sstat sw d a) th → s.stringTurn th h = true → (u.entering (.sstat sw d a)).settled d.toNat 4 →
      Does s (.sstat sw d a) th (fun v => (((v.write d.toNat (field 0)).write (d.toNat + 1) (field 1)).write (d.toNat + 2)
        (field 2)).write (d.toNat + 3) (field 3)) s) ∧
    (Alone s (.ssync sw a) th → u.waitOp = none → s.heldAtIssue th .p true = false → s.stringTurn th h = true →
      (s.strOf tenant h = none → Does s (.ssync sw a) th id s) ∧
      (∀ x, s.strOf tenant h = some x →
        let due : Prop := s.blocksValid x x.blocks = true ∧ s.writeHeld x.descriptor = false ∧
          s.asleep x.descriptor = false ∧ ∀ r ∈ s.reqs, r.path = .p → r.core = s.coreOf th →
            r.touches x.descriptor.line = true → r.th ≠ th ∧ ∃ e ∈ s.stringsAt x.descriptor, e.1.key = x.key
        (¬due → waits (.ssync sw a) { req (.ssync h) 0 with admitted := some s.tick } id) ∧
        (due → s.MemOk →
          s.dropsWrites (x.descriptor.plus 16) = false → s.dropsWrites (x.descriptor.plus 25) = false →
          ∃ t, exec (.ssync sw a) s = .next t ∧
            { t.thread th with holds := [] } =
              { (((u.entering (.ssync sw a)).noteWrite s.pending .p 0 0).leaving s.tick) with holds := [] } ∧
            let old (k : ℕ) : Byte := s.byteAt (x.descriptor.plus k)
            let new (k : ℕ) : Byte := t.byteAt (x.descriptor.plus k)
            (∀ k, k < 4 → new (16 + k) = byteOf x.len k) ∧
            (new 20).toNat = (old 20).toNat / 128 * 128 + x.len / 2 ^ 32 % 128 ∧
            (new 25).toNat = (old 25).toNat / 2 * 2 + x.unbal.toNat ∧
            ∀ m, (∀ k ∈ ([16, 17, 18, 19, 20, 25] : List ℕ), m ≠ x.descriptor.plus k) → t.byteAt m = s.byteAt m))) ∧
    (∀ segs, Alone s (.sreg sw d a) th → s.heldAtIssue th .p false = false →
      Reached s th { read := true } (u.pair a.toNat) 64 64 segs →
      let desc := placeAt segs (u.pair a.toNat).toNat
      s.lineBusy (s.coreOf th) desc.line = false → (desc :: s.bindReads th desc).any s.asleep = false →
      (u.entering (.sreg sw d a)).settled d.toNat 1 →
      ∃ t v, exec (.sreg sw d a) s = .next t ∧ t.mem = s.mem ∧
        t.thread th = ((u.entering (.sreg sw d a)).write d.toNat v).leaving s.tick ∧
        ((t.strings = s.strings ∧ 0x80000001 ≤ v.toNat ∧ v.toNat ≤ 0x80000005) ∨
          ∃ x : Str, t.strings = s.strings ++ [x] ∧ v.toNat = x.handle ∧ x.handle < 4096 ∧ x.tenant = tenant ∧
            x.descriptor = placeAt segs (u.pair a.toNat).toNat ∧
            (∀ y ∈ s.strings, y.key ≠ x.key) ∧
            (∀ k, k < x.handle → ∃ y ∈ s.strings, y.key = tenant * 4096 + k) ∧
            (∀ y ∈ s.strings, y.rangeOverlaps tenant x.base (x.cap / 8) = false) ∧
            x.base % 512 = 0 ∧ x.cap % 512 = 0 ∧ 512 ≤ x.cap ∧ x.cap ≤ 2 ^ 38 ∧ x.len ≤ x.cap ∧ x.building = true ∧
            ∀ j, x.isStale j = true))

/-- R202, R204 to R206: the home stack answers a query, once its turn has come and its dependence set is VALID, with
the value that R204 defines of the string's bits, NONE where it defines none; a bracket query of an UNBAL string
faults. It performs BINS and BDEL as one step on the bits, or refuses them with the codes of R206, and SDROP (R207).
R197, R201: the splicer takes a block, counts its line, and writes the entry unless the block was marked meanwhile.
Each waits for the channels of the lines that it reads or writes (R342). -/
def Obligations.StringsAtTheHomeStack : Prop :=
  ∀ (s : State), s.MemOk →
    let bit (x : Str) (p : ℕ) : Bool := (Memory.read s.mem (x.place (p / 8))).getLsbD (p % 8)
    let ones (x : Str) (i : ℕ) : ℕ := (List.range i).countP fun p => bit x p
    let excess (x : Str) (i : ℕ) : ℤ := 2 * (ones x (i + 1) : ℤ) - (i + 1)
    let before (x : Str) (j : ℕ) : ℤ := if j = 0 then 0 else excess x (j - 1)
    let least (f : ℕ → Prop) (v : DWord) : Prop :=
      (∃ p, f p ∧ (∀ q, f q → p ≤ q) ∧ v = BitVec.ofNat 64 p) ∨ ((∀ p, ¬f p) ∧ v = BitVec.allOnes 64)
    let greatest (f : ℕ → Prop) (v : DWord) : Prop :=
      (∃ p, f p ∧ (∀ q, f q → q ≤ p) ∧ v = BitVec.ofNat 64 p) ∨ ((∀ p, ¬f p) ∧ v = BitVec.allOnes 64)
    let value (x : Str) (f i : ℕ) (v : DWord) : Prop := match f with
      | 0 => v = if i ≤ x.len then BitVec.ofNat 64 (i - ones x i) else BitVec.allOnes 64
      | 1 => v = if i ≤ x.len then BitVec.ofNat 64 (ones x i) else BitVec.allOnes 64
      | 2 => least (fun p => p < x.len ∧ bit x p = false ∧ p - ones x p + 1 = i) v
      | 3 => least (fun p => p < x.len ∧ bit x p = true ∧ ones x p + 1 = i) v
      | 4 => v = if i < x.len then (BitVec.ofInt 40 (excess x i)).setWidth 64 else BitVec.allOnes 64
      | 5 => least (fun j => i < j ∧ j < x.len ∧ bit x i = true ∧ excess x j = excess x i - 1) v
      | 6 => greatest (fun j => j < i ∧ i < x.len ∧ bit x i = false ∧ before x j = excess x i) v
      | _ => greatest (fun j => j < i ∧ i < x.len ∧ bit x i = true ∧ before x j = excess x i - 2) v
    let gone (t : State) (id : ℕ) : Prop := ∀ q ∈ t.reqs, q.id ≠ id
    (∀ (id f : ℕ) (r : Req) (h : Word) (o : DWord), s.findReq id = some r → r.kind = .query f h o → f < 8 →
      let ends (x : Result) : Prop := ∃ t, exec (.succinctQuery id) s = .next t ∧ t.mem = s.mem ∧ gone t id ∧
        Answered s t r.th id x
      (r.admitted = none → s.mayAdmit r h = true → ∃ t, exec (.succinctQuery id) s = .next t ∧
        t = { s with reqs := s.reqs.map fun q => if q.id = id then { q with admitted := some s.tick } else q }) ∧
      (r.admitted ≠ none → s.turnOf r h false = true →
        (s.strOf r.tenant h = none → ends { vals := [BitVec.allOnes 32, BitVec.allOnes 32] }) ∧
        ∀ x, s.strOf r.tenant h = some x → (s.splicer x.stack).failed = false →
          s.blocksValid x (x.depends f o.toNat) = true →
          (∀ j, j < x.depends f o.toNat → s.asleep (.dev (x.place (64 * j))) = false) →
          (s.queryReads x f o.toNat).any s.asleep = false →
          (5 ≤ f → x.bp = false → ends { vals := [BitVec.allOnes 32, BitVec.allOnes 32] }) ∧
          (5 ≤ f → x.bp = true → x.unbal = true →
            ends { fault := some ⟨r.pc, 0x009, o, BitVec.ofNat 64 x.handle⟩ }) ∧
          (f < 5 ∨ (x.bp = true ∧ x.unbal = false) → s.strBad x (x.depends f o.toNat) = none →
            ∃ v, value x f o.toNat v ∧ ends { vals := [v.extractLsb' 0 32, v.extractLsb' 32 32] }))) ∧
    (∀ (id : ℕ) (r : Req) (ins : Bool) (h : Word) (pos pattern : DWord) (c : Word), s.findReq id = some r →
      r.kind = .update ins h pos pattern c → r.admitted ≠ none → s.turnOf r h true = true → s.holds r.th = true →
      (s.thread r.th).status = .stalled → (s.thread r.th).wait = .none →
      let ends (facts : State → Prop) : Prop := ∃ t, exec (.stringUpdatePerform id) s = .next t ∧ gone t id ∧ facts t
      let refused (code : Word) (aux : DWord) : Prop := s.handles r.th → ends fun t => t.mem = s.mem ∧
        t.strings = s.strings ∧ (t.thread r.th).trap = ⟨r.pc, code, 0, aux⟩ ∧ (t.thread r.th).frame.pc = r.pc ∧
        (t.thread r.th).pc = (s.gridOf r.th.team).handler
      (s.strOf r.tenant h = none → refused 0x002 1) ∧
      ∀ x, s.strOf r.tenant h = some x → s.blocksValid x x.blocks = true →
        let n := c.toNat
        let p := pos.toNat
        (n = 0 ∨ 64 < n → refused 0x002 2) ∧
        (0 < n → n ≤ 64 → ins = true → x.len < p → refused 0x002 3) ∧
        (0 < n → n ≤ 64 → ins = true → p ≤ x.len → x.cap < x.len + n → refused 0x00A (BitVec.ofNat 64 x.handle)) ∧
        (0 < n → n ≤ 64 → ins = false → x.len < p + n → refused 0x002 3) ∧
        (0 < n → n ≤ 64 → (if ins then p ≤ x.len ∧ x.len + n ≤ x.cap else p + n ≤ x.len) → x.len ≤ x.cap →
          s.updateHeld r x ins p n = false → (updateLines (some x) ins pos c).any s.asleep = false → x.cap % 512 = 0 → (∀ j k, j < k → k < x.cap / 8 → x.place j ≠ x.place k) → ends fun t =>
          (t.thread r.th).status = .ready ∧ (t.thread r.th).pc = (s.thread r.th).replay.getD ((s.thread r.th).pc + 4) ∧
          ∃ y ∈ t.strings, y.key = x.key ∧ y.len = (if ins then x.len + n else x.len - n) ∧
            ∀ q, q < x.cap → (Memory.read t.mem (x.place (q / 8))).getLsbD (q % 8) =
              if q < p then bit x q
              else if ins then (if q < p + n then pattern.getLsbD (q - p) else if q < x.len + n then bit x (q - n) else bit x q)
              else if q + n < x.len then bit x (q + n) else if q < x.len then false else bit x q)) ∧
    (∀ (id : ℕ) (r : Req) (h : Word), s.findReq id = some r → r.kind = .sdrop h → r.admitted ≠ none →
      s.turnOf r h true = true → ∃ t, exec (.sdropPerform id) s = .next t ∧ gone t id ∧ t.mem = s.mem ∧
        (s.strOf r.tenant h = none → t.strings = s.strings) ∧
        ∀ x, s.strOf r.tenant h = some x → t.strings = s.strings.filter (fun y => y.key != x.key) ∧
          t.dirRegions = s.dirRegions.filter fun e => e.1 != x.dirBase) ∧
    (∀ (stack key j : ℕ) (x : Str), (s.splicer stack).failed = false → s.findStr key = some x →
      let ends (facts : State → Prop) : Prop := ∃ t, exec (.splicerRepair stack) s = .next t ∧ t.mem = s.mem ∧ facts t
      let n := min 512 (x.len - 512 * j)
      let e (k : ℕ) : ℤ := 2 * ((List.range (k + 1)).countP fun p => bit x (512 * j + p) : ℤ) - (k + 1)
      (∀ rest, (s.splicer stack).repairing = none → (s.splicer stack).queue = (key, j) :: rest → j < x.blocks →
        s.asleep (.dev (x.place (64 * j))) = false →
        ends fun t => (t.splicer stack).queue = rest ∧ ∃ w : Word, (t.splicer stack).repairing = some (key, j, w) ∧
          (n = 0 → w = 0) ∧ w.toNat % 1024 = ((List.range n).countP fun p => bit x (512 * j + p)) ∧
          (0 < n → (∃ k, k < n ∧ (w.extractLsb' 10 11).toInt = e k) ∧ (∀ k, k < n → (w.extractLsb' 10 11).toInt ≤ e k) ∧
            (∃ k, k < n ∧ (w.extractLsb' 21 11).toInt = e k) ∧ ∀ k, k < n → e k ≤ (w.extractLsb' 21 11).toInt)) ∧
      (∀ w, (s.splicer stack).repairing = some (key, j, w) → (x.writePath j).any s.asleep = true →
        exec (.splicerRepair stack) s = .next (s.want (x.writePath j))) ∧
      (∀ w, (s.splicer stack).repairing = some (key, j, w) → (x.writePath j).any s.asleep = false →
        ((s.splicer stack).again = false → ends fun t => (t.splicer stack).repairing = none ∧
          (t.splicer stack).queue = (s.splicer stack).queue ∧ ∃ y ∈ t.strings, y.key = key ∧ y.entry j = w ∧ y.stale = x.stale) ∧
        ((s.splicer stack).again = true → ends fun t => (t.splicer stack).repairing = none ∧
          (t.splicer stack).queue = (s.splicer stack).queue ++ [(key, j)] ∧ ∃ y ∈ t.strings, y.key = key ∧ j ∈ y.stale)))

/-- R198, R199 and R201: the end of a repair writes the block's entry, adds the change in ONES to the Fenwick nodes
whose span holds the block's superblock, and recomputes MINEX and MAXEX of that superblock, saturating, and MIN and
MAX of each tree node above it: the least and the greatest prefix excess of its blocks, relative to its first
position. R203, R208: BUILDING ends with the repair of the last block; from then on each repair of a BP string sets
UNBAL where the total excess is not zero or the least prefix excess is negative, and clears it otherwise; a PLAIN
string's stays. -/
def Obligations.DirectoryPaths : Prop :=
  ∀ (s : State) (stack key j : ℕ) (x : Str) (w : Word), s.findStr key = some x → (s.splicer stack).failed = false →
    (s.splicer stack).repairing = some (key, j, w) → (x.writePath j).any s.asleep = false → j < x.blocks → x.cap ≤ 2 ^ 38 →
    ∃ t y, exec (.splicerRepair stack) s = .next t ∧ t.findStr key = some y ∧
      (∀ b, y.entry b = if b = j then w else x.entry b) ∧
      let ones (z : Str) (b : ℕ) : ℤ := ((z.entry b).toNat % 1024 : ℕ)
      let fen (z : Str) (k : ℕ) : BitVec 40 := (Tab.get z.supers k 0 : DWord).extractLsb' 0 40
      let span (k : ℕ) : ℕ := (k + 1) - ((k + 1) &&& k)
      let start (lo b : ℕ) : ℤ := ((List.range b).map fun c =>
        if lo ≤ c then 2 * ones y c - (min 512 (x.len - 512 * c) : ℕ) else 0).sum
      let inside (lo n b : ℕ) : Prop := lo ≤ b ∧ b < lo + n ∧ 512 * b < x.len
      let least (lo n : ℕ) (v : ℤ) : Prop :=
        ((∀ b, ¬inside lo n b) ∧ v = 0) ∨ ((∃ b, inside lo n b ∧ v = start lo b + ((y.entry b).extractLsb' 10 11).toInt) ∧
          ∀ b, inside lo n b → v ≤ start lo b + ((y.entry b).extractLsb' 10 11).toInt)
      let greatest (lo n : ℕ) (v : ℤ) : Prop :=
        ((∀ b, ¬inside lo n b) ∧ v = 0) ∨ ((∃ b, inside lo n b ∧ v = start lo b + ((y.entry b).extractLsb' 21 11).toInt) ∧
          ∀ b, inside lo n b → start lo b + ((y.entry b).extractLsb' 21 11).toInt ≤ v)
      (∀ k, k < (x.blocks + 7) / 8 → fen y k = fen x k +
        if k + 1 - span k ≤ j / 8 ∧ j / 8 ≤ k then BitVec.ofInt 40 (ones y j - ones x j) else 0) ∧
      (∃ lo hi : ℤ, least (8 * (j / 8)) 8 lo ∧ greatest (8 * (j / 8)) 8 hi ∧
        let e : DWord := Tab.get y.supers (j / 8) 0
        (e.extractLsb' 40 12).toInt = max (-2048) (min 2047 lo) ∧ (e.extractLsb' 52 12).toInt = max (-2048) (min 2047 hi)) ∧
      (∀ h, (h = 0 ∨ 8 ^ h < (x.blocks + 7) / 8) → ∃ lo hi : ℤ,
        let n := 8 ^ (h + 1)
        least (8 * (j / 8 / n * n)) (8 * n) lo ∧ greatest (8 * (j / 8 / n * n)) (8 * n) hi ∧
        let e : BitVec 128 := Tab.get y.nodes ((h + 1) * 2 ^ 32 + j / 8 / n) 0
        e.extractLsb' 0 40 = BitVec.ofInt 40 lo ∧ e.extractLsb' 64 40 = BitVec.ofInt 40 hi) ∧
      (y.building = true ↔ x.building = true ∧ j + 1 ≠ x.blocks) ∧
      (y.building = true ∨ x.bp = false → y.unbal = x.unbal) ∧
      (y.building = false → x.bp = true →
        let n := min x.blocks ((x.len + 511) / 512)
        (y.unbal = true ↔ start 0 n ≠ 0 ∨ ∃ b, b < n ∧ start 0 b + ((y.entry b).extractLsb' 10 11).toInt < 0))

/-! ### Near-memory units and row operations -/

/-- R215: NMLOAD puts a program that passes its checks into the team's store, and refuses another with the index of
its first bad word, or with 0x200 where it has no END. The store is then the list of its n words: the model's choice
(log 64). R216: NMRUN gives the dispatcher a command with a snapshot of the store; the .RET form's registers wait for
its result. R219: a RED.NM goes to the home of its line on path N; its release waits for what its thread's FENCE on
paths P and N would, at its scope (log 27). R221, R222: a row operation goes to the 32 lines of its row. R149: each of
these writes is that of the FENCE.RELs before it that name path N. NMLOAD takes the bytes of a poisoned line as they
stand: the model's choice (log 154). -/
def Obligations.NearMemoryInstructions : Prop :=
  ∀ (sw rel : Bool) (d a b : BitVec 7) (f : BitVec 3) (w : Width) (s : State) (th : ThreadRef)
      (segs : List (ℕ × ℕ × Leaf)), s.heldAtIssue th .n true = false →
    let u := s.thread th
    let va := u.pair a.toNat
    let req (k : ReqKind) (parts : List ReqPart) (waits : List ℕ) : Req :=
      { id := s.nextId, path := .n, kind := k, th := th, core := s.coreOf th, tenant := s.tenantOf th, pc := u.pc, va := va,
        installs := (s.core (s.coreOf th)).acquires, tag := (s.tenant (s.tenantOf th)).astag, waits := waits, parts := parts }
    let sends (i : Instr) (r : Req) (own : ℕ) : Prop :=
      let t : State := { s with reqs := s.reqs ++ [r], nextId := s.nextId + 1 }
      Does s i th (fun v => v.noteWrite t.pending .n s.nextId own) t
    let row (l : Leaf) : Prop := 0x200000 ≤ l.size ∧ l.nmok = true ∧ l.peer = false ∧ l.stripe = false
    (Alone s (.nmload sw a b) th → s.heldAtIssue th .p false = false →
      let n := (u.reg b.toNat).toNat
      let word (k : ℕ) : DWord := BitVec.ofNat 64 (valueOf (fun j => (s.readPieces segs).getD (8 * k + j) 0) 8)
      let bad (k : ℕ) : Prop := nmOpc (word k) = 15 ∨ 2 ≤ nmCombine (word k) ∨ (k ≠ 0 ∧ nmCombine (word k) ≠ 0) ∨
        (word k).toNat / 2 ^ 32 % 2 ^ 16 ≠ 0
      1 ≤ n → n ≤ 64 → Reached s th { read := true } va (8 * n) 8 segs → (s.readPieces segs).length = 8 * n →
      (∀ e ∈ pieceLines segs, s.lineBusy (s.coreOf th) e.2.1.line = false ∧ s.asleep e.2.1 = false) →
      ((∀ k, k < n → ¬bad k) → (∃ k, k < n ∧ nmEnd (word k) = true) → ∃ t, exec (.nmload sw a b) s = .next t ∧
        (t.team th.team).nmStore = (List.range n).map word ∧ t.mem = s.mem ∧
        t.thread th = (u.entering (.nmload sw a b)).leaving s.tick) ∧
      (∀ k, k < n → bad k → (∀ j, j < k → ¬bad j) → s.handles th → ∃ t, exec (.nmload sw a b) s = .next t ∧
        (t.team th.team).nmStore = (s.team th.team).nmStore ∧ (t.thread th).trap = ⟨u.pc, 0x002, 0, BitVec.ofNat 64 (0x100 + k)⟩) ∧
      ((∀ k, k < n → ¬bad k ∧ nmEnd (word k) = false) → s.handles th → ∃ t, exec (.nmload sw a b) s = .next t ∧
        (t.team th.team).nmStore = (s.team th.team).nmStore ∧ (t.thread th).trap = ⟨u.pc, 0x002, 0, 0x200⟩)) ∧
    (let n := (u.pair b.toNat).toNat
      let command (ret : Bool) : NmCommand :=
        { id := s.nextId, th := th, core := s.coreOf th, tenant := s.tenantOf th, pc := u.pc
          body := nmBody (s.team th.team).nmStore, va := va.toNat, len := n, ret := ret }
      let runs (ret : Bool) : State := { s with commands := s.commands ++ [command ret], nextId := s.nextId + 1 }
      let noted (ret : Bool) (v : Thread) : Thread :=
        if (command ret).body.any (fun w => decide (w.toNat / 2 ^ 60 % 4 ≠ 0)) then v.noteWrite (runs ret).pending .n s.nextId 0 else v
      va.toNat % 32 = 0 → n % 32 = 0 → 32 ≤ n → n ≤ 2 ^ 36 → (∃ x ∈ (s.team th.team).nmStore, nmEnd x = true) →
      (Alone s (.nmrun sw a b) th → Does s (.nmrun sw a b) th (noted false) (runs false)) ∧
      (Alone s (.nmrunRet sw d a b) th → u.full = false →
        Does s (.nmrunRet sw d a b) th (fun v => noted true (v.awaits s.nextId d.toNat 2 none none 0)) (runs true))) ∧
    (∀ e ∈ ([(.redNmAdd sw rel w a b f, .add, w), (.redNmAddF32 sw rel a b f, .addF32, .w32),
        (.redNmMinI32 sw rel a b f, .min true, .w32), (.redNmMinN32 sw rel a b f, .min false, .w32),
        (.redNmMaxI32 sw rel a b f, .max true, .w32), (.redNmMaxN32 sw rel a b f, .max false, .w32),
        (.redNmOr sw rel a b f, .or, .w32)] : List (Instr × RmwOp × Width)),
      let n := 4 * e.2.2.regs
      let v : ℕ := match e.2.2 with
        | .w32 => (u.reg b.toNat).toNat
        | .w64 => (u.pair b.toNat).toNat
      let place := placeAt segs va.toNat
      let scope := promote f.toNat (coreDie (s.coreOf th)) place
      Alone s e.1 th → Reached s th { write := true, noSuc := true, noPeer := true } va n n segs →
      sends e.1 (req (.redNm e.2.1 n v (segs.any fun g => g.2.2.nmok)) [{ va := va.toNat, loc := place, len := n }]
        (if rel then s.fenceReleaseIds th 9 scope else [])) (if rel then scope else 0)) ∧
    (∀ p (g : ℕ × ℕ × Leaf) rest, Reached s th { write := true } va 256 256 segs → segs = g :: rest → row g.2.2 →
      g.2.2.locate g.1 = .dev p →
      (Alone s (.rzero sw a) th → sends (.rzero sw a) (req .rowZero (rowParts va.toNat p) []) 0) ∧
      ∀ q (h : ℕ × ℕ × Leaf) from_ rest', Reached s th { read := true } (u.pair b.toNat) 256 256 from_ → from_ = h :: rest' →
        row h.2.2 → h.2.2.locate h.1 = .dev q → (h.2.2.opt = true → h.2.2.res = true) → Alone s (.rcopy sw a b) th →
        sends (.rcopy sw a b) (req (.rowCopy ((rowLines (u.pair b.toNat).toNat q).map fun e => (e.1, .dev e.2)))
          (rowParts va.toNat p) []) 0) ∧
    (∀ x : ℕ, let c := Nat.xor (x / 2 ^ 9 % 32) (x / 2 ^ 21 % 32)
      rowChunks x = (List.range 8).map fun h => x / 2 ^ 17 * 2 ^ 17 + h * 2 ^ 14 + Nat.xor c (x / 2 ^ 21 % 32) * 2 ^ 9 +
        Nat.xor ((x / 2 ^ 8 + x / 2 ^ 16) % 2) (h / 4) * 2 ^ 8)

/-- R214, R216, R217: the dispatcher sends a command's next segment, after the segments of the thread's earlier ones
(log 153); a unit runs it column by column and each column word by word, with FETCH, the operation of Table 14.2 and
WB in that order, and hands in A0 with its last segment; the command retires with the combine of its units' A0, in
FP64 one by one in the order of the units, or parks or stops on a fault. R220: RED.NM is one step on its word. R222,
R223: a row operation is one write of each destination line. R225, R342 and Table 25.9: a write of CHPWR and a thermal
limit start a channel into a power state, or out of one (BUSY stands meanwhile); it is entered once its work has
retired, an access wakes it, and it starts again after 10 µs without one. That a write of REQ 0 under a thermal limit
only changes REQ, and leaves the channel in its state until the limit clears, is the model's choice (log 63). -/
def Obligations.NearMemoryUnits : Prop :=
  (∀ (s : State) (id : ℕ), s.MemOk →
     (∀ (c : NmCommand) (g : ℕ × ℕ × Leaf) segs p, s.findCommand id = some c → s.sends c = true → s.nmReach c = .ok (g :: segs) →
       g.2.2.locate c.va = .dev p → ∃ t, exec (.nmSegmentRun id) s = .next t ∧ t.mem = s.mem ∧
         t.segments = s.segments ++ [{ id := s.nextId, cmd := c.id, unit := placeUnit p, va := c.va, loc := p,
                                       len := min c.len (256 - c.va % 256), accepted := s.channelActive (placeUnit p) }] ∧
         ∃ c' ∈ t.commands, c'.id = id ∧ c'.va = c.va + min c.len (256 - c.va % 256) ∧
           c'.len = c.len - min c.len (256 - c.va % 256)) ∧
     (∀ (g : NmSegment) (c : NmCommand), s.findCommand id = none → s.segments.find? (·.id == id) = some g →
       s.findCommand g.cmd = some c → s.segmentReady g = true →
       let opened : NmUnit := if (s.nmUnit g.unit).open_ = some c.id then s.nmUnit g.unit
         else { Tab.get c.kept g.unit {} with open_ := some c.id }
       let column (r : State × NmUnit) (j : ℕ) : State × NmUnit :=
         c.body.foldl (fun r w => r.1.nmWord r.2 w (g.loc + 32 * j) (g.va + 32 * j)) r
       let run := (List.range (g.len / 32)).foldl column (s, opened)
       ∃ t, exec (.nmSegmentRun id) s = .next t ∧ t.segments = s.segments.filter (fun x => x.id != id) ∧ t.mem = run.1.mem ∧
         (c.len ≠ 0 → c.parked = none → t.nmUnit g.unit = run.2) ∧
         (c.len = 0 → g.unit ∈ c.opened → (∀ x ∈ s.segments, x.id ≠ id → x.cmd = c.id → x.unit ≠ g.unit) →
           t.nmUnit g.unit = {} ∧ ∃ c' ∈ t.commands, c'.id = c.id ∧
             Tab.find c'.closed g.unit = some (Tab.get run.2.acc 0 0, Tab.find run.2.accBad 0))) ∧
     (∀ (u : NmUnit) (w : DWord) (loc va : ℕ), u.x.length = 8 → u.y.length = 8 →
       let back := w.toNat / 2 ^ 60 % 4
       (back ≠ 0 → s.dropsWrites (.dev loc) = false) →
       let r := s.nmWord u w loc va
       let column (m : State) (k : ℕ) : Word := BitVec.ofNat 32 (valueOf (fun j => m.byteAt (.dev (loc + 4 * k + j))) 4)
       let imm : Word := w.setWidth 32
       let a := w.toNat / 2 ^ 52 % 16
       let xs : List Word := if w.toNat / 2 ^ 62 % 2 = 1 then (List.range 8).map (column s) else u.x
       let num (x : Word) : Machine.Num := readNum fp32 x.toNat
       let old : DWord := Tab.get u.acc a 0
       let maps (f : Word → Word) : Prop := r.2.y = xs.map f ∧ r.2.acc = u.acc
       let gains (z : DWord) : Prop := r.2.y = u.y ∧ Tab.get r.2.acc a 0 = z ∧
         ∀ b, b ≠ a → Tab.get r.2.acc b 0 = Tab.get u.acc b 0
       let rounds (ts : List Machine.Num) : Prop :=
         let inf (b : Bool) : Bool := ts.any fun t => t.isInf && t.neg? == b
         let q : ℚ := (ts.map Machine.Num.rat).sum
         gains (if ts.any Machine.Num.isNan || (inf true && inf false) then 0x7FF8000000000000
           else if inf true then BitVec.ofNat 64 (ctx64.inf true).1 else if inf false then BitVec.ofNat 64 (ctx64.inf false).1
           else if q = 0 then BitVec.ofNat 64 (ctx64.zero (ts.all fun t => t.isZero && t.neg?)).1
           else BitVec.ofNat 64 (ctx64.round false q).1)
       r.2.x = xs ∧ r.2.open_ = u.open_ ∧ r.2.x.length = 8 ∧ r.2.y.length = 8 ∧
       (match w.toNat / 2 ^ 56 % 16 with
        | 1 => maps fun x => x + imm
        | 2 => maps fun x => x * imm
        | 3 => maps fun x => (single (ctx32.sum (num x) (num imm))).1
        | 4 => maps fun x => (single (ctx32.product (num x) (num imm))).1
        | 5 => maps fun x => x &&& imm
        | 6 => maps fun x => x ||| imm
        | 7 => maps fun x => x ^^^ imm
        | 8 => maps fun _ => imm
        | 9 => gains (old + BitVec.ofNat 64 (xs.countP fun x => x = imm))
        | 10 => gains (old + BitVec.ofInt 64 (xs.map fun x => x.toInt).sum)
        | 11 => gains (old + BitVec.ofNat 64 (xs.map fun x => x.toNat).sum)
        | 12 => gains (old + BitVec.ofNat 64 (xs.map fun x => (List.range 32).countP fun j => x.getLsbD j).sum)
        | 13 => rounds (readNum fp64 old.toNat :: xs.map num)
        | 14 => rounds (readNum fp64 old.toNat :: xs.map fun x => (num x).mul (num x))
        | _ => r.2.y = u.y ∧ r.2.acc = u.acc) ∧
       if back = 0 then r.1 = s
       else (∀ k, k < 8 → column r.1 k = if back = 1 then r.2.y.getD k 0 else if back = 2 then r.2.x.getD k 0 else 0) ∧
         ∀ m, m < loc ∨ loc + 32 ≤ m → Memory.read r.1.mem m = Memory.read s.mem m) ∧
     (∀ c : NmCommand, s.findCommand id = some c → s.commandDone c = true →
       ∃ t, exec (.nmCommandRetire id) s = .next t ∧ t.mem = s.mem ∧ t.commands = s.commands.filter (fun x => x.id != id) ∧
         (c.ret = true → c.poison = none →
           let v : DWord := BitVec.ofNat 64 (if (c.body.getD 0 0).toNat / 2 ^ 48 % 16 = 1 then
               c.closed.foldl (fun v e => (ctx64.sum (readNum fp64 v) (readNum fp64 e.2.1.toNat)).1) 0
             else (c.closed.map fun e => e.2.1.toNat).sum)
           Answered s t c.th id { vals := [v.extractLsb' 0 32, v.extractLsb' 32 32] })) ∧
     (∀ c : NmCommand, s.findCommand id = some c →
       let ends (facts : State → Prop) : Prop := ∃ t, exec (.nmCommandFault id) s = .next t ∧ t.mem = s.mem ∧ facts t
       (∀ va cause, s.sends c = true → s.nmReach c = .page va cause → (s.tenant c.tenant).fqEn = true →
         s.faultJoins c.tenant (va / 4096) (nmWrites c.body) = true ∨ 2 ^ (s.tenant c.tenant).fqLog ≤ s.unresolved c.tenant → ends fun t =>
         (∃ c' ∈ t.commands, c'.id = id ∧ c'.parked = some va ∧ c'.len = c.len) ∧ ∀ th, (t.thread th).status = (s.thread th).status) ∧
       (∀ code va aux, s.sends c = true → s.nmReach c = .deny code va aux → ends fun t =>
         ∃ c' ∈ t.commands, c'.id = id ∧ c'.failed = some ⟨c.pc, code, BitVec.ofNat 64 va, 0⟩ ∧ c'.len = 0) ∧
       (∀ r, c.failed = some r → s.nmOver c = true → c.ret = true → ends fun t =>
         t.commands = s.commands.filter (fun x => x.id != id) ∧ Answered s t c.th id { fault := some r })) ∧
     (∀ (r : Req) op n v nmok (x : ReqPart) rest, s.findReq id = some r → r.kind = .redNm op n v nmok → r.parts = x :: rest →
       s.redPlaceable r x nmok = true → s.dropsWrites x.loc = false →
       ∃ t, exec (.redNmPlace id) s = .next t ∧
         Landed s t x.loc (leBytes n (op.apply n (valueOf (fun j => s.byteAt (x.loc.plus j)) n) v))) ∧
     (∀ (r : Req) (at_ : List ℕ), s.findReq id = some r → s.rowReady r = true → r.parts.map (·.loc) = at_.map .dev → at_.Nodup →
       (∀ p ∈ at_, p % 64 = 0 ∧ s.isOffline p = false) →
       let ends (byte : ℕ → ℕ → Byte) : Prop := ∃ t, exec (.rowOperationPerform id) s = .next t ∧
         (∀ j k, j < at_.length → k < 64 → Memory.read t.mem (at_.getD j 0 + k) = byte j k) ∧
         ∀ m, (∀ p ∈ at_, m / 64 ≠ p / 64) → Memory.read t.mem m = Memory.read s.mem m
       (r.kind = .rowZero → ends fun _ _ => 0) ∧
       (∀ src : List (ℕ × ℕ), r.kind = .rowCopy (src.map fun e => (e.1, .dev e.2)) → src.length = at_.length →
         ends fun j k => Memory.read s.mem ((src.getD j (0, 0)).2 + k)))) ∧
  (∀ (s : State) (stack ch : ℕ), stack < 16 → ch < 32 →
     let u := stack * 32 + ch
     let c := s.channel stack ch
     let becomes (i : Instr) (d : Channel) : Prop := ∃ t, exec i s = .next t ∧ t.channel stack ch = d ∧ t.mem = s.mem ∧
       ∀ st k, (st, k) ≠ (stack, ch) → st < 16 → k < 32 → t.channel st k = s.channel st k
     (s.registersOpen = true → c.retired = false → c.offline = false →
       becomes (.chpwrSelfRefresh stack ch) { c with req := 1, busy := true, woken := false } ∧
       becomes (.chpwrPowerDown stack ch) { c with req := 2, busy := true, woken := false } ∧
       (c.thermal = false → c.state = 0 → becomes (.chpwrActive stack ch)
         { c with req := 0, woken := false, busy := false, wanted := false, lastAccess := s.now }) ∧
       (c.thermal = false → c.state ≠ 0 → becomes (.chpwrActive stack ch) { c with req := 0, woken := false, busy := true }) ∧
       (c.thermal = true → becomes (.chpwrActive stack ch) { c with req := 0, woken := false })) ∧
     (c.retired = false → c.offline = false →
       (c.state ≠ 1 → becomes (.thermalSelfRefresh stack ch true) { c with thermal := true, woken := false, busy := true }) ∧
       (c.req = 0 → c.state ≠ 0 → becomes (.thermalSelfRefresh stack ch false)
         { c with thermal := false, woken := false, busy := true }) ∧
       (c.req = 0 → c.state = 0 → becomes (.thermalSelfRefresh stack ch false)
         { c with thermal := false, woken := false, busy := false, wanted := false, lastAccess := s.now })) ∧
     (s.entryReady u = true → becomes (.channelPowerEntry stack ch)
       { c with state := if c.thermal then 1 else c.req, busy := false, woken := false }) ∧
     (s.wakeReady u = true → becomes (.channelWake stack ch)
       (if c.busy then { c with state := 0, busy := false, wanted := false, lastAccess := s.now } else { c with woken := true, busy := true })) ∧
     (c.woken = true → c.busy = false → c.retired = false → c.offline = false → c.thermal = true ∨ c.req ≠ 0 →
       10000 ≤ s.now - c.lastAccess → becomes (.channelIdleTimeout stack ch) { c with busy := true, woken := false })
)

/-! ### Solicit and census -/

/-- R260, R265, R268: SOLICIT makes its ticket PENDING and waits as a release at its scope; once the solicit, with its
key, arguments and combine, is sent, its thread goes on, at once where it waits for nothing (log 25); the first REPLY
of a responder is recorded; CWAIT blocks on a PENDING ticket and gives another's value, count and status; CPOLL reads
whether it is PENDING. R258, R259, R270: TDADD takes the lowest free entry, TDDEL ends one, and TDMOVE reserves its
destination, makes its source MOVING and waits at issue; each refusal has its code. -/
def Obligations.SolicitInstructions : Prop :=
  ∀ (sw : Bool) (q : BitVec 4) (a b d : BitVec 7) (n : ArgCount) (c : Combine) (f x : BitVec 3) (s : State) (th : ThreadRef),
    let u := s.thread th
    let core := s.coreOf th
    let k := Tab.get (s.team th.team).tickets q.toNat {}
    let av := u.reg a.toNat
    let bv := u.reg b.toNat
    let gives (i : Instr) (v : Word) (t : State) : Prop := Does s i th (fun z => z.write d.toNat v) t
    let field (hi lo : ℕ) : ℕ := u.wide a.toNat 8 / 2 ^ lo % 2 ^ (hi + 1 - lo)
    let free (m : ℕ) : Prop := (s.entry core m).state = .gone ∧ (s.entry core m).reserved = false
    let image : Prop := field 63 48 = 0 ∧ field 127 112 = 0 ∧ field 191 185 = 0 ∧ field 47 0 ≤ field 111 64 ∧
      field 184 128 % 4 = 0 ∧ field 223 192 % 4 = 0 ∧ field 255 224 % 4 = 0 ∧
      field 223 192 + field 255 224 ≤ (s.team th.team).scratchSize
    let mine (e : DirEntry) : Prop := e.state = .live ∧ e.deleted = false ∧ e.team = th.team
    (Alone s (.solicit sw q a n c f) th → u.waitOp = none → (u.reg (a.toNat + 1)).toNat < 2 ^ 16 → k.state ≠ .pending →
      ∃ t acc, exec (.solicit sw q a n c f) s = .next t ∧ t.ply = none ∧ t.mem = s.mem ∧
        (s.releaseWaits th f.toNat = [] → acc.isSome = true) ∧
        ((∀ x ∈ s.solicits, x.id ≠ s.nextId) → acc.isSome = s.allDone (s.releaseWaits th f.toNat)) ∧
        let z := u.entering (.solicit sw q a n c f)
        t.thread th = (if acc.isSome then z.leaving s.tick else { z with waitOp := some s.nextId, status := .stalled }) ∧
        Tab.get (t.team th.team).tickets q.toNat {} = { state := .pending, deviceScope := f == 3 } ∧
        ({ id := s.nextId, tenant := s.tenantOf th, core := core, team := th.team, ticket := q.toNat,
           key := (u.pair a.toNat).toNat, count := n.code.toNat, combine := c, device := f == 3,
           args := (List.range 4).map fun j => if j < n.code.toNat then u.reg (a.toNat + 2 + j) else 0,
           waits := s.releaseWaits th f.toNat, accepted := acc } : Solicit) ∈ t.solicits) ∧
    (∀ m, Alone s (.solicit sw q a n c f) th → u.waitOp = some m →
      let waits : Prop := ∃ x ∈ s.solicits, x.id = m ∧ x.accepted = none
      (¬waits → Does s (.solicit sw q a n c f) th id s) ∧
      (waits → Ends s (.solicit sw q a n c f) th (fun z => { z with status := .stalled }) s)) ∧
    (Alone s (.solicit sw q a n c f) th → u.waitOp = none → s.handles th →
      (2 ^ 16 ≤ (u.reg (a.toNat + 1)).toNat → Falls s (.solicit sw q a n c f) th 0x002 0 1) ∧
      ((u.reg (a.toNat + 1)).toNat < 2 ^ 16 → k.state = .pending → Falls s (.solicit sw q a n c f) th 0x002 0 2)) ∧
    (Alone s (.reply sw a) th →
      (isResponder th = true → Does s (.reply sw a) th id (s.modTeam th.team fun t => { t with
        responders := Tab.adjust t.responders th.group fun r =>
          { r with reply := some (r.reply.getD (u.pair a.toNat)) } })) ∧
      (s.handles th → Falls s (.reply sw a) th 0x002 0 0x79)) ∧
    (Alone s (.cwait sw d q) th → u.full = false →
      (k.state = .pending → Blocks s (.cwait sw d q) th (.cwait q.toNat d.toNat) id s) ∧
      (k.state ≠ .pending → ∃ t, exec (.cwait sw d q) s = .next t ∧ t.ply = none ∧ t.mem = s.mem ∧
        { t.thread th with holds := [] } = { ((u.entering (.cwait sw d q)).awaits s.nextId d.toNat 4 none (some
          { vals := [k.value.extractLsb' 0 32, k.value.extractLsb' 32 32, k.count, k.status] }) 0).leaving s.tick with
          holds := [] })) ∧
    (Alone s (.cpoll sw x q) th → Does s (.cpoll sw x q) th (fun z => z.writePred x.toNat (k.state != .pending)) s) ∧
    (Alone s (.tdadd sw d a) th → (u.entering (.tdadd sw d a)).settled d.toNat 1 →
      (¬image → gives (.tdadd sw d a) 0x80000001 s) ∧
      (image → (∀ m, m < 256 → ¬free m) → gives (.tdadd sw d a) 0x80000002 s) ∧
      (∀ m, image → m < 256 → free m → (∀ j, j < m → ¬free j) → gives (.tdadd sw d a) (BitVec.ofNat 32 m)
        { s.setEntry core m
            { keyLo := field 47 0, keyHi := field 111 64, handler := field 184 128, spBase := field 223 192,
              len := field 255 224, team := th.team, tenant := s.tenantOf th, state := .live, stamp := s.nextId } with
          nextId := s.nextId + 1 })) ∧
    (Alone s (.tddel sw d a) th → (u.entering (.tddel sw d a)).settled d.toNat 1 →
      let e := s.entry core av.toNat
      (¬(av.toNat < 256 ∧ mine e) → gives (.tddel sw d a) 0x80000003 s) ∧
      (av.toNat < 256 → mine e → gives (.tddel sw d a) 0
        (s.setEntry core av.toNat (if s.entryBusy core av.toNat then { e with deleted := true } else {})))) ∧
    (Alone s (.tdmove sw d a b) th → u.waitOp = none → (u.entering (.tdmove sw d a b)).settled d.toNat 1 →
      let e := s.entry core av.toNat
      let refused (v : Word) : Prop := gives (.tdmove sw d a b) v s
      (¬(av.toNat < 256 ∧ mine e) → refused 0x80000003) ∧
      (av.toNat < 256 → mine e →
        (768 ≤ bv.toNat ∨ bv.toNat = core ∨ s.gridTeamOn (s.team th.team).grid bv.toNat = none → refused 0x80000004) ∧
        ∀ v, bv.toNat < 768 → bv.toNat ≠ core → s.gridTeamOn (s.team th.team).grid bv.toNat = some v →
          ((s.team v).scratchSize < e.spBase + e.len → refused 0x80000005) ∧
          (e.spBase + e.len ≤ (s.team v).scratchSize → s.freeEntry bv.toNat = none → refused 0x80000002) ∧
          ∀ m, e.spBase + e.len ≤ (s.team v).scratchSize → s.freeEntry bv.toNat = some m →
            Ends s (.tdmove sw d a b) th (fun z => { z with waitOp := some s.nextId, status := .stalled })
              { (s.setEntry bv.toNat m { reserved := true, stamp := s.nextId }).setEntry core av.toNat
                  { e with state := .moving, dest := some (bv.toNat, m, s.nextId) } with
                moves := s.moves ++ [⟨s.nextId, th, d.toNat, core, av.toNat, bv.toNat, m, s.nextId, v, false⟩]
                nextId := s.nextId + 1 }))

/-- R261 to R267: a core that admits a solicit spawns one responder for each LIVE entry of its tenant that holds its
key, in ascending order, and counts them with the spawns it forwards; a solicit that is early for a move is served
where the tile was, not where it goes (R271); a spawn starts as 64 threads at HANDLER with the registers of Table
17.3; a responder that is over reports its completion, with its reply or its error; the census that is complete gives
the ticket the combine of the replies in ascending order key, their count and the status word; each combine of Table
17.4 is given with its identity. That MIN.f64 and MAX.f64 over replies that are all NaN, be it a single one, give the
canonical NaN is the model's choice (log 75). -/
def Obligations.TheCensus : Prop :=
  ∀ (s : State),
    (∀ (id core : ℕ) (q : Solicit), s.findSolicit id = some q → s.admitReady q core = true →
      let early (nums : List ℕ) : Bool := (q.accepted.map fun n => decide (n ≤ nums.getD (if q.device then 8 else q.core / 96) 0)).getD false
      let serves (e : DirEntry) : Bool := e.tenant == q.tenant && decide (e.keyLo ≤ q.key ∧ q.key ≤ e.keyHi) &&
        !(e.regDest != [] && early e.regDest)
      let live (e : DirEntry) : Bool := e.state == .live && !e.deleted
      let moved (e : DirEntry) : Bool := e.state == .moving || (e.state == .forward && early e.regSource)
      let here := (List.range 256).filter fun m => serves (s.entry core m) && live (s.entry core m)
      let owed := (List.range 256).filter fun m =>
        serves (s.entry core m) && !live (s.entry core m) && moved (s.entry core m)
      ∃ t, exec (.solicitAdmit id core) s = .next t ∧ t.mem = s.mem ∧
        (t.core core).spawns = (s.core core).spawns ++ here.map (fun m => ⟨id, m⟩) ∧
        t.forwards.length = s.forwards.length + owed.length ∧
        ∃ q' ∈ t.solicits, q'.id = id ∧ q'.spawned = q.spawned + here.length + owed.length ∧ core ∈ q'.reached) ∧
    (∀ (core g : ℕ) (sp : Spawn) rest (q : Solicit), (s.core core).spawns = sp :: rest → s.freeSlot core = some g →
      s.findSolicit sp.solicit = some q →
      let e := s.entry core sp.entry
      (Tab.find s.teams e.team).isSome = true →
      let w (n : ℕ) : Word := BitVec.ofNat 32 n
      ∃ t, exec (.responderStart core) s = .next t ∧ t.mem = s.mem ∧ (t.core core).spawns = rest ∧ (t.core core).l1 = [] ∧
        ((t.team e.team).group g).quad = g - 14 ∧ ((t.team e.team).group g).role = 4 ∧
        ((t.team e.team).group g).budget = 128 ∧
        ∀ l, l < 64 → let x := t.thread ⟨e.team, g, l⟩
          x.pc = BitVec.ofNat 64 e.handler ∧ x.status = .ready ∧ x.win = 0 ∧ x.flags = 0 ∧ x.preds = 1 ∧
          (List.range 12).map x.reg = [w q.key, w (q.key / 2 ^ 32), q.args.getD 0 0, q.args.getD 1 0, q.args.getD 2 0,
            q.args.getD 3 0, w q.core, w (combineCode q.combine + 16 * q.count + 128 * q.device.toNat), w sp.entry,
            w e.spBase, w e.len, w (s.team e.team).index] ∧
          ∀ k, 12 ≤ k → x.reg k = 0) ∧
    (∀ (team group : ℕ) (r : Responder), Tab.find (s.team team).responders group = some r →
      s.responderOver team group r = true → ∃ t, exec (.responderEnd team group) s = .next t ∧ t.mem = s.mem ∧
        Tab.find (t.team team).responders group = none ∧ Tab.find (t.team team).groups group = none ∧
        t.solicits = s.solicits.map fun q => if q.id = r.solicit then { q with
          completed := q.completed + 1
          replies := match r.error, r.reply with
            | none, some v => q.replies ++ [((s.team team).core, r.entry, v)]
            | _, _ => q.replies
          errors := match r.error with
            | some c => q.errors ++ [((s.team team).core, r.entry, c)]
            | none => q.errors } else q) ∧
    (∀ (id : ℕ) (q : Solicit), s.findSolicit id = some q → s.censusReady q = true → (Tab.find s.teams q.team).isSome = true →
      let sorted {α : Type} (xs ys : List (ℕ × ℕ × α)) : Prop :=
        xs.Perm ys ∧ xs.Pairwise fun x y => x.1 < y.1 ∨ (x.1 = y.1 ∧ x.2.1 ≤ y.2.1)
      ∃ t rs es, exec (.censusComplete id) s = .next t ∧ t.mem = s.mem ∧ t.solicits = s.solicits.filter (fun x => x.id != id) ∧
        sorted rs q.replies ∧ sorted es q.errors ∧
        let value := combineReplies q.combine (rs.map (·.2.2))
        let count : Word := BitVec.ofNat 32 q.replies.length
        let status : Word := match es with
          | [] => 1
          | e :: _ => BitVec.ofNat 32 (e.2.2.toNat % 256 * 2 ^ 24 + min es.length 255 * 2 ^ 16 + 2)
        Tab.get (t.team q.team).tickets q.ticket {} = ⟨.done, value, count, status, q.device⟩ ∧
        ∀ th d, th.team = q.team → s.holds th = true → (s.thread th).wait = .cwait q.ticket d → (s.thread th).status = .blocked →
          (t.thread th).status = .ready ∧ ∃ o ∈ (t.thread th).outs, o.regs = (s.thread th).indices d 4 ∧
            o.result = some { vals := [value.extractLsb' 0 32, value.extractLsb' 32 32, count, status] }) ∧
    (∀ vs : List DWord,
      combineReplies .addI64 vs = BitVec.ofNat 64 (vs.map (·.toNat)).sum ∧
      combineReplies .addF64 vs = BitVec.ofNat 64 (vs.foldl (fun x v => (ctx64.sum (readNum fp64 x) (readNum fp64 v.toNat)).1) 0) ∧
      (∀ v ∈ vs, (combineReplies .minI64 vs).toInt ≤ v.toInt ∧ v.toInt ≤ (combineReplies .maxI64 vs).toInt ∧
        (combineReplies .minN64 vs).toNat ≤ v.toNat ∧ v.toNat ≤ (combineReplies .maxN64 vs).toNat) ∧
      (vs ≠ [] → combineReplies .minI64 vs ∈ vs ∧ combineReplies .maxI64 vs ∈ vs ∧ combineReplies .minN64 vs ∈ vs ∧
        combineReplies .maxN64 vs ∈ vs) ∧
      (combineReplies .minI64 [] = 0x7FFFFFFFFFFFFFFF ∧ combineReplies .minN64 [] = 0xFFFFFFFFFFFFFFFF ∧
        combineReplies .maxI64 [] = 0x8000000000000000 ∧ combineReplies .maxN64 [] = 0 ∧
        combineReplies .minF64 [] = 0x7FF0000000000000 ∧ combineReplies .maxF64 [] = 0xFFF0000000000000) ∧
      (let nan (v : DWord) : Bool := decide (0x7FF0000000000000 < v.toNat % 2 ^ 63)
        let below (v w : DWord) : Prop := fp64.rank v.toNat < fp64.rank w.toNat ∨
          (fp64.rank v.toNat = fp64.rank w.toNat ∧ v.msb = true ∧ w.msb = false)
        let numbers := vs.filter fun v => !nan v
        (vs ≠ [] → numbers = [] →
          combineReplies .minF64 vs = 0x7FF8000000000000 ∧ combineReplies .maxF64 vs = 0x7FF8000000000000) ∧
        (numbers ≠ [] → combineReplies .minF64 vs ∈ numbers ∧ combineReplies .maxF64 vs ∈ numbers ∧
          ∀ v ∈ numbers, ¬below v (combineReplies .minF64 vs) ∧ ¬below (combineReplies .maxF64 vs) v)) ∧
      (∀ j, j < 64 → (combineReplies .and64 vs).getLsbD j = vs.all (·.getLsbD j) ∧
        (combineReplies .or64 vs).getLsbD j = vs.any (·.getLsbD j) ∧
        (combineReplies .xor64 vs).getLsbD j = decide ((vs.filter (·.getLsbD j)).length % 2 = 1)) ∧
      combineReplies .first vs = vs.headD (BitVec.allOnes 64) ∧ combineReplies .count vs = BitVec.ofNat 64 vs.length)

/-- R259, R270, R271: a move starts its copy, and once that is over is registered: the destination is LIVE and its
owner holds the tile's bytes, the source is FORWARD, both keep the roots' numbers, and TDMOVE's D is written. A
forward spawns at the entry its move made LIVE, and is an error with TILE_GONE or CORE_LOST where that entry has gone.
That the tile's bytes land in the step that registers the move is the model's choice (log 78). An entry is GONE once
the early censuses, or the responders of a deleted one, are over. -/
def Obligations.TilesThatMove : Prop :=
  ∀ (s : State),
    (∀ (id : ℕ) (m : Move), s.findMove id = some m →
      let e := s.entry m.srcCore m.srcEntry
      let numbers := (List.range 9).map fun r => Tab.get s.roots r 0
      (m.started = false → s.moveStarts m = true → ∃ t, exec (.moveRegister id) s = .next t ∧ t.mem = s.mem ∧
        (∃ m' ∈ t.moves, m'.id = id ∧ m'.started = true) ∧ t.copies.length = s.copies.length + 2) ∧
      (m.started = true → (s.team m.team).saved = false → (Tab.find s.teams m.team).isSome = true → m.srcCore ≠ m.dstCore →
        s.holds m.th = true → (s.thread m.th).status = .stalled → (s.thread m.th).wait = .none →
        (s.thread m.th).settled m.d 1 → ∃ t, exec (.moveRegister id) s = .next t ∧ t.mem = s.mem ∧
          t.entry m.dstCore m.dstEntry = { e with
            team := m.team, state := .live, reserved := false, stamp := m.stamp, dest := none, deleted := false
            regSource := [], regDest := numbers } ∧
          t.entry m.srcCore m.srcEntry = { e with
            state := .forward, dest := some (m.dstCore, m.dstEntry, m.stamp), regSource := numbers } ∧
          (∀ a, (t.team m.team).scratchByte a =
            if e.spBase ≤ a ∧ a < e.spBase + e.len then (s.team e.team).scratchByte a else (s.team m.team).scratchByte a) ∧
          (t.thread m.th).reg m.d = BitVec.ofNat 32 m.dstEntry ∧ (t.thread m.th).status = .ready ∧
          t.moves = s.moves.filter fun x => x.id != id)) ∧
    (∀ (id c : ℕ) (f : Forward), s.forwards.find? (·.id == id) = some f → f.dstCore = some c →
      let e := s.entry c f.dstEntry
      let fails (code : Word) : Prop := ∃ t, exec (.forwardArrive id) s = .next t ∧
        t.forwards = s.forwards.filter (fun x => x.id != id) ∧ (t.core c).spawns = (s.core c).spawns ∧
        ∀ q ∈ s.solicits, q.id = f.solicit → ∃ q' ∈ t.solicits, q'.completed = q.completed + 1 ∧
          q'.errors = q.errors ++ [(c, f.dstEntry, code)] ∧ q'.replies = q.replies
      let lost := (s.core c).lostStamps.contains f.stamp
      (lost = true → fails 0x00E) ∧
      (lost = false → (∀ m ∈ s.moves, m.stamp ≠ f.stamp) →
        (e.stamp ≠ f.stamp ∨ e.state = .gone ∨ (e.state = .live ∧ e.deleted = true) → fails 0x00F) ∧
        (e.stamp = f.stamp → e.state = .live → e.deleted = false → (s.core c).hasPlace = true →
          ∃ t, exec (.forwardArrive id) s = .next t ∧ t.solicits = s.solicits ∧
            t.forwards = s.forwards.filter (fun x => x.id != id) ∧
            (t.core c).spawns = (s.core c).spawns ++ [⟨f.solicit, f.dstEntry⟩]))) ∧
    (∀ core n : ℕ, let e := s.entry core n
      (e.state = .forward → (∀ q ∈ s.solicits, q.earlyFor e.regSource = false) →
        exec (.sourceEntryGone core n) s = .next (s.setEntry core n {})) ∧
      (e.deleted = true → e.state = .live → s.entryBusy core n = false →
        exec (.entryGone core n) s = .next (s.setEntry core n {})))


/-! ### Launch and scheduling -/

/-- R237: LAUNCH waits as a release at device scope, then gives the code of the first check that fails, or appends its
record, with STATUS, STOPTEAM and STOPCODE zero, and advances TAIL; its read waits for a channel that sleeps (R342),
and poison of the record's lines is ignored, the model's choice (log 162). R238: INTR traps on a vector beyond the
tenant's count, and else sends its message once the release is over. -/
def Obligations.LaunchAndInterrupt : Prop :=
  ∀ (sw : Bool) (d a b : BitVec 7) (k : BitVec 10) (s : State) (th : ThreadRef) (segs : List (ℕ × ℕ × Leaf)),
    let u := s.thread th
    let i : Instr := .launch sw d a b
    let q := (u.reg b.toNat).toNat
    let x := s.queue q
    let tenant := s.tenantOf th
    let n := (s.tenant tenant).tintrCount
    let waits := s.fenceReleaseIds th 15 4
    (Alone s i th → u.waitOp = none → Ends s i th
      (fun v => { v with after := s.releaseWaits th 3, waitOp := some s.nextId, status := .stalled })
      { s with nextId := s.nextId + 1 }) ∧
    (Alone s i th → u.waitOp ≠ none → s.allDone u.after = true → s.heldAtIssue th .p false = false →
      Reached s th { read := true } (u.pair a.toNat) 192 64 segs →
      (∀ e ∈ pieceLines segs, s.lineBusy (s.coreOf th) e.2.1.line = false ∧ s.asleep e.2.1 = false) →
      (u.entering i).settled d.toNat 1 →
      let gives (v : Word) : Prop := Does s i th (fun z => z.write d.toNat v)
        (((pieceLines segs).map (·.2.1)).foldl State.touch s)
      (63 < q ∨ q / 4 ≠ tenant → gives 0x80000001) ∧
      (q ≤ 63 → q / 4 = tenant → (x.en = false → gives 0x80000002) ∧ (x.en = true → x.prod = false → gives 0x80000003) ∧
        ∀ l, x.en = true → x.prod = true → x.appending = none → x.base % 64 = 0 →
          s.mgrAccess q (x.base + 16) 8 { read := true, write := true } = .ok [(x.base + 16, 8, l)] →
          let tp := l.locate (x.base + 16)
          let tail := valueOf (fun j => s.byteAt (tp.plus j)) 8
          let slot := x.ring + 192 * (tail % 2 ^ x.logsz)
          (2 ^ x.logsz ≤ tail - x.head → gives 0x80000004) ∧
          ∀ m, tail - x.head < 2 ^ x.logsz → s.mgrAccess q slot 192 { write := true } = .ok [(slot, 192, m)] →
            s.piecesHeld [(slot, 192, m)] = false → s.piecesHeld [(x.base + 16, 8, l)] = false → s.MemOk →
            let rp := m.locate slot
            (∀ j, j < 192 → m.locate (slot + j) = rp.plus j ∧ s.dropsWrites (rp.plus j) = false) → s.dropsWrites tp = false →
            (∀ j k, j < 192 → k < 8 → rp.plus j ≠ tp.plus k) → (s.readPieces segs).length = 192 →
            ∃ t, exec i s = .next t ∧
              t.thread th = ((u.entering i).write d.toNat (BitVec.ofNat 32 (tail % 2 ^ 31))).leaving s.tick ∧
              valueOf (fun j => t.byteAt (tp.plus j)) 8 = (tail + 1) % 2 ^ 64 ∧
              ∀ j, j < 192 → t.byteAt (rp.plus j) =
                if (120 ≤ j ∧ j < 124) ∨ (128 ≤ j ∧ j < 136) then 0 else (s.readPieces segs).getD j 0)) ∧
    (Alone s (.intr sw k) th →
      (n ≤ k.toNat → s.handles th → Falls s (.intr sw k) th 0x002 0 (k.setWidth 64)) ∧
      (k.toNat < n → ∃ t, exec (.intr sw k) s = .next t ∧ t.mem = s.mem ∧
        t.thread th = (u.entering (.intr sw k)).leaving s.tick ∧
        (s.messages = [] → s.allDone waits = true → t.messages = [] ∧
          t.irqs = s.irqs ++ [(s.tenant tenant).tintrBase + k.toNat]) ∧
        (s.messages = [] → s.allDone waits = false → t.messages = [⟨tenant, k.toNat, waits⟩] ∧ t.irqs = s.irqs)))

/-- R229, R232, R233, R235, R236, R345: a queue is enabled with the counters of its QCB and watches TAIL; the record
at the dispatch point is refused with the first code of Table 15.4 that fits it (an offline channel counts as R311 has
it), or becomes a grid once its wait counter is reached, and nothing is dispatched while an access of the queue waits;
the manager's writes happen in each record's order, and one that fails stops the queue; the end of a grid's last team
orders its STATUS, then for DONE the addition to its done counter and its interrupt, then its retirement, which takes
HEAD past every leading record that has retired; the first stop report of a grid is the one recorded, of those of one
cycle the one of the lowest TEAM index. That a refused record advances DISP and retires in its turn is deduced (log
67); that event 12's die is the queue's manager's is the model's choice (log 156). -/
def Obligations.QueueManagers : Prop :=
  ∀ (s : State) (q : ℕ), q < 64 →
    let x := s.queue q
    (∀ v : DWord, s.registersOpen = true →
      let base := v.toNat / 2 ^ 6 % 2 ^ 51 * 64
      let ends (facts : State → Prop) : Prop := ∃ t, exec (.qctlWrite q v) s = .next t ∧ t.mem = s.mem ∧ facts t
      (v.getLsbD 63 = false → ends fun t => (t.queue q).en = false ∧ (t.queue q).qcb = base) ∧
      (v.getLsbD 63 = true →
        ((∀ ps, s.mgrAccess q base 64 { read := true, write := true } ≠ .ok ps) → ends fun t => (t.queue q).en = false) ∧
        ∀ ps, s.mgrAccess q base 64 { read := true, write := true } = .ok ps →
          let w := leValue (s.mgrBytes ps)
          let f (hi lo : ℕ) : ℕ := w / 2 ^ lo % 2 ^ (hi + 1 - lo)
          let good : Prop := f 511 320 = 0 ∧ f 69 64 = 0 ∧ f 63 9 = 0 ∧ f 7 5 = 0 ∧ 1 ≤ f 4 0 ∧ f 4 0 ≤ 16 ∧
            f 319 256 ≤ f 255 192 ∧ f 255 192 ≤ f 191 128 ∧ f 191 128 - f 319 256 ≤ 2 ^ f 4 0
          (¬good → ends fun t => (t.queue q).en = false) ∧
          (good → ends fun t => (t.queue q).en = true ∧ (t.queue q).base = base ∧ (t.queue q).ring = f 127 64 ∧
            (t.queue q).logsz = f 4 0 ∧ ((t.queue q).prod = true ↔ f 8 8 = 1) ∧ (t.queue q).tail = f 191 128 ∧
            (t.queue q).disp = f 255 192 ∧
            f 319 256 ≤ (t.queue q).head ∧ (t.queue q).head ≤ f 255 192))) ∧
    (∀ n ps, x.en = true → x.parked = none → s.mgrAccess q (x.base + 16) 8 { read := true } = .ok ps →
      n = leValue (s.mgrBytes ps) → n ≠ x.tail →
      let u := (s.mgrPlaces q (x.base + 16) 8 { read := true }).foldl State.touch s
      (2 ^ x.logsz < n - x.head ∨ n < x.disp →
        exec (.queueWatchWake q) s = .next (u.setQueue q { x with en := false })) ∧
      (¬(2 ^ x.logsz < n - x.head ∨ n < x.disp) → exec (.queueWatchWake q) s = .next (u.setQueue q { x with tail := n }))) ∧
    (let n := x.disp
      let disp : MgrOp := ⟨n, .store (x.base + 24) (leBytes 8 (n + 1)), none⟩
      let status (state code : ℕ) : MgrOp := ⟨n, .store (s.slotVa q n + 120) (leBytes 4 (state + 256 * code)), none⟩
      (x.en = false ∨ x.waits = true ∨ x.tail ≤ n → exec (.recordDispatch q) s = .next s) ∧
      ∀ ps, x.en = true → x.waits = false → s.lcDue = none → n < x.tail → (∀ l ∈ s.pointPlaces q, s.asleep l = false) →
        s.mgrAccess q (s.slotVa q n) 192 { read := true } = .ok ps →
      let v := leValue (s.mgrBytes ps)
      let f (hi lo : ℕ) : ℕ := v / 2 ^ lo % 2 ^ (hi + 1 - lo)
      let groups (r : ℕ) : ℕ := f (292 + 16 * r) (288 + 16 * r)
      let badAddress (p : ℕ) : Prop := p % 4 ≠ 0 ∨ 2 ^ 57 ≤ p
      let badRecord : Prop := f 1535 1088 ≠ 0 ∨ f 1023 992 ≠ 0 ∨ f 415 410 ≠ 0 ∨ f 399 386 ≠ 0 ∨ f 383 381 ≠ 0 ∨
        (∃ r < 4, f (303 + 16 * r) (298 + 16 * r) ≠ 0) ∨ badAddress (f 63 0) ∨ badAddress (f 127 64) ∨
        f 511 448 % 8 ≠ 0 ∨ f 639 576 % 8 ≠ 0 ∨ f 223 192 = 0 ∨ f 255 224 = 0 ∨ f 287 256 = 0 ∨
        2 ^ 32 < f 223 192 * f 255 224 * f 287 256 ∨ groups 0 = 0 ∨ (∃ r < 4, 16 < groups r) ∨
        (∃ r < 3, groups r = 0 ∧ groups (r + 1) ≠ 0) ∨ 16 < groups 0 + groups 1 + groups 2 + groups 3 ∨
        8 < f 355 352 ∨ 16 < f 360 356 ∨ 64 < f 367 361 ∨ f 377 376 = 3
      let badSlot : Prop := ∃ k < 8,
        let w := f (735 + 32 * k) (704 + 32 * k)
        let g (hi lo : ℕ) : ℕ := w / 2 ^ lo % 2 ^ (hi + 1 - lo)
        let format := g 23 20
        g 31 24 ≠ 0 ∨ g 10 0 ≠ 0 ∨ 10 < format ∨ 1 < g 17 16 ∨ (g 19 18 ≠ 0 ∧ format ≠ 4 ∧ format ≠ 5) ∨
          ¬(g 19 18 = 0 ↔ g 17 16 = 0) ∨ (g 11 11 = 1 ∧ g 19 18 = 0) ∨
          (g 15 15 = 1 ∧ (format ≤ 3 ∨ format = 8 ∨ format = 9)) ∨ (format = 10 ∧ g 15 15 = 0)
      let dies := (List.range 8).filter fun d => decide (f (368 + d) (368 + d) = 1) &&
        (List.range 12).any fun k => (s.cluster (12 * d + k)).owned && (s.cluster (12 * d + k)).tenant == q / 4
      let budgets := (List.range 4).flatMap fun r => List.replicate (groups r) (32 * (f (297 + 16 * r) (293 + 16 * r) + 1))
      let fits : Prop := ∀ c < 4, (((List.range budgets.length).filter fun k => decide (k % 4 = c)).map
        fun k => budgets.getD k 0).sum ≤ if c < 2 then 1024 else 896
      let degraded : Prop := f 384 384 = 1 ∧ ∃ d ∈ dies, ∃ k < 64, let c := s.channel (2 * d + k / 32) (k % 32)
        c.retired = true ∨ c.narrowed = true ∨ c.offline = true
      let refused (code : ℕ) : Prop := ∃ t, exec (.recordDispatch q) s = .next t ∧ t.grids = s.grids ∧ t.mem = s.mem ∧
        t.queue q = { x with disp := n + 1, ops := x.ops ++ [disp, status 3 code, ⟨n, .retire, none⟩] }
      let good : Prop := ¬badRecord ∧ ¬badSlot ∧ dies ≠ [] ∧ fits ∧ ¬degraded
      (badRecord → refused 1) ∧ (¬badRecord → badSlot → refused 2) ∧ (¬badRecord → ¬badSlot → dies = [] → refused 3) ∧
      (¬badRecord → ¬badSlot → dies ≠ [] → ¬fits → refused 4) ∧
      (¬badRecord → ¬badSlot → dies ≠ [] → fits → degraded → refused 5) ∧
      (∀ cs, good → f 511 448 ≠ 0 → s.mgrAccess q (f 511 448) 8 { read := true } = .ok cs →
        leValue (s.mgrBytes cs) < f 575 512 → exec (.recordDispatch q) s = .next s) ∧
      (good → (f 511 448 = 0 ∨ ∃ cs, s.mgrAccess q (f 511 448) 8 { read := true } = .ok cs ∧
          f 575 512 ≤ leValue (s.mgrBytes cs)) → ∃ t, exec (.recordDispatch q) s = .next t ∧ t.mem = s.mem ∧
        t.queue q = { x with disp := n + 1, ops := x.ops ++ [disp, status 1 0] } ∧
        let g := t.grid s.nextId
        g.queue = q ∧ g.record = n ∧ g.tenant = q / 4 ∧ g.code.toNat = f 63 0 ∧ g.handler.toNat = f 127 64 ∧
        g.param.toNat = f 191 128 ∧ g.nx = f 223 192 ∧ g.ny = f 255 224 ∧ g.nz = f 287 256 ∧ g.priority = f 380 378 ∧
        g.wdog = f 447 416 ∧ g.dies = dies ∧ g.scr = f 355 352 ∧ g.tileCount = f 360 356 ∧ g.policy = f 377 376 ∧
        g.doneAddr.toNat = f 639 576 ∧ g.doneInc.toNat = f 703 640 ∧ (g.doneIntr = true ↔ f 385 385 = 1) ∧
        g.dvec = f 409 400 ∧ g.placed = 0)) ∧
    (∀ k o, x.nextOp = some (k, o) →
      (∀ va data l, o.act = .store va data → s.mgrAccess q va data.length { write := true } = .ok [(va, data.length, l)] →
        va / 64 = (va + data.length - 1) / 64 → data ≠ [] → s.writeHeld (l.locate va) = false →
        s.dropsWrites (l.locate va) = false → s.MemOk → ∃ t, exec (.queueManagerAccess q) s = .next t ∧
          Landed s t (l.locate va) data ∧ (t.queue q).ops = x.ops.eraseIdx k) ∧
      (∀ va data bad, o.act = .store va data → s.mgrAccess q va data.length { write := true } = .fails bad →
        ∃ t, exec (.queueManagerAccess q) s = .next t ∧ t.mem = s.mem ∧ (t.queue q).en = false ∧
          (t.queue q).ops = x.ops.eraseIdx k ∧ t.events.getLast? = some ⟨12, q % 8, q, bad⟩) ∧
      (∀ va inc l, o.act = .addDone va inc →
        s.mgrAccess q va 8 { read := true, write := true } = .ok [(va, 8, l)] → va % 8 = 0 →
        s.writeHeld (l.locate va) = false → s.dropsWrites (l.locate va) = false → s.MemOk →
        ∃ t, exec (.queueManagerAccess q) s = .next t ∧ (t.queue q).ops = x.ops.eraseIdx k ∧
          Landed s t (l.locate va) (leBytes 8 ((valueOf (fun j => s.byteAt ((l.locate va).plus j)) 8 + inc) % 2 ^ 64))) ∧
      (∀ v, o.act = .interrupt v → s.messages = [] → ∃ t, exec (.queueManagerAccess q) s = .next t ∧ t.mem = s.mem ∧
        (t.queue q).ops = x.ops.eraseIdx k ∧ t.messages = [] ∧
        t.irqs = s.irqs ++ if v < (s.tenant (q / 4)).tintrCount then [(s.tenant (q / 4)).tintrBase + v] else []) ∧
      (o.act = .retire → ∃ t h, exec (.queueManagerAccess q) s = .next t ∧ t.mem = s.mem ∧ (t.queue q).head = h ∧
        (x.head ≤ h ∧ (∀ n, x.head ≤ n → n < h → n = o.record ∨ n ∈ x.retired) ∧ h ≠ o.record ∧ h ∉ x.retired) ∧
        (t.queue q).ops = x.ops.eraseIdx k ++
          (if h = x.head then [] else [⟨o.record, .store (x.base + 32) (leBytes 8 h), none⟩]) ∧
        ∀ g ∈ t.grids, g.2.queue = q → g.2.record = o.record → g.2.retired = true)) ∧
    (∀ team, s.teamOver team = true → (Tab.find s.grids (s.team team).grid).isSome = true →
      let g := s.grid (s.team team).grid
      let last : Prop := g.ended + 1 = g.placed ∧ (g.placed = g.nx * g.ny * g.nz ∨ g.stopped ≠ none)
      let op (a : MgrAct) : MgrOp := ⟨g.record, a, none⟩
      let status (state : ℕ) : MgrOp := op (.store (g.recordVa + 120) (leBytes 4 state))
      g.queue = q → ∃ t, exec (.teamEnd team) s = .next t ∧ (¬last → t.queue q = x) ∧
        (last → g.stopped ≠ none → t.queue q = { x with ops := x.ops ++ [status 4, op .retire] }) ∧
        (last → g.stopped = none → t.queue q = { x with ops := x.ops ++ ([status 2] ++
          (if g.doneAddr = 0 then [] else [op (.addDone g.doneAddr.toNat g.doneInc.toNat)]) ++
          (if g.doneIntr = true then [op (.interrupt g.dvec)] else []) ++ [op .retire]) })) ∧
    (∀ (team : ℕ) (code : Word), (s.team team).stopping = some code → (s.team team).reported = false →
      (Tab.find s.grids (s.team team).grid).isSome = true →
      let g := s.gridOf team
      let index := (s.team team).index
      let va := g.recordVa + 128
      let first : Prop := ∀ r, g.stopped = some r → g.stoppedAt = s.now ∧ index < r.1
      ∃ t, exec (.stopReport team) s = .next t ∧ t.mem = s.mem ∧ (t.team team).reported = true ∧
        (first → (t.grid (s.team team).grid).stopped = some (index, code) ∧
          (t.queue g.queue).ops = (s.queue g.queue).ops.filter (fun o => o.act.target != some va) ++
            [⟨g.record, .store va (leBytes 4 index ++ leBytes 4 code.toNat), none⟩]) ∧
        (¬first → (t.grid (s.team team).grid).stopped = g.stopped ∧ t.queue g.queue = s.queue g.queue))

/-- R8, R16, R234, R235, R241, R242: an offer places one team, whose threads start at CODE with PARAM in v0:v1 and all
else zero, on a core that has acquired; the end of a team frees what it held; a preempted team is SAVING until its
waits are over, and is then SAVED; a save and a restore wait for the channels of the save area (R342). That a fresh
team's scratchpad holds nothing, and so reads zero, is the model's choice (log 84). -/
def Obligations.PlacingAndSaving : Prop :=
  ∀ (s : State),
    (∀ gid n core, s.offer = some (gid, .fresh n, core) → (Tab.find s.grids gid).isSome = true →
      let g := s.grid gid
      let shape := (g.roles.mapIdx fun r x => List.replicate x.1 (r, x.2)).flatten
      ∃ t, exec .teamPlace s = .next t ∧ t.mem = s.mem ∧ t.nextTeam = s.nextTeam + 1 ∧
        (t.grid gid).placed = g.placed + 1 ∧ (t.core core).l1 = [] ∧ (t.core core).fetch = [] ∧
        (n < g.size → t.locator gid n = some (.running core)) ∧
        let x := t.team s.nextTeam
        x.grid = gid ∧ x.index = n ∧ x.core = core ∧ x.tenant = g.tenant ∧ x.scratch = [] ∧ x.tiles = [] ∧ x.knots = [] ∧
        x.scratchSize = g.scr * 131072 ∧ x.tileCount = g.tileCount ∧
        ∀ j l, j < shape.length → l < 64 → let y := t.thread ⟨s.nextTeam, j, l⟩
          (x.group j).role = (shape.getD j (0, 0)).1 ∧ (x.group j).budget = (shape.getD j (0, 0)).2 ∧ (x.group j).quad = j % 4 ∧
          y.pc = g.code ∧ y.reg 0 = g.param.extractLsb' 0 32 ∧ y.reg 1 = g.param.extractLsb' 32 32 ∧
          (∀ k, 2 ≤ k → y.reg k = 0) ∧ y.preds = 1 ∧ y.flags = 0 ∧ y.win = 0 ∧ y.status = .ready) ∧
    (∀ gid n core, s.offer = some (gid, .saved n, core) → (s.areaPlaces n).any s.asleep = true →
      exec .teamPlace s = .next (s.want (s.areaPlaces n))) ∧
    (∀ gid n core, s.offer = some (gid, .saved n, core) → (s.areaPlaces n).any s.asleep = false →
      (Tab.find s.teams n).isSome = true → ∃ t, exec .teamPlace s = .next t ∧ t.mem = s.mem ∧ (t.team n).saved = false ∧ (t.team n).core = core ∧
        (t.core core).l1 = [] ∧ (t.core core).fetch = [] ∧
        ∀ th, th.team = n → s.holds th = true → (t.thread th).regs = (s.thread th).regs ∧ (t.thread th).pc = (s.thread th).pc ∧
          (t.thread th).win = (s.thread th).win ∧ (t.thread th).preds = (s.thread th).preds ∧
          (t.thread th).flags = (s.thread th).flags) ∧
    (∀ team, s.teamOver team = true →
      let x := s.team team
      ∃ t, exec (.teamEnd team) s = .next t ∧ t.mem = s.mem ∧ Tab.find t.teams team = none ∧
        (x.index < (s.grid x.grid).size → t.locator x.grid x.index = some .ended) ∧
        t.saveAreas = s.saveAreas.filter (fun e => e.1 != x.area) ∧
        ((Tab.find s.grids x.grid).isSome = true → (t.grid x.grid).ended = (s.grid x.grid).ended + 1)) ∧
    (∀ team, s.sliceOver team = true → ∃ t, exec (.timeSliceExpired team) s = .next t ∧ t.mem = s.mem ∧
      (t.team team).saving = true ∧ ∀ th, t.thread th = s.thread th) ∧
    (∀ gid ts, s.graceOver gid = true → s.victims gid = some ts → ∃ t, exec (.priorityGraceExpired gid) s = .next t ∧
      t.mem = s.mem ∧ (∀ th, t.thread th = s.thread th) ∧
      ∀ v ∈ ts, (Tab.find s.teams v).isSome = true → (s.team v).saved = false → (t.team v).saving = true) ∧
    (∀ team, s.saveReady team = true → (s.areaPlaces team).any s.asleep = true →
      exec (.teamSave team) s = .next (s.want (s.areaPlaces team))) ∧
    (∀ team, s.saveReady team = true → (s.areaPlaces team).any s.asleep = false → (Tab.find s.teams team).isSome = true →
      let x := s.team team
      ∃ t, exec (.teamSave team) s = .next t ∧ t.mem = s.mem ∧ (t.team team).saved = true ∧ (t.team team).saving = false ∧
        (x.index < (s.grid x.grid).size → t.locator x.grid x.index = some .saved) ∧
        { core := x.core, team := team } ∈ t.forwarding ∧ ∀ th, th.team = team → (t.thread th).regs = (s.thread th).regs ∧
          (t.thread th).pc = (s.thread th).pc ∧ (t.thread th).status ≠ .stalled)


/-! ### Issue, fetch and translation -/

/-- R239, R240, R33, R302, R347: T is the Ready thread of the oldest ready time, and the ply around it holds in each
lane the oldest Ready thread of its team that stands at T's program counter, in ascending lane order; a ply that
waited at the engine queue goes on with the threads it has left; that threads in a TRET.RE ply apart is the model's
choice (log 132). The ply's word comes from the core's fetch cache, and a word that decodes to no instruction raises
ILLEGAL_OPCODE; a missing line is fetched with the checks of R302, and a failed one raises its precise trap. A group
that has held its active place for its time leaves the active set, and the place goes to the responder that waits, or
else to the ready group that has been pending longest. That a ply which waited goes on as a whole is deduced (log 44);
that the bytes of a poisoned line are run is the model's choice (log 80). -/
def Obligations.PliesAndFetches : Prop :=
  ∀ (s : State) (core quad : ℕ),
    (let u := ({ s with ply := none } : State).refreshActive core quad
      let word (top : ThreadRef) : Option Word := u.fetchWord core (u.tenantOf top) (u.thread top).pc
      (u.issueTop core quad = none → exec (.issuePly core quad) s = .next u) ∧
      ∀ top, u.issueTop core quad = some top →
        (u.stepped core quad = none → top ∈ u.issuable core quad ∧
          ∀ th ∈ u.issuable core quad, (u.thread top).readyAt ≤ (u.thread th).readyAt) ∧
        (∀ w i, word top = some w → decode w = .ok i → ∃ p, exec (.issuePly core quad) s = .next { u with ply := some p } ∧
          p.core = core ∧ p.quad = quad ∧ p.team = top.team ∧ p.pc = (u.thread top).pc ∧ p.word = w ∧
          (∀ o, u.openPly? top = some o → p.members = o.rest) ∧
          (u.openPly? top = none → (∀ th ∈ p.members, th.team = top.team ∧ (u.thread th).pc = p.pc ∧ (u.thread th).status = .ready) ∧
            p.members.Pairwise (fun x y => x.lane < y.lane)) ∧
          (u.openPly? top = none → top.lane < 64 → top ∈ p.members ∧
            (u.stepped core quad = none → isResponder top = false → (u.thread top).joined = 0 → ∀ th ∈ u.issuable core quad,
              th.team = top.team → (u.thread th).pc = p.pc → (u.thread th).joined = 0 →
              (u.thread th).replay = (u.thread top).replay → u.openPly? th = none → isResponder th = false → th.lane < 64 →
              ∃ x ∈ p.members, x.lane = th.lane ∧ (x = top ∨ (u.thread x).readyAt * 16 + x.group ≤
                (u.thread th).readyAt * 16 + th.group)))) ∧
        (∀ w e, word top = some w → decode w = .error e → u.plyAround core quad top = [top] → sw w = false →
          (u.thread top).joined = 0 → u.handles top →
          exec (.issuePly core quad) s = .next { u.modThread top fun v =>
            v.trapped ⟨v.pc, 0x001, 0, w.setWidth 64⟩ false v.pc (u.gridOf top.team).handler u.tick with
            ply := some ⟨core, quad, top.team, [top], (u.thread top).pc, w⟩ }) ∧
        (word top = none → (∀ th ∈ u.plyAround core quad top, (u.thread th).xfault = none ∧ (u.thread th).status = .ready) →
          ∃ t, exec (.issuePly core quad) s = .next t ∧ t.mem = s.mem ∧ t.ply = none ∧
          ∀ th ∈ u.plyAround core quad top, ⟨core, u.tenantOf th, (u.thread th).pc.toNat, th⟩ ∈ t.fetches ∧
            (u.holds th = true → t.thread th = { u.thread th with status := .stalled }))) ∧
    (∀ (f : Fetch), (s.fetches.filter fun x => x.core == f.core && x.tenant == f.tenant && x.va == f.va % 2 ^ 64) = [f] →
      s.fetchWanted f = true →
      let i : Instr := .instructionFetch f.core f.tenant (BitVec.ofNat 64 f.va)
      let pc := (s.thread f.th).pc
      let traps (code : Word) (aux : DWord) : Prop := s.handles f.th → s.holds f.th = true →
        exec i s = .next ((s.dropFetches f.th).modThread f.th fun v =>
          v.trapped ⟨pc, code, pc, aux⟩ false pc (s.gridOf f.th.team).handler s.tick)
      let need : Need := { exec := true, noPeer := true, resident := true }
      (2 ^ 57 ≤ f.va → traps 0x006 1) ∧
      (f.va < 2 ^ 57 → (∀ code a aux, s.reach f.core f.tenant need f.va 4 = .deny code a aux → traps code aux) ∧
        ∀ segs, s.reach f.core f.tenant need f.va 4 = .ok segs → f.va % 4 = 0 →
          let l := (placeAt segs f.va).lineStart
          (s.asleep l = true → exec i s = .next (s.want [l])) ∧
          (s.asleep l = false → ∃ t, exec i s = .next t ∧ t.mem = s.mem ∧ t.teams = s.teams ∧ f ∉ t.fetches ∧
            t.fetchWord f.core f.tenant pc = some (BitVec.ofNat 32 (valueOf (fun j => s.byteAt (l.plus (f.va % 64 + j))) 4))))) ∧
    (∀ (team group : ℕ), (s.holdOver team group = false → exec (.activeHoldExpired team group) s = .next s) ∧
      (s.holdOver team group = true →
        let core := (s.team team).core
        let here := s.quadGroups core (s.groupAt (team, group)).quad
        let pending (e : ℕ × ℕ) : Prop := e ∈ here ∧ (s.groupAt e).hasReady = true ∧
          (e = (team, group) ∨ (s.groupAt e).active = false)
        let turn (e : ℕ × ℕ) : ℕ := (if e = (team, group) then s.tick else (s.groupAt e).since) * 16 + (s.groupAt e).place
        ∃ t, exec (.activeHoldExpired team group) s = .next t ∧ t.mem = s.mem ∧
          (∀ th, { t.thread th with readyAt := 0 } = { s.thread th with readyAt := 0 }) ∧
          (∀ e ∈ here, e ≠ (team, group) → (s.groupAt e).active = true → t.groupAt e = s.groupAt e) ∧
          ∀ e, (here.filter fun x => decide (x ≠ (team, group)) && (s.groupAt x).active).length = 7 → pending e →
            e ≠ (team, group) →
            (∀ x, pending x → x ≠ e → (16 ≤ e.2 ∧ x.2 < 16) ∨ (e.2 < 16 ∧ x.2 < 16 ∧ turn e < turn x)) →
            { t.groupAt (team, group) with threads := [] } =
              { s.groupAt (team, group) with active := false, since := s.tick, threads := [] } ∧
            { t.groupAt e with threads := [] } =
              { s.groupAt e with active := true, since := s.cyclesOf (s.team e.1).core, threads := [] } ∧
            ∀ x, x ≠ (team, group) → x ≠ e → t.groupAt x = s.groupAt x))

/-- R282, R286 to R290: TROOT takes a root below the device's end unless the tag is another enabled tenant's or a
clear is under way, and no walk under the tag then starts from an entry of another root; where the tag changes, or
another tenant's register holds it too, nothing stays that a lookup under the old or the new one could hit (log 167);
a walk waits for a channel that sleeps, and one that ends in a leaf puts it in the TLB, and one that faults with the
fault queue off fails the access; INVCTL drops the range's translations from the TLBs and its lines from the L1s and
fetch caches of the tenant's clusters, and BUSY clears once the accesses in flight that used them, which are those
listed here, are over. That the write itself drops everything at once is the model's choice (log 81). -/
def Obligations.AddressSpaces : Prop :=
  ∀ (s : State) (n : ℕ) (v : DWord), n < 16 → s.registersOpen = true →
    let x := s.tenant n
    let f (hi lo : ℕ) : ℕ := v.toNat / 2 ^ lo % 2 ^ (hi + 1 - lo)
    (let en := v.getLsbD 63
      let taken : Prop := ∃ y ∈ s.tenants, y.1 ≠ n ∧ y.2.en = true ∧ y.2.astag = f 55 40
      let ignored : Prop := (en = true ∧ (taken ∨ x.clearBusy = true)) ∨ 96 * 2 ^ 30 < f 39 21 * 2 ^ 21 + 2 ^ 21
      (ignored → exec (.trootWrite n v) s = .next s) ∧
      let shared : Prop := ∃ y ∈ s.tenants, y.1 ≠ n ∧ y.2.astag = f 55 40
      let after := s.setTenant n { x with en := en, rdie := f 58 56, astag := f 55 40, root := f 39 21 }
      (¬ignored → ∃ t, exec (.trootWrite n v) s = .next t ∧ t.mem = s.mem ∧ t.teams = s.teams ∧ t.tenants = after.tenants ∧
        (x.astag = f 55 40 → ¬shared → t = { after with walkCaches := t.walkCaches } ∧
          (x.rdie = f 58 56 → x.root = f 39 21 → t.walkCaches = s.walkCaches)) ∧
        (¬(x.rdie = f 58 56 ∧ x.root = f 39 21) → ∀ k, ∀ e ∈ Tab.get t.walkCaches k [], e.tag ≠ f 55 40 ∧
          e ∈ Tab.get s.walkCaches k []) ∧
        (x.astag ≠ f 55 40 → ∀ r ∈ t.reqs, r.tenant = n → ∀ p ∈ r.parts, p.keep = false) ∧
        (x.astag ≠ f 55 40 ∨ shared → ∀ tag, tag = x.astag ∨ tag = f 55 40 →
          (∀ k, (∀ e ∈ (t.cluster k).tlb, e.tag ≠ tag) ∧ (∀ e ∈ Tab.get t.baseTlbs k [], e.tag ≠ tag) ∧
            ∀ e ∈ Tab.get t.walkCaches k [], e.tag ≠ tag) ∧
          ∀ c, (∀ l ∈ (t.core c).l1, l.tag ≠ tag) ∧ ∀ l ∈ (t.core c).fetch, l.tag ≠ tag))) ∧
    (∀ (w : Walk), s.walks.filter (fun y => y.cluster == w.cluster && y.tenant == w.tenant && y.va == w.va) = [w] →
      w.va < 2 ^ 64 →
      let i : Instr := .pageWalk w.cluster w.tenant (BitVec.ofNat 64 w.va)
      let left := s.walks.filter (· != w)
      let reads := s.walkReads (w.cluster / 12) w.tenant w.va
      let u := reads.foldl State.touch s
      ((∃ l ∈ reads, s.asleep l = true) → exec i s = .next (s.want reads)) ∧
      ((∀ l ∈ reads, s.asleep l = false) →
        (∀ th l base seen, w.who = .thread th → s.walk (w.cluster / 12) w.tenant w.va = .leaf l base seen →
          ∃ t, exec i s = .next t ∧ t.walks = left ∧
            t = { u with walks := t.walks, walkCaches := t.walkCaches, clusters := t.clusters } ∧
            ⟨(s.tenant w.tenant).astag, base, l⟩ ∈ (t.cluster w.cluster).tlb) ∧
        (∀ th cause, w.who = .thread th → s.walk (w.cluster / 12) w.tenant w.va = .fault cause →
          (s.thread th).status = .stalled → (s.tenant (s.tenantOf th)).fqEn = false →
          exec i s = .next ((({ u with walks := left } : State).dropFetches th).modThread th fun y =>
            { y with xfault := some (w.va, cause) })))) ∧
    (let i : Instr := .invctlWrite n v
      let first := x.invaddr * 4096
      let all := v.getLsbD 62
      let meets (a m : ℕ) : Prop := all = true ∨ (0 < f 31 0 ∧ first < a + m ∧ a < first + f 31 0 * 4096)
      let uses (a m : ℕ) : Prop := meets a m ∧ (all = true → 0 < a + m ∧ a < 2 ^ 57)
      (x.invBusy = true → exec i s = .next s) ∧
      (x.invBusy = false → v.getLsbD 63 = false →
        exec i s = .next (s.setTenant n { x with invBusy := false, invAll := all, invCount := f 31 0 })) ∧
      (x.invBusy = false → v.getLsbD 63 = true → ∃ t, exec i s = .next t ∧ t.mem = s.mem ∧ t.teams = s.teams ∧
        (t.tenant n).invBusy = true ∧
        (∀ id, id ∈ (t.tenant n).invWaits ↔
          (∃ r ∈ s.reqs, r.id = id ∧ r.tenant = n ∧
            ((∃ p ∈ r.parts, uses p.va p.len) ∨ ∃ e ∈ r.kind.sourceLines, uses e.1 64)) ∨
          (∃ m ∈ s.merges, m.id = id ∧ m.tenant = n ∧ ∃ g ∈ m.pieces, uses g.1 g.2.1) ∨
          (∃ y ∈ s.teams, y.2.tenant = n ∧ ∃ e ∈ y.2.engine, e.id = id ∧ ∃ g ∈ e.pieces, uses g.1 g.2.1) ∨
          ∃ g ∈ s.segments, g.id = id ∧ (∃ c ∈ s.commands, c.id = g.cmd ∧ c.tenant = n) ∧ uses g.va g.len) ∧
        (∀ k, ∀ e ∈ Tab.get t.baseTlbs k [], e ∈ Tab.get s.baseTlbs k [] ∧
          (e.tag = x.astag → 0 < e.leaf.size → e.base < 2 ^ 57 → ¬meets e.base e.leaf.size)) ∧
        (∀ k, (s.cluster k).owned = true → (s.cluster k).tenant = n →
          (∀ e ∈ (t.cluster k).tlb, e ∈ (s.cluster k).tlb ∧
            (e.tag = x.astag → 0 < e.leaf.size → e.base < 2 ^ 57 → ¬meets e.base e.leaf.size)) ∧
          ∀ c, c / 8 = k → (∀ l ∈ (t.core c).l1, l ∈ (s.core c).l1 ∧
              (l.tag = x.astag → l.vline < 2 ^ 51 → ¬meets (l.vline * 64) 64)) ∧
            ∀ l ∈ (t.core c).fetch, l ∈ (s.core c).fetch ∧
              (l.tag = x.astag → l.vline < 2 ^ 51 → ¬meets (l.vline * 64) 64)))) ∧
    (let ended : Prop := x.invBusy = true ∧ s.allDone x.invWaits = true ∧ ∀ g ∈ s.segments, g.id ∉ x.invWaits
     (ended → exec (.invalidationComplete n) s = .next (s.setTenant n { x with invBusy := false, invWaits := [] })) ∧
     (¬ended → exec (.invalidationComplete n) s = .next s))


/-- R283 to R285, R333: a write of CLUSOWN that changes the owner starts a change: teams are preempted, overdue
responders end with ISOLATION, and once the cores are drained their SRAM and TLB are wiped and the new owner stands.
TCLEAR is refused while the tenant is bound, owns a cluster or has a queue enabled; a clear discards its strings,
sequencing records, saved teams, fault records and registers. TINTR takes a range of vectors that meets no other
tenant's. No byte of memory changes. The model's choices: a write of TCLEAR while BUSY is ignored (log 83), and a clear
starts the count of fault records anew (log 89). -/
def Obligations.TenantsAndClusters : Prop :=
  ∀ (s : State), s.registersOpen = true →
    (∀ (k : ℕ) (v : Word), k < 96 →
      let c := s.cluster k
      let owned := v.getLsbD 30
      let tenant := v.toNat % 16
      let cores := (List.range 8).map fun j => 8 * k + j
      let i : Instr := .clusownWrite k v
      (c.busy = true ∨ (c.owned = owned ∧ c.tenant = tenant) → exec i s = .next s) ∧
      (c.busy = false → ¬(c.owned = owned ∧ c.tenant = tenant) → ∃ t, exec i s = .next t ∧ t.mem = s.mem ∧
        t.cluster k = { c with busy := true, nextOwned := owned, nextTenant := tenant, since := cores.map s.cyclesOf } ∧
        (∀ th, t.thread th = s.thread th) ∧
        ∀ core ∈ cores, (s.core core).ctl.halt = false ∨ (s.core core).ctl.pstat = 1 → ∀ x ∈ s.residents core, (Tab.find s.teams x).isSome = true →
          (s.team x).saved = false → (t.team x).saving = true) ∧
      (∀ th, s.overdue k = [th] → exec (.clusterResponderTimeout k) s = .next (s.responderTrap th 0x007)) ∧
      (s.ownerReady k = false → exec (.ownerChangeComplete k) s = .next s) ∧
      (s.ownerReady k = true → ∃ t, exec (.ownerChangeComplete k) s = .next t ∧
        t = { s with cores := t.cores, clusters := t.clusters } ∧
        t.cluster k = { c with tlb := [], busy := false, owned := c.nextOwned, tenant := c.nextTenant, since := [] } ∧
        ∀ core ∈ cores, t.core core = { s.core core with
          l1 := [], fetch := [], lease := none, acquires := (s.core core).acquires + 1
          dir := (s.core core).dir.filter fun e => decide (e.2.state = .moving ∨ e.2.state = .forward) })) ∧
    (∀ (n : ℕ) (v : DWord), n < 16 →
      let x := s.tenant n
      let refused : Prop := x.en = true ∨ (∃ y ∈ s.clusters, y.2.tenant = n ∧ (y.2.owned = true ∨ y.2.busy = true)) ∨
        ∃ q, q / 4 = n ∧ (s.queue q).en = true
      (v.getLsbD 63 = false ∨ x.clearBusy = true → exec (.tclearWrite n v) s = .next s) ∧
      (v.getLsbD 63 = true → x.clearBusy = false →
        (refused → exec (.tclearWrite n v) s = .next (s.setTenant n { x with clearRefused := true })) ∧
        (¬refused → exec (.tclearWrite n v) s =
          .next (s.setTenant n { x with clearBusy := true, clearRefused := false }))) ∧
      (x.clearBusy = false → exec (.tenantClearComplete n) s = .next s) ∧
      (x.clearBusy = true → ∃ t, exec (.tenantClearComplete n) s = .next t ∧ t.mem = s.mem ∧
        (∀ y ∈ t.strings, y ∈ s.strings ∧ y.tenant ≠ n) ∧ ((∀ y ∈ s.strings, y.handle < 4096) → ∀ y ∈ s.strings, y.tenant ≠ n → y.key ∈ t.strings.map Str.key) ∧
        t.records = s.records.filter (fun r => r.tenant != n) ∧
        (∀ y ∈ s.teams, y.2.tenant = n → Tab.find t.teams y.1 = none) ∧
        t.faultRecords = s.faultRecords.filter (fun r => r.tenant != n) ∧
        t.tenant n =
          { en := x.en, rdie := x.rdie, astag := x.astag, root := x.root, invaddr := x.invaddr, clearRefused := x.clearRefused } ∧
        (∀ q, q / 4 = n → t.queue q = {}) ∧ ∀ k, ∀ e ∈ (t.cluster k).tlb, e.tag ≠ x.astag ∧ e ∈ (s.cluster k).tlb) ∧
      let count := v.toNat / 2 ^ 32 % 2 ^ 11
      let base := v.toNat % 2 ^ 11
      let ignored : Prop := 1024 < count ∨ 2048 < base + count ∨ (count ≠ 0 ∧ ∃ y ∈ s.tenants, y.1 ≠ n ∧ y.2.tintrCount ≠ 0 ∧
        base < y.2.tintrBase + y.2.tintrCount ∧ y.2.tintrBase < base + count)
      (ignored → exec (.tintrWrite n v) s = .next s) ∧
      (¬ignored → exec (.tintrWrite n v) s = .next (s.setTenant n { x with tintrCount := count, tintrBase := base })))

/-- R299, R300: a page fault of a thread parks the live threads of its group. With the fault queue on, it posts a
record in the ring's next slot, with the fields of Table 22.5, raises its count and sends vector 0; or it joins the
unresolved record of its page and direction; a full ring lets the record wait, and a slot that cannot be written turns
the queue off and fails the access. R299 to R301: FQBASE takes the ring, with EN only for a LOGSZ above 0. FRES names
an unresolved record or is ignored; RETRY and ACK let what is parked on the record's page and direction go on,
threads, copies, near-memory commands and the queue managers' accesses, FAIL fails it with the record's cause, which
stops a queue and logs event 12 for each access of it (R345), and a record of another kind is only freed. The model's
choices: RETRY and FAIL free a record of kind 3, 4 or 5 (log 91), and a write of FQBASE keeps the count of records
(log 89). -/
def Obligations.FaultQueues : Prop :=
  (∀ (s : State) (w : Walk) (th : ThreadRef) (cause : ℕ), w.who = .thread th → w.tenant = s.tenantOf th → w.va < 2 ^ 64 →
    s.walks.filter (fun y => y.cluster == w.cluster && y.tenant == w.tenant && y.va == w.va) = [w] →
    (∀ l ∈ s.walkReads (w.cluster / 12) w.tenant w.va, s.asleep l = false) →
    s.walk (w.cluster / 12) w.tenant w.va = .fault cause → (s.thread th).status = .stalled →
    (s.tenant (s.tenantOf th)).fqEn = true →
    let i : Instr := .pageWalk w.cluster w.tenant (BitVec.ofNat 64 w.va)
    let n := s.tenantOf th
    let y := s.tenant n
    let page := w.va / 4096
    let core := s.coreOf th
    let quad := (s.group th).quad
    let same (tenant p : ℕ) (write : Bool) (kind : ℕ) : Prop :=
      tenant = n ∧ p = page ∧ write = w.write ∧ kind ∈ [0, 1, 2, 6]
    let joins : Prop := (∃ r ∈ s.faultRecords, same r.tenant r.page r.write r.kind) ∨
      ∃ r ∈ s.faultPosts, same r.tenant r.page r.write r.kind
    let ends (facts : State → Prop) : Prop := ∃ t, exec i s = .next t ∧ facts t
    let parks (t : State) : Prop := ∀ u, s.holds u = true → t.thread u =
      if u.team = th.team ∧ u.group = th.group ∧
          ((s.thread u).status = .ready ∨ (s.thread u).status = .stalled ∨ u.lane = th.lane) then
        { s.thread u with status := .blocked, wait := .pageFault page w.write (BitVec.ofNat 64 w.va) (u.lane == th.lane), shown := none }
      else s.thread u
    let full : Prop := 2 ^ y.fqLog ≤ s.faultRecords.countP fun r => r.tenant == n
    let awake : Prop := (s.slotPlaces n).any s.asleep = false
    (joins → ends fun t => t.mem = s.mem ∧ t.faultRecords = s.faultRecords ∧ t.faultPosts = s.faultPosts ∧
      t.tenants = s.tenants ∧ parks t) ∧
    (¬joins → (∀ p ∈ s.faultPosts, p.tenant ≠ n) →
      (full → ends fun t => t.mem = s.mem ∧ t.faultRecords = s.faultRecords ∧ (t.tenant n).fqNext = y.fqNext ∧
        t.faultPosts = s.faultPosts ++ [⟨n, page, w.write, 0, cause, BitVec.ofNat 64 w.va, (s.thread th).pc,
          whoWord core quad (min th.group 16) th.lane, BitVec.ofNat 32 (s.team th.team).index, 0⟩] ∧ parks t) ∧
      (¬full → awake → s.faultSlot n = none → ends fun t => t.mem = s.mem ∧ t.faultRecords = s.faultRecords ∧
        (t.tenant n).fqEn = false ∧ t.thread th = { s.thread th with xfault := some (w.va, cause) }) ∧
      ∀ l, ¬full → awake → s.faultSlot n = some l → s.writeHeld l = false → s.dropsWrites l = false → s.messages = [] →
        s.MemOk → core < 768 → quad < 4 → th.lane < 64 → cause < 256 → ends fun t =>
        t.faultRecords = s.faultRecords ++ [⟨n, BitVec.ofNat 32 (y.fqNext + 1), page, w.write, 0, cause⟩] ∧
        (t.tenant n).fqNext = y.fqNext + 1 ∧ t.irqs = s.irqs ++ (if 0 < y.tintrCount then [y.tintrBase] else []) ∧
        Landed s t l (leBytes 64 ((cause * 2 ^ 8 + w.write.toNat * 2 ^ 16) * 2 ^ 256 + (s.team th.team).index % 2 ^ 32 * 2 ^ 288 +
          (th.lane * 2 ^ 9 + min th.group 16 * 2 ^ 15 + quad * 2 ^ 20 + core * 2 ^ 22) * 2 ^ 320 +
          (y.fqNext + 1) % 2 ^ 32 * 2 ^ 352 + (s.thread th).pc.toNat * 2 ^ 384 + w.va * 2 ^ 448)) ∧ parks t)) ∧
  ∀ (s : State) (n : ℕ) (v : DWord) (seq : Word), n < 16 → s.registersOpen = true → (∀ p ∈ s.faultPosts, p.tenant ≠ n) →
    let x := s.tenant n
    exec (.fqbaseWrite n v) s = .next (s.setTenant n { x with
      fqEn := v.getLsbD 63 && decide (v.toNat % 16 ≠ 0), fqRing := v.toNat / 2 ^ 6 % 2 ^ 51, fqLog := v.toNat % 16 }) ∧
    ∀ i ∈ [Instr.fresRetry n seq, Instr.fresFail n seq, Instr.fresAck n seq],
      ((∀ r ∈ s.faultRecords, ¬(r.tenant = n ∧ r.seq = seq)) → exec i s = .next s) ∧
      ∀ r, s.faultRecords.find? (fun r => r.tenant == n && r.seq == seq) = some r →
        let left := s.faultRecords.filter (· != r)
        let parks : Prop := r.kind = 0 ∨ r.kind = 1 ∨ r.kind = 2 ∨ r.kind = 6
        (¬parks → exec i s = .next { s with faultRecords := left }) ∧
        let fails : Prop := i = .fresFail n seq
        let on (p : Option ℕ) : Bool := (p.map fun a => decide (a / 4096 = r.page)).getD false
        let parked (y : Queue) : List ℕ :=
          (if r.write then y.appending.toList ++ y.ops.filterMap (·.parked) else y.parked.toList).filter fun a => on (some a)
        (parks → ∃ t, exec i s = .next t ∧ t.mem = s.mem ∧ t.faultRecords = left ∧
          (∀ th va own, (s.team th.team).tenant = n → (s.thread th).wait = .pageFault r.page r.write va own →
            s.holds th = true → t.thread th = { s.thread th with
              status := .ready, wait := .none, readyAt := s.tick
              xfault := if i = .fresFail n seq ∧ own = true then some (va.toNat, r.cause) else (s.thread th).xfault }) ∧
          (∀ c ∈ s.commands, c.tenant = n → nmWrites c.body = r.write → ∀ a, c.parked = some a → a / 4096 = r.page →
            (∀ d ∈ s.commands, d.id = c.id → d = c) → ∃ d ∈ t.commands, d.id = c.id ∧ d.parked = none ∧
              (fails → d.len = 0 ∧ d.failed = some ⟨c.pc, 0x005, BitVec.ofNat 64 a, BitVec.ofNat 64 r.cause⟩) ∧
              (¬fails → d = { c with parked := none })) ∧
          (∀ q, q / 4 = n → let y := s.queue q
            (fails → t.queue q = if parked y = [] then y else { y with
              en := false, parked := none, appending := none, ops := y.ops.filter fun o => !(r.write && on o.parked) }) ∧
            (¬fails → t.queue q = { y with
              parked := if !r.write && on y.parked then none else y.parked
              appending := if r.write && on y.appending then none else y.appending
              ops := y.ops.map fun o => if r.write && on o.parked then { o with parked := none } else o })) ∧
          (∀ q, q / 4 ≠ n → t.queue q = s.queue q) ∧
          t.evtTail = s.evtTail + (if i = .fresFail n seq then
            (([4 * n, 4 * n + 1, 4 * n + 2, 4 * n + 3]).map fun q => (parked (s.queue q)).length).sum else 0) ∧
          (∀ th, (∀ va own, (s.thread th).wait ≠ .pageFault r.page r.write va own) → t.thread th = s.thread th) ∧
          ∀ c ∈ s.copies, c.tenant = n → (!c.inward) = r.write → ∀ a, c.parked = some a → a / 4096 = r.page →
            ∃ c' ∈ t.copies, c'.id = c.id ∧ c'.parked = none ∧
              if i = .fresFail n seq then
                c'.failed = some ⟨c.pc, 0x005, BitVec.ofNat 64 a, BitVec.ofNat 64 r.cause⟩
              else c'.failed = c.failed)


/-! ### Links and the world outside -/

/-- R305, R334: when a CXL request times out or the link goes down, an outstanding load of host memory completes
poisoned with its address, a store to it is performed with no effect, and each tenant whose fault queue is on gets a
record of kind 4, which waits while its ring is full; a Flalen link that goes down does the same for its peer's
tenants. Each is logged as event 8. That the record has die 0, the link as its unit and the cause as its address is
the model's choice (log 92). -/
def Obligations.LinkLoss : Prop :=
  ∀ (s : State),
    (let told (t : State) : Prop := ∀ n, n < 16 → (s.tenant n).fqEn = true →
        (∃ r ∈ t.faultRecords, r.tenant = n ∧ r.kind = 4) ∨ (∃ p ∈ t.faultPosts, p.tenant = n ∧ p.kind = 4) ∨
          (t.tenant n).fqEn = false
    let logged (t : State) (unit aux : ℕ) : Prop := t.evtTail = s.evtTail + 1 ∧ t.events.getLast? = some ⟨8, 0, unit, aux⟩
    let lost (t : State) : Prop :=
      (∀ r x, r ∈ s.reqs → (∀ q ∈ s.reqs, q.id = r.id → q = r) → r.parts = [x] → x.loc.isHost = true → x.done = false →
        x.fill = false →
        (∀ n g, r.kind = .load n g → (∀ q ∈ t.reqs, q.id ≠ r.id) ∧ ∃ v : Result, v.poison = some r.va ∧
          ∀ o ∈ (t.thread r.th).outs, o.op = r.id → o.result = some v) ∧
        (r.kind = .store → ∃ q ∈ t.reqs, q.id = r.id ∧ q.parts.all (·.done) = true)) ∧
      (∀ th, (t.thread th).outs.map (·.op) = (s.thread th).outs.map (·.op)) ∧
      ∀ a, Tab.get t.hostMem a (Config.hostByte a) = Tab.get s.hostMem a (Config.hostByte a)
    let silent : Prop := s.copies = [] ∧ ∀ n, n < 16 → (s.tenant n).fqEn = false
    (∀ id, s.cxlWaits id = false → exec (.cxlRequestTimeout id) s = .next s) ∧
    (∀ id, s.cxlWaits id = true → ∃ t, exec (.cxlRequestTimeout id) s = .next t ∧ logged t 0 1 ∧ told t ∧
      (silent → lost t)) ∧
    (s.cxlDown = true → exec .cxlLinkDown s = .next s) ∧
    (s.cxlDown = false → ∃ t, exec .cxlLinkDown s = .next t ∧ t.cxlDown = true ∧ logged t 0 2 ∧ told t ∧
      (silent → lost t)) ∧
    ∀ l, l < 8 → (l ∈ s.linkDown → exec (.flalenLinkDown l) s = .next s) ∧
      (l ∉ s.linkDown → ∃ t, exec (.flalenLinkDown l) s = .next t ∧ (∀ k, k ∈ t.linkDown ↔ k ∈ s.linkDown ∨ k = l) ∧
        logged t l (0x10 + l) ∧ told t ∧ ∀ th, t.thread th = s.thread th))

/-- R291, R331, R332, R334: a host access to offset o of the range, or a peer's to an address of a die, reads or
writes the bytes of device memory there; in the carve-out it reads zeros and writes nothing, and is logged as event 1;
the host caches lines that it reads. A host snoop changes nothing. The model's choices: an access past the range is
the fault noSuchAddress (log 13); an access is whole, but that a write of more lines than a repair queue holds goes on
in pieces, and a line that the host reads may stay in its caches (log 93); what is read stands in a reply (log 94). -/
def Obligations.AccessesFromOutside : Prop :=
  ∀ (s : State) (a : ℕ) (bs : List Byte), s.MemOk → bs ≠ [] →
    let inside (o : ℕ) : Prop := o + bs.length ≤ 8 * (96 * 2 ^ 30)
    let reads (o : ℕ) (t : State) : Prop :=
      t.reply.length = bs.length ∧ (∀ j, j < bs.length →
        t.reply.getD j 0 = if s.hwOwned (.dev (o + j)) then 0 else s.byteAt (.dev (o + j))) ∧
      (t.replyPoison = true ↔ ∃ j, j < bs.length ∧ s.hwOwned (.dev (o + j)) = false ∧ s.isPoisoned (.dev (o + j)) = true) ∧
      (∀ m, t.byteAt m = s.byteAt m) ∧ ((∃ j, j < bs.length ∧ s.hwOwned (.dev (o + j)) = true) → s.evtTail < t.evtTail)
    let piece (o : ℕ) : ℕ := min bs.length (262144 - o % 64)
    let writes (host : Bool) (o : ℕ) (t : State) : Prop :=
      (t.outsideRest = if piece o = bs.length then s.outsideRest else some ⟨host, o + piece o, bs.drop (piece o)⟩) ∧
      (∀ j, j < piece o → s.hwOwned (.dev (o + j)) = false → s.dropsWrites (.dev (o + j)) = false →
        t.byteAt (.dev (o + j)) = bs.getD j 0) ∧
      (∀ m, (∀ j, j < piece o → m = .dev (o + j) → s.hwOwned m = true ∨ s.dropsWrites m = true) → t.byteAt m = s.byteAt m) ∧
      ((∃ j, j < piece o ∧ s.hwOwned (.dev (o + j)) = true) → s.evtTail < t.evtTail)
    let alive : Prop := s.recovery = false ∧ s.lifecycle ≠ 4
    (inside a → alive → s.cxlDown = false →
      (∃ t, exec (.hostMemRead a bs.length) s = .next t ∧ reads a t ∧
        ∀ k, k ∈ s.snoop ∨ (∃ j, j < bs.length ∧ k = (a + j) / 64 ∧ s.hwOwned (.dev (a + j)) = false) ↔ k ∈ t.snoop) ∧
      (s.outsideHeld a (piece a) = false → ∃ t, exec (.hostMemWrite a bs) s = .next t ∧ writes true a t) ∧
      (s.outsideHeld a (piece a) = true → exec (.hostMemWrite a bs) s = .next s)) ∧
    (¬inside a → exec (.hostMemRead a bs.length) s = .fault .noSuchAddress ∧
      exec (.hostMemWrite a bs) s = .fault .noSuchAddress) ∧
    (∀ die, die < 8 → a + bs.length ≤ 96 * 2 ^ 30 → alive →
      let o := die * (96 * 2 ^ 30) + a
      (∃ t, exec (.peerRequest die a false bs) s = .next t ∧ reads o t) ∧
      (s.outsideHeld o (piece o) = false → ∃ t, exec (.peerRequest die a true bs) s = .next t ∧ writes false o t)) ∧
    (s.outsideRest = none → ∀ host : Bool, inside a →
      (s.writesOpen host = true → writes host a (s.continueOutside ⟨host, a, bs⟩)) ∧
      (s.writesOpen host = false → s.continueOutside ⟨host, a, bs⟩ = s)) ∧
    exec (.hostSnoop a) s = .next s


/-! ### Cores, errors and the package -/

/-- R308, R313, R336, R343: CORECTL attaches, halts, steps, resets and gates a core. STEP takes the selected thread,
or sets DSTAT to 2 or 3; a reset loses the core's teams, entries and SRAM; PGATE empties the core of its teams; a
gated core keeps only what a change of owner keeps, and each change of PSTAT to 2 or 0 is logged; the debug window of
a halted core reads and writes the selected thread. The model's choices: a RESET of a gated core clears PGATE (log
99), the fields of events 7 and 11 (log 156), gating empties a halted core too (log 140), and a core that wakes tests
its storage and repairs it as a self-test does (log 141). -/
def Obligations.CoreControl : Prop :=
  ∀ (s : State) (c : ℕ), c < 768 → s.registersOpen = true →
    let k := s.core c
    let p := k.ctl.pstat
    let set (f : CoreCtl → CoreCtl) : State := s.setCore c { k with ctl := f k.ctl }
    let selected (quad place : ℕ) : Option (ℕ × ℕ) :=
      (s.quadGroups c quad).find? fun e => ((s.team e.1).group e.2).place == place
    let entries (e : Event) (t : State) : Prop := t.evtTail = s.evtTail + 1 ∧ t.events.getLast? = some e
    (∀ on, exec (.corectlAttach c on) s = .next (set fun x => { x with attach := on })) ∧
    (p ≠ 0 → ∀ on, exec (.corectlHalt c on) s = .next s) ∧
    (p = 0 → exec (.corectlHalt c true) s = .next (set fun x => { x with halt := true }) ∧
      (s.emptying c = false → exec (.corectlHalt c false) s = .next (set fun x => { x with halt := false, step := none }))) ∧
    (∀ quad place lane : ℕ, quad < 4 → place < 16 → lane < 64 →
      let at_ (x : CoreCtl) : CoreCtl := { x with quad := quad, place := place, lane := lane }
      let i : Instr := .corectlStep c quad place lane
      (k.ctl.halt = false ∨ p ≠ 0 → exec i s = .next (set at_)) ∧
      (k.ctl.halt = true → p = 0 →
        (selected quad place = none → exec i s = .next (set fun x => { at_ x with dstat := 3 })) ∧
        ∀ e, selected quad place = some e →
          let th : ThreadRef := ⟨e.1, e.2, lane⟩
          let st := (s.thread th).status
          (st = .blocked ∨ st = .exited → exec i s = .next (set fun x => { at_ x with dstat := 2 })) ∧
          (st ≠ .blocked → st ≠ .exited → exec i s = .next (set fun x => { at_ x with step := some th })))) ∧
    (∀ i ∈ [Instr.corectlReset c, Instr.coreLost c],
      (p = 2 → exec i s = .next (set fun x => { x with pgate := false, pstat := 3, resetDue := true })) ∧
      (p ≠ 2 → ∃ t, exec i s = .next t ∧ t.mem = s.mem ∧ (t.core c).dir = [] ∧ (t.core c).l1 = [] ∧ (t.core c).fetch = [] ∧
        (t.core c).spawns = [] ∧ (∀ f ∈ t.forwarding, f.core ≠ c) ∧
        ∀ x ∈ s.residents c, Tab.find t.teams x = none ∧ (t.grid (s.team x).grid).size = (s.grid (s.team x).grid).size ∧
          ((s.team x).index < (s.grid (s.team x).grid).size →
            t.locator (s.team x).grid (s.team x).index = some .gone))) ∧
    (p = 2 → exec (.corectlPgate c false) s = .next (set fun x => { x with pgate := false, pstat := 3 })) ∧
    (p = 0 → ∃ t, exec (.corectlPgate c true) s = .next t ∧ t.mem = s.mem ∧
      (t.core c).ctl = { k.ctl with pgate := true, pstat := 1 } ∧
      (∀ x ∈ s.residents c, (Tab.find s.teams x).isSome = true → (s.team x).saved = false → (t.team x).saving = true) ∧
      (s.residents c = [] → t = set fun x => { x with pgate := true, pstat := 1 })) ∧
    (p = 0 → exec (.corectlPgate c false) s = .next s) ∧ (p = 1 ∨ p = 3 → ∀ on, exec (.corectlPgate c on) s = .next s) ∧
    (s.gateReady c = false → exec (.coreGated c) s = .next s) ∧
    (s.gateReady c = true → ∃ t, exec (.coreGated c) s = .next t ∧ t.mem = s.mem ∧ t.teams = s.teams ∧
      entries ⟨11, c / 96, c, 0⟩ t ∧ t.core c = { k with
        l1 := [], fetch := [], lease := none, acquires := k.acquires + 1, gatedAt := some (s.clockOf c)
        dir := k.dir.filter fun e => decide (e.2.state = .moving ∨ e.2.state = .forward)
        ctl := { k.ctl with pstat := 2 } }) ∧
    (p ≠ 3 → exec (.coreWoken c) s = .next s) ∧
    (p = 3 → k.ctl.resetDue = false → (∀ g, k.gatedAt = some g → g ≤ s.clockOf c) →
      let used := Tab.get s.sparesUsed (c / 96) 0
      ∃ t, exec (.coreWoken c) s = .next t ∧ t.mem = s.mem ∧ t.teams = s.teams ∧
        (t.core c).ctl = { k.ctl with pstat := 0 } ∧ t.cyclesOf c = s.cyclesOf c ∧
        (Config.storageFails s.tick = false → entries ⟨11, c / 96, c, 0⟩ t ∧ (t.core c).disabled = k.disabled) ∧
        (Config.storageFails s.tick = true → t.evtTail = s.evtTail + 2 ∧
          if used < 4 then t.events.getLast? = some ⟨3, c / 96, c, 0⟩ ∧ Tab.get t.sparesUsed (c / 96) 0 = used + 1
          else t.events.getLast? = some ⟨7, c / 96, c, 0⟩ ∧ (t.core c).disabled = true)) ∧
    (∀ v : DWord, v.getLsbD 62 = k.ctl.halt → v.getLsbD 57 = k.ctl.pgate → v.getLsbD 61 = false → v.getLsbD 60 = false →
      exec (.registerWrite (0x4000 + 16 * c) v) s = .next (set fun x => { x with
        attach := v.getLsbD 63, quad := v.toNat / 2 ^ 20 % 4, place := v.toNat / 2 ^ 16 % 16, lane := v.toNat % 64 })) ∧
    (∀ (off : ℕ) (v : Word), k.ctl.halt = false →
      exec (.debugWindowWrite c off v) s = .next s ∧ s.readDebug c off = 0) ∧
    ∀ e, k.ctl.halt = true → selected k.ctl.quad k.ctl.place = some e →
      let th : ThreadRef := ⟨e.1, e.2, k.ctl.lane⟩
      (∀ (n : ℕ) (v : Word), n < (s.group th).budget → s.readDebug c (0x1000 + 4 * n) = Tab.get (s.thread th).regs n 0 ∧
        exec (.debugWindowWrite c (0x1000 + 4 * n) v) s =
          .next (s.modThread th fun x => { x with regs := Tab.put x.regs n v, poison := x.poison.filter (· != n) })) ∧
      s.readDebug c 0x7C ++ s.readDebug c 0x78 = (s.thread th).pc ∧
      (∀ v : Word, s.holds th = true → ∃ t, exec (.debugWindowWrite c 0x78 v) s = .next t ∧ OnlyThreads s t [th] ∧
        (t.thread th).pc = (s.thread th).pc.extractLsb' 32 32 ++ v ∧ (t.thread th).regs = (s.thread th).regs ∧
        (t.thread th).status = (s.thread th).status)

/-- R309 to R312: an error poisons a register, a scratchpad word, a tile or a line, drops an L1 line, or makes a
string's block stale, and a self-test of the place is to run; one of a core empties it first; it logs a pass as
transient, and repairs a failure: a spare core or row, a narrowed channel, a channel retired, or, beside a retired
one, offline. A failed succinct unit stays failed. The model's choices: a tile's error leaves PADDR 0 (log 100), a
site has one self-test due however many errors it has, and its core admits no solicit until then (log 102), a channel
has 3,072 spare rows (log 103), the fields of events 2 to 7 (log 156), and a failed succinct unit is not logged (log
104). -/
def Obligations.ErrorsAndRepairs : Prop :=
  ∀ (s : State),
    let entries (e : Event) (t : State) : Prop := t.evtTail = s.evtTail + 1 ∧ t.events.getLast? = some e
    let hit (e : ErrorSite) (facts : State → Prop) : Prop :=
      ∃ t, exec (.uncorrectableError e) s = .next t ∧ t.mem = s.mem ∧ e ∈ t.tests ∧ facts t
    let due (e : ErrorSite) (t : State) : State := { t with tests := if t.tests.contains e then t.tests else t.tests ++ [e] }
    let range := 8 * (96 * 2 ^ 30)
    (∀ (c : ℕ) (th : ThreadRef) (r : ℕ), c < 768 → s.standsOn th.team c = true → s.holds th = true →
      hit (.register c th r) fun t => r ∈ (t.thread th).poison ∧ (t.thread th).regs = (s.thread th).regs ∧
        (t.core c).admitHold = true) ∧
    (∀ c team w : ℕ, c < 768 → s.standsOn team c = true →
      hit (.scratch c team w) fun t => w ∈ (t.team team).scratchPoison ∧ (t.team team).scratch = (s.team team).scratch) ∧
    (∀ c n : ℕ, c < 768 → hit (.l1 c n) fun t => (t.core c).l1 = (s.core c).l1.eraseIdx n) ∧
    (∀ c team n : ℕ, c < 768 → s.standsOn team c = true →
      hit (.tile c team n) fun t => (t.team team).tile n = ((s.team team).tile n).poison 0) ∧
    (∀ l : ℕ, 64 * l < range →
      let st := placeStack (64 * l)
      let ch := s.servingChannel (64 * l)
      exec (.uncorrectableError (.row l)) s = .next (due (.row l) (s.poisonLine l)) ∧
      exec (.uncorrectableError (.cacheLine l true)) s = .next (due (.cacheLine l true) (s.poisonLine l)) ∧
      exec (.uncorrectableError (.cacheLine l false)) s = .next (due (.cacheLine l false) s) ∧
      exec (.correctedError (.row l)) s = .next (due (.row l) s) ∧
      exec (.selfTest (.row l) false) s = .next
        { s.logEvent 2 (placeDie (64 * l)) st (64 * l) with tests := s.tests.filter (· != .row l) } ∧
      ∃ t, exec (.selfTest (.row l) true) s = .next t ∧
        ((s.channel st ch).spared < 3072 → t.channel st ch = { s.channel st ch with spared := (s.channel st ch).spared + 1 } ∧
          entries ⟨3, st / 2, st, 64 * l⟩ t)) ∧
    (∀ (st n h b : ℕ) (x : Str), st < 16 → n < 16 →
      s.strings.find? (fun x => x.tenant == n && x.handle == h && x.stack == st) = some x → b < x.blocks →
      x.isStale b = false → (s.splicer st).repairs x.key b = false →
      hit (.directory st n h b) fun t => (t.splicer st).queue = (s.splicer st).queue ++ [(x.key, b)]) ∧
    (∀ st n h b : ℕ, st < 16 → n < 16 → ∃ t, exec (.selfTest (.directory st n h b) true) s = .next t ∧ t.mem = s.mem ∧
      entries ⟨3, st / 2, st, 0⟩ t ∧ Tab.get t.sliceSpares (384 + st) 0 = Tab.get s.sliceSpares (384 + st) 0 + 1) ∧
    (∀ c : ℕ, c < 768 →
      let site : ErrorSite := .core c
      let ready : Prop := site ∈ s.tests ∧ s.residents c = [] ∧ s.responding c = false
      let left := s.tests.filter (· != site)
      let hold : Bool := left.any fun x => siteCore x == some c
      (¬ready → ∃ t, exec (.selfTest site true) s = .next t ∧ t.mem = s.mem ∧ (t.core c).admitHold = true ∧
        site ∈ t.tests ∧ t.evtTail = s.evtTail) ∧
      (ready → exec (.selfTest site false) s =
        .next (({ s.logEvent 2 (c / 96) c 0 with tests := left } : State).setCore c { s.core c with admitHold := hold })) ∧
      (ready → ∃ t, exec (.selfTest site true) s = .next t ∧ t.tests = left ∧
        if Tab.get s.sparesUsed (c / 96) 0 < 4 then
          Tab.get t.sparesUsed (c / 96) 0 = Tab.get s.sparesUsed (c / 96) 0 + 1 ∧ entries ⟨3, c / 96, c, 0⟩ t ∧
            t.core c = { s.core c with admitHold := hold }
        else t.core c = { s.core c with admitHold := hold, disabled := true } ∧ entries ⟨7, c / 96, c, 0⟩ t) ∧
      ∃ t, exec (.correctedError site) s = .next t ∧ t.mem = s.mem ∧ (t.core c).admitHold = true ∧ site ∈ t.tests ∧
        ∀ th, t.thread th = s.thread th) ∧
    (∀ st ch : ℕ, st < 16 → ch < 32 →
      let x := s.channel st ch
      (∃ t, exec (.selfTest (.channelLane st ch) true) s = .next t ∧ t.channel st ch = { x with narrowed := true } ∧
        entries ⟨4, st / 2, st, ch⟩ t ∧ t.mem = s.mem) ∧
      (x.retired = false → x.offline = false → ∃ t, exec (.selfTest (.channelRows st ch) true) s = .next t ∧ t.mem = s.mem ∧
        let out : Channel := { x with state := 0, busy := false, woken := false, wanted := false, lastAccess := s.now }
        if ∃ k, k < 32 ∧ (s.channel st k).retired = true then
          t.channel st ch = { out with offline := true } ∧ entries ⟨6, st / 2, st, ch⟩ t
        else t.channel st ch = { out with retired := true } ∧ entries ⟨5, st / 2, st, ch⟩ t)) ∧
    ∀ st : ℕ, st < 16 → exec (.succinctUnitFailure st) s = .next (s.setSplicer st { s.splicer st with failed := true })


/-- R314, R337, R338: a cold reset checks the stored firmware image, and without a sound one leaves the part in
recovery mode; it leaves nothing resident, nothing registered, every management register at its reset value and every
row zero; the disabled cores, the channels' repair maps, the event log and the life-cycle state stay. LCREQ is refused
with 2, 3 or 4 as Tables 25.5 and 25.7 say, consuming the authorisation that is held, or is accepted: RESULT is 1,
LEFT counts down but for RETIRED, and no record is dispatched until the cold reset that follows, which wipes the
package, takes the new state and logs event 10. The model's choices: the image of manufacture stands for no image
written (log 105); of several codes 2 goes before 3 and 3 before 4, every cold reset and every authorisation used up
draws a new nonce, and a request that only clears the repair maps takes one of the changes left (log 108); a second
LCREQ while a change is due is ignored (log 139); event 10 has the new state as its address (log 156); SHA-512 and
Ed25519 are those of their standards (log 143). -/
def Obligations.ColdResetAndLifeCycle : Prop :=
  ∀ (s : State),
    let wiped (t : State) : Prop :=
      (∀ a, Memory.read t.mem a = 0) ∧ t.poison = [] ∧ t.teams = [] ∧ t.grids = [] ∧ t.reqs = [] ∧ t.copies = [] ∧ t.merges = [] ∧
      t.strings = [] ∧ t.commands = [] ∧ t.solicits = [] ∧ t.queues = [] ∧ t.tenants = [] ∧ t.clusters = [] ∧
      t.faultRecords = [] ∧ t.saveAreas = [] ∧ t.dirRegions = [] ∧ t.forwarding = [] ∧ t.ply = none ∧ t.authorisation = none ∧
      t.tests = [] ∧ t.port = [] ∧ t.reef = 0 ∧ t.cxlDown = false ∧ t.lcDue = none ∧ t.lcResult = 0 ∧ (∀ d, t.hwBase d ≤ 0xBDFF) ∧ t.nonceDraws = s.nonceDraws + 1 ∧
      ∀ c, (t.core c).cycles = 0 ∧ (t.core c).l1 = [] ∧ (t.core c).dir = [] ∧ (t.core c).ctl = {}
    let kept (t : State) : Prop :=
      (∀ c, (s.core c).disabled = true → (t.core c).disabled = true) ∧ t.sparesUsed = s.sparesUsed ∧
      t.sliceSpares = s.sliceSpares ∧ ∀ st ch, let x := s.channel st ch
        t.channel st ch = { narrowed := x.narrowed, retired := x.retired, offline := x.offline, spared := x.spared }
    let image := if s.firmware = [] then Config.factoryImage else s.firmware
    let sound : Prop := imageHeader image = true ∧ Digest.verifies Config.publicKey ((image.drop 64).take 64)
      (Digest.sha512 (image.take 64 ++ List.replicate 64 0 ++ image.drop 128)) = true
    (s.lcDue = none → ∃ t, exec .coldReset s = .next t ∧ wiped t ∧ kept t ∧ t.lifecycle = s.lifecycle ∧
      t.lcLeft = s.lcLeft ∧ t.firmware = s.firmware ∧ t.events = s.events ∧ t.evtTail = s.evtTail ∧
      (t.recovery = false ↔ sound)) ∧
    (∀ target clear, s.lcDue = some (target, clear) → (∀ q, q < 64 → exec (.recordDispatch q) s = .next s) ∧
      ∃ t, exec .coldReset s = .next t ∧ wiped t ∧ t.lifecycle = target ∧ t.lcLeft = s.lcLeft ∧
        t.firmware = s.firmware ∧ t.evtTail = s.evtTail + 1 ∧ t.events.getLast? = some ⟨10, 0, 0, target⟩ ∧
        (t.recovery = false ↔ sound) ∧ (¬(clear = true ∧ target = 1) → kept t) ∧
        (clear = true → target = 1 →
          t.sparesUsed = [] ∧ (∀ c, (t.core c).disabled = false) ∧ ∀ st ch, t.channel st ch = {})) ∧
    ∀ v : DWord, s.registersOpen = true →
      let target := v.toNat % 8
      let clear := v.getLsbD 3
      let held := s.authorisation
      let i : Instr := .lcreqWrite v
      let allowed : Prop := (s.lifecycle = 1 ∧ target = 2) ∨ (s.lifecycle = 2 ∧ target = 3) ∨ (s.lifecycle = 3 ∧ target = 2) ∨
        target = 4 ∨ (s.lifecycle = 1 ∧ target = 1 ∧ clear = true)
      let returns : Prop := (s.lifecycle = 2 ∧ target = 3) ∨ (s.lifecycle = 3 ∧ target = 2)
      let after (code : ℕ) : State := { s with
        authorisation := none, nonceDraws := s.nonceDraws + (if held.isSome then 1 else 0), lcResult := code }
      let refused (code : ℕ) : Prop := exec i s = .next (after code)
      (v.getLsbD 63 = false ∨ s.lcDue ≠ none → exec i s = .next s) ∧
      (v.getLsbD 63 = true → s.lcDue = none → (¬allowed → refused 2) ∧ (allowed → returns → held ≠ some target → refused 3) ∧
        (allowed → (returns → held = some target) → s.lcLeft = 0 → target ≠ 4 → refused 4) ∧
        (allowed → (returns → held = some target) → (s.lcLeft ≠ 0 ∨ target = 4) → exec i s = .next { after 1 with
          lcDue := some (target, clear), lcLeft := if target = 4 then s.lcLeft else s.lcLeft - 1 }))

/-- R146, R241, R290, R335, R339, R340: the mailbox takes a command while it runs none, checks the length of BEGIN,
the order of CHUNK and the object of COMMIT, and answers with the RESULT of Table 25.8; its registers and window,
TSLICE, INVADDR and the stacks' ages take the bits of a register write; these, the mailbox's answer, the answer of
LCREQ, the life-cycle state and the serial number read as they stand, the last two alone once the part is RETIRED
(R338); EVTTAIL's overflow bit clears on a zero; each reefing step is logged as event 9 and changes nothing else. The
model's choices: the fields of event 9 (log 156); BAD_KIND goes before BAD_SIGNATURE, and a COMMIT with BAD_ORDER
keeps the object (log 109); SHA-512 and Ed25519 are those of their standards (log 143); a BEGIN with BAD_LENGTH
discards an open object (log 149); a CHUNK whose MBCNT lies outside its limits is answered BAD_ORDER (log 166). -/
def Obligations.MailboxAndRegisters : Prop :=
  ∀ (s : State),
    let m := s.mailbox
    let answers (f : Mailbox) : Prop := exec .mailboxCommandComplete s = .next { s with mailbox := { f with busy := false } }
    let drops (code : ℕ) : Mailbox := { m with result := code, isOpen := false, object := [], next := 0 }
    let opened : Prop := s.lifecycle ≠ 4 ∧ s.cxlDown = false
    let bytes (lo n : ℕ) : ℕ := leValue ((m.object.drop lo).take n)
    let zero (lo n : ℕ) : Prop := ∀ b ∈ (m.object.drop lo).take n, b = 0
    (∀ x ∈ [(Instr.mailboxBegin, 1), (Instr.mailboxChunk, 2), (Instr.mailboxCommit, 3), (Instr.mailboxAbort, 4)],
      (opened → m.busy = false → exec x.1 s = .next { s with mailbox := { m with cmd := x.2, busy := true } }) ∧
      (m.busy = true ∨ ¬opened → exec x.1 s = .next s)) ∧
    (m.busy = false → exec .mailboxCommandComplete s = .next s) ∧
    (m.busy = true →
      (m.cmd = 1 →
        let good : Prop := m.len % 64 = 0 ∧ 128 ≤ m.len ∧ m.len ≤ 64 * 2 ^ 20
        (good → answers { m with result := 1, isOpen := true, openKind := m.kind, openLen := m.len, next := 0, object := [] }) ∧
        (¬good → answers (drops 4))) ∧
      (m.cmd = 2 →
        let good : Prop := m.isOpen = true ∧ m.off = m.next ∧ m.off + m.cnt ≤ m.openLen ∧ m.cnt % 64 = 0 ∧ 64 ≤ m.cnt ∧
          m.cnt ≤ 524288
        (good → answers { m with
          next := m.next + m.cnt, object := m.object ++ (List.range m.cnt).map fun j => Tab.get m.window j 0 }) ∧
        (¬good → answers (drops 5))) ∧
      (m.cmd = 3 →
        let whole : Prop := m.isOpen = true ∧ m.next = m.openLen
        let signed (body : List Byte) : Prop :=
          Digest.verifies Config.publicKey ((m.object.drop 64).take 64) (Digest.sha512 body) = true
        let imageBody := m.object.take 64 ++ List.replicate 64 0 ++ m.object.drop 128
        let image : Prop := bytes 0 4 = 0x47385746 ∧ bytes 8 8 = m.object.length ∧ zero 16 48
        let paper : Prop := m.object.length = 128 ∧ bytes 0 8 = Config.serial.toNat ∧ zero 9 7 ∧
          bytes 16 4 = s.nonce.toNat ∧ zero 20 44
        (¬whole → answers { m with result := 5 }) ∧
        (whole → m.openKind = false → (¬image → answers (drops 6)) ∧ (image → ¬signed imageBody → answers (drops 3)) ∧
          (image → signed imageBody → exec .mailboxCommandComplete s =
            .next { s with mailbox := { drops 2 with busy := false }, firmware := m.object })) ∧
        (whole → m.openKind = true → (¬paper → answers (drops 6)) ∧ (paper → ¬signed (m.object.take 64) → answers (drops 3)) ∧
          (paper → signed (m.object.take 64) → exec .mailboxCommandComplete s =
            .next { s with mailbox := { drops 2 with busy := false }, authorisation := some (bytes 8 1) }))) ∧
      (m.cmd = 4 → answers (drops 0))) ∧
    (∀ v : DWord, s.registersOpen = true →
      let writes (off : ℕ) (t : State) : Prop := exec (.registerWrite off v) s = .next t
      let low (n : ℕ) : ℕ := v.toNat % 2 ^ n
      (∀ n, n < 16 → writes (0x1400 + 4 * n) (s.setTenant n { s.tenant n with slice := low 20 }) ∧
        writes (0x2008 + 32 * n) (s.setTenant n { s.tenant n with invaddr := v.toNat / 2 ^ 12 % 2 ^ 45 }) ∧
        writes (0x100040 + 0x1000 * n) { s with stkage := Tab.put s.stkage n (low 6) }) ∧
      writes 0x9008 { s with mailbox := { m with len := low 32 } } ∧ writes 0x9010 { s with mailbox := { m with off := low 32 } } ∧
      writes 0x9018 { s with mailbox := { m with cnt := low 20 } } ∧
      writes 0x9028 { s with mailbox := { m with kind := v.getLsbD 0 } } ∧
      (∀ k, k + 8 ≤ 0x80000 → ∃ t, writes (0x80000 + k) t ∧ t = { s with mailbox := { m with window := t.mailbox.window } } ∧
        ∀ j, Tab.get t.mailbox.window j 0 =
          if k ≤ j ∧ j < k + 8 then byteOf v.toNat (j - k) else Tab.get m.window j 0) ∧
      exec (.evttailWrite v) s = .next (if v.getLsbD 63 then s else { s with evtFull := false })) ∧
    (s.registersOpen = true →
      s.readBar0 0x9020 = some (BitVec.ofNat 64 (m.result + if m.busy then 2 ^ 63 else 0)) ∧
      s.readBar0 0x9108 = some (BitVec.ofNat 64 (2 ^ 56 * s.lcResult)) ∧
      ∀ n, n < 16 → s.readBar0 (0x1400 + 4 * n) = some (BitVec.ofNat 64 (s.tenant n).slice) ∧
        s.readBar0 (0x100040 + 0x1000 * n) = some (BitVec.ofNat 64 (Tab.get s.stkage n 7))) ∧
    (s.cxlDown = false → s.recovery = false ∨ s.lifecycle = 4 → s.readBar0 0x9110 = some Config.serial ∧
      s.readBar0 0x9100 = some (BitVec.ofNat 64 (s.lifecycle + 2 ^ 8 * s.nonce.toNat + 2 ^ 40 * s.lcLeft.toNat)) ∧
      ∀ off, s.lifecycle = 4 → off ≠ 0x9100 → off ≠ 0x9110 → s.readBar0 off = none) ∧
    let logged (r : ℕ) (t : State) : Prop := t.reef = r ∧ t.evtTail = s.evtTail + 1 ∧ t.events.getLast? = some ⟨9, 0, 0, 0⟩ ∧
      t = { s with reef := t.reef, events := t.events, evtTail := t.evtTail, evtFull := t.evtFull }
    (s.reef < 12 → ∃ t, exec .reefStepDown s = .next t ∧ logged (s.reef + 1) t) ∧
    (12 ≤ s.reef → exec .reefStepDown s = .next s) ∧
    (0 < s.reef → ∃ t, exec .reefStepUp s = .next t ∧ logged (s.reef - 1) t) ∧
    (s.reef = 0 → exec .reefStepUp s = .next s)


/-! ### The step, the encoding and the whole machine -/

/-- A step that issues runs the instruction that the ply's word decodes to: when the act taken is the issue of a
quadrant, and the ply it forms has a word that decodes to i, the step is exec of i on the state with the ply in issue;
a STEP of the ply's core that it was for is over (R308), fault records that waited for their slots are written (R299),
groups that have gone idle leave the active sets (R239), and time passes, which changes no thread, no byte of memory
and no program counter. So it is from reset, with a word placed next to issue (log 6), whatever the word. -/
def Obligations.StepRunsDecoded : Prop :=
  (∀ (s u : State) (c q : ℕ) (p : Ply) (i : Instr),
    pickAct s.tick (s.acts exec) = some ⟨.issue c, execIssuePly c q⟩ →
    exec (.issuePly c q) s = .next u → u.ply = some p → decode p.word = .ok i →
    step s = match exec i u with
      | .next t => .next ((t.settleStep p).pass (some (.issue c)))
      | .fault f => .fault f
      | .refused r => .refused r) ∧
  (∀ (t : State) (k : Option ActKind), t.pass k = t.postHeld.turnActive.elapse k ∧ (t.elapse k).mem = t.mem ∧
    t.turnActive.mem = t.mem ∧ (∀ th, { t.turnActive.thread th with readyAt := 0 } = { t.thread th with readyAt := 0 }) ∧
    (t.elapse k).teams = t.teams ∧ (t.elapse k).reqs = t.reqs ∧ (t.elapse k).tick = t.tick + 1 ∧
    t.now ≤ (t.elapse k).now ∧ ((∀ p ∈ t.faultPosts, t.slotWaits p.tenant = true) → t.postHeld = t) ∧
    ∀ p : Ply, (∀ th, (t.core p.core).ctl.step = some th → th ∉ p.members) → t.settleStep p = t) ∧
  ∀ (w : Word) (i : Instr), decode w = .ok i →
    let p : Ply := ⟨0, 0, 0, [⟨0, 0, 0⟩], 0, w⟩
    let u : State := { State.reset.withFetchWord 32 w.toNat with ply := some p }
    step (State.reset.withFetchWord 32 w.toNat) = match exec i u with
      | .next t => .next ((t.settleStep p).pass (some (.issue 0)))
      | .fault f => .fault f
      | .refused r => .refused r

/-- Words written out from the encoding tables of the families, with the instructions they stand for, and words of
reserved selectors and set must-be-zero bits, which decode to none (R33). -/
def Obligations.DecodedWords : Prop :=
  decode 0x800C1900 = .ok (.iadd true 6 6 32 .w32) ∧ decode 0x15421C08 = .ok (.isetImm false .lt false 1 7 8) ∧
  decode 0x402FFFFB = .ok (.bra false 1 false 0xFFFFB) ∧ decode 0x1B080012 = .ok (.lea false 4 0 2 2) ∧
  decode 0x2010102D = .ok (.fadd false 8 4 5 true .rtz) ∧ decode 0x3106_0A41 = .ok (.f2i false 3 2 .f32 .i32 .rtz) ∧
  decode 0x3816_0C4B = .ok (.shflXor false 11 3 9) ∧ decode 0x4806_13FB = .ok (.ld false 3 4 0x7F .i16) ∧
  decode 0x4E4D_1042 = .ok (.atomAdd false .acq 6 .i64 4 8 2) ∧ decode 0x5312_0403 = .ok (.fenceAcq false 9 3) ∧
  decode 0x57B0_1030 = .ok (.waitv false .ge true 4 6 .w32) ∧ decode 0x5B02_1040 = .ok (.cpymc false 1 4 8) ∧
  decode 0x6402_0100 = .ok (.tmma false 0 2 0 1 0) ∧ decode 0x6712_1032 = .ok (.tmergeF64Ord false 1 1 4 6) ∧
  decode 0xEC08_2011 = .ok (.rank1 true 4 8 2) ∧ decode 0x7680_1033 = .ok (.redNmAdd false true .w32 4 6 3) ∧
  decode 0x7802_4103 = .ok (.solicit false 1 16 .c2 .addI64 3) ∧ decode 0x7C0C_1040 = .ok (.launch false 6 4 8) ∧
  decode 0x7E00_03FF = .ok (.trap false 1023) ∧ decode 0x7F00_0000 = .ok (.tretRe false) ∧
  ∀ w ∈ [0x7F00_0003, 0x7F00_0008, 0x7E02_0005], ∃ e, decode w = .error e

/-- R314 and the reset columns of the register tables: after reset every byte of device memory reads zero, every CYCLES
is zero, nothing is resident, no string is registered, no queue is enabled and no fault record or save area exists, the
management registers hold their reset values; and the invariants of the machine's state hold. -/
def Obligations.AfterReset : Prop :=
  let s := State.reset
  s.MemOk ∧ s.Orderly ∧ (∀ a, Memory.read s.mem a = 0) ∧ (∀ c, s.cyclesOf c = 0) ∧ s.teams = [] ∧ s.grids = [] ∧
    s.strings = [] ∧ (∀ q, (s.queue q).en = false) ∧ s.faultRecords = [] ∧ s.saveAreas = [] ∧ s.poison = [] ∧
    (∀ d, s.hwBase d = 0xB800) ∧ (∀ k, (s.cluster k).owned = false ∧ (s.cluster k).busy = false) ∧
    (∀ n, (s.tenant n).en = false ∧ (s.tenant n).root = 0 ∧ (s.tenant n).fqEn = false ∧ (s.tenant n).tintrCount = 0) ∧
    (∀ c, (s.core c).ctl = {} ∧ (s.core c).l1 = [] ∧ (s.core c).dir = []) ∧ (∀ st ch, (s.channel st ch).state = 0) ∧
    ∀ st, s.age st = 7

/-- R29 to R38: decode and encode agree. A well-formed instruction's word decodes to it, with every operand at every
value that its field admits; and a word that decodes is the encoding of what it decodes to, so no bit of it is
dropped. Every instruction has a word: only the events of the table have none. -/
def Obligations.DecodeAndEncodeAgree : Prop :=
  (∀ i : Instr, i.wellFormed = true → i.isEvent = false → ∃ w, i.encode = some w) ∧
  (∀ i : Instr, i.isEvent = true → i.encode = none) ∧
  (∀ (i : Instr) (w : Word), i.wellFormed = true → i.encode = some w → decode w = .ok i) ∧
  ∀ (w : Word) (i : Instr), decode w = .ok i → i.encode = some w

/-- Every step keeps the memory in its one canonical form: addresses strictly rising, and no entry that holds what an
unlisted address reads as. -/
def Obligations.StepsKeepMemoryCanonical : Prop :=
  ∀ s t : State, s.MemOk → step s = .next t → t.MemOk

/-- Every step keeps the tables of teams, groups and threads in ascending order of their keys, each key once: no thread
of a team is ever listed twice. -/
def Obligations.StepsKeepThreadsOrdered : Prop :=
  ∀ s t : State, s.Orderly → step s = .next t → t.Orderly

/-- No step is refused, and only a request of the host can end in a fault: with none waiting, the machine goes on. -/
def Obligations.TheMachineGoesOn : Prop :=
  ∀ s : State, (∀ r, step s ≠ .refused r) ∧ (s.inputs = [] → Safe s)
end

