-- ==== Sys2Proof/Laws/Encoding.lean ====
section
/-! SUPPORT. Fields of a concatenation of bit strings, the codes of the operand qualifiers, and how `decode` finds
a word's row: what the lemmas about encoding rest on. -/
namespace Sys2Proof.Laws
open Sys2Proof

theorem ext_hi {k m : Nat} (x : BitVec k) (y : BitVec m) (lo n : Nat) (h : Nat.ble m lo = true) :
    (x ++ y).extractLsb' lo n = x.extractLsb' (lo - m) n := by
  have h := Nat.le_of_ble_eq_true h
  ext i hi
  simp only [BitVec.getElem_extractLsb', BitVec.getLsbD_append]
  rw [if_neg (by omega)]
  congr 1; omega

theorem ext_lo {k m : Nat} (x : BitVec k) (y : BitVec m) (lo n : Nat) (h : Nat.ble (lo + n) m = true) :
    (x ++ y).extractLsb' lo n = y.extractLsb' lo n := by
  have h := Nat.le_of_ble_eq_true h
  ext i hi
  simp only [BitVec.getElem_extractLsb', BitVec.getLsbD_append]
  rw [if_pos (by omega)]

theorem ext_all {n : Nat} (x : BitVec n) : x.extractLsb' 0 n = x := by
  ext i hi; simp

theorem bit_hi {k m : Nat} (x : BitVec k) (y : BitVec m) (lo : Nat) (h : Nat.ble m lo = true) :
    (x ++ y).getLsbD lo = x.getLsbD (lo - m) := by
  have h := Nat.le_of_ble_eq_true h
  simp only [BitVec.getLsbD_append]
  rw [if_neg (by omega)]

theorem bit_lo {k m : Nat} (x : BitVec k) (y : BitVec m) (lo : Nat) (h : Nat.blt lo m = true) :
    (x ++ y).getLsbD lo = y.getLsbD lo := by
  simp only [BitVec.getLsbD_append]
  rw [if_pos (by simpa [Nat.blt_eq] using h)]

theorem bit_one (b : Bool) : (BitVec.ofBool b).getLsbD 0 = b := by cases b <;> rfl

/-- A field differs from a value when one of its bits does. -/
theorem field_ne {lo n k : Nat} {w : Word} {v : BitVec n} {b : Bool} (hb : w.getLsbD (lo + k) = b)
    (hk : Nat.blt k n = true) (hv : v.getLsbD k ≠ b) : w.extractLsb' lo n ≠ v := by
  intro e
  apply hv
  rw [← e, ← hb, BitVec.getLsbD_extractLsb']
  simp [Nat.blt_eq.mp hk]

/-- Decoding looks only at the rows of the word's major. -/
theorem decode_row {w : Word} {m : BitVec 7} {r : Word → Option Instr} {rs : List (Word → Option Instr)} {i : Instr}
    (hm : w.extractLsb' 24 7 = m) (hr : rowsOfMajor m.toNat = r :: rs) (hf : firstRow w (r :: rs) = some i) :
    decode w = .ok i := by
  simp only [decode, hm, hr, hf]

theorem firstRow_skip {w : Word} {r : Word → Option Instr} {rs : List (Word → Option Instr)} {i : Instr}
    (h : r w = none) (hs : firstRow w rs = some i) : firstRow w (r :: rs) = some i := by
  simp only [firstRow, h, hs]

theorem firstRow_hit {w : Word} {r : Word → Option Instr} {rs : List (Word → Option Instr)} {i : Instr}
    (h : r w = some i) : firstRow w (r :: rs) = some i := by
  simp only [firstRow, h]

theorem Width_ofCode_code (x : Width) : Width.ofCode x.code = x := by cases x <;> rfl
theorem Sgn_ofCode_code (x : Sgn) : Sgn.ofCode x.code = x := by cases x <;> rfl
theorem Rm_ofCode_code (x : Rm) : Rm.ofCode x.code = x := by cases x <;> rfl
theorem Fmt_ofCode_code (x : Fmt) : Fmt.ofCode x.code = x := by cases x <;> rfl
theorem IntTy_ofCode_code (x : IntTy) : IntTy.ofCode x.code = x := by cases x <;> rfl
theorem AtomTy_ofCode_code (x : AtomTy) : AtomTy.ofCode x.code = x := by cases x <;> rfl
theorem Ord_ofCode_code (x : Ord) : Ord.ofCode x.code = x := by cases x <;> rfl
theorem BobState_ofCode_code (x : BobState) : BobState.ofCode x.code = x := by cases x <;> rfl
theorem FCond_ofCode_code (x : FCond) : FCond.ofCode x.code = x := by cases x <;> rfl
theorem ICond_ofCode_code (x : ICond) : ICond.ofCode? x.code = some x := by cases x <;> rfl
theorem Combine_ofCode_code (x : Combine) : Combine.ofCode? x.code = some x := by cases x <;> rfl
theorem ArgCount_ofCode_code (x : ArgCount) : ArgCount.ofCode? x.code = some x := by cases x <;> rfl
theorem AccSize_ofCode_code (x : AccSize) : AccSize.ofCode? x.code = some x := by cases x <;> rfl
theorem LdQ_ofCode_code (x : LdQ) : LdQ.ofCode? x.code = some x := by cases x <;> rfl
theorem StQ_ofCode_code (x : StQ) : StQ.ofCode? x.code = some x := by cases x <;> rfl

end Sys2Proof.Laws
end

