-- ==== Sys2Proof/Laws/Tab.lean ====
section
/-! SUPPORT. Finite maps: what a lookup finds after an entry is put, adjusted or dropped. -/
namespace Sys2Proof.Machine
open Sys2Proof

theorem Tab.find_put {α : Type} (t : Tab α) (n m : Nat) (a : α) :
    Tab.find (Tab.put t n a) m = if m = n then some a else Tab.find t m := by
  induction t with
  | nil => simp [Tab.put, Tab.find, eq_comm]
  | cons e rest ih =>
    obtain ⟨k, b⟩ := e
    simp only [Tab.put]
    split
    · simp [Tab.find, eq_comm]
    · split
      · next hk =>
        simp only [Tab.find]
        by_cases h : n = m
        · simp [h]
        · rw [if_neg h, if_neg (Ne.symm h), if_neg (hk ▸ h)]
      · simp only [Tab.find, ih]
        by_cases h : k = m
        · subst h; simp; omega
        · simp [h]

@[simp] theorem Tab.find_put_same {α : Type} (t : Tab α) (n : Nat) (a : α) : Tab.find (Tab.put t n a) n = some a := by
  simp [Tab.find_put]

theorem Tab.find_put_ne {α : Type} (t : Tab α) {n m : Nat} (a : α) (h : m ≠ n) :
    Tab.find (Tab.put t n a) m = Tab.find t m := by
  simp [Tab.find_put, h]

@[simp] theorem Tab.get_put_same {α : Type} (t : Tab α) (n : Nat) (a d : α) : Tab.get (Tab.put t n a) n d = a := by
  simp [Tab.get]

theorem Tab.get_put_ne {α : Type} (t : Tab α) {n m : Nat} (a d : α) (h : m ≠ n) :
    Tab.get (Tab.put t n a) m d = Tab.get t m d := by
  simp [Tab.get, Tab.find_put_ne _ _ h]

theorem Tab.find_adjust {α : Type} (t : Tab α) (n m : Nat) (f : α → α) :
    Tab.find (Tab.adjust t n f) m = if m = n then (Tab.find t n).map f else Tab.find t m := by
  unfold Tab.adjust
  split
  · next a h => simp only [Tab.find_put, h, Option.map_some]
  · next h =>
    by_cases hm : m = n
    · subst hm; simp [h]
    · simp [hm]

theorem Tab.get_adjust_same {α : Type} {t : Tab α} {n : Nat} (f : α → α) (d : α) (h : (Tab.find t n).isSome) :
    Tab.get (Tab.adjust t n f) n d = f (Tab.get t n d) := by
  obtain ⟨a, ha⟩ := Option.isSome_iff_exists.mp h
  simp [Tab.get, Tab.find_adjust, ha]

theorem Tab.get_adjust_ne {α : Type} (t : Tab α) {n m : Nat} (f : α → α) (d : α) (h : m ≠ n) :
    Tab.get (Tab.adjust t n f) m d = Tab.get t m d := by
  simp [Tab.get, Tab.find_adjust, h]

/-- An adjusted map holds the same keys. -/
theorem Tab.find_adjust_isSome {α : Type} (t : Tab α) (n m : Nat) (f : α → α) :
    (Tab.find (Tab.adjust t n f) m).isSome = (Tab.find t m).isSome := by
  rw [Tab.find_adjust]
  by_cases h : m = n
  · subst h; simp
  · simp [h]

theorem Tab.adjust_absent {α : Type} {t : Tab α} {n : Nat} (f : α → α) (h : Tab.find t n = none) :
    Tab.adjust t n f = t := by
  simp [Tab.adjust, h]

end Sys2Proof.Machine
end

