-- ==== Sys2Proof/Laws/State.lean ====
section
/-! SUPPORT. One lemma per field per update of the state: an update leaves every field but its own as it was. And what
a unit reads as after it is set. -/
namespace Sys2Proof.Machine
open Sys2Proof

@[simp] theorem State.mem_modTeam (s : State) (t : Nat) (f : Team → Team) : (s.modTeam t f).mem = s.mem := rfl
@[simp] theorem State.hostMem_modTeam (s : State) (t : Nat) (f : Team → Team) : (s.modTeam t f).hostMem = s.hostMem := rfl
@[simp] theorem State.peerMem_modTeam (s : State) (t : Nat) (f : Team → Team) : (s.modTeam t f).peerMem = s.peerMem := rfl
@[simp] theorem State.poison_modTeam (s : State) (t : Nat) (f : Team → Team) : (s.modTeam t f).poison = s.poison := rfl
@[simp] theorem State.ply_modTeam (s : State) (t : Nat) (f : Team → Team) : (s.modTeam t f).ply = s.ply := rfl
@[simp] theorem State.tick_modTeam (s : State) (t : Nat) (f : Team → Team) : (s.modTeam t f).tick = s.tick := rfl
@[simp] theorem State.free_modTeam (s : State) (t : Nat) (f : Team → Team) : (s.modTeam t f).free = s.free := rfl
@[simp] theorem State.nextId_modTeam (s : State) (t : Nat) (f : Team → Team) : (s.modTeam t f).nextId = s.nextId := rfl
@[simp] theorem State.inputs_modTeam (s : State) (t : Nat) (f : Team → Team) : (s.modTeam t f).inputs = s.inputs := rfl
@[simp] theorem State.grids_modTeam (s : State) (t : Nat) (f : Team → Team) : (s.modTeam t f).grids = s.grids := rfl
@[simp] theorem State.cores_modTeam (s : State) (t : Nat) (f : Team → Team) : (s.modTeam t f).cores = s.cores := rfl
@[simp] theorem State.clusters_modTeam (s : State) (t : Nat) (f : Team → Team) : (s.modTeam t f).clusters = s.clusters := rfl
@[simp] theorem State.tenants_modTeam (s : State) (t : Nat) (f : Team → Team) : (s.modTeam t f).tenants = s.tenants := rfl
@[simp] theorem State.queues_modTeam (s : State) (t : Nat) (f : Team → Team) : (s.modTeam t f).queues = s.queues := rfl
@[simp] theorem State.reqs_modTeam (s : State) (t : Nat) (f : Team → Team) : (s.modTeam t f).reqs = s.reqs := rfl
@[simp] theorem State.copies_modTeam (s : State) (t : Nat) (f : Team → Team) : (s.modTeam t f).copies = s.copies := rfl
@[simp] theorem State.merges_modTeam (s : State) (t : Nat) (f : Team → Team) : (s.modTeam t f).merges = s.merges := rfl
@[simp] theorem State.commands_modTeam (s : State) (t : Nat) (f : Team → Team) : (s.modTeam t f).commands = s.commands := rfl
@[simp] theorem State.strings_modTeam (s : State) (t : Nat) (f : Team → Team) : (s.modTeam t f).strings = s.strings := rfl
@[simp] theorem State.channels_modTeam (s : State) (t : Nat) (f : Team → Team) : (s.modTeam t f).channels = s.channels := rfl
@[simp] theorem State.solicits_modTeam (s : State) (t : Nat) (f : Team → Team) : (s.modTeam t f).solicits = s.solicits := rfl
@[simp] theorem State.faultRecords_modTeam (s : State) (t : Nat) (f : Team → Team) : (s.modTeam t f).faultRecords = s.faultRecords := rfl
@[simp] theorem State.faultPosts_modTeam (s : State) (t : Nat) (f : Team → Team) : (s.modTeam t f).faultPosts = s.faultPosts := rfl
@[simp] theorem State.port_modTeam (s : State) (t : Nat) (f : Team → Team) : (s.modTeam t f).port = s.port := rfl
@[simp] theorem State.born_modTeam (s : State) (t : Nat) (f : Team → Team) : (s.modTeam t f).born = s.born := rfl
@[simp] theorem State.tests_modTeam (s : State) (t : Nat) (f : Team → Team) : (s.modTeam t f).tests = s.tests := rfl

@[simp] theorem State.mem_modGroup (s : State) (t g : Nat) (f : Group → Group) : (s.modGroup t g f).mem = s.mem := rfl
@[simp] theorem State.hostMem_modGroup (s : State) (t g : Nat) (f : Group → Group) : (s.modGroup t g f).hostMem = s.hostMem := rfl
@[simp] theorem State.peerMem_modGroup (s : State) (t g : Nat) (f : Group → Group) : (s.modGroup t g f).peerMem = s.peerMem := rfl
@[simp] theorem State.poison_modGroup (s : State) (t g : Nat) (f : Group → Group) : (s.modGroup t g f).poison = s.poison := rfl
@[simp] theorem State.ply_modGroup (s : State) (t g : Nat) (f : Group → Group) : (s.modGroup t g f).ply = s.ply := rfl
@[simp] theorem State.tick_modGroup (s : State) (t g : Nat) (f : Group → Group) : (s.modGroup t g f).tick = s.tick := rfl
@[simp] theorem State.free_modGroup (s : State) (t g : Nat) (f : Group → Group) : (s.modGroup t g f).free = s.free := rfl
@[simp] theorem State.nextId_modGroup (s : State) (t g : Nat) (f : Group → Group) : (s.modGroup t g f).nextId = s.nextId := rfl
@[simp] theorem State.inputs_modGroup (s : State) (t g : Nat) (f : Group → Group) : (s.modGroup t g f).inputs = s.inputs := rfl
@[simp] theorem State.grids_modGroup (s : State) (t g : Nat) (f : Group → Group) : (s.modGroup t g f).grids = s.grids := rfl
@[simp] theorem State.cores_modGroup (s : State) (t g : Nat) (f : Group → Group) : (s.modGroup t g f).cores = s.cores := rfl
@[simp] theorem State.clusters_modGroup (s : State) (t g : Nat) (f : Group → Group) : (s.modGroup t g f).clusters = s.clusters := rfl
@[simp] theorem State.tenants_modGroup (s : State) (t g : Nat) (f : Group → Group) : (s.modGroup t g f).tenants = s.tenants := rfl
@[simp] theorem State.queues_modGroup (s : State) (t g : Nat) (f : Group → Group) : (s.modGroup t g f).queues = s.queues := rfl
@[simp] theorem State.reqs_modGroup (s : State) (t g : Nat) (f : Group → Group) : (s.modGroup t g f).reqs = s.reqs := rfl
@[simp] theorem State.copies_modGroup (s : State) (t g : Nat) (f : Group → Group) : (s.modGroup t g f).copies = s.copies := rfl
@[simp] theorem State.merges_modGroup (s : State) (t g : Nat) (f : Group → Group) : (s.modGroup t g f).merges = s.merges := rfl
@[simp] theorem State.commands_modGroup (s : State) (t g : Nat) (f : Group → Group) : (s.modGroup t g f).commands = s.commands := rfl
@[simp] theorem State.strings_modGroup (s : State) (t g : Nat) (f : Group → Group) : (s.modGroup t g f).strings = s.strings := rfl
@[simp] theorem State.channels_modGroup (s : State) (t g : Nat) (f : Group → Group) : (s.modGroup t g f).channels = s.channels := rfl
@[simp] theorem State.solicits_modGroup (s : State) (t g : Nat) (f : Group → Group) : (s.modGroup t g f).solicits = s.solicits := rfl
@[simp] theorem State.faultRecords_modGroup (s : State) (t g : Nat) (f : Group → Group) : (s.modGroup t g f).faultRecords = s.faultRecords := rfl
@[simp] theorem State.faultPosts_modGroup (s : State) (t g : Nat) (f : Group → Group) : (s.modGroup t g f).faultPosts = s.faultPosts := rfl
@[simp] theorem State.port_modGroup (s : State) (t g : Nat) (f : Group → Group) : (s.modGroup t g f).port = s.port := rfl
@[simp] theorem State.born_modGroup (s : State) (t g : Nat) (f : Group → Group) : (s.modGroup t g f).born = s.born := rfl
@[simp] theorem State.tests_modGroup (s : State) (t g : Nat) (f : Group → Group) : (s.modGroup t g f).tests = s.tests := rfl

@[simp] theorem State.mem_modThread (s : State) (th : ThreadRef) (f : Thread → Thread) : (s.modThread th f).mem = s.mem := rfl
@[simp] theorem State.hostMem_modThread (s : State) (th : ThreadRef) (f : Thread → Thread) : (s.modThread th f).hostMem = s.hostMem := rfl
@[simp] theorem State.peerMem_modThread (s : State) (th : ThreadRef) (f : Thread → Thread) : (s.modThread th f).peerMem = s.peerMem := rfl
@[simp] theorem State.poison_modThread (s : State) (th : ThreadRef) (f : Thread → Thread) : (s.modThread th f).poison = s.poison := rfl
@[simp] theorem State.ply_modThread (s : State) (th : ThreadRef) (f : Thread → Thread) : (s.modThread th f).ply = s.ply := rfl
@[simp] theorem State.tick_modThread (s : State) (th : ThreadRef) (f : Thread → Thread) : (s.modThread th f).tick = s.tick := rfl
@[simp] theorem State.free_modThread (s : State) (th : ThreadRef) (f : Thread → Thread) : (s.modThread th f).free = s.free := rfl
@[simp] theorem State.nextId_modThread (s : State) (th : ThreadRef) (f : Thread → Thread) : (s.modThread th f).nextId = s.nextId := rfl
@[simp] theorem State.inputs_modThread (s : State) (th : ThreadRef) (f : Thread → Thread) : (s.modThread th f).inputs = s.inputs := rfl
@[simp] theorem State.grids_modThread (s : State) (th : ThreadRef) (f : Thread → Thread) : (s.modThread th f).grids = s.grids := rfl
@[simp] theorem State.cores_modThread (s : State) (th : ThreadRef) (f : Thread → Thread) : (s.modThread th f).cores = s.cores := rfl
@[simp] theorem State.clusters_modThread (s : State) (th : ThreadRef) (f : Thread → Thread) : (s.modThread th f).clusters = s.clusters := rfl
@[simp] theorem State.tenants_modThread (s : State) (th : ThreadRef) (f : Thread → Thread) : (s.modThread th f).tenants = s.tenants := rfl
@[simp] theorem State.queues_modThread (s : State) (th : ThreadRef) (f : Thread → Thread) : (s.modThread th f).queues = s.queues := rfl
@[simp] theorem State.reqs_modThread (s : State) (th : ThreadRef) (f : Thread → Thread) : (s.modThread th f).reqs = s.reqs := rfl
@[simp] theorem State.copies_modThread (s : State) (th : ThreadRef) (f : Thread → Thread) : (s.modThread th f).copies = s.copies := rfl
@[simp] theorem State.merges_modThread (s : State) (th : ThreadRef) (f : Thread → Thread) : (s.modThread th f).merges = s.merges := rfl
@[simp] theorem State.commands_modThread (s : State) (th : ThreadRef) (f : Thread → Thread) : (s.modThread th f).commands = s.commands := rfl
@[simp] theorem State.strings_modThread (s : State) (th : ThreadRef) (f : Thread → Thread) : (s.modThread th f).strings = s.strings := rfl
@[simp] theorem State.channels_modThread (s : State) (th : ThreadRef) (f : Thread → Thread) : (s.modThread th f).channels = s.channels := rfl
@[simp] theorem State.solicits_modThread (s : State) (th : ThreadRef) (f : Thread → Thread) : (s.modThread th f).solicits = s.solicits := rfl
@[simp] theorem State.faultRecords_modThread (s : State) (th : ThreadRef) (f : Thread → Thread) : (s.modThread th f).faultRecords = s.faultRecords := rfl
@[simp] theorem State.faultPosts_modThread (s : State) (th : ThreadRef) (f : Thread → Thread) : (s.modThread th f).faultPosts = s.faultPosts := rfl
@[simp] theorem State.port_modThread (s : State) (th : ThreadRef) (f : Thread → Thread) : (s.modThread th f).port = s.port := rfl
@[simp] theorem State.born_modThread (s : State) (th : ThreadRef) (f : Thread → Thread) : (s.modThread th f).born = s.born := rfl
@[simp] theorem State.tests_modThread (s : State) (th : ThreadRef) (f : Thread → Thread) : (s.modThread th f).tests = s.tests := rfl

@[simp] theorem State.mem_setStatus (s : State) (th : ThreadRef) (x : Status) : (s.setStatus th x).mem = s.mem := rfl
@[simp] theorem State.hostMem_setStatus (s : State) (th : ThreadRef) (x : Status) : (s.setStatus th x).hostMem = s.hostMem := rfl
@[simp] theorem State.peerMem_setStatus (s : State) (th : ThreadRef) (x : Status) : (s.setStatus th x).peerMem = s.peerMem := rfl
@[simp] theorem State.poison_setStatus (s : State) (th : ThreadRef) (x : Status) : (s.setStatus th x).poison = s.poison := rfl
@[simp] theorem State.ply_setStatus (s : State) (th : ThreadRef) (x : Status) : (s.setStatus th x).ply = s.ply := rfl
@[simp] theorem State.tick_setStatus (s : State) (th : ThreadRef) (x : Status) : (s.setStatus th x).tick = s.tick := rfl
@[simp] theorem State.free_setStatus (s : State) (th : ThreadRef) (x : Status) : (s.setStatus th x).free = s.free := rfl
@[simp] theorem State.nextId_setStatus (s : State) (th : ThreadRef) (x : Status) : (s.setStatus th x).nextId = s.nextId := rfl
@[simp] theorem State.inputs_setStatus (s : State) (th : ThreadRef) (x : Status) : (s.setStatus th x).inputs = s.inputs := rfl
@[simp] theorem State.grids_setStatus (s : State) (th : ThreadRef) (x : Status) : (s.setStatus th x).grids = s.grids := rfl
@[simp] theorem State.cores_setStatus (s : State) (th : ThreadRef) (x : Status) : (s.setStatus th x).cores = s.cores := rfl
@[simp] theorem State.clusters_setStatus (s : State) (th : ThreadRef) (x : Status) : (s.setStatus th x).clusters = s.clusters := rfl
@[simp] theorem State.tenants_setStatus (s : State) (th : ThreadRef) (x : Status) : (s.setStatus th x).tenants = s.tenants := rfl
@[simp] theorem State.queues_setStatus (s : State) (th : ThreadRef) (x : Status) : (s.setStatus th x).queues = s.queues := rfl
@[simp] theorem State.reqs_setStatus (s : State) (th : ThreadRef) (x : Status) : (s.setStatus th x).reqs = s.reqs := rfl
@[simp] theorem State.copies_setStatus (s : State) (th : ThreadRef) (x : Status) : (s.setStatus th x).copies = s.copies := rfl
@[simp] theorem State.merges_setStatus (s : State) (th : ThreadRef) (x : Status) : (s.setStatus th x).merges = s.merges := rfl
@[simp] theorem State.commands_setStatus (s : State) (th : ThreadRef) (x : Status) : (s.setStatus th x).commands = s.commands := rfl
@[simp] theorem State.strings_setStatus (s : State) (th : ThreadRef) (x : Status) : (s.setStatus th x).strings = s.strings := rfl
@[simp] theorem State.channels_setStatus (s : State) (th : ThreadRef) (x : Status) : (s.setStatus th x).channels = s.channels := rfl
@[simp] theorem State.solicits_setStatus (s : State) (th : ThreadRef) (x : Status) : (s.setStatus th x).solicits = s.solicits := rfl
@[simp] theorem State.faultRecords_setStatus (s : State) (th : ThreadRef) (x : Status) : (s.setStatus th x).faultRecords = s.faultRecords := rfl
@[simp] theorem State.faultPosts_setStatus (s : State) (th : ThreadRef) (x : Status) : (s.setStatus th x).faultPosts = s.faultPosts := rfl
@[simp] theorem State.port_setStatus (s : State) (th : ThreadRef) (x : Status) : (s.setStatus th x).port = s.port := rfl
@[simp] theorem State.born_setStatus (s : State) (th : ThreadRef) (x : Status) : (s.setStatus th x).born = s.born := rfl
@[simp] theorem State.tests_setStatus (s : State) (th : ThreadRef) (x : Status) : (s.setStatus th x).tests = s.tests := rfl

@[simp] theorem State.mem_wake (s : State) (th : ThreadRef) : (s.wake th).mem = s.mem := rfl
@[simp] theorem State.hostMem_wake (s : State) (th : ThreadRef) : (s.wake th).hostMem = s.hostMem := rfl
@[simp] theorem State.peerMem_wake (s : State) (th : ThreadRef) : (s.wake th).peerMem = s.peerMem := rfl
@[simp] theorem State.poison_wake (s : State) (th : ThreadRef) : (s.wake th).poison = s.poison := rfl
@[simp] theorem State.ply_wake (s : State) (th : ThreadRef) : (s.wake th).ply = s.ply := rfl
@[simp] theorem State.tick_wake (s : State) (th : ThreadRef) : (s.wake th).tick = s.tick := rfl
@[simp] theorem State.free_wake (s : State) (th : ThreadRef) : (s.wake th).free = s.free := rfl
@[simp] theorem State.nextId_wake (s : State) (th : ThreadRef) : (s.wake th).nextId = s.nextId := rfl
@[simp] theorem State.inputs_wake (s : State) (th : ThreadRef) : (s.wake th).inputs = s.inputs := rfl
@[simp] theorem State.grids_wake (s : State) (th : ThreadRef) : (s.wake th).grids = s.grids := rfl
@[simp] theorem State.cores_wake (s : State) (th : ThreadRef) : (s.wake th).cores = s.cores := rfl
@[simp] theorem State.clusters_wake (s : State) (th : ThreadRef) : (s.wake th).clusters = s.clusters := rfl
@[simp] theorem State.tenants_wake (s : State) (th : ThreadRef) : (s.wake th).tenants = s.tenants := rfl
@[simp] theorem State.queues_wake (s : State) (th : ThreadRef) : (s.wake th).queues = s.queues := rfl
@[simp] theorem State.reqs_wake (s : State) (th : ThreadRef) : (s.wake th).reqs = s.reqs := rfl
@[simp] theorem State.copies_wake (s : State) (th : ThreadRef) : (s.wake th).copies = s.copies := rfl
@[simp] theorem State.merges_wake (s : State) (th : ThreadRef) : (s.wake th).merges = s.merges := rfl
@[simp] theorem State.commands_wake (s : State) (th : ThreadRef) : (s.wake th).commands = s.commands := rfl
@[simp] theorem State.strings_wake (s : State) (th : ThreadRef) : (s.wake th).strings = s.strings := rfl
@[simp] theorem State.channels_wake (s : State) (th : ThreadRef) : (s.wake th).channels = s.channels := rfl
@[simp] theorem State.solicits_wake (s : State) (th : ThreadRef) : (s.wake th).solicits = s.solicits := rfl
@[simp] theorem State.faultRecords_wake (s : State) (th : ThreadRef) : (s.wake th).faultRecords = s.faultRecords := rfl
@[simp] theorem State.faultPosts_wake (s : State) (th : ThreadRef) : (s.wake th).faultPosts = s.faultPosts := rfl
@[simp] theorem State.port_wake (s : State) (th : ThreadRef) : (s.wake th).port = s.port := rfl
@[simp] theorem State.born_wake (s : State) (th : ThreadRef) : (s.wake th).born = s.born := rfl
@[simp] theorem State.tests_wake (s : State) (th : ThreadRef) : (s.wake th).tests = s.tests := rfl

@[simp] theorem State.mem_stall (s : State) (th : ThreadRef) : (s.stall th).mem = s.mem := rfl
@[simp] theorem State.hostMem_stall (s : State) (th : ThreadRef) : (s.stall th).hostMem = s.hostMem := rfl
@[simp] theorem State.peerMem_stall (s : State) (th : ThreadRef) : (s.stall th).peerMem = s.peerMem := rfl
@[simp] theorem State.poison_stall (s : State) (th : ThreadRef) : (s.stall th).poison = s.poison := rfl
@[simp] theorem State.ply_stall (s : State) (th : ThreadRef) : (s.stall th).ply = s.ply := rfl
@[simp] theorem State.tick_stall (s : State) (th : ThreadRef) : (s.stall th).tick = s.tick := rfl
@[simp] theorem State.free_stall (s : State) (th : ThreadRef) : (s.stall th).free = s.free := rfl
@[simp] theorem State.nextId_stall (s : State) (th : ThreadRef) : (s.stall th).nextId = s.nextId := rfl
@[simp] theorem State.inputs_stall (s : State) (th : ThreadRef) : (s.stall th).inputs = s.inputs := rfl
@[simp] theorem State.grids_stall (s : State) (th : ThreadRef) : (s.stall th).grids = s.grids := rfl
@[simp] theorem State.cores_stall (s : State) (th : ThreadRef) : (s.stall th).cores = s.cores := rfl
@[simp] theorem State.clusters_stall (s : State) (th : ThreadRef) : (s.stall th).clusters = s.clusters := rfl
@[simp] theorem State.tenants_stall (s : State) (th : ThreadRef) : (s.stall th).tenants = s.tenants := rfl
@[simp] theorem State.queues_stall (s : State) (th : ThreadRef) : (s.stall th).queues = s.queues := rfl
@[simp] theorem State.reqs_stall (s : State) (th : ThreadRef) : (s.stall th).reqs = s.reqs := rfl
@[simp] theorem State.copies_stall (s : State) (th : ThreadRef) : (s.stall th).copies = s.copies := rfl
@[simp] theorem State.merges_stall (s : State) (th : ThreadRef) : (s.stall th).merges = s.merges := rfl
@[simp] theorem State.commands_stall (s : State) (th : ThreadRef) : (s.stall th).commands = s.commands := rfl
@[simp] theorem State.strings_stall (s : State) (th : ThreadRef) : (s.stall th).strings = s.strings := rfl
@[simp] theorem State.channels_stall (s : State) (th : ThreadRef) : (s.stall th).channels = s.channels := rfl
@[simp] theorem State.solicits_stall (s : State) (th : ThreadRef) : (s.stall th).solicits = s.solicits := rfl
@[simp] theorem State.faultRecords_stall (s : State) (th : ThreadRef) : (s.stall th).faultRecords = s.faultRecords := rfl
@[simp] theorem State.faultPosts_stall (s : State) (th : ThreadRef) : (s.stall th).faultPosts = s.faultPosts := rfl
@[simp] theorem State.port_stall (s : State) (th : ThreadRef) : (s.stall th).port = s.port := rfl
@[simp] theorem State.born_stall (s : State) (th : ThreadRef) : (s.stall th).born = s.born := rfl
@[simp] theorem State.tests_stall (s : State) (th : ThreadRef) : (s.stall th).tests = s.tests := rfl

@[simp] theorem State.mem_advance (s : State) (th : ThreadRef) : (s.advance th).mem = s.mem := rfl
@[simp] theorem State.hostMem_advance (s : State) (th : ThreadRef) : (s.advance th).hostMem = s.hostMem := rfl
@[simp] theorem State.peerMem_advance (s : State) (th : ThreadRef) : (s.advance th).peerMem = s.peerMem := rfl
@[simp] theorem State.poison_advance (s : State) (th : ThreadRef) : (s.advance th).poison = s.poison := rfl
@[simp] theorem State.ply_advance (s : State) (th : ThreadRef) : (s.advance th).ply = s.ply := rfl
@[simp] theorem State.tick_advance (s : State) (th : ThreadRef) : (s.advance th).tick = s.tick := rfl
@[simp] theorem State.free_advance (s : State) (th : ThreadRef) : (s.advance th).free = s.free := rfl
@[simp] theorem State.nextId_advance (s : State) (th : ThreadRef) : (s.advance th).nextId = s.nextId := rfl
@[simp] theorem State.inputs_advance (s : State) (th : ThreadRef) : (s.advance th).inputs = s.inputs := rfl
@[simp] theorem State.grids_advance (s : State) (th : ThreadRef) : (s.advance th).grids = s.grids := rfl
@[simp] theorem State.cores_advance (s : State) (th : ThreadRef) : (s.advance th).cores = s.cores := rfl
@[simp] theorem State.clusters_advance (s : State) (th : ThreadRef) : (s.advance th).clusters = s.clusters := rfl
@[simp] theorem State.tenants_advance (s : State) (th : ThreadRef) : (s.advance th).tenants = s.tenants := rfl
@[simp] theorem State.queues_advance (s : State) (th : ThreadRef) : (s.advance th).queues = s.queues := rfl
@[simp] theorem State.reqs_advance (s : State) (th : ThreadRef) : (s.advance th).reqs = s.reqs := rfl
@[simp] theorem State.copies_advance (s : State) (th : ThreadRef) : (s.advance th).copies = s.copies := rfl
@[simp] theorem State.merges_advance (s : State) (th : ThreadRef) : (s.advance th).merges = s.merges := rfl
@[simp] theorem State.commands_advance (s : State) (th : ThreadRef) : (s.advance th).commands = s.commands := rfl
@[simp] theorem State.strings_advance (s : State) (th : ThreadRef) : (s.advance th).strings = s.strings := rfl
@[simp] theorem State.channels_advance (s : State) (th : ThreadRef) : (s.advance th).channels = s.channels := rfl
@[simp] theorem State.solicits_advance (s : State) (th : ThreadRef) : (s.advance th).solicits = s.solicits := rfl
@[simp] theorem State.faultRecords_advance (s : State) (th : ThreadRef) : (s.advance th).faultRecords = s.faultRecords := rfl
@[simp] theorem State.faultPosts_advance (s : State) (th : ThreadRef) : (s.advance th).faultPosts = s.faultPosts := rfl
@[simp] theorem State.port_advance (s : State) (th : ThreadRef) : (s.advance th).port = s.port := rfl
@[simp] theorem State.born_advance (s : State) (th : ThreadRef) : (s.advance th).born = s.born := rfl
@[simp] theorem State.tests_advance (s : State) (th : ThreadRef) : (s.advance th).tests = s.tests := rfl

@[simp] theorem State.mem_setBarrier (s : State) (t b : Nat) (x : Barrier) : (s.setBarrier t b x).mem = s.mem := rfl
@[simp] theorem State.hostMem_setBarrier (s : State) (t b : Nat) (x : Barrier) : (s.setBarrier t b x).hostMem = s.hostMem := rfl
@[simp] theorem State.peerMem_setBarrier (s : State) (t b : Nat) (x : Barrier) : (s.setBarrier t b x).peerMem = s.peerMem := rfl
@[simp] theorem State.poison_setBarrier (s : State) (t b : Nat) (x : Barrier) : (s.setBarrier t b x).poison = s.poison := rfl
@[simp] theorem State.ply_setBarrier (s : State) (t b : Nat) (x : Barrier) : (s.setBarrier t b x).ply = s.ply := rfl
@[simp] theorem State.tick_setBarrier (s : State) (t b : Nat) (x : Barrier) : (s.setBarrier t b x).tick = s.tick := rfl
@[simp] theorem State.free_setBarrier (s : State) (t b : Nat) (x : Barrier) : (s.setBarrier t b x).free = s.free := rfl
@[simp] theorem State.nextId_setBarrier (s : State) (t b : Nat) (x : Barrier) : (s.setBarrier t b x).nextId = s.nextId := rfl
@[simp] theorem State.inputs_setBarrier (s : State) (t b : Nat) (x : Barrier) : (s.setBarrier t b x).inputs = s.inputs := rfl
@[simp] theorem State.grids_setBarrier (s : State) (t b : Nat) (x : Barrier) : (s.setBarrier t b x).grids = s.grids := rfl
@[simp] theorem State.cores_setBarrier (s : State) (t b : Nat) (x : Barrier) : (s.setBarrier t b x).cores = s.cores := rfl
@[simp] theorem State.clusters_setBarrier (s : State) (t b : Nat) (x : Barrier) : (s.setBarrier t b x).clusters = s.clusters := rfl
@[simp] theorem State.tenants_setBarrier (s : State) (t b : Nat) (x : Barrier) : (s.setBarrier t b x).tenants = s.tenants := rfl
@[simp] theorem State.queues_setBarrier (s : State) (t b : Nat) (x : Barrier) : (s.setBarrier t b x).queues = s.queues := rfl
@[simp] theorem State.reqs_setBarrier (s : State) (t b : Nat) (x : Barrier) : (s.setBarrier t b x).reqs = s.reqs := rfl
@[simp] theorem State.copies_setBarrier (s : State) (t b : Nat) (x : Barrier) : (s.setBarrier t b x).copies = s.copies := rfl
@[simp] theorem State.merges_setBarrier (s : State) (t b : Nat) (x : Barrier) : (s.setBarrier t b x).merges = s.merges := rfl
@[simp] theorem State.commands_setBarrier (s : State) (t b : Nat) (x : Barrier) : (s.setBarrier t b x).commands = s.commands := rfl
@[simp] theorem State.strings_setBarrier (s : State) (t b : Nat) (x : Barrier) : (s.setBarrier t b x).strings = s.strings := rfl
@[simp] theorem State.channels_setBarrier (s : State) (t b : Nat) (x : Barrier) : (s.setBarrier t b x).channels = s.channels := rfl
@[simp] theorem State.solicits_setBarrier (s : State) (t b : Nat) (x : Barrier) : (s.setBarrier t b x).solicits = s.solicits := rfl
@[simp] theorem State.faultRecords_setBarrier (s : State) (t b : Nat) (x : Barrier) : (s.setBarrier t b x).faultRecords = s.faultRecords := rfl
@[simp] theorem State.faultPosts_setBarrier (s : State) (t b : Nat) (x : Barrier) : (s.setBarrier t b x).faultPosts = s.faultPosts := rfl
@[simp] theorem State.port_setBarrier (s : State) (t b : Nat) (x : Barrier) : (s.setBarrier t b x).port = s.port := rfl
@[simp] theorem State.born_setBarrier (s : State) (t b : Nat) (x : Barrier) : (s.setBarrier t b x).born = s.born := rfl
@[simp] theorem State.tests_setBarrier (s : State) (t b : Nat) (x : Barrier) : (s.setBarrier t b x).tests = s.tests := rfl

@[simp] theorem State.mem_modGrid (s : State) (g : Nat) (f : Grid → Grid) : (s.modGrid g f).mem = s.mem := rfl
@[simp] theorem State.hostMem_modGrid (s : State) (g : Nat) (f : Grid → Grid) : (s.modGrid g f).hostMem = s.hostMem := rfl
@[simp] theorem State.peerMem_modGrid (s : State) (g : Nat) (f : Grid → Grid) : (s.modGrid g f).peerMem = s.peerMem := rfl
@[simp] theorem State.poison_modGrid (s : State) (g : Nat) (f : Grid → Grid) : (s.modGrid g f).poison = s.poison := rfl
@[simp] theorem State.ply_modGrid (s : State) (g : Nat) (f : Grid → Grid) : (s.modGrid g f).ply = s.ply := rfl
@[simp] theorem State.tick_modGrid (s : State) (g : Nat) (f : Grid → Grid) : (s.modGrid g f).tick = s.tick := rfl
@[simp] theorem State.free_modGrid (s : State) (g : Nat) (f : Grid → Grid) : (s.modGrid g f).free = s.free := rfl
@[simp] theorem State.nextId_modGrid (s : State) (g : Nat) (f : Grid → Grid) : (s.modGrid g f).nextId = s.nextId := rfl
@[simp] theorem State.inputs_modGrid (s : State) (g : Nat) (f : Grid → Grid) : (s.modGrid g f).inputs = s.inputs := rfl
@[simp] theorem State.teams_modGrid (s : State) (g : Nat) (f : Grid → Grid) : (s.modGrid g f).teams = s.teams := rfl
@[simp] theorem State.cores_modGrid (s : State) (g : Nat) (f : Grid → Grid) : (s.modGrid g f).cores = s.cores := rfl
@[simp] theorem State.clusters_modGrid (s : State) (g : Nat) (f : Grid → Grid) : (s.modGrid g f).clusters = s.clusters := rfl
@[simp] theorem State.tenants_modGrid (s : State) (g : Nat) (f : Grid → Grid) : (s.modGrid g f).tenants = s.tenants := rfl
@[simp] theorem State.queues_modGrid (s : State) (g : Nat) (f : Grid → Grid) : (s.modGrid g f).queues = s.queues := rfl
@[simp] theorem State.reqs_modGrid (s : State) (g : Nat) (f : Grid → Grid) : (s.modGrid g f).reqs = s.reqs := rfl
@[simp] theorem State.copies_modGrid (s : State) (g : Nat) (f : Grid → Grid) : (s.modGrid g f).copies = s.copies := rfl
@[simp] theorem State.merges_modGrid (s : State) (g : Nat) (f : Grid → Grid) : (s.modGrid g f).merges = s.merges := rfl
@[simp] theorem State.commands_modGrid (s : State) (g : Nat) (f : Grid → Grid) : (s.modGrid g f).commands = s.commands := rfl
@[simp] theorem State.strings_modGrid (s : State) (g : Nat) (f : Grid → Grid) : (s.modGrid g f).strings = s.strings := rfl
@[simp] theorem State.channels_modGrid (s : State) (g : Nat) (f : Grid → Grid) : (s.modGrid g f).channels = s.channels := rfl
@[simp] theorem State.solicits_modGrid (s : State) (g : Nat) (f : Grid → Grid) : (s.modGrid g f).solicits = s.solicits := rfl
@[simp] theorem State.faultRecords_modGrid (s : State) (g : Nat) (f : Grid → Grid) : (s.modGrid g f).faultRecords = s.faultRecords := rfl
@[simp] theorem State.faultPosts_modGrid (s : State) (g : Nat) (f : Grid → Grid) : (s.modGrid g f).faultPosts = s.faultPosts := rfl
@[simp] theorem State.port_modGrid (s : State) (g : Nat) (f : Grid → Grid) : (s.modGrid g f).port = s.port := rfl
@[simp] theorem State.born_modGrid (s : State) (g : Nat) (f : Grid → Grid) : (s.modGrid g f).born = s.born := rfl
@[simp] theorem State.tests_modGrid (s : State) (g : Nat) (f : Grid → Grid) : (s.modGrid g f).tests = s.tests := rfl

@[simp] theorem State.mem_setCore (s : State) (c : Nat) (k : Core) : (s.setCore c k).mem = s.mem := rfl
@[simp] theorem State.hostMem_setCore (s : State) (c : Nat) (k : Core) : (s.setCore c k).hostMem = s.hostMem := rfl
@[simp] theorem State.peerMem_setCore (s : State) (c : Nat) (k : Core) : (s.setCore c k).peerMem = s.peerMem := rfl
@[simp] theorem State.poison_setCore (s : State) (c : Nat) (k : Core) : (s.setCore c k).poison = s.poison := rfl
@[simp] theorem State.ply_setCore (s : State) (c : Nat) (k : Core) : (s.setCore c k).ply = s.ply := rfl
@[simp] theorem State.tick_setCore (s : State) (c : Nat) (k : Core) : (s.setCore c k).tick = s.tick := rfl
@[simp] theorem State.free_setCore (s : State) (c : Nat) (k : Core) : (s.setCore c k).free = s.free := rfl
@[simp] theorem State.nextId_setCore (s : State) (c : Nat) (k : Core) : (s.setCore c k).nextId = s.nextId := rfl
@[simp] theorem State.inputs_setCore (s : State) (c : Nat) (k : Core) : (s.setCore c k).inputs = s.inputs := rfl
@[simp] theorem State.teams_setCore (s : State) (c : Nat) (k : Core) : (s.setCore c k).teams = s.teams := rfl
@[simp] theorem State.grids_setCore (s : State) (c : Nat) (k : Core) : (s.setCore c k).grids = s.grids := rfl
@[simp] theorem State.clusters_setCore (s : State) (c : Nat) (k : Core) : (s.setCore c k).clusters = s.clusters := rfl
@[simp] theorem State.tenants_setCore (s : State) (c : Nat) (k : Core) : (s.setCore c k).tenants = s.tenants := rfl
@[simp] theorem State.queues_setCore (s : State) (c : Nat) (k : Core) : (s.setCore c k).queues = s.queues := rfl
@[simp] theorem State.reqs_setCore (s : State) (c : Nat) (k : Core) : (s.setCore c k).reqs = s.reqs := rfl
@[simp] theorem State.copies_setCore (s : State) (c : Nat) (k : Core) : (s.setCore c k).copies = s.copies := rfl
@[simp] theorem State.merges_setCore (s : State) (c : Nat) (k : Core) : (s.setCore c k).merges = s.merges := rfl
@[simp] theorem State.commands_setCore (s : State) (c : Nat) (k : Core) : (s.setCore c k).commands = s.commands := rfl
@[simp] theorem State.strings_setCore (s : State) (c : Nat) (k : Core) : (s.setCore c k).strings = s.strings := rfl
@[simp] theorem State.channels_setCore (s : State) (c : Nat) (k : Core) : (s.setCore c k).channels = s.channels := rfl
@[simp] theorem State.solicits_setCore (s : State) (c : Nat) (k : Core) : (s.setCore c k).solicits = s.solicits := rfl
@[simp] theorem State.faultRecords_setCore (s : State) (c : Nat) (k : Core) : (s.setCore c k).faultRecords = s.faultRecords := rfl
@[simp] theorem State.faultPosts_setCore (s : State) (c : Nat) (k : Core) : (s.setCore c k).faultPosts = s.faultPosts := rfl
@[simp] theorem State.port_setCore (s : State) (c : Nat) (k : Core) : (s.setCore c k).port = s.port := rfl
@[simp] theorem State.born_setCore (s : State) (c : Nat) (k : Core) : (s.setCore c k).born = s.born := rfl
@[simp] theorem State.tests_setCore (s : State) (c : Nat) (k : Core) : (s.setCore c k).tests = s.tests := rfl

@[simp] theorem State.mem_setCluster (s : State) (k : Nat) (c : Cluster) : (s.setCluster k c).mem = s.mem := rfl
@[simp] theorem State.hostMem_setCluster (s : State) (k : Nat) (c : Cluster) : (s.setCluster k c).hostMem = s.hostMem := rfl
@[simp] theorem State.peerMem_setCluster (s : State) (k : Nat) (c : Cluster) : (s.setCluster k c).peerMem = s.peerMem := rfl
@[simp] theorem State.poison_setCluster (s : State) (k : Nat) (c : Cluster) : (s.setCluster k c).poison = s.poison := rfl
@[simp] theorem State.ply_setCluster (s : State) (k : Nat) (c : Cluster) : (s.setCluster k c).ply = s.ply := rfl
@[simp] theorem State.tick_setCluster (s : State) (k : Nat) (c : Cluster) : (s.setCluster k c).tick = s.tick := rfl
@[simp] theorem State.free_setCluster (s : State) (k : Nat) (c : Cluster) : (s.setCluster k c).free = s.free := rfl
@[simp] theorem State.nextId_setCluster (s : State) (k : Nat) (c : Cluster) : (s.setCluster k c).nextId = s.nextId := rfl
@[simp] theorem State.inputs_setCluster (s : State) (k : Nat) (c : Cluster) : (s.setCluster k c).inputs = s.inputs := rfl
@[simp] theorem State.teams_setCluster (s : State) (k : Nat) (c : Cluster) : (s.setCluster k c).teams = s.teams := rfl
@[simp] theorem State.grids_setCluster (s : State) (k : Nat) (c : Cluster) : (s.setCluster k c).grids = s.grids := rfl
@[simp] theorem State.cores_setCluster (s : State) (k : Nat) (c : Cluster) : (s.setCluster k c).cores = s.cores := rfl
@[simp] theorem State.tenants_setCluster (s : State) (k : Nat) (c : Cluster) : (s.setCluster k c).tenants = s.tenants := rfl
@[simp] theorem State.queues_setCluster (s : State) (k : Nat) (c : Cluster) : (s.setCluster k c).queues = s.queues := rfl
@[simp] theorem State.reqs_setCluster (s : State) (k : Nat) (c : Cluster) : (s.setCluster k c).reqs = s.reqs := rfl
@[simp] theorem State.copies_setCluster (s : State) (k : Nat) (c : Cluster) : (s.setCluster k c).copies = s.copies := rfl
@[simp] theorem State.merges_setCluster (s : State) (k : Nat) (c : Cluster) : (s.setCluster k c).merges = s.merges := rfl
@[simp] theorem State.commands_setCluster (s : State) (k : Nat) (c : Cluster) : (s.setCluster k c).commands = s.commands := rfl
@[simp] theorem State.strings_setCluster (s : State) (k : Nat) (c : Cluster) : (s.setCluster k c).strings = s.strings := rfl
@[simp] theorem State.channels_setCluster (s : State) (k : Nat) (c : Cluster) : (s.setCluster k c).channels = s.channels := rfl
@[simp] theorem State.solicits_setCluster (s : State) (k : Nat) (c : Cluster) : (s.setCluster k c).solicits = s.solicits := rfl
@[simp] theorem State.faultRecords_setCluster (s : State) (k : Nat) (c : Cluster) : (s.setCluster k c).faultRecords = s.faultRecords := rfl
@[simp] theorem State.faultPosts_setCluster (s : State) (k : Nat) (c : Cluster) : (s.setCluster k c).faultPosts = s.faultPosts := rfl
@[simp] theorem State.port_setCluster (s : State) (k : Nat) (c : Cluster) : (s.setCluster k c).port = s.port := rfl
@[simp] theorem State.born_setCluster (s : State) (k : Nat) (c : Cluster) : (s.setCluster k c).born = s.born := rfl
@[simp] theorem State.tests_setCluster (s : State) (k : Nat) (c : Cluster) : (s.setCluster k c).tests = s.tests := rfl

@[simp] theorem State.mem_setTenant (s : State) (t : Nat) (x : Tenant) : (s.setTenant t x).mem = s.mem := rfl
@[simp] theorem State.hostMem_setTenant (s : State) (t : Nat) (x : Tenant) : (s.setTenant t x).hostMem = s.hostMem := rfl
@[simp] theorem State.peerMem_setTenant (s : State) (t : Nat) (x : Tenant) : (s.setTenant t x).peerMem = s.peerMem := rfl
@[simp] theorem State.poison_setTenant (s : State) (t : Nat) (x : Tenant) : (s.setTenant t x).poison = s.poison := rfl
@[simp] theorem State.ply_setTenant (s : State) (t : Nat) (x : Tenant) : (s.setTenant t x).ply = s.ply := rfl
@[simp] theorem State.tick_setTenant (s : State) (t : Nat) (x : Tenant) : (s.setTenant t x).tick = s.tick := rfl
@[simp] theorem State.free_setTenant (s : State) (t : Nat) (x : Tenant) : (s.setTenant t x).free = s.free := rfl
@[simp] theorem State.nextId_setTenant (s : State) (t : Nat) (x : Tenant) : (s.setTenant t x).nextId = s.nextId := rfl
@[simp] theorem State.inputs_setTenant (s : State) (t : Nat) (x : Tenant) : (s.setTenant t x).inputs = s.inputs := rfl
@[simp] theorem State.teams_setTenant (s : State) (t : Nat) (x : Tenant) : (s.setTenant t x).teams = s.teams := rfl
@[simp] theorem State.grids_setTenant (s : State) (t : Nat) (x : Tenant) : (s.setTenant t x).grids = s.grids := rfl
@[simp] theorem State.cores_setTenant (s : State) (t : Nat) (x : Tenant) : (s.setTenant t x).cores = s.cores := rfl
@[simp] theorem State.clusters_setTenant (s : State) (t : Nat) (x : Tenant) : (s.setTenant t x).clusters = s.clusters := rfl
@[simp] theorem State.queues_setTenant (s : State) (t : Nat) (x : Tenant) : (s.setTenant t x).queues = s.queues := rfl
@[simp] theorem State.reqs_setTenant (s : State) (t : Nat) (x : Tenant) : (s.setTenant t x).reqs = s.reqs := rfl
@[simp] theorem State.copies_setTenant (s : State) (t : Nat) (x : Tenant) : (s.setTenant t x).copies = s.copies := rfl
@[simp] theorem State.merges_setTenant (s : State) (t : Nat) (x : Tenant) : (s.setTenant t x).merges = s.merges := rfl
@[simp] theorem State.commands_setTenant (s : State) (t : Nat) (x : Tenant) : (s.setTenant t x).commands = s.commands := rfl
@[simp] theorem State.strings_setTenant (s : State) (t : Nat) (x : Tenant) : (s.setTenant t x).strings = s.strings := rfl
@[simp] theorem State.channels_setTenant (s : State) (t : Nat) (x : Tenant) : (s.setTenant t x).channels = s.channels := rfl
@[simp] theorem State.solicits_setTenant (s : State) (t : Nat) (x : Tenant) : (s.setTenant t x).solicits = s.solicits := rfl
@[simp] theorem State.faultRecords_setTenant (s : State) (t : Nat) (x : Tenant) : (s.setTenant t x).faultRecords = s.faultRecords := rfl
@[simp] theorem State.faultPosts_setTenant (s : State) (t : Nat) (x : Tenant) : (s.setTenant t x).faultPosts = s.faultPosts := rfl
@[simp] theorem State.port_setTenant (s : State) (t : Nat) (x : Tenant) : (s.setTenant t x).port = s.port := rfl
@[simp] theorem State.born_setTenant (s : State) (t : Nat) (x : Tenant) : (s.setTenant t x).born = s.born := rfl
@[simp] theorem State.tests_setTenant (s : State) (t : Nat) (x : Tenant) : (s.setTenant t x).tests = s.tests := rfl

@[simp] theorem State.mem_setQueue (s : State) (q : Nat) (x : Queue) : (s.setQueue q x).mem = s.mem := rfl
@[simp] theorem State.hostMem_setQueue (s : State) (q : Nat) (x : Queue) : (s.setQueue q x).hostMem = s.hostMem := rfl
@[simp] theorem State.peerMem_setQueue (s : State) (q : Nat) (x : Queue) : (s.setQueue q x).peerMem = s.peerMem := rfl
@[simp] theorem State.poison_setQueue (s : State) (q : Nat) (x : Queue) : (s.setQueue q x).poison = s.poison := rfl
@[simp] theorem State.ply_setQueue (s : State) (q : Nat) (x : Queue) : (s.setQueue q x).ply = s.ply := rfl
@[simp] theorem State.tick_setQueue (s : State) (q : Nat) (x : Queue) : (s.setQueue q x).tick = s.tick := rfl
@[simp] theorem State.free_setQueue (s : State) (q : Nat) (x : Queue) : (s.setQueue q x).free = s.free := rfl
@[simp] theorem State.nextId_setQueue (s : State) (q : Nat) (x : Queue) : (s.setQueue q x).nextId = s.nextId := rfl
@[simp] theorem State.inputs_setQueue (s : State) (q : Nat) (x : Queue) : (s.setQueue q x).inputs = s.inputs := rfl
@[simp] theorem State.teams_setQueue (s : State) (q : Nat) (x : Queue) : (s.setQueue q x).teams = s.teams := rfl
@[simp] theorem State.grids_setQueue (s : State) (q : Nat) (x : Queue) : (s.setQueue q x).grids = s.grids := rfl
@[simp] theorem State.cores_setQueue (s : State) (q : Nat) (x : Queue) : (s.setQueue q x).cores = s.cores := rfl
@[simp] theorem State.clusters_setQueue (s : State) (q : Nat) (x : Queue) : (s.setQueue q x).clusters = s.clusters := rfl
@[simp] theorem State.tenants_setQueue (s : State) (q : Nat) (x : Queue) : (s.setQueue q x).tenants = s.tenants := rfl
@[simp] theorem State.reqs_setQueue (s : State) (q : Nat) (x : Queue) : (s.setQueue q x).reqs = s.reqs := rfl
@[simp] theorem State.copies_setQueue (s : State) (q : Nat) (x : Queue) : (s.setQueue q x).copies = s.copies := rfl
@[simp] theorem State.merges_setQueue (s : State) (q : Nat) (x : Queue) : (s.setQueue q x).merges = s.merges := rfl
@[simp] theorem State.commands_setQueue (s : State) (q : Nat) (x : Queue) : (s.setQueue q x).commands = s.commands := rfl
@[simp] theorem State.strings_setQueue (s : State) (q : Nat) (x : Queue) : (s.setQueue q x).strings = s.strings := rfl
@[simp] theorem State.channels_setQueue (s : State) (q : Nat) (x : Queue) : (s.setQueue q x).channels = s.channels := rfl
@[simp] theorem State.solicits_setQueue (s : State) (q : Nat) (x : Queue) : (s.setQueue q x).solicits = s.solicits := rfl
@[simp] theorem State.faultRecords_setQueue (s : State) (q : Nat) (x : Queue) : (s.setQueue q x).faultRecords = s.faultRecords := rfl
@[simp] theorem State.faultPosts_setQueue (s : State) (q : Nat) (x : Queue) : (s.setQueue q x).faultPosts = s.faultPosts := rfl
@[simp] theorem State.port_setQueue (s : State) (q : Nat) (x : Queue) : (s.setQueue q x).port = s.port := rfl
@[simp] theorem State.born_setQueue (s : State) (q : Nat) (x : Queue) : (s.setQueue q x).born = s.born := rfl
@[simp] theorem State.tests_setQueue (s : State) (q : Nat) (x : Queue) : (s.setQueue q x).tests = s.tests := rfl

@[simp] theorem State.mem_setChannel (s : State) (st ch : Nat) (x : Channel) : (s.setChannel st ch x).mem = s.mem := rfl
@[simp] theorem State.hostMem_setChannel (s : State) (st ch : Nat) (x : Channel) : (s.setChannel st ch x).hostMem = s.hostMem := rfl
@[simp] theorem State.peerMem_setChannel (s : State) (st ch : Nat) (x : Channel) : (s.setChannel st ch x).peerMem = s.peerMem := rfl
@[simp] theorem State.poison_setChannel (s : State) (st ch : Nat) (x : Channel) : (s.setChannel st ch x).poison = s.poison := rfl
@[simp] theorem State.ply_setChannel (s : State) (st ch : Nat) (x : Channel) : (s.setChannel st ch x).ply = s.ply := rfl
@[simp] theorem State.tick_setChannel (s : State) (st ch : Nat) (x : Channel) : (s.setChannel st ch x).tick = s.tick := rfl
@[simp] theorem State.free_setChannel (s : State) (st ch : Nat) (x : Channel) : (s.setChannel st ch x).free = s.free := rfl
@[simp] theorem State.nextId_setChannel (s : State) (st ch : Nat) (x : Channel) : (s.setChannel st ch x).nextId = s.nextId := rfl
@[simp] theorem State.inputs_setChannel (s : State) (st ch : Nat) (x : Channel) : (s.setChannel st ch x).inputs = s.inputs := rfl
@[simp] theorem State.teams_setChannel (s : State) (st ch : Nat) (x : Channel) : (s.setChannel st ch x).teams = s.teams := rfl
@[simp] theorem State.grids_setChannel (s : State) (st ch : Nat) (x : Channel) : (s.setChannel st ch x).grids = s.grids := rfl
@[simp] theorem State.cores_setChannel (s : State) (st ch : Nat) (x : Channel) : (s.setChannel st ch x).cores = s.cores := rfl
@[simp] theorem State.clusters_setChannel (s : State) (st ch : Nat) (x : Channel) : (s.setChannel st ch x).clusters = s.clusters := rfl
@[simp] theorem State.tenants_setChannel (s : State) (st ch : Nat) (x : Channel) : (s.setChannel st ch x).tenants = s.tenants := rfl
@[simp] theorem State.queues_setChannel (s : State) (st ch : Nat) (x : Channel) : (s.setChannel st ch x).queues = s.queues := rfl
@[simp] theorem State.reqs_setChannel (s : State) (st ch : Nat) (x : Channel) : (s.setChannel st ch x).reqs = s.reqs := rfl
@[simp] theorem State.copies_setChannel (s : State) (st ch : Nat) (x : Channel) : (s.setChannel st ch x).copies = s.copies := rfl
@[simp] theorem State.merges_setChannel (s : State) (st ch : Nat) (x : Channel) : (s.setChannel st ch x).merges = s.merges := rfl
@[simp] theorem State.commands_setChannel (s : State) (st ch : Nat) (x : Channel) : (s.setChannel st ch x).commands = s.commands := rfl
@[simp] theorem State.strings_setChannel (s : State) (st ch : Nat) (x : Channel) : (s.setChannel st ch x).strings = s.strings := rfl
@[simp] theorem State.solicits_setChannel (s : State) (st ch : Nat) (x : Channel) : (s.setChannel st ch x).solicits = s.solicits := rfl
@[simp] theorem State.faultRecords_setChannel (s : State) (st ch : Nat) (x : Channel) : (s.setChannel st ch x).faultRecords = s.faultRecords := rfl
@[simp] theorem State.faultPosts_setChannel (s : State) (st ch : Nat) (x : Channel) : (s.setChannel st ch x).faultPosts = s.faultPosts := rfl
@[simp] theorem State.port_setChannel (s : State) (st ch : Nat) (x : Channel) : (s.setChannel st ch x).port = s.port := rfl
@[simp] theorem State.born_setChannel (s : State) (st ch : Nat) (x : Channel) : (s.setChannel st ch x).born = s.born := rfl
@[simp] theorem State.tests_setChannel (s : State) (st ch : Nat) (x : Channel) : (s.setChannel st ch x).tests = s.tests := rfl

@[simp] theorem State.mem_poisonLine (s : State) (l : Nat) : (s.poisonLine l).mem = s.mem := rfl
@[simp] theorem State.hostMem_poisonLine (s : State) (l : Nat) : (s.poisonLine l).hostMem = s.hostMem := rfl
@[simp] theorem State.peerMem_poisonLine (s : State) (l : Nat) : (s.poisonLine l).peerMem = s.peerMem := rfl
@[simp] theorem State.ply_poisonLine (s : State) (l : Nat) : (s.poisonLine l).ply = s.ply := rfl
@[simp] theorem State.tick_poisonLine (s : State) (l : Nat) : (s.poisonLine l).tick = s.tick := rfl
@[simp] theorem State.free_poisonLine (s : State) (l : Nat) : (s.poisonLine l).free = s.free := rfl
@[simp] theorem State.nextId_poisonLine (s : State) (l : Nat) : (s.poisonLine l).nextId = s.nextId := rfl
@[simp] theorem State.inputs_poisonLine (s : State) (l : Nat) : (s.poisonLine l).inputs = s.inputs := rfl
@[simp] theorem State.teams_poisonLine (s : State) (l : Nat) : (s.poisonLine l).teams = s.teams := rfl
@[simp] theorem State.grids_poisonLine (s : State) (l : Nat) : (s.poisonLine l).grids = s.grids := rfl
@[simp] theorem State.cores_poisonLine (s : State) (l : Nat) : (s.poisonLine l).cores = s.cores := rfl
@[simp] theorem State.clusters_poisonLine (s : State) (l : Nat) : (s.poisonLine l).clusters = s.clusters := rfl
@[simp] theorem State.tenants_poisonLine (s : State) (l : Nat) : (s.poisonLine l).tenants = s.tenants := rfl
@[simp] theorem State.queues_poisonLine (s : State) (l : Nat) : (s.poisonLine l).queues = s.queues := rfl
@[simp] theorem State.reqs_poisonLine (s : State) (l : Nat) : (s.poisonLine l).reqs = s.reqs := rfl
@[simp] theorem State.copies_poisonLine (s : State) (l : Nat) : (s.poisonLine l).copies = s.copies := rfl
@[simp] theorem State.merges_poisonLine (s : State) (l : Nat) : (s.poisonLine l).merges = s.merges := rfl
@[simp] theorem State.commands_poisonLine (s : State) (l : Nat) : (s.poisonLine l).commands = s.commands := rfl
@[simp] theorem State.strings_poisonLine (s : State) (l : Nat) : (s.poisonLine l).strings = s.strings := rfl
@[simp] theorem State.channels_poisonLine (s : State) (l : Nat) : (s.poisonLine l).channels = s.channels := rfl
@[simp] theorem State.solicits_poisonLine (s : State) (l : Nat) : (s.poisonLine l).solicits = s.solicits := rfl
@[simp] theorem State.faultRecords_poisonLine (s : State) (l : Nat) : (s.poisonLine l).faultRecords = s.faultRecords := rfl
@[simp] theorem State.faultPosts_poisonLine (s : State) (l : Nat) : (s.poisonLine l).faultPosts = s.faultPosts := rfl
@[simp] theorem State.port_poisonLine (s : State) (l : Nat) : (s.poisonLine l).port = s.port := rfl
@[simp] theorem State.born_poisonLine (s : State) (l : Nat) : (s.poisonLine l).born = s.born := rfl
@[simp] theorem State.tests_poisonLine (s : State) (l : Nat) : (s.poisonLine l).tests = s.tests := rfl

@[simp] theorem State.mem_clearPoison (s : State) (l : Nat) : (s.clearPoison l).mem = s.mem := rfl
@[simp] theorem State.hostMem_clearPoison (s : State) (l : Nat) : (s.clearPoison l).hostMem = s.hostMem := rfl
@[simp] theorem State.peerMem_clearPoison (s : State) (l : Nat) : (s.clearPoison l).peerMem = s.peerMem := rfl
@[simp] theorem State.ply_clearPoison (s : State) (l : Nat) : (s.clearPoison l).ply = s.ply := rfl
@[simp] theorem State.tick_clearPoison (s : State) (l : Nat) : (s.clearPoison l).tick = s.tick := rfl
@[simp] theorem State.free_clearPoison (s : State) (l : Nat) : (s.clearPoison l).free = s.free := rfl
@[simp] theorem State.nextId_clearPoison (s : State) (l : Nat) : (s.clearPoison l).nextId = s.nextId := rfl
@[simp] theorem State.inputs_clearPoison (s : State) (l : Nat) : (s.clearPoison l).inputs = s.inputs := rfl
@[simp] theorem State.teams_clearPoison (s : State) (l : Nat) : (s.clearPoison l).teams = s.teams := rfl
@[simp] theorem State.grids_clearPoison (s : State) (l : Nat) : (s.clearPoison l).grids = s.grids := rfl
@[simp] theorem State.cores_clearPoison (s : State) (l : Nat) : (s.clearPoison l).cores = s.cores := rfl
@[simp] theorem State.clusters_clearPoison (s : State) (l : Nat) : (s.clearPoison l).clusters = s.clusters := rfl
@[simp] theorem State.tenants_clearPoison (s : State) (l : Nat) : (s.clearPoison l).tenants = s.tenants := rfl
@[simp] theorem State.queues_clearPoison (s : State) (l : Nat) : (s.clearPoison l).queues = s.queues := rfl
@[simp] theorem State.reqs_clearPoison (s : State) (l : Nat) : (s.clearPoison l).reqs = s.reqs := rfl
@[simp] theorem State.copies_clearPoison (s : State) (l : Nat) : (s.clearPoison l).copies = s.copies := rfl
@[simp] theorem State.merges_clearPoison (s : State) (l : Nat) : (s.clearPoison l).merges = s.merges := rfl
@[simp] theorem State.commands_clearPoison (s : State) (l : Nat) : (s.clearPoison l).commands = s.commands := rfl
@[simp] theorem State.strings_clearPoison (s : State) (l : Nat) : (s.clearPoison l).strings = s.strings := rfl
@[simp] theorem State.channels_clearPoison (s : State) (l : Nat) : (s.clearPoison l).channels = s.channels := rfl
@[simp] theorem State.solicits_clearPoison (s : State) (l : Nat) : (s.clearPoison l).solicits = s.solicits := rfl
@[simp] theorem State.faultRecords_clearPoison (s : State) (l : Nat) : (s.clearPoison l).faultRecords = s.faultRecords := rfl
@[simp] theorem State.faultPosts_clearPoison (s : State) (l : Nat) : (s.clearPoison l).faultPosts = s.faultPosts := rfl
@[simp] theorem State.port_clearPoison (s : State) (l : Nat) : (s.clearPoison l).port = s.port := rfl
@[simp] theorem State.born_clearPoison (s : State) (l : Nat) : (s.clearPoison l).born = s.born := rfl
@[simp] theorem State.tests_clearPoison (s : State) (l : Nat) : (s.clearPoison l).tests = s.tests := rfl

@[simp] theorem State.mem_bump (s : State) : (s.bump).mem = s.mem := rfl
@[simp] theorem State.hostMem_bump (s : State) : (s.bump).hostMem = s.hostMem := rfl
@[simp] theorem State.peerMem_bump (s : State) : (s.bump).peerMem = s.peerMem := rfl
@[simp] theorem State.poison_bump (s : State) : (s.bump).poison = s.poison := rfl
@[simp] theorem State.ply_bump (s : State) : (s.bump).ply = s.ply := rfl
@[simp] theorem State.tick_bump (s : State) : (s.bump).tick = s.tick := rfl
@[simp] theorem State.free_bump (s : State) : (s.bump).free = s.free := rfl
@[simp] theorem State.inputs_bump (s : State) : (s.bump).inputs = s.inputs := rfl
@[simp] theorem State.teams_bump (s : State) : (s.bump).teams = s.teams := rfl
@[simp] theorem State.grids_bump (s : State) : (s.bump).grids = s.grids := rfl
@[simp] theorem State.cores_bump (s : State) : (s.bump).cores = s.cores := rfl
@[simp] theorem State.clusters_bump (s : State) : (s.bump).clusters = s.clusters := rfl
@[simp] theorem State.tenants_bump (s : State) : (s.bump).tenants = s.tenants := rfl
@[simp] theorem State.queues_bump (s : State) : (s.bump).queues = s.queues := rfl
@[simp] theorem State.reqs_bump (s : State) : (s.bump).reqs = s.reqs := rfl
@[simp] theorem State.copies_bump (s : State) : (s.bump).copies = s.copies := rfl
@[simp] theorem State.merges_bump (s : State) : (s.bump).merges = s.merges := rfl
@[simp] theorem State.commands_bump (s : State) : (s.bump).commands = s.commands := rfl
@[simp] theorem State.strings_bump (s : State) : (s.bump).strings = s.strings := rfl
@[simp] theorem State.channels_bump (s : State) : (s.bump).channels = s.channels := rfl
@[simp] theorem State.solicits_bump (s : State) : (s.bump).solicits = s.solicits := rfl
@[simp] theorem State.faultRecords_bump (s : State) : (s.bump).faultRecords = s.faultRecords := rfl
@[simp] theorem State.faultPosts_bump (s : State) : (s.bump).faultPosts = s.faultPosts := rfl
@[simp] theorem State.port_bump (s : State) : (s.bump).port = s.port := rfl
@[simp] theorem State.born_bump (s : State) : (s.bump).born = s.born := rfl
@[simp] theorem State.tests_bump (s : State) : (s.bump).tests = s.tests := rfl

@[simp] theorem State.mem_endPly (s : State) : (s.endPly).mem = s.mem := rfl
@[simp] theorem State.hostMem_endPly (s : State) : (s.endPly).hostMem = s.hostMem := rfl
@[simp] theorem State.peerMem_endPly (s : State) : (s.endPly).peerMem = s.peerMem := rfl
@[simp] theorem State.poison_endPly (s : State) : (s.endPly).poison = s.poison := rfl
@[simp] theorem State.tick_endPly (s : State) : (s.endPly).tick = s.tick := rfl
@[simp] theorem State.free_endPly (s : State) : (s.endPly).free = s.free := rfl
@[simp] theorem State.nextId_endPly (s : State) : (s.endPly).nextId = s.nextId := rfl
@[simp] theorem State.inputs_endPly (s : State) : (s.endPly).inputs = s.inputs := rfl
@[simp] theorem State.teams_endPly (s : State) : (s.endPly).teams = s.teams := rfl
@[simp] theorem State.grids_endPly (s : State) : (s.endPly).grids = s.grids := rfl
@[simp] theorem State.cores_endPly (s : State) : (s.endPly).cores = s.cores := rfl
@[simp] theorem State.clusters_endPly (s : State) : (s.endPly).clusters = s.clusters := rfl
@[simp] theorem State.tenants_endPly (s : State) : (s.endPly).tenants = s.tenants := rfl
@[simp] theorem State.queues_endPly (s : State) : (s.endPly).queues = s.queues := rfl
@[simp] theorem State.reqs_endPly (s : State) : (s.endPly).reqs = s.reqs := rfl
@[simp] theorem State.copies_endPly (s : State) : (s.endPly).copies = s.copies := rfl
@[simp] theorem State.merges_endPly (s : State) : (s.endPly).merges = s.merges := rfl
@[simp] theorem State.commands_endPly (s : State) : (s.endPly).commands = s.commands := rfl
@[simp] theorem State.strings_endPly (s : State) : (s.endPly).strings = s.strings := rfl
@[simp] theorem State.channels_endPly (s : State) : (s.endPly).channels = s.channels := rfl
@[simp] theorem State.solicits_endPly (s : State) : (s.endPly).solicits = s.solicits := rfl
@[simp] theorem State.faultRecords_endPly (s : State) : (s.endPly).faultRecords = s.faultRecords := rfl
@[simp] theorem State.faultPosts_endPly (s : State) : (s.endPly).faultPosts = s.faultPosts := rfl
@[simp] theorem State.port_endPly (s : State) : (s.endPly).port = s.port := rfl
@[simp] theorem State.born_endPly (s : State) : (s.endPly).born = s.born := rfl
@[simp] theorem State.tests_endPly (s : State) : (s.endPly).tests = s.tests := rfl

@[simp] theorem State.mem_addReq (s : State) (r : Req) : (s.addReq r).mem = s.mem := rfl
@[simp] theorem State.hostMem_addReq (s : State) (r : Req) : (s.addReq r).hostMem = s.hostMem := rfl
@[simp] theorem State.peerMem_addReq (s : State) (r : Req) : (s.addReq r).peerMem = s.peerMem := rfl
@[simp] theorem State.poison_addReq (s : State) (r : Req) : (s.addReq r).poison = s.poison := rfl
@[simp] theorem State.ply_addReq (s : State) (r : Req) : (s.addReq r).ply = s.ply := rfl
@[simp] theorem State.tick_addReq (s : State) (r : Req) : (s.addReq r).tick = s.tick := rfl
@[simp] theorem State.free_addReq (s : State) (r : Req) : (s.addReq r).free = s.free := rfl
@[simp] theorem State.inputs_addReq (s : State) (r : Req) : (s.addReq r).inputs = s.inputs := rfl
@[simp] theorem State.teams_addReq (s : State) (r : Req) : (s.addReq r).teams = s.teams := rfl
@[simp] theorem State.grids_addReq (s : State) (r : Req) : (s.addReq r).grids = s.grids := rfl
@[simp] theorem State.cores_addReq (s : State) (r : Req) : (s.addReq r).cores = s.cores := rfl
@[simp] theorem State.clusters_addReq (s : State) (r : Req) : (s.addReq r).clusters = s.clusters := rfl
@[simp] theorem State.tenants_addReq (s : State) (r : Req) : (s.addReq r).tenants = s.tenants := rfl
@[simp] theorem State.queues_addReq (s : State) (r : Req) : (s.addReq r).queues = s.queues := rfl
@[simp] theorem State.copies_addReq (s : State) (r : Req) : (s.addReq r).copies = s.copies := rfl
@[simp] theorem State.merges_addReq (s : State) (r : Req) : (s.addReq r).merges = s.merges := rfl
@[simp] theorem State.commands_addReq (s : State) (r : Req) : (s.addReq r).commands = s.commands := rfl
@[simp] theorem State.strings_addReq (s : State) (r : Req) : (s.addReq r).strings = s.strings := rfl
@[simp] theorem State.channels_addReq (s : State) (r : Req) : (s.addReq r).channels = s.channels := rfl
@[simp] theorem State.solicits_addReq (s : State) (r : Req) : (s.addReq r).solicits = s.solicits := rfl
@[simp] theorem State.faultRecords_addReq (s : State) (r : Req) : (s.addReq r).faultRecords = s.faultRecords := rfl
@[simp] theorem State.faultPosts_addReq (s : State) (r : Req) : (s.addReq r).faultPosts = s.faultPosts := rfl
@[simp] theorem State.port_addReq (s : State) (r : Req) : (s.addReq r).port = s.port := rfl
@[simp] theorem State.born_addReq (s : State) (r : Req) : (s.addReq r).born = s.born := rfl
@[simp] theorem State.tests_addReq (s : State) (r : Req) : (s.addReq r).tests = s.tests := rfl

@[simp] theorem State.mem_modReq (s : State) (id : Nat) (f : Req → Req) : (s.modReq id f).mem = s.mem := rfl
@[simp] theorem State.hostMem_modReq (s : State) (id : Nat) (f : Req → Req) : (s.modReq id f).hostMem = s.hostMem := rfl
@[simp] theorem State.peerMem_modReq (s : State) (id : Nat) (f : Req → Req) : (s.modReq id f).peerMem = s.peerMem := rfl
@[simp] theorem State.poison_modReq (s : State) (id : Nat) (f : Req → Req) : (s.modReq id f).poison = s.poison := rfl
@[simp] theorem State.ply_modReq (s : State) (id : Nat) (f : Req → Req) : (s.modReq id f).ply = s.ply := rfl
@[simp] theorem State.tick_modReq (s : State) (id : Nat) (f : Req → Req) : (s.modReq id f).tick = s.tick := rfl
@[simp] theorem State.free_modReq (s : State) (id : Nat) (f : Req → Req) : (s.modReq id f).free = s.free := rfl
@[simp] theorem State.nextId_modReq (s : State) (id : Nat) (f : Req → Req) : (s.modReq id f).nextId = s.nextId := rfl
@[simp] theorem State.inputs_modReq (s : State) (id : Nat) (f : Req → Req) : (s.modReq id f).inputs = s.inputs := rfl
@[simp] theorem State.teams_modReq (s : State) (id : Nat) (f : Req → Req) : (s.modReq id f).teams = s.teams := rfl
@[simp] theorem State.grids_modReq (s : State) (id : Nat) (f : Req → Req) : (s.modReq id f).grids = s.grids := rfl
@[simp] theorem State.cores_modReq (s : State) (id : Nat) (f : Req → Req) : (s.modReq id f).cores = s.cores := rfl
@[simp] theorem State.clusters_modReq (s : State) (id : Nat) (f : Req → Req) : (s.modReq id f).clusters = s.clusters := rfl
@[simp] theorem State.tenants_modReq (s : State) (id : Nat) (f : Req → Req) : (s.modReq id f).tenants = s.tenants := rfl
@[simp] theorem State.queues_modReq (s : State) (id : Nat) (f : Req → Req) : (s.modReq id f).queues = s.queues := rfl
@[simp] theorem State.copies_modReq (s : State) (id : Nat) (f : Req → Req) : (s.modReq id f).copies = s.copies := rfl
@[simp] theorem State.merges_modReq (s : State) (id : Nat) (f : Req → Req) : (s.modReq id f).merges = s.merges := rfl
@[simp] theorem State.commands_modReq (s : State) (id : Nat) (f : Req → Req) : (s.modReq id f).commands = s.commands := rfl
@[simp] theorem State.strings_modReq (s : State) (id : Nat) (f : Req → Req) : (s.modReq id f).strings = s.strings := rfl
@[simp] theorem State.channels_modReq (s : State) (id : Nat) (f : Req → Req) : (s.modReq id f).channels = s.channels := rfl
@[simp] theorem State.solicits_modReq (s : State) (id : Nat) (f : Req → Req) : (s.modReq id f).solicits = s.solicits := rfl
@[simp] theorem State.faultRecords_modReq (s : State) (id : Nat) (f : Req → Req) : (s.modReq id f).faultRecords = s.faultRecords := rfl
@[simp] theorem State.faultPosts_modReq (s : State) (id : Nat) (f : Req → Req) : (s.modReq id f).faultPosts = s.faultPosts := rfl
@[simp] theorem State.port_modReq (s : State) (id : Nat) (f : Req → Req) : (s.modReq id f).port = s.port := rfl
@[simp] theorem State.born_modReq (s : State) (id : Nat) (f : Req → Req) : (s.modReq id f).born = s.born := rfl
@[simp] theorem State.tests_modReq (s : State) (id : Nat) (f : Req → Req) : (s.modReq id f).tests = s.tests := rfl

@[simp] theorem State.mem_modCopy (s : State) (id : Nat) (f : Copy → Copy) : (s.modCopy id f).mem = s.mem := rfl
@[simp] theorem State.hostMem_modCopy (s : State) (id : Nat) (f : Copy → Copy) : (s.modCopy id f).hostMem = s.hostMem := rfl
@[simp] theorem State.peerMem_modCopy (s : State) (id : Nat) (f : Copy → Copy) : (s.modCopy id f).peerMem = s.peerMem := rfl
@[simp] theorem State.poison_modCopy (s : State) (id : Nat) (f : Copy → Copy) : (s.modCopy id f).poison = s.poison := rfl
@[simp] theorem State.ply_modCopy (s : State) (id : Nat) (f : Copy → Copy) : (s.modCopy id f).ply = s.ply := rfl
@[simp] theorem State.tick_modCopy (s : State) (id : Nat) (f : Copy → Copy) : (s.modCopy id f).tick = s.tick := rfl
@[simp] theorem State.free_modCopy (s : State) (id : Nat) (f : Copy → Copy) : (s.modCopy id f).free = s.free := rfl
@[simp] theorem State.nextId_modCopy (s : State) (id : Nat) (f : Copy → Copy) : (s.modCopy id f).nextId = s.nextId := rfl
@[simp] theorem State.inputs_modCopy (s : State) (id : Nat) (f : Copy → Copy) : (s.modCopy id f).inputs = s.inputs := rfl
@[simp] theorem State.teams_modCopy (s : State) (id : Nat) (f : Copy → Copy) : (s.modCopy id f).teams = s.teams := rfl
@[simp] theorem State.grids_modCopy (s : State) (id : Nat) (f : Copy → Copy) : (s.modCopy id f).grids = s.grids := rfl
@[simp] theorem State.cores_modCopy (s : State) (id : Nat) (f : Copy → Copy) : (s.modCopy id f).cores = s.cores := rfl
@[simp] theorem State.clusters_modCopy (s : State) (id : Nat) (f : Copy → Copy) : (s.modCopy id f).clusters = s.clusters := rfl
@[simp] theorem State.tenants_modCopy (s : State) (id : Nat) (f : Copy → Copy) : (s.modCopy id f).tenants = s.tenants := rfl
@[simp] theorem State.queues_modCopy (s : State) (id : Nat) (f : Copy → Copy) : (s.modCopy id f).queues = s.queues := rfl
@[simp] theorem State.reqs_modCopy (s : State) (id : Nat) (f : Copy → Copy) : (s.modCopy id f).reqs = s.reqs := rfl
@[simp] theorem State.merges_modCopy (s : State) (id : Nat) (f : Copy → Copy) : (s.modCopy id f).merges = s.merges := rfl
@[simp] theorem State.commands_modCopy (s : State) (id : Nat) (f : Copy → Copy) : (s.modCopy id f).commands = s.commands := rfl
@[simp] theorem State.strings_modCopy (s : State) (id : Nat) (f : Copy → Copy) : (s.modCopy id f).strings = s.strings := rfl
@[simp] theorem State.channels_modCopy (s : State) (id : Nat) (f : Copy → Copy) : (s.modCopy id f).channels = s.channels := rfl
@[simp] theorem State.solicits_modCopy (s : State) (id : Nat) (f : Copy → Copy) : (s.modCopy id f).solicits = s.solicits := rfl
@[simp] theorem State.faultRecords_modCopy (s : State) (id : Nat) (f : Copy → Copy) : (s.modCopy id f).faultRecords = s.faultRecords := rfl
@[simp] theorem State.faultPosts_modCopy (s : State) (id : Nat) (f : Copy → Copy) : (s.modCopy id f).faultPosts = s.faultPosts := rfl
@[simp] theorem State.port_modCopy (s : State) (id : Nat) (f : Copy → Copy) : (s.modCopy id f).port = s.port := rfl
@[simp] theorem State.born_modCopy (s : State) (id : Nat) (f : Copy → Copy) : (s.modCopy id f).born = s.born := rfl
@[simp] theorem State.tests_modCopy (s : State) (id : Nat) (f : Copy → Copy) : (s.modCopy id f).tests = s.tests := rfl

@[simp] theorem State.mem_modCommand (s : State) (id : Nat) (f : NmCommand → NmCommand) : (s.modCommand id f).mem = s.mem := rfl
@[simp] theorem State.hostMem_modCommand (s : State) (id : Nat) (f : NmCommand → NmCommand) : (s.modCommand id f).hostMem = s.hostMem := rfl
@[simp] theorem State.peerMem_modCommand (s : State) (id : Nat) (f : NmCommand → NmCommand) : (s.modCommand id f).peerMem = s.peerMem := rfl
@[simp] theorem State.poison_modCommand (s : State) (id : Nat) (f : NmCommand → NmCommand) : (s.modCommand id f).poison = s.poison := rfl
@[simp] theorem State.ply_modCommand (s : State) (id : Nat) (f : NmCommand → NmCommand) : (s.modCommand id f).ply = s.ply := rfl
@[simp] theorem State.tick_modCommand (s : State) (id : Nat) (f : NmCommand → NmCommand) : (s.modCommand id f).tick = s.tick := rfl
@[simp] theorem State.free_modCommand (s : State) (id : Nat) (f : NmCommand → NmCommand) : (s.modCommand id f).free = s.free := rfl
@[simp] theorem State.nextId_modCommand (s : State) (id : Nat) (f : NmCommand → NmCommand) : (s.modCommand id f).nextId = s.nextId := rfl
@[simp] theorem State.inputs_modCommand (s : State) (id : Nat) (f : NmCommand → NmCommand) : (s.modCommand id f).inputs = s.inputs := rfl
@[simp] theorem State.teams_modCommand (s : State) (id : Nat) (f : NmCommand → NmCommand) : (s.modCommand id f).teams = s.teams := rfl
@[simp] theorem State.grids_modCommand (s : State) (id : Nat) (f : NmCommand → NmCommand) : (s.modCommand id f).grids = s.grids := rfl
@[simp] theorem State.cores_modCommand (s : State) (id : Nat) (f : NmCommand → NmCommand) : (s.modCommand id f).cores = s.cores := rfl
@[simp] theorem State.clusters_modCommand (s : State) (id : Nat) (f : NmCommand → NmCommand) : (s.modCommand id f).clusters = s.clusters := rfl
@[simp] theorem State.tenants_modCommand (s : State) (id : Nat) (f : NmCommand → NmCommand) : (s.modCommand id f).tenants = s.tenants := rfl
@[simp] theorem State.queues_modCommand (s : State) (id : Nat) (f : NmCommand → NmCommand) : (s.modCommand id f).queues = s.queues := rfl
@[simp] theorem State.reqs_modCommand (s : State) (id : Nat) (f : NmCommand → NmCommand) : (s.modCommand id f).reqs = s.reqs := rfl
@[simp] theorem State.copies_modCommand (s : State) (id : Nat) (f : NmCommand → NmCommand) : (s.modCommand id f).copies = s.copies := rfl
@[simp] theorem State.merges_modCommand (s : State) (id : Nat) (f : NmCommand → NmCommand) : (s.modCommand id f).merges = s.merges := rfl
@[simp] theorem State.strings_modCommand (s : State) (id : Nat) (f : NmCommand → NmCommand) : (s.modCommand id f).strings = s.strings := rfl
@[simp] theorem State.channels_modCommand (s : State) (id : Nat) (f : NmCommand → NmCommand) : (s.modCommand id f).channels = s.channels := rfl
@[simp] theorem State.solicits_modCommand (s : State) (id : Nat) (f : NmCommand → NmCommand) : (s.modCommand id f).solicits = s.solicits := rfl
@[simp] theorem State.faultRecords_modCommand (s : State) (id : Nat) (f : NmCommand → NmCommand) : (s.modCommand id f).faultRecords = s.faultRecords := rfl
@[simp] theorem State.faultPosts_modCommand (s : State) (id : Nat) (f : NmCommand → NmCommand) : (s.modCommand id f).faultPosts = s.faultPosts := rfl
@[simp] theorem State.port_modCommand (s : State) (id : Nat) (f : NmCommand → NmCommand) : (s.modCommand id f).port = s.port := rfl
@[simp] theorem State.born_modCommand (s : State) (id : Nat) (f : NmCommand → NmCommand) : (s.modCommand id f).born = s.born := rfl
@[simp] theorem State.tests_modCommand (s : State) (id : Nat) (f : NmCommand → NmCommand) : (s.modCommand id f).tests = s.tests := rfl

@[simp] theorem State.mem_modSolicit (s : State) (id : Nat) (f : Solicit → Solicit) : (s.modSolicit id f).mem = s.mem := rfl
@[simp] theorem State.hostMem_modSolicit (s : State) (id : Nat) (f : Solicit → Solicit) : (s.modSolicit id f).hostMem = s.hostMem := rfl
@[simp] theorem State.peerMem_modSolicit (s : State) (id : Nat) (f : Solicit → Solicit) : (s.modSolicit id f).peerMem = s.peerMem := rfl
@[simp] theorem State.poison_modSolicit (s : State) (id : Nat) (f : Solicit → Solicit) : (s.modSolicit id f).poison = s.poison := rfl
@[simp] theorem State.ply_modSolicit (s : State) (id : Nat) (f : Solicit → Solicit) : (s.modSolicit id f).ply = s.ply := rfl
@[simp] theorem State.tick_modSolicit (s : State) (id : Nat) (f : Solicit → Solicit) : (s.modSolicit id f).tick = s.tick := rfl
@[simp] theorem State.free_modSolicit (s : State) (id : Nat) (f : Solicit → Solicit) : (s.modSolicit id f).free = s.free := rfl
@[simp] theorem State.nextId_modSolicit (s : State) (id : Nat) (f : Solicit → Solicit) : (s.modSolicit id f).nextId = s.nextId := rfl
@[simp] theorem State.inputs_modSolicit (s : State) (id : Nat) (f : Solicit → Solicit) : (s.modSolicit id f).inputs = s.inputs := rfl
@[simp] theorem State.teams_modSolicit (s : State) (id : Nat) (f : Solicit → Solicit) : (s.modSolicit id f).teams = s.teams := rfl
@[simp] theorem State.grids_modSolicit (s : State) (id : Nat) (f : Solicit → Solicit) : (s.modSolicit id f).grids = s.grids := rfl
@[simp] theorem State.cores_modSolicit (s : State) (id : Nat) (f : Solicit → Solicit) : (s.modSolicit id f).cores = s.cores := rfl
@[simp] theorem State.clusters_modSolicit (s : State) (id : Nat) (f : Solicit → Solicit) : (s.modSolicit id f).clusters = s.clusters := rfl
@[simp] theorem State.tenants_modSolicit (s : State) (id : Nat) (f : Solicit → Solicit) : (s.modSolicit id f).tenants = s.tenants := rfl
@[simp] theorem State.queues_modSolicit (s : State) (id : Nat) (f : Solicit → Solicit) : (s.modSolicit id f).queues = s.queues := rfl
@[simp] theorem State.reqs_modSolicit (s : State) (id : Nat) (f : Solicit → Solicit) : (s.modSolicit id f).reqs = s.reqs := rfl
@[simp] theorem State.copies_modSolicit (s : State) (id : Nat) (f : Solicit → Solicit) : (s.modSolicit id f).copies = s.copies := rfl
@[simp] theorem State.merges_modSolicit (s : State) (id : Nat) (f : Solicit → Solicit) : (s.modSolicit id f).merges = s.merges := rfl
@[simp] theorem State.commands_modSolicit (s : State) (id : Nat) (f : Solicit → Solicit) : (s.modSolicit id f).commands = s.commands := rfl
@[simp] theorem State.strings_modSolicit (s : State) (id : Nat) (f : Solicit → Solicit) : (s.modSolicit id f).strings = s.strings := rfl
@[simp] theorem State.channels_modSolicit (s : State) (id : Nat) (f : Solicit → Solicit) : (s.modSolicit id f).channels = s.channels := rfl
@[simp] theorem State.faultRecords_modSolicit (s : State) (id : Nat) (f : Solicit → Solicit) : (s.modSolicit id f).faultRecords = s.faultRecords := rfl
@[simp] theorem State.faultPosts_modSolicit (s : State) (id : Nat) (f : Solicit → Solicit) : (s.modSolicit id f).faultPosts = s.faultPosts := rfl
@[simp] theorem State.port_modSolicit (s : State) (id : Nat) (f : Solicit → Solicit) : (s.modSolicit id f).port = s.port := rfl
@[simp] theorem State.born_modSolicit (s : State) (id : Nat) (f : Solicit → Solicit) : (s.modSolicit id f).born = s.born := rfl
@[simp] theorem State.tests_modSolicit (s : State) (id : Nat) (f : Solicit → Solicit) : (s.modSolicit id f).tests = s.tests := rfl

@[simp] theorem State.mem_modStr (s : State) (key : Nat) (f : Str → Str) : (s.modStr key f).mem = s.mem := rfl
@[simp] theorem State.hostMem_modStr (s : State) (key : Nat) (f : Str → Str) : (s.modStr key f).hostMem = s.hostMem := rfl
@[simp] theorem State.peerMem_modStr (s : State) (key : Nat) (f : Str → Str) : (s.modStr key f).peerMem = s.peerMem := rfl
@[simp] theorem State.poison_modStr (s : State) (key : Nat) (f : Str → Str) : (s.modStr key f).poison = s.poison := rfl
@[simp] theorem State.ply_modStr (s : State) (key : Nat) (f : Str → Str) : (s.modStr key f).ply = s.ply := rfl
@[simp] theorem State.tick_modStr (s : State) (key : Nat) (f : Str → Str) : (s.modStr key f).tick = s.tick := rfl
@[simp] theorem State.free_modStr (s : State) (key : Nat) (f : Str → Str) : (s.modStr key f).free = s.free := rfl
@[simp] theorem State.nextId_modStr (s : State) (key : Nat) (f : Str → Str) : (s.modStr key f).nextId = s.nextId := rfl
@[simp] theorem State.inputs_modStr (s : State) (key : Nat) (f : Str → Str) : (s.modStr key f).inputs = s.inputs := rfl
@[simp] theorem State.teams_modStr (s : State) (key : Nat) (f : Str → Str) : (s.modStr key f).teams = s.teams := rfl
@[simp] theorem State.grids_modStr (s : State) (key : Nat) (f : Str → Str) : (s.modStr key f).grids = s.grids := rfl
@[simp] theorem State.cores_modStr (s : State) (key : Nat) (f : Str → Str) : (s.modStr key f).cores = s.cores := rfl
@[simp] theorem State.clusters_modStr (s : State) (key : Nat) (f : Str → Str) : (s.modStr key f).clusters = s.clusters := rfl
@[simp] theorem State.tenants_modStr (s : State) (key : Nat) (f : Str → Str) : (s.modStr key f).tenants = s.tenants := rfl
@[simp] theorem State.queues_modStr (s : State) (key : Nat) (f : Str → Str) : (s.modStr key f).queues = s.queues := rfl
@[simp] theorem State.reqs_modStr (s : State) (key : Nat) (f : Str → Str) : (s.modStr key f).reqs = s.reqs := rfl
@[simp] theorem State.copies_modStr (s : State) (key : Nat) (f : Str → Str) : (s.modStr key f).copies = s.copies := rfl
@[simp] theorem State.merges_modStr (s : State) (key : Nat) (f : Str → Str) : (s.modStr key f).merges = s.merges := rfl
@[simp] theorem State.commands_modStr (s : State) (key : Nat) (f : Str → Str) : (s.modStr key f).commands = s.commands := rfl
@[simp] theorem State.channels_modStr (s : State) (key : Nat) (f : Str → Str) : (s.modStr key f).channels = s.channels := rfl
@[simp] theorem State.solicits_modStr (s : State) (key : Nat) (f : Str → Str) : (s.modStr key f).solicits = s.solicits := rfl
@[simp] theorem State.faultRecords_modStr (s : State) (key : Nat) (f : Str → Str) : (s.modStr key f).faultRecords = s.faultRecords := rfl
@[simp] theorem State.faultPosts_modStr (s : State) (key : Nat) (f : Str → Str) : (s.modStr key f).faultPosts = s.faultPosts := rfl
@[simp] theorem State.port_modStr (s : State) (key : Nat) (f : Str → Str) : (s.modStr key f).port = s.port := rfl
@[simp] theorem State.born_modStr (s : State) (key : Nat) (f : Str → Str) : (s.modStr key f).born = s.born := rfl
@[simp] theorem State.tests_modStr (s : State) (key : Nat) (f : Str → Str) : (s.modStr key f).tests = s.tests := rfl

@[simp] theorem State.mem_setSplicer (s : State) (st : Nat) (x : Splicer) : (s.setSplicer st x).mem = s.mem := rfl
@[simp] theorem State.hostMem_setSplicer (s : State) (st : Nat) (x : Splicer) : (s.setSplicer st x).hostMem = s.hostMem := rfl
@[simp] theorem State.peerMem_setSplicer (s : State) (st : Nat) (x : Splicer) : (s.setSplicer st x).peerMem = s.peerMem := rfl
@[simp] theorem State.poison_setSplicer (s : State) (st : Nat) (x : Splicer) : (s.setSplicer st x).poison = s.poison := rfl
@[simp] theorem State.ply_setSplicer (s : State) (st : Nat) (x : Splicer) : (s.setSplicer st x).ply = s.ply := rfl
@[simp] theorem State.tick_setSplicer (s : State) (st : Nat) (x : Splicer) : (s.setSplicer st x).tick = s.tick := rfl
@[simp] theorem State.free_setSplicer (s : State) (st : Nat) (x : Splicer) : (s.setSplicer st x).free = s.free := rfl
@[simp] theorem State.nextId_setSplicer (s : State) (st : Nat) (x : Splicer) : (s.setSplicer st x).nextId = s.nextId := rfl
@[simp] theorem State.inputs_setSplicer (s : State) (st : Nat) (x : Splicer) : (s.setSplicer st x).inputs = s.inputs := rfl
@[simp] theorem State.teams_setSplicer (s : State) (st : Nat) (x : Splicer) : (s.setSplicer st x).teams = s.teams := rfl
@[simp] theorem State.grids_setSplicer (s : State) (st : Nat) (x : Splicer) : (s.setSplicer st x).grids = s.grids := rfl
@[simp] theorem State.cores_setSplicer (s : State) (st : Nat) (x : Splicer) : (s.setSplicer st x).cores = s.cores := rfl
@[simp] theorem State.clusters_setSplicer (s : State) (st : Nat) (x : Splicer) : (s.setSplicer st x).clusters = s.clusters := rfl
@[simp] theorem State.tenants_setSplicer (s : State) (st : Nat) (x : Splicer) : (s.setSplicer st x).tenants = s.tenants := rfl
@[simp] theorem State.queues_setSplicer (s : State) (st : Nat) (x : Splicer) : (s.setSplicer st x).queues = s.queues := rfl
@[simp] theorem State.reqs_setSplicer (s : State) (st : Nat) (x : Splicer) : (s.setSplicer st x).reqs = s.reqs := rfl
@[simp] theorem State.copies_setSplicer (s : State) (st : Nat) (x : Splicer) : (s.setSplicer st x).copies = s.copies := rfl
@[simp] theorem State.merges_setSplicer (s : State) (st : Nat) (x : Splicer) : (s.setSplicer st x).merges = s.merges := rfl
@[simp] theorem State.commands_setSplicer (s : State) (st : Nat) (x : Splicer) : (s.setSplicer st x).commands = s.commands := rfl
@[simp] theorem State.strings_setSplicer (s : State) (st : Nat) (x : Splicer) : (s.setSplicer st x).strings = s.strings := rfl
@[simp] theorem State.channels_setSplicer (s : State) (st : Nat) (x : Splicer) : (s.setSplicer st x).channels = s.channels := rfl
@[simp] theorem State.solicits_setSplicer (s : State) (st : Nat) (x : Splicer) : (s.setSplicer st x).solicits = s.solicits := rfl
@[simp] theorem State.faultRecords_setSplicer (s : State) (st : Nat) (x : Splicer) : (s.setSplicer st x).faultRecords = s.faultRecords := rfl
@[simp] theorem State.faultPosts_setSplicer (s : State) (st : Nat) (x : Splicer) : (s.setSplicer st x).faultPosts = s.faultPosts := rfl
@[simp] theorem State.port_setSplicer (s : State) (st : Nat) (x : Splicer) : (s.setSplicer st x).port = s.port := rfl
@[simp] theorem State.born_setSplicer (s : State) (st : Nat) (x : Splicer) : (s.setSplicer st x).born = s.born := rfl
@[simp] theorem State.tests_setSplicer (s : State) (st : Nat) (x : Splicer) : (s.setSplicer st x).tests = s.tests := rfl

@[simp] theorem State.mem_setLocator (s : State) (g k : Nat) (x : Locator) : (s.setLocator g k x).mem = s.mem := rfl
@[simp] theorem State.hostMem_setLocator (s : State) (g k : Nat) (x : Locator) : (s.setLocator g k x).hostMem = s.hostMem := rfl
@[simp] theorem State.peerMem_setLocator (s : State) (g k : Nat) (x : Locator) : (s.setLocator g k x).peerMem = s.peerMem := rfl
@[simp] theorem State.poison_setLocator (s : State) (g k : Nat) (x : Locator) : (s.setLocator g k x).poison = s.poison := rfl
@[simp] theorem State.ply_setLocator (s : State) (g k : Nat) (x : Locator) : (s.setLocator g k x).ply = s.ply := rfl
@[simp] theorem State.tick_setLocator (s : State) (g k : Nat) (x : Locator) : (s.setLocator g k x).tick = s.tick := rfl
@[simp] theorem State.free_setLocator (s : State) (g k : Nat) (x : Locator) : (s.setLocator g k x).free = s.free := rfl
@[simp] theorem State.nextId_setLocator (s : State) (g k : Nat) (x : Locator) : (s.setLocator g k x).nextId = s.nextId := rfl
@[simp] theorem State.inputs_setLocator (s : State) (g k : Nat) (x : Locator) : (s.setLocator g k x).inputs = s.inputs := rfl
@[simp] theorem State.teams_setLocator (s : State) (g k : Nat) (x : Locator) : (s.setLocator g k x).teams = s.teams := rfl
@[simp] theorem State.grids_setLocator (s : State) (g k : Nat) (x : Locator) : (s.setLocator g k x).grids = s.grids := rfl
@[simp] theorem State.cores_setLocator (s : State) (g k : Nat) (x : Locator) : (s.setLocator g k x).cores = s.cores := rfl
@[simp] theorem State.clusters_setLocator (s : State) (g k : Nat) (x : Locator) : (s.setLocator g k x).clusters = s.clusters := rfl
@[simp] theorem State.tenants_setLocator (s : State) (g k : Nat) (x : Locator) : (s.setLocator g k x).tenants = s.tenants := rfl
@[simp] theorem State.queues_setLocator (s : State) (g k : Nat) (x : Locator) : (s.setLocator g k x).queues = s.queues := rfl
@[simp] theorem State.reqs_setLocator (s : State) (g k : Nat) (x : Locator) : (s.setLocator g k x).reqs = s.reqs := rfl
@[simp] theorem State.copies_setLocator (s : State) (g k : Nat) (x : Locator) : (s.setLocator g k x).copies = s.copies := rfl
@[simp] theorem State.merges_setLocator (s : State) (g k : Nat) (x : Locator) : (s.setLocator g k x).merges = s.merges := rfl
@[simp] theorem State.commands_setLocator (s : State) (g k : Nat) (x : Locator) : (s.setLocator g k x).commands = s.commands := rfl
@[simp] theorem State.strings_setLocator (s : State) (g k : Nat) (x : Locator) : (s.setLocator g k x).strings = s.strings := rfl
@[simp] theorem State.channels_setLocator (s : State) (g k : Nat) (x : Locator) : (s.setLocator g k x).channels = s.channels := rfl
@[simp] theorem State.solicits_setLocator (s : State) (g k : Nat) (x : Locator) : (s.setLocator g k x).solicits = s.solicits := rfl
@[simp] theorem State.faultRecords_setLocator (s : State) (g k : Nat) (x : Locator) : (s.setLocator g k x).faultRecords = s.faultRecords := rfl
@[simp] theorem State.faultPosts_setLocator (s : State) (g k : Nat) (x : Locator) : (s.setLocator g k x).faultPosts = s.faultPosts := rfl
@[simp] theorem State.port_setLocator (s : State) (g k : Nat) (x : Locator) : (s.setLocator g k x).port = s.port := rfl
@[simp] theorem State.born_setLocator (s : State) (g k : Nat) (x : Locator) : (s.setLocator g k x).born = s.born := rfl
@[simp] theorem State.tests_setLocator (s : State) (g k : Nat) (x : Locator) : (s.setLocator g k x).tests = s.tests := rfl

@[simp] theorem State.mem_logEvent (s : State) (code die unit addr : Nat) : (s.logEvent code die unit addr).mem = s.mem := by simp only [State.logEvent]
@[simp] theorem State.hostMem_logEvent (s : State) (code die unit addr : Nat) : (s.logEvent code die unit addr).hostMem = s.hostMem := by simp only [State.logEvent]
@[simp] theorem State.peerMem_logEvent (s : State) (code die unit addr : Nat) : (s.logEvent code die unit addr).peerMem = s.peerMem := by simp only [State.logEvent]
@[simp] theorem State.poison_logEvent (s : State) (code die unit addr : Nat) : (s.logEvent code die unit addr).poison = s.poison := by simp only [State.logEvent]
@[simp] theorem State.ply_logEvent (s : State) (code die unit addr : Nat) : (s.logEvent code die unit addr).ply = s.ply := by simp only [State.logEvent]
@[simp] theorem State.tick_logEvent (s : State) (code die unit addr : Nat) : (s.logEvent code die unit addr).tick = s.tick := by simp only [State.logEvent]
@[simp] theorem State.free_logEvent (s : State) (code die unit addr : Nat) : (s.logEvent code die unit addr).free = s.free := by simp only [State.logEvent]
@[simp] theorem State.nextId_logEvent (s : State) (code die unit addr : Nat) : (s.logEvent code die unit addr).nextId = s.nextId := by simp only [State.logEvent]
@[simp] theorem State.inputs_logEvent (s : State) (code die unit addr : Nat) : (s.logEvent code die unit addr).inputs = s.inputs := by simp only [State.logEvent]
@[simp] theorem State.teams_logEvent (s : State) (code die unit addr : Nat) : (s.logEvent code die unit addr).teams = s.teams := by simp only [State.logEvent]
@[simp] theorem State.grids_logEvent (s : State) (code die unit addr : Nat) : (s.logEvent code die unit addr).grids = s.grids := by simp only [State.logEvent]
@[simp] theorem State.cores_logEvent (s : State) (code die unit addr : Nat) : (s.logEvent code die unit addr).cores = s.cores := by simp only [State.logEvent]
@[simp] theorem State.clusters_logEvent (s : State) (code die unit addr : Nat) : (s.logEvent code die unit addr).clusters = s.clusters := by simp only [State.logEvent]
@[simp] theorem State.tenants_logEvent (s : State) (code die unit addr : Nat) : (s.logEvent code die unit addr).tenants = s.tenants := by simp only [State.logEvent]
@[simp] theorem State.queues_logEvent (s : State) (code die unit addr : Nat) : (s.logEvent code die unit addr).queues = s.queues := by simp only [State.logEvent]
@[simp] theorem State.reqs_logEvent (s : State) (code die unit addr : Nat) : (s.logEvent code die unit addr).reqs = s.reqs := by simp only [State.logEvent]
@[simp] theorem State.copies_logEvent (s : State) (code die unit addr : Nat) : (s.logEvent code die unit addr).copies = s.copies := by simp only [State.logEvent]
@[simp] theorem State.merges_logEvent (s : State) (code die unit addr : Nat) : (s.logEvent code die unit addr).merges = s.merges := by simp only [State.logEvent]
@[simp] theorem State.commands_logEvent (s : State) (code die unit addr : Nat) : (s.logEvent code die unit addr).commands = s.commands := by simp only [State.logEvent]
@[simp] theorem State.strings_logEvent (s : State) (code die unit addr : Nat) : (s.logEvent code die unit addr).strings = s.strings := by simp only [State.logEvent]
@[simp] theorem State.channels_logEvent (s : State) (code die unit addr : Nat) : (s.logEvent code die unit addr).channels = s.channels := by simp only [State.logEvent]
@[simp] theorem State.solicits_logEvent (s : State) (code die unit addr : Nat) : (s.logEvent code die unit addr).solicits = s.solicits := by simp only [State.logEvent]
@[simp] theorem State.faultRecords_logEvent (s : State) (code die unit addr : Nat) : (s.logEvent code die unit addr).faultRecords = s.faultRecords := by simp only [State.logEvent]
@[simp] theorem State.faultPosts_logEvent (s : State) (code die unit addr : Nat) : (s.logEvent code die unit addr).faultPosts = s.faultPosts := by simp only [State.logEvent]
@[simp] theorem State.port_logEvent (s : State) (code die unit addr : Nat) : (s.logEvent code die unit addr).port = s.port := by simp only [State.logEvent]
@[simp] theorem State.born_logEvent (s : State) (code die unit addr : Nat) : (s.logEvent code die unit addr).born = s.born := by simp only [State.logEvent]
@[simp] theorem State.tests_logEvent (s : State) (code die unit addr : Nat) : (s.logEvent code die unit addr).tests = s.tests := by simp only [State.logEvent]

/-! ### Units after they are set -/

@[simp] theorem State.core_setCore_same (s : State) (c : Nat) (k : Core) : (s.setCore c k).core c = k :=
  Tab.get_put_same _ _ _ _
theorem State.core_setCore_ne (s : State) {c d : Nat} (k : Core) (h : d ≠ c) : (s.setCore c k).core d = s.core d :=
  Tab.get_put_ne _ _ _ h
@[simp] theorem State.cluster_setCluster_same (s : State) (k : Nat) (c : Cluster) : (s.setCluster k c).cluster k = c :=
  Tab.get_put_same _ _ _ _
@[simp] theorem State.tenant_setTenant_same (s : State) (t : Nat) (x : Tenant) : (s.setTenant t x).tenant t = x :=
  Tab.get_put_same _ _ _ _
theorem State.tenant_setTenant_ne (s : State) {t u : Nat} (x : Tenant) (h : u ≠ t) : (s.setTenant t x).tenant u = s.tenant u :=
  Tab.get_put_ne _ _ _ h
@[simp] theorem State.queue_setQueue_same (s : State) (q : Nat) (x : Queue) : (s.setQueue q x).queue q = x :=
  Tab.get_put_same _ _ _ _
theorem State.queue_setQueue_ne (s : State) {q r : Nat} (x : Queue) (h : r ≠ q) : (s.setQueue q x).queue r = s.queue r :=
  Tab.get_put_ne _ _ _ h
@[simp] theorem State.channel_setChannel_same (s : State) (st ch : Nat) (x : Channel) :
    (s.setChannel st ch x).channel st ch = x :=
  Tab.get_put_same _ _ _ _
@[simp] theorem State.splicer_setSplicer_same (s : State) (st : Nat) (x : Splicer) : (s.setSplicer st x).splicer st = x :=
  Tab.get_put_same _ _ _ _

end Sys2Proof.Machine
end

