-- ==== Sys2Proof/Laws/Threads.lean ====
section
/-! SUPPORT. Threads within the state: what a change of one thread does to it, to the others, and to all else. -/
namespace Sys2Proof.Machine
open Sys2Proof

theorem State.team_modTeam (s : State) (t n : Nat) (f : Team → Team) :
    (s.modTeam t f).team n = if n = t ∧ (Tab.find s.teams t).isSome then f (s.team n) else s.team n := by
  by_cases h : n = t
  · subst h
    simp only [State.team, State.modTeam, true_and]
    cases hf : Tab.find s.teams n with
    | none => simp [Tab.adjust_absent f hf]
    | some a => simp [Tab.get_adjust_same f _ (by rw [hf]; rfl)]
  · simp [State.team, State.modTeam, Tab.get_adjust_ne _ _ _ h, h]

/-- A change of a team to one of the same shape, seen through any reading that the change keeps. -/
theorem State.team_modTeam_keeps {β : Type} (r : Team → β) (s : State) (t n : Nat) (f : Team → Team)
    (h : ∀ x, r (f x) = r x) : r ((s.modTeam t f).team n) = r (s.team n) := by
  rw [State.team_modTeam]
  split
  · exact h _
  · rfl

theorem Team.group_adjust (x : Team) (g n : Nat) (f : Group → Group) :
    ({ x with groups := Tab.adjust x.groups g f } : Team).group n =
      if n = g ∧ (Tab.find x.groups g).isSome then f (x.group n) else x.group n := by
  by_cases h : n = g
  · subst h
    simp only [Team.group, true_and]
    cases hf : Tab.find x.groups n with
    | none => simp [Tab.adjust_absent f hf]
    | some a => simp [Tab.get_adjust_same f _ (by rw [hf]; rfl)]
  · simp [Team.group, Tab.get_adjust_ne _ _ _ h, h]

theorem State.holds_iff (s : State) (th : ThreadRef) :
    s.holds th = true ↔ (Tab.find s.teams th.team).isSome ∧ (Tab.find (s.team th.team).groups th.group).isSome ∧
      (Tab.find (s.group th).threads th.lane).isSome := by
  unfold State.holds State.group State.team Team.group Tab.get
  cases Tab.find s.teams th.team with
  | none => simp
  | some x =>
    simp only [Option.isSome_some, Option.getD_some, true_and]
    cases Tab.find x.groups th.group with
    | none => simp
    | some g => simp

/-- The thread that is changed reads as changed. -/
theorem State.thread_modThread_same (s : State) (th : ThreadRef) (f : Thread → Thread) (h : s.holds th = true) :
    (s.modThread th f).thread th = f (s.thread th) := by
  obtain ⟨h1, h2, h3⟩ := (State.holds_iff s th).mp h
  have e : (s.modThread th f).group th =
      { s.group th with threads := Tab.adjust (s.group th).threads th.lane f } := by
    unfold State.group State.modThread State.modGroup
    rw [State.team_modTeam, if_pos ⟨rfl, h1⟩, Team.group_adjust, if_pos ⟨rfl, h2⟩]
  unfold State.thread
  rw [e]
  exact Tab.get_adjust_same f _ h3

theorem State.group_modThread (s : State) (th : ThreadRef) (f : Thread → Thread) (n g : Nat) :
    ((s.modThread th f).team n).group g =
      if n = th.team ∧ (Tab.find s.teams th.team).isSome ∧ g = th.group ∧
          (Tab.find (s.team n).groups th.group).isSome then
        { (s.team n).group g with threads := Tab.adjust ((s.team n).group g).threads th.lane f }
      else (s.team n).group g := by
  unfold State.modThread State.modGroup
  rw [State.team_modTeam]
  by_cases h : n = th.team ∧ (Tab.find s.teams th.team).isSome = true
  · rw [if_pos h, Team.group_adjust]
    simp only [h.1, h.2, true_and]
  · rw [if_neg h, if_neg (fun c => h ⟨c.1, c.2.1⟩)]

/-- Every other thread reads as before. -/
theorem State.thread_modThread_ne (s : State) (th u : ThreadRef) (f : Thread → Thread) (h : u ≠ th) :
    (s.modThread th f).thread u = s.thread u := by
  unfold State.thread State.group
  rw [State.group_modThread]
  split
  · next c =>
    obtain ⟨c1, -, c2, -⟩ := c
    have hl : u.lane ≠ th.lane := by
      intro hl; apply h
      cases u; cases th; simp_all
    exact Tab.get_adjust_ne _ _ _ hl
  · rfl

theorem State.holds_modThread (s : State) (th u : ThreadRef) (f : Thread → Thread) :
    (s.modThread th f).holds u = s.holds u := by
  rw [Bool.eq_iff_iff, State.holds_iff, State.holds_iff]
  have e1 : (Tab.find (s.modThread th f).teams u.team).isSome = (Tab.find s.teams u.team).isSome :=
    Tab.find_adjust_isSome _ _ _ _
  have e2 : (Tab.find ((s.modThread th f).team u.team).groups u.group).isSome =
      (Tab.find (s.team u.team).groups u.group).isSome :=
    State.team_modTeam_keeps (fun x => (Tab.find x.groups u.group).isSome) _ _ _ _
      fun x => Tab.find_adjust_isSome _ _ _ _
  have e3 : (Tab.find ((s.modThread th f).group u).threads u.lane).isSome =
      (Tab.find (s.group u).threads u.lane).isSome := by
    unfold State.group
    rw [State.group_modThread]
    split
    · exact Tab.find_adjust_isSome _ _ _ _
    · rfl
  rw [e1, e2, e3]

/-- A change of one thread changes nothing but that thread. -/
theorem State.onlyThreads_modThread (s : State) (th : ThreadRef) (f : Thread → Thread) :
    OnlyThreads s (s.modThread th f) [th] where
  rest := rfl
  teams n := State.team_modTeam_keeps (fun x => ({ x with groups := [] } : Team)) _ _ _ _ fun _ => rfl
  groups n g := by rw [State.group_modThread]; split <;> rfl
  threads u h := State.thread_modThread_ne s th u f (by simpa using h)
  bytes _ := rfl

theorem OnlyThreads.refl (s : State) (ms : List ThreadRef) : OnlyThreads s s ms :=
  ⟨rfl, fun _ => rfl, fun _ _ => rfl, fun _ _ => rfl, fun _ => rfl⟩

theorem OnlyThreads.trans {s t u : State} {ms : List ThreadRef} (a : OnlyThreads s t ms) (b : OnlyThreads t u ms) :
    OnlyThreads s u ms where
  rest := by
    rw [b.rest, a.rest]
  teams n := (b.teams n).trans (a.teams n)
  groups n g := (b.groups n g).trans (a.groups n g)
  threads th h := (b.threads th h).trans (a.threads th h)
  bytes x := (b.bytes x).trans (a.bytes x)

theorem OnlyThreads.mono {s t : State} {ms ns : List ThreadRef} (a : OnlyThreads s t ms) (h : ∀ x ∈ ms, x ∈ ns) :
    OnlyThreads s t ns :=
  ⟨a.rest, a.teams, a.groups, fun th hn => a.threads th fun hm => hn (h th hm), a.bytes⟩

theorem OnlyThreads.tick {s t : State} {ms : List ThreadRef} (a : OnlyThreads s t ms) : t.tick = s.tick :=
  (congrArg State.tick a.rest).trans rfl

theorem OnlyThreads.endPly {s t : State} {ms : List ThreadRef} (a : OnlyThreads s t ms) :
    OnlyThreads s t.endPly ms :=
  ⟨by rw [State.endPly, a.rest], a.teams, a.groups, a.threads, a.bytes⟩

end Sys2Proof.Machine
end

