-- ==== Sys2Proof/Laws/Invariants.lean ====
section
/-! SUPPORT. What the operations of the machine do to its two invariants: the canonical form of memory, and the order of
the tables of teams, groups and threads; and what follows when an operation is over. -/
namespace Sys2Proof.Machine
open Sys2Proof

/-! ### Memory -/

theorem State.memOk_congr {s t : State} (h : s.MemOk) (e : t.mem = s.mem) : t.MemOk := by
  unfold State.MemOk at *; rw [e]; exact h

theorem State.memOk_setBytes {s : State} (l : Loc) (bs : List Byte) (h : s.MemOk) : (s.setBytes l bs).MemOk := by
  cases l with
  | dev a => exact Memory.writeAll_wf a bs h
  | host a => exact h
  | peer k a => exact h

theorem State.mem_mark (s : State) (x : Str) (b : Nat) : (s.mark x b).mem = s.mem := by
  unfold State.mark
  dsimp only
  split
  · rfl
  · split <;> rfl

theorem State.mem_foldl {α : Type} (f : State → α → State) (h : ∀ s a, (f s a).mem = s.mem) (l : List α) (s : State) :
    (l.foldl f s).mem = s.mem := by
  induction l generalizing s with
  | nil => rfl
  | cons a l ih => rw [List.foldl_cons, ih, h]

theorem State.memOk_foldl {α : Type} (f : State → α → State) (h : ∀ s a, s.MemOk → (f s a).MemOk) (l : List α) (s : State)
    (hs : s.MemOk) : (l.foldl f s).MemOk := by
  induction l generalizing s with
  | nil => exact hs
  | cons a l ih => exact ih _ (h _ _ hs)

theorem State.memOk_writePlace {s : State} (l : Loc) (bs : List Byte) (h : s.MemOk) : (s.writePlace l bs).MemOk := by
  unfold State.writePlace
  split
  · exact h
  · exact State.memOk_setBytes _ _ (State.memOk_congr h (State.mem_foldl (fun s (e : Str × Nat) => s.mark e.1 e.2) (fun s e => s.mem_mark e.1 e.2) _ _))

/-! ### Tables in order -/

/-- Keys ascend, each once. -/
def Tab.Ordered {α : Type} (t : Tab α) : Prop := t.Pairwise fun x y => x.1 < y.1

theorem Tab.mem_put {α : Type} (t : Tab α) (n : Nat) (a : α) {e : Nat × α} (h : e ∈ Tab.put t n a) :
    e = (n, a) ∨ e ∈ t := by
  induction t with
  | nil => simpa [Tab.put] using h
  | cons x rest ih =>
    obtain ⟨k, b⟩ := x
    simp only [Tab.put] at h
    split at h
    · simpa using h
    · split at h
      · rcases List.mem_cons.mp h with h | h
        · exact .inl h
        · exact .inr (List.mem_cons_of_mem _ h)
      · rcases List.mem_cons.mp h with h | h
        · exact .inr (h ▸ List.mem_cons_self)
        · exact (ih h).imp_right (List.mem_cons_of_mem _)

theorem Tab.ordered_put {α : Type} {t : Tab α} (n : Nat) (a : α) (h : Tab.Ordered t) : Tab.Ordered (Tab.put t n a) := by
  induction t with
  | nil => simp [Tab.put, Tab.Ordered]
  | cons x rest ih =>
    obtain ⟨k, b⟩ := x
    unfold Tab.Ordered at *
    obtain ⟨hx, hr⟩ := List.pairwise_cons.mp h
    simp only [Tab.put]
    split
    · next hn =>
      refine List.pairwise_cons.mpr ⟨?_, h⟩
      intro y hy
      rcases List.mem_cons.mp hy with rfl | hy
      · exact hn
      · exact Nat.lt_trans hn (hx y hy)
    · split
      · next hk => subst hk; exact List.pairwise_cons.mpr ⟨hx, hr⟩
      · next h1 h2 =>
        refine List.pairwise_cons.mpr ⟨?_, ih hr⟩
        intro y hy
        rcases Tab.mem_put _ _ _ hy with rfl | hy
        · show k < n; omega
        · exact hx y hy

theorem Tab.ordered_filter {α : Type} {t : Tab α} (p : Nat × α → Bool) (h : Tab.Ordered t) : Tab.Ordered (t.filter p) :=
  h.sublist List.filter_sublist

theorem Tab.ordered_map {α β : Type} {t : Tab α} (f : Nat × α → Nat × β) (hf : ∀ e, (f e).1 = e.1) (h : Tab.Ordered t) :
    Tab.Ordered (t.map f) := by
  unfold Tab.Ordered at *
  rw [List.pairwise_map]
  exact h.imp fun {x y} hxy => by rw [hf, hf]; exact hxy

theorem Tab.find_mem {α : Type} {t : Tab α} {n : Nat} {a : α} (h : Tab.find t n = some a) : (n, a) ∈ t := by
  induction t with
  | nil => simp [Tab.find] at h
  | cons e rest ih =>
    obtain ⟨k, b⟩ := e
    simp only [Tab.find] at h
    split at h
    · next hk => cases h; subst hk; exact List.mem_cons_self
    · exact List.mem_cons_of_mem _ (ih h)

/-- A property of every entry is kept where `f` keeps it. -/
theorem Tab.all_adjust {α : Type} {t : Tab α} {P : α → Prop} (n : Nat) (f : α → α) (hf : ∀ a, P a → P (f a))
    (h : ∀ e ∈ t, P e.2) : ∀ e ∈ Tab.adjust t n f, P e.2 := by
  unfold Tab.adjust
  split
  · next a ha =>
    intro e he
    rcases Tab.mem_put _ _ _ he with rfl | he
    · exact hf _ (h _ (Tab.find_mem ha))
    · exact h _ he
  · exact h

theorem Tab.ordered_adjust {α : Type} {t : Tab α} (n : Nat) (f : α → α) (h : Tab.Ordered t) : Tab.Ordered (Tab.adjust t n f) := by
  unfold Tab.adjust
  split
  · exact Tab.ordered_put _ _ h
  · exact h

/-- A team's groups, and each group's threads, stand in order. -/
def Group.Ordered (g : Group) : Prop := Tab.Ordered g.threads
def Team.Ordered (t : Team) : Prop := Tab.Ordered t.groups ∧ ∀ g ∈ t.groups, g.2.Ordered

theorem State.orderly_iff (s : State) : s.Orderly ↔ Tab.Ordered s.teams ∧ ∀ t ∈ s.teams, t.2.Ordered := Iff.rfl

theorem State.orderly_congr {s t : State} (h : s.Orderly) (e : t.teams = s.teams) : t.Orderly := by
  unfold State.Orderly at *; rw [e]; exact h

theorem State.orderly_modTeam {s : State} (n : Nat) (f : Team → Team) (hf : ∀ x, x.Ordered → (f x).Ordered)
    (h : s.Orderly) : (s.modTeam n f).Orderly :=
  ⟨Tab.ordered_adjust _ _ h.1, Tab.all_adjust (P := Team.Ordered) _ _ hf h.2⟩

theorem State.orderly_modGroup {s : State} (n k : Nat) (f : Group → Group) (hf : ∀ g, g.Ordered → (f g).Ordered)
    (h : s.Orderly) : (s.modGroup n k f).Orderly :=
  State.orderly_modTeam _ _ (fun _ hx => ⟨Tab.ordered_adjust _ _ hx.1, Tab.all_adjust (P := Group.Ordered) _ _ hf hx.2⟩) h

theorem State.orderly_modThread {s : State} (th : ThreadRef) (f : Thread → Thread) (h : s.Orderly) :
    (s.modThread th f).Orderly :=
  State.orderly_modGroup _ _ _ (fun _ hg => Tab.ordered_adjust _ _ hg) h

theorem State.orderly_dropTeam {s t : State} (n : Nat) (h : s.Orderly) (e : t.teams = Tab.drop s.teams n) : t.Orderly := by
  refine ⟨?_, ?_⟩
  · rw [e]; exact Tab.ordered_filter _ h.1
  · rw [e]; intro x hx; exact h.2 x (List.mem_of_mem_filter hx)

theorem State.orderly_foldl {α : Type} (f : State → α → State) (h : ∀ s a, s.Orderly → (f s a).Orderly) (l : List α)
    (s : State) (hs : s.Orderly) : (l.foldl f s).Orderly := by
  induction l generalizing s with
  | nil => exact hs
  | cons a l ih => exact ih _ (h _ _ hs)

/-! ### What follows when an operation is over -/

theorem State.mem_settleHolds (s : State) (th : ThreadRef) : (s.settleHolds th).mem = s.mem := by
  unfold State.settleHolds
  dsimp only
  split
  · rfl
  · split <;> rfl

theorem State.orderly_settleHolds {s : State} (th : ThreadRef) (h : s.Orderly) : (s.settleHolds th).Orderly := by
  unfold State.settleHolds
  dsimp only
  split
  · exact h
  · split
    · exact State.orderly_congr (State.orderly_modThread _ _ h) rfl
    · exact State.orderly_modThread _ _ h

theorem State.mem_acceptSolicits (s : State) : s.acceptSolicits.mem = s.mem := by
  unfold State.acceptSolicits
  refine State.mem_foldl _ (fun s q => ?_) _ _
  split <;> rfl

theorem State.teams_acceptSolicits (s : State) : s.acceptSolicits.teams = s.teams := by
  unfold State.acceptSolicits
  generalize s.solicits = l
  induction l generalizing s with
  | nil => rfl
  | cons q l ih =>
    rw [List.foldl_cons, ih]
    split <;> rfl

theorem State.mem_settle (s : State) : s.settle.mem = s.mem := by
  unfold State.settle
  rw [State.mem_acceptSolicits]
  exact State.mem_foldl _ State.mem_settleHolds _ _

theorem State.orderly_settle {s : State} (h : s.Orderly) : s.settle.Orderly := by
  unfold State.settle
  refine State.orderly_congr ?_ (State.teams_acceptSolicits _)
  exact State.orderly_congr (State.orderly_foldl _ (fun _ th hs => State.orderly_settleHolds th hs) _ _ h) rfl

end Sys2Proof.Machine
end

