-- ==== Sys2Proof/Laws/PerInstr.lean ====
section
/-! SUPPORT. Statements made for every instruction, one lemma per constructor. RoundTrip: a well-formed instruction's
word decodes to it, with every operand at every value its field admits (R29 to R38). -/
namespace Sys2Proof.Laws
open Sys2Proof

/-- A well-formed instruction's word decodes to the instruction; an event has no word. -/
def RoundTrip.Statement (i : Instr) : Prop := i.wellFormed = true → ∀ x, i.encode = some x → decode x = .ok i

section
set_option Elab.async false

theorem RoundTrip.iadd (sw : Bool) (d : BitVec 7) (a : BitVec 7) (b : BitVec 7) (w : Width) :
    RoundTrip.Statement (.iadd sw d a b w) := by
  intro _ wd hx
  simp only [Instr.encode, Option.some.injEq] at hx
  have f0 : wd.getLsbD 31 = sw := by rw [← hx]; exact (bit_hi _ _ _ rfl).trans ((bit_hi _ _ _ rfl).trans ((bit_hi _ _ _ rfl).trans ((bit_hi _ _ _ rfl).trans ((bit_hi _ _ _ rfl).trans ((bit_hi _ _ _ rfl).trans (bit_one _))))))
  have f1 : wd.extractLsb' 24 7 = 0x00#7 := by rw [← hx]; exact (ext_hi _ _ _ _ rfl).trans ((ext_hi _ _ _ _ rfl).trans ((ext_hi _ _ _ _ rfl).trans ((ext_hi _ _ _ _ rfl).trans ((ext_hi _ _ _ _ rfl).trans ((ext_lo _ _ _ _ rfl).trans (ext_all _))))))
  have f2 : wd.extractLsb' 17 7 = d := by rw [← hx]; exact (ext_hi _ _ _ _ rfl).trans ((ext_hi _ _ _ _ rfl).trans ((ext_hi _ _ _ _ rfl).trans ((ext_hi _ _ _ _ rfl).trans ((ext_lo _ _ _ _ rfl).trans (ext_all _)))))
  have f3 : wd.extractLsb' 10 7 = a := by rw [← hx]; exact (ext_hi _ _ _ _ rfl).trans ((ext_hi _ _ _ _ rfl).trans ((ext_hi _ _ _ _ rfl).trans ((ext_lo _ _ _ _ rfl).trans (ext_all _))))
  have f4 : wd.extractLsb' 3 7 = b := by rw [← hx]; exact (ext_hi _ _ _ _ rfl).trans ((ext_hi _ _ _ _ rfl).trans ((ext_lo _ _ _ _ rfl).trans (ext_all _)))
  have f5 : wd.extractLsb' 1 2 = 0x0#2 := by rw [← hx]; exact (ext_hi _ _ _ _ rfl).trans ((ext_lo _ _ _ _ rfl).trans (ext_all _))
  have f6 : wd.extractLsb' 0 1 = w.code := by rw [← hx]; exact (ext_lo _ _ _ _ rfl).trans (ext_all _)
  refine decode_row f1 rfl ?_
  exact firstRow_hit (by simp only [rowIadd, Sys2Proof.sw, f0, f2, f3, f4, f5, f6, Width_ofCode_code, reduceIte])

theorem RoundTrip.iaddSat (sw : Bool) (d : BitVec 7) (a : BitVec 7) (b : BitVec 7) (t : Sgn) :
    RoundTrip.Statement (.iaddSat sw d a b t) := by
  intro _ wd hx
  simp only [Instr.encode, Option.some.injEq] at hx
  have f0 : wd.getLsbD 31 = sw := by rw [← hx]; exact (bit_hi _ _ _ rfl).trans ((bit_hi _ _ _ rfl).trans ((bit_hi _ _ _ rfl).trans ((bit_hi _ _ _ rfl).trans ((bit_hi _ _ _ rfl).trans ((bit_hi _ _ _ rfl).trans (bit_one _))))))
  have f1 : wd.extractLsb' 24 7 = 0x00#7 := by rw [← hx]; exact (ext_hi _ _ _ _ rfl).trans ((ext_hi _ _ _ _ rfl).trans ((ext_hi _ _ _ _ rfl).trans ((ext_hi _ _ _ _ rfl).trans ((ext_hi _ _ _ _ rfl).trans ((ext_lo _ _ _ _ rfl).trans (ext_all _))))))
  have f2 : wd.extractLsb' 17 7 = d := by rw [← hx]; exact (ext_hi _ _ _ _ rfl).trans ((ext_hi _ _ _ _ rfl).trans ((ext_hi _ _ _ _ rfl).trans ((ext_hi _ _ _ _ rfl).trans ((ext_lo _ _ _ _ rfl).trans (ext_all _)))))
  have f3 : wd.extractLsb' 10 7 = a := by rw [← hx]; exact (ext_hi _ _ _ _ rfl).trans ((ext_hi _ _ _ _ rfl).trans ((ext_hi _ _ _ _ rfl).trans ((ext_lo _ _ _ _ rfl).trans (ext_all _))))
  have f4 : wd.extractLsb' 3 7 = b := by rw [← hx]; exact (ext_hi _ _ _ _ rfl).trans ((ext_hi _ _ _ _ rfl).trans ((ext_lo _ _ _ _ rfl).trans (ext_all _)))
  have f5 : wd.extractLsb' 1 2 = 0x1#2 := by rw [← hx]; exact (ext_hi _ _ _ _ rfl).trans ((ext_lo _ _ _ _ rfl).trans (ext_all _))
  have f6 : wd.extractLsb' 0 1 = t.code := by rw [← hx]; exact (ext_lo _ _ _ _ rfl).trans (ext_all _)
  refine decode_row f1 rfl ?_
  refine firstRow_skip (if_neg fun hc => absurd (f5.symm.trans hc) (by decide)) ?_
  exact firstRow_hit (by simp only [rowIaddSat, Sys2Proof.sw, f0, f2, f3, f4, f5, f6, Sgn_ofCode_code, reduceIte])

theorem RoundTrip.isub (sw : Bool) (d : BitVec 7) (a : BitVec 7) (b : BitVec 7) (w : Width) :
    RoundTrip.Statement (.isub sw d a b w) := by
  intro _ wd hx
  simp only [Instr.encode, Option.some.injEq] at hx
  have f0 : wd.getLsbD 31 = sw := by rw [← hx]; exact (bit_hi _ _ _ rfl).trans ((bit_hi _ _ _ rfl).trans ((bit_hi _ _ _ rfl).trans ((bit_hi _ _ _ rfl).trans ((bit_hi _ _ _ rfl).trans ((bit_hi _ _ _ rfl).trans (bit_one _))))))
  have f1 : wd.extractLsb' 24 7 = 0x01#7 := by rw [← hx]; exact (ext_hi _ _ _ _ rfl).trans ((ext_hi _ _ _ _ rfl).trans ((ext_hi _ _ _ _ rfl).trans ((ext_hi _ _ _ _ rfl).trans ((ext_hi _ _ _ _ rfl).trans ((ext_lo _ _ _ _ rfl).trans (ext_all _))))))
  have f2 : wd.extractLsb' 17 7 = d := by rw [← hx]; exact (ext_hi _ _ _ _ rfl).trans ((ext_hi _ _ _ _ rfl).trans ((ext_hi _ _ _ _ rfl).trans ((ext_hi _ _ _ _ rfl).trans ((ext_lo _ _ _ _ rfl).trans (ext_all _)))))
  have f3 : wd.extractLsb' 10 7 = a := by rw [← hx]; exact (ext_hi _ _ _ _ rfl).trans ((ext_hi _ _ _ _ rfl).trans ((ext_hi _ _ _ _ rfl).trans ((ext_lo _ _ _ _ rfl).trans (ext_all _))))
  have f4 : wd.extractLsb' 3 7 = b := by rw [← hx]; exact (ext_hi _ _ _ _ rfl).trans ((ext_hi _ _ _ _ rfl).trans ((ext_lo _ _ _ _ rfl).trans (ext_all _)))
  have f5 : wd.extractLsb' 1 2 = 0x0#2 := by rw [← hx]; exact (ext_hi _ _ _ _ rfl).trans ((ext_lo _ _ _ _ rfl).trans (ext_all _))
  have f6 : wd.extractLsb' 0 1 = w.code := by rw [← hx]; exact (ext_lo _ _ _ _ rfl).trans (ext_all _)
  refine decode_row f1 rfl ?_
  exact firstRow_hit (by simp only [rowIsub, Sys2Proof.sw, f0, f2, f3, f4, f5, f6, Width_ofCode_code, reduceIte])

theorem RoundTrip.isubSat (sw : Bool) (d : BitVec 7) (a : BitVec 7) (b : BitVec 7) (t : Sgn) :
    RoundTrip.Statement (.isubSat sw d a b t) := by
  intro _ wd hx
  simp only [Instr.encode, Option.some.injEq] at hx
  have f0 : wd.getLsbD 31 = sw := by rw [← hx]; exact (bit_hi _ _ _ rfl).trans ((bit_hi _ _ _ rfl).trans ((bit_hi _ _ _ rfl).trans ((bit_hi _ _ _ rfl).trans ((bit_hi _ _ _ rfl).trans ((bit_hi _ _ _ rfl).trans (bit_one _))))))
  have f1 : wd.extractLsb' 24 7 = 0x01#7 := by rw [← hx]; exact (ext_hi _ _ _ _ rfl).trans ((ext_hi _ _ _ _ rfl).trans ((ext_hi _ _ _ _ rfl).trans ((ext_hi _ _ _ _ rfl).trans ((ext_hi _ _ _ _ rfl).trans ((ext_lo _ _ _ _ rfl).trans (ext_all _))))))
  have f2 : wd.extractLsb' 17 7 = d := by rw [← hx]; exact (ext_hi _ _ _ _ rfl).trans ((ext_hi _ _ _ _ rfl).trans ((ext_hi _ _ _ _ rfl).trans ((ext_hi _ _ _ _ rfl).trans ((ext_lo _ _ _ _ rfl).trans (ext_all _)))))
  have f3 : wd.extractLsb' 10 7 = a := by rw [← hx]; exact (ext_hi _ _ _ _ rfl).trans ((ext_hi _ _ _ _ rfl).trans ((ext_hi _ _ _ _ rfl).trans ((ext_lo _ _ _ _ rfl).trans (ext_all _))))
  have f4 : wd.extractLsb' 3 7 = b := by rw [← hx]; exact (ext_hi _ _ _ _ rfl).trans ((ext_hi _ _ _ _ rfl).trans ((ext_lo _ _ _ _ rfl).trans (ext_all _)))
  have f5 : wd.extractLsb' 1 2 = 0x1#2 := by rw [← hx]; exact (ext_hi _ _ _ _ rfl).trans ((ext_lo _ _ _ _ rfl).trans (ext_all _))
  have f6 : wd.extractLsb' 0 1 = t.code := by rw [← hx]; exact (ext_lo _ _ _ _ rfl).trans (ext_all _)
  refine decode_row f1 rfl ?_
  refine firstRow_skip (if_neg fun hc => absurd (f5.symm.trans hc) (by decide)) ?_
  exact firstRow_hit (by simp only [rowIsubSat, Sys2Proof.sw, f0, f2, f3, f4, f5, f6, Sgn_ofCode_code, reduceIte])

theorem RoundTrip.iaddImm (sw : Bool) (d : BitVec 7) (a : BitVec 7) (i : BitVec 10) :
    RoundTrip.Statement (.iaddImm sw d a i) := by
  intro _ wd hx
  simp only [Instr.encode, Option.some.injEq] at hx
  have f0 : wd.getLsbD 31 = sw := by rw [← hx]; exact (bit_hi _ _ _ rfl).trans ((bit_hi _ _ _ rfl).trans ((bit_hi _ _ _ rfl).trans ((bit_hi _ _ _ rfl).trans (bit_one _))))
  have f1 : wd.extractLsb' 24 7 = 0x02#7 := by rw [← hx]; exact (ext_hi _ _ _ _ rfl).trans ((ext_hi _ _ _ _ rfl).trans ((ext_hi _ _ _ _ rfl).trans ((ext_lo _ _ _ _ rfl).trans (ext_all _))))
  have f2 : wd.extractLsb' 17 7 = d := by rw [← hx]; exact (ext_hi _ _ _ _ rfl).trans ((ext_hi _ _ _ _ rfl).trans ((ext_lo _ _ _ _ rfl).trans (ext_all _)))
  have f3 : wd.extractLsb' 10 7 = a := by rw [← hx]; exact (ext_hi _ _ _ _ rfl).trans ((ext_lo _ _ _ _ rfl).trans (ext_all _))
  have f4 : wd.extractLsb' 0 10 = i := by rw [← hx]; exact (ext_lo _ _ _ _ rfl).trans (ext_all _)
  refine decode_row f1 rfl ?_
  exact firstRow_hit (by simp only [rowIaddImm, Sys2Proof.sw, f0, f2, f3, f4])

theorem RoundTrip.iaddc (sw : Bool) (d : BitVec 7) (a : BitVec 7) (b : BitVec 7) (c : BitVec 3) :
    RoundTrip.Statement (.iaddc sw d a b c) := by
  intro _ wd hx
  simp only [Instr.encode, Option.some.injEq] at hx
  have f0 : wd.getLsbD 31 = sw := by rw [← hx]; exact (bit_hi _ _ _ rfl).trans ((bit_hi _ _ _ rfl).trans ((bit_hi _ _ _ rfl).trans ((bit_hi _ _ _ rfl).trans ((bit_hi _ _ _ rfl).trans (bit_one _)))))
  have f1 : wd.extractLsb' 24 7 = 0x03#7 := by rw [← hx]; exact (ext_hi _ _ _ _ rfl).trans ((ext_hi _ _ _ _ rfl).trans ((ext_hi _ _ _ _ rfl).trans ((ext_hi _ _ _ _ rfl).trans ((ext_lo _ _ _ _ rfl).trans (ext_all _)))))
  have f2 : wd.extractLsb' 17 7 = d := by rw [← hx]; exact (ext_hi _ _ _ _ rfl).trans ((ext_hi _ _ _ _ rfl).trans ((ext_hi _ _ _ _ rfl).trans ((ext_lo _ _ _ _ rfl).trans (ext_all _))))
  have f3 : wd.extractLsb' 10 7 = a := by rw [← hx]; exact (ext_hi _ _ _ _ rfl).trans ((ext_hi _ _ _ _ rfl).trans ((ext_lo _ _ _ _ rfl).trans (ext_all _)))
  have f4 : wd.extractLsb' 3 7 = b := by rw [← hx]; exact (ext_hi _ _ _ _ rfl).trans ((ext_lo _ _ _ _ rfl).trans (ext_all _))
  have f5 : wd.extractLsb' 0 3 = c := by rw [← hx]; exact (ext_lo _ _ _ _ rfl).trans (ext_all _)
  refine decode_row f1 rfl ?_
  exact firstRow_hit (by simp only [rowIaddc, Sys2Proof.sw, f0, f2, f3, f4, f5])

theorem RoundTrip.isubb (sw : Bool) (d : BitVec 7) (a : BitVec 7) (b : BitVec 7) (c : BitVec 3) :
    RoundTrip.Statement (.isubb sw d a b c) := by
  intro _ wd hx
  simp only [Instr.encode, Option.some.injEq] at hx
  have f0 : wd.getLsbD 31 = sw := by rw [← hx]; exact (bit_hi _ _ _ rfl).trans ((bit_hi _ _ _ rfl).trans ((bit_hi _ _ _ rfl).trans ((bit_hi _ _ _ rfl).trans ((bit_hi _ _ _ rfl).trans (bit_one _)))))
  have f1 : wd.extractLsb' 24 7 = 0x04#7 := by rw [← hx]; exact (ext_hi _ _ _ _ rfl).trans ((ext_hi _ _ _ _ rfl).trans ((ext_hi _ _ _ _ rfl).trans ((ext_hi _ _ _ _ rfl).trans ((ext_lo _ _ _ _ rfl).trans (ext_all _)))))
  have f2 : wd.extractLsb' 17 7 = d := by rw [← hx]; exact (ext_hi _ _ _ _ rfl).trans ((ext_hi _ _ _ _ rfl).trans ((ext_hi _ _ _ _ rfl).trans ((ext_lo _ _ _ _ rfl).trans (ext_all _))))
  have f3 : wd.extractLsb' 10 7 = a := by rw [← hx]; exact (ext_hi _ _ _ _ rfl).trans ((ext_hi _ _ _ _ rfl).trans ((ext_lo _ _ _ _ rfl).trans (ext_all _)))
  have f4 : wd.extractLsb' 3 7 = b := by rw [← hx]; exact (ext_hi _ _ _ _ rfl).trans ((ext_lo _ _ _ _ rfl).trans (ext_all _))
  have f5 : wd.extractLsb' 0 3 = c := by rw [← hx]; exact (ext_lo _ _ _ _ rfl).trans (ext_all _)
  refine decode_row f1 rfl ?_
  exact firstRow_hit (by simp only [rowIsubb, Sys2Proof.sw, f0, f2, f3, f4, f5])

theorem RoundTrip.imul (sw : Bool) (d : BitVec 7) (a : BitVec 7) (b : BitVec 7) (w : Width) :
    RoundTrip.Statement (.imul sw d a b w) := by
  intro _ wd hx
  simp only [Instr.encode, Option.some.injEq] at hx
  have f0 : wd.getLsbD 31 = sw := by rw [← hx]; exact (bit_hi _ _ _ rfl).trans ((bit_hi _ _ _ rfl).trans ((bit_hi _ _ _ rfl).trans ((bit_hi _ _ _ rfl).trans ((bit_hi _ _ _ rfl).trans ((bit_hi _ _ _ rfl).trans (bit_one _))))))
  have f1 : wd.extractLsb' 24 7 = 0x05#7 := by rw [← hx]; exact (ext_hi _ _ _ _ rfl).trans ((ext_hi _ _ _ _ rfl).trans ((ext_hi _ _ _ _ rfl).trans ((ext_hi _ _ _ _ rfl).trans ((ext_hi _ _ _ _ rfl).trans ((ext_lo _ _ _ _ rfl).trans (ext_all _))))))
  have f2 : wd.extractLsb' 17 7 = d := by rw [← hx]; exact (ext_hi _ _ _ _ rfl).trans ((ext_hi _ _ _ _ rfl).trans ((ext_hi _ _ _ _ rfl).trans ((ext_hi _ _ _ _ rfl).trans ((ext_lo _ _ _ _ rfl).trans (ext_all _)))))
  have f3 : wd.extractLsb' 10 7 = a := by rw [← hx]; exact (ext_hi _ _ _ _ rfl).trans ((ext_hi _ _ _ _ rfl).trans ((ext_hi _ _ _ _ rfl).trans ((ext_lo _ _ _ _ rfl).trans (ext_all _))))
  have f4 : wd.extractLsb' 3 7 = b := by rw [← hx]; exact (ext_hi _ _ _ _ rfl).trans ((ext_hi _ _ _ _ rfl).trans ((ext_lo _ _ _ _ rfl).trans (ext_all _)))
  have f5 : wd.extractLsb' 1 2 = 0x0#2 := by rw [← hx]; exact (ext_hi _ _ _ _ rfl).trans ((ext_lo _ _ _ _ rfl).trans (ext_all _))
  have f6 : wd.extractLsb' 0 1 = w.code := by rw [← hx]; exact (ext_lo _ _ _ _ rfl).trans (ext_all _)
  refine decode_row f1 rfl ?_
  exact firstRow_hit (by simp only [rowImul, Sys2Proof.sw, f0, f2, f3, f4, f5, f6, Width_ofCode_code, reduceIte])

theorem RoundTrip.imulh (sw : Bool) (d : BitVec 7) (a : BitVec 7) (b : BitVec 7) (t : Sgn) :
    RoundTrip.Statement (.imulh sw d a b t) := by
  intro _ wd hx
  simp only [Instr.encode, Option.some.injEq] at hx
  have f0 : wd.getLsbD 31 = sw := by rw [← hx]; exact (bit_hi _ _ _ rfl).trans ((bit_hi _ _ _ rfl).trans ((bit_hi _ _ _ rfl).trans ((bit_hi _ _ _ rfl).trans ((bit_hi _ _ _ rfl).trans ((bit_hi _ _ _ rfl).trans (bit_one _))))))
  have f1 : wd.extractLsb' 24 7 = 0x05#7 := by rw [← hx]; exact (ext_hi _ _ _ _ rfl).trans ((ext_hi _ _ _ _ rfl).trans ((ext_hi _ _ _ _ rfl).trans ((ext_hi _ _ _ _ rfl).trans ((ext_hi _ _ _ _ rfl).trans ((ext_lo _ _ _ _ rfl).trans (ext_all _))))))
  have f2 : wd.extractLsb' 17 7 = d := by rw [← hx]; exact (ext_hi _ _ _ _ rfl).trans ((ext_hi _ _ _ _ rfl).trans ((ext_hi _ _ _ _ rfl).trans ((ext_hi _ _ _ _ rfl).trans ((ext_lo _ _ _ _ rfl).trans (ext_all _)))))
  have f3 : wd.extractLsb' 10 7 = a := by rw [← hx]; exact (ext_hi _ _ _ _ rfl).trans ((ext_hi _ _ _ _ rfl).trans ((ext_hi _ _ _ _ rfl).trans ((ext_lo _ _ _ _ rfl).trans (ext_all _))))
  have f4 : wd.extractLsb' 3 7 = b := by rw [← hx]; exact (ext_hi _ _ _ _ rfl).trans ((ext_hi _ _ _ _ rfl).trans ((ext_lo _ _ _ _ rfl).trans (ext_all _)))
  have f5 : wd.extractLsb' 1 2 = 0x1#2 := by rw [← hx]; exact (ext_hi _ _ _ _ rfl).trans ((ext_lo _ _ _ _ rfl).trans (ext_all _))
  have f6 : wd.extractLsb' 0 1 = t.code := by rw [← hx]; exact (ext_lo _ _ _ _ rfl).trans (ext_all _)
  refine decode_row f1 rfl ?_
  refine firstRow_skip (if_neg fun hc => absurd (f5.symm.trans hc) (by decide)) ?_
  exact firstRow_hit (by simp only [rowImulh, Sys2Proof.sw, f0, f2, f3, f4, f5, f6, Sgn_ofCode_code, reduceIte])

theorem RoundTrip.imad (sw : Bool) (d : BitVec 7) (a : BitVec 7) (b : BitVec 7) (w : Width) :
    RoundTrip.Statement (.imad sw d a b w) := by
  intro _ wd hx
  simp only [Instr.encode, Option.some.injEq] at hx
  have f0 : wd.getLsbD 31 = sw := by rw [← hx]; exact (bit_hi _ _ _ rfl).trans ((bit_hi _ _ _ rfl).trans ((bit_hi _ _ _ rfl).trans ((bit_hi _ _ _ rfl).trans ((bit_hi _ _ _ rfl).trans ((bit_hi _ _ _ rfl).trans (bit_one _))))))
  have f1 : wd.extractLsb' 24 7 = 0x06#7 := by rw [← hx]; exact (ext_hi _ _ _ _ rfl).trans ((ext_hi _ _ _ _ rfl).trans ((ext_hi _ _ _ _ rfl).trans ((ext_hi _ _ _ _ rfl).trans ((ext_hi _ _ _ _ rfl).trans ((ext_lo _ _ _ _ rfl).trans (ext_all _))))))
  have f2 : wd.extractLsb' 17 7 = d := by rw [← hx]; exact (ext_hi _ _ _ _ rfl).trans ((ext_hi _ _ _ _ rfl).trans ((ext_hi _ _ _ _ rfl).trans ((ext_hi _ _ _ _ rfl).trans ((ext_lo _ _ _ _ rfl).trans (ext_all _)))))
  have f3 : wd.extractLsb' 10 7 = a := by rw [← hx]; exact (ext_hi _ _ _ _ rfl).trans ((ext_hi _ _ _ _ rfl).trans ((ext_hi _ _ _ _ rfl).trans ((ext_lo _ _ _ _ rfl).trans (ext_all _))))
  have f4 : wd.extractLsb' 3 7 = b := by rw [← hx]; exact (ext_hi _ _ _ _ rfl).trans ((ext_hi _ _ _ _ rfl).trans ((ext_lo _ _ _ _ rfl).trans (ext_all _)))
  have f5 : wd.extractLsb' 1 2 = 0x0#2 := by rw [← hx]; exact (ext_hi _ _ _ _ rfl).trans ((ext_lo _ _ _ _ rfl).trans (ext_all _))
  have f6 : wd.extractLsb' 0 1 = w.code := by rw [← hx]; exact (ext_lo _ _ _ _ rfl).trans (ext_all _)
  refine decode_row f1 rfl ?_
  exact firstRow_hit (by simp only [rowImad, Sys2Proof.sw, f0, f2, f3, f4, f5, f6, Width_ofCode_code, reduceIte])

theorem RoundTrip.idiv (sw : Bool) (d : BitVec 7) (a : BitVec 7) (b : BitVec 7) (t : Sgn) :
    RoundTrip.Statement (.idiv sw d a b t) := by
  intro _ wd hx
  simp only [Instr.encode, Option.some.injEq] at hx
  have f0 : wd.getLsbD 31 = sw := by rw [← hx]; exact (bit_hi _ _ _ rfl).trans ((bit_hi _ _ _ rfl).trans ((bit_hi _ _ _ rfl).trans ((bit_hi _ _ _ rfl).trans ((bit_hi _ _ _ rfl).trans ((bit_hi _ _ _ rfl).trans (bit_one _))))))
  have f1 : wd.extractLsb' 24 7 = 0x07#7 := by rw [← hx]; exact (ext_hi _ _ _ _ rfl).trans ((ext_hi _ _ _ _ rfl).trans ((ext_hi _ _ _ _ rfl).trans ((ext_hi _ _ _ _ rfl).trans ((ext_hi _ _ _ _ rfl).trans ((ext_lo _ _ _ _ rfl).trans (ext_all _))))))
  have f2 : wd.extractLsb' 17 7 = d := by rw [← hx]; exact (ext_hi _ _ _ _ rfl).trans ((ext_hi _ _ _ _ rfl).trans ((ext_hi _ _ _ _ rfl).trans ((ext_hi _ _ _ _ rfl).trans ((ext_lo _ _ _ _ rfl).trans (ext_all _)))))
  have f3 : wd.extractLsb' 10 7 = a := by rw [← hx]; exact (ext_hi _ _ _ _ rfl).trans ((ext_hi _ _ _ _ rfl).trans ((ext_hi _ _ _ _ rfl).trans ((ext_lo _ _ _ _ rfl).trans (ext_all _))))
  have f4 : wd.extractLsb' 3 7 = b := by rw [← hx]; exact (ext_hi _ _ _ _ rfl).trans ((ext_hi _ _ _ _ rfl).trans ((ext_lo _ _ _ _ rfl).trans (ext_all _)))
  have f5 : wd.extractLsb' 1 2 = 0x0#2 := by rw [← hx]; exact (ext_hi _ _ _ _ rfl).trans ((ext_lo _ _ _ _ rfl).trans (ext_all _))
  have f6 : wd.extractLsb' 0 1 = t.code := by rw [← hx]; exact (ext_lo _ _ _ _ rfl).trans (ext_all _)
  refine decode_row f1 rfl ?_
  exact firstRow_hit (by simp only [rowIdiv, Sys2Proof.sw, f0, f2, f3, f4, f5, f6, Sgn_ofCode_code, reduceIte])

theorem RoundTrip.irem (sw : Bool) (d : BitVec 7) (a : BitVec 7) (b : BitVec 7) (t : Sgn) :
    RoundTrip.Statement (.irem sw d a b t) := by
  intro _ wd hx
  simp only [Instr.encode, Option.some.injEq] at hx
  have f0 : wd.getLsbD 31 = sw := by rw [← hx]; exact (bit_hi _ _ _ rfl).trans ((bit_hi _ _ _ rfl).trans ((bit_hi _ _ _ rfl).trans ((bit_hi _ _ _ rfl).trans ((bit_hi _ _ _ rfl).trans ((bit_hi _ _ _ rfl).trans (bit_one _))))))
  have f1 : wd.extractLsb' 24 7 = 0x08#7 := by rw [← hx]; exact (ext_hi _ _ _ _ rfl).trans ((ext_hi _ _ _ _ rfl).trans ((ext_hi _ _ _ _ rfl).trans ((ext_hi _ _ _ _ rfl).trans ((ext_hi _ _ _ _ rfl).trans ((ext_lo _ _ _ _ rfl).trans (ext_all _))))))
  have f2 : wd.extractLsb' 17 7 = d := by rw [← hx]; exact (ext_hi _ _ _ _ rfl).trans ((ext_hi _ _ _ _ rfl).trans ((ext_hi _ _ _ _ rfl).trans ((ext_hi _ _ _ _ rfl).trans ((ext_lo _ _ _ _ rfl).trans (ext_all _)))))
  have f3 : wd.extractLsb' 10 7 = a := by rw [← hx]; exact (ext_hi _ _ _ _ rfl).trans ((ext_hi _ _ _ _ rfl).trans ((ext_hi _ _ _ _ rfl).trans ((ext_lo _ _ _ _ rfl).trans (ext_all _))))
  have f4 : wd.extractLsb' 3 7 = b := by rw [← hx]; exact (ext_hi _ _ _ _ rfl).trans ((ext_hi _ _ _ _ rfl).trans ((ext_lo _ _ _ _ rfl).trans (ext_all _)))
  have f5 : wd.extractLsb' 1 2 = 0x0#2 := by rw [← hx]; exact (ext_hi _ _ _ _ rfl).trans ((ext_lo _ _ _ _ rfl).trans (ext_all _))
  have f6 : wd.extractLsb' 0 1 = t.code := by rw [← hx]; exact (ext_lo _ _ _ _ rfl).trans (ext_all _)
  refine decode_row f1 rfl ?_
  exact firstRow_hit (by simp only [rowIrem, Sys2Proof.sw, f0, f2, f3, f4, f5, f6, Sgn_ofCode_code, reduceIte])

theorem RoundTrip.imin (sw : Bool) (d : BitVec 7) (a : BitVec 7) (b : BitVec 7) (t : Sgn) :
    RoundTrip.Statement (.imin sw d a b t) := by
  intro _ wd hx
  simp only [Instr.encode, Option.some.injEq] at hx
  have f0 : wd.getLsbD 31 = sw := by rw [← hx]; exact (bit_hi _ _ _ rfl).trans ((bit_hi _ _ _ rfl).trans ((bit_hi _ _ _ rfl).trans ((bit_hi _ _ _ rfl).trans ((bit_hi _ _ _ rfl).trans ((bit_hi _ _ _ rfl).trans (bit_one _))))))
  have f1 : wd.extractLsb' 24 7 = 0x09#7 := by rw [← hx]; exact (ext_hi _ _ _ _ rfl).trans ((ext_hi _ _ _ _ rfl).trans ((ext_hi _ _ _ _ rfl).trans ((ext_hi _ _ _ _ rfl).trans ((ext_hi _ _ _ _ rfl).trans ((ext_lo _ _ _ _ rfl).trans (ext_all _))))))
  have f2 : wd.extractLsb' 17 7 = d := by rw [← hx]; exact (ext_hi _ _ _ _ rfl).trans ((ext_hi _ _ _ _ rfl).trans ((ext_hi _ _ _ _ rfl).trans ((ext_hi _ _ _ _ rfl).trans ((ext_lo _ _ _ _ rfl).trans (ext_all _)))))
  have f3 : wd.extractLsb' 10 7 = a := by rw [← hx]; exact (ext_hi _ _ _ _ rfl).trans ((ext_hi _ _ _ _ rfl).trans ((ext_hi _ _ _ _ rfl).trans ((ext_lo _ _ _ _ rfl).trans (ext_all _))))
  have f4 : wd.extractLsb' 3 7 = b := by rw [← hx]; exact (ext_hi _ _ _ _ rfl).trans ((ext_hi _ _ _ _ rfl).trans ((ext_lo _ _ _ _ rfl).trans (ext_all _)))
  have f5 : wd.extractLsb' 1 2 = 0x0#2 := by rw [← hx]; exact (ext_hi _ _ _ _ rfl).trans ((ext_lo _ _ _ _ rfl).trans (ext_all _))
  have f6 : wd.extractLsb' 0 1 = t.code := by rw [← hx]; exact (ext_lo _ _ _ _ rfl).trans (ext_all _)
  refine decode_row f1 rfl ?_
  exact firstRow_hit (by simp only [rowImin, Sys2Proof.sw, f0, f2, f3, f4, f5, f6, Sgn_ofCode_code, reduceIte])

theorem RoundTrip.imax (sw : Bool) (d : BitVec 7) (a : BitVec 7) (b : BitVec 7) (t : Sgn) :
    RoundTrip.Statement (.imax sw d a b t) := by
  intro _ wd hx
  simp only [Instr.encode, Option.some.injEq] at hx
  have f0 : wd.getLsbD 31 = sw := by rw [← hx]; exact (bit_hi _ _ _ rfl).trans ((bit_hi _ _ _ rfl).trans ((bit_hi _ _ _ rfl).trans ((bit_hi _ _ _ rfl).trans ((bit_hi _ _ _ rfl).trans ((bit_hi _ _ _ rfl).trans (bit_one _))))))
  have f1 : wd.extractLsb' 24 7 = 0x09#7 := by rw [← hx]; exact (ext_hi _ _ _ _ rfl).trans ((ext_hi _ _ _ _ rfl).trans ((ext_hi _ _ _ _ rfl).trans ((ext_hi _ _ _ _ rfl).trans ((ext_hi _ _ _ _ rfl).trans ((ext_lo _ _ _ _ rfl).trans (ext_all _))))))
  have f2 : wd.extractLsb' 17 7 = d := by rw [← hx]; exact (ext_hi _ _ _ _ rfl).trans ((ext_hi _ _ _ _ rfl).trans ((ext_hi _ _ _ _ rfl).trans ((ext_hi _ _ _ _ rfl).trans ((ext_lo _ _ _ _ rfl).trans (ext_all _)))))
  have f3 : wd.extractLsb' 10 7 = a := by rw [← hx]; exact (ext_hi _ _ _ _ rfl).trans ((ext_hi _ _ _ _ rfl).trans ((ext_hi _ _ _ _ rfl).trans ((ext_lo _ _ _ _ rfl).trans (ext_all _))))
  have f4 : wd.extractLsb' 3 7 = b := by rw [← hx]; exact (ext_hi _ _ _ _ rfl).trans ((ext_hi _ _ _ _ rfl).trans ((ext_lo _ _ _ _ rfl).trans (ext_all _)))
  have f5 : wd.extractLsb' 1 2 = 0x1#2 := by rw [← hx]; exact (ext_hi _ _ _ _ rfl).trans ((ext_lo _ _ _ _ rfl).trans (ext_all _))
  have f6 : wd.extractLsb' 0 1 = t.code := by rw [← hx]; exact (ext_lo _ _ _ _ rfl).trans (ext_all _)
  refine decode_row f1 rfl ?_
  refine firstRow_skip (if_neg fun hc => absurd (f5.symm.trans hc) (by decide)) ?_
  exact firstRow_hit (by simp only [rowImax, Sys2Proof.sw, f0, f2, f3, f4, f5, f6, Sgn_ofCode_code, reduceIte])

theorem RoundTrip.iabs (sw : Bool) (d : BitVec 7) (a : BitVec 7) :
    RoundTrip.Statement (.iabs sw d a) := by
  intro _ wd hx
  simp only [Instr.encode, Option.some.injEq] at hx
  have f0 : wd.getLsbD 31 = sw := by rw [← hx]; exact (bit_hi _ _ _ rfl).trans ((bit_hi _ _ _ rfl).trans ((bit_hi _ _ _ rfl).trans ((bit_hi _ _ _ rfl).trans (bit_one _))))
  have f1 : wd.extractLsb' 24 7 = 0x0A#7 := by rw [← hx]; exact (ext_hi _ _ _ _ rfl).trans ((ext_hi _ _ _ _ rfl).trans ((ext_hi _ _ _ _ rfl).trans ((ext_lo _ _ _ _ rfl).trans (ext_all _))))
  have f2 : wd.extractLsb' 17 7 = d := by rw [← hx]; exact (ext_hi _ _ _ _ rfl).trans ((ext_hi _ _ _ _ rfl).trans ((ext_lo _ _ _ _ rfl).trans (ext_all _)))
  have f3 : wd.extractLsb' 10 7 = a := by rw [← hx]; exact (ext_hi _ _ _ _ rfl).trans ((ext_lo _ _ _ _ rfl).trans (ext_all _))
  have f4 : wd.extractLsb' 0 10 = 0x0#10 := by rw [← hx]; exact (ext_lo _ _ _ _ rfl).trans (ext_all _)
  refine decode_row f1 rfl ?_
  exact firstRow_hit (by simp only [rowIabs, Sys2Proof.sw, f0, f2, f3, f4, reduceIte])

theorem RoundTrip.ineg (sw : Bool) (d : BitVec 7) (a : BitVec 7) :
    RoundTrip.Statement (.ineg sw d a) := by
  intro _ wd hx
  simp only [Instr.encode, Option.some.injEq] at hx
  have f0 : wd.getLsbD 31 = sw := by rw [← hx]; exact (bit_hi _ _ _ rfl).trans ((bit_hi _ _ _ rfl).trans ((bit_hi _ _ _ rfl).trans ((bit_hi _ _ _ rfl).trans (bit_one _))))
  have f1 : wd.extractLsb' 24 7 = 0x0A#7 := by rw [← hx]; exact (ext_hi _ _ _ _ rfl).trans ((ext_hi _ _ _ _ rfl).trans ((ext_hi _ _ _ _ rfl).trans ((ext_lo _ _ _ _ rfl).trans (ext_all _))))
  have f2 : wd.extractLsb' 17 7 = d := by rw [← hx]; exact (ext_hi _ _ _ _ rfl).trans ((ext_hi _ _ _ _ rfl).trans ((ext_lo _ _ _ _ rfl).trans (ext_all _)))
  have f3 : wd.extractLsb' 10 7 = a := by rw [← hx]; exact (ext_hi _ _ _ _ rfl).trans ((ext_lo _ _ _ _ rfl).trans (ext_all _))
  have f4 : wd.extractLsb' 0 10 = 0x1#10 := by rw [← hx]; exact (ext_lo _ _ _ _ rfl).trans (ext_all _)
  refine decode_row f1 rfl ?_
  refine firstRow_skip (if_neg fun hc => absurd (f4.symm.trans hc) (by decide)) ?_
  exact firstRow_hit (by simp only [rowIneg, Sys2Proof.sw, f0, f2, f3, f4, reduceIte])

theorem RoundTrip.andR (sw : Bool) (d : BitVec 7) (a : BitVec 7) (b : BitVec 7) (w : Width) :
    RoundTrip.Statement (.andR sw d a b w) := by
  intro _ wd hx
  simp only [Instr.encode, Option.some.injEq] at hx
  have f0 : wd.getLsbD 31 = sw := by rw [← hx]; exact (bit_hi _ _ _ rfl).trans ((bit_hi _ _ _ rfl).trans ((bit_hi _ _ _ rfl).trans ((bit_hi _ _ _ rfl).trans ((bit_hi _ _ _ rfl).trans ((bit_hi _ _ _ rfl).trans (bit_one _))))))
  have f1 : wd.extractLsb' 24 7 = 0x0B#7 := by rw [← hx]; exact (ext_hi _ _ _ _ rfl).trans ((ext_hi _ _ _ _ rfl).trans ((ext_hi _ _ _ _ rfl).trans ((ext_hi _ _ _ _ rfl).trans ((ext_hi _ _ _ _ rfl).trans ((ext_lo _ _ _ _ rfl).trans (ext_all _))))))
  have f2 : wd.extractLsb' 17 7 = d := by rw [← hx]; exact (ext_hi _ _ _ _ rfl).trans ((ext_hi _ _ _ _ rfl).trans ((ext_hi _ _ _ _ rfl).trans ((ext_hi _ _ _ _ rfl).trans ((ext_lo _ _ _ _ rfl).trans (ext_all _)))))
  have f3 : wd.extractLsb' 10 7 = a := by rw [← hx]; exact (ext_hi _ _ _ _ rfl).trans ((ext_hi _ _ _ _ rfl).trans ((ext_hi _ _ _ _ rfl).trans ((ext_lo _ _ _ _ rfl).trans (ext_all _))))
  have f4 : wd.extractLsb' 3 7 = b := by rw [← hx]; exact (ext_hi _ _ _ _ rfl).trans ((ext_hi _ _ _ _ rfl).trans ((ext_lo _ _ _ _ rfl).trans (ext_all _)))
  have f5 : wd.extractLsb' 2 1 = w.code := by rw [← hx]; exact (ext_hi _ _ _ _ rfl).trans ((ext_lo _ _ _ _ rfl).trans (ext_all _))
  have f6 : wd.extractLsb' 0 2 = 0x0#2 := by rw [← hx]; exact (ext_lo _ _ _ _ rfl).trans (ext_all _)
  refine decode_row f1 rfl ?_
  exact firstRow_hit (by simp only [rowAndR, Sys2Proof.sw, f0, f2, f3, f4, f5, f6, Width_ofCode_code, reduceIte])

theorem RoundTrip.orR (sw : Bool) (d : BitVec 7) (a : BitVec 7) (b : BitVec 7) (w : Width) :
    RoundTrip.Statement (.orR sw d a b w) := by
  intro _ wd hx
  simp only [Instr.encode, Option.some.injEq] at hx
  have f0 : wd.getLsbD 31 = sw := by rw [← hx]; exact (bit_hi _ _ _ rfl).trans ((bit_hi _ _ _ rfl).trans ((bit_hi _ _ _ rfl).trans ((bit_hi _ _ _ rfl).trans ((bit_hi _ _ _ rfl).trans ((bit_hi _ _ _ rfl).trans (bit_one _))))))
  have f1 : wd.extractLsb' 24 7 = 0x0B#7 := by rw [← hx]; exact (ext_hi _ _ _ _ rfl).trans ((ext_hi _ _ _ _ rfl).trans ((ext_hi _ _ _ _ rfl).trans ((ext_hi _ _ _ _ rfl).trans ((ext_hi _ _ _ _ rfl).trans ((ext_lo _ _ _ _ rfl).trans (ext_all _))))))
  have f2 : wd.extractLsb' 17 7 = d := by rw [← hx]; exact (ext_hi _ _ _ _ rfl).trans ((ext_hi _ _ _ _ rfl).trans ((ext_hi _ _ _ _ rfl).trans ((ext_hi _ _ _ _ rfl).trans ((ext_lo _ _ _ _ rfl).trans (ext_all _)))))
  have f3 : wd.extractLsb' 10 7 = a := by rw [← hx]; exact (ext_hi _ _ _ _ rfl).trans ((ext_hi _ _ _ _ rfl).trans ((ext_hi _ _ _ _ rfl).trans ((ext_lo _ _ _ _ rfl).trans (ext_all _))))
  have f4 : wd.extractLsb' 3 7 = b := by rw [← hx]; exact (ext_hi _ _ _ _ rfl).trans ((ext_hi _ _ _ _ rfl).trans ((ext_lo _ _ _ _ rfl).trans (ext_all _)))
  have f5 : wd.extractLsb' 2 1 = w.code := by rw [← hx]; exact (ext_hi _ _ _ _ rfl).trans ((ext_lo _ _ _ _ rfl).trans (ext_all _))
  have f6 : wd.extractLsb' 0 2 = 0x1#2 := by rw [← hx]; exact (ext_lo _ _ _ _ rfl).trans (ext_all _)
  refine decode_row f1 rfl ?_
  refine firstRow_skip (if_neg fun hc => absurd (f6.symm.trans hc) (by decide)) ?_
  exact firstRow_hit (by simp only [rowOrR, Sys2Proof.sw, f0, f2, f3, f4, f5, f6, Width_ofCode_code, reduceIte])

theorem RoundTrip.xorR (sw : Bool) (d : BitVec 7) (a : BitVec 7) (b : BitVec 7) (w : Width) :
    RoundTrip.Statement (.xorR sw d a b w) := by
  intro _ wd hx
  simp only [Instr.encode, Option.some.injEq] at hx
  have f0 : wd.getLsbD 31 = sw := by rw [← hx]; exact (bit_hi _ _ _ rfl).trans ((bit_hi _ _ _ rfl).trans ((bit_hi _ _ _ rfl).trans ((bit_hi _ _ _ rfl).trans ((bit_hi _ _ _ rfl).trans ((bit_hi _ _ _ rfl).trans (bit_one _))))))
  have f1 : wd.extractLsb' 24 7 = 0x0B#7 := by rw [← hx]; exact (ext_hi _ _ _ _ rfl).trans ((ext_hi _ _ _ _ rfl).trans ((ext_hi _ _ _ _ rfl).trans ((ext_hi _ _ _ _ rfl).trans ((ext_hi _ _ _ _ rfl).trans ((ext_lo _ _ _ _ rfl).trans (ext_all _))))))
  have f2 : wd.extractLsb' 17 7 = d := by rw [← hx]; exact (ext_hi _ _ _ _ rfl).trans ((ext_hi _ _ _ _ rfl).trans ((ext_hi _ _ _ _ rfl).trans ((ext_hi _ _ _ _ rfl).trans ((ext_lo _ _ _ _ rfl).trans (ext_all _)))))
  have f3 : wd.extractLsb' 10 7 = a := by rw [← hx]; exact (ext_hi _ _ _ _ rfl).trans ((ext_hi _ _ _ _ rfl).trans ((ext_hi _ _ _ _ rfl).trans ((ext_lo _ _ _ _ rfl).trans (ext_all _))))
  have f4 : wd.extractLsb' 3 7 = b := by rw [← hx]; exact (ext_hi _ _ _ _ rfl).trans ((ext_hi _ _ _ _ rfl).trans ((ext_lo _ _ _ _ rfl).trans (ext_all _)))
  have f5 : wd.extractLsb' 2 1 = w.code := by rw [← hx]; exact (ext_hi _ _ _ _ rfl).trans ((ext_lo _ _ _ _ rfl).trans (ext_all _))
  have f6 : wd.extractLsb' 0 2 = 0x2#2 := by rw [← hx]; exact (ext_lo _ _ _ _ rfl).trans (ext_all _)
  refine decode_row f1 rfl ?_
  refine firstRow_skip (if_neg fun hc => absurd (f6.symm.trans hc) (by decide)) ?_
  refine firstRow_skip (if_neg fun hc => absurd (f6.symm.trans hc) (by decide)) ?_
  exact firstRow_hit (by simp only [rowXorR, Sys2Proof.sw, f0, f2, f3, f4, f5, f6, Width_ofCode_code, reduceIte])

theorem RoundTrip.andnR (sw : Bool) (d : BitVec 7) (a : BitVec 7) (b : BitVec 7) (w : Width) :
    RoundTrip.Statement (.andnR sw d a b w) := by
  intro _ wd hx
  simp only [Instr.encode, Option.some.injEq] at hx
  have f0 : wd.getLsbD 31 = sw := by rw [← hx]; exact (bit_hi _ _ _ rfl).trans ((bit_hi _ _ _ rfl).trans ((bit_hi _ _ _ rfl).trans ((bit_hi _ _ _ rfl).trans ((bit_hi _ _ _ rfl).trans ((bit_hi _ _ _ rfl).trans (bit_one _))))))
  have f1 : wd.extractLsb' 24 7 = 0x0B#7 := by rw [← hx]; exact (ext_hi _ _ _ _ rfl).trans ((ext_hi _ _ _ _ rfl).trans ((ext_hi _ _ _ _ rfl).trans ((ext_hi _ _ _ _ rfl).trans ((ext_hi _ _ _ _ rfl).trans ((ext_lo _ _ _ _ rfl).trans (ext_all _))))))
  have f2 : wd.extractLsb' 17 7 = d := by rw [← hx]; exact (ext_hi _ _ _ _ rfl).trans ((ext_hi _ _ _ _ rfl).trans ((ext_hi _ _ _ _ rfl).trans ((ext_hi _ _ _ _ rfl).trans ((ext_lo _ _ _ _ rfl).trans (ext_all _)))))
  have f3 : wd.extractLsb' 10 7 = a := by rw [← hx]; exact (ext_hi _ _ _ _ rfl).trans ((ext_hi _ _ _ _ rfl).trans ((ext_hi _ _ _ _ rfl).trans ((ext_lo _ _ _ _ rfl).trans (ext_all _))))
  have f4 : wd.extractLsb' 3 7 = b := by rw [← hx]; exact (ext_hi _ _ _ _ rfl).trans ((ext_hi _ _ _ _ rfl).trans ((ext_lo _ _ _ _ rfl).trans (ext_all _)))
  have f5 : wd.extractLsb' 2 1 = w.code := by rw [← hx]; exact (ext_hi _ _ _ _ rfl).trans ((ext_lo _ _ _ _ rfl).trans (ext_all _))
  have f6 : wd.extractLsb' 0 2 = 0x3#2 := by rw [← hx]; exact (ext_lo _ _ _ _ rfl).trans (ext_all _)
  refine decode_row f1 rfl ?_
  refine firstRow_skip (if_neg fun hc => absurd (f6.symm.trans hc) (by decide)) ?_
  refine firstRow_skip (if_neg fun hc => absurd (f6.symm.trans hc) (by decide)) ?_
  refine firstRow_skip (if_neg fun hc => absurd (f6.symm.trans hc) (by decide)) ?_
  exact firstRow_hit (by simp only [rowAndnR, Sys2Proof.sw, f0, f2, f3, f4, f5, f6, Width_ofCode_code, reduceIte])

theorem RoundTrip.andImm (sw : Bool) (d : BitVec 7) (a : BitVec 7) (i : BitVec 10) :
    RoundTrip.Statement (.andImm sw d a i) := by
  intro _ wd hx
  simp only [Instr.encode, Option.some.injEq] at hx
  have f0 : wd.getLsbD 31 = sw := by rw [← hx]; exact (bit_hi _ _ _ rfl).trans ((bit_hi _ _ _ rfl).trans ((bit_hi _ _ _ rfl).trans ((bit_hi _ _ _ rfl).trans (bit_one _))))
  have f1 : wd.extractLsb' 24 7 = 0x0C#7 := by rw [← hx]; exact (ext_hi _ _ _ _ rfl).trans ((ext_hi _ _ _ _ rfl).trans ((ext_hi _ _ _ _ rfl).trans ((ext_lo _ _ _ _ rfl).trans (ext_all _))))
  have f2 : wd.extractLsb' 17 7 = d := by rw [← hx]; exact (ext_hi _ _ _ _ rfl).trans ((ext_hi _ _ _ _ rfl).trans ((ext_lo _ _ _ _ rfl).trans (ext_all _)))
  have f3 : wd.extractLsb' 10 7 = a := by rw [← hx]; exact (ext_hi _ _ _ _ rfl).trans ((ext_lo _ _ _ _ rfl).trans (ext_all _))
  have f4 : wd.extractLsb' 0 10 = i := by rw [← hx]; exact (ext_lo _ _ _ _ rfl).trans (ext_all _)
  refine decode_row f1 rfl ?_
  exact firstRow_hit (by simp only [rowAndImm, Sys2Proof.sw, f0, f2, f3, f4])

theorem RoundTrip.isubImm (sw : Bool) (d : BitVec 7) (a : BitVec 7) (i : BitVec 10) :
    RoundTrip.Statement (.isubImm sw d a i) := by
  intro _ wd hx
  simp only [Instr.encode, Option.some.injEq] at hx
  have f0 : wd.getLsbD 31 = sw := by rw [← hx]; exact (bit_hi _ _ _ rfl).trans ((bit_hi _ _ _ rfl).trans ((bit_hi _ _ _ rfl).trans ((bit_hi _ _ _ rfl).trans (bit_one _))))
  have f1 : wd.extractLsb' 24 7 = 0x0D#7 := by rw [← hx]; exact (ext_hi _ _ _ _ rfl).trans ((ext_hi _ _ _ _ rfl).trans ((ext_hi _ _ _ _ rfl).trans ((ext_lo _ _ _ _ rfl).trans (ext_all _))))
  have f2 : wd.extractLsb' 17 7 = d := by rw [← hx]; exact (ext_hi _ _ _ _ rfl).trans ((ext_hi _ _ _ _ rfl).trans ((ext_lo _ _ _ _ rfl).trans (ext_all _)))
  have f3 : wd.extractLsb' 10 7 = a := by rw [← hx]; exact (ext_hi _ _ _ _ rfl).trans ((ext_lo _ _ _ _ rfl).trans (ext_all _))
  have f4 : wd.extractLsb' 0 10 = i := by rw [← hx]; exact (ext_lo _ _ _ _ rfl).trans (ext_all _)
  refine decode_row f1 rfl ?_
  exact firstRow_hit (by simp only [rowIsubImm, Sys2Proof.sw, f0, f2, f3, f4])

theorem RoundTrip.shl (sw : Bool) (d : BitVec 7) (a : BitVec 7) (b : BitVec 7) (w : Width) :
    RoundTrip.Statement (.shl sw d a b w) := by
  intro _ wd hx
  simp only [Instr.encode, Option.some.injEq] at hx
  have f0 : wd.getLsbD 31 = sw := by rw [← hx]; exact (bit_hi _ _ _ rfl).trans ((bit_hi _ _ _ rfl).trans ((bit_hi _ _ _ rfl).trans ((bit_hi _ _ _ rfl).trans ((bit_hi _ _ _ rfl).trans ((bit_hi _ _ _ rfl).trans (bit_one _))))))
  have f1 : wd.extractLsb' 24 7 = 0x0E#7 := by rw [← hx]; exact (ext_hi _ _ _ _ rfl).trans ((ext_hi _ _ _ _ rfl).trans ((ext_hi _ _ _ _ rfl).trans ((ext_hi _ _ _ _ rfl).trans ((ext_hi _ _ _ _ rfl).trans ((ext_lo _ _ _ _ rfl).trans (ext_all _))))))
  have f2 : wd.extractLsb' 17 7 = d := by rw [← hx]; exact (ext_hi _ _ _ _ rfl).trans ((ext_hi _ _ _ _ rfl).trans ((ext_hi _ _ _ _ rfl).trans ((ext_hi _ _ _ _ rfl).trans ((ext_lo _ _ _ _ rfl).trans (ext_all _)))))
  have f3 : wd.extractLsb' 10 7 = a := by rw [← hx]; exact (ext_hi _ _ _ _ rfl).trans ((ext_hi _ _ _ _ rfl).trans ((ext_hi _ _ _ _ rfl).trans ((ext_lo _ _ _ _ rfl).trans (ext_all _))))
  have f4 : wd.extractLsb' 3 7 = b := by rw [← hx]; exact (ext_hi _ _ _ _ rfl).trans ((ext_hi _ _ _ _ rfl).trans ((ext_lo _ _ _ _ rfl).trans (ext_all _)))
  have f5 : wd.extractLsb' 2 1 = w.code := by rw [← hx]; exact (ext_hi _ _ _ _ rfl).trans ((ext_lo _ _ _ _ rfl).trans (ext_all _))
  have f6 : wd.extractLsb' 0 2 = 0x0#2 := by rw [← hx]; exact (ext_lo _ _ _ _ rfl).trans (ext_all _)
  refine decode_row f1 rfl ?_
  exact firstRow_hit (by simp only [rowShl, Sys2Proof.sw, f0, f2, f3, f4, f5, f6, Width_ofCode_code, reduceIte])

theorem RoundTrip.shr (sw : Bool) (d : BitVec 7) (a : BitVec 7) (b : BitVec 7) (w : Width) :
    RoundTrip.Statement (.shr sw d a b w) := by
  intro _ wd hx
  simp only [Instr.encode, Option.some.injEq] at hx
  have f0 : wd.getLsbD 31 = sw := by rw [← hx]; exact (bit_hi _ _ _ rfl).trans ((bit_hi _ _ _ rfl).trans ((bit_hi _ _ _ rfl).trans ((bit_hi _ _ _ rfl).trans ((bit_hi _ _ _ rfl).trans ((bit_hi _ _ _ rfl).trans (bit_one _))))))
  have f1 : wd.extractLsb' 24 7 = 0x0E#7 := by rw [← hx]; exact (ext_hi _ _ _ _ rfl).trans ((ext_hi _ _ _ _ rfl).trans ((ext_hi _ _ _ _ rfl).trans ((ext_hi _ _ _ _ rfl).trans ((ext_hi _ _ _ _ rfl).trans ((ext_lo _ _ _ _ rfl).trans (ext_all _))))))
  have f2 : wd.extractLsb' 17 7 = d := by rw [← hx]; exact (ext_hi _ _ _ _ rfl).trans ((ext_hi _ _ _ _ rfl).trans ((ext_hi _ _ _ _ rfl).trans ((ext_hi _ _ _ _ rfl).trans ((ext_lo _ _ _ _ rfl).trans (ext_all _)))))
  have f3 : wd.extractLsb' 10 7 = a := by rw [← hx]; exact (ext_hi _ _ _ _ rfl).trans ((ext_hi _ _ _ _ rfl).trans ((ext_hi _ _ _ _ rfl).trans ((ext_lo _ _ _ _ rfl).trans (ext_all _))))
  have f4 : wd.extractLsb' 3 7 = b := by rw [← hx]; exact (ext_hi _ _ _ _ rfl).trans ((ext_hi _ _ _ _ rfl).trans ((ext_lo _ _ _ _ rfl).trans (ext_all _)))
  have f5 : wd.extractLsb' 2 1 = w.code := by rw [← hx]; exact (ext_hi _ _ _ _ rfl).trans ((ext_lo _ _ _ _ rfl).trans (ext_all _))
  have f6 : wd.extractLsb' 0 2 = 0x1#2 := by rw [← hx]; exact (ext_lo _ _ _ _ rfl).trans (ext_all _)
  refine decode_row f1 rfl ?_
  refine firstRow_skip (if_neg fun hc => absurd (f6.symm.trans hc) (by decide)) ?_
  exact firstRow_hit (by simp only [rowShr, Sys2Proof.sw, f0, f2, f3, f4, f5, f6, Width_ofCode_code, reduceIte])

theorem RoundTrip.sar (sw : Bool) (d : BitVec 7) (a : BitVec 7) (b : BitVec 7) (w : Width) :
    RoundTrip.Statement (.sar sw d a b w) := by
  intro _ wd hx
  simp only [Instr.encode, Option.some.injEq] at hx
  have f0 : wd.getLsbD 31 = sw := by rw [← hx]; exact (bit_hi _ _ _ rfl).trans ((bit_hi _ _ _ rfl).trans ((bit_hi _ _ _ rfl).trans ((bit_hi _ _ _ rfl).trans ((bit_hi _ _ _ rfl).trans ((bit_hi _ _ _ rfl).trans (bit_one _))))))
  have f1 : wd.extractLsb' 24 7 = 0x0E#7 := by rw [← hx]; exact (ext_hi _ _ _ _ rfl).trans ((ext_hi _ _ _ _ rfl).trans ((ext_hi _ _ _ _ rfl).trans ((ext_hi _ _ _ _ rfl).trans ((ext_hi _ _ _ _ rfl).trans ((ext_lo _ _ _ _ rfl).trans (ext_all _))))))
  have f2 : wd.extractLsb' 17 7 = d := by rw [← hx]; exact (ext_hi _ _ _ _ rfl).trans ((ext_hi _ _ _ _ rfl).trans ((ext_hi _ _ _ _ rfl).trans ((ext_hi _ _ _ _ rfl).trans ((ext_lo _ _ _ _ rfl).trans (ext_all _)))))
  have f3 : wd.extractLsb' 10 7 = a := by rw [← hx]; exact (ext_hi _ _ _ _ rfl).trans ((ext_hi _ _ _ _ rfl).trans ((ext_hi _ _ _ _ rfl).trans ((ext_lo _ _ _ _ rfl).trans (ext_all _))))
  have f4 : wd.extractLsb' 3 7 = b := by rw [← hx]; exact (ext_hi _ _ _ _ rfl).trans ((ext_hi _ _ _ _ rfl).trans ((ext_lo _ _ _ _ rfl).trans (ext_all _)))
  have f5 : wd.extractLsb' 2 1 = w.code := by rw [← hx]; exact (ext_hi _ _ _ _ rfl).trans ((ext_lo _ _ _ _ rfl).trans (ext_all _))
  have f6 : wd.extractLsb' 0 2 = 0x2#2 := by rw [← hx]; exact (ext_lo _ _ _ _ rfl).trans (ext_all _)
  refine decode_row f1 rfl ?_
  refine firstRow_skip (if_neg fun hc => absurd (f6.symm.trans hc) (by decide)) ?_
  refine firstRow_skip (if_neg fun hc => absurd (f6.symm.trans hc) (by decide)) ?_
  exact firstRow_hit (by simp only [rowSar, Sys2Proof.sw, f0, f2, f3, f4, f5, f6, Width_ofCode_code, reduceIte])

theorem RoundTrip.rol (sw : Bool) (d : BitVec 7) (a : BitVec 7) (b : BitVec 7) :
    RoundTrip.Statement (.rol sw d a b) := by
  intro _ wd hx
  simp only [Instr.encode, Option.some.injEq] at hx
  have f0 : wd.getLsbD 31 = sw := by rw [← hx]; exact (bit_hi _ _ _ rfl).trans ((bit_hi _ _ _ rfl).trans ((bit_hi _ _ _ rfl).trans ((bit_hi _ _ _ rfl).trans ((bit_hi _ _ _ rfl).trans (bit_one _)))))
  have f1 : wd.extractLsb' 24 7 = 0x0E#7 := by rw [← hx]; exact (ext_hi _ _ _ _ rfl).trans ((ext_hi _ _ _ _ rfl).trans ((ext_hi _ _ _ _ rfl).trans ((ext_hi _ _ _ _ rfl).trans ((ext_lo _ _ _ _ rfl).trans (ext_all _)))))
  have f2 : wd.extractLsb' 17 7 = d := by rw [← hx]; exact (ext_hi _ _ _ _ rfl).trans ((ext_hi _ _ _ _ rfl).trans ((ext_hi _ _ _ _ rfl).trans ((ext_lo _ _ _ _ rfl).trans (ext_all _))))
  have f3 : wd.extractLsb' 10 7 = a := by rw [← hx]; exact (ext_hi _ _ _ _ rfl).trans ((ext_hi _ _ _ _ rfl).trans ((ext_lo _ _ _ _ rfl).trans (ext_all _)))
  have f4 : wd.extractLsb' 3 7 = b := by rw [← hx]; exact (ext_hi _ _ _ _ rfl).trans ((ext_lo _ _ _ _ rfl).trans (ext_all _))
  have f5 : wd.extractLsb' 0 3 = 0x3#3 := by rw [← hx]; exact (ext_lo _ _ _ _ rfl).trans (ext_all _)
  have bshl : wd.getLsbD 0 = true := by rw [← hx]; exact (bit_lo _ _ _ rfl).trans rfl
  have gshl : wd.extractLsb' 0 2 ≠ 0x0#2 := field_ne (k := 0) bshl rfl (by decide)
  have bshr : wd.getLsbD 1 = true := by rw [← hx]; exact (bit_lo _ _ _ rfl).trans rfl
  have gshr : wd.extractLsb' 0 2 ≠ 0x1#2 := field_ne (k := 1) bshr rfl (by decide)
  have bsar : wd.getLsbD 0 = true := by rw [← hx]; exact (bit_lo _ _ _ rfl).trans rfl
  have gsar : wd.extractLsb' 0 2 ≠ 0x2#2 := field_ne (k := 0) bsar rfl (by decide)
  refine decode_row f1 rfl ?_
  refine firstRow_skip (if_neg fun hc => gshl hc) ?_
  refine firstRow_skip (if_neg fun hc => gshr hc) ?_
  refine firstRow_skip (if_neg fun hc => gsar hc) ?_
  exact firstRow_hit (by simp only [rowRol, Sys2Proof.sw, f0, f2, f3, f4, f5, reduceIte])

theorem RoundTrip.shlImm (sw : Bool) (d : BitVec 7) (a : BitVec 7) (w : Width) (n : BitVec 6) :
    RoundTrip.Statement (.shlImm sw d a w n) := by
  intro h wd hx
  simp only [Instr.encode, Option.some.injEq] at hx
  have f0 : wd.getLsbD 31 = sw := by rw [← hx]; exact (bit_hi _ _ _ rfl).trans ((bit_hi _ _ _ rfl).trans ((bit_hi _ _ _ rfl).trans ((bit_hi _ _ _ rfl).trans ((bit_hi _ _ _ rfl).trans ((bit_hi _ _ _ rfl).trans (bit_one _))))))
  have f1 : wd.extractLsb' 24 7 = 0x0F#7 := by rw [← hx]; exact (ext_hi _ _ _ _ rfl).trans ((ext_hi _ _ _ _ rfl).trans ((ext_hi _ _ _ _ rfl).trans ((ext_hi _ _ _ _ rfl).trans ((ext_hi _ _ _ _ rfl).trans ((ext_lo _ _ _ _ rfl).trans (ext_all _))))))
  have f2 : wd.extractLsb' 17 7 = d := by rw [← hx]; exact (ext_hi _ _ _ _ rfl).trans ((ext_hi _ _ _ _ rfl).trans ((ext_hi _ _ _ _ rfl).trans ((ext_hi _ _ _ _ rfl).trans ((ext_lo _ _ _ _ rfl).trans (ext_all _)))))
  have f3 : wd.extractLsb' 10 7 = a := by rw [← hx]; exact (ext_hi _ _ _ _ rfl).trans ((ext_hi _ _ _ _ rfl).trans ((ext_hi _ _ _ _ rfl).trans ((ext_lo _ _ _ _ rfl).trans (ext_all _))))
  have f4 : wd.extractLsb' 9 1 = w.code := by rw [← hx]; exact (ext_hi _ _ _ _ rfl).trans ((ext_hi _ _ _ _ rfl).trans ((ext_lo _ _ _ _ rfl).trans (ext_all _)))
  have f5 : wd.extractLsb' 6 3 = 0x0#3 := by rw [← hx]; exact (ext_hi _ _ _ _ rfl).trans ((ext_lo _ _ _ _ rfl).trans (ext_all _))
  have f6 : wd.extractLsb' 0 6 = n := by rw [← hx]; exact (ext_lo _ _ _ _ rfl).trans (ext_all _)
  have b5 : wd.getLsbD 5 = n.getLsbD 5 := by rw [← hx]; exact bit_lo _ _ _ rfl
  have b9 : wd.getLsbD 9 = w.code.getLsbD 0 := by rw [← hx]; exact (bit_hi _ _ _ rfl).trans ((bit_hi _ _ _ rfl).trans ((bit_lo _ _ _ rfl).trans rfl))
  have hz : wd.getLsbD 9 = false → wd.getLsbD 5 = false := by
    rw [b9, b5]
    intro hw
    have hs : (Instr.shlImm sw d a w n).shiftOk = true := by
      simp only [Instr.wellFormed, Bool.and_eq_true] at h
      exact h.1.1
    cases w
    · simpa [Instr.shiftOk] using hs
    · simp [Width.code] at hw
  refine decode_row f1 rfl ?_
  exact firstRow_hit (by simp only [rowShlImm, Sys2Proof.sw, f0, f2, f3, f4, f5, f6, Width_ofCode_code, true_and, if_pos hz])

theorem RoundTrip.shrImm (sw : Bool) (d : BitVec 7) (a : BitVec 7) (w : Width) (n : BitVec 6) :
    RoundTrip.Statement (.shrImm sw d a w n) := by
  intro h wd hx
  simp only [Instr.encode, Option.some.injEq] at hx
  have f0 : wd.getLsbD 31 = sw := by rw [← hx]; exact (bit_hi _ _ _ rfl).trans ((bit_hi _ _ _ rfl).trans ((bit_hi _ _ _ rfl).trans ((bit_hi _ _ _ rfl).trans ((bit_hi _ _ _ rfl).trans ((bit_hi _ _ _ rfl).trans (bit_one _))))))
  have f1 : wd.extractLsb' 24 7 = 0x0F#7 := by rw [← hx]; exact (ext_hi _ _ _ _ rfl).trans ((ext_hi _ _ _ _ rfl).trans ((ext_hi _ _ _ _ rfl).trans ((ext_hi _ _ _ _ rfl).trans ((ext_hi _ _ _ _ rfl).trans ((ext_lo _ _ _ _ rfl).trans (ext_all _))))))
  have f2 : wd.extractLsb' 17 7 = d := by rw [← hx]; exact (ext_hi _ _ _ _ rfl).trans ((ext_hi _ _ _ _ rfl).trans ((ext_hi _ _ _ _ rfl).trans ((ext_hi _ _ _ _ rfl).trans ((ext_lo _ _ _ _ rfl).trans (ext_all _)))))
  have f3 : wd.extractLsb' 10 7 = a := by rw [← hx]; exact (ext_hi _ _ _ _ rfl).trans ((ext_hi _ _ _ _ rfl).trans ((ext_hi _ _ _ _ rfl).trans ((ext_lo _ _ _ _ rfl).trans (ext_all _))))
  have f4 : wd.extractLsb' 9 1 = w.code := by rw [← hx]; exact (ext_hi _ _ _ _ rfl).trans ((ext_hi _ _ _ _ rfl).trans ((ext_lo _ _ _ _ rfl).trans (ext_all _)))
  have f5 : wd.extractLsb' 6 3 = 0x2#3 := by rw [← hx]; exact (ext_hi _ _ _ _ rfl).trans ((ext_lo _ _ _ _ rfl).trans (ext_all _))
  have f6 : wd.extractLsb' 0 6 = n := by rw [← hx]; exact (ext_lo _ _ _ _ rfl).trans (ext_all _)
  have b5 : wd.getLsbD 5 = n.getLsbD 5 := by rw [← hx]; exact bit_lo _ _ _ rfl
  have b9 : wd.getLsbD 9 = w.code.getLsbD 0 := by rw [← hx]; exact (bit_hi _ _ _ rfl).trans ((bit_hi _ _ _ rfl).trans ((bit_lo _ _ _ rfl).trans rfl))
  have hz : wd.getLsbD 9 = false → wd.getLsbD 5 = false := by
    rw [b9, b5]
    intro hw
    have hs : (Instr.shrImm sw d a w n).shiftOk = true := by
      simp only [Instr.wellFormed, Bool.and_eq_true] at h
      exact h.1.1
    cases w
    · simpa [Instr.shiftOk] using hs
    · simp [Width.code] at hw
  refine decode_row f1 rfl ?_
  refine firstRow_skip (if_neg fun hc => absurd (f5.symm.trans hc.1) (by decide)) ?_
  exact firstRow_hit (by simp only [rowShrImm, Sys2Proof.sw, f0, f2, f3, f4, f5, f6, Width_ofCode_code, true_and, if_pos hz])

theorem RoundTrip.sarImm (sw : Bool) (d : BitVec 7) (a : BitVec 7) (w : Width) (n : BitVec 6) :
    RoundTrip.Statement (.sarImm sw d a w n) := by
  intro h wd hx
  simp only [Instr.encode, Option.some.injEq] at hx
  have f0 : wd.getLsbD 31 = sw := by rw [← hx]; exact (bit_hi _ _ _ rfl).trans ((bit_hi _ _ _ rfl).trans ((bit_hi _ _ _ rfl).trans ((bit_hi _ _ _ rfl).trans ((bit_hi _ _ _ rfl).trans ((bit_hi _ _ _ rfl).trans (bit_one _))))))
  have f1 : wd.extractLsb' 24 7 = 0x0F#7 := by rw [← hx]; exact (ext_hi _ _ _ _ rfl).trans ((ext_hi _ _ _ _ rfl).trans ((ext_hi _ _ _ _ rfl).trans ((ext_hi _ _ _ _ rfl).trans ((ext_hi _ _ _ _ rfl).trans ((ext_lo _ _ _ _ rfl).trans (ext_all _))))))
  have f2 : wd.extractLsb' 17 7 = d := by rw [← hx]; exact (ext_hi _ _ _ _ rfl).trans ((ext_hi _ _ _ _ rfl).trans ((ext_hi _ _ _ _ rfl).trans ((ext_hi _ _ _ _ rfl).trans ((ext_lo _ _ _ _ rfl).trans (ext_all _)))))
  have f3 : wd.extractLsb' 10 7 = a := by rw [← hx]; exact (ext_hi _ _ _ _ rfl).trans ((ext_hi _ _ _ _ rfl).trans ((ext_hi _ _ _ _ rfl).trans ((ext_lo _ _ _ _ rfl).trans (ext_all _))))
  have f4 : wd.extractLsb' 9 1 = w.code := by rw [← hx]; exact (ext_hi _ _ _ _ rfl).trans ((ext_hi _ _ _ _ rfl).trans ((ext_lo _ _ _ _ rfl).trans (ext_all _)))
  have f5 : wd.extractLsb' 6 3 = 0x4#3 := by rw [← hx]; exact (ext_hi _ _ _ _ rfl).trans ((ext_lo _ _ _ _ rfl).trans (ext_all _))
  have f6 : wd.extractLsb' 0 6 = n := by rw [← hx]; exact (ext_lo _ _ _ _ rfl).trans (ext_all _)
  have b5 : wd.getLsbD 5 = n.getLsbD 5 := by rw [← hx]; exact bit_lo _ _ _ rfl
  have b9 : wd.getLsbD 9 = w.code.getLsbD 0 := by rw [← hx]; exact (bit_hi _ _ _ rfl).trans ((bit_hi _ _ _ rfl).trans ((bit_lo _ _ _ rfl).trans rfl))
  have hz : wd.getLsbD 9 = false → wd.getLsbD 5 = false := by
    rw [b9, b5]
    intro hw
    have hs : (Instr.sarImm sw d a w n).shiftOk = true := by
      simp only [Instr.wellFormed, Bool.and_eq_true] at h
      exact h.1.1
    cases w
    · simpa [Instr.shiftOk] using hs
    · simp [Width.code] at hw
  refine decode_row f1 rfl ?_
  refine firstRow_skip (if_neg fun hc => absurd (f5.symm.trans hc.1) (by decide)) ?_
  refine firstRow_skip (if_neg fun hc => absurd (f5.symm.trans hc.1) (by decide)) ?_
  exact firstRow_hit (by simp only [rowSarImm, Sys2Proof.sw, f0, f2, f3, f4, f5, f6, Width_ofCode_code, true_and, if_pos hz])

theorem RoundTrip.rolImm (sw : Bool) (d : BitVec 7) (a : BitVec 7) (n : BitVec 5) :
    RoundTrip.Statement (.rolImm sw d a n) := by
  intro _ wd hx
  simp only [Instr.encode, Option.some.injEq] at hx
  have f0 : wd.getLsbD 31 = sw := by rw [← hx]; exact (bit_hi _ _ _ rfl).trans ((bit_hi _ _ _ rfl).trans ((bit_hi _ _ _ rfl).trans ((bit_hi _ _ _ rfl).trans ((bit_hi _ _ _ rfl).trans (bit_one _)))))
  have f1 : wd.extractLsb' 24 7 = 0x0F#7 := by rw [← hx]; exact (ext_hi _ _ _ _ rfl).trans ((ext_hi _ _ _ _ rfl).trans ((ext_hi _ _ _ _ rfl).trans ((ext_hi _ _ _ _ rfl).trans ((ext_lo _ _ _ _ rfl).trans (ext_all _)))))
  have f2 : wd.extractLsb' 17 7 = d := by rw [← hx]; exact (ext_hi _ _ _ _ rfl).trans ((ext_hi _ _ _ _ rfl).trans ((ext_hi _ _ _ _ rfl).trans ((ext_lo _ _ _ _ rfl).trans (ext_all _))))
  have f3 : wd.extractLsb' 10 7 = a := by rw [← hx]; exact (ext_hi _ _ _ _ rfl).trans ((ext_hi _ _ _ _ rfl).trans ((ext_lo _ _ _ _ rfl).trans (ext_all _)))
  have f4 : wd.extractLsb' 5 5 = 0xC#5 := by rw [← hx]; exact (ext_hi _ _ _ _ rfl).trans ((ext_lo _ _ _ _ rfl).trans (ext_all _))
  have f5 : wd.extractLsb' 0 5 = n := by rw [← hx]; exact (ext_lo _ _ _ _ rfl).trans (ext_all _)
  have bshlImm : wd.getLsbD 7 = true := by rw [← hx]; exact (bit_hi _ _ _ rfl).trans ((bit_lo _ _ _ rfl).trans rfl)
  have gshlImm : wd.extractLsb' 6 3 ≠ 0x0#3 := field_ne (k := 1) bshlImm rfl (by decide)
  have bshrImm : wd.getLsbD 8 = true := by rw [← hx]; exact (bit_hi _ _ _ rfl).trans ((bit_lo _ _ _ rfl).trans rfl)
  have gshrImm : wd.extractLsb' 6 3 ≠ 0x2#3 := field_ne (k := 2) bshrImm rfl (by decide)
  have bsarImm : wd.getLsbD 7 = true := by rw [← hx]; exact (bit_hi _ _ _ rfl).trans ((bit_lo _ _ _ rfl).trans rfl)
  have gsarImm : wd.extractLsb' 6 3 ≠ 0x4#3 := field_ne (k := 1) bsarImm rfl (by decide)
  refine decode_row f1 rfl ?_
  refine firstRow_skip (if_neg fun hc => gshlImm hc.1) ?_
  refine firstRow_skip (if_neg fun hc => gshrImm hc.1) ?_
  refine firstRow_skip (if_neg fun hc => gsarImm hc.1) ?_
  exact firstRow_hit (by simp only [rowRolImm, Sys2Proof.sw, f0, f2, f3, f4, f5, reduceIte])

theorem RoundTrip.popc (sw : Bool) (d : BitVec 7) (a : BitVec 7) (w : Width) :
    RoundTrip.Statement (.popc sw d a w) := by
  intro _ wd hx
  simp only [Instr.encode, Option.some.injEq] at hx
  have f0 : wd.getLsbD 31 = sw := by rw [← hx]; exact (bit_hi _ _ _ rfl).trans ((bit_hi _ _ _ rfl).trans ((bit_hi _ _ _ rfl).trans ((bit_hi _ _ _ rfl).trans ((bit_hi _ _ _ rfl).trans ((bit_hi _ _ _ rfl).trans (bit_one _))))))
  have f1 : wd.extractLsb' 24 7 = 0x10#7 := by rw [← hx]; exact (ext_hi _ _ _ _ rfl).trans ((ext_hi _ _ _ _ rfl).trans ((ext_hi _ _ _ _ rfl).trans ((ext_hi _ _ _ _ rfl).trans ((ext_hi _ _ _ _ rfl).trans ((ext_lo _ _ _ _ rfl).trans (ext_all _))))))
  have f2 : wd.extractLsb' 17 7 = d := by rw [← hx]; exact (ext_hi _ _ _ _ rfl).trans ((ext_hi _ _ _ _ rfl).trans ((ext_hi _ _ _ _ rfl).trans ((ext_hi _ _ _ _ rfl).trans ((ext_lo _ _ _ _ rfl).trans (ext_all _)))))
  have f3 : wd.extractLsb' 10 7 = a := by rw [← hx]; exact (ext_hi _ _ _ _ rfl).trans ((ext_hi _ _ _ _ rfl).trans ((ext_hi _ _ _ _ rfl).trans ((ext_lo _ _ _ _ rfl).trans (ext_all _))))
  have f4 : wd.extractLsb' 3 7 = 0x0#7 := by rw [← hx]; exact (ext_hi _ _ _ _ rfl).trans ((ext_hi _ _ _ _ rfl).trans ((ext_lo _ _ _ _ rfl).trans (ext_all _)))
  have f5 : wd.extractLsb' 2 1 = w.code := by rw [← hx]; exact (ext_hi _ _ _ _ rfl).trans ((ext_lo _ _ _ _ rfl).trans (ext_all _))
  have f6 : wd.extractLsb' 0 2 = 0x0#2 := by rw [← hx]; exact (ext_lo _ _ _ _ rfl).trans (ext_all _)
  refine decode_row f1 rfl ?_
  exact firstRow_hit (by simp only [rowPopc, Sys2Proof.sw, f0, f2, f3, f4, f5, f6, Width_ofCode_code, and_self, reduceIte])

theorem RoundTrip.clz (sw : Bool) (d : BitVec 7) (a : BitVec 7) :
    RoundTrip.Statement (.clz sw d a) := by
  intro _ wd hx
  simp only [Instr.encode, Option.some.injEq] at hx
  have f0 : wd.getLsbD 31 = sw := by rw [← hx]; exact (bit_hi _ _ _ rfl).trans ((bit_hi _ _ _ rfl).trans ((bit_hi _ _ _ rfl).trans ((bit_hi _ _ _ rfl).trans (bit_one _))))
  have f1 : wd.extractLsb' 24 7 = 0x10#7 := by rw [← hx]; exact (ext_hi _ _ _ _ rfl).trans ((ext_hi _ _ _ _ rfl).trans ((ext_hi _ _ _ _ rfl).trans ((ext_lo _ _ _ _ rfl).trans (ext_all _))))
  have f2 : wd.extractLsb' 17 7 = d := by rw [← hx]; exact (ext_hi _ _ _ _ rfl).trans ((ext_hi _ _ _ _ rfl).trans ((ext_lo _ _ _ _ rfl).trans (ext_all _)))
  have f3 : wd.extractLsb' 10 7 = a := by rw [← hx]; exact (ext_hi _ _ _ _ rfl).trans ((ext_lo _ _ _ _ rfl).trans (ext_all _))
  have f4 : wd.extractLsb' 0 10 = 0x1#10 := by rw [← hx]; exact (ext_lo _ _ _ _ rfl).trans (ext_all _)
  have bpopc : wd.getLsbD 0 = true := by rw [← hx]; exact (bit_lo _ _ _ rfl).trans rfl
  have gpopc : wd.extractLsb' 0 2 ≠ 0x0#2 := field_ne (k := 0) bpopc rfl (by decide)
  refine decode_row f1 rfl ?_
  refine firstRow_skip (if_neg fun hc => gpopc hc.2) ?_
  exact firstRow_hit (by simp only [rowClz, Sys2Proof.sw, f0, f2, f3, f4, reduceIte])

theorem RoundTrip.ctz (sw : Bool) (d : BitVec 7) (a : BitVec 7) :
    RoundTrip.Statement (.ctz sw d a) := by
  intro _ wd hx
  simp only [Instr.encode, Option.some.injEq] at hx
  have f0 : wd.getLsbD 31 = sw := by rw [← hx]; exact (bit_hi _ _ _ rfl).trans ((bit_hi _ _ _ rfl).trans ((bit_hi _ _ _ rfl).trans ((bit_hi _ _ _ rfl).trans (bit_one _))))
  have f1 : wd.extractLsb' 24 7 = 0x10#7 := by rw [← hx]; exact (ext_hi _ _ _ _ rfl).trans ((ext_hi _ _ _ _ rfl).trans ((ext_hi _ _ _ _ rfl).trans ((ext_lo _ _ _ _ rfl).trans (ext_all _))))
  have f2 : wd.extractLsb' 17 7 = d := by rw [← hx]; exact (ext_hi _ _ _ _ rfl).trans ((ext_hi _ _ _ _ rfl).trans ((ext_lo _ _ _ _ rfl).trans (ext_all _)))
  have f3 : wd.extractLsb' 10 7 = a := by rw [← hx]; exact (ext_hi _ _ _ _ rfl).trans ((ext_lo _ _ _ _ rfl).trans (ext_all _))
  have f4 : wd.extractLsb' 0 10 = 0x2#10 := by rw [← hx]; exact (ext_lo _ _ _ _ rfl).trans (ext_all _)
  have bpopc : wd.getLsbD 1 = true := by rw [← hx]; exact (bit_lo _ _ _ rfl).trans rfl
  have gpopc : wd.extractLsb' 0 2 ≠ 0x0#2 := field_ne (k := 1) bpopc rfl (by decide)
  refine decode_row f1 rfl ?_
  refine firstRow_skip (if_neg fun hc => gpopc hc.2) ?_
  refine firstRow_skip (if_neg fun hc => absurd (f4.symm.trans hc) (by decide)) ?_
  exact firstRow_hit (by simp only [rowCtz, Sys2Proof.sw, f0, f2, f3, f4, reduceIte])

theorem RoundTrip.brev (sw : Bool) (d : BitVec 7) (a : BitVec 7) :
    RoundTrip.Statement (.brev sw d a) := by
  intro _ wd hx
  simp only [Instr.encode, Option.some.injEq] at hx
  have f0 : wd.getLsbD 31 = sw := by rw [← hx]; exact (bit_hi _ _ _ rfl).trans ((bit_hi _ _ _ rfl).trans ((bit_hi _ _ _ rfl).trans ((bit_hi _ _ _ rfl).trans (bit_one _))))
  have f1 : wd.extractLsb' 24 7 = 0x10#7 := by rw [← hx]; exact (ext_hi _ _ _ _ rfl).trans ((ext_hi _ _ _ _ rfl).trans ((ext_hi _ _ _ _ rfl).trans ((ext_lo _ _ _ _ rfl).trans (ext_all _))))
  have f2 : wd.extractLsb' 17 7 = d := by rw [← hx]; exact (ext_hi _ _ _ _ rfl).trans ((ext_hi _ _ _ _ rfl).trans ((ext_lo _ _ _ _ rfl).trans (ext_all _)))
  have f3 : wd.extractLsb' 10 7 = a := by rw [← hx]; exact (ext_hi _ _ _ _ rfl).trans ((ext_lo _ _ _ _ rfl).trans (ext_all _))
  have f4 : wd.extractLsb' 0 10 = 0x3#10 := by rw [← hx]; exact (ext_lo _ _ _ _ rfl).trans (ext_all _)
  have bpopc : wd.getLsbD 0 = true := by rw [← hx]; exact (bit_lo _ _ _ rfl).trans rfl
  have gpopc : wd.extractLsb' 0 2 ≠ 0x0#2 := field_ne (k := 0) bpopc rfl (by decide)
  refine decode_row f1 rfl ?_
  refine firstRow_skip (if_neg fun hc => gpopc hc.2) ?_
  refine firstRow_skip (if_neg fun hc => absurd (f4.symm.trans hc) (by decide)) ?_
  refine firstRow_skip (if_neg fun hc => absurd (f4.symm.trans hc) (by decide)) ?_
  exact firstRow_hit (by simp only [rowBrev, Sys2Proof.sw, f0, f2, f3, f4, reduceIte])

theorem RoundTrip.bfxN32 (sw : Bool) (d : BitVec 7) (a : BitVec 7) (p : BitVec 5) (w : BitVec 5) :
    RoundTrip.Statement (.bfxN32 sw d a p w) := by
  intro _ wd hx
  simp only [Instr.encode, Option.some.injEq] at hx
  have f0 : wd.getLsbD 31 = sw := by rw [← hx]; exact (bit_hi _ _ _ rfl).trans ((bit_hi _ _ _ rfl).trans ((bit_hi _ _ _ rfl).trans ((bit_hi _ _ _ rfl).trans ((bit_hi _ _ _ rfl).trans (bit_one _)))))
  have f1 : wd.extractLsb' 24 7 = 0x11#7 := by rw [← hx]; exact (ext_hi _ _ _ _ rfl).trans ((ext_hi _ _ _ _ rfl).trans ((ext_hi _ _ _ _ rfl).trans ((ext_hi _ _ _ _ rfl).trans ((ext_lo _ _ _ _ rfl).trans (ext_all _)))))
  have f2 : wd.extractLsb' 17 7 = d := by rw [← hx]; exact (ext_hi _ _ _ _ rfl).trans ((ext_hi _ _ _ _ rfl).trans ((ext_hi _ _ _ _ rfl).trans ((ext_lo _ _ _ _ rfl).trans (ext_all _))))
  have f3 : wd.extractLsb' 10 7 = a := by rw [← hx]; exact (ext_hi _ _ _ _ rfl).trans ((ext_hi _ _ _ _ rfl).trans ((ext_lo _ _ _ _ rfl).trans (ext_all _)))
  have f4 : wd.extractLsb' 5 5 = p := by rw [← hx]; exact (ext_hi _ _ _ _ rfl).trans ((ext_lo _ _ _ _ rfl).trans (ext_all _))
  have f5 : wd.extractLsb' 0 5 = w := by rw [← hx]; exact (ext_lo _ _ _ _ rfl).trans (ext_all _)
  refine decode_row f1 rfl ?_
  exact firstRow_hit (by simp only [rowBfxN32, Sys2Proof.sw, f0, f2, f3, f4, f5])

theorem RoundTrip.bfxI32 (sw : Bool) (d : BitVec 7) (a : BitVec 7) (p : BitVec 5) (w : BitVec 5) :
    RoundTrip.Statement (.bfxI32 sw d a p w) := by
  intro _ wd hx
  simp only [Instr.encode, Option.some.injEq] at hx
  have f0 : wd.getLsbD 31 = sw := by rw [← hx]; exact (bit_hi _ _ _ rfl).trans ((bit_hi _ _ _ rfl).trans ((bit_hi _ _ _ rfl).trans ((bit_hi _ _ _ rfl).trans ((bit_hi _ _ _ rfl).trans (bit_one _)))))
  have f1 : wd.extractLsb' 24 7 = 0x12#7 := by rw [← hx]; exact (ext_hi _ _ _ _ rfl).trans ((ext_hi _ _ _ _ rfl).trans ((ext_hi _ _ _ _ rfl).trans ((ext_hi _ _ _ _ rfl).trans ((ext_lo _ _ _ _ rfl).trans (ext_all _)))))
  have f2 : wd.extractLsb' 17 7 = d := by rw [← hx]; exact (ext_hi _ _ _ _ rfl).trans ((ext_hi _ _ _ _ rfl).trans ((ext_hi _ _ _ _ rfl).trans ((ext_lo _ _ _ _ rfl).trans (ext_all _))))
  have f3 : wd.extractLsb' 10 7 = a := by rw [← hx]; exact (ext_hi _ _ _ _ rfl).trans ((ext_hi _ _ _ _ rfl).trans ((ext_lo _ _ _ _ rfl).trans (ext_all _)))
  have f4 : wd.extractLsb' 5 5 = p := by rw [← hx]; exact (ext_hi _ _ _ _ rfl).trans ((ext_lo _ _ _ _ rfl).trans (ext_all _))
  have f5 : wd.extractLsb' 0 5 = w := by rw [← hx]; exact (ext_lo _ _ _ _ rfl).trans (ext_all _)
  refine decode_row f1 rfl ?_
  exact firstRow_hit (by simp only [rowBfxI32, Sys2Proof.sw, f0, f2, f3, f4, f5])

theorem RoundTrip.bfi (sw : Bool) (d : BitVec 7) (a : BitVec 7) (p : BitVec 5) (w : BitVec 5) :
    RoundTrip.Statement (.bfi sw d a p w) := by
  intro _ wd hx
  simp only [Instr.encode, Option.some.injEq] at hx
  have f0 : wd.getLsbD 31 = sw := by rw [← hx]; exact (bit_hi _ _ _ rfl).trans ((bit_hi _ _ _ rfl).trans ((bit_hi _ _ _ rfl).trans ((bit_hi _ _ _ rfl).trans ((bit_hi _ _ _ rfl).trans (bit_one _)))))
  have f1 : wd.extractLsb' 24 7 = 0x13#7 := by rw [← hx]; exact (ext_hi _ _ _ _ rfl).trans ((ext_hi _ _ _ _ rfl).trans ((ext_hi _ _ _ _ rfl).trans ((ext_hi _ _ _ _ rfl).trans ((ext_lo _ _ _ _ rfl).trans (ext_all _)))))
  have f2 : wd.extractLsb' 17 7 = d := by rw [← hx]; exact (ext_hi _ _ _ _ rfl).trans ((ext_hi _ _ _ _ rfl).trans ((ext_hi _ _ _ _ rfl).trans ((ext_lo _ _ _ _ rfl).trans (ext_all _))))
  have f3 : wd.extractLsb' 10 7 = a := by rw [← hx]; exact (ext_hi _ _ _ _ rfl).trans ((ext_hi _ _ _ _ rfl).trans ((ext_lo _ _ _ _ rfl).trans (ext_all _)))
  have f4 : wd.extractLsb' 5 5 = p := by rw [← hx]; exact (ext_hi _ _ _ _ rfl).trans ((ext_lo _ _ _ _ rfl).trans (ext_all _))
  have f5 : wd.extractLsb' 0 5 = w := by rw [← hx]; exact (ext_lo _ _ _ _ rfl).trans (ext_all _)
  refine decode_row f1 rfl ?_
  exact firstRow_hit (by simp only [rowBfi, Sys2Proof.sw, f0, f2, f3, f4, f5])

theorem RoundTrip.iset (sw : Bool) (c : ICond) (g : Bool) (p : BitVec 3) (a : BitVec 7) (b : BitVec 7) (w : Width) :
    RoundTrip.Statement (.iset sw c g p a b w) := by
  intro _ wd hx
  simp only [Instr.encode, Option.some.injEq] at hx
  have f0 : wd.getLsbD 31 = sw := by rw [← hx]; exact (bit_hi _ _ _ rfl).trans ((bit_hi _ _ _ rfl).trans ((bit_hi _ _ _ rfl).trans ((bit_hi _ _ _ rfl).trans ((bit_hi _ _ _ rfl).trans ((bit_hi _ _ _ rfl).trans ((bit_hi _ _ _ rfl).trans ((bit_hi _ _ _ rfl).trans (bit_one _))))))))
  have f1 : wd.extractLsb' 24 7 = 0x14#7 := by rw [← hx]; exact (ext_hi _ _ _ _ rfl).trans ((ext_hi _ _ _ _ rfl).trans ((ext_hi _ _ _ _ rfl).trans ((ext_hi _ _ _ _ rfl).trans ((ext_hi _ _ _ _ rfl).trans ((ext_hi _ _ _ _ rfl).trans ((ext_hi _ _ _ _ rfl).trans ((ext_lo _ _ _ _ rfl).trans (ext_all _))))))))
  have f2 : wd.extractLsb' 21 3 = c.code := by rw [← hx]; exact (ext_hi _ _ _ _ rfl).trans ((ext_hi _ _ _ _ rfl).trans ((ext_hi _ _ _ _ rfl).trans ((ext_hi _ _ _ _ rfl).trans ((ext_hi _ _ _ _ rfl).trans ((ext_hi _ _ _ _ rfl).trans ((ext_lo _ _ _ _ rfl).trans (ext_all _)))))))
  have f3 : wd.getLsbD 20 = g := by rw [← hx]; exact (bit_hi _ _ _ rfl).trans ((bit_hi _ _ _ rfl).trans ((bit_hi _ _ _ rfl).trans ((bit_hi _ _ _ rfl).trans ((bit_hi _ _ _ rfl).trans ((bit_lo _ _ _ rfl).trans (bit_one _))))))
  have f4 : wd.extractLsb' 17 3 = p := by rw [← hx]; exact (ext_hi _ _ _ _ rfl).trans ((ext_hi _ _ _ _ rfl).trans ((ext_hi _ _ _ _ rfl).trans ((ext_hi _ _ _ _ rfl).trans ((ext_lo _ _ _ _ rfl).trans (ext_all _)))))
  have f5 : wd.extractLsb' 10 7 = a := by rw [← hx]; exact (ext_hi _ _ _ _ rfl).trans ((ext_hi _ _ _ _ rfl).trans ((ext_hi _ _ _ _ rfl).trans ((ext_lo _ _ _ _ rfl).trans (ext_all _))))
  have f6 : wd.extractLsb' 3 7 = b := by rw [← hx]; exact (ext_hi _ _ _ _ rfl).trans ((ext_hi _ _ _ _ rfl).trans ((ext_lo _ _ _ _ rfl).trans (ext_all _)))
  have f7 : wd.extractLsb' 1 2 = 0x0#2 := by rw [← hx]; exact (ext_hi _ _ _ _ rfl).trans ((ext_lo _ _ _ _ rfl).trans (ext_all _))
  have f8 : wd.extractLsb' 0 1 = w.code := by rw [← hx]; exact (ext_lo _ _ _ _ rfl).trans (ext_all _)
  refine decode_row f1 rfl ?_
  exact firstRow_hit (by simp only [rowIset, Sys2Proof.sw, f0, f2, f3, f4, f5, f6, f7, f8, ICond_ofCode_code, Width_ofCode_code, Option.bind_some, reduceIte])

theorem RoundTrip.isetImm (sw : Bool) (c : ICond) (g : Bool) (p : BitVec 3) (a : BitVec 7) (i : BitVec 10) :
    RoundTrip.Statement (.isetImm sw c g p a i) := by
  intro _ wd hx
  simp only [Instr.encode, Option.some.injEq] at hx
  have f0 : wd.getLsbD 31 = sw := by rw [← hx]; exact (bit_hi _ _ _ rfl).trans ((bit_hi _ _ _ rfl).trans ((bit_hi _ _ _ rfl).trans ((bit_hi _ _ _ rfl).trans ((bit_hi _ _ _ rfl).trans ((bit_hi _ _ _ rfl).trans (bit_one _))))))
  have f1 : wd.extractLsb' 24 7 = 0x15#7 := by rw [← hx]; exact (ext_hi _ _ _ _ rfl).trans ((ext_hi _ _ _ _ rfl).trans ((ext_hi _ _ _ _ rfl).trans ((ext_hi _ _ _ _ rfl).trans ((ext_hi _ _ _ _ rfl).trans ((ext_lo _ _ _ _ rfl).trans (ext_all _))))))
  have f2 : wd.extractLsb' 21 3 = c.code := by rw [← hx]; exact (ext_hi _ _ _ _ rfl).trans ((ext_hi _ _ _ _ rfl).trans ((ext_hi _ _ _ _ rfl).trans ((ext_hi _ _ _ _ rfl).trans ((ext_lo _ _ _ _ rfl).trans (ext_all _)))))
  have f3 : wd.getLsbD 20 = g := by rw [← hx]; exact (bit_hi _ _ _ rfl).trans ((bit_hi _ _ _ rfl).trans ((bit_hi _ _ _ rfl).trans ((bit_lo _ _ _ rfl).trans (bit_one _))))
  have f4 : wd.extractLsb' 17 3 = p := by rw [← hx]; exact (ext_hi _ _ _ _ rfl).trans ((ext_hi _ _ _ _ rfl).trans ((ext_lo _ _ _ _ rfl).trans (ext_all _)))
  have f5 : wd.extractLsb' 10 7 = a := by rw [← hx]; exact (ext_hi _ _ _ _ rfl).trans ((ext_lo _ _ _ _ rfl).trans (ext_all _))
  have f6 : wd.extractLsb' 0 10 = i := by rw [← hx]; exact (ext_lo _ _ _ _ rfl).trans (ext_all _)
  refine decode_row f1 rfl ?_
  exact firstRow_hit (by simp only [rowIsetImm, Sys2Proof.sw, f0, f2, f3, f4, f5, f6, ICond_ofCode_code, Option.bind_some])

theorem RoundTrip.isel (sw : Bool) (d : BitVec 7) (a : BitVec 7) (b : BitVec 7) (c : BitVec 3) :
    RoundTrip.Statement (.isel sw d a b c) := by
  intro _ wd hx
  simp only [Instr.encode, Option.some.injEq] at hx
  have f0 : wd.getLsbD 31 = sw := by rw [← hx]; exact (bit_hi _ _ _ rfl).trans ((bit_hi _ _ _ rfl).trans ((bit_hi _ _ _ rfl).trans ((bit_hi _ _ _ rfl).trans ((bit_hi _ _ _ rfl).trans (bit_one _)))))
  have f1 : wd.extractLsb' 24 7 = 0x16#7 := by rw [← hx]; exact (ext_hi _ _ _ _ rfl).trans ((ext_hi _ _ _ _ rfl).trans ((ext_hi _ _ _ _ rfl).trans ((ext_hi _ _ _ _ rfl).trans ((ext_lo _ _ _ _ rfl).trans (ext_all _)))))
  have f2 : wd.extractLsb' 17 7 = d := by rw [← hx]; exact (ext_hi _ _ _ _ rfl).trans ((ext_hi _ _ _ _ rfl).trans ((ext_hi _ _ _ _ rfl).trans ((ext_lo _ _ _ _ rfl).trans (ext_all _))))
  have f3 : wd.extractLsb' 10 7 = a := by rw [← hx]; exact (ext_hi _ _ _ _ rfl).trans ((ext_hi _ _ _ _ rfl).trans ((ext_lo _ _ _ _ rfl).trans (ext_all _)))
  have f4 : wd.extractLsb' 3 7 = b := by rw [← hx]; exact (ext_hi _ _ _ _ rfl).trans ((ext_lo _ _ _ _ rfl).trans (ext_all _))
  have f5 : wd.extractLsb' 0 3 = c := by rw [← hx]; exact (ext_lo _ _ _ _ rfl).trans (ext_all _)
  refine decode_row f1 rfl ?_
  exact firstRow_hit (by simp only [rowIsel, Sys2Proof.sw, f0, f2, f3, f4, f5])

theorem RoundTrip.psetAnd (sw : Bool) (p : BitVec 3) (x : BitVec 3) (y : BitVec 3) :
    RoundTrip.Statement (.psetAnd sw p x y) := by
  intro _ wd hx
  simp only [Instr.encode, Option.some.injEq] at hx
  have f0 : wd.getLsbD 31 = sw := by rw [← hx]; exact (bit_hi _ _ _ rfl).trans ((bit_hi _ _ _ rfl).trans ((bit_hi _ _ _ rfl).trans ((bit_hi _ _ _ rfl).trans ((bit_hi _ _ _ rfl).trans ((bit_hi _ _ _ rfl).trans ((bit_hi _ _ _ rfl).trans ((bit_hi _ _ _ rfl).trans (bit_one _))))))))
  have f1 : wd.extractLsb' 24 7 = 0x17#7 := by rw [← hx]; exact (ext_hi _ _ _ _ rfl).trans ((ext_hi _ _ _ _ rfl).trans ((ext_hi _ _ _ _ rfl).trans ((ext_hi _ _ _ _ rfl).trans ((ext_hi _ _ _ _ rfl).trans ((ext_hi _ _ _ _ rfl).trans ((ext_hi _ _ _ _ rfl).trans ((ext_lo _ _ _ _ rfl).trans (ext_all _))))))))
  have f2 : wd.extractLsb' 20 4 = 0x0#4 := by rw [← hx]; exact (ext_hi _ _ _ _ rfl).trans ((ext_hi _ _ _ _ rfl).trans ((ext_hi _ _ _ _ rfl).trans ((ext_hi _ _ _ _ rfl).trans ((ext_hi _ _ _ _ rfl).trans ((ext_hi _ _ _ _ rfl).trans ((ext_lo _ _ _ _ rfl).trans (ext_all _)))))))
  have f3 : wd.extractLsb' 17 3 = p := by rw [← hx]; exact (ext_hi _ _ _ _ rfl).trans ((ext_hi _ _ _ _ rfl).trans ((ext_hi _ _ _ _ rfl).trans ((ext_hi _ _ _ _ rfl).trans ((ext_hi _ _ _ _ rfl).trans ((ext_lo _ _ _ _ rfl).trans (ext_all _))))))
  have f4 : wd.extractLsb' 13 4 = 0x0#4 := by rw [← hx]; exact (ext_hi _ _ _ _ rfl).trans ((ext_hi _ _ _ _ rfl).trans ((ext_hi _ _ _ _ rfl).trans ((ext_hi _ _ _ _ rfl).trans ((ext_lo _ _ _ _ rfl).trans (ext_all _)))))
  have f5 : wd.extractLsb' 10 3 = x := by rw [← hx]; exact (ext_hi _ _ _ _ rfl).trans ((ext_hi _ _ _ _ rfl).trans ((ext_hi _ _ _ _ rfl).trans ((ext_lo _ _ _ _ rfl).trans (ext_all _))))
  have f6 : wd.extractLsb' 6 4 = 0x0#4 := by rw [← hx]; exact (ext_hi _ _ _ _ rfl).trans ((ext_hi _ _ _ _ rfl).trans ((ext_lo _ _ _ _ rfl).trans (ext_all _)))
  have f7 : wd.extractLsb' 3 3 = y := by rw [← hx]; exact (ext_hi _ _ _ _ rfl).trans ((ext_lo _ _ _ _ rfl).trans (ext_all _))
  have f8 : wd.extractLsb' 0 3 = 0x0#3 := by rw [← hx]; exact (ext_lo _ _ _ _ rfl).trans (ext_all _)
  refine decode_row f1 rfl ?_
  exact firstRow_hit (by simp only [rowPsetAnd, Sys2Proof.sw, f0, f2, f3, f4, f5, f6, f7, f8, and_self, reduceIte])

theorem RoundTrip.psetOr (sw : Bool) (p : BitVec 3) (x : BitVec 3) (y : BitVec 3) :
    RoundTrip.Statement (.psetOr sw p x y) := by
  intro _ wd hx
  simp only [Instr.encode, Option.some.injEq] at hx
  have f0 : wd.getLsbD 31 = sw := by rw [← hx]; exact (bit_hi _ _ _ rfl).trans ((bit_hi _ _ _ rfl).trans ((bit_hi _ _ _ rfl).trans ((bit_hi _ _ _ rfl).trans ((bit_hi _ _ _ rfl).trans ((bit_hi _ _ _ rfl).trans ((bit_hi _ _ _ rfl).trans ((bit_hi _ _ _ rfl).trans (bit_one _))))))))
  have f1 : wd.extractLsb' 24 7 = 0x17#7 := by rw [← hx]; exact (ext_hi _ _ _ _ rfl).trans ((ext_hi _ _ _ _ rfl).trans ((ext_hi _ _ _ _ rfl).trans ((ext_hi _ _ _ _ rfl).trans ((ext_hi _ _ _ _ rfl).trans ((ext_hi _ _ _ _ rfl).trans ((ext_hi _ _ _ _ rfl).trans ((ext_lo _ _ _ _ rfl).trans (ext_all _))))))))
  have f2 : wd.extractLsb' 20 4 = 0x0#4 := by rw [← hx]; exact (ext_hi _ _ _ _ rfl).trans ((ext_hi _ _ _ _ rfl).trans ((ext_hi _ _ _ _ rfl).trans ((ext_hi _ _ _ _ rfl).trans ((ext_hi _ _ _ _ rfl).trans ((ext_hi _ _ _ _ rfl).trans ((ext_lo _ _ _ _ rfl).trans (ext_all _)))))))
  have f3 : wd.extractLsb' 17 3 = p := by rw [← hx]; exact (ext_hi _ _ _ _ rfl).trans ((ext_hi _ _ _ _ rfl).trans ((ext_hi _ _ _ _ rfl).trans ((ext_hi _ _ _ _ rfl).trans ((ext_hi _ _ _ _ rfl).trans ((ext_lo _ _ _ _ rfl).trans (ext_all _))))))
  have f4 : wd.extractLsb' 13 4 = 0x0#4 := by rw [← hx]; exact (ext_hi _ _ _ _ rfl).trans ((ext_hi _ _ _ _ rfl).trans ((ext_hi _ _ _ _ rfl).trans ((ext_hi _ _ _ _ rfl).trans ((ext_lo _ _ _ _ rfl).trans (ext_all _)))))
  have f5 : wd.extractLsb' 10 3 = x := by rw [← hx]; exact (ext_hi _ _ _ _ rfl).trans ((ext_hi _ _ _ _ rfl).trans ((ext_hi _ _ _ _ rfl).trans ((ext_lo _ _ _ _ rfl).trans (ext_all _))))
  have f6 : wd.extractLsb' 6 4 = 0x0#4 := by rw [← hx]; exact (ext_hi _ _ _ _ rfl).trans ((ext_hi _ _ _ _ rfl).trans ((ext_lo _ _ _ _ rfl).trans (ext_all _)))
  have f7 : wd.extractLsb' 3 3 = y := by rw [← hx]; exact (ext_hi _ _ _ _ rfl).trans ((ext_lo _ _ _ _ rfl).trans (ext_all _))
  have f8 : wd.extractLsb' 0 3 = 0x1#3 := by rw [← hx]; exact (ext_lo _ _ _ _ rfl).trans (ext_all _)
  refine decode_row f1 rfl ?_
  refine firstRow_skip (if_neg fun hc => absurd (f8.symm.trans hc.2.2.2) (by decide)) ?_
  exact firstRow_hit (by simp only [rowPsetOr, Sys2Proof.sw, f0, f2, f3, f4, f5, f6, f7, f8, and_self, reduceIte])

theorem RoundTrip.psetXor (sw : Bool) (p : BitVec 3) (x : BitVec 3) (y : BitVec 3) :
    RoundTrip.Statement (.psetXor sw p x y) := by
  intro _ wd hx
  simp only [Instr.encode, Option.some.injEq] at hx
  have f0 : wd.getLsbD 31 = sw := by rw [← hx]; exact (bit_hi _ _ _ rfl).trans ((bit_hi _ _ _ rfl).trans ((bit_hi _ _ _ rfl).trans ((bit_hi _ _ _ rfl).trans ((bit_hi _ _ _ rfl).trans ((bit_hi _ _ _ rfl).trans ((bit_hi _ _ _ rfl).trans ((bit_hi _ _ _ rfl).trans (bit_one _))))))))
  have f1 : wd.extractLsb' 24 7 = 0x17#7 := by rw [← hx]; exact (ext_hi _ _ _ _ rfl).trans ((ext_hi _ _ _ _ rfl).trans ((ext_hi _ _ _ _ rfl).trans ((ext_hi _ _ _ _ rfl).trans ((ext_hi _ _ _ _ rfl).trans ((ext_hi _ _ _ _ rfl).trans ((ext_hi _ _ _ _ rfl).trans ((ext_lo _ _ _ _ rfl).trans (ext_all _))))))))
  have f2 : wd.extractLsb' 20 4 = 0x0#4 := by rw [← hx]; exact (ext_hi _ _ _ _ rfl).trans ((ext_hi _ _ _ _ rfl).trans ((ext_hi _ _ _ _ rfl).trans ((ext_hi _ _ _ _ rfl).trans ((ext_hi _ _ _ _ rfl).trans ((ext_hi _ _ _ _ rfl).trans ((ext_lo _ _ _ _ rfl).trans (ext_all _)))))))
  have f3 : wd.extractLsb' 17 3 = p := by rw [← hx]; exact (ext_hi _ _ _ _ rfl).trans ((ext_hi _ _ _ _ rfl).trans ((ext_hi _ _ _ _ rfl).trans ((ext_hi _ _ _ _ rfl).trans ((ext_hi _ _ _ _ rfl).trans ((ext_lo _ _ _ _ rfl).trans (ext_all _))))))
  have f4 : wd.extractLsb' 13 4 = 0x0#4 := by rw [← hx]; exact (ext_hi _ _ _ _ rfl).trans ((ext_hi _ _ _ _ rfl).trans ((ext_hi _ _ _ _ rfl).trans ((ext_hi _ _ _ _ rfl).trans ((ext_lo _ _ _ _ rfl).trans (ext_all _)))))
  have f5 : wd.extractLsb' 10 3 = x := by rw [← hx]; exact (ext_hi _ _ _ _ rfl).trans ((ext_hi _ _ _ _ rfl).trans ((ext_hi _ _ _ _ rfl).trans ((ext_lo _ _ _ _ rfl).trans (ext_all _))))
  have f6 : wd.extractLsb' 6 4 = 0x0#4 := by rw [← hx]; exact (ext_hi _ _ _ _ rfl).trans ((ext_hi _ _ _ _ rfl).trans ((ext_lo _ _ _ _ rfl).trans (ext_all _)))
  have f7 : wd.extractLsb' 3 3 = y := by rw [← hx]; exact (ext_hi _ _ _ _ rfl).trans ((ext_lo _ _ _ _ rfl).trans (ext_all _))
  have f8 : wd.extractLsb' 0 3 = 0x2#3 := by rw [← hx]; exact (ext_lo _ _ _ _ rfl).trans (ext_all _)
  refine decode_row f1 rfl ?_
  refine firstRow_skip (if_neg fun hc => absurd (f8.symm.trans hc.2.2.2) (by decide)) ?_
  refine firstRow_skip (if_neg fun hc => absurd (f8.symm.trans hc.2.2.2) (by decide)) ?_
  exact firstRow_hit (by simp only [rowPsetXor, Sys2Proof.sw, f0, f2, f3, f4, f5, f6, f7, f8, and_self, reduceIte])

theorem RoundTrip.psetAndn (sw : Bool) (p : BitVec 3) (x : BitVec 3) (y : BitVec 3) :
    RoundTrip.Statement (.psetAndn sw p x y) := by
  intro _ wd hx
  simp only [Instr.encode, Option.some.injEq] at hx
  have f0 : wd.getLsbD 31 = sw := by rw [← hx]; exact (bit_hi _ _ _ rfl).trans ((bit_hi _ _ _ rfl).trans ((bit_hi _ _ _ rfl).trans ((bit_hi _ _ _ rfl).trans ((bit_hi _ _ _ rfl).trans ((bit_hi _ _ _ rfl).trans ((bit_hi _ _ _ rfl).trans ((bit_hi _ _ _ rfl).trans (bit_one _))))))))
  have f1 : wd.extractLsb' 24 7 = 0x17#7 := by rw [← hx]; exact (ext_hi _ _ _ _ rfl).trans ((ext_hi _ _ _ _ rfl).trans ((ext_hi _ _ _ _ rfl).trans ((ext_hi _ _ _ _ rfl).trans ((ext_hi _ _ _ _ rfl).trans ((ext_hi _ _ _ _ rfl).trans ((ext_hi _ _ _ _ rfl).trans ((ext_lo _ _ _ _ rfl).trans (ext_all _))))))))
  have f2 : wd.extractLsb' 20 4 = 0x0#4 := by rw [← hx]; exact (ext_hi _ _ _ _ rfl).trans ((ext_hi _ _ _ _ rfl).trans ((ext_hi _ _ _ _ rfl).trans ((ext_hi _ _ _ _ rfl).trans ((ext_hi _ _ _ _ rfl).trans ((ext_hi _ _ _ _ rfl).trans ((ext_lo _ _ _ _ rfl).trans (ext_all _)))))))
  have f3 : wd.extractLsb' 17 3 = p := by rw [← hx]; exact (ext_hi _ _ _ _ rfl).trans ((ext_hi _ _ _ _ rfl).trans ((ext_hi _ _ _ _ rfl).trans ((ext_hi _ _ _ _ rfl).trans ((ext_hi _ _ _ _ rfl).trans ((ext_lo _ _ _ _ rfl).trans (ext_all _))))))
  have f4 : wd.extractLsb' 13 4 = 0x0#4 := by rw [← hx]; exact (ext_hi _ _ _ _ rfl).trans ((ext_hi _ _ _ _ rfl).trans ((ext_hi _ _ _ _ rfl).trans ((ext_hi _ _ _ _ rfl).trans ((ext_lo _ _ _ _ rfl).trans (ext_all _)))))
  have f5 : wd.extractLsb' 10 3 = x := by rw [← hx]; exact (ext_hi _ _ _ _ rfl).trans ((ext_hi _ _ _ _ rfl).trans ((ext_hi _ _ _ _ rfl).trans ((ext_lo _ _ _ _ rfl).trans (ext_all _))))
  have f6 : wd.extractLsb' 6 4 = 0x0#4 := by rw [← hx]; exact (ext_hi _ _ _ _ rfl).trans ((ext_hi _ _ _ _ rfl).trans ((ext_lo _ _ _ _ rfl).trans (ext_all _)))
  have f7 : wd.extractLsb' 3 3 = y := by rw [← hx]; exact (ext_hi _ _ _ _ rfl).trans ((ext_lo _ _ _ _ rfl).trans (ext_all _))
  have f8 : wd.extractLsb' 0 3 = 0x3#3 := by rw [← hx]; exact (ext_lo _ _ _ _ rfl).trans (ext_all _)
  refine decode_row f1 rfl ?_
  refine firstRow_skip (if_neg fun hc => absurd (f8.symm.trans hc.2.2.2) (by decide)) ?_
  refine firstRow_skip (if_neg fun hc => absurd (f8.symm.trans hc.2.2.2) (by decide)) ?_
  refine firstRow_skip (if_neg fun hc => absurd (f8.symm.trans hc.2.2.2) (by decide)) ?_
  exact firstRow_hit (by simp only [rowPsetAndn, Sys2Proof.sw, f0, f2, f3, f4, f5, f6, f7, f8, and_self, reduceIte])

theorem RoundTrip.mov (sw : Bool) (d : BitVec 7) (a : BitVec 7) (w : Width) :
    RoundTrip.Statement (.mov sw d a w) := by
  intro _ wd hx
  simp only [Instr.encode, Option.some.injEq] at hx
  have f0 : wd.getLsbD 31 = sw := by rw [← hx]; exact (bit_hi _ _ _ rfl).trans ((bit_hi _ _ _ rfl).trans ((bit_hi _ _ _ rfl).trans ((bit_hi _ _ _ rfl).trans ((bit_hi _ _ _ rfl).trans (bit_one _)))))
  have f1 : wd.extractLsb' 24 7 = 0x18#7 := by rw [← hx]; exact (ext_hi _ _ _ _ rfl).trans ((ext_hi _ _ _ _ rfl).trans ((ext_hi _ _ _ _ rfl).trans ((ext_hi _ _ _ _ rfl).trans ((ext_lo _ _ _ _ rfl).trans (ext_all _)))))
  have f2 : wd.extractLsb' 17 7 = d := by rw [← hx]; exact (ext_hi _ _ _ _ rfl).trans ((ext_hi _ _ _ _ rfl).trans ((ext_hi _ _ _ _ rfl).trans ((ext_lo _ _ _ _ rfl).trans (ext_all _))))
  have f3 : wd.extractLsb' 10 7 = a := by rw [← hx]; exact (ext_hi _ _ _ _ rfl).trans ((ext_hi _ _ _ _ rfl).trans ((ext_lo _ _ _ _ rfl).trans (ext_all _)))
  have f4 : wd.extractLsb' 1 9 = 0x0#9 := by rw [← hx]; exact (ext_hi _ _ _ _ rfl).trans ((ext_lo _ _ _ _ rfl).trans (ext_all _))
  have f5 : wd.extractLsb' 0 1 = w.code := by rw [← hx]; exact (ext_lo _ _ _ _ rfl).trans (ext_all _)
  refine decode_row f1 rfl ?_
  exact firstRow_hit (by simp only [rowMov, Sys2Proof.sw, f0, f2, f3, f4, f5, Width_ofCode_code, reduceIte])

theorem RoundTrip.movi (sw : Bool) (d : BitVec 7) (i : BitVec 17) :
    RoundTrip.Statement (.movi sw d i) := by
  intro _ wd hx
  simp only [Instr.encode, Option.some.injEq] at hx
  have f0 : wd.getLsbD 31 = sw := by rw [← hx]; exact (bit_hi _ _ _ rfl).trans ((bit_hi _ _ _ rfl).trans ((bit_hi _ _ _ rfl).trans (bit_one _)))
  have f1 : wd.extractLsb' 24 7 = 0x19#7 := by rw [← hx]; exact (ext_hi _ _ _ _ rfl).trans ((ext_hi _ _ _ _ rfl).trans ((ext_lo _ _ _ _ rfl).trans (ext_all _)))
  have f2 : wd.extractLsb' 17 7 = d := by rw [← hx]; exact (ext_hi _ _ _ _ rfl).trans ((ext_lo _ _ _ _ rfl).trans (ext_all _))
  have f3 : wd.extractLsb' 0 17 = i := by rw [← hx]; exact (ext_lo _ _ _ _ rfl).trans (ext_all _)
  refine decode_row f1 rfl ?_
  exact firstRow_hit (by simp only [rowMovi, Sys2Proof.sw, f0, f2, f3])

theorem RoundTrip.movh (sw : Bool) (d : BitVec 7) (i : BitVec 17) :
    RoundTrip.Statement (.movh sw d i) := by
  intro _ wd hx
  simp only [Instr.encode, Option.some.injEq] at hx
  have f0 : wd.getLsbD 31 = sw := by rw [← hx]; exact (bit_hi _ _ _ rfl).trans ((bit_hi _ _ _ rfl).trans ((bit_hi _ _ _ rfl).trans (bit_one _)))
  have f1 : wd.extractLsb' 24 7 = 0x1A#7 := by rw [← hx]; exact (ext_hi _ _ _ _ rfl).trans ((ext_hi _ _ _ _ rfl).trans ((ext_lo _ _ _ _ rfl).trans (ext_all _)))
  have f2 : wd.extractLsb' 17 7 = d := by rw [← hx]; exact (ext_hi _ _ _ _ rfl).trans ((ext_lo _ _ _ _ rfl).trans (ext_all _))
  have f3 : wd.extractLsb' 0 17 = i := by rw [← hx]; exact (ext_lo _ _ _ _ rfl).trans (ext_all _)
  refine decode_row f1 rfl ?_
  exact firstRow_hit (by simp only [rowMovh, Sys2Proof.sw, f0, f2, f3])

theorem RoundTrip.lea (sw : Bool) (d : BitVec 7) (a : BitVec 7) (b : BitVec 7) (f : BitVec 3) :
    RoundTrip.Statement (.lea sw d a b f) := by
  intro _ wd hx
  simp only [Instr.encode, Option.some.injEq] at hx
  have f0 : wd.getLsbD 31 = sw := by rw [← hx]; exact (bit_hi _ _ _ rfl).trans ((bit_hi _ _ _ rfl).trans ((bit_hi _ _ _ rfl).trans ((bit_hi _ _ _ rfl).trans ((bit_hi _ _ _ rfl).trans (bit_one _)))))
  have f1 : wd.extractLsb' 24 7 = 0x1B#7 := by rw [← hx]; exact (ext_hi _ _ _ _ rfl).trans ((ext_hi _ _ _ _ rfl).trans ((ext_hi _ _ _ _ rfl).trans ((ext_hi _ _ _ _ rfl).trans ((ext_lo _ _ _ _ rfl).trans (ext_all _)))))
  have f2 : wd.extractLsb' 17 7 = d := by rw [← hx]; exact (ext_hi _ _ _ _ rfl).trans ((ext_hi _ _ _ _ rfl).trans ((ext_hi _ _ _ _ rfl).trans ((ext_lo _ _ _ _ rfl).trans (ext_all _))))
  have f3 : wd.extractLsb' 10 7 = a := by rw [← hx]; exact (ext_hi _ _ _ _ rfl).trans ((ext_hi _ _ _ _ rfl).trans ((ext_lo _ _ _ _ rfl).trans (ext_all _)))
  have f4 : wd.extractLsb' 3 7 = b := by rw [← hx]; exact (ext_hi _ _ _ _ rfl).trans ((ext_lo _ _ _ _ rfl).trans (ext_all _))
  have f5 : wd.extractLsb' 0 3 = f := by rw [← hx]; exact (ext_lo _ _ _ _ rfl).trans (ext_all _)
  refine decode_row f1 rfl ?_
  exact firstRow_hit (by simp only [rowLea, Sys2Proof.sw, f0, f2, f3, f4, f5])

theorem RoundTrip.leaImm (sw : Bool) (d : BitVec 7) (a : BitVec 7) (i : BitVec 10) :
    RoundTrip.Statement (.leaImm sw d a i) := by
  intro _ wd hx
  simp only [Instr.encode, Option.some.injEq] at hx
  have f0 : wd.getLsbD 31 = sw := by rw [← hx]; exact (bit_hi _ _ _ rfl).trans ((bit_hi _ _ _ rfl).trans ((bit_hi _ _ _ rfl).trans ((bit_hi _ _ _ rfl).trans (bit_one _))))
  have f1 : wd.extractLsb' 24 7 = 0x1C#7 := by rw [← hx]; exact (ext_hi _ _ _ _ rfl).trans ((ext_hi _ _ _ _ rfl).trans ((ext_hi _ _ _ _ rfl).trans ((ext_lo _ _ _ _ rfl).trans (ext_all _))))
  have f2 : wd.extractLsb' 17 7 = d := by rw [← hx]; exact (ext_hi _ _ _ _ rfl).trans ((ext_hi _ _ _ _ rfl).trans ((ext_lo _ _ _ _ rfl).trans (ext_all _)))
  have f3 : wd.extractLsb' 10 7 = a := by rw [← hx]; exact (ext_hi _ _ _ _ rfl).trans ((ext_lo _ _ _ _ rfl).trans (ext_all _))
  have f4 : wd.extractLsb' 0 10 = i := by rw [← hx]; exact (ext_lo _ _ _ _ rfl).trans (ext_all _)
  refine decode_row f1 rfl ?_
  exact firstRow_hit (by simp only [rowLeaImm, Sys2Proof.sw, f0, f2, f3, f4])

theorem RoundTrip.gets (sw : Bool) (d : BitVec 7) (i : BitVec 10) :
    RoundTrip.Statement (.gets sw d i) := by
  intro _ wd hx
  simp only [Instr.encode, Option.some.injEq] at hx
  have f0 : wd.getLsbD 31 = sw := by rw [← hx]; exact (bit_hi _ _ _ rfl).trans ((bit_hi _ _ _ rfl).trans ((bit_hi _ _ _ rfl).trans ((bit_hi _ _ _ rfl).trans (bit_one _))))
  have f1 : wd.extractLsb' 24 7 = 0x1D#7 := by rw [← hx]; exact (ext_hi _ _ _ _ rfl).trans ((ext_hi _ _ _ _ rfl).trans ((ext_hi _ _ _ _ rfl).trans ((ext_lo _ _ _ _ rfl).trans (ext_all _))))
  have f2 : wd.extractLsb' 17 7 = d := by rw [← hx]; exact (ext_hi _ _ _ _ rfl).trans ((ext_hi _ _ _ _ rfl).trans ((ext_lo _ _ _ _ rfl).trans (ext_all _)))
  have f3 : wd.extractLsb' 10 7 = 0x0#7 := by rw [← hx]; exact (ext_hi _ _ _ _ rfl).trans ((ext_lo _ _ _ _ rfl).trans (ext_all _))
  have f4 : wd.extractLsb' 0 10 = i := by rw [← hx]; exact (ext_lo _ _ _ _ rfl).trans (ext_all _)
  refine decode_row f1 rfl ?_
  exact firstRow_hit (by simp only [rowGets, Sys2Proof.sw, f0, f2, f3, f4, reduceIte])

theorem RoundTrip.sets (sw : Bool) (a : BitVec 7) (i : BitVec 10) :
    RoundTrip.Statement (.sets sw a i) := by
  intro _ wd hx
  simp only [Instr.encode, Option.some.injEq] at hx
  have f0 : wd.getLsbD 31 = sw := by rw [← hx]; exact (bit_hi _ _ _ rfl).trans ((bit_hi _ _ _ rfl).trans ((bit_hi _ _ _ rfl).trans ((bit_hi _ _ _ rfl).trans (bit_one _))))
  have f1 : wd.extractLsb' 24 7 = 0x1E#7 := by rw [← hx]; exact (ext_hi _ _ _ _ rfl).trans ((ext_hi _ _ _ _ rfl).trans ((ext_hi _ _ _ _ rfl).trans ((ext_lo _ _ _ _ rfl).trans (ext_all _))))
  have f2 : wd.extractLsb' 17 7 = 0x0#7 := by rw [← hx]; exact (ext_hi _ _ _ _ rfl).trans ((ext_hi _ _ _ _ rfl).trans ((ext_lo _ _ _ _ rfl).trans (ext_all _)))
  have f3 : wd.extractLsb' 10 7 = a := by rw [← hx]; exact (ext_hi _ _ _ _ rfl).trans ((ext_lo _ _ _ _ rfl).trans (ext_all _))
  have f4 : wd.extractLsb' 0 10 = i := by rw [← hx]; exact (ext_lo _ _ _ _ rfl).trans (ext_all _)
  refine decode_row f1 rfl ?_
  exact firstRow_hit (by simp only [rowSets, Sys2Proof.sw, f0, f2, f3, f4, reduceIte])

theorem RoundTrip.sliceof (sw : Bool) (d : BitVec 7) (a : BitVec 7) :
    RoundTrip.Statement (.sliceof sw d a) := by
  intro _ wd hx
  simp only [Instr.encode, Option.some.injEq] at hx
  have f0 : wd.getLsbD 31 = sw := by rw [← hx]; exact (bit_hi _ _ _ rfl).trans ((bit_hi _ _ _ rfl).trans ((bit_hi _ _ _ rfl).trans ((bit_hi _ _ _ rfl).trans (bit_one _))))
  have f1 : wd.extractLsb' 24 7 = 0x1F#7 := by rw [← hx]; exact (ext_hi _ _ _ _ rfl).trans ((ext_hi _ _ _ _ rfl).trans ((ext_hi _ _ _ _ rfl).trans ((ext_lo _ _ _ _ rfl).trans (ext_all _))))
  have f2 : wd.extractLsb' 17 7 = d := by rw [← hx]; exact (ext_hi _ _ _ _ rfl).trans ((ext_hi _ _ _ _ rfl).trans ((ext_lo _ _ _ _ rfl).trans (ext_all _)))
  have f3 : wd.extractLsb' 10 7 = a := by rw [← hx]; exact (ext_hi _ _ _ _ rfl).trans ((ext_lo _ _ _ _ rfl).trans (ext_all _))
  have f4 : wd.extractLsb' 0 10 = 0x0#10 := by rw [← hx]; exact (ext_lo _ _ _ _ rfl).trans (ext_all _)
  refine decode_row f1 rfl ?_
  exact firstRow_hit (by simp only [rowSliceof, Sys2Proof.sw, f0, f2, f3, f4, reduceIte])

theorem RoundTrip.fadd (sw : Bool) (d : BitVec 7) (a : BitVec 7) (b : BitVec 7) (z : Bool) (r : Rm) :
    RoundTrip.Statement (.fadd sw d a b z r) := by
  intro _ wd hx
  simp only [Instr.encode, Option.some.injEq] at hx
  have f0 : wd.getLsbD 31 = sw := by rw [← hx]; exact (bit_hi _ _ _ rfl).trans ((bit_hi _ _ _ rfl).trans ((bit_hi _ _ _ rfl).trans ((bit_hi _ _ _ rfl).trans ((bit_hi _ _ _ rfl).trans ((bit_hi _ _ _ rfl).trans (bit_one _))))))
  have f1 : wd.extractLsb' 24 7 = 0x20#7 := by rw [← hx]; exact (ext_hi _ _ _ _ rfl).trans ((ext_hi _ _ _ _ rfl).trans ((ext_hi _ _ _ _ rfl).trans ((ext_hi _ _ _ _ rfl).trans ((ext_hi _ _ _ _ rfl).trans ((ext_lo _ _ _ _ rfl).trans (ext_all _))))))
  have f2 : wd.extractLsb' 17 7 = d := by rw [← hx]; exact (ext_hi _ _ _ _ rfl).trans ((ext_hi _ _ _ _ rfl).trans ((ext_hi _ _ _ _ rfl).trans ((ext_hi _ _ _ _ rfl).trans ((ext_lo _ _ _ _ rfl).trans (ext_all _)))))
  have f3 : wd.extractLsb' 10 7 = a := by rw [← hx]; exact (ext_hi _ _ _ _ rfl).trans ((ext_hi _ _ _ _ rfl).trans ((ext_hi _ _ _ _ rfl).trans ((ext_lo _ _ _ _ rfl).trans (ext_all _))))
  have f4 : wd.extractLsb' 3 7 = b := by rw [← hx]; exact (ext_hi _ _ _ _ rfl).trans ((ext_hi _ _ _ _ rfl).trans ((ext_lo _ _ _ _ rfl).trans (ext_all _)))
  have f5 : wd.getLsbD 2 = z := by rw [← hx]; exact (bit_hi _ _ _ rfl).trans ((bit_lo _ _ _ rfl).trans (bit_one _))
  have f6 : wd.extractLsb' 0 2 = r.code := by rw [← hx]; exact (ext_lo _ _ _ _ rfl).trans (ext_all _)
  refine decode_row f1 rfl ?_
  exact firstRow_hit (by simp only [rowFadd, Sys2Proof.sw, f0, f2, f3, f4, f5, f6, Rm_ofCode_code])

theorem RoundTrip.fsub (sw : Bool) (d : BitVec 7) (a : BitVec 7) (b : BitVec 7) (z : Bool) (r : Rm) :
    RoundTrip.Statement (.fsub sw d a b z r) := by
  intro _ wd hx
  simp only [Instr.encode, Option.some.injEq] at hx
  have f0 : wd.getLsbD 31 = sw := by rw [← hx]; exact (bit_hi _ _ _ rfl).trans ((bit_hi _ _ _ rfl).trans ((bit_hi _ _ _ rfl).trans ((bit_hi _ _ _ rfl).trans ((bit_hi _ _ _ rfl).trans ((bit_hi _ _ _ rfl).trans (bit_one _))))))
  have f1 : wd.extractLsb' 24 7 = 0x21#7 := by rw [← hx]; exact (ext_hi _ _ _ _ rfl).trans ((ext_hi _ _ _ _ rfl).trans ((ext_hi _ _ _ _ rfl).trans ((ext_hi _ _ _ _ rfl).trans ((ext_hi _ _ _ _ rfl).trans ((ext_lo _ _ _ _ rfl).trans (ext_all _))))))
  have f2 : wd.extractLsb' 17 7 = d := by rw [← hx]; exact (ext_hi _ _ _ _ rfl).trans ((ext_hi _ _ _ _ rfl).trans ((ext_hi _ _ _ _ rfl).trans ((ext_hi _ _ _ _ rfl).trans ((ext_lo _ _ _ _ rfl).trans (ext_all _)))))
  have f3 : wd.extractLsb' 10 7 = a := by rw [← hx]; exact (ext_hi _ _ _ _ rfl).trans ((ext_hi _ _ _ _ rfl).trans ((ext_hi _ _ _ _ rfl).trans ((ext_lo _ _ _ _ rfl).trans (ext_all _))))
  have f4 : wd.extractLsb' 3 7 = b := by rw [← hx]; exact (ext_hi _ _ _ _ rfl).trans ((ext_hi _ _ _ _ rfl).trans ((ext_lo _ _ _ _ rfl).trans (ext_all _)))
  have f5 : wd.getLsbD 2 = z := by rw [← hx]; exact (bit_hi _ _ _ rfl).trans ((bit_lo _ _ _ rfl).trans (bit_one _))
  have f6 : wd.extractLsb' 0 2 = r.code := by rw [← hx]; exact (ext_lo _ _ _ _ rfl).trans (ext_all _)
  refine decode_row f1 rfl ?_
  exact firstRow_hit (by simp only [rowFsub, Sys2Proof.sw, f0, f2, f3, f4, f5, f6, Rm_ofCode_code])

theorem RoundTrip.fmul (sw : Bool) (d : BitVec 7) (a : BitVec 7) (b : BitVec 7) (z : Bool) (r : Rm) :
    RoundTrip.Statement (.fmul sw d a b z r) := by
  intro _ wd hx
  simp only [Instr.encode, Option.some.injEq] at hx
  have f0 : wd.getLsbD 31 = sw := by rw [← hx]; exact (bit_hi _ _ _ rfl).trans ((bit_hi _ _ _ rfl).trans ((bit_hi _ _ _ rfl).trans ((bit_hi _ _ _ rfl).trans ((bit_hi _ _ _ rfl).trans ((bit_hi _ _ _ rfl).trans (bit_one _))))))
  have f1 : wd.extractLsb' 24 7 = 0x22#7 := by rw [← hx]; exact (ext_hi _ _ _ _ rfl).trans ((ext_hi _ _ _ _ rfl).trans ((ext_hi _ _ _ _ rfl).trans ((ext_hi _ _ _ _ rfl).trans ((ext_hi _ _ _ _ rfl).trans ((ext_lo _ _ _ _ rfl).trans (ext_all _))))))
  have f2 : wd.extractLsb' 17 7 = d := by rw [← hx]; exact (ext_hi _ _ _ _ rfl).trans ((ext_hi _ _ _ _ rfl).trans ((ext_hi _ _ _ _ rfl).trans ((ext_hi _ _ _ _ rfl).trans ((ext_lo _ _ _ _ rfl).trans (ext_all _)))))
  have f3 : wd.extractLsb' 10 7 = a := by rw [← hx]; exact (ext_hi _ _ _ _ rfl).trans ((ext_hi _ _ _ _ rfl).trans ((ext_hi _ _ _ _ rfl).trans ((ext_lo _ _ _ _ rfl).trans (ext_all _))))
  have f4 : wd.extractLsb' 3 7 = b := by rw [← hx]; exact (ext_hi _ _ _ _ rfl).trans ((ext_hi _ _ _ _ rfl).trans ((ext_lo _ _ _ _ rfl).trans (ext_all _)))
  have f5 : wd.getLsbD 2 = z := by rw [← hx]; exact (bit_hi _ _ _ rfl).trans ((bit_lo _ _ _ rfl).trans (bit_one _))
  have f6 : wd.extractLsb' 0 2 = r.code := by rw [← hx]; exact (ext_lo _ _ _ _ rfl).trans (ext_all _)
  refine decode_row f1 rfl ?_
  exact firstRow_hit (by simp only [rowFmul, Sys2Proof.sw, f0, f2, f3, f4, f5, f6, Rm_ofCode_code])

theorem RoundTrip.ffma (sw : Bool) (d : BitVec 7) (a : BitVec 7) (b : BitVec 7) (z : Bool) (r : Rm) :
    RoundTrip.Statement (.ffma sw d a b z r) := by
  intro _ wd hx
  simp only [Instr.encode, Option.some.injEq] at hx
  have f0 : wd.getLsbD 31 = sw := by rw [← hx]; exact (bit_hi _ _ _ rfl).trans ((bit_hi _ _ _ rfl).trans ((bit_hi _ _ _ rfl).trans ((bit_hi _ _ _ rfl).trans ((bit_hi _ _ _ rfl).trans ((bit_hi _ _ _ rfl).trans (bit_one _))))))
  have f1 : wd.extractLsb' 24 7 = 0x23#7 := by rw [← hx]; exact (ext_hi _ _ _ _ rfl).trans ((ext_hi _ _ _ _ rfl).trans ((ext_hi _ _ _ _ rfl).trans ((ext_hi _ _ _ _ rfl).trans ((ext_hi _ _ _ _ rfl).trans ((ext_lo _ _ _ _ rfl).trans (ext_all _))))))
  have f2 : wd.extractLsb' 17 7 = d := by rw [← hx]; exact (ext_hi _ _ _ _ rfl).trans ((ext_hi _ _ _ _ rfl).trans ((ext_hi _ _ _ _ rfl).trans ((ext_hi _ _ _ _ rfl).trans ((ext_lo _ _ _ _ rfl).trans (ext_all _)))))
  have f3 : wd.extractLsb' 10 7 = a := by rw [← hx]; exact (ext_hi _ _ _ _ rfl).trans ((ext_hi _ _ _ _ rfl).trans ((ext_hi _ _ _ _ rfl).trans ((ext_lo _ _ _ _ rfl).trans (ext_all _))))
  have f4 : wd.extractLsb' 3 7 = b := by rw [← hx]; exact (ext_hi _ _ _ _ rfl).trans ((ext_hi _ _ _ _ rfl).trans ((ext_lo _ _ _ _ rfl).trans (ext_all _)))
  have f5 : wd.getLsbD 2 = z := by rw [← hx]; exact (bit_hi _ _ _ rfl).trans ((bit_lo _ _ _ rfl).trans (bit_one _))
  have f6 : wd.extractLsb' 0 2 = r.code := by rw [← hx]; exact (ext_lo _ _ _ _ rfl).trans (ext_all _)
  refine decode_row f1 rfl ?_
  exact firstRow_hit (by simp only [rowFfma, Sys2Proof.sw, f0, f2, f3, f4, f5, f6, Rm_ofCode_code])

theorem RoundTrip.fmin (sw : Bool) (d : BitVec 7) (a : BitVec 7) (b : BitVec 7) :
    RoundTrip.Statement (.fmin sw d a b) := by
  intro _ wd hx
  simp only [Instr.encode, Option.some.injEq] at hx
  have f0 : wd.getLsbD 31 = sw := by rw [← hx]; exact (bit_hi _ _ _ rfl).trans ((bit_hi _ _ _ rfl).trans ((bit_hi _ _ _ rfl).trans ((bit_hi _ _ _ rfl).trans ((bit_hi _ _ _ rfl).trans (bit_one _)))))
  have f1 : wd.extractLsb' 24 7 = 0x24#7 := by rw [← hx]; exact (ext_hi _ _ _ _ rfl).trans ((ext_hi _ _ _ _ rfl).trans ((ext_hi _ _ _ _ rfl).trans ((ext_hi _ _ _ _ rfl).trans ((ext_lo _ _ _ _ rfl).trans (ext_all _)))))
  have f2 : wd.extractLsb' 17 7 = d := by rw [← hx]; exact (ext_hi _ _ _ _ rfl).trans ((ext_hi _ _ _ _ rfl).trans ((ext_hi _ _ _ _ rfl).trans ((ext_lo _ _ _ _ rfl).trans (ext_all _))))
  have f3 : wd.extractLsb' 10 7 = a := by rw [← hx]; exact (ext_hi _ _ _ _ rfl).trans ((ext_hi _ _ _ _ rfl).trans ((ext_lo _ _ _ _ rfl).trans (ext_all _)))
  have f4 : wd.extractLsb' 3 7 = b := by rw [← hx]; exact (ext_hi _ _ _ _ rfl).trans ((ext_lo _ _ _ _ rfl).trans (ext_all _))
  have f5 : wd.extractLsb' 0 3 = 0x0#3 := by rw [← hx]; exact (ext_lo _ _ _ _ rfl).trans (ext_all _)
  refine decode_row f1 rfl ?_
  exact firstRow_hit (by simp only [rowFmin, Sys2Proof.sw, f0, f2, f3, f4, f5, reduceIte])

theorem RoundTrip.fmax (sw : Bool) (d : BitVec 7) (a : BitVec 7) (b : BitVec 7) :
    RoundTrip.Statement (.fmax sw d a b) := by
  intro _ wd hx
  simp only [Instr.encode, Option.some.injEq] at hx
  have f0 : wd.getLsbD 31 = sw := by rw [← hx]; exact (bit_hi _ _ _ rfl).trans ((bit_hi _ _ _ rfl).trans ((bit_hi _ _ _ rfl).trans ((bit_hi _ _ _ rfl).trans ((bit_hi _ _ _ rfl).trans (bit_one _)))))
  have f1 : wd.extractLsb' 24 7 = 0x24#7 := by rw [← hx]; exact (ext_hi _ _ _ _ rfl).trans ((ext_hi _ _ _ _ rfl).trans ((ext_hi _ _ _ _ rfl).trans ((ext_hi _ _ _ _ rfl).trans ((ext_lo _ _ _ _ rfl).trans (ext_all _)))))
  have f2 : wd.extractLsb' 17 7 = d := by rw [← hx]; exact (ext_hi _ _ _ _ rfl).trans ((ext_hi _ _ _ _ rfl).trans ((ext_hi _ _ _ _ rfl).trans ((ext_lo _ _ _ _ rfl).trans (ext_all _))))
  have f3 : wd.extractLsb' 10 7 = a := by rw [← hx]; exact (ext_hi _ _ _ _ rfl).trans ((ext_hi _ _ _ _ rfl).trans ((ext_lo _ _ _ _ rfl).trans (ext_all _)))
  have f4 : wd.extractLsb' 3 7 = b := by rw [← hx]; exact (ext_hi _ _ _ _ rfl).trans ((ext_lo _ _ _ _ rfl).trans (ext_all _))
  have f5 : wd.extractLsb' 0 3 = 0x1#3 := by rw [← hx]; exact (ext_lo _ _ _ _ rfl).trans (ext_all _)
  refine decode_row f1 rfl ?_
  refine firstRow_skip (if_neg fun hc => absurd (f5.symm.trans hc) (by decide)) ?_
  exact firstRow_hit (by simp only [rowFmax, Sys2Proof.sw, f0, f2, f3, f4, f5, reduceIte])

theorem RoundTrip.fset (sw : Bool) (c : FCond) (p : BitVec 3) (a : BitVec 7) (b : BitVec 7) (z : Bool) :
    RoundTrip.Statement (.fset sw c p a b z) := by
  intro _ wd hx
  simp only [Instr.encode, Option.some.injEq] at hx
  have f0 : wd.getLsbD 31 = sw := by rw [← hx]; exact (bit_hi _ _ _ rfl).trans ((bit_hi _ _ _ rfl).trans ((bit_hi _ _ _ rfl).trans ((bit_hi _ _ _ rfl).trans ((bit_hi _ _ _ rfl).trans ((bit_hi _ _ _ rfl).trans ((bit_hi _ _ _ rfl).trans ((bit_hi _ _ _ rfl).trans (bit_one _))))))))
  have f1 : wd.extractLsb' 24 7 = 0x25#7 := by rw [← hx]; exact (ext_hi _ _ _ _ rfl).trans ((ext_hi _ _ _ _ rfl).trans ((ext_hi _ _ _ _ rfl).trans ((ext_hi _ _ _ _ rfl).trans ((ext_hi _ _ _ _ rfl).trans ((ext_hi _ _ _ _ rfl).trans ((ext_hi _ _ _ _ rfl).trans ((ext_lo _ _ _ _ rfl).trans (ext_all _))))))))
  have f2 : wd.extractLsb' 21 3 = c.code := by rw [← hx]; exact (ext_hi _ _ _ _ rfl).trans ((ext_hi _ _ _ _ rfl).trans ((ext_hi _ _ _ _ rfl).trans ((ext_hi _ _ _ _ rfl).trans ((ext_hi _ _ _ _ rfl).trans ((ext_hi _ _ _ _ rfl).trans ((ext_lo _ _ _ _ rfl).trans (ext_all _)))))))
  have f3 : wd.extractLsb' 20 1 = 0x0#1 := by rw [← hx]; exact (ext_hi _ _ _ _ rfl).trans ((ext_hi _ _ _ _ rfl).trans ((ext_hi _ _ _ _ rfl).trans ((ext_hi _ _ _ _ rfl).trans ((ext_hi _ _ _ _ rfl).trans ((ext_lo _ _ _ _ rfl).trans (ext_all _))))))
  have f4 : wd.extractLsb' 17 3 = p := by rw [← hx]; exact (ext_hi _ _ _ _ rfl).trans ((ext_hi _ _ _ _ rfl).trans ((ext_hi _ _ _ _ rfl).trans ((ext_hi _ _ _ _ rfl).trans ((ext_lo _ _ _ _ rfl).trans (ext_all _)))))
  have f5 : wd.extractLsb' 10 7 = a := by rw [← hx]; exact (ext_hi _ _ _ _ rfl).trans ((ext_hi _ _ _ _ rfl).trans ((ext_hi _ _ _ _ rfl).trans ((ext_lo _ _ _ _ rfl).trans (ext_all _))))
  have f6 : wd.extractLsb' 3 7 = b := by rw [← hx]; exact (ext_hi _ _ _ _ rfl).trans ((ext_hi _ _ _ _ rfl).trans ((ext_lo _ _ _ _ rfl).trans (ext_all _)))
  have f7 : wd.getLsbD 2 = z := by rw [← hx]; exact (bit_hi _ _ _ rfl).trans ((bit_lo _ _ _ rfl).trans (bit_one _))
  have f8 : wd.extractLsb' 0 2 = 0x0#2 := by rw [← hx]; exact (ext_lo _ _ _ _ rfl).trans (ext_all _)
  refine decode_row f1 rfl ?_
  exact firstRow_hit (by simp only [rowFset, Sys2Proof.sw, f0, f2, f3, f4, f5, f6, f7, f8, FCond_ofCode_code, and_self, reduceIte])

theorem RoundTrip.fsel (sw : Bool) (d : BitVec 7) (a : BitVec 7) (b : BitVec 7) (c : BitVec 3) :
    RoundTrip.Statement (.fsel sw d a b c) := by
  intro _ wd hx
  simp only [Instr.encode, Option.some.injEq] at hx
  have f0 : wd.getLsbD 31 = sw := by rw [← hx]; exact (bit_hi _ _ _ rfl).trans ((bit_hi _ _ _ rfl).trans ((bit_hi _ _ _ rfl).trans ((bit_hi _ _ _ rfl).trans ((bit_hi _ _ _ rfl).trans (bit_one _)))))
  have f1 : wd.extractLsb' 24 7 = 0x26#7 := by rw [← hx]; exact (ext_hi _ _ _ _ rfl).trans ((ext_hi _ _ _ _ rfl).trans ((ext_hi _ _ _ _ rfl).trans ((ext_hi _ _ _ _ rfl).trans ((ext_lo _ _ _ _ rfl).trans (ext_all _)))))
  have f2 : wd.extractLsb' 17 7 = d := by rw [← hx]; exact (ext_hi _ _ _ _ rfl).trans ((ext_hi _ _ _ _ rfl).trans ((ext_hi _ _ _ _ rfl).trans ((ext_lo _ _ _ _ rfl).trans (ext_all _))))
  have f3 : wd.extractLsb' 10 7 = a := by rw [← hx]; exact (ext_hi _ _ _ _ rfl).trans ((ext_hi _ _ _ _ rfl).trans ((ext_lo _ _ _ _ rfl).trans (ext_all _)))
  have f4 : wd.extractLsb' 3 7 = b := by rw [← hx]; exact (ext_hi _ _ _ _ rfl).trans ((ext_lo _ _ _ _ rfl).trans (ext_all _))
  have f5 : wd.extractLsb' 0 3 = c := by rw [← hx]; exact (ext_lo _ _ _ _ rfl).trans (ext_all _)
  refine decode_row f1 rfl ?_
  exact firstRow_hit (by simp only [rowFsel, Sys2Proof.sw, f0, f2, f3, f4, f5])

theorem RoundTrip.frcp (sw : Bool) (d : BitVec 7) (a : BitVec 7) :
    RoundTrip.Statement (.frcp sw d a) := by
  intro _ wd hx
  simp only [Instr.encode, Option.some.injEq] at hx
  have f0 : wd.getLsbD 31 = sw := by rw [← hx]; exact (bit_hi _ _ _ rfl).trans ((bit_hi _ _ _ rfl).trans ((bit_hi _ _ _ rfl).trans ((bit_hi _ _ _ rfl).trans (bit_one _))))
  have f1 : wd.extractLsb' 24 7 = 0x27#7 := by rw [← hx]; exact (ext_hi _ _ _ _ rfl).trans ((ext_hi _ _ _ _ rfl).trans ((ext_hi _ _ _ _ rfl).trans ((ext_lo _ _ _ _ rfl).trans (ext_all _))))
  have f2 : wd.extractLsb' 17 7 = d := by rw [← hx]; exact (ext_hi _ _ _ _ rfl).trans ((ext_hi _ _ _ _ rfl).trans ((ext_lo _ _ _ _ rfl).trans (ext_all _)))
  have f3 : wd.extractLsb' 10 7 = a := by rw [← hx]; exact (ext_hi _ _ _ _ rfl).trans ((ext_lo _ _ _ _ rfl).trans (ext_all _))
  have f4 : wd.extractLsb' 0 10 = 0x0#10 := by rw [← hx]; exact (ext_lo _ _ _ _ rfl).trans (ext_all _)
  refine decode_row f1 rfl ?_
  exact firstRow_hit (by simp only [rowFrcp, Sys2Proof.sw, f0, f2, f3, f4, reduceIte])

theorem RoundTrip.frsq (sw : Bool) (d : BitVec 7) (a : BitVec 7) :
    RoundTrip.Statement (.frsq sw d a) := by
  intro _ wd hx
  simp only [Instr.encode, Option.some.injEq] at hx
  have f0 : wd.getLsbD 31 = sw := by rw [← hx]; exact (bit_hi _ _ _ rfl).trans ((bit_hi _ _ _ rfl).trans ((bit_hi _ _ _ rfl).trans ((bit_hi _ _ _ rfl).trans (bit_one _))))
  have f1 : wd.extractLsb' 24 7 = 0x27#7 := by rw [← hx]; exact (ext_hi _ _ _ _ rfl).trans ((ext_hi _ _ _ _ rfl).trans ((ext_hi _ _ _ _ rfl).trans ((ext_lo _ _ _ _ rfl).trans (ext_all _))))
  have f2 : wd.extractLsb' 17 7 = d := by rw [← hx]; exact (ext_hi _ _ _ _ rfl).trans ((ext_hi _ _ _ _ rfl).trans ((ext_lo _ _ _ _ rfl).trans (ext_all _)))
  have f3 : wd.extractLsb' 10 7 = a := by rw [← hx]; exact (ext_hi _ _ _ _ rfl).trans ((ext_lo _ _ _ _ rfl).trans (ext_all _))
  have f4 : wd.extractLsb' 0 10 = 0x1#10 := by rw [← hx]; exact (ext_lo _ _ _ _ rfl).trans (ext_all _)
  refine decode_row f1 rfl ?_
  refine firstRow_skip (if_neg fun hc => absurd (f4.symm.trans hc) (by decide)) ?_
  exact firstRow_hit (by simp only [rowFrsq, Sys2Proof.sw, f0, f2, f3, f4, reduceIte])

theorem RoundTrip.fsqrt (sw : Bool) (d : BitVec 7) (a : BitVec 7) :
    RoundTrip.Statement (.fsqrt sw d a) := by
  intro _ wd hx
  simp only [Instr.encode, Option.some.injEq] at hx
  have f0 : wd.getLsbD 31 = sw := by rw [← hx]; exact (bit_hi _ _ _ rfl).trans ((bit_hi _ _ _ rfl).trans ((bit_hi _ _ _ rfl).trans ((bit_hi _ _ _ rfl).trans (bit_one _))))
  have f1 : wd.extractLsb' 24 7 = 0x27#7 := by rw [← hx]; exact (ext_hi _ _ _ _ rfl).trans ((ext_hi _ _ _ _ rfl).trans ((ext_hi _ _ _ _ rfl).trans ((ext_lo _ _ _ _ rfl).trans (ext_all _))))
  have f2 : wd.extractLsb' 17 7 = d := by rw [← hx]; exact (ext_hi _ _ _ _ rfl).trans ((ext_hi _ _ _ _ rfl).trans ((ext_lo _ _ _ _ rfl).trans (ext_all _)))
  have f3 : wd.extractLsb' 10 7 = a := by rw [← hx]; exact (ext_hi _ _ _ _ rfl).trans ((ext_lo _ _ _ _ rfl).trans (ext_all _))
  have f4 : wd.extractLsb' 0 10 = 0x2#10 := by rw [← hx]; exact (ext_lo _ _ _ _ rfl).trans (ext_all _)
  refine decode_row f1 rfl ?_
  refine firstRow_skip (if_neg fun hc => absurd (f4.symm.trans hc) (by decide)) ?_
  refine firstRow_skip (if_neg fun hc => absurd (f4.symm.trans hc) (by decide)) ?_
  exact firstRow_hit (by simp only [rowFsqrt, Sys2Proof.sw, f0, f2, f3, f4, reduceIte])

theorem RoundTrip.fexp2 (sw : Bool) (d : BitVec 7) (a : BitVec 7) :
    RoundTrip.Statement (.fexp2 sw d a) := by
  intro _ wd hx
  simp only [Instr.encode, Option.some.injEq] at hx
  have f0 : wd.getLsbD 31 = sw := by rw [← hx]; exact (bit_hi _ _ _ rfl).trans ((bit_hi _ _ _ rfl).trans ((bit_hi _ _ _ rfl).trans ((bit_hi _ _ _ rfl).trans (bit_one _))))
  have f1 : wd.extractLsb' 24 7 = 0x27#7 := by rw [← hx]; exact (ext_hi _ _ _ _ rfl).trans ((ext_hi _ _ _ _ rfl).trans ((ext_hi _ _ _ _ rfl).trans ((ext_lo _ _ _ _ rfl).trans (ext_all _))))
  have f2 : wd.extractLsb' 17 7 = d := by rw [← hx]; exact (ext_hi _ _ _ _ rfl).trans ((ext_hi _ _ _ _ rfl).trans ((ext_lo _ _ _ _ rfl).trans (ext_all _)))
  have f3 : wd.extractLsb' 10 7 = a := by rw [← hx]; exact (ext_hi _ _ _ _ rfl).trans ((ext_lo _ _ _ _ rfl).trans (ext_all _))
  have f4 : wd.extractLsb' 0 10 = 0x3#10 := by rw [← hx]; exact (ext_lo _ _ _ _ rfl).trans (ext_all _)
  refine decode_row f1 rfl ?_
  refine firstRow_skip (if_neg fun hc => absurd (f4.symm.trans hc) (by decide)) ?_
  refine firstRow_skip (if_neg fun hc => absurd (f4.symm.trans hc) (by decide)) ?_
  refine firstRow_skip (if_neg fun hc => absurd (f4.symm.trans hc) (by decide)) ?_
  exact firstRow_hit (by simp only [rowFexp2, Sys2Proof.sw, f0, f2, f3, f4, reduceIte])

theorem RoundTrip.flog2 (sw : Bool) (d : BitVec 7) (a : BitVec 7) :
    RoundTrip.Statement (.flog2 sw d a) := by
  intro _ wd hx
  simp only [Instr.encode, Option.some.injEq] at hx
  have f0 : wd.getLsbD 31 = sw := by rw [← hx]; exact (bit_hi _ _ _ rfl).trans ((bit_hi _ _ _ rfl).trans ((bit_hi _ _ _ rfl).trans ((bit_hi _ _ _ rfl).trans (bit_one _))))
  have f1 : wd.extractLsb' 24 7 = 0x27#7 := by rw [← hx]; exact (ext_hi _ _ _ _ rfl).trans ((ext_hi _ _ _ _ rfl).trans ((ext_hi _ _ _ _ rfl).trans ((ext_lo _ _ _ _ rfl).trans (ext_all _))))
  have f2 : wd.extractLsb' 17 7 = d := by rw [← hx]; exact (ext_hi _ _ _ _ rfl).trans ((ext_hi _ _ _ _ rfl).trans ((ext_lo _ _ _ _ rfl).trans (ext_all _)))
  have f3 : wd.extractLsb' 10 7 = a := by rw [← hx]; exact (ext_hi _ _ _ _ rfl).trans ((ext_lo _ _ _ _ rfl).trans (ext_all _))
  have f4 : wd.extractLsb' 0 10 = 0x4#10 := by rw [← hx]; exact (ext_lo _ _ _ _ rfl).trans (ext_all _)
  refine decode_row f1 rfl ?_
  refine firstRow_skip (if_neg fun hc => absurd (f4.symm.trans hc) (by decide)) ?_
  refine firstRow_skip (if_neg fun hc => absurd (f4.symm.trans hc) (by decide)) ?_
  refine firstRow_skip (if_neg fun hc => absurd (f4.symm.trans hc) (by decide)) ?_
  refine firstRow_skip (if_neg fun hc => absurd (f4.symm.trans hc) (by decide)) ?_
  exact firstRow_hit (by simp only [rowFlog2, Sys2Proof.sw, f0, f2, f3, f4, reduceIte])

theorem RoundTrip.fsinp (sw : Bool) (d : BitVec 7) (a : BitVec 7) :
    RoundTrip.Statement (.fsinp sw d a) := by
  intro _ wd hx
  simp only [Instr.encode, Option.some.injEq] at hx
  have f0 : wd.getLsbD 31 = sw := by rw [← hx]; exact (bit_hi _ _ _ rfl).trans ((bit_hi _ _ _ rfl).trans ((bit_hi _ _ _ rfl).trans ((bit_hi _ _ _ rfl).trans (bit_one _))))
  have f1 : wd.extractLsb' 24 7 = 0x27#7 := by rw [← hx]; exact (ext_hi _ _ _ _ rfl).trans ((ext_hi _ _ _ _ rfl).trans ((ext_hi _ _ _ _ rfl).trans ((ext_lo _ _ _ _ rfl).trans (ext_all _))))
  have f2 : wd.extractLsb' 17 7 = d := by rw [← hx]; exact (ext_hi _ _ _ _ rfl).trans ((ext_hi _ _ _ _ rfl).trans ((ext_lo _ _ _ _ rfl).trans (ext_all _)))
  have f3 : wd.extractLsb' 10 7 = a := by rw [← hx]; exact (ext_hi _ _ _ _ rfl).trans ((ext_lo _ _ _ _ rfl).trans (ext_all _))
  have f4 : wd.extractLsb' 0 10 = 0x5#10 := by rw [← hx]; exact (ext_lo _ _ _ _ rfl).trans (ext_all _)
  refine decode_row f1 rfl ?_
  refine firstRow_skip (if_neg fun hc => absurd (f4.symm.trans hc) (by decide)) ?_
  refine firstRow_skip (if_neg fun hc => absurd (f4.symm.trans hc) (by decide)) ?_
  refine firstRow_skip (if_neg fun hc => absurd (f4.symm.trans hc) (by decide)) ?_
  refine firstRow_skip (if_neg fun hc => absurd (f4.symm.trans hc) (by decide)) ?_
  refine firstRow_skip (if_neg fun hc => absurd (f4.symm.trans hc) (by decide)) ?_
  exact firstRow_hit (by simp only [rowFsinp, Sys2Proof.sw, f0, f2, f3, f4, reduceIte])

theorem RoundTrip.fcosp (sw : Bool) (d : BitVec 7) (a : BitVec 7) :
    RoundTrip.Statement (.fcosp sw d a) := by
  intro _ wd hx
  simp only [Instr.encode, Option.some.injEq] at hx
  have f0 : wd.getLsbD 31 = sw := by rw [← hx]; exact (bit_hi _ _ _ rfl).trans ((bit_hi _ _ _ rfl).trans ((bit_hi _ _ _ rfl).trans ((bit_hi _ _ _ rfl).trans (bit_one _))))
  have f1 : wd.extractLsb' 24 7 = 0x27#7 := by rw [← hx]; exact (ext_hi _ _ _ _ rfl).trans ((ext_hi _ _ _ _ rfl).trans ((ext_hi _ _ _ _ rfl).trans ((ext_lo _ _ _ _ rfl).trans (ext_all _))))
  have f2 : wd.extractLsb' 17 7 = d := by rw [← hx]; exact (ext_hi _ _ _ _ rfl).trans ((ext_hi _ _ _ _ rfl).trans ((ext_lo _ _ _ _ rfl).trans (ext_all _)))
  have f3 : wd.extractLsb' 10 7 = a := by rw [← hx]; exact (ext_hi _ _ _ _ rfl).trans ((ext_lo _ _ _ _ rfl).trans (ext_all _))
  have f4 : wd.extractLsb' 0 10 = 0x6#10 := by rw [← hx]; exact (ext_lo _ _ _ _ rfl).trans (ext_all _)
  refine decode_row f1 rfl ?_
  refine firstRow_skip (if_neg fun hc => absurd (f4.symm.trans hc) (by decide)) ?_
  refine firstRow_skip (if_neg fun hc => absurd (f4.symm.trans hc) (by decide)) ?_
  refine firstRow_skip (if_neg fun hc => absurd (f4.symm.trans hc) (by decide)) ?_
  refine firstRow_skip (if_neg fun hc => absurd (f4.symm.trans hc) (by decide)) ?_
  refine firstRow_skip (if_neg fun hc => absurd (f4.symm.trans hc) (by decide)) ?_
  refine firstRow_skip (if_neg fun hc => absurd (f4.symm.trans hc) (by decide)) ?_
  exact firstRow_hit (by simp only [rowFcosp, Sys2Proof.sw, f0, f2, f3, f4, reduceIte])

theorem RoundTrip.fdiv (sw : Bool) (d : BitVec 7) (a : BitVec 7) (b : BitVec 7) (z : Bool) (r : Rm) :
    RoundTrip.Statement (.fdiv sw d a b z r) := by
  intro _ wd hx
  simp only [Instr.encode, Option.some.injEq] at hx
  have f0 : wd.getLsbD 31 = sw := by rw [← hx]; exact (bit_hi _ _ _ rfl).trans ((bit_hi _ _ _ rfl).trans ((bit_hi _ _ _ rfl).trans ((bit_hi _ _ _ rfl).trans ((bit_hi _ _ _ rfl).trans ((bit_hi _ _ _ rfl).trans (bit_one _))))))
  have f1 : wd.extractLsb' 24 7 = 0x28#7 := by rw [← hx]; exact (ext_hi _ _ _ _ rfl).trans ((ext_hi _ _ _ _ rfl).trans ((ext_hi _ _ _ _ rfl).trans ((ext_hi _ _ _ _ rfl).trans ((ext_hi _ _ _ _ rfl).trans ((ext_lo _ _ _ _ rfl).trans (ext_all _))))))
  have f2 : wd.extractLsb' 17 7 = d := by rw [← hx]; exact (ext_hi _ _ _ _ rfl).trans ((ext_hi _ _ _ _ rfl).trans ((ext_hi _ _ _ _ rfl).trans ((ext_hi _ _ _ _ rfl).trans ((ext_lo _ _ _ _ rfl).trans (ext_all _)))))
  have f3 : wd.extractLsb' 10 7 = a := by rw [← hx]; exact (ext_hi _ _ _ _ rfl).trans ((ext_hi _ _ _ _ rfl).trans ((ext_hi _ _ _ _ rfl).trans ((ext_lo _ _ _ _ rfl).trans (ext_all _))))
  have f4 : wd.extractLsb' 3 7 = b := by rw [← hx]; exact (ext_hi _ _ _ _ rfl).trans ((ext_hi _ _ _ _ rfl).trans ((ext_lo _ _ _ _ rfl).trans (ext_all _)))
  have f5 : wd.getLsbD 2 = z := by rw [← hx]; exact (bit_hi _ _ _ rfl).trans ((bit_lo _ _ _ rfl).trans (bit_one _))
  have f6 : wd.extractLsb' 0 2 = r.code := by rw [← hx]; exact (ext_lo _ _ _ _ rfl).trans (ext_all _)
  refine decode_row f1 rfl ?_
  exact firstRow_hit (by simp only [rowFdiv, Sys2Proof.sw, f0, f2, f3, f4, f5, f6, Rm_ofCode_code])

theorem RoundTrip.frnd (sw : Bool) (d : BitVec 7) (a : BitVec 7) (r : Rm) :
    RoundTrip.Statement (.frnd sw d a r) := by
  intro _ wd hx
  simp only [Instr.encode, Option.some.injEq] at hx
  have f0 : wd.getLsbD 31 = sw := by rw [← hx]; exact (bit_hi _ _ _ rfl).trans ((bit_hi _ _ _ rfl).trans ((bit_hi _ _ _ rfl).trans ((bit_hi _ _ _ rfl).trans ((bit_hi _ _ _ rfl).trans (bit_one _)))))
  have f1 : wd.extractLsb' 24 7 = 0x29#7 := by rw [← hx]; exact (ext_hi _ _ _ _ rfl).trans ((ext_hi _ _ _ _ rfl).trans ((ext_hi _ _ _ _ rfl).trans ((ext_hi _ _ _ _ rfl).trans ((ext_lo _ _ _ _ rfl).trans (ext_all _)))))
  have f2 : wd.extractLsb' 17 7 = d := by rw [← hx]; exact (ext_hi _ _ _ _ rfl).trans ((ext_hi _ _ _ _ rfl).trans ((ext_hi _ _ _ _ rfl).trans ((ext_lo _ _ _ _ rfl).trans (ext_all _))))
  have f3 : wd.extractLsb' 10 7 = a := by rw [← hx]; exact (ext_hi _ _ _ _ rfl).trans ((ext_hi _ _ _ _ rfl).trans ((ext_lo _ _ _ _ rfl).trans (ext_all _)))
  have f4 : wd.extractLsb' 2 8 = 0x0#8 := by rw [← hx]; exact (ext_hi _ _ _ _ rfl).trans ((ext_lo _ _ _ _ rfl).trans (ext_all _))
  have f5 : wd.extractLsb' 0 2 = r.code := by rw [← hx]; exact (ext_lo _ _ _ _ rfl).trans (ext_all _)
  refine decode_row f1 rfl ?_
  exact firstRow_hit (by simp only [rowFrnd, Sys2Proof.sw, f0, f2, f3, f4, f5, Rm_ofCode_code, reduceIte])

theorem RoundTrip.dadd (sw : Bool) (d : BitVec 7) (a : BitVec 7) (b : BitVec 7) (r : Rm) :
    RoundTrip.Statement (.dadd sw d a b r) := by
  intro _ wd hx
  simp only [Instr.encode, Option.some.injEq] at hx
  have f0 : wd.getLsbD 31 = sw := by rw [← hx]; exact (bit_hi _ _ _ rfl).trans ((bit_hi _ _ _ rfl).trans ((bit_hi _ _ _ rfl).trans ((bit_hi _ _ _ rfl).trans ((bit_hi _ _ _ rfl).trans ((bit_hi _ _ _ rfl).trans (bit_one _))))))
  have f1 : wd.extractLsb' 24 7 = 0x2A#7 := by rw [← hx]; exact (ext_hi _ _ _ _ rfl).trans ((ext_hi _ _ _ _ rfl).trans ((ext_hi _ _ _ _ rfl).trans ((ext_hi _ _ _ _ rfl).trans ((ext_hi _ _ _ _ rfl).trans ((ext_lo _ _ _ _ rfl).trans (ext_all _))))))
  have f2 : wd.extractLsb' 17 7 = d := by rw [← hx]; exact (ext_hi _ _ _ _ rfl).trans ((ext_hi _ _ _ _ rfl).trans ((ext_hi _ _ _ _ rfl).trans ((ext_hi _ _ _ _ rfl).trans ((ext_lo _ _ _ _ rfl).trans (ext_all _)))))
  have f3 : wd.extractLsb' 10 7 = a := by rw [← hx]; exact (ext_hi _ _ _ _ rfl).trans ((ext_hi _ _ _ _ rfl).trans ((ext_hi _ _ _ _ rfl).trans ((ext_lo _ _ _ _ rfl).trans (ext_all _))))
  have f4 : wd.extractLsb' 3 7 = b := by rw [← hx]; exact (ext_hi _ _ _ _ rfl).trans ((ext_hi _ _ _ _ rfl).trans ((ext_lo _ _ _ _ rfl).trans (ext_all _)))
  have f5 : wd.extractLsb' 2 1 = 0x0#1 := by rw [← hx]; exact (ext_hi _ _ _ _ rfl).trans ((ext_lo _ _ _ _ rfl).trans (ext_all _))
  have f6 : wd.extractLsb' 0 2 = r.code := by rw [← hx]; exact (ext_lo _ _ _ _ rfl).trans (ext_all _)
  refine decode_row f1 rfl ?_
  exact firstRow_hit (by simp only [rowDadd, Sys2Proof.sw, f0, f2, f3, f4, f5, f6, Rm_ofCode_code, reduceIte])

theorem RoundTrip.dmul (sw : Bool) (d : BitVec 7) (a : BitVec 7) (b : BitVec 7) (r : Rm) :
    RoundTrip.Statement (.dmul sw d a b r) := by
  intro _ wd hx
  simp only [Instr.encode, Option.some.injEq] at hx
  have f0 : wd.getLsbD 31 = sw := by rw [← hx]; exact (bit_hi _ _ _ rfl).trans ((bit_hi _ _ _ rfl).trans ((bit_hi _ _ _ rfl).trans ((bit_hi _ _ _ rfl).trans ((bit_hi _ _ _ rfl).trans ((bit_hi _ _ _ rfl).trans (bit_one _))))))
  have f1 : wd.extractLsb' 24 7 = 0x2B#7 := by rw [← hx]; exact (ext_hi _ _ _ _ rfl).trans ((ext_hi _ _ _ _ rfl).trans ((ext_hi _ _ _ _ rfl).trans ((ext_hi _ _ _ _ rfl).trans ((ext_hi _ _ _ _ rfl).trans ((ext_lo _ _ _ _ rfl).trans (ext_all _))))))
  have f2 : wd.extractLsb' 17 7 = d := by rw [← hx]; exact (ext_hi _ _ _ _ rfl).trans ((ext_hi _ _ _ _ rfl).trans ((ext_hi _ _ _ _ rfl).trans ((ext_hi _ _ _ _ rfl).trans ((ext_lo _ _ _ _ rfl).trans (ext_all _)))))
  have f3 : wd.extractLsb' 10 7 = a := by rw [← hx]; exact (ext_hi _ _ _ _ rfl).trans ((ext_hi _ _ _ _ rfl).trans ((ext_hi _ _ _ _ rfl).trans ((ext_lo _ _ _ _ rfl).trans (ext_all _))))
  have f4 : wd.extractLsb' 3 7 = b := by rw [← hx]; exact (ext_hi _ _ _ _ rfl).trans ((ext_hi _ _ _ _ rfl).trans ((ext_lo _ _ _ _ rfl).trans (ext_all _)))
  have f5 : wd.extractLsb' 2 1 = 0x0#1 := by rw [← hx]; exact (ext_hi _ _ _ _ rfl).trans ((ext_lo _ _ _ _ rfl).trans (ext_all _))
  have f6 : wd.extractLsb' 0 2 = r.code := by rw [← hx]; exact (ext_lo _ _ _ _ rfl).trans (ext_all _)
  refine decode_row f1 rfl ?_
  exact firstRow_hit (by simp only [rowDmul, Sys2Proof.sw, f0, f2, f3, f4, f5, f6, Rm_ofCode_code, reduceIte])

theorem RoundTrip.dfma (sw : Bool) (d : BitVec 7) (a : BitVec 7) (b : BitVec 7) (r : Rm) :
    RoundTrip.Statement (.dfma sw d a b r) := by
  intro _ wd hx
  simp only [Instr.encode, Option.some.injEq] at hx
  have f0 : wd.getLsbD 31 = sw := by rw [← hx]; exact (bit_hi _ _ _ rfl).trans ((bit_hi _ _ _ rfl).trans ((bit_hi _ _ _ rfl).trans ((bit_hi _ _ _ rfl).trans ((bit_hi _ _ _ rfl).trans ((bit_hi _ _ _ rfl).trans (bit_one _))))))
  have f1 : wd.extractLsb' 24 7 = 0x2C#7 := by rw [← hx]; exact (ext_hi _ _ _ _ rfl).trans ((ext_hi _ _ _ _ rfl).trans ((ext_hi _ _ _ _ rfl).trans ((ext_hi _ _ _ _ rfl).trans ((ext_hi _ _ _ _ rfl).trans ((ext_lo _ _ _ _ rfl).trans (ext_all _))))))
  have f2 : wd.extractLsb' 17 7 = d := by rw [← hx]; exact (ext_hi _ _ _ _ rfl).trans ((ext_hi _ _ _ _ rfl).trans ((ext_hi _ _ _ _ rfl).trans ((ext_hi _ _ _ _ rfl).trans ((ext_lo _ _ _ _ rfl).trans (ext_all _)))))
  have f3 : wd.extractLsb' 10 7 = a := by rw [← hx]; exact (ext_hi _ _ _ _ rfl).trans ((ext_hi _ _ _ _ rfl).trans ((ext_hi _ _ _ _ rfl).trans ((ext_lo _ _ _ _ rfl).trans (ext_all _))))
  have f4 : wd.extractLsb' 3 7 = b := by rw [← hx]; exact (ext_hi _ _ _ _ rfl).trans ((ext_hi _ _ _ _ rfl).trans ((ext_lo _ _ _ _ rfl).trans (ext_all _)))
  have f5 : wd.extractLsb' 2 1 = 0x0#1 := by rw [← hx]; exact (ext_hi _ _ _ _ rfl).trans ((ext_lo _ _ _ _ rfl).trans (ext_all _))
  have f6 : wd.extractLsb' 0 2 = r.code := by rw [← hx]; exact (ext_lo _ _ _ _ rfl).trans (ext_all _)
  refine decode_row f1 rfl ?_
  exact firstRow_hit (by simp only [rowDfma, Sys2Proof.sw, f0, f2, f3, f4, f5, f6, Rm_ofCode_code, reduceIte])

theorem RoundTrip.dset (sw : Bool) (c : FCond) (p : BitVec 3) (a : BitVec 7) (b : BitVec 7) :
    RoundTrip.Statement (.dset sw c p a b) := by
  intro _ wd hx
  simp only [Instr.encode, Option.some.injEq] at hx
  have f0 : wd.getLsbD 31 = sw := by rw [← hx]; exact (bit_hi _ _ _ rfl).trans ((bit_hi _ _ _ rfl).trans ((bit_hi _ _ _ rfl).trans ((bit_hi _ _ _ rfl).trans ((bit_hi _ _ _ rfl).trans ((bit_hi _ _ _ rfl).trans ((bit_hi _ _ _ rfl).trans (bit_one _)))))))
  have f1 : wd.extractLsb' 24 7 = 0x2D#7 := by rw [← hx]; exact (ext_hi _ _ _ _ rfl).trans ((ext_hi _ _ _ _ rfl).trans ((ext_hi _ _ _ _ rfl).trans ((ext_hi _ _ _ _ rfl).trans ((ext_hi _ _ _ _ rfl).trans ((ext_hi _ _ _ _ rfl).trans ((ext_lo _ _ _ _ rfl).trans (ext_all _)))))))
  have f2 : wd.extractLsb' 21 3 = c.code := by rw [← hx]; exact (ext_hi _ _ _ _ rfl).trans ((ext_hi _ _ _ _ rfl).trans ((ext_hi _ _ _ _ rfl).trans ((ext_hi _ _ _ _ rfl).trans ((ext_hi _ _ _ _ rfl).trans ((ext_lo _ _ _ _ rfl).trans (ext_all _))))))
  have f3 : wd.extractLsb' 20 1 = 0x0#1 := by rw [← hx]; exact (ext_hi _ _ _ _ rfl).trans ((ext_hi _ _ _ _ rfl).trans ((ext_hi _ _ _ _ rfl).trans ((ext_hi _ _ _ _ rfl).trans ((ext_lo _ _ _ _ rfl).trans (ext_all _)))))
  have f4 : wd.extractLsb' 17 3 = p := by rw [← hx]; exact (ext_hi _ _ _ _ rfl).trans ((ext_hi _ _ _ _ rfl).trans ((ext_hi _ _ _ _ rfl).trans ((ext_lo _ _ _ _ rfl).trans (ext_all _))))
  have f5 : wd.extractLsb' 10 7 = a := by rw [← hx]; exact (ext_hi _ _ _ _ rfl).trans ((ext_hi _ _ _ _ rfl).trans ((ext_lo _ _ _ _ rfl).trans (ext_all _)))
  have f6 : wd.extractLsb' 3 7 = b := by rw [← hx]; exact (ext_hi _ _ _ _ rfl).trans ((ext_lo _ _ _ _ rfl).trans (ext_all _))
  have f7 : wd.extractLsb' 0 3 = 0x0#3 := by rw [← hx]; exact (ext_lo _ _ _ _ rfl).trans (ext_all _)
  refine decode_row f1 rfl ?_
  exact firstRow_hit (by simp only [rowDset, Sys2Proof.sw, f0, f2, f3, f4, f5, f6, f7, FCond_ofCode_code, and_self, reduceIte])

theorem RoundTrip.hpadd (sw : Bool) (d : BitVec 7) (a : BitVec 7) (b : BitVec 7) (z : Bool) (r : Rm) :
    RoundTrip.Statement (.hpadd sw d a b z r) := by
  intro _ wd hx
  simp only [Instr.encode, Option.some.injEq] at hx
  have f0 : wd.getLsbD 31 = sw := by rw [← hx]; exact (bit_hi _ _ _ rfl).trans ((bit_hi _ _ _ rfl).trans ((bit_hi _ _ _ rfl).trans ((bit_hi _ _ _ rfl).trans ((bit_hi _ _ _ rfl).trans ((bit_hi _ _ _ rfl).trans (bit_one _))))))
  have f1 : wd.extractLsb' 24 7 = 0x2E#7 := by rw [← hx]; exact (ext_hi _ _ _ _ rfl).trans ((ext_hi _ _ _ _ rfl).trans ((ext_hi _ _ _ _ rfl).trans ((ext_hi _ _ _ _ rfl).trans ((ext_hi _ _ _ _ rfl).trans ((ext_lo _ _ _ _ rfl).trans (ext_all _))))))
  have f2 : wd.extractLsb' 17 7 = d := by rw [← hx]; exact (ext_hi _ _ _ _ rfl).trans ((ext_hi _ _ _ _ rfl).trans ((ext_hi _ _ _ _ rfl).trans ((ext_hi _ _ _ _ rfl).trans ((ext_lo _ _ _ _ rfl).trans (ext_all _)))))
  have f3 : wd.extractLsb' 10 7 = a := by rw [← hx]; exact (ext_hi _ _ _ _ rfl).trans ((ext_hi _ _ _ _ rfl).trans ((ext_hi _ _ _ _ rfl).trans ((ext_lo _ _ _ _ rfl).trans (ext_all _))))
  have f4 : wd.extractLsb' 3 7 = b := by rw [← hx]; exact (ext_hi _ _ _ _ rfl).trans ((ext_hi _ _ _ _ rfl).trans ((ext_lo _ _ _ _ rfl).trans (ext_all _)))
  have f5 : wd.getLsbD 2 = z := by rw [← hx]; exact (bit_hi _ _ _ rfl).trans ((bit_lo _ _ _ rfl).trans (bit_one _))
  have f6 : wd.extractLsb' 0 2 = r.code := by rw [← hx]; exact (ext_lo _ _ _ _ rfl).trans (ext_all _)
  refine decode_row f1 rfl ?_
  exact firstRow_hit (by simp only [rowHpadd, Sys2Proof.sw, f0, f2, f3, f4, f5, f6, Rm_ofCode_code])

theorem RoundTrip.hpmul (sw : Bool) (d : BitVec 7) (a : BitVec 7) (b : BitVec 7) (z : Bool) (r : Rm) :
    RoundTrip.Statement (.hpmul sw d a b z r) := by
  intro _ wd hx
  simp only [Instr.encode, Option.some.injEq] at hx
  have f0 : wd.getLsbD 31 = sw := by rw [← hx]; exact (bit_hi _ _ _ rfl).trans ((bit_hi _ _ _ rfl).trans ((bit_hi _ _ _ rfl).trans ((bit_hi _ _ _ rfl).trans ((bit_hi _ _ _ rfl).trans ((bit_hi _ _ _ rfl).trans (bit_one _))))))
  have f1 : wd.extractLsb' 24 7 = 0x2F#7 := by rw [← hx]; exact (ext_hi _ _ _ _ rfl).trans ((ext_hi _ _ _ _ rfl).trans ((ext_hi _ _ _ _ rfl).trans ((ext_hi _ _ _ _ rfl).trans ((ext_hi _ _ _ _ rfl).trans ((ext_lo _ _ _ _ rfl).trans (ext_all _))))))
  have f2 : wd.extractLsb' 17 7 = d := by rw [← hx]; exact (ext_hi _ _ _ _ rfl).trans ((ext_hi _ _ _ _ rfl).trans ((ext_hi _ _ _ _ rfl).trans ((ext_hi _ _ _ _ rfl).trans ((ext_lo _ _ _ _ rfl).trans (ext_all _)))))
  have f3 : wd.extractLsb' 10 7 = a := by rw [← hx]; exact (ext_hi _ _ _ _ rfl).trans ((ext_hi _ _ _ _ rfl).trans ((ext_hi _ _ _ _ rfl).trans ((ext_lo _ _ _ _ rfl).trans (ext_all _))))
  have f4 : wd.extractLsb' 3 7 = b := by rw [← hx]; exact (ext_hi _ _ _ _ rfl).trans ((ext_hi _ _ _ _ rfl).trans ((ext_lo _ _ _ _ rfl).trans (ext_all _)))
  have f5 : wd.getLsbD 2 = z := by rw [← hx]; exact (bit_hi _ _ _ rfl).trans ((bit_lo _ _ _ rfl).trans (bit_one _))
  have f6 : wd.extractLsb' 0 2 = r.code := by rw [← hx]; exact (ext_lo _ _ _ _ rfl).trans (ext_all _)
  refine decode_row f1 rfl ?_
  exact firstRow_hit (by simp only [rowHpmul, Sys2Proof.sw, f0, f2, f3, f4, f5, f6, Rm_ofCode_code])

theorem RoundTrip.hpfma (sw : Bool) (d : BitVec 7) (a : BitVec 7) (b : BitVec 7) (z : Bool) (r : Rm) :
    RoundTrip.Statement (.hpfma sw d a b z r) := by
  intro _ wd hx
  simp only [Instr.encode, Option.some.injEq] at hx
  have f0 : wd.getLsbD 31 = sw := by rw [← hx]; exact (bit_hi _ _ _ rfl).trans ((bit_hi _ _ _ rfl).trans ((bit_hi _ _ _ rfl).trans ((bit_hi _ _ _ rfl).trans ((bit_hi _ _ _ rfl).trans ((bit_hi _ _ _ rfl).trans (bit_one _))))))
  have f1 : wd.extractLsb' 24 7 = 0x30#7 := by rw [← hx]; exact (ext_hi _ _ _ _ rfl).trans ((ext_hi _ _ _ _ rfl).trans ((ext_hi _ _ _ _ rfl).trans ((ext_hi _ _ _ _ rfl).trans ((ext_hi _ _ _ _ rfl).trans ((ext_lo _ _ _ _ rfl).trans (ext_all _))))))
  have f2 : wd.extractLsb' 17 7 = d := by rw [← hx]; exact (ext_hi _ _ _ _ rfl).trans ((ext_hi _ _ _ _ rfl).trans ((ext_hi _ _ _ _ rfl).trans ((ext_hi _ _ _ _ rfl).trans ((ext_lo _ _ _ _ rfl).trans (ext_all _)))))
  have f3 : wd.extractLsb' 10 7 = a := by rw [← hx]; exact (ext_hi _ _ _ _ rfl).trans ((ext_hi _ _ _ _ rfl).trans ((ext_hi _ _ _ _ rfl).trans ((ext_lo _ _ _ _ rfl).trans (ext_all _))))
  have f4 : wd.extractLsb' 3 7 = b := by rw [← hx]; exact (ext_hi _ _ _ _ rfl).trans ((ext_hi _ _ _ _ rfl).trans ((ext_lo _ _ _ _ rfl).trans (ext_all _)))
  have f5 : wd.getLsbD 2 = z := by rw [← hx]; exact (bit_hi _ _ _ rfl).trans ((bit_lo _ _ _ rfl).trans (bit_one _))
  have f6 : wd.extractLsb' 0 2 = r.code := by rw [← hx]; exact (ext_lo _ _ _ _ rfl).trans (ext_all _)
  refine decode_row f1 rfl ?_
  exact firstRow_hit (by simp only [rowHpfma, Sys2Proof.sw, f0, f2, f3, f4, f5, f6, Rm_ofCode_code])

theorem RoundTrip.f2i (sw : Bool) (d : BitVec 7) (a : BitVec 7) (x : Fmt) (t : IntTy) (r : Rm) :
    RoundTrip.Statement (.f2i sw d a x t r) := by
  intro _ wd hx
  simp only [Instr.encode, Option.some.injEq] at hx
  have f0 : wd.getLsbD 31 = sw := by rw [← hx]; exact (bit_hi _ _ _ rfl).trans ((bit_hi _ _ _ rfl).trans ((bit_hi _ _ _ rfl).trans ((bit_hi _ _ _ rfl).trans ((bit_hi _ _ _ rfl).trans ((bit_hi _ _ _ rfl).trans ((bit_hi _ _ _ rfl).trans (bit_one _)))))))
  have f1 : wd.extractLsb' 24 7 = 0x31#7 := by rw [← hx]; exact (ext_hi _ _ _ _ rfl).trans ((ext_hi _ _ _ _ rfl).trans ((ext_hi _ _ _ _ rfl).trans ((ext_hi _ _ _ _ rfl).trans ((ext_hi _ _ _ _ rfl).trans ((ext_hi _ _ _ _ rfl).trans ((ext_lo _ _ _ _ rfl).trans (ext_all _)))))))
  have f2 : wd.extractLsb' 17 7 = d := by rw [← hx]; exact (ext_hi _ _ _ _ rfl).trans ((ext_hi _ _ _ _ rfl).trans ((ext_hi _ _ _ _ rfl).trans ((ext_hi _ _ _ _ rfl).trans ((ext_hi _ _ _ _ rfl).trans ((ext_lo _ _ _ _ rfl).trans (ext_all _))))))
  have f3 : wd.extractLsb' 10 7 = a := by rw [← hx]; exact (ext_hi _ _ _ _ rfl).trans ((ext_hi _ _ _ _ rfl).trans ((ext_hi _ _ _ _ rfl).trans ((ext_hi _ _ _ _ rfl).trans ((ext_lo _ _ _ _ rfl).trans (ext_all _)))))
  have f4 : wd.extractLsb' 8 2 = x.code := by rw [← hx]; exact (ext_hi _ _ _ _ rfl).trans ((ext_hi _ _ _ _ rfl).trans ((ext_hi _ _ _ _ rfl).trans ((ext_lo _ _ _ _ rfl).trans (ext_all _))))
  have f5 : wd.extractLsb' 5 3 = t.code := by rw [← hx]; exact (ext_hi _ _ _ _ rfl).trans ((ext_hi _ _ _ _ rfl).trans ((ext_lo _ _ _ _ rfl).trans (ext_all _)))
  have f6 : wd.extractLsb' 2 3 = 0x0#3 := by rw [← hx]; exact (ext_hi _ _ _ _ rfl).trans ((ext_lo _ _ _ _ rfl).trans (ext_all _))
  have f7 : wd.extractLsb' 0 2 = r.code := by rw [← hx]; exact (ext_lo _ _ _ _ rfl).trans (ext_all _)
  refine decode_row f1 rfl ?_
  exact firstRow_hit (by simp only [rowF2i, Sys2Proof.sw, f0, f2, f3, f4, f5, f6, f7, Fmt_ofCode_code, IntTy_ofCode_code, Rm_ofCode_code, reduceIte])

theorem RoundTrip.i2f (sw : Bool) (d : BitVec 7) (a : BitVec 7) (x : Fmt) (t : IntTy) (r : Rm) :
    RoundTrip.Statement (.i2f sw d a x t r) := by
  intro _ wd hx
  simp only [Instr.encode, Option.some.injEq] at hx
  have f0 : wd.getLsbD 31 = sw := by rw [← hx]; exact (bit_hi _ _ _ rfl).trans ((bit_hi _ _ _ rfl).trans ((bit_hi _ _ _ rfl).trans ((bit_hi _ _ _ rfl).trans ((bit_hi _ _ _ rfl).trans ((bit_hi _ _ _ rfl).trans ((bit_hi _ _ _ rfl).trans (bit_one _)))))))
  have f1 : wd.extractLsb' 24 7 = 0x32#7 := by rw [← hx]; exact (ext_hi _ _ _ _ rfl).trans ((ext_hi _ _ _ _ rfl).trans ((ext_hi _ _ _ _ rfl).trans ((ext_hi _ _ _ _ rfl).trans ((ext_hi _ _ _ _ rfl).trans ((ext_hi _ _ _ _ rfl).trans ((ext_lo _ _ _ _ rfl).trans (ext_all _)))))))
  have f2 : wd.extractLsb' 17 7 = d := by rw [← hx]; exact (ext_hi _ _ _ _ rfl).trans ((ext_hi _ _ _ _ rfl).trans ((ext_hi _ _ _ _ rfl).trans ((ext_hi _ _ _ _ rfl).trans ((ext_hi _ _ _ _ rfl).trans ((ext_lo _ _ _ _ rfl).trans (ext_all _))))))
  have f3 : wd.extractLsb' 10 7 = a := by rw [← hx]; exact (ext_hi _ _ _ _ rfl).trans ((ext_hi _ _ _ _ rfl).trans ((ext_hi _ _ _ _ rfl).trans ((ext_hi _ _ _ _ rfl).trans ((ext_lo _ _ _ _ rfl).trans (ext_all _)))))
  have f4 : wd.extractLsb' 8 2 = x.code := by rw [← hx]; exact (ext_hi _ _ _ _ rfl).trans ((ext_hi _ _ _ _ rfl).trans ((ext_hi _ _ _ _ rfl).trans ((ext_lo _ _ _ _ rfl).trans (ext_all _))))
  have f5 : wd.extractLsb' 5 3 = t.code := by rw [← hx]; exact (ext_hi _ _ _ _ rfl).trans ((ext_hi _ _ _ _ rfl).trans ((ext_lo _ _ _ _ rfl).trans (ext_all _)))
  have f6 : wd.extractLsb' 2 3 = 0x0#3 := by rw [← hx]; exact (ext_hi _ _ _ _ rfl).trans ((ext_lo _ _ _ _ rfl).trans (ext_all _))
  have f7 : wd.extractLsb' 0 2 = r.code := by rw [← hx]; exact (ext_lo _ _ _ _ rfl).trans (ext_all _)
  refine decode_row f1 rfl ?_
  exact firstRow_hit (by simp only [rowI2f, Sys2Proof.sw, f0, f2, f3, f4, f5, f6, f7, Fmt_ofCode_code, IntTy_ofCode_code, Rm_ofCode_code, reduceIte])

theorem RoundTrip.f2f (sw : Bool) (d : BitVec 7) (a : BitVec 7) (x : Fmt) (y : Fmt) (z : Bool) (r : Rm) :
    RoundTrip.Statement (.f2f sw d a x y z r) := by
  intro _ wd hx
  simp only [Instr.encode, Option.some.injEq] at hx
  have f0 : wd.getLsbD 31 = sw := by rw [← hx]; exact (bit_hi _ _ _ rfl).trans ((bit_hi _ _ _ rfl).trans ((bit_hi _ _ _ rfl).trans ((bit_hi _ _ _ rfl).trans ((bit_hi _ _ _ rfl).trans ((bit_hi _ _ _ rfl).trans ((bit_hi _ _ _ rfl).trans ((bit_hi _ _ _ rfl).trans (bit_one _))))))))
  have f1 : wd.extractLsb' 24 7 = 0x33#7 := by rw [← hx]; exact (ext_hi _ _ _ _ rfl).trans ((ext_hi _ _ _ _ rfl).trans ((ext_hi _ _ _ _ rfl).trans ((ext_hi _ _ _ _ rfl).trans ((ext_hi _ _ _ _ rfl).trans ((ext_hi _ _ _ _ rfl).trans ((ext_hi _ _ _ _ rfl).trans ((ext_lo _ _ _ _ rfl).trans (ext_all _))))))))
  have f2 : wd.extractLsb' 17 7 = d := by rw [← hx]; exact (ext_hi _ _ _ _ rfl).trans ((ext_hi _ _ _ _ rfl).trans ((ext_hi _ _ _ _ rfl).trans ((ext_hi _ _ _ _ rfl).trans ((ext_hi _ _ _ _ rfl).trans ((ext_hi _ _ _ _ rfl).trans ((ext_lo _ _ _ _ rfl).trans (ext_all _)))))))
  have f3 : wd.extractLsb' 10 7 = a := by rw [← hx]; exact (ext_hi _ _ _ _ rfl).trans ((ext_hi _ _ _ _ rfl).trans ((ext_hi _ _ _ _ rfl).trans ((ext_hi _ _ _ _ rfl).trans ((ext_hi _ _ _ _ rfl).trans ((ext_lo _ _ _ _ rfl).trans (ext_all _))))))
  have f4 : wd.extractLsb' 8 2 = x.code := by rw [← hx]; exact (ext_hi _ _ _ _ rfl).trans ((ext_hi _ _ _ _ rfl).trans ((ext_hi _ _ _ _ rfl).trans ((ext_hi _ _ _ _ rfl).trans ((ext_lo _ _ _ _ rfl).trans (ext_all _)))))
  have f5 : wd.extractLsb' 6 2 = y.code := by rw [← hx]; exact (ext_hi _ _ _ _ rfl).trans ((ext_hi _ _ _ _ rfl).trans ((ext_hi _ _ _ _ rfl).trans ((ext_lo _ _ _ _ rfl).trans (ext_all _))))
  have f6 : wd.extractLsb' 3 3 = 0x0#3 := by rw [← hx]; exact (ext_hi _ _ _ _ rfl).trans ((ext_hi _ _ _ _ rfl).trans ((ext_lo _ _ _ _ rfl).trans (ext_all _)))
  have f7 : wd.getLsbD 2 = z := by rw [← hx]; exact (bit_hi _ _ _ rfl).trans ((bit_lo _ _ _ rfl).trans (bit_one _))
  have f8 : wd.extractLsb' 0 2 = r.code := by rw [← hx]; exact (ext_lo _ _ _ _ rfl).trans (ext_all _)
  refine decode_row f1 rfl ?_
  exact firstRow_hit (by simp only [rowF2f, Sys2Proof.sw, f0, f2, f3, f4, f5, f6, f7, f8, Fmt_ofCode_code, Rm_ofCode_code, reduceIte])

theorem RoundTrip.qgrp (sw : Bool) (d : BitVec 7) (a : BitVec 7) (b : BitVec 7) (f : BitVec 3) :
    RoundTrip.Statement (.qgrp sw d a b f) := by
  intro _ wd hx
  simp only [Instr.encode, Option.some.injEq] at hx
  have f0 : wd.getLsbD 31 = sw := by rw [← hx]; exact (bit_hi _ _ _ rfl).trans ((bit_hi _ _ _ rfl).trans ((bit_hi _ _ _ rfl).trans ((bit_hi _ _ _ rfl).trans ((bit_hi _ _ _ rfl).trans (bit_one _)))))
  have f1 : wd.extractLsb' 24 7 = 0x34#7 := by rw [← hx]; exact (ext_hi _ _ _ _ rfl).trans ((ext_hi _ _ _ _ rfl).trans ((ext_hi _ _ _ _ rfl).trans ((ext_hi _ _ _ _ rfl).trans ((ext_lo _ _ _ _ rfl).trans (ext_all _)))))
  have f2 : wd.extractLsb' 17 7 = d := by rw [← hx]; exact (ext_hi _ _ _ _ rfl).trans ((ext_hi _ _ _ _ rfl).trans ((ext_hi _ _ _ _ rfl).trans ((ext_lo _ _ _ _ rfl).trans (ext_all _))))
  have f3 : wd.extractLsb' 10 7 = a := by rw [← hx]; exact (ext_hi _ _ _ _ rfl).trans ((ext_hi _ _ _ _ rfl).trans ((ext_lo _ _ _ _ rfl).trans (ext_all _)))
  have f4 : wd.extractLsb' 3 7 = b := by rw [← hx]; exact (ext_hi _ _ _ _ rfl).trans ((ext_lo _ _ _ _ rfl).trans (ext_all _))
  have f5 : wd.extractLsb' 0 3 = f := by rw [← hx]; exact (ext_lo _ _ _ _ rfl).trans (ext_all _)
  refine decode_row f1 rfl ?_
  exact firstRow_hit (by simp only [rowQgrp, Sys2Proof.sw, f0, f2, f3, f4, f5])

theorem RoundTrip.qpack (sw : Bool) (d : BitVec 7) (a : BitVec 7) (b : BitVec 7) (f : BitVec 3) :
    RoundTrip.Statement (.qpack sw d a b f) := by
  intro _ wd hx
  simp only [Instr.encode, Option.some.injEq] at hx
  have f0 : wd.getLsbD 31 = sw := by rw [← hx]; exact (bit_hi _ _ _ rfl).trans ((bit_hi _ _ _ rfl).trans ((bit_hi _ _ _ rfl).trans ((bit_hi _ _ _ rfl).trans ((bit_hi _ _ _ rfl).trans (bit_one _)))))
  have f1 : wd.extractLsb' 24 7 = 0x35#7 := by rw [← hx]; exact (ext_hi _ _ _ _ rfl).trans ((ext_hi _ _ _ _ rfl).trans ((ext_hi _ _ _ _ rfl).trans ((ext_hi _ _ _ _ rfl).trans ((ext_lo _ _ _ _ rfl).trans (ext_all _)))))
  have f2 : wd.extractLsb' 17 7 = d := by rw [← hx]; exact (ext_hi _ _ _ _ rfl).trans ((ext_hi _ _ _ _ rfl).trans ((ext_hi _ _ _ _ rfl).trans ((ext_lo _ _ _ _ rfl).trans (ext_all _))))
  have f3 : wd.extractLsb' 10 7 = a := by rw [← hx]; exact (ext_hi _ _ _ _ rfl).trans ((ext_hi _ _ _ _ rfl).trans ((ext_lo _ _ _ _ rfl).trans (ext_all _)))
  have f4 : wd.extractLsb' 3 7 = b := by rw [← hx]; exact (ext_hi _ _ _ _ rfl).trans ((ext_lo _ _ _ _ rfl).trans (ext_all _))
  have f5 : wd.extractLsb' 0 3 = f := by rw [← hx]; exact (ext_lo _ _ _ _ rfl).trans (ext_all _)
  refine decode_row f1 rfl ?_
  exact firstRow_hit (by simp only [rowQpack, Sys2Proof.sw, f0, f2, f3, f4, f5])

theorem RoundTrip.qunpk (sw : Bool) (d : BitVec 7) (a : BitVec 7) (b : BitVec 7) (f : BitVec 3) :
    RoundTrip.Statement (.qunpk sw d a b f) := by
  intro _ wd hx
  simp only [Instr.encode, Option.some.injEq] at hx
  have f0 : wd.getLsbD 31 = sw := by rw [← hx]; exact (bit_hi _ _ _ rfl).trans ((bit_hi _ _ _ rfl).trans ((bit_hi _ _ _ rfl).trans ((bit_hi _ _ _ rfl).trans ((bit_hi _ _ _ rfl).trans (bit_one _)))))
  have f1 : wd.extractLsb' 24 7 = 0x36#7 := by rw [← hx]; exact (ext_hi _ _ _ _ rfl).trans ((ext_hi _ _ _ _ rfl).trans ((ext_hi _ _ _ _ rfl).trans ((ext_hi _ _ _ _ rfl).trans ((ext_lo _ _ _ _ rfl).trans (ext_all _)))))
  have f2 : wd.extractLsb' 17 7 = d := by rw [← hx]; exact (ext_hi _ _ _ _ rfl).trans ((ext_hi _ _ _ _ rfl).trans ((ext_hi _ _ _ _ rfl).trans ((ext_lo _ _ _ _ rfl).trans (ext_all _))))
  have f3 : wd.extractLsb' 10 7 = a := by rw [← hx]; exact (ext_hi _ _ _ _ rfl).trans ((ext_hi _ _ _ _ rfl).trans ((ext_lo _ _ _ _ rfl).trans (ext_all _)))
  have f4 : wd.extractLsb' 3 7 = b := by rw [← hx]; exact (ext_hi _ _ _ _ rfl).trans ((ext_lo _ _ _ _ rfl).trans (ext_all _))
  have f5 : wd.extractLsb' 0 3 = f := by rw [← hx]; exact (ext_lo _ _ _ _ rfl).trans (ext_all _)
  refine decode_row f1 rfl ?_
  exact firstRow_hit (by simp only [rowQunpk, Sys2Proof.sw, f0, f2, f3, f4, f5])

theorem RoundTrip.shflIdx (sw : Bool) (d : BitVec 7) (a : BitVec 7) (b : BitVec 7) :
    RoundTrip.Statement (.shflIdx sw d a b) := by
  intro _ wd hx
  simp only [Instr.encode, Option.some.injEq] at hx
  have f0 : wd.getLsbD 31 = sw := by rw [← hx]; exact (bit_hi _ _ _ rfl).trans ((bit_hi _ _ _ rfl).trans ((bit_hi _ _ _ rfl).trans ((bit_hi _ _ _ rfl).trans ((bit_hi _ _ _ rfl).trans (bit_one _)))))
  have f1 : wd.extractLsb' 24 7 = 0x38#7 := by rw [← hx]; exact (ext_hi _ _ _ _ rfl).trans ((ext_hi _ _ _ _ rfl).trans ((ext_hi _ _ _ _ rfl).trans ((ext_hi _ _ _ _ rfl).trans ((ext_lo _ _ _ _ rfl).trans (ext_all _)))))
  have f2 : wd.extractLsb' 17 7 = d := by rw [← hx]; exact (ext_hi _ _ _ _ rfl).trans ((ext_hi _ _ _ _ rfl).trans ((ext_hi _ _ _ _ rfl).trans ((ext_lo _ _ _ _ rfl).trans (ext_all _))))
  have f3 : wd.extractLsb' 10 7 = a := by rw [← hx]; exact (ext_hi _ _ _ _ rfl).trans ((ext_hi _ _ _ _ rfl).trans ((ext_lo _ _ _ _ rfl).trans (ext_all _)))
  have f4 : wd.extractLsb' 3 7 = b := by rw [← hx]; exact (ext_hi _ _ _ _ rfl).trans ((ext_lo _ _ _ _ rfl).trans (ext_all _))
  have f5 : wd.extractLsb' 0 3 = 0x0#3 := by rw [← hx]; exact (ext_lo _ _ _ _ rfl).trans (ext_all _)
  refine decode_row f1 rfl ?_
  exact firstRow_hit (by simp only [rowShflIdx, Sys2Proof.sw, f0, f2, f3, f4, f5, reduceIte])

theorem RoundTrip.shflUp (sw : Bool) (d : BitVec 7) (a : BitVec 7) (b : BitVec 7) :
    RoundTrip.Statement (.shflUp sw d a b) := by
  intro _ wd hx
  simp only [Instr.encode, Option.some.injEq] at hx
  have f0 : wd.getLsbD 31 = sw := by rw [← hx]; exact (bit_hi _ _ _ rfl).trans ((bit_hi _ _ _ rfl).trans ((bit_hi _ _ _ rfl).trans ((bit_hi _ _ _ rfl).trans ((bit_hi _ _ _ rfl).trans (bit_one _)))))
  have f1 : wd.extractLsb' 24 7 = 0x38#7 := by rw [← hx]; exact (ext_hi _ _ _ _ rfl).trans ((ext_hi _ _ _ _ rfl).trans ((ext_hi _ _ _ _ rfl).trans ((ext_hi _ _ _ _ rfl).trans ((ext_lo _ _ _ _ rfl).trans (ext_all _)))))
  have f2 : wd.extractLsb' 17 7 = d := by rw [← hx]; exact (ext_hi _ _ _ _ rfl).trans ((ext_hi _ _ _ _ rfl).trans ((ext_hi _ _ _ _ rfl).trans ((ext_lo _ _ _ _ rfl).trans (ext_all _))))
  have f3 : wd.extractLsb' 10 7 = a := by rw [← hx]; exact (ext_hi _ _ _ _ rfl).trans ((ext_hi _ _ _ _ rfl).trans ((ext_lo _ _ _ _ rfl).trans (ext_all _)))
  have f4 : wd.extractLsb' 3 7 = b := by rw [← hx]; exact (ext_hi _ _ _ _ rfl).trans ((ext_lo _ _ _ _ rfl).trans (ext_all _))
  have f5 : wd.extractLsb' 0 3 = 0x1#3 := by rw [← hx]; exact (ext_lo _ _ _ _ rfl).trans (ext_all _)
  refine decode_row f1 rfl ?_
  refine firstRow_skip (if_neg fun hc => absurd (f5.symm.trans hc) (by decide)) ?_
  exact firstRow_hit (by simp only [rowShflUp, Sys2Proof.sw, f0, f2, f3, f4, f5, reduceIte])

theorem RoundTrip.shflDown (sw : Bool) (d : BitVec 7) (a : BitVec 7) (b : BitVec 7) :
    RoundTrip.Statement (.shflDown sw d a b) := by
  intro _ wd hx
  simp only [Instr.encode, Option.some.injEq] at hx
  have f0 : wd.getLsbD 31 = sw := by rw [← hx]; exact (bit_hi _ _ _ rfl).trans ((bit_hi _ _ _ rfl).trans ((bit_hi _ _ _ rfl).trans ((bit_hi _ _ _ rfl).trans ((bit_hi _ _ _ rfl).trans (bit_one _)))))
  have f1 : wd.extractLsb' 24 7 = 0x38#7 := by rw [← hx]; exact (ext_hi _ _ _ _ rfl).trans ((ext_hi _ _ _ _ rfl).trans ((ext_hi _ _ _ _ rfl).trans ((ext_hi _ _ _ _ rfl).trans ((ext_lo _ _ _ _ rfl).trans (ext_all _)))))
  have f2 : wd.extractLsb' 17 7 = d := by rw [← hx]; exact (ext_hi _ _ _ _ rfl).trans ((ext_hi _ _ _ _ rfl).trans ((ext_hi _ _ _ _ rfl).trans ((ext_lo _ _ _ _ rfl).trans (ext_all _))))
  have f3 : wd.extractLsb' 10 7 = a := by rw [← hx]; exact (ext_hi _ _ _ _ rfl).trans ((ext_hi _ _ _ _ rfl).trans ((ext_lo _ _ _ _ rfl).trans (ext_all _)))
  have f4 : wd.extractLsb' 3 7 = b := by rw [← hx]; exact (ext_hi _ _ _ _ rfl).trans ((ext_lo _ _ _ _ rfl).trans (ext_all _))
  have f5 : wd.extractLsb' 0 3 = 0x2#3 := by rw [← hx]; exact (ext_lo _ _ _ _ rfl).trans (ext_all _)
  refine decode_row f1 rfl ?_
  refine firstRow_skip (if_neg fun hc => absurd (f5.symm.trans hc) (by decide)) ?_
  refine firstRow_skip (if_neg fun hc => absurd (f5.symm.trans hc) (by decide)) ?_
  exact firstRow_hit (by simp only [rowShflDown, Sys2Proof.sw, f0, f2, f3, f4, f5, reduceIte])

theorem RoundTrip.shflXor (sw : Bool) (d : BitVec 7) (a : BitVec 7) (b : BitVec 7) :
    RoundTrip.Statement (.shflXor sw d a b) := by
  intro _ wd hx
  simp only [Instr.encode, Option.some.injEq] at hx
  have f0 : wd.getLsbD 31 = sw := by rw [← hx]; exact (bit_hi _ _ _ rfl).trans ((bit_hi _ _ _ rfl).trans ((bit_hi _ _ _ rfl).trans ((bit_hi _ _ _ rfl).trans ((bit_hi _ _ _ rfl).trans (bit_one _)))))
  have f1 : wd.extractLsb' 24 7 = 0x38#7 := by rw [← hx]; exact (ext_hi _ _ _ _ rfl).trans ((ext_hi _ _ _ _ rfl).trans ((ext_hi _ _ _ _ rfl).trans ((ext_hi _ _ _ _ rfl).trans ((ext_lo _ _ _ _ rfl).trans (ext_all _)))))
  have f2 : wd.extractLsb' 17 7 = d := by rw [← hx]; exact (ext_hi _ _ _ _ rfl).trans ((ext_hi _ _ _ _ rfl).trans ((ext_hi _ _ _ _ rfl).trans ((ext_lo _ _ _ _ rfl).trans (ext_all _))))
  have f3 : wd.extractLsb' 10 7 = a := by rw [← hx]; exact (ext_hi _ _ _ _ rfl).trans ((ext_hi _ _ _ _ rfl).trans ((ext_lo _ _ _ _ rfl).trans (ext_all _)))
  have f4 : wd.extractLsb' 3 7 = b := by rw [← hx]; exact (ext_hi _ _ _ _ rfl).trans ((ext_lo _ _ _ _ rfl).trans (ext_all _))
  have f5 : wd.extractLsb' 0 3 = 0x3#3 := by rw [← hx]; exact (ext_lo _ _ _ _ rfl).trans (ext_all _)
  refine decode_row f1 rfl ?_
  refine firstRow_skip (if_neg fun hc => absurd (f5.symm.trans hc) (by decide)) ?_
  refine firstRow_skip (if_neg fun hc => absurd (f5.symm.trans hc) (by decide)) ?_
  refine firstRow_skip (if_neg fun hc => absurd (f5.symm.trans hc) (by decide)) ?_
  exact firstRow_hit (by simp only [rowShflXor, Sys2Proof.sw, f0, f2, f3, f4, f5, reduceIte])

theorem RoundTrip.voteAny (sw : Bool) (p : BitVec 3) (x : BitVec 3) :
    RoundTrip.Statement (.voteAny sw p x) := by
  intro _ wd hx
  simp only [Instr.encode, Option.some.injEq] at hx
  have f0 : wd.getLsbD 31 = sw := by rw [← hx]; exact (bit_hi _ _ _ rfl).trans ((bit_hi _ _ _ rfl).trans ((bit_hi _ _ _ rfl).trans ((bit_hi _ _ _ rfl).trans ((bit_hi _ _ _ rfl).trans ((bit_hi _ _ _ rfl).trans (bit_one _))))))
  have f1 : wd.extractLsb' 24 7 = 0x39#7 := by rw [← hx]; exact (ext_hi _ _ _ _ rfl).trans ((ext_hi _ _ _ _ rfl).trans ((ext_hi _ _ _ _ rfl).trans ((ext_hi _ _ _ _ rfl).trans ((ext_hi _ _ _ _ rfl).trans ((ext_lo _ _ _ _ rfl).trans (ext_all _))))))
  have f2 : wd.extractLsb' 20 4 = 0x0#4 := by rw [← hx]; exact (ext_hi _ _ _ _ rfl).trans ((ext_hi _ _ _ _ rfl).trans ((ext_hi _ _ _ _ rfl).trans ((ext_hi _ _ _ _ rfl).trans ((ext_lo _ _ _ _ rfl).trans (ext_all _)))))
  have f3 : wd.extractLsb' 17 3 = p := by rw [← hx]; exact (ext_hi _ _ _ _ rfl).trans ((ext_hi _ _ _ _ rfl).trans ((ext_hi _ _ _ _ rfl).trans ((ext_lo _ _ _ _ rfl).trans (ext_all _))))
  have f4 : wd.extractLsb' 13 4 = 0x0#4 := by rw [← hx]; exact (ext_hi _ _ _ _ rfl).trans ((ext_hi _ _ _ _ rfl).trans ((ext_lo _ _ _ _ rfl).trans (ext_all _)))
  have f5 : wd.extractLsb' 10 3 = x := by rw [← hx]; exact (ext_hi _ _ _ _ rfl).trans ((ext_lo _ _ _ _ rfl).trans (ext_all _))
  have f6 : wd.extractLsb' 0 10 = 0x0#10 := by rw [← hx]; exact (ext_lo _ _ _ _ rfl).trans (ext_all _)
  refine decode_row f1 rfl ?_
  exact firstRow_hit (by simp only [rowVoteAny, Sys2Proof.sw, f0, f2, f3, f4, f5, f6, and_self, reduceIte])

theorem RoundTrip.voteAll (sw : Bool) (p : BitVec 3) (x : BitVec 3) :
    RoundTrip.Statement (.voteAll sw p x) := by
  intro _ wd hx
  simp only [Instr.encode, Option.some.injEq] at hx
  have f0 : wd.getLsbD 31 = sw := by rw [← hx]; exact (bit_hi _ _ _ rfl).trans ((bit_hi _ _ _ rfl).trans ((bit_hi _ _ _ rfl).trans ((bit_hi _ _ _ rfl).trans ((bit_hi _ _ _ rfl).trans ((bit_hi _ _ _ rfl).trans (bit_one _))))))
  have f1 : wd.extractLsb' 24 7 = 0x39#7 := by rw [← hx]; exact (ext_hi _ _ _ _ rfl).trans ((ext_hi _ _ _ _ rfl).trans ((ext_hi _ _ _ _ rfl).trans ((ext_hi _ _ _ _ rfl).trans ((ext_hi _ _ _ _ rfl).trans ((ext_lo _ _ _ _ rfl).trans (ext_all _))))))
  have f2 : wd.extractLsb' 20 4 = 0x0#4 := by rw [← hx]; exact (ext_hi _ _ _ _ rfl).trans ((ext_hi _ _ _ _ rfl).trans ((ext_hi _ _ _ _ rfl).trans ((ext_hi _ _ _ _ rfl).trans ((ext_lo _ _ _ _ rfl).trans (ext_all _)))))
  have f3 : wd.extractLsb' 17 3 = p := by rw [← hx]; exact (ext_hi _ _ _ _ rfl).trans ((ext_hi _ _ _ _ rfl).trans ((ext_hi _ _ _ _ rfl).trans ((ext_lo _ _ _ _ rfl).trans (ext_all _))))
  have f4 : wd.extractLsb' 13 4 = 0x0#4 := by rw [← hx]; exact (ext_hi _ _ _ _ rfl).trans ((ext_hi _ _ _ _ rfl).trans ((ext_lo _ _ _ _ rfl).trans (ext_all _)))
  have f5 : wd.extractLsb' 10 3 = x := by rw [← hx]; exact (ext_hi _ _ _ _ rfl).trans ((ext_lo _ _ _ _ rfl).trans (ext_all _))
  have f6 : wd.extractLsb' 0 10 = 0x1#10 := by rw [← hx]; exact (ext_lo _ _ _ _ rfl).trans (ext_all _)
  refine decode_row f1 rfl ?_
  refine firstRow_skip (if_neg fun hc => absurd (f6.symm.trans hc.2.2) (by decide)) ?_
  exact firstRow_hit (by simp only [rowVoteAll, Sys2Proof.sw, f0, f2, f3, f4, f5, f6, and_self, reduceIte])

theorem RoundTrip.voteBallot (sw : Bool) (d : BitVec 7) (x : BitVec 3) :
    RoundTrip.Statement (.voteBallot sw d x) := by
  intro _ wd hx
  simp only [Instr.encode, Option.some.injEq] at hx
  have f0 : wd.getLsbD 31 = sw := by rw [← hx]; exact (bit_hi _ _ _ rfl).trans ((bit_hi _ _ _ rfl).trans ((bit_hi _ _ _ rfl).trans ((bit_hi _ _ _ rfl).trans ((bit_hi _ _ _ rfl).trans (bit_one _)))))
  have f1 : wd.extractLsb' 24 7 = 0x39#7 := by rw [← hx]; exact (ext_hi _ _ _ _ rfl).trans ((ext_hi _ _ _ _ rfl).trans ((ext_hi _ _ _ _ rfl).trans ((ext_hi _ _ _ _ rfl).trans ((ext_lo _ _ _ _ rfl).trans (ext_all _)))))
  have f2 : wd.extractLsb' 17 7 = d := by rw [← hx]; exact (ext_hi _ _ _ _ rfl).trans ((ext_hi _ _ _ _ rfl).trans ((ext_hi _ _ _ _ rfl).trans ((ext_lo _ _ _ _ rfl).trans (ext_all _))))
  have f3 : wd.extractLsb' 13 4 = 0x0#4 := by rw [← hx]; exact (ext_hi _ _ _ _ rfl).trans ((ext_hi _ _ _ _ rfl).trans ((ext_lo _ _ _ _ rfl).trans (ext_all _)))
  have f4 : wd.extractLsb' 10 3 = x := by rw [← hx]; exact (ext_hi _ _ _ _ rfl).trans ((ext_lo _ _ _ _ rfl).trans (ext_all _))
  have f5 : wd.extractLsb' 0 10 = 0x2#10 := by rw [← hx]; exact (ext_lo _ _ _ _ rfl).trans (ext_all _)
  refine decode_row f1 rfl ?_
  refine firstRow_skip (if_neg fun hc => absurd (f5.symm.trans hc.2.2) (by decide)) ?_
  refine firstRow_skip (if_neg fun hc => absurd (f5.symm.trans hc.2.2) (by decide)) ?_
  exact firstRow_hit (by simp only [rowVoteBallot, Sys2Proof.sw, f0, f2, f3, f4, f5, and_self, reduceIte])

theorem RoundTrip.matchLanes (sw : Bool) (d : BitVec 7) (a : BitVec 7) (w : Width) :
    RoundTrip.Statement (.matchLanes sw d a w) := by
  intro _ wd hx
  simp only [Instr.encode, Option.some.injEq] at hx
  have f0 : wd.getLsbD 31 = sw := by rw [← hx]; exact (bit_hi _ _ _ rfl).trans ((bit_hi _ _ _ rfl).trans ((bit_hi _ _ _ rfl).trans ((bit_hi _ _ _ rfl).trans ((bit_hi _ _ _ rfl).trans (bit_one _)))))
  have f1 : wd.extractLsb' 24 7 = 0x3A#7 := by rw [← hx]; exact (ext_hi _ _ _ _ rfl).trans ((ext_hi _ _ _ _ rfl).trans ((ext_hi _ _ _ _ rfl).trans ((ext_hi _ _ _ _ rfl).trans ((ext_lo _ _ _ _ rfl).trans (ext_all _)))))
  have f2 : wd.extractLsb' 17 7 = d := by rw [← hx]; exact (ext_hi _ _ _ _ rfl).trans ((ext_hi _ _ _ _ rfl).trans ((ext_hi _ _ _ _ rfl).trans ((ext_lo _ _ _ _ rfl).trans (ext_all _))))
  have f3 : wd.extractLsb' 10 7 = a := by rw [← hx]; exact (ext_hi _ _ _ _ rfl).trans ((ext_hi _ _ _ _ rfl).trans ((ext_lo _ _ _ _ rfl).trans (ext_all _)))
  have f4 : wd.extractLsb' 1 9 = 0x0#9 := by rw [← hx]; exact (ext_hi _ _ _ _ rfl).trans ((ext_lo _ _ _ _ rfl).trans (ext_all _))
  have f5 : wd.extractLsb' 0 1 = w.code := by rw [← hx]; exact (ext_lo _ _ _ _ rfl).trans (ext_all _)
  refine decode_row f1 rfl ?_
  exact firstRow_hit (by simp only [rowMatchLanes, Sys2Proof.sw, f0, f2, f3, f4, f5, Width_ofCode_code, reduceIte])

theorem RoundTrip.elect (sw : Bool) (p : BitVec 3) :
    RoundTrip.Statement (.elect sw p) := by
  intro _ wd hx
  simp only [Instr.encode, Option.some.injEq] at hx
  have f0 : wd.getLsbD 31 = sw := by rw [← hx]; exact (bit_hi _ _ _ rfl).trans ((bit_hi _ _ _ rfl).trans ((bit_hi _ _ _ rfl).trans ((bit_hi _ _ _ rfl).trans (bit_one _))))
  have f1 : wd.extractLsb' 24 7 = 0x3B#7 := by rw [← hx]; exact (ext_hi _ _ _ _ rfl).trans ((ext_hi _ _ _ _ rfl).trans ((ext_hi _ _ _ _ rfl).trans ((ext_lo _ _ _ _ rfl).trans (ext_all _))))
  have f2 : wd.extractLsb' 20 4 = 0x0#4 := by rw [← hx]; exact (ext_hi _ _ _ _ rfl).trans ((ext_hi _ _ _ _ rfl).trans ((ext_lo _ _ _ _ rfl).trans (ext_all _)))
  have f3 : wd.extractLsb' 17 3 = p := by rw [← hx]; exact (ext_hi _ _ _ _ rfl).trans ((ext_lo _ _ _ _ rfl).trans (ext_all _))
  have f4 : wd.extractLsb' 0 17 = 0x0#17 := by rw [← hx]; exact (ext_lo _ _ _ _ rfl).trans (ext_all _)
  refine decode_row f1 rfl ?_
  exact firstRow_hit (by simp only [rowElect, Sys2Proof.sw, f0, f2, f3, f4, and_self, reduceIte])

theorem RoundTrip.scanAdd (sw : Bool) (d : BitVec 7) (a : BitVec 7) :
    RoundTrip.Statement (.scanAdd sw d a) := by
  intro _ wd hx
  simp only [Instr.encode, Option.some.injEq] at hx
  have f0 : wd.getLsbD 31 = sw := by rw [← hx]; exact (bit_hi _ _ _ rfl).trans ((bit_hi _ _ _ rfl).trans ((bit_hi _ _ _ rfl).trans ((bit_hi _ _ _ rfl).trans (bit_one _))))
  have f1 : wd.extractLsb' 24 7 = 0x3C#7 := by rw [← hx]; exact (ext_hi _ _ _ _ rfl).trans ((ext_hi _ _ _ _ rfl).trans ((ext_hi _ _ _ _ rfl).trans ((ext_lo _ _ _ _ rfl).trans (ext_all _))))
  have f2 : wd.extractLsb' 17 7 = d := by rw [← hx]; exact (ext_hi _ _ _ _ rfl).trans ((ext_hi _ _ _ _ rfl).trans ((ext_lo _ _ _ _ rfl).trans (ext_all _)))
  have f3 : wd.extractLsb' 10 7 = a := by rw [← hx]; exact (ext_hi _ _ _ _ rfl).trans ((ext_lo _ _ _ _ rfl).trans (ext_all _))
  have f4 : wd.extractLsb' 0 10 = 0x0#10 := by rw [← hx]; exact (ext_lo _ _ _ _ rfl).trans (ext_all _)
  refine decode_row f1 rfl ?_
  exact firstRow_hit (by simp only [rowScanAdd, Sys2Proof.sw, f0, f2, f3, f4, reduceIte])

theorem RoundTrip.scanAddEx (sw : Bool) (d : BitVec 7) (a : BitVec 7) :
    RoundTrip.Statement (.scanAddEx sw d a) := by
  intro _ wd hx
  simp only [Instr.encode, Option.some.injEq] at hx
  have f0 : wd.getLsbD 31 = sw := by rw [← hx]; exact (bit_hi _ _ _ rfl).trans ((bit_hi _ _ _ rfl).trans ((bit_hi _ _ _ rfl).trans ((bit_hi _ _ _ rfl).trans (bit_one _))))
  have f1 : wd.extractLsb' 24 7 = 0x3C#7 := by rw [← hx]; exact (ext_hi _ _ _ _ rfl).trans ((ext_hi _ _ _ _ rfl).trans ((ext_hi _ _ _ _ rfl).trans ((ext_lo _ _ _ _ rfl).trans (ext_all _))))
  have f2 : wd.extractLsb' 17 7 = d := by rw [← hx]; exact (ext_hi _ _ _ _ rfl).trans ((ext_hi _ _ _ _ rfl).trans ((ext_lo _ _ _ _ rfl).trans (ext_all _)))
  have f3 : wd.extractLsb' 10 7 = a := by rw [← hx]; exact (ext_hi _ _ _ _ rfl).trans ((ext_lo _ _ _ _ rfl).trans (ext_all _))
  have f4 : wd.extractLsb' 0 10 = 0x1#10 := by rw [← hx]; exact (ext_lo _ _ _ _ rfl).trans (ext_all _)
  refine decode_row f1 rfl ?_
  refine firstRow_skip (if_neg fun hc => absurd (f4.symm.trans hc) (by decide)) ?_
  exact firstRow_hit (by simp only [rowScanAddEx, Sys2Proof.sw, f0, f2, f3, f4, reduceIte])

theorem RoundTrip.scanMin (sw : Bool) (d : BitVec 7) (a : BitVec 7) :
    RoundTrip.Statement (.scanMin sw d a) := by
  intro _ wd hx
  simp only [Instr.encode, Option.some.injEq] at hx
  have f0 : wd.getLsbD 31 = sw := by rw [← hx]; exact (bit_hi _ _ _ rfl).trans ((bit_hi _ _ _ rfl).trans ((bit_hi _ _ _ rfl).trans ((bit_hi _ _ _ rfl).trans (bit_one _))))
  have f1 : wd.extractLsb' 24 7 = 0x3C#7 := by rw [← hx]; exact (ext_hi _ _ _ _ rfl).trans ((ext_hi _ _ _ _ rfl).trans ((ext_hi _ _ _ _ rfl).trans ((ext_lo _ _ _ _ rfl).trans (ext_all _))))
  have f2 : wd.extractLsb' 17 7 = d := by rw [← hx]; exact (ext_hi _ _ _ _ rfl).trans ((ext_hi _ _ _ _ rfl).trans ((ext_lo _ _ _ _ rfl).trans (ext_all _)))
  have f3 : wd.extractLsb' 10 7 = a := by rw [← hx]; exact (ext_hi _ _ _ _ rfl).trans ((ext_lo _ _ _ _ rfl).trans (ext_all _))
  have f4 : wd.extractLsb' 0 10 = 0x2#10 := by rw [← hx]; exact (ext_lo _ _ _ _ rfl).trans (ext_all _)
  refine decode_row f1 rfl ?_
  refine firstRow_skip (if_neg fun hc => absurd (f4.symm.trans hc) (by decide)) ?_
  refine firstRow_skip (if_neg fun hc => absurd (f4.symm.trans hc) (by decide)) ?_
  exact firstRow_hit (by simp only [rowScanMin, Sys2Proof.sw, f0, f2, f3, f4, reduceIte])

theorem RoundTrip.scanMax (sw : Bool) (d : BitVec 7) (a : BitVec 7) :
    RoundTrip.Statement (.scanMax sw d a) := by
  intro _ wd hx
  simp only [Instr.encode, Option.some.injEq] at hx
  have f0 : wd.getLsbD 31 = sw := by rw [← hx]; exact (bit_hi _ _ _ rfl).trans ((bit_hi _ _ _ rfl).trans ((bit_hi _ _ _ rfl).trans ((bit_hi _ _ _ rfl).trans (bit_one _))))
  have f1 : wd.extractLsb' 24 7 = 0x3C#7 := by rw [← hx]; exact (ext_hi _ _ _ _ rfl).trans ((ext_hi _ _ _ _ rfl).trans ((ext_hi _ _ _ _ rfl).trans ((ext_lo _ _ _ _ rfl).trans (ext_all _))))
  have f2 : wd.extractLsb' 17 7 = d := by rw [← hx]; exact (ext_hi _ _ _ _ rfl).trans ((ext_hi _ _ _ _ rfl).trans ((ext_lo _ _ _ _ rfl).trans (ext_all _)))
  have f3 : wd.extractLsb' 10 7 = a := by rw [← hx]; exact (ext_hi _ _ _ _ rfl).trans ((ext_lo _ _ _ _ rfl).trans (ext_all _))
  have f4 : wd.extractLsb' 0 10 = 0x3#10 := by rw [← hx]; exact (ext_lo _ _ _ _ rfl).trans (ext_all _)
  refine decode_row f1 rfl ?_
  refine firstRow_skip (if_neg fun hc => absurd (f4.symm.trans hc) (by decide)) ?_
  refine firstRow_skip (if_neg fun hc => absurd (f4.symm.trans hc) (by decide)) ?_
  refine firstRow_skip (if_neg fun hc => absurd (f4.symm.trans hc) (by decide)) ?_
  exact firstRow_hit (by simp only [rowScanMax, Sys2Proof.sw, f0, f2, f3, f4, reduceIte])

theorem RoundTrip.lmask (sw : Bool) (d : BitVec 7) :
    RoundTrip.Statement (.lmask sw d) := by
  intro _ wd hx
  simp only [Instr.encode, Option.some.injEq] at hx
  have f0 : wd.getLsbD 31 = sw := by rw [← hx]; exact (bit_hi _ _ _ rfl).trans ((bit_hi _ _ _ rfl).trans ((bit_hi _ _ _ rfl).trans (bit_one _)))
  have f1 : wd.extractLsb' 24 7 = 0x3D#7 := by rw [← hx]; exact (ext_hi _ _ _ _ rfl).trans ((ext_hi _ _ _ _ rfl).trans ((ext_lo _ _ _ _ rfl).trans (ext_all _)))
  have f2 : wd.extractLsb' 17 7 = d := by rw [← hx]; exact (ext_hi _ _ _ _ rfl).trans ((ext_lo _ _ _ _ rfl).trans (ext_all _))
  have f3 : wd.extractLsb' 0 17 = 0x0#17 := by rw [← hx]; exact (ext_lo _ _ _ _ rfl).trans (ext_all _)
  refine decode_row f1 rfl ?_
  exact firstRow_hit (by simp only [rowLmask, Sys2Proof.sw, f0, f2, f3, reduceIte])

theorem RoundTrip.bra (sw : Bool) (p : BitVec 3) (n : Bool) (o : BitVec 20) :
    RoundTrip.Statement (.bra sw p n o) := by
  intro _ wd hx
  simp only [Instr.encode, Option.some.injEq] at hx
  have f0 : wd.getLsbD 31 = sw := by rw [← hx]; exact (bit_hi _ _ _ rfl).trans ((bit_hi _ _ _ rfl).trans ((bit_hi _ _ _ rfl).trans ((bit_hi _ _ _ rfl).trans (bit_one _))))
  have f1 : wd.extractLsb' 24 7 = 0x40#7 := by rw [← hx]; exact (ext_hi _ _ _ _ rfl).trans ((ext_hi _ _ _ _ rfl).trans ((ext_hi _ _ _ _ rfl).trans ((ext_lo _ _ _ _ rfl).trans (ext_all _))))
  have f2 : wd.extractLsb' 21 3 = p := by rw [← hx]; exact (ext_hi _ _ _ _ rfl).trans ((ext_hi _ _ _ _ rfl).trans ((ext_lo _ _ _ _ rfl).trans (ext_all _)))
  have f3 : wd.getLsbD 20 = n := by rw [← hx]; exact (bit_hi _ _ _ rfl).trans ((bit_lo _ _ _ rfl).trans (bit_one _))
  have f4 : wd.extractLsb' 0 20 = o := by rw [← hx]; exact (ext_lo _ _ _ _ rfl).trans (ext_all _)
  refine decode_row f1 rfl ?_
  exact firstRow_hit (by simp only [rowBra, Sys2Proof.sw, f0, f2, f3, f4])

theorem RoundTrip.brcAny (sw : Bool) (p : BitVec 3) (n : Bool) (o : BitVec 20) :
    RoundTrip.Statement (.brcAny sw p n o) := by
  intro _ wd hx
  simp only [Instr.encode, Option.some.injEq] at hx
  have f0 : wd.getLsbD 31 = sw := by rw [← hx]; exact (bit_hi _ _ _ rfl).trans ((bit_hi _ _ _ rfl).trans ((bit_hi _ _ _ rfl).trans ((bit_hi _ _ _ rfl).trans (bit_one _))))
  have f1 : wd.extractLsb' 24 7 = 0x41#7 := by rw [← hx]; exact (ext_hi _ _ _ _ rfl).trans ((ext_hi _ _ _ _ rfl).trans ((ext_hi _ _ _ _ rfl).trans ((ext_lo _ _ _ _ rfl).trans (ext_all _))))
  have f2 : wd.extractLsb' 21 3 = p := by rw [← hx]; exact (ext_hi _ _ _ _ rfl).trans ((ext_hi _ _ _ _ rfl).trans ((ext_lo _ _ _ _ rfl).trans (ext_all _)))
  have f3 : wd.getLsbD 20 = n := by rw [← hx]; exact (bit_hi _ _ _ rfl).trans ((bit_lo _ _ _ rfl).trans (bit_one _))
  have f4 : wd.extractLsb' 0 20 = o := by rw [← hx]; exact (ext_lo _ _ _ _ rfl).trans (ext_all _)
  refine decode_row f1 rfl ?_
  exact firstRow_hit (by simp only [rowBrcAny, Sys2Proof.sw, f0, f2, f3, f4])

theorem RoundTrip.brcAll (sw : Bool) (p : BitVec 3) (n : Bool) (o : BitVec 20) :
    RoundTrip.Statement (.brcAll sw p n o) := by
  intro _ wd hx
  simp only [Instr.encode, Option.some.injEq] at hx
  have f0 : wd.getLsbD 31 = sw := by rw [← hx]; exact (bit_hi _ _ _ rfl).trans ((bit_hi _ _ _ rfl).trans ((bit_hi _ _ _ rfl).trans ((bit_hi _ _ _ rfl).trans (bit_one _))))
  have f1 : wd.extractLsb' 24 7 = 0x42#7 := by rw [← hx]; exact (ext_hi _ _ _ _ rfl).trans ((ext_hi _ _ _ _ rfl).trans ((ext_hi _ _ _ _ rfl).trans ((ext_lo _ _ _ _ rfl).trans (ext_all _))))
  have f2 : wd.extractLsb' 21 3 = p := by rw [← hx]; exact (ext_hi _ _ _ _ rfl).trans ((ext_hi _ _ _ _ rfl).trans ((ext_lo _ _ _ _ rfl).trans (ext_all _)))
  have f3 : wd.getLsbD 20 = n := by rw [← hx]; exact (bit_hi _ _ _ rfl).trans ((bit_lo _ _ _ rfl).trans (bit_one _))
  have f4 : wd.extractLsb' 0 20 = o := by rw [← hx]; exact (ext_lo _ _ _ _ rfl).trans (ext_all _)
  refine decode_row f1 rfl ?_
  exact firstRow_hit (by simp only [rowBrcAll, Sys2Proof.sw, f0, f2, f3, f4])

theorem RoundTrip.call (sw : Bool) (p : BitVec 3) (n : Bool) (o : BitVec 20) :
    RoundTrip.Statement (.call sw p n o) := by
  intro _ wd hx
  simp only [Instr.encode, Option.some.injEq] at hx
  have f0 : wd.getLsbD 31 = sw := by rw [← hx]; exact (bit_hi _ _ _ rfl).trans ((bit_hi _ _ _ rfl).trans ((bit_hi _ _ _ rfl).trans ((bit_hi _ _ _ rfl).trans (bit_one _))))
  have f1 : wd.extractLsb' 24 7 = 0x43#7 := by rw [← hx]; exact (ext_hi _ _ _ _ rfl).trans ((ext_hi _ _ _ _ rfl).trans ((ext_hi _ _ _ _ rfl).trans ((ext_lo _ _ _ _ rfl).trans (ext_all _))))
  have f2 : wd.extractLsb' 21 3 = p := by rw [← hx]; exact (ext_hi _ _ _ _ rfl).trans ((ext_hi _ _ _ _ rfl).trans ((ext_lo _ _ _ _ rfl).trans (ext_all _)))
  have f3 : wd.getLsbD 20 = n := by rw [← hx]; exact (bit_hi _ _ _ rfl).trans ((bit_lo _ _ _ rfl).trans (bit_one _))
  have f4 : wd.extractLsb' 0 20 = o := by rw [← hx]; exact (ext_lo _ _ _ _ rfl).trans (ext_all _)
  refine decode_row f1 rfl ?_
  exact firstRow_hit (by simp only [rowCall, Sys2Proof.sw, f0, f2, f3, f4])

theorem RoundTrip.ret (sw : Bool) (a : BitVec 7) :
    RoundTrip.Statement (.ret sw a) := by
  intro _ wd hx
  simp only [Instr.encode, Option.some.injEq] at hx
  have f0 : wd.getLsbD 31 = sw := by rw [← hx]; exact (bit_hi _ _ _ rfl).trans ((bit_hi _ _ _ rfl).trans ((bit_hi _ _ _ rfl).trans ((bit_hi _ _ _ rfl).trans (bit_one _))))
  have f1 : wd.extractLsb' 24 7 = 0x44#7 := by rw [← hx]; exact (ext_hi _ _ _ _ rfl).trans ((ext_hi _ _ _ _ rfl).trans ((ext_hi _ _ _ _ rfl).trans ((ext_lo _ _ _ _ rfl).trans (ext_all _))))
  have f2 : wd.extractLsb' 17 7 = 0x0#7 := by rw [← hx]; exact (ext_hi _ _ _ _ rfl).trans ((ext_hi _ _ _ _ rfl).trans ((ext_lo _ _ _ _ rfl).trans (ext_all _)))
  have f3 : wd.extractLsb' 10 7 = a := by rw [← hx]; exact (ext_hi _ _ _ _ rfl).trans ((ext_lo _ _ _ _ rfl).trans (ext_all _))
  have f4 : wd.extractLsb' 0 10 = 0x0#10 := by rw [← hx]; exact (ext_lo _ _ _ _ rfl).trans (ext_all _)
  refine decode_row f1 rfl ?_
  exact firstRow_hit (by simp only [rowRet, Sys2Proof.sw, f0, f2, f3, f4, and_self, reduceIte])

theorem RoundTrip.jmpv (sw : Bool) (a : BitVec 7) :
    RoundTrip.Statement (.jmpv sw a) := by
  intro _ wd hx
  simp only [Instr.encode, Option.some.injEq] at hx
  have f0 : wd.getLsbD 31 = sw := by rw [← hx]; exact (bit_hi _ _ _ rfl).trans ((bit_hi _ _ _ rfl).trans ((bit_hi _ _ _ rfl).trans ((bit_hi _ _ _ rfl).trans (bit_one _))))
  have f1 : wd.extractLsb' 24 7 = 0x44#7 := by rw [← hx]; exact (ext_hi _ _ _ _ rfl).trans ((ext_hi _ _ _ _ rfl).trans ((ext_hi _ _ _ _ rfl).trans ((ext_lo _ _ _ _ rfl).trans (ext_all _))))
  have f2 : wd.extractLsb' 17 7 = 0x0#7 := by rw [← hx]; exact (ext_hi _ _ _ _ rfl).trans ((ext_hi _ _ _ _ rfl).trans ((ext_lo _ _ _ _ rfl).trans (ext_all _)))
  have f3 : wd.extractLsb' 10 7 = a := by rw [← hx]; exact (ext_hi _ _ _ _ rfl).trans ((ext_lo _ _ _ _ rfl).trans (ext_all _))
  have f4 : wd.extractLsb' 0 10 = 0x1#10 := by rw [← hx]; exact (ext_lo _ _ _ _ rfl).trans (ext_all _)
  refine decode_row f1 rfl ?_
  refine firstRow_skip (if_neg fun hc => absurd (f4.symm.trans hc.2) (by decide)) ?_
  exact firstRow_hit (by simp only [rowJmpv, Sys2Proof.sw, f0, f2, f3, f4, and_self, reduceIte])

theorem RoundTrip.wbase (sw : Bool) (k : BitVec 17) :
    RoundTrip.Statement (.wbase sw k) := by
  intro _ wd hx
  simp only [Instr.encode, Option.some.injEq] at hx
  have f0 : wd.getLsbD 31 = sw := by rw [← hx]; exact (bit_hi _ _ _ rfl).trans ((bit_hi _ _ _ rfl).trans ((bit_hi _ _ _ rfl).trans (bit_one _)))
  have f1 : wd.extractLsb' 24 7 = 0x45#7 := by rw [← hx]; exact (ext_hi _ _ _ _ rfl).trans ((ext_hi _ _ _ _ rfl).trans ((ext_lo _ _ _ _ rfl).trans (ext_all _)))
  have f2 : wd.extractLsb' 17 7 = 0x0#7 := by rw [← hx]; exact (ext_hi _ _ _ _ rfl).trans ((ext_lo _ _ _ _ rfl).trans (ext_all _))
  have f3 : wd.extractLsb' 0 17 = k := by rw [← hx]; exact (ext_lo _ _ _ _ rfl).trans (ext_all _)
  refine decode_row f1 rfl ?_
  exact firstRow_hit (by simp only [rowWbase, Sys2Proof.sw, f0, f2, f3, reduceIte])

theorem RoundTrip.nop (sw : Bool) :
    RoundTrip.Statement (.nop sw) := by
  intro _ wd hx
  simp only [Instr.encode, Option.some.injEq] at hx
  have f0 : wd.getLsbD 31 = sw := by rw [← hx]; exact (bit_hi _ _ _ rfl).trans ((bit_hi _ _ _ rfl).trans (bit_one _))
  have f1 : wd.extractLsb' 24 7 = 0x46#7 := by rw [← hx]; exact (ext_hi _ _ _ _ rfl).trans ((ext_lo _ _ _ _ rfl).trans (ext_all _))
  have f2 : wd.extractLsb' 0 24 = 0x0#24 := by rw [← hx]; exact (ext_lo _ _ _ _ rfl).trans (ext_all _)
  refine decode_row f1 rfl ?_
  exact firstRow_hit (by simp only [rowNop, Sys2Proof.sw, f0, f2, reduceIte])

theorem RoundTrip.yield (sw : Bool) :
    RoundTrip.Statement (.yield sw) := by
  intro _ wd hx
  simp only [Instr.encode, Option.some.injEq] at hx
  have f0 : wd.getLsbD 31 = sw := by rw [← hx]; exact (bit_hi _ _ _ rfl).trans ((bit_hi _ _ _ rfl).trans (bit_one _))
  have f1 : wd.extractLsb' 24 7 = 0x46#7 := by rw [← hx]; exact (ext_hi _ _ _ _ rfl).trans ((ext_lo _ _ _ _ rfl).trans (ext_all _))
  have f2 : wd.extractLsb' 0 24 = 0x1#24 := by rw [← hx]; exact (ext_lo _ _ _ _ rfl).trans (ext_all _)
  refine decode_row f1 rfl ?_
  refine firstRow_skip (if_neg fun hc => absurd (f2.symm.trans hc) (by decide)) ?_
  exact firstRow_hit (by simp only [rowYield, Sys2Proof.sw, f0, f2, reduceIte])

theorem RoundTrip.exitT (sw : Bool) :
    RoundTrip.Statement (.exitT sw) := by
  intro _ wd hx
  simp only [Instr.encode, Option.some.injEq] at hx
  have f0 : wd.getLsbD 31 = sw := by rw [← hx]; exact (bit_hi _ _ _ rfl).trans ((bit_hi _ _ _ rfl).trans (bit_one _))
  have f1 : wd.extractLsb' 24 7 = 0x46#7 := by rw [← hx]; exact (ext_hi _ _ _ _ rfl).trans ((ext_lo _ _ _ _ rfl).trans (ext_all _))
  have f2 : wd.extractLsb' 0 24 = 0x2#24 := by rw [← hx]; exact (ext_lo _ _ _ _ rfl).trans (ext_all _)
  refine decode_row f1 rfl ?_
  refine firstRow_skip (if_neg fun hc => absurd (f2.symm.trans hc) (by decide)) ?_
  refine firstRow_skip (if_neg fun hc => absurd (f2.symm.trans hc) (by decide)) ?_
  exact firstRow_hit (by simp only [rowExitT, Sys2Proof.sw, f0, f2, reduceIte])

theorem RoundTrip.ld (sw : Bool) (d : BitVec 7) (a : BitVec 7) (i : BitVec 7) (q : LdQ) :
    RoundTrip.Statement (.ld sw d a i q) := by
  intro _ wd hx
  simp only [Instr.encode, Option.some.injEq] at hx
  have f0 : wd.getLsbD 31 = sw := by rw [← hx]; exact (bit_hi _ _ _ rfl).trans ((bit_hi _ _ _ rfl).trans ((bit_hi _ _ _ rfl).trans ((bit_hi _ _ _ rfl).trans ((bit_hi _ _ _ rfl).trans (bit_one _)))))
  have f1 : wd.extractLsb' 24 7 = 0x48#7 := by rw [← hx]; exact (ext_hi _ _ _ _ rfl).trans ((ext_hi _ _ _ _ rfl).trans ((ext_hi _ _ _ _ rfl).trans ((ext_hi _ _ _ _ rfl).trans ((ext_lo _ _ _ _ rfl).trans (ext_all _)))))
  have f2 : wd.extractLsb' 17 7 = d := by rw [← hx]; exact (ext_hi _ _ _ _ rfl).trans ((ext_hi _ _ _ _ rfl).trans ((ext_hi _ _ _ _ rfl).trans ((ext_lo _ _ _ _ rfl).trans (ext_all _))))
  have f3 : wd.extractLsb' 10 7 = a := by rw [← hx]; exact (ext_hi _ _ _ _ rfl).trans ((ext_hi _ _ _ _ rfl).trans ((ext_lo _ _ _ _ rfl).trans (ext_all _)))
  have f4 : wd.extractLsb' 3 7 = i := by rw [← hx]; exact (ext_hi _ _ _ _ rfl).trans ((ext_lo _ _ _ _ rfl).trans (ext_all _))
  have f5 : wd.extractLsb' 0 3 = q.code := by rw [← hx]; exact (ext_lo _ _ _ _ rfl).trans (ext_all _)
  refine decode_row f1 rfl ?_
  exact firstRow_hit (by simp only [rowLd, Sys2Proof.sw, f0, f2, f3, f4, f5, LdQ_ofCode_code, Option.bind_some])

theorem RoundTrip.st (sw : Bool) (d : BitVec 7) (a : BitVec 7) (i : BitVec 7) (q : StQ) :
    RoundTrip.Statement (.st sw d a i q) := by
  intro _ wd hx
  simp only [Instr.encode, Option.some.injEq] at hx
  have f0 : wd.getLsbD 31 = sw := by rw [← hx]; exact (bit_hi _ _ _ rfl).trans ((bit_hi _ _ _ rfl).trans ((bit_hi _ _ _ rfl).trans ((bit_hi _ _ _ rfl).trans ((bit_hi _ _ _ rfl).trans (bit_one _)))))
  have f1 : wd.extractLsb' 24 7 = 0x49#7 := by rw [← hx]; exact (ext_hi _ _ _ _ rfl).trans ((ext_hi _ _ _ _ rfl).trans ((ext_hi _ _ _ _ rfl).trans ((ext_hi _ _ _ _ rfl).trans ((ext_lo _ _ _ _ rfl).trans (ext_all _)))))
  have f2 : wd.extractLsb' 17 7 = d := by rw [← hx]; exact (ext_hi _ _ _ _ rfl).trans ((ext_hi _ _ _ _ rfl).trans ((ext_hi _ _ _ _ rfl).trans ((ext_lo _ _ _ _ rfl).trans (ext_all _))))
  have f3 : wd.extractLsb' 10 7 = a := by rw [← hx]; exact (ext_hi _ _ _ _ rfl).trans ((ext_hi _ _ _ _ rfl).trans ((ext_lo _ _ _ _ rfl).trans (ext_all _)))
  have f4 : wd.extractLsb' 3 7 = i := by rw [← hx]; exact (ext_hi _ _ _ _ rfl).trans ((ext_lo _ _ _ _ rfl).trans (ext_all _))
  have f5 : wd.extractLsb' 0 3 = q.code := by rw [← hx]; exact (ext_lo _ _ _ _ rfl).trans (ext_all _)
  refine decode_row f1 rfl ?_
  exact firstRow_hit (by simp only [rowSt, Sys2Proof.sw, f0, f2, f3, f4, f5, StQ_ofCode_code, Option.bind_some])

theorem RoundTrip.lds (sw : Bool) (d : BitVec 7) (a : BitVec 7) (i : BitVec 7) (q : LdQ) :
    RoundTrip.Statement (.lds sw d a i q) := by
  intro _ wd hx
  simp only [Instr.encode, Option.some.injEq] at hx
  have f0 : wd.getLsbD 31 = sw := by rw [← hx]; exact (bit_hi _ _ _ rfl).trans ((bit_hi _ _ _ rfl).trans ((bit_hi _ _ _ rfl).trans ((bit_hi _ _ _ rfl).trans ((bit_hi _ _ _ rfl).trans (bit_one _)))))
  have f1 : wd.extractLsb' 24 7 = 0x4A#7 := by rw [← hx]; exact (ext_hi _ _ _ _ rfl).trans ((ext_hi _ _ _ _ rfl).trans ((ext_hi _ _ _ _ rfl).trans ((ext_hi _ _ _ _ rfl).trans ((ext_lo _ _ _ _ rfl).trans (ext_all _)))))
  have f2 : wd.extractLsb' 17 7 = d := by rw [← hx]; exact (ext_hi _ _ _ _ rfl).trans ((ext_hi _ _ _ _ rfl).trans ((ext_hi _ _ _ _ rfl).trans ((ext_lo _ _ _ _ rfl).trans (ext_all _))))
  have f3 : wd.extractLsb' 10 7 = a := by rw [← hx]; exact (ext_hi _ _ _ _ rfl).trans ((ext_hi _ _ _ _ rfl).trans ((ext_lo _ _ _ _ rfl).trans (ext_all _)))
  have f4 : wd.extractLsb' 3 7 = i := by rw [← hx]; exact (ext_hi _ _ _ _ rfl).trans ((ext_lo _ _ _ _ rfl).trans (ext_all _))
  have f5 : wd.extractLsb' 0 3 = q.code := by rw [← hx]; exact (ext_lo _ _ _ _ rfl).trans (ext_all _)
  refine decode_row f1 rfl ?_
  exact firstRow_hit (by simp only [rowLds, Sys2Proof.sw, f0, f2, f3, f4, f5, LdQ_ofCode_code, Option.bind_some])

theorem RoundTrip.sts (sw : Bool) (d : BitVec 7) (a : BitVec 7) (i : BitVec 7) (q : StQ) :
    RoundTrip.Statement (.sts sw d a i q) := by
  intro _ wd hx
  simp only [Instr.encode, Option.some.injEq] at hx
  have f0 : wd.getLsbD 31 = sw := by rw [← hx]; exact (bit_hi _ _ _ rfl).trans ((bit_hi _ _ _ rfl).trans ((bit_hi _ _ _ rfl).trans ((bit_hi _ _ _ rfl).trans ((bit_hi _ _ _ rfl).trans (bit_one _)))))
  have f1 : wd.extractLsb' 24 7 = 0x4B#7 := by rw [← hx]; exact (ext_hi _ _ _ _ rfl).trans ((ext_hi _ _ _ _ rfl).trans ((ext_hi _ _ _ _ rfl).trans ((ext_hi _ _ _ _ rfl).trans ((ext_lo _ _ _ _ rfl).trans (ext_all _)))))
  have f2 : wd.extractLsb' 17 7 = d := by rw [← hx]; exact (ext_hi _ _ _ _ rfl).trans ((ext_hi _ _ _ _ rfl).trans ((ext_hi _ _ _ _ rfl).trans ((ext_lo _ _ _ _ rfl).trans (ext_all _))))
  have f3 : wd.extractLsb' 10 7 = a := by rw [← hx]; exact (ext_hi _ _ _ _ rfl).trans ((ext_hi _ _ _ _ rfl).trans ((ext_lo _ _ _ _ rfl).trans (ext_all _)))
  have f4 : wd.extractLsb' 3 7 = i := by rw [← hx]; exact (ext_hi _ _ _ _ rfl).trans ((ext_lo _ _ _ _ rfl).trans (ext_all _))
  have f5 : wd.extractLsb' 0 3 = q.code := by rw [← hx]; exact (ext_lo _ _ _ _ rfl).trans (ext_all _)
  refine decode_row f1 rfl ?_
  exact firstRow_hit (by simp only [rowSts, Sys2Proof.sw, f0, f2, f3, f4, f5, StQ_ofCode_code, Option.bind_some])

theorem RoundTrip.ldaq (sw : Bool) (d : BitVec 7) (a : BitVec 7) (z : AccSize) (f : BitVec 3) :
    RoundTrip.Statement (.ldaq sw d a z f) := by
  intro _ wd hx
  simp only [Instr.encode, Option.some.injEq] at hx
  have f0 : wd.getLsbD 31 = sw := by rw [← hx]; exact (bit_hi _ _ _ rfl).trans ((bit_hi _ _ _ rfl).trans ((bit_hi _ _ _ rfl).trans ((bit_hi _ _ _ rfl).trans ((bit_hi _ _ _ rfl).trans ((bit_hi _ _ _ rfl).trans (bit_one _))))))
  have f1 : wd.extractLsb' 24 7 = 0x4C#7 := by rw [← hx]; exact (ext_hi _ _ _ _ rfl).trans ((ext_hi _ _ _ _ rfl).trans ((ext_hi _ _ _ _ rfl).trans ((ext_hi _ _ _ _ rfl).trans ((ext_hi _ _ _ _ rfl).trans ((ext_lo _ _ _ _ rfl).trans (ext_all _))))))
  have f2 : wd.extractLsb' 17 7 = d := by rw [← hx]; exact (ext_hi _ _ _ _ rfl).trans ((ext_hi _ _ _ _ rfl).trans ((ext_hi _ _ _ _ rfl).trans ((ext_hi _ _ _ _ rfl).trans ((ext_lo _ _ _ _ rfl).trans (ext_all _)))))
  have f3 : wd.extractLsb' 10 7 = a := by rw [← hx]; exact (ext_hi _ _ _ _ rfl).trans ((ext_hi _ _ _ _ rfl).trans ((ext_hi _ _ _ _ rfl).trans ((ext_lo _ _ _ _ rfl).trans (ext_all _))))
  have f4 : wd.extractLsb' 5 5 = 0x0#5 := by rw [← hx]; exact (ext_hi _ _ _ _ rfl).trans ((ext_hi _ _ _ _ rfl).trans ((ext_lo _ _ _ _ rfl).trans (ext_all _)))
  have f5 : wd.extractLsb' 3 2 = z.code := by rw [← hx]; exact (ext_hi _ _ _ _ rfl).trans ((ext_lo _ _ _ _ rfl).trans (ext_all _))
  have f6 : wd.extractLsb' 0 3 = f := by rw [← hx]; exact (ext_lo _ _ _ _ rfl).trans (ext_all _)
  refine decode_row f1 rfl ?_
  exact firstRow_hit (by simp only [rowLdaq, Sys2Proof.sw, f0, f2, f3, f4, f5, f6, AccSize_ofCode_code, Option.bind_some, reduceIte])

theorem RoundTrip.strl (sw : Bool) (z : AccSize) (a : BitVec 7) (b : BitVec 7) (f : BitVec 3) :
    RoundTrip.Statement (.strl sw z a b f) := by
  intro _ wd hx
  simp only [Instr.encode, Option.some.injEq] at hx
  have f0 : wd.getLsbD 31 = sw := by rw [← hx]; exact (bit_hi _ _ _ rfl).trans ((bit_hi _ _ _ rfl).trans ((bit_hi _ _ _ rfl).trans ((bit_hi _ _ _ rfl).trans ((bit_hi _ _ _ rfl).trans ((bit_hi _ _ _ rfl).trans (bit_one _))))))
  have f1 : wd.extractLsb' 24 7 = 0x4D#7 := by rw [← hx]; exact (ext_hi _ _ _ _ rfl).trans ((ext_hi _ _ _ _ rfl).trans ((ext_hi _ _ _ _ rfl).trans ((ext_hi _ _ _ _ rfl).trans ((ext_hi _ _ _ _ rfl).trans ((ext_lo _ _ _ _ rfl).trans (ext_all _))))))
  have f2 : wd.extractLsb' 19 5 = 0x0#5 := by rw [← hx]; exact (ext_hi _ _ _ _ rfl).trans ((ext_hi _ _ _ _ rfl).trans ((ext_hi _ _ _ _ rfl).trans ((ext_hi _ _ _ _ rfl).trans ((ext_lo _ _ _ _ rfl).trans (ext_all _)))))
  have f3 : wd.extractLsb' 17 2 = z.code := by rw [← hx]; exact (ext_hi _ _ _ _ rfl).trans ((ext_hi _ _ _ _ rfl).trans ((ext_hi _ _ _ _ rfl).trans ((ext_lo _ _ _ _ rfl).trans (ext_all _))))
  have f4 : wd.extractLsb' 10 7 = a := by rw [← hx]; exact (ext_hi _ _ _ _ rfl).trans ((ext_hi _ _ _ _ rfl).trans ((ext_lo _ _ _ _ rfl).trans (ext_all _)))
  have f5 : wd.extractLsb' 3 7 = b := by rw [← hx]; exact (ext_hi _ _ _ _ rfl).trans ((ext_lo _ _ _ _ rfl).trans (ext_all _))
  have f6 : wd.extractLsb' 0 3 = f := by rw [← hx]; exact (ext_lo _ _ _ _ rfl).trans (ext_all _)
  refine decode_row f1 rfl ?_
  exact firstRow_hit (by simp only [rowStrl, Sys2Proof.sw, f0, f2, f3, f4, f5, f6, AccSize_ofCode_code, Option.bind_some, reduceIte])

theorem RoundTrip.atomAdd (sw : Bool) (o : Ord) (d : BitVec 5) (t : AtomTy) (a : BitVec 5) (b : BitVec 5) (f : BitVec 3) :
    RoundTrip.Statement (.atomAdd sw o d t a b f) := by
  intro _ wd hx
  simp only [Instr.encode, Option.some.injEq] at hx
  have f0 : wd.getLsbD 31 = sw := by rw [← hx]; exact (bit_hi _ _ _ rfl).trans ((bit_hi _ _ _ rfl).trans ((bit_hi _ _ _ rfl).trans ((bit_hi _ _ _ rfl).trans ((bit_hi _ _ _ rfl).trans ((bit_hi _ _ _ rfl).trans ((bit_hi _ _ _ rfl).trans ((bit_hi _ _ _ rfl).trans (bit_one _))))))))
  have f1 : wd.extractLsb' 24 7 = 0x4E#7 := by rw [← hx]; exact (ext_hi _ _ _ _ rfl).trans ((ext_hi _ _ _ _ rfl).trans ((ext_hi _ _ _ _ rfl).trans ((ext_hi _ _ _ _ rfl).trans ((ext_hi _ _ _ _ rfl).trans ((ext_hi _ _ _ _ rfl).trans ((ext_hi _ _ _ _ rfl).trans ((ext_lo _ _ _ _ rfl).trans (ext_all _))))))))
  have f2 : wd.extractLsb' 22 2 = o.code := by rw [← hx]; exact (ext_hi _ _ _ _ rfl).trans ((ext_hi _ _ _ _ rfl).trans ((ext_hi _ _ _ _ rfl).trans ((ext_hi _ _ _ _ rfl).trans ((ext_hi _ _ _ _ rfl).trans ((ext_hi _ _ _ _ rfl).trans ((ext_lo _ _ _ _ rfl).trans (ext_all _)))))))
  have f3 : wd.extractLsb' 17 5 = d := by rw [← hx]; exact (ext_hi _ _ _ _ rfl).trans ((ext_hi _ _ _ _ rfl).trans ((ext_hi _ _ _ _ rfl).trans ((ext_hi _ _ _ _ rfl).trans ((ext_hi _ _ _ _ rfl).trans ((ext_lo _ _ _ _ rfl).trans (ext_all _))))))
  have f4 : wd.extractLsb' 15 2 = t.code := by rw [← hx]; exact (ext_hi _ _ _ _ rfl).trans ((ext_hi _ _ _ _ rfl).trans ((ext_hi _ _ _ _ rfl).trans ((ext_hi _ _ _ _ rfl).trans ((ext_lo _ _ _ _ rfl).trans (ext_all _)))))
  have f5 : wd.extractLsb' 10 5 = a := by rw [← hx]; exact (ext_hi _ _ _ _ rfl).trans ((ext_hi _ _ _ _ rfl).trans ((ext_hi _ _ _ _ rfl).trans ((ext_lo _ _ _ _ rfl).trans (ext_all _))))
  have f6 : wd.extractLsb' 8 2 = 0x0#2 := by rw [← hx]; exact (ext_hi _ _ _ _ rfl).trans ((ext_hi _ _ _ _ rfl).trans ((ext_lo _ _ _ _ rfl).trans (ext_all _)))
  have f7 : wd.extractLsb' 3 5 = b := by rw [← hx]; exact (ext_hi _ _ _ _ rfl).trans ((ext_lo _ _ _ _ rfl).trans (ext_all _))
  have f8 : wd.extractLsb' 0 3 = f := by rw [← hx]; exact (ext_lo _ _ _ _ rfl).trans (ext_all _)
  refine decode_row f1 rfl ?_
  exact firstRow_hit (by simp only [rowAtomAdd, Sys2Proof.sw, f0, f2, f3, f4, f5, f6, f7, f8, AtomTy_ofCode_code, Ord_ofCode_code, reduceIte])

theorem RoundTrip.atomMin (sw : Bool) (o : Ord) (d : BitVec 5) (t : AtomTy) (a : BitVec 5) (b : BitVec 5) (f : BitVec 3) :
    RoundTrip.Statement (.atomMin sw o d t a b f) := by
  intro _ wd hx
  simp only [Instr.encode, Option.some.injEq] at hx
  have f0 : wd.getLsbD 31 = sw := by rw [← hx]; exact (bit_hi _ _ _ rfl).trans ((bit_hi _ _ _ rfl).trans ((bit_hi _ _ _ rfl).trans ((bit_hi _ _ _ rfl).trans ((bit_hi _ _ _ rfl).trans ((bit_hi _ _ _ rfl).trans ((bit_hi _ _ _ rfl).trans ((bit_hi _ _ _ rfl).trans (bit_one _))))))))
  have f1 : wd.extractLsb' 24 7 = 0x4E#7 := by rw [← hx]; exact (ext_hi _ _ _ _ rfl).trans ((ext_hi _ _ _ _ rfl).trans ((ext_hi _ _ _ _ rfl).trans ((ext_hi _ _ _ _ rfl).trans ((ext_hi _ _ _ _ rfl).trans ((ext_hi _ _ _ _ rfl).trans ((ext_hi _ _ _ _ rfl).trans ((ext_lo _ _ _ _ rfl).trans (ext_all _))))))))
  have f2 : wd.extractLsb' 22 2 = o.code := by rw [← hx]; exact (ext_hi _ _ _ _ rfl).trans ((ext_hi _ _ _ _ rfl).trans ((ext_hi _ _ _ _ rfl).trans ((ext_hi _ _ _ _ rfl).trans ((ext_hi _ _ _ _ rfl).trans ((ext_hi _ _ _ _ rfl).trans ((ext_lo _ _ _ _ rfl).trans (ext_all _)))))))
  have f3 : wd.extractLsb' 17 5 = d := by rw [← hx]; exact (ext_hi _ _ _ _ rfl).trans ((ext_hi _ _ _ _ rfl).trans ((ext_hi _ _ _ _ rfl).trans ((ext_hi _ _ _ _ rfl).trans ((ext_hi _ _ _ _ rfl).trans ((ext_lo _ _ _ _ rfl).trans (ext_all _))))))
  have f4 : wd.extractLsb' 15 2 = t.code := by rw [← hx]; exact (ext_hi _ _ _ _ rfl).trans ((ext_hi _ _ _ _ rfl).trans ((ext_hi _ _ _ _ rfl).trans ((ext_hi _ _ _ _ rfl).trans ((ext_lo _ _ _ _ rfl).trans (ext_all _)))))
  have f5 : wd.extractLsb' 10 5 = a := by rw [← hx]; exact (ext_hi _ _ _ _ rfl).trans ((ext_hi _ _ _ _ rfl).trans ((ext_hi _ _ _ _ rfl).trans ((ext_lo _ _ _ _ rfl).trans (ext_all _))))
  have f6 : wd.extractLsb' 8 2 = 0x1#2 := by rw [← hx]; exact (ext_hi _ _ _ _ rfl).trans ((ext_hi _ _ _ _ rfl).trans ((ext_lo _ _ _ _ rfl).trans (ext_all _)))
  have f7 : wd.extractLsb' 3 5 = b := by rw [← hx]; exact (ext_hi _ _ _ _ rfl).trans ((ext_lo _ _ _ _ rfl).trans (ext_all _))
  have f8 : wd.extractLsb' 0 3 = f := by rw [← hx]; exact (ext_lo _ _ _ _ rfl).trans (ext_all _)
  refine decode_row f1 rfl ?_
  refine firstRow_skip (if_neg fun hc => absurd (f6.symm.trans hc) (by decide)) ?_
  exact firstRow_hit (by simp only [rowAtomMin, Sys2Proof.sw, f0, f2, f3, f4, f5, f6, f7, f8, AtomTy_ofCode_code, Ord_ofCode_code, reduceIte])

theorem RoundTrip.atomMax (sw : Bool) (o : Ord) (d : BitVec 5) (t : AtomTy) (a : BitVec 5) (b : BitVec 5) (f : BitVec 3) :
    RoundTrip.Statement (.atomMax sw o d t a b f) := by
  intro _ wd hx
  simp only [Instr.encode, Option.some.injEq] at hx
  have f0 : wd.getLsbD 31 = sw := by rw [← hx]; exact (bit_hi _ _ _ rfl).trans ((bit_hi _ _ _ rfl).trans ((bit_hi _ _ _ rfl).trans ((bit_hi _ _ _ rfl).trans ((bit_hi _ _ _ rfl).trans ((bit_hi _ _ _ rfl).trans ((bit_hi _ _ _ rfl).trans ((bit_hi _ _ _ rfl).trans (bit_one _))))))))
  have f1 : wd.extractLsb' 24 7 = 0x4E#7 := by rw [← hx]; exact (ext_hi _ _ _ _ rfl).trans ((ext_hi _ _ _ _ rfl).trans ((ext_hi _ _ _ _ rfl).trans ((ext_hi _ _ _ _ rfl).trans ((ext_hi _ _ _ _ rfl).trans ((ext_hi _ _ _ _ rfl).trans ((ext_hi _ _ _ _ rfl).trans ((ext_lo _ _ _ _ rfl).trans (ext_all _))))))))
  have f2 : wd.extractLsb' 22 2 = o.code := by rw [← hx]; exact (ext_hi _ _ _ _ rfl).trans ((ext_hi _ _ _ _ rfl).trans ((ext_hi _ _ _ _ rfl).trans ((ext_hi _ _ _ _ rfl).trans ((ext_hi _ _ _ _ rfl).trans ((ext_hi _ _ _ _ rfl).trans ((ext_lo _ _ _ _ rfl).trans (ext_all _)))))))
  have f3 : wd.extractLsb' 17 5 = d := by rw [← hx]; exact (ext_hi _ _ _ _ rfl).trans ((ext_hi _ _ _ _ rfl).trans ((ext_hi _ _ _ _ rfl).trans ((ext_hi _ _ _ _ rfl).trans ((ext_hi _ _ _ _ rfl).trans ((ext_lo _ _ _ _ rfl).trans (ext_all _))))))
  have f4 : wd.extractLsb' 15 2 = t.code := by rw [← hx]; exact (ext_hi _ _ _ _ rfl).trans ((ext_hi _ _ _ _ rfl).trans ((ext_hi _ _ _ _ rfl).trans ((ext_hi _ _ _ _ rfl).trans ((ext_lo _ _ _ _ rfl).trans (ext_all _)))))
  have f5 : wd.extractLsb' 10 5 = a := by rw [← hx]; exact (ext_hi _ _ _ _ rfl).trans ((ext_hi _ _ _ _ rfl).trans ((ext_hi _ _ _ _ rfl).trans ((ext_lo _ _ _ _ rfl).trans (ext_all _))))
  have f6 : wd.extractLsb' 8 2 = 0x2#2 := by rw [← hx]; exact (ext_hi _ _ _ _ rfl).trans ((ext_hi _ _ _ _ rfl).trans ((ext_lo _ _ _ _ rfl).trans (ext_all _)))
  have f7 : wd.extractLsb' 3 5 = b := by rw [← hx]; exact (ext_hi _ _ _ _ rfl).trans ((ext_lo _ _ _ _ rfl).trans (ext_all _))
  have f8 : wd.extractLsb' 0 3 = f := by rw [← hx]; exact (ext_lo _ _ _ _ rfl).trans (ext_all _)
  refine decode_row f1 rfl ?_
  refine firstRow_skip (if_neg fun hc => absurd (f6.symm.trans hc) (by decide)) ?_
  refine firstRow_skip (if_neg fun hc => absurd (f6.symm.trans hc) (by decide)) ?_
  exact firstRow_hit (by simp only [rowAtomMax, Sys2Proof.sw, f0, f2, f3, f4, f5, f6, f7, f8, AtomTy_ofCode_code, Ord_ofCode_code, reduceIte])

theorem RoundTrip.atomAddF32 (sw : Bool) (o : Ord) (d : BitVec 5) (a : BitVec 5) (b : BitVec 5) (f : BitVec 3) :
    RoundTrip.Statement (.atomAddF32 sw o d a b f) := by
  intro _ wd hx
  simp only [Instr.encode, Option.some.injEq] at hx
  have f0 : wd.getLsbD 31 = sw := by rw [← hx]; exact (bit_hi _ _ _ rfl).trans ((bit_hi _ _ _ rfl).trans ((bit_hi _ _ _ rfl).trans ((bit_hi _ _ _ rfl).trans ((bit_hi _ _ _ rfl).trans ((bit_hi _ _ _ rfl).trans ((bit_hi _ _ _ rfl).trans ((bit_hi _ _ _ rfl).trans (bit_one _))))))))
  have f1 : wd.extractLsb' 24 7 = 0x4E#7 := by rw [← hx]; exact (ext_hi _ _ _ _ rfl).trans ((ext_hi _ _ _ _ rfl).trans ((ext_hi _ _ _ _ rfl).trans ((ext_hi _ _ _ _ rfl).trans ((ext_hi _ _ _ _ rfl).trans ((ext_hi _ _ _ _ rfl).trans ((ext_hi _ _ _ _ rfl).trans ((ext_lo _ _ _ _ rfl).trans (ext_all _))))))))
  have f2 : wd.extractLsb' 22 2 = o.code := by rw [← hx]; exact (ext_hi _ _ _ _ rfl).trans ((ext_hi _ _ _ _ rfl).trans ((ext_hi _ _ _ _ rfl).trans ((ext_hi _ _ _ _ rfl).trans ((ext_hi _ _ _ _ rfl).trans ((ext_hi _ _ _ _ rfl).trans ((ext_lo _ _ _ _ rfl).trans (ext_all _)))))))
  have f3 : wd.extractLsb' 17 5 = d := by rw [← hx]; exact (ext_hi _ _ _ _ rfl).trans ((ext_hi _ _ _ _ rfl).trans ((ext_hi _ _ _ _ rfl).trans ((ext_hi _ _ _ _ rfl).trans ((ext_hi _ _ _ _ rfl).trans ((ext_lo _ _ _ _ rfl).trans (ext_all _))))))
  have f4 : wd.extractLsb' 15 2 = 0x0#2 := by rw [← hx]; exact (ext_hi _ _ _ _ rfl).trans ((ext_hi _ _ _ _ rfl).trans ((ext_hi _ _ _ _ rfl).trans ((ext_hi _ _ _ _ rfl).trans ((ext_lo _ _ _ _ rfl).trans (ext_all _)))))
  have f5 : wd.extractLsb' 10 5 = a := by rw [← hx]; exact (ext_hi _ _ _ _ rfl).trans ((ext_hi _ _ _ _ rfl).trans ((ext_hi _ _ _ _ rfl).trans ((ext_lo _ _ _ _ rfl).trans (ext_all _))))
  have f6 : wd.extractLsb' 8 2 = 0x3#2 := by rw [← hx]; exact (ext_hi _ _ _ _ rfl).trans ((ext_hi _ _ _ _ rfl).trans ((ext_lo _ _ _ _ rfl).trans (ext_all _)))
  have f7 : wd.extractLsb' 3 5 = b := by rw [← hx]; exact (ext_hi _ _ _ _ rfl).trans ((ext_lo _ _ _ _ rfl).trans (ext_all _))
  have f8 : wd.extractLsb' 0 3 = f := by rw [← hx]; exact (ext_lo _ _ _ _ rfl).trans (ext_all _)
  refine decode_row f1 rfl ?_
  refine firstRow_skip (if_neg fun hc => absurd (f6.symm.trans hc) (by decide)) ?_
  refine firstRow_skip (if_neg fun hc => absurd (f6.symm.trans hc) (by decide)) ?_
  refine firstRow_skip (if_neg fun hc => absurd (f6.symm.trans hc) (by decide)) ?_
  exact firstRow_hit (by simp only [rowAtomAddF32, Sys2Proof.sw, f0, f2, f3, f4, f5, f6, f7, f8, Ord_ofCode_code, and_self, reduceIte])

theorem RoundTrip.atomAnd (sw : Bool) (o : Ord) (d : BitVec 5) (z : Width) (a : BitVec 5) (b : BitVec 5) (f : BitVec 3) :
    RoundTrip.Statement (.atomAnd sw o d z a b f) := by
  intro _ wd hx
  simp only [Instr.encode, Option.some.injEq] at hx
  have f0 : wd.getLsbD 31 = sw := by rw [← hx]; exact (bit_hi _ _ _ rfl).trans ((bit_hi _ _ _ rfl).trans ((bit_hi _ _ _ rfl).trans ((bit_hi _ _ _ rfl).trans ((bit_hi _ _ _ rfl).trans ((bit_hi _ _ _ rfl).trans ((bit_hi _ _ _ rfl).trans ((bit_hi _ _ _ rfl).trans ((bit_hi _ _ _ rfl).trans (bit_one _)))))))))
  have f1 : wd.extractLsb' 24 7 = 0x4F#7 := by rw [← hx]; exact (ext_hi _ _ _ _ rfl).trans ((ext_hi _ _ _ _ rfl).trans ((ext_hi _ _ _ _ rfl).trans ((ext_hi _ _ _ _ rfl).trans ((ext_hi _ _ _ _ rfl).trans ((ext_hi _ _ _ _ rfl).trans ((ext_hi _ _ _ _ rfl).trans ((ext_hi _ _ _ _ rfl).trans ((ext_lo _ _ _ _ rfl).trans (ext_all _)))))))))
  have f2 : wd.extractLsb' 22 2 = o.code := by rw [← hx]; exact (ext_hi _ _ _ _ rfl).trans ((ext_hi _ _ _ _ rfl).trans ((ext_hi _ _ _ _ rfl).trans ((ext_hi _ _ _ _ rfl).trans ((ext_hi _ _ _ _ rfl).trans ((ext_hi _ _ _ _ rfl).trans ((ext_hi _ _ _ _ rfl).trans ((ext_lo _ _ _ _ rfl).trans (ext_all _))))))))
  have f3 : wd.extractLsb' 17 5 = d := by rw [← hx]; exact (ext_hi _ _ _ _ rfl).trans ((ext_hi _ _ _ _ rfl).trans ((ext_hi _ _ _ _ rfl).trans ((ext_hi _ _ _ _ rfl).trans ((ext_hi _ _ _ _ rfl).trans ((ext_hi _ _ _ _ rfl).trans ((ext_lo _ _ _ _ rfl).trans (ext_all _)))))))
  have f4 : wd.extractLsb' 16 1 = 0x0#1 := by rw [← hx]; exact (ext_hi _ _ _ _ rfl).trans ((ext_hi _ _ _ _ rfl).trans ((ext_hi _ _ _ _ rfl).trans ((ext_hi _ _ _ _ rfl).trans ((ext_hi _ _ _ _ rfl).trans ((ext_lo _ _ _ _ rfl).trans (ext_all _))))))
  have f5 : wd.extractLsb' 15 1 = z.code := by rw [← hx]; exact (ext_hi _ _ _ _ rfl).trans ((ext_hi _ _ _ _ rfl).trans ((ext_hi _ _ _ _ rfl).trans ((ext_hi _ _ _ _ rfl).trans ((ext_lo _ _ _ _ rfl).trans (ext_all _)))))
  have f6 : wd.extractLsb' 10 5 = a := by rw [← hx]; exact (ext_hi _ _ _ _ rfl).trans ((ext_hi _ _ _ _ rfl).trans ((ext_hi _ _ _ _ rfl).trans ((ext_lo _ _ _ _ rfl).trans (ext_all _))))
  have f7 : wd.extractLsb' 8 2 = 0x0#2 := by rw [← hx]; exact (ext_hi _ _ _ _ rfl).trans ((ext_hi _ _ _ _ rfl).trans ((ext_lo _ _ _ _ rfl).trans (ext_all _)))
  have f8 : wd.extractLsb' 3 5 = b := by rw [← hx]; exact (ext_hi _ _ _ _ rfl).trans ((ext_lo _ _ _ _ rfl).trans (ext_all _))
  have f9 : wd.extractLsb' 0 3 = f := by rw [← hx]; exact (ext_lo _ _ _ _ rfl).trans (ext_all _)
  refine decode_row f1 rfl ?_
  exact firstRow_hit (by simp only [rowAtomAnd, Sys2Proof.sw, f0, f2, f3, f4, f5, f6, f7, f8, f9, Ord_ofCode_code, Width_ofCode_code, and_self, reduceIte])

theorem RoundTrip.atomOr (sw : Bool) (o : Ord) (d : BitVec 5) (z : Width) (a : BitVec 5) (b : BitVec 5) (f : BitVec 3) :
    RoundTrip.Statement (.atomOr sw o d z a b f) := by
  intro _ wd hx
  simp only [Instr.encode, Option.some.injEq] at hx
  have f0 : wd.getLsbD 31 = sw := by rw [← hx]; exact (bit_hi _ _ _ rfl).trans ((bit_hi _ _ _ rfl).trans ((bit_hi _ _ _ rfl).trans ((bit_hi _ _ _ rfl).trans ((bit_hi _ _ _ rfl).trans ((bit_hi _ _ _ rfl).trans ((bit_hi _ _ _ rfl).trans ((bit_hi _ _ _ rfl).trans ((bit_hi _ _ _ rfl).trans (bit_one _)))))))))
  have f1 : wd.extractLsb' 24 7 = 0x4F#7 := by rw [← hx]; exact (ext_hi _ _ _ _ rfl).trans ((ext_hi _ _ _ _ rfl).trans ((ext_hi _ _ _ _ rfl).trans ((ext_hi _ _ _ _ rfl).trans ((ext_hi _ _ _ _ rfl).trans ((ext_hi _ _ _ _ rfl).trans ((ext_hi _ _ _ _ rfl).trans ((ext_hi _ _ _ _ rfl).trans ((ext_lo _ _ _ _ rfl).trans (ext_all _)))))))))
  have f2 : wd.extractLsb' 22 2 = o.code := by rw [← hx]; exact (ext_hi _ _ _ _ rfl).trans ((ext_hi _ _ _ _ rfl).trans ((ext_hi _ _ _ _ rfl).trans ((ext_hi _ _ _ _ rfl).trans ((ext_hi _ _ _ _ rfl).trans ((ext_hi _ _ _ _ rfl).trans ((ext_hi _ _ _ _ rfl).trans ((ext_lo _ _ _ _ rfl).trans (ext_all _))))))))
  have f3 : wd.extractLsb' 17 5 = d := by rw [← hx]; exact (ext_hi _ _ _ _ rfl).trans ((ext_hi _ _ _ _ rfl).trans ((ext_hi _ _ _ _ rfl).trans ((ext_hi _ _ _ _ rfl).trans ((ext_hi _ _ _ _ rfl).trans ((ext_hi _ _ _ _ rfl).trans ((ext_lo _ _ _ _ rfl).trans (ext_all _)))))))
  have f4 : wd.extractLsb' 16 1 = 0x0#1 := by rw [← hx]; exact (ext_hi _ _ _ _ rfl).trans ((ext_hi _ _ _ _ rfl).trans ((ext_hi _ _ _ _ rfl).trans ((ext_hi _ _ _ _ rfl).trans ((ext_hi _ _ _ _ rfl).trans ((ext_lo _ _ _ _ rfl).trans (ext_all _))))))
  have f5 : wd.extractLsb' 15 1 = z.code := by rw [← hx]; exact (ext_hi _ _ _ _ rfl).trans ((ext_hi _ _ _ _ rfl).trans ((ext_hi _ _ _ _ rfl).trans ((ext_hi _ _ _ _ rfl).trans ((ext_lo _ _ _ _ rfl).trans (ext_all _)))))
  have f6 : wd.extractLsb' 10 5 = a := by rw [← hx]; exact (ext_hi _ _ _ _ rfl).trans ((ext_hi _ _ _ _ rfl).trans ((ext_hi _ _ _ _ rfl).trans ((ext_lo _ _ _ _ rfl).trans (ext_all _))))
  have f7 : wd.extractLsb' 8 2 = 0x1#2 := by rw [← hx]; exact (ext_hi _ _ _ _ rfl).trans ((ext_hi _ _ _ _ rfl).trans ((ext_lo _ _ _ _ rfl).trans (ext_all _)))
  have f8 : wd.extractLsb' 3 5 = b := by rw [← hx]; exact (ext_hi _ _ _ _ rfl).trans ((ext_lo _ _ _ _ rfl).trans (ext_all _))
  have f9 : wd.extractLsb' 0 3 = f := by rw [← hx]; exact (ext_lo _ _ _ _ rfl).trans (ext_all _)
  refine decode_row f1 rfl ?_
  refine firstRow_skip (if_neg fun hc => absurd (f7.symm.trans hc.2) (by decide)) ?_
  exact firstRow_hit (by simp only [rowAtomOr, Sys2Proof.sw, f0, f2, f3, f4, f5, f6, f7, f8, f9, Ord_ofCode_code, Width_ofCode_code, and_self, reduceIte])

theorem RoundTrip.atomXor (sw : Bool) (o : Ord) (d : BitVec 5) (z : Width) (a : BitVec 5) (b : BitVec 5) (f : BitVec 3) :
    RoundTrip.Statement (.atomXor sw o d z a b f) := by
  intro _ wd hx
  simp only [Instr.encode, Option.some.injEq] at hx
  have f0 : wd.getLsbD 31 = sw := by rw [← hx]; exact (bit_hi _ _ _ rfl).trans ((bit_hi _ _ _ rfl).trans ((bit_hi _ _ _ rfl).trans ((bit_hi _ _ _ rfl).trans ((bit_hi _ _ _ rfl).trans ((bit_hi _ _ _ rfl).trans ((bit_hi _ _ _ rfl).trans ((bit_hi _ _ _ rfl).trans ((bit_hi _ _ _ rfl).trans (bit_one _)))))))))
  have f1 : wd.extractLsb' 24 7 = 0x4F#7 := by rw [← hx]; exact (ext_hi _ _ _ _ rfl).trans ((ext_hi _ _ _ _ rfl).trans ((ext_hi _ _ _ _ rfl).trans ((ext_hi _ _ _ _ rfl).trans ((ext_hi _ _ _ _ rfl).trans ((ext_hi _ _ _ _ rfl).trans ((ext_hi _ _ _ _ rfl).trans ((ext_hi _ _ _ _ rfl).trans ((ext_lo _ _ _ _ rfl).trans (ext_all _)))))))))
  have f2 : wd.extractLsb' 22 2 = o.code := by rw [← hx]; exact (ext_hi _ _ _ _ rfl).trans ((ext_hi _ _ _ _ rfl).trans ((ext_hi _ _ _ _ rfl).trans ((ext_hi _ _ _ _ rfl).trans ((ext_hi _ _ _ _ rfl).trans ((ext_hi _ _ _ _ rfl).trans ((ext_hi _ _ _ _ rfl).trans ((ext_lo _ _ _ _ rfl).trans (ext_all _))))))))
  have f3 : wd.extractLsb' 17 5 = d := by rw [← hx]; exact (ext_hi _ _ _ _ rfl).trans ((ext_hi _ _ _ _ rfl).trans ((ext_hi _ _ _ _ rfl).trans ((ext_hi _ _ _ _ rfl).trans ((ext_hi _ _ _ _ rfl).trans ((ext_hi _ _ _ _ rfl).trans ((ext_lo _ _ _ _ rfl).trans (ext_all _)))))))
  have f4 : wd.extractLsb' 16 1 = 0x0#1 := by rw [← hx]; exact (ext_hi _ _ _ _ rfl).trans ((ext_hi _ _ _ _ rfl).trans ((ext_hi _ _ _ _ rfl).trans ((ext_hi _ _ _ _ rfl).trans ((ext_hi _ _ _ _ rfl).trans ((ext_lo _ _ _ _ rfl).trans (ext_all _))))))
  have f5 : wd.extractLsb' 15 1 = z.code := by rw [← hx]; exact (ext_hi _ _ _ _ rfl).trans ((ext_hi _ _ _ _ rfl).trans ((ext_hi _ _ _ _ rfl).trans ((ext_hi _ _ _ _ rfl).trans ((ext_lo _ _ _ _ rfl).trans (ext_all _)))))
  have f6 : wd.extractLsb' 10 5 = a := by rw [← hx]; exact (ext_hi _ _ _ _ rfl).trans ((ext_hi _ _ _ _ rfl).trans ((ext_hi _ _ _ _ rfl).trans ((ext_lo _ _ _ _ rfl).trans (ext_all _))))
  have f7 : wd.extractLsb' 8 2 = 0x2#2 := by rw [← hx]; exact (ext_hi _ _ _ _ rfl).trans ((ext_hi _ _ _ _ rfl).trans ((ext_lo _ _ _ _ rfl).trans (ext_all _)))
  have f8 : wd.extractLsb' 3 5 = b := by rw [← hx]; exact (ext_hi _ _ _ _ rfl).trans ((ext_lo _ _ _ _ rfl).trans (ext_all _))
  have f9 : wd.extractLsb' 0 3 = f := by rw [← hx]; exact (ext_lo _ _ _ _ rfl).trans (ext_all _)
  refine decode_row f1 rfl ?_
  refine firstRow_skip (if_neg fun hc => absurd (f7.symm.trans hc.2) (by decide)) ?_
  refine firstRow_skip (if_neg fun hc => absurd (f7.symm.trans hc.2) (by decide)) ?_
  exact firstRow_hit (by simp only [rowAtomXor, Sys2Proof.sw, f0, f2, f3, f4, f5, f6, f7, f8, f9, Ord_ofCode_code, Width_ofCode_code, and_self, reduceIte])

theorem RoundTrip.atomExch (sw : Bool) (o : Ord) (d : BitVec 5) (z : Width) (a : BitVec 5) (b : BitVec 5) (f : BitVec 3) :
    RoundTrip.Statement (.atomExch sw o d z a b f) := by
  intro _ wd hx
  simp only [Instr.encode, Option.some.injEq] at hx
  have f0 : wd.getLsbD 31 = sw := by rw [← hx]; exact (bit_hi _ _ _ rfl).trans ((bit_hi _ _ _ rfl).trans ((bit_hi _ _ _ rfl).trans ((bit_hi _ _ _ rfl).trans ((bit_hi _ _ _ rfl).trans ((bit_hi _ _ _ rfl).trans ((bit_hi _ _ _ rfl).trans ((bit_hi _ _ _ rfl).trans ((bit_hi _ _ _ rfl).trans (bit_one _)))))))))
  have f1 : wd.extractLsb' 24 7 = 0x4F#7 := by rw [← hx]; exact (ext_hi _ _ _ _ rfl).trans ((ext_hi _ _ _ _ rfl).trans ((ext_hi _ _ _ _ rfl).trans ((ext_hi _ _ _ _ rfl).trans ((ext_hi _ _ _ _ rfl).trans ((ext_hi _ _ _ _ rfl).trans ((ext_hi _ _ _ _ rfl).trans ((ext_hi _ _ _ _ rfl).trans ((ext_lo _ _ _ _ rfl).trans (ext_all _)))))))))
  have f2 : wd.extractLsb' 22 2 = o.code := by rw [← hx]; exact (ext_hi _ _ _ _ rfl).trans ((ext_hi _ _ _ _ rfl).trans ((ext_hi _ _ _ _ rfl).trans ((ext_hi _ _ _ _ rfl).trans ((ext_hi _ _ _ _ rfl).trans ((ext_hi _ _ _ _ rfl).trans ((ext_hi _ _ _ _ rfl).trans ((ext_lo _ _ _ _ rfl).trans (ext_all _))))))))
  have f3 : wd.extractLsb' 17 5 = d := by rw [← hx]; exact (ext_hi _ _ _ _ rfl).trans ((ext_hi _ _ _ _ rfl).trans ((ext_hi _ _ _ _ rfl).trans ((ext_hi _ _ _ _ rfl).trans ((ext_hi _ _ _ _ rfl).trans ((ext_hi _ _ _ _ rfl).trans ((ext_lo _ _ _ _ rfl).trans (ext_all _)))))))
  have f4 : wd.extractLsb' 16 1 = 0x0#1 := by rw [← hx]; exact (ext_hi _ _ _ _ rfl).trans ((ext_hi _ _ _ _ rfl).trans ((ext_hi _ _ _ _ rfl).trans ((ext_hi _ _ _ _ rfl).trans ((ext_hi _ _ _ _ rfl).trans ((ext_lo _ _ _ _ rfl).trans (ext_all _))))))
  have f5 : wd.extractLsb' 15 1 = z.code := by rw [← hx]; exact (ext_hi _ _ _ _ rfl).trans ((ext_hi _ _ _ _ rfl).trans ((ext_hi _ _ _ _ rfl).trans ((ext_hi _ _ _ _ rfl).trans ((ext_lo _ _ _ _ rfl).trans (ext_all _)))))
  have f6 : wd.extractLsb' 10 5 = a := by rw [← hx]; exact (ext_hi _ _ _ _ rfl).trans ((ext_hi _ _ _ _ rfl).trans ((ext_hi _ _ _ _ rfl).trans ((ext_lo _ _ _ _ rfl).trans (ext_all _))))
  have f7 : wd.extractLsb' 8 2 = 0x3#2 := by rw [← hx]; exact (ext_hi _ _ _ _ rfl).trans ((ext_hi _ _ _ _ rfl).trans ((ext_lo _ _ _ _ rfl).trans (ext_all _)))
  have f8 : wd.extractLsb' 3 5 = b := by rw [← hx]; exact (ext_hi _ _ _ _ rfl).trans ((ext_lo _ _ _ _ rfl).trans (ext_all _))
  have f9 : wd.extractLsb' 0 3 = f := by rw [← hx]; exact (ext_lo _ _ _ _ rfl).trans (ext_all _)
  refine decode_row f1 rfl ?_
  refine firstRow_skip (if_neg fun hc => absurd (f7.symm.trans hc.2) (by decide)) ?_
  refine firstRow_skip (if_neg fun hc => absurd (f7.symm.trans hc.2) (by decide)) ?_
  refine firstRow_skip (if_neg fun hc => absurd (f7.symm.trans hc.2) (by decide)) ?_
  exact firstRow_hit (by simp only [rowAtomExch, Sys2Proof.sw, f0, f2, f3, f4, f5, f6, f7, f8, f9, Ord_ofCode_code, Width_ofCode_code, and_self, reduceIte])

theorem RoundTrip.cas (sw : Bool) (o : Ord) (d : BitVec 5) (z : Width) (a : BitVec 5) (b : BitVec 5) (f : BitVec 3) :
    RoundTrip.Statement (.cas sw o d z a b f) := by
  intro _ wd hx
  simp only [Instr.encode, Option.some.injEq] at hx
  have f0 : wd.getLsbD 31 = sw := by rw [← hx]; exact (bit_hi _ _ _ rfl).trans ((bit_hi _ _ _ rfl).trans ((bit_hi _ _ _ rfl).trans ((bit_hi _ _ _ rfl).trans ((bit_hi _ _ _ rfl).trans ((bit_hi _ _ _ rfl).trans ((bit_hi _ _ _ rfl).trans ((bit_hi _ _ _ rfl).trans ((bit_hi _ _ _ rfl).trans (bit_one _)))))))))
  have f1 : wd.extractLsb' 24 7 = 0x50#7 := by rw [← hx]; exact (ext_hi _ _ _ _ rfl).trans ((ext_hi _ _ _ _ rfl).trans ((ext_hi _ _ _ _ rfl).trans ((ext_hi _ _ _ _ rfl).trans ((ext_hi _ _ _ _ rfl).trans ((ext_hi _ _ _ _ rfl).trans ((ext_hi _ _ _ _ rfl).trans ((ext_hi _ _ _ _ rfl).trans ((ext_lo _ _ _ _ rfl).trans (ext_all _)))))))))
  have f2 : wd.extractLsb' 22 2 = o.code := by rw [← hx]; exact (ext_hi _ _ _ _ rfl).trans ((ext_hi _ _ _ _ rfl).trans ((ext_hi _ _ _ _ rfl).trans ((ext_hi _ _ _ _ rfl).trans ((ext_hi _ _ _ _ rfl).trans ((ext_hi _ _ _ _ rfl).trans ((ext_hi _ _ _ _ rfl).trans ((ext_lo _ _ _ _ rfl).trans (ext_all _))))))))
  have f3 : wd.extractLsb' 17 5 = d := by rw [← hx]; exact (ext_hi _ _ _ _ rfl).trans ((ext_hi _ _ _ _ rfl).trans ((ext_hi _ _ _ _ rfl).trans ((ext_hi _ _ _ _ rfl).trans ((ext_hi _ _ _ _ rfl).trans ((ext_hi _ _ _ _ rfl).trans ((ext_lo _ _ _ _ rfl).trans (ext_all _)))))))
  have f4 : wd.extractLsb' 16 1 = z.code := by rw [← hx]; exact (ext_hi _ _ _ _ rfl).trans ((ext_hi _ _ _ _ rfl).trans ((ext_hi _ _ _ _ rfl).trans ((ext_hi _ _ _ _ rfl).trans ((ext_hi _ _ _ _ rfl).trans ((ext_lo _ _ _ _ rfl).trans (ext_all _))))))
  have f5 : wd.extractLsb' 15 1 = 0x0#1 := by rw [← hx]; exact (ext_hi _ _ _ _ rfl).trans ((ext_hi _ _ _ _ rfl).trans ((ext_hi _ _ _ _ rfl).trans ((ext_hi _ _ _ _ rfl).trans ((ext_lo _ _ _ _ rfl).trans (ext_all _)))))
  have f6 : wd.extractLsb' 10 5 = a := by rw [← hx]; exact (ext_hi _ _ _ _ rfl).trans ((ext_hi _ _ _ _ rfl).trans ((ext_hi _ _ _ _ rfl).trans ((ext_lo _ _ _ _ rfl).trans (ext_all _))))
  have f7 : wd.extractLsb' 8 2 = 0x0#2 := by rw [← hx]; exact (ext_hi _ _ _ _ rfl).trans ((ext_hi _ _ _ _ rfl).trans ((ext_lo _ _ _ _ rfl).trans (ext_all _)))
  have f8 : wd.extractLsb' 3 5 = b := by rw [← hx]; exact (ext_hi _ _ _ _ rfl).trans ((ext_lo _ _ _ _ rfl).trans (ext_all _))
  have f9 : wd.extractLsb' 0 3 = f := by rw [← hx]; exact (ext_lo _ _ _ _ rfl).trans (ext_all _)
  refine decode_row f1 rfl ?_
  exact firstRow_hit (by simp only [rowCas, Sys2Proof.sw, f0, f2, f3, f4, f5, f6, f7, f8, f9, Ord_ofCode_code, Width_ofCode_code, and_self, reduceIte])

theorem RoundTrip.redAdd (sw : Bool) (o : Bool) (w : Width) (a : BitVec 7) (b : BitVec 7) (f : BitVec 3) :
    RoundTrip.Statement (.redAdd sw o w a b f) := by
  intro _ wd hx
  simp only [Instr.encode, Option.some.injEq] at hx
  have f0 : wd.getLsbD 31 = sw := by rw [← hx]; exact (bit_hi _ _ _ rfl).trans ((bit_hi _ _ _ rfl).trans ((bit_hi _ _ _ rfl).trans ((bit_hi _ _ _ rfl).trans ((bit_hi _ _ _ rfl).trans ((bit_hi _ _ _ rfl).trans ((bit_hi _ _ _ rfl).trans (bit_one _)))))))
  have f1 : wd.extractLsb' 24 7 = 0x51#7 := by rw [← hx]; exact (ext_hi _ _ _ _ rfl).trans ((ext_hi _ _ _ _ rfl).trans ((ext_hi _ _ _ _ rfl).trans ((ext_hi _ _ _ _ rfl).trans ((ext_hi _ _ _ _ rfl).trans ((ext_hi _ _ _ _ rfl).trans ((ext_lo _ _ _ _ rfl).trans (ext_all _)))))))
  have f2 : wd.getLsbD 23 = o := by rw [← hx]; exact (bit_hi _ _ _ rfl).trans ((bit_hi _ _ _ rfl).trans ((bit_hi _ _ _ rfl).trans ((bit_hi _ _ _ rfl).trans ((bit_hi _ _ _ rfl).trans ((bit_lo _ _ _ rfl).trans (bit_one _))))))
  have f3 : wd.extractLsb' 18 5 = 0x0#5 := by rw [← hx]; exact (ext_hi _ _ _ _ rfl).trans ((ext_hi _ _ _ _ rfl).trans ((ext_hi _ _ _ _ rfl).trans ((ext_hi _ _ _ _ rfl).trans ((ext_lo _ _ _ _ rfl).trans (ext_all _)))))
  have f4 : wd.extractLsb' 17 1 = w.code := by rw [← hx]; exact (ext_hi _ _ _ _ rfl).trans ((ext_hi _ _ _ _ rfl).trans ((ext_hi _ _ _ _ rfl).trans ((ext_lo _ _ _ _ rfl).trans (ext_all _))))
  have f5 : wd.extractLsb' 10 7 = a := by rw [← hx]; exact (ext_hi _ _ _ _ rfl).trans ((ext_hi _ _ _ _ rfl).trans ((ext_lo _ _ _ _ rfl).trans (ext_all _)))
  have f6 : wd.extractLsb' 3 7 = b := by rw [← hx]; exact (ext_hi _ _ _ _ rfl).trans ((ext_lo _ _ _ _ rfl).trans (ext_all _))
  have f7 : wd.extractLsb' 0 3 = f := by rw [← hx]; exact (ext_lo _ _ _ _ rfl).trans (ext_all _)
  refine decode_row f1 rfl ?_
  exact firstRow_hit (by simp only [rowRedAdd, Sys2Proof.sw, f0, f2, f3, f4, f5, f6, f7, Width_ofCode_code, reduceIte])

theorem RoundTrip.redAddF32 (sw : Bool) (o : Bool) (a : BitVec 7) (b : BitVec 7) (f : BitVec 3) :
    RoundTrip.Statement (.redAddF32 sw o a b f) := by
  intro _ wd hx
  simp only [Instr.encode, Option.some.injEq] at hx
  have f0 : wd.getLsbD 31 = sw := by rw [← hx]; exact (bit_hi _ _ _ rfl).trans ((bit_hi _ _ _ rfl).trans ((bit_hi _ _ _ rfl).trans ((bit_hi _ _ _ rfl).trans ((bit_hi _ _ _ rfl).trans ((bit_hi _ _ _ rfl).trans (bit_one _))))))
  have f1 : wd.extractLsb' 24 7 = 0x51#7 := by rw [← hx]; exact (ext_hi _ _ _ _ rfl).trans ((ext_hi _ _ _ _ rfl).trans ((ext_hi _ _ _ _ rfl).trans ((ext_hi _ _ _ _ rfl).trans ((ext_hi _ _ _ _ rfl).trans ((ext_lo _ _ _ _ rfl).trans (ext_all _))))))
  have f2 : wd.getLsbD 23 = o := by rw [← hx]; exact (bit_hi _ _ _ rfl).trans ((bit_hi _ _ _ rfl).trans ((bit_hi _ _ _ rfl).trans ((bit_hi _ _ _ rfl).trans ((bit_lo _ _ _ rfl).trans (bit_one _)))))
  have f3 : wd.extractLsb' 17 6 = 0x2#6 := by rw [← hx]; exact (ext_hi _ _ _ _ rfl).trans ((ext_hi _ _ _ _ rfl).trans ((ext_hi _ _ _ _ rfl).trans ((ext_lo _ _ _ _ rfl).trans (ext_all _))))
  have f4 : wd.extractLsb' 10 7 = a := by rw [← hx]; exact (ext_hi _ _ _ _ rfl).trans ((ext_hi _ _ _ _ rfl).trans ((ext_lo _ _ _ _ rfl).trans (ext_all _)))
  have f5 : wd.extractLsb' 3 7 = b := by rw [← hx]; exact (ext_hi _ _ _ _ rfl).trans ((ext_lo _ _ _ _ rfl).trans (ext_all _))
  have f6 : wd.extractLsb' 0 3 = f := by rw [← hx]; exact (ext_lo _ _ _ _ rfl).trans (ext_all _)
  have bredAdd : wd.getLsbD 18 = true := by rw [← hx]; exact (bit_hi _ _ _ rfl).trans ((bit_hi _ _ _ rfl).trans ((bit_hi _ _ _ rfl).trans ((bit_lo _ _ _ rfl).trans rfl)))
  have gredAdd : wd.extractLsb' 18 5 ≠ 0x0#5 := field_ne (k := 0) bredAdd rfl (by decide)
  refine decode_row f1 rfl ?_
  refine firstRow_skip (if_neg fun hc => gredAdd hc) ?_
  exact firstRow_hit (by simp only [rowRedAddF32, Sys2Proof.sw, f0, f2, f3, f4, f5, f6, reduceIte])

theorem RoundTrip.redMinI32 (sw : Bool) (o : Bool) (a : BitVec 7) (b : BitVec 7) (f : BitVec 3) :
    RoundTrip.Statement (.redMinI32 sw o a b f) := by
  intro _ wd hx
  simp only [Instr.encode, Option.some.injEq] at hx
  have f0 : wd.getLsbD 31 = sw := by rw [← hx]; exact (bit_hi _ _ _ rfl).trans ((bit_hi _ _ _ rfl).trans ((bit_hi _ _ _ rfl).trans ((bit_hi _ _ _ rfl).trans ((bit_hi _ _ _ rfl).trans ((bit_hi _ _ _ rfl).trans (bit_one _))))))
  have f1 : wd.extractLsb' 24 7 = 0x51#7 := by rw [← hx]; exact (ext_hi _ _ _ _ rfl).trans ((ext_hi _ _ _ _ rfl).trans ((ext_hi _ _ _ _ rfl).trans ((ext_hi _ _ _ _ rfl).trans ((ext_hi _ _ _ _ rfl).trans ((ext_lo _ _ _ _ rfl).trans (ext_all _))))))
  have f2 : wd.getLsbD 23 = o := by rw [← hx]; exact (bit_hi _ _ _ rfl).trans ((bit_hi _ _ _ rfl).trans ((bit_hi _ _ _ rfl).trans ((bit_hi _ _ _ rfl).trans ((bit_lo _ _ _ rfl).trans (bit_one _)))))
  have f3 : wd.extractLsb' 17 6 = 0x3#6 := by rw [← hx]; exact (ext_hi _ _ _ _ rfl).trans ((ext_hi _ _ _ _ rfl).trans ((ext_hi _ _ _ _ rfl).trans ((ext_lo _ _ _ _ rfl).trans (ext_all _))))
  have f4 : wd.extractLsb' 10 7 = a := by rw [← hx]; exact (ext_hi _ _ _ _ rfl).trans ((ext_hi _ _ _ _ rfl).trans ((ext_lo _ _ _ _ rfl).trans (ext_all _)))
  have f5 : wd.extractLsb' 3 7 = b := by rw [← hx]; exact (ext_hi _ _ _ _ rfl).trans ((ext_lo _ _ _ _ rfl).trans (ext_all _))
  have f6 : wd.extractLsb' 0 3 = f := by rw [← hx]; exact (ext_lo _ _ _ _ rfl).trans (ext_all _)
  have bredAdd : wd.getLsbD 18 = true := by rw [← hx]; exact (bit_hi _ _ _ rfl).trans ((bit_hi _ _ _ rfl).trans ((bit_hi _ _ _ rfl).trans ((bit_lo _ _ _ rfl).trans rfl)))
  have gredAdd : wd.extractLsb' 18 5 ≠ 0x0#5 := field_ne (k := 0) bredAdd rfl (by decide)
  refine decode_row f1 rfl ?_
  refine firstRow_skip (if_neg fun hc => gredAdd hc) ?_
  refine firstRow_skip (if_neg fun hc => absurd (f3.symm.trans hc) (by decide)) ?_
  exact firstRow_hit (by simp only [rowRedMinI32, Sys2Proof.sw, f0, f2, f3, f4, f5, f6, reduceIte])

theorem RoundTrip.redMinN32 (sw : Bool) (o : Bool) (a : BitVec 7) (b : BitVec 7) (f : BitVec 3) :
    RoundTrip.Statement (.redMinN32 sw o a b f) := by
  intro _ wd hx
  simp only [Instr.encode, Option.some.injEq] at hx
  have f0 : wd.getLsbD 31 = sw := by rw [← hx]; exact (bit_hi _ _ _ rfl).trans ((bit_hi _ _ _ rfl).trans ((bit_hi _ _ _ rfl).trans ((bit_hi _ _ _ rfl).trans ((bit_hi _ _ _ rfl).trans ((bit_hi _ _ _ rfl).trans (bit_one _))))))
  have f1 : wd.extractLsb' 24 7 = 0x51#7 := by rw [← hx]; exact (ext_hi _ _ _ _ rfl).trans ((ext_hi _ _ _ _ rfl).trans ((ext_hi _ _ _ _ rfl).trans ((ext_hi _ _ _ _ rfl).trans ((ext_hi _ _ _ _ rfl).trans ((ext_lo _ _ _ _ rfl).trans (ext_all _))))))
  have f2 : wd.getLsbD 23 = o := by rw [← hx]; exact (bit_hi _ _ _ rfl).trans ((bit_hi _ _ _ rfl).trans ((bit_hi _ _ _ rfl).trans ((bit_hi _ _ _ rfl).trans ((bit_lo _ _ _ rfl).trans (bit_one _)))))
  have f3 : wd.extractLsb' 17 6 = 0x4#6 := by rw [← hx]; exact (ext_hi _ _ _ _ rfl).trans ((ext_hi _ _ _ _ rfl).trans ((ext_hi _ _ _ _ rfl).trans ((ext_lo _ _ _ _ rfl).trans (ext_all _))))
  have f4 : wd.extractLsb' 10 7 = a := by rw [← hx]; exact (ext_hi _ _ _ _ rfl).trans ((ext_hi _ _ _ _ rfl).trans ((ext_lo _ _ _ _ rfl).trans (ext_all _)))
  have f5 : wd.extractLsb' 3 7 = b := by rw [← hx]; exact (ext_hi _ _ _ _ rfl).trans ((ext_lo _ _ _ _ rfl).trans (ext_all _))
  have f6 : wd.extractLsb' 0 3 = f := by rw [← hx]; exact (ext_lo _ _ _ _ rfl).trans (ext_all _)
  have bredAdd : wd.getLsbD 19 = true := by rw [← hx]; exact (bit_hi _ _ _ rfl).trans ((bit_hi _ _ _ rfl).trans ((bit_hi _ _ _ rfl).trans ((bit_lo _ _ _ rfl).trans rfl)))
  have gredAdd : wd.extractLsb' 18 5 ≠ 0x0#5 := field_ne (k := 1) bredAdd rfl (by decide)
  refine decode_row f1 rfl ?_
  refine firstRow_skip (if_neg fun hc => gredAdd hc) ?_
  refine firstRow_skip (if_neg fun hc => absurd (f3.symm.trans hc) (by decide)) ?_
  refine firstRow_skip (if_neg fun hc => absurd (f3.symm.trans hc) (by decide)) ?_
  exact firstRow_hit (by simp only [rowRedMinN32, Sys2Proof.sw, f0, f2, f3, f4, f5, f6, reduceIte])

theorem RoundTrip.redMaxI32 (sw : Bool) (o : Bool) (a : BitVec 7) (b : BitVec 7) (f : BitVec 3) :
    RoundTrip.Statement (.redMaxI32 sw o a b f) := by
  intro _ wd hx
  simp only [Instr.encode, Option.some.injEq] at hx
  have f0 : wd.getLsbD 31 = sw := by rw [← hx]; exact (bit_hi _ _ _ rfl).trans ((bit_hi _ _ _ rfl).trans ((bit_hi _ _ _ rfl).trans ((bit_hi _ _ _ rfl).trans ((bit_hi _ _ _ rfl).trans ((bit_hi _ _ _ rfl).trans (bit_one _))))))
  have f1 : wd.extractLsb' 24 7 = 0x51#7 := by rw [← hx]; exact (ext_hi _ _ _ _ rfl).trans ((ext_hi _ _ _ _ rfl).trans ((ext_hi _ _ _ _ rfl).trans ((ext_hi _ _ _ _ rfl).trans ((ext_hi _ _ _ _ rfl).trans ((ext_lo _ _ _ _ rfl).trans (ext_all _))))))
  have f2 : wd.getLsbD 23 = o := by rw [← hx]; exact (bit_hi _ _ _ rfl).trans ((bit_hi _ _ _ rfl).trans ((bit_hi _ _ _ rfl).trans ((bit_hi _ _ _ rfl).trans ((bit_lo _ _ _ rfl).trans (bit_one _)))))
  have f3 : wd.extractLsb' 17 6 = 0x5#6 := by rw [← hx]; exact (ext_hi _ _ _ _ rfl).trans ((ext_hi _ _ _ _ rfl).trans ((ext_hi _ _ _ _ rfl).trans ((ext_lo _ _ _ _ rfl).trans (ext_all _))))
  have f4 : wd.extractLsb' 10 7 = a := by rw [← hx]; exact (ext_hi _ _ _ _ rfl).trans ((ext_hi _ _ _ _ rfl).trans ((ext_lo _ _ _ _ rfl).trans (ext_all _)))
  have f5 : wd.extractLsb' 3 7 = b := by rw [← hx]; exact (ext_hi _ _ _ _ rfl).trans ((ext_lo _ _ _ _ rfl).trans (ext_all _))
  have f6 : wd.extractLsb' 0 3 = f := by rw [← hx]; exact (ext_lo _ _ _ _ rfl).trans (ext_all _)
  have bredAdd : wd.getLsbD 19 = true := by rw [← hx]; exact (bit_hi _ _ _ rfl).trans ((bit_hi _ _ _ rfl).trans ((bit_hi _ _ _ rfl).trans ((bit_lo _ _ _ rfl).trans rfl)))
  have gredAdd : wd.extractLsb' 18 5 ≠ 0x0#5 := field_ne (k := 1) bredAdd rfl (by decide)
  refine decode_row f1 rfl ?_
  refine firstRow_skip (if_neg fun hc => gredAdd hc) ?_
  refine firstRow_skip (if_neg fun hc => absurd (f3.symm.trans hc) (by decide)) ?_
  refine firstRow_skip (if_neg fun hc => absurd (f3.symm.trans hc) (by decide)) ?_
  refine firstRow_skip (if_neg fun hc => absurd (f3.symm.trans hc) (by decide)) ?_
  exact firstRow_hit (by simp only [rowRedMaxI32, Sys2Proof.sw, f0, f2, f3, f4, f5, f6, reduceIte])

theorem RoundTrip.redMaxN32 (sw : Bool) (o : Bool) (a : BitVec 7) (b : BitVec 7) (f : BitVec 3) :
    RoundTrip.Statement (.redMaxN32 sw o a b f) := by
  intro _ wd hx
  simp only [Instr.encode, Option.some.injEq] at hx
  have f0 : wd.getLsbD 31 = sw := by rw [← hx]; exact (bit_hi _ _ _ rfl).trans ((bit_hi _ _ _ rfl).trans ((bit_hi _ _ _ rfl).trans ((bit_hi _ _ _ rfl).trans ((bit_hi _ _ _ rfl).trans ((bit_hi _ _ _ rfl).trans (bit_one _))))))
  have f1 : wd.extractLsb' 24 7 = 0x51#7 := by rw [← hx]; exact (ext_hi _ _ _ _ rfl).trans ((ext_hi _ _ _ _ rfl).trans ((ext_hi _ _ _ _ rfl).trans ((ext_hi _ _ _ _ rfl).trans ((ext_hi _ _ _ _ rfl).trans ((ext_lo _ _ _ _ rfl).trans (ext_all _))))))
  have f2 : wd.getLsbD 23 = o := by rw [← hx]; exact (bit_hi _ _ _ rfl).trans ((bit_hi _ _ _ rfl).trans ((bit_hi _ _ _ rfl).trans ((bit_hi _ _ _ rfl).trans ((bit_lo _ _ _ rfl).trans (bit_one _)))))
  have f3 : wd.extractLsb' 17 6 = 0x6#6 := by rw [← hx]; exact (ext_hi _ _ _ _ rfl).trans ((ext_hi _ _ _ _ rfl).trans ((ext_hi _ _ _ _ rfl).trans ((ext_lo _ _ _ _ rfl).trans (ext_all _))))
  have f4 : wd.extractLsb' 10 7 = a := by rw [← hx]; exact (ext_hi _ _ _ _ rfl).trans ((ext_hi _ _ _ _ rfl).trans ((ext_lo _ _ _ _ rfl).trans (ext_all _)))
  have f5 : wd.extractLsb' 3 7 = b := by rw [← hx]; exact (ext_hi _ _ _ _ rfl).trans ((ext_lo _ _ _ _ rfl).trans (ext_all _))
  have f6 : wd.extractLsb' 0 3 = f := by rw [← hx]; exact (ext_lo _ _ _ _ rfl).trans (ext_all _)
  have bredAdd : wd.getLsbD 18 = true := by rw [← hx]; exact (bit_hi _ _ _ rfl).trans ((bit_hi _ _ _ rfl).trans ((bit_hi _ _ _ rfl).trans ((bit_lo _ _ _ rfl).trans rfl)))
  have gredAdd : wd.extractLsb' 18 5 ≠ 0x0#5 := field_ne (k := 0) bredAdd rfl (by decide)
  refine decode_row f1 rfl ?_
  refine firstRow_skip (if_neg fun hc => gredAdd hc) ?_
  refine firstRow_skip (if_neg fun hc => absurd (f3.symm.trans hc) (by decide)) ?_
  refine firstRow_skip (if_neg fun hc => absurd (f3.symm.trans hc) (by decide)) ?_
  refine firstRow_skip (if_neg fun hc => absurd (f3.symm.trans hc) (by decide)) ?_
  refine firstRow_skip (if_neg fun hc => absurd (f3.symm.trans hc) (by decide)) ?_
  exact firstRow_hit (by simp only [rowRedMaxN32, Sys2Proof.sw, f0, f2, f3, f4, f5, f6, reduceIte])

theorem RoundTrip.redAnd (sw : Bool) (o : Bool) (a : BitVec 7) (b : BitVec 7) (f : BitVec 3) :
    RoundTrip.Statement (.redAnd sw o a b f) := by
  intro _ wd hx
  simp only [Instr.encode, Option.some.injEq] at hx
  have f0 : wd.getLsbD 31 = sw := by rw [← hx]; exact (bit_hi _ _ _ rfl).trans ((bit_hi _ _ _ rfl).trans ((bit_hi _ _ _ rfl).trans ((bit_hi _ _ _ rfl).trans ((bit_hi _ _ _ rfl).trans ((bit_hi _ _ _ rfl).trans (bit_one _))))))
  have f1 : wd.extractLsb' 24 7 = 0x51#7 := by rw [← hx]; exact (ext_hi _ _ _ _ rfl).trans ((ext_hi _ _ _ _ rfl).trans ((ext_hi _ _ _ _ rfl).trans ((ext_hi _ _ _ _ rfl).trans ((ext_hi _ _ _ _ rfl).trans ((ext_lo _ _ _ _ rfl).trans (ext_all _))))))
  have f2 : wd.getLsbD 23 = o := by rw [← hx]; exact (bit_hi _ _ _ rfl).trans ((bit_hi _ _ _ rfl).trans ((bit_hi _ _ _ rfl).trans ((bit_hi _ _ _ rfl).trans ((bit_lo _ _ _ rfl).trans (bit_one _)))))
  have f3 : wd.extractLsb' 17 6 = 0x7#6 := by rw [← hx]; exact (ext_hi _ _ _ _ rfl).trans ((ext_hi _ _ _ _ rfl).trans ((ext_hi _ _ _ _ rfl).trans ((ext_lo _ _ _ _ rfl).trans (ext_all _))))
  have f4 : wd.extractLsb' 10 7 = a := by rw [← hx]; exact (ext_hi _ _ _ _ rfl).trans ((ext_hi _ _ _ _ rfl).trans ((ext_lo _ _ _ _ rfl).trans (ext_all _)))
  have f5 : wd.extractLsb' 3 7 = b := by rw [← hx]; exact (ext_hi _ _ _ _ rfl).trans ((ext_lo _ _ _ _ rfl).trans (ext_all _))
  have f6 : wd.extractLsb' 0 3 = f := by rw [← hx]; exact (ext_lo _ _ _ _ rfl).trans (ext_all _)
  have bredAdd : wd.getLsbD 18 = true := by rw [← hx]; exact (bit_hi _ _ _ rfl).trans ((bit_hi _ _ _ rfl).trans ((bit_hi _ _ _ rfl).trans ((bit_lo _ _ _ rfl).trans rfl)))
  have gredAdd : wd.extractLsb' 18 5 ≠ 0x0#5 := field_ne (k := 0) bredAdd rfl (by decide)
  refine decode_row f1 rfl ?_
  refine firstRow_skip (if_neg fun hc => gredAdd hc) ?_
  refine firstRow_skip (if_neg fun hc => absurd (f3.symm.trans hc) (by decide)) ?_
  refine firstRow_skip (if_neg fun hc => absurd (f3.symm.trans hc) (by decide)) ?_
  refine firstRow_skip (if_neg fun hc => absurd (f3.symm.trans hc) (by decide)) ?_
  refine firstRow_skip (if_neg fun hc => absurd (f3.symm.trans hc) (by decide)) ?_
  refine firstRow_skip (if_neg fun hc => absurd (f3.symm.trans hc) (by decide)) ?_
  exact firstRow_hit (by simp only [rowRedAnd, Sys2Proof.sw, f0, f2, f3, f4, f5, f6, reduceIte])

theorem RoundTrip.redOr (sw : Bool) (o : Bool) (a : BitVec 7) (b : BitVec 7) (f : BitVec 3) :
    RoundTrip.Statement (.redOr sw o a b f) := by
  intro _ wd hx
  simp only [Instr.encode, Option.some.injEq] at hx
  have f0 : wd.getLsbD 31 = sw := by rw [← hx]; exact (bit_hi _ _ _ rfl).trans ((bit_hi _ _ _ rfl).trans ((bit_hi _ _ _ rfl).trans ((bit_hi _ _ _ rfl).trans ((bit_hi _ _ _ rfl).trans ((bit_hi _ _ _ rfl).trans (bit_one _))))))
  have f1 : wd.extractLsb' 24 7 = 0x51#7 := by rw [← hx]; exact (ext_hi _ _ _ _ rfl).trans ((ext_hi _ _ _ _ rfl).trans ((ext_hi _ _ _ _ rfl).trans ((ext_hi _ _ _ _ rfl).trans ((ext_hi _ _ _ _ rfl).trans ((ext_lo _ _ _ _ rfl).trans (ext_all _))))))
  have f2 : wd.getLsbD 23 = o := by rw [← hx]; exact (bit_hi _ _ _ rfl).trans ((bit_hi _ _ _ rfl).trans ((bit_hi _ _ _ rfl).trans ((bit_hi _ _ _ rfl).trans ((bit_lo _ _ _ rfl).trans (bit_one _)))))
  have f3 : wd.extractLsb' 17 6 = 0x8#6 := by rw [← hx]; exact (ext_hi _ _ _ _ rfl).trans ((ext_hi _ _ _ _ rfl).trans ((ext_hi _ _ _ _ rfl).trans ((ext_lo _ _ _ _ rfl).trans (ext_all _))))
  have f4 : wd.extractLsb' 10 7 = a := by rw [← hx]; exact (ext_hi _ _ _ _ rfl).trans ((ext_hi _ _ _ _ rfl).trans ((ext_lo _ _ _ _ rfl).trans (ext_all _)))
  have f5 : wd.extractLsb' 3 7 = b := by rw [← hx]; exact (ext_hi _ _ _ _ rfl).trans ((ext_lo _ _ _ _ rfl).trans (ext_all _))
  have f6 : wd.extractLsb' 0 3 = f := by rw [← hx]; exact (ext_lo _ _ _ _ rfl).trans (ext_all _)
  have bredAdd : wd.getLsbD 20 = true := by rw [← hx]; exact (bit_hi _ _ _ rfl).trans ((bit_hi _ _ _ rfl).trans ((bit_hi _ _ _ rfl).trans ((bit_lo _ _ _ rfl).trans rfl)))
  have gredAdd : wd.extractLsb' 18 5 ≠ 0x0#5 := field_ne (k := 2) bredAdd rfl (by decide)
  refine decode_row f1 rfl ?_
  refine firstRow_skip (if_neg fun hc => gredAdd hc) ?_
  refine firstRow_skip (if_neg fun hc => absurd (f3.symm.trans hc) (by decide)) ?_
  refine firstRow_skip (if_neg fun hc => absurd (f3.symm.trans hc) (by decide)) ?_
  refine firstRow_skip (if_neg fun hc => absurd (f3.symm.trans hc) (by decide)) ?_
  refine firstRow_skip (if_neg fun hc => absurd (f3.symm.trans hc) (by decide)) ?_
  refine firstRow_skip (if_neg fun hc => absurd (f3.symm.trans hc) (by decide)) ?_
  refine firstRow_skip (if_neg fun hc => absurd (f3.symm.trans hc) (by decide)) ?_
  exact firstRow_hit (by simp only [rowRedOr, Sys2Proof.sw, f0, f2, f3, f4, f5, f6, reduceIte])

theorem RoundTrip.redXor (sw : Bool) (o : Bool) (a : BitVec 7) (b : BitVec 7) (f : BitVec 3) :
    RoundTrip.Statement (.redXor sw o a b f) := by
  intro _ wd hx
  simp only [Instr.encode, Option.some.injEq] at hx
  have f0 : wd.getLsbD 31 = sw := by rw [← hx]; exact (bit_hi _ _ _ rfl).trans ((bit_hi _ _ _ rfl).trans ((bit_hi _ _ _ rfl).trans ((bit_hi _ _ _ rfl).trans ((bit_hi _ _ _ rfl).trans ((bit_hi _ _ _ rfl).trans (bit_one _))))))
  have f1 : wd.extractLsb' 24 7 = 0x51#7 := by rw [← hx]; exact (ext_hi _ _ _ _ rfl).trans ((ext_hi _ _ _ _ rfl).trans ((ext_hi _ _ _ _ rfl).trans ((ext_hi _ _ _ _ rfl).trans ((ext_hi _ _ _ _ rfl).trans ((ext_lo _ _ _ _ rfl).trans (ext_all _))))))
  have f2 : wd.getLsbD 23 = o := by rw [← hx]; exact (bit_hi _ _ _ rfl).trans ((bit_hi _ _ _ rfl).trans ((bit_hi _ _ _ rfl).trans ((bit_hi _ _ _ rfl).trans ((bit_lo _ _ _ rfl).trans (bit_one _)))))
  have f3 : wd.extractLsb' 17 6 = 0x9#6 := by rw [← hx]; exact (ext_hi _ _ _ _ rfl).trans ((ext_hi _ _ _ _ rfl).trans ((ext_hi _ _ _ _ rfl).trans ((ext_lo _ _ _ _ rfl).trans (ext_all _))))
  have f4 : wd.extractLsb' 10 7 = a := by rw [← hx]; exact (ext_hi _ _ _ _ rfl).trans ((ext_hi _ _ _ _ rfl).trans ((ext_lo _ _ _ _ rfl).trans (ext_all _)))
  have f5 : wd.extractLsb' 3 7 = b := by rw [← hx]; exact (ext_hi _ _ _ _ rfl).trans ((ext_lo _ _ _ _ rfl).trans (ext_all _))
  have f6 : wd.extractLsb' 0 3 = f := by rw [← hx]; exact (ext_lo _ _ _ _ rfl).trans (ext_all _)
  have bredAdd : wd.getLsbD 20 = true := by rw [← hx]; exact (bit_hi _ _ _ rfl).trans ((bit_hi _ _ _ rfl).trans ((bit_hi _ _ _ rfl).trans ((bit_lo _ _ _ rfl).trans rfl)))
  have gredAdd : wd.extractLsb' 18 5 ≠ 0x0#5 := field_ne (k := 2) bredAdd rfl (by decide)
  refine decode_row f1 rfl ?_
  refine firstRow_skip (if_neg fun hc => gredAdd hc) ?_
  refine firstRow_skip (if_neg fun hc => absurd (f3.symm.trans hc) (by decide)) ?_
  refine firstRow_skip (if_neg fun hc => absurd (f3.symm.trans hc) (by decide)) ?_
  refine firstRow_skip (if_neg fun hc => absurd (f3.symm.trans hc) (by decide)) ?_
  refine firstRow_skip (if_neg fun hc => absurd (f3.symm.trans hc) (by decide)) ?_
  refine firstRow_skip (if_neg fun hc => absurd (f3.symm.trans hc) (by decide)) ?_
  refine firstRow_skip (if_neg fun hc => absurd (f3.symm.trans hc) (by decide)) ?_
  refine firstRow_skip (if_neg fun hc => absurd (f3.symm.trans hc) (by decide)) ?_
  exact firstRow_hit (by simp only [rowRedXor, Sys2Proof.sw, f0, f2, f3, f4, f5, f6, reduceIte])

theorem RoundTrip.atomsAdd (sw : Bool) (d : BitVec 7) (a : BitVec 7) (b : BitVec 7) :
    RoundTrip.Statement (.atomsAdd sw d a b) := by
  intro _ wd hx
  simp only [Instr.encode, Option.some.injEq] at hx
  have f0 : wd.getLsbD 31 = sw := by rw [← hx]; exact (bit_hi _ _ _ rfl).trans ((bit_hi _ _ _ rfl).trans ((bit_hi _ _ _ rfl).trans ((bit_hi _ _ _ rfl).trans ((bit_hi _ _ _ rfl).trans (bit_one _)))))
  have f1 : wd.extractLsb' 24 7 = 0x52#7 := by rw [← hx]; exact (ext_hi _ _ _ _ rfl).trans ((ext_hi _ _ _ _ rfl).trans ((ext_hi _ _ _ _ rfl).trans ((ext_hi _ _ _ _ rfl).trans ((ext_lo _ _ _ _ rfl).trans (ext_all _)))))
  have f2 : wd.extractLsb' 17 7 = d := by rw [← hx]; exact (ext_hi _ _ _ _ rfl).trans ((ext_hi _ _ _ _ rfl).trans ((ext_hi _ _ _ _ rfl).trans ((ext_lo _ _ _ _ rfl).trans (ext_all _))))
  have f3 : wd.extractLsb' 10 7 = a := by rw [← hx]; exact (ext_hi _ _ _ _ rfl).trans ((ext_hi _ _ _ _ rfl).trans ((ext_lo _ _ _ _ rfl).trans (ext_all _)))
  have f4 : wd.extractLsb' 3 7 = b := by rw [← hx]; exact (ext_hi _ _ _ _ rfl).trans ((ext_lo _ _ _ _ rfl).trans (ext_all _))
  have f5 : wd.extractLsb' 0 3 = 0x0#3 := by rw [← hx]; exact (ext_lo _ _ _ _ rfl).trans (ext_all _)
  refine decode_row f1 rfl ?_
  exact firstRow_hit (by simp only [rowAtomsAdd, Sys2Proof.sw, f0, f2, f3, f4, f5, reduceIte])

theorem RoundTrip.atomsMinI32 (sw : Bool) (d : BitVec 7) (a : BitVec 7) (b : BitVec 7) :
    RoundTrip.Statement (.atomsMinI32 sw d a b) := by
  intro _ wd hx
  simp only [Instr.encode, Option.some.injEq] at hx
  have f0 : wd.getLsbD 31 = sw := by rw [← hx]; exact (bit_hi _ _ _ rfl).trans ((bit_hi _ _ _ rfl).trans ((bit_hi _ _ _ rfl).trans ((bit_hi _ _ _ rfl).trans ((bit_hi _ _ _ rfl).trans (bit_one _)))))
  have f1 : wd.extractLsb' 24 7 = 0x52#7 := by rw [← hx]; exact (ext_hi _ _ _ _ rfl).trans ((ext_hi _ _ _ _ rfl).trans ((ext_hi _ _ _ _ rfl).trans ((ext_hi _ _ _ _ rfl).trans ((ext_lo _ _ _ _ rfl).trans (ext_all _)))))
  have f2 : wd.extractLsb' 17 7 = d := by rw [← hx]; exact (ext_hi _ _ _ _ rfl).trans ((ext_hi _ _ _ _ rfl).trans ((ext_hi _ _ _ _ rfl).trans ((ext_lo _ _ _ _ rfl).trans (ext_all _))))
  have f3 : wd.extractLsb' 10 7 = a := by rw [← hx]; exact (ext_hi _ _ _ _ rfl).trans ((ext_hi _ _ _ _ rfl).trans ((ext_lo _ _ _ _ rfl).trans (ext_all _)))
  have f4 : wd.extractLsb' 3 7 = b := by rw [← hx]; exact (ext_hi _ _ _ _ rfl).trans ((ext_lo _ _ _ _ rfl).trans (ext_all _))
  have f5 : wd.extractLsb' 0 3 = 0x1#3 := by rw [← hx]; exact (ext_lo _ _ _ _ rfl).trans (ext_all _)
  refine decode_row f1 rfl ?_
  refine firstRow_skip (if_neg fun hc => absurd (f5.symm.trans hc) (by decide)) ?_
  exact firstRow_hit (by simp only [rowAtomsMinI32, Sys2Proof.sw, f0, f2, f3, f4, f5, reduceIte])

theorem RoundTrip.atomsMaxI32 (sw : Bool) (d : BitVec 7) (a : BitVec 7) (b : BitVec 7) :
    RoundTrip.Statement (.atomsMaxI32 sw d a b) := by
  intro _ wd hx
  simp only [Instr.encode, Option.some.injEq] at hx
  have f0 : wd.getLsbD 31 = sw := by rw [← hx]; exact (bit_hi _ _ _ rfl).trans ((bit_hi _ _ _ rfl).trans ((bit_hi _ _ _ rfl).trans ((bit_hi _ _ _ rfl).trans ((bit_hi _ _ _ rfl).trans (bit_one _)))))
  have f1 : wd.extractLsb' 24 7 = 0x52#7 := by rw [← hx]; exact (ext_hi _ _ _ _ rfl).trans ((ext_hi _ _ _ _ rfl).trans ((ext_hi _ _ _ _ rfl).trans ((ext_hi _ _ _ _ rfl).trans ((ext_lo _ _ _ _ rfl).trans (ext_all _)))))
  have f2 : wd.extractLsb' 17 7 = d := by rw [← hx]; exact (ext_hi _ _ _ _ rfl).trans ((ext_hi _ _ _ _ rfl).trans ((ext_hi _ _ _ _ rfl).trans ((ext_lo _ _ _ _ rfl).trans (ext_all _))))
  have f3 : wd.extractLsb' 10 7 = a := by rw [← hx]; exact (ext_hi _ _ _ _ rfl).trans ((ext_hi _ _ _ _ rfl).trans ((ext_lo _ _ _ _ rfl).trans (ext_all _)))
  have f4 : wd.extractLsb' 3 7 = b := by rw [← hx]; exact (ext_hi _ _ _ _ rfl).trans ((ext_lo _ _ _ _ rfl).trans (ext_all _))
  have f5 : wd.extractLsb' 0 3 = 0x2#3 := by rw [← hx]; exact (ext_lo _ _ _ _ rfl).trans (ext_all _)
  refine decode_row f1 rfl ?_
  refine firstRow_skip (if_neg fun hc => absurd (f5.symm.trans hc) (by decide)) ?_
  refine firstRow_skip (if_neg fun hc => absurd (f5.symm.trans hc) (by decide)) ?_
  exact firstRow_hit (by simp only [rowAtomsMaxI32, Sys2Proof.sw, f0, f2, f3, f4, f5, reduceIte])

theorem RoundTrip.atomsMinN32 (sw : Bool) (d : BitVec 7) (a : BitVec 7) (b : BitVec 7) :
    RoundTrip.Statement (.atomsMinN32 sw d a b) := by
  intro _ wd hx
  simp only [Instr.encode, Option.some.injEq] at hx
  have f0 : wd.getLsbD 31 = sw := by rw [← hx]; exact (bit_hi _ _ _ rfl).trans ((bit_hi _ _ _ rfl).trans ((bit_hi _ _ _ rfl).trans ((bit_hi _ _ _ rfl).trans ((bit_hi _ _ _ rfl).trans (bit_one _)))))
  have f1 : wd.extractLsb' 24 7 = 0x52#7 := by rw [← hx]; exact (ext_hi _ _ _ _ rfl).trans ((ext_hi _ _ _ _ rfl).trans ((ext_hi _ _ _ _ rfl).trans ((ext_hi _ _ _ _ rfl).trans ((ext_lo _ _ _ _ rfl).trans (ext_all _)))))
  have f2 : wd.extractLsb' 17 7 = d := by rw [← hx]; exact (ext_hi _ _ _ _ rfl).trans ((ext_hi _ _ _ _ rfl).trans ((ext_hi _ _ _ _ rfl).trans ((ext_lo _ _ _ _ rfl).trans (ext_all _))))
  have f3 : wd.extractLsb' 10 7 = a := by rw [← hx]; exact (ext_hi _ _ _ _ rfl).trans ((ext_hi _ _ _ _ rfl).trans ((ext_lo _ _ _ _ rfl).trans (ext_all _)))
  have f4 : wd.extractLsb' 3 7 = b := by rw [← hx]; exact (ext_hi _ _ _ _ rfl).trans ((ext_lo _ _ _ _ rfl).trans (ext_all _))
  have f5 : wd.extractLsb' 0 3 = 0x3#3 := by rw [← hx]; exact (ext_lo _ _ _ _ rfl).trans (ext_all _)
  refine decode_row f1 rfl ?_
  refine firstRow_skip (if_neg fun hc => absurd (f5.symm.trans hc) (by decide)) ?_
  refine firstRow_skip (if_neg fun hc => absurd (f5.symm.trans hc) (by decide)) ?_
  refine firstRow_skip (if_neg fun hc => absurd (f5.symm.trans hc) (by decide)) ?_
  exact firstRow_hit (by simp only [rowAtomsMinN32, Sys2Proof.sw, f0, f2, f3, f4, f5, reduceIte])

theorem RoundTrip.atomsMaxN32 (sw : Bool) (d : BitVec 7) (a : BitVec 7) (b : BitVec 7) :
    RoundTrip.Statement (.atomsMaxN32 sw d a b) := by
  intro _ wd hx
  simp only [Instr.encode, Option.some.injEq] at hx
  have f0 : wd.getLsbD 31 = sw := by rw [← hx]; exact (bit_hi _ _ _ rfl).trans ((bit_hi _ _ _ rfl).trans ((bit_hi _ _ _ rfl).trans ((bit_hi _ _ _ rfl).trans ((bit_hi _ _ _ rfl).trans (bit_one _)))))
  have f1 : wd.extractLsb' 24 7 = 0x52#7 := by rw [← hx]; exact (ext_hi _ _ _ _ rfl).trans ((ext_hi _ _ _ _ rfl).trans ((ext_hi _ _ _ _ rfl).trans ((ext_hi _ _ _ _ rfl).trans ((ext_lo _ _ _ _ rfl).trans (ext_all _)))))
  have f2 : wd.extractLsb' 17 7 = d := by rw [← hx]; exact (ext_hi _ _ _ _ rfl).trans ((ext_hi _ _ _ _ rfl).trans ((ext_hi _ _ _ _ rfl).trans ((ext_lo _ _ _ _ rfl).trans (ext_all _))))
  have f3 : wd.extractLsb' 10 7 = a := by rw [← hx]; exact (ext_hi _ _ _ _ rfl).trans ((ext_hi _ _ _ _ rfl).trans ((ext_lo _ _ _ _ rfl).trans (ext_all _)))
  have f4 : wd.extractLsb' 3 7 = b := by rw [← hx]; exact (ext_hi _ _ _ _ rfl).trans ((ext_lo _ _ _ _ rfl).trans (ext_all _))
  have f5 : wd.extractLsb' 0 3 = 0x4#3 := by rw [← hx]; exact (ext_lo _ _ _ _ rfl).trans (ext_all _)
  refine decode_row f1 rfl ?_
  refine firstRow_skip (if_neg fun hc => absurd (f5.symm.trans hc) (by decide)) ?_
  refine firstRow_skip (if_neg fun hc => absurd (f5.symm.trans hc) (by decide)) ?_
  refine firstRow_skip (if_neg fun hc => absurd (f5.symm.trans hc) (by decide)) ?_
  refine firstRow_skip (if_neg fun hc => absurd (f5.symm.trans hc) (by decide)) ?_
  exact firstRow_hit (by simp only [rowAtomsMaxN32, Sys2Proof.sw, f0, f2, f3, f4, f5, reduceIte])

theorem RoundTrip.atomsAnd (sw : Bool) (d : BitVec 7) (a : BitVec 7) (b : BitVec 7) :
    RoundTrip.Statement (.atomsAnd sw d a b) := by
  intro _ wd hx
  simp only [Instr.encode, Option.some.injEq] at hx
  have f0 : wd.getLsbD 31 = sw := by rw [← hx]; exact (bit_hi _ _ _ rfl).trans ((bit_hi _ _ _ rfl).trans ((bit_hi _ _ _ rfl).trans ((bit_hi _ _ _ rfl).trans ((bit_hi _ _ _ rfl).trans (bit_one _)))))
  have f1 : wd.extractLsb' 24 7 = 0x52#7 := by rw [← hx]; exact (ext_hi _ _ _ _ rfl).trans ((ext_hi _ _ _ _ rfl).trans ((ext_hi _ _ _ _ rfl).trans ((ext_hi _ _ _ _ rfl).trans ((ext_lo _ _ _ _ rfl).trans (ext_all _)))))
  have f2 : wd.extractLsb' 17 7 = d := by rw [← hx]; exact (ext_hi _ _ _ _ rfl).trans ((ext_hi _ _ _ _ rfl).trans ((ext_hi _ _ _ _ rfl).trans ((ext_lo _ _ _ _ rfl).trans (ext_all _))))
  have f3 : wd.extractLsb' 10 7 = a := by rw [← hx]; exact (ext_hi _ _ _ _ rfl).trans ((ext_hi _ _ _ _ rfl).trans ((ext_lo _ _ _ _ rfl).trans (ext_all _)))
  have f4 : wd.extractLsb' 3 7 = b := by rw [← hx]; exact (ext_hi _ _ _ _ rfl).trans ((ext_lo _ _ _ _ rfl).trans (ext_all _))
  have f5 : wd.extractLsb' 0 3 = 0x5#3 := by rw [← hx]; exact (ext_lo _ _ _ _ rfl).trans (ext_all _)
  refine decode_row f1 rfl ?_
  refine firstRow_skip (if_neg fun hc => absurd (f5.symm.trans hc) (by decide)) ?_
  refine firstRow_skip (if_neg fun hc => absurd (f5.symm.trans hc) (by decide)) ?_
  refine firstRow_skip (if_neg fun hc => absurd (f5.symm.trans hc) (by decide)) ?_
  refine firstRow_skip (if_neg fun hc => absurd (f5.symm.trans hc) (by decide)) ?_
  refine firstRow_skip (if_neg fun hc => absurd (f5.symm.trans hc) (by decide)) ?_
  exact firstRow_hit (by simp only [rowAtomsAnd, Sys2Proof.sw, f0, f2, f3, f4, f5, reduceIte])

theorem RoundTrip.atomsOr (sw : Bool) (d : BitVec 7) (a : BitVec 7) (b : BitVec 7) :
    RoundTrip.Statement (.atomsOr sw d a b) := by
  intro _ wd hx
  simp only [Instr.encode, Option.some.injEq] at hx
  have f0 : wd.getLsbD 31 = sw := by rw [← hx]; exact (bit_hi _ _ _ rfl).trans ((bit_hi _ _ _ rfl).trans ((bit_hi _ _ _ rfl).trans ((bit_hi _ _ _ rfl).trans ((bit_hi _ _ _ rfl).trans (bit_one _)))))
  have f1 : wd.extractLsb' 24 7 = 0x52#7 := by rw [← hx]; exact (ext_hi _ _ _ _ rfl).trans ((ext_hi _ _ _ _ rfl).trans ((ext_hi _ _ _ _ rfl).trans ((ext_hi _ _ _ _ rfl).trans ((ext_lo _ _ _ _ rfl).trans (ext_all _)))))
  have f2 : wd.extractLsb' 17 7 = d := by rw [← hx]; exact (ext_hi _ _ _ _ rfl).trans ((ext_hi _ _ _ _ rfl).trans ((ext_hi _ _ _ _ rfl).trans ((ext_lo _ _ _ _ rfl).trans (ext_all _))))
  have f3 : wd.extractLsb' 10 7 = a := by rw [← hx]; exact (ext_hi _ _ _ _ rfl).trans ((ext_hi _ _ _ _ rfl).trans ((ext_lo _ _ _ _ rfl).trans (ext_all _)))
  have f4 : wd.extractLsb' 3 7 = b := by rw [← hx]; exact (ext_hi _ _ _ _ rfl).trans ((ext_lo _ _ _ _ rfl).trans (ext_all _))
  have f5 : wd.extractLsb' 0 3 = 0x6#3 := by rw [← hx]; exact (ext_lo _ _ _ _ rfl).trans (ext_all _)
  refine decode_row f1 rfl ?_
  refine firstRow_skip (if_neg fun hc => absurd (f5.symm.trans hc) (by decide)) ?_
  refine firstRow_skip (if_neg fun hc => absurd (f5.symm.trans hc) (by decide)) ?_
  refine firstRow_skip (if_neg fun hc => absurd (f5.symm.trans hc) (by decide)) ?_
  refine firstRow_skip (if_neg fun hc => absurd (f5.symm.trans hc) (by decide)) ?_
  refine firstRow_skip (if_neg fun hc => absurd (f5.symm.trans hc) (by decide)) ?_
  refine firstRow_skip (if_neg fun hc => absurd (f5.symm.trans hc) (by decide)) ?_
  exact firstRow_hit (by simp only [rowAtomsOr, Sys2Proof.sw, f0, f2, f3, f4, f5, reduceIte])

theorem RoundTrip.atomsExch (sw : Bool) (d : BitVec 7) (a : BitVec 7) (b : BitVec 7) :
    RoundTrip.Statement (.atomsExch sw d a b) := by
  intro _ wd hx
  simp only [Instr.encode, Option.some.injEq] at hx
  have f0 : wd.getLsbD 31 = sw := by rw [← hx]; exact (bit_hi _ _ _ rfl).trans ((bit_hi _ _ _ rfl).trans ((bit_hi _ _ _ rfl).trans ((bit_hi _ _ _ rfl).trans ((bit_hi _ _ _ rfl).trans (bit_one _)))))
  have f1 : wd.extractLsb' 24 7 = 0x52#7 := by rw [← hx]; exact (ext_hi _ _ _ _ rfl).trans ((ext_hi _ _ _ _ rfl).trans ((ext_hi _ _ _ _ rfl).trans ((ext_hi _ _ _ _ rfl).trans ((ext_lo _ _ _ _ rfl).trans (ext_all _)))))
  have f2 : wd.extractLsb' 17 7 = d := by rw [← hx]; exact (ext_hi _ _ _ _ rfl).trans ((ext_hi _ _ _ _ rfl).trans ((ext_hi _ _ _ _ rfl).trans ((ext_lo _ _ _ _ rfl).trans (ext_all _))))
  have f3 : wd.extractLsb' 10 7 = a := by rw [← hx]; exact (ext_hi _ _ _ _ rfl).trans ((ext_hi _ _ _ _ rfl).trans ((ext_lo _ _ _ _ rfl).trans (ext_all _)))
  have f4 : wd.extractLsb' 3 7 = b := by rw [← hx]; exact (ext_hi _ _ _ _ rfl).trans ((ext_lo _ _ _ _ rfl).trans (ext_all _))
  have f5 : wd.extractLsb' 0 3 = 0x7#3 := by rw [← hx]; exact (ext_lo _ _ _ _ rfl).trans (ext_all _)
  refine decode_row f1 rfl ?_
  refine firstRow_skip (if_neg fun hc => absurd (f5.symm.trans hc) (by decide)) ?_
  refine firstRow_skip (if_neg fun hc => absurd (f5.symm.trans hc) (by decide)) ?_
  refine firstRow_skip (if_neg fun hc => absurd (f5.symm.trans hc) (by decide)) ?_
  refine firstRow_skip (if_neg fun hc => absurd (f5.symm.trans hc) (by decide)) ?_
  refine firstRow_skip (if_neg fun hc => absurd (f5.symm.trans hc) (by decide)) ?_
  refine firstRow_skip (if_neg fun hc => absurd (f5.symm.trans hc) (by decide)) ?_
  refine firstRow_skip (if_neg fun hc => absurd (f5.symm.trans hc) (by decide)) ?_
  exact firstRow_hit (by simp only [rowAtomsExch, Sys2Proof.sw, f0, f2, f3, f4, f5, reduceIte])

theorem RoundTrip.fenceAcq (sw : Bool) (m : BitVec 4) (f : BitVec 3) :
    RoundTrip.Statement (.fenceAcq sw m f) := by
  intro _ wd hx
  simp only [Instr.encode, Option.some.injEq] at hx
  have f0 : wd.getLsbD 31 = sw := by rw [← hx]; exact (bit_hi _ _ _ rfl).trans ((bit_hi _ _ _ rfl).trans ((bit_hi _ _ _ rfl).trans ((bit_hi _ _ _ rfl).trans ((bit_hi _ _ _ rfl).trans (bit_one _)))))
  have f1 : wd.extractLsb' 24 7 = 0x53#7 := by rw [← hx]; exact (ext_hi _ _ _ _ rfl).trans ((ext_hi _ _ _ _ rfl).trans ((ext_hi _ _ _ _ rfl).trans ((ext_hi _ _ _ _ rfl).trans ((ext_lo _ _ _ _ rfl).trans (ext_all _)))))
  have f2 : wd.extractLsb' 21 3 = 0x0#3 := by rw [← hx]; exact (ext_hi _ _ _ _ rfl).trans ((ext_hi _ _ _ _ rfl).trans ((ext_hi _ _ _ _ rfl).trans ((ext_lo _ _ _ _ rfl).trans (ext_all _))))
  have f3 : wd.extractLsb' 17 4 = m := by rw [← hx]; exact (ext_hi _ _ _ _ rfl).trans ((ext_hi _ _ _ _ rfl).trans ((ext_lo _ _ _ _ rfl).trans (ext_all _)))
  have f4 : wd.extractLsb' 3 14 = 0x80#14 := by rw [← hx]; exact (ext_hi _ _ _ _ rfl).trans ((ext_lo _ _ _ _ rfl).trans (ext_all _))
  have f5 : wd.extractLsb' 0 3 = f := by rw [← hx]; exact (ext_lo _ _ _ _ rfl).trans (ext_all _)
  refine decode_row f1 rfl ?_
  exact firstRow_hit (by simp only [rowFenceAcq, Sys2Proof.sw, f0, f2, f3, f4, f5, and_self, reduceIte])

theorem RoundTrip.fenceRel (sw : Bool) (m : BitVec 4) (f : BitVec 3) :
    RoundTrip.Statement (.fenceRel sw m f) := by
  intro _ wd hx
  simp only [Instr.encode, Option.some.injEq] at hx
  have f0 : wd.getLsbD 31 = sw := by rw [← hx]; exact (bit_hi _ _ _ rfl).trans ((bit_hi _ _ _ rfl).trans ((bit_hi _ _ _ rfl).trans ((bit_hi _ _ _ rfl).trans ((bit_hi _ _ _ rfl).trans (bit_one _)))))
  have f1 : wd.extractLsb' 24 7 = 0x53#7 := by rw [← hx]; exact (ext_hi _ _ _ _ rfl).trans ((ext_hi _ _ _ _ rfl).trans ((ext_hi _ _ _ _ rfl).trans ((ext_hi _ _ _ _ rfl).trans ((ext_lo _ _ _ _ rfl).trans (ext_all _)))))
  have f2 : wd.extractLsb' 21 3 = 0x0#3 := by rw [← hx]; exact (ext_hi _ _ _ _ rfl).trans ((ext_hi _ _ _ _ rfl).trans ((ext_hi _ _ _ _ rfl).trans ((ext_lo _ _ _ _ rfl).trans (ext_all _))))
  have f3 : wd.extractLsb' 17 4 = m := by rw [← hx]; exact (ext_hi _ _ _ _ rfl).trans ((ext_hi _ _ _ _ rfl).trans ((ext_lo _ _ _ _ rfl).trans (ext_all _)))
  have f4 : wd.extractLsb' 3 14 = 0x100#14 := by rw [← hx]; exact (ext_hi _ _ _ _ rfl).trans ((ext_lo _ _ _ _ rfl).trans (ext_all _))
  have f5 : wd.extractLsb' 0 3 = f := by rw [← hx]; exact (ext_lo _ _ _ _ rfl).trans (ext_all _)
  refine decode_row f1 rfl ?_
  refine firstRow_skip (if_neg fun hc => absurd (f4.symm.trans hc.2) (by decide)) ?_
  exact firstRow_hit (by simp only [rowFenceRel, Sys2Proof.sw, f0, f2, f3, f4, f5, and_self, reduceIte])

theorem RoundTrip.fenceAr (sw : Bool) (m : BitVec 4) (f : BitVec 3) :
    RoundTrip.Statement (.fenceAr sw m f) := by
  intro _ wd hx
  simp only [Instr.encode, Option.some.injEq] at hx
  have f0 : wd.getLsbD 31 = sw := by rw [← hx]; exact (bit_hi _ _ _ rfl).trans ((bit_hi _ _ _ rfl).trans ((bit_hi _ _ _ rfl).trans ((bit_hi _ _ _ rfl).trans ((bit_hi _ _ _ rfl).trans (bit_one _)))))
  have f1 : wd.extractLsb' 24 7 = 0x53#7 := by rw [← hx]; exact (ext_hi _ _ _ _ rfl).trans ((ext_hi _ _ _ _ rfl).trans ((ext_hi _ _ _ _ rfl).trans ((ext_hi _ _ _ _ rfl).trans ((ext_lo _ _ _ _ rfl).trans (ext_all _)))))
  have f2 : wd.extractLsb' 21 3 = 0x0#3 := by rw [← hx]; exact (ext_hi _ _ _ _ rfl).trans ((ext_hi _ _ _ _ rfl).trans ((ext_hi _ _ _ _ rfl).trans ((ext_lo _ _ _ _ rfl).trans (ext_all _))))
  have f3 : wd.extractLsb' 17 4 = m := by rw [← hx]; exact (ext_hi _ _ _ _ rfl).trans ((ext_hi _ _ _ _ rfl).trans ((ext_lo _ _ _ _ rfl).trans (ext_all _)))
  have f4 : wd.extractLsb' 3 14 = 0x180#14 := by rw [← hx]; exact (ext_hi _ _ _ _ rfl).trans ((ext_lo _ _ _ _ rfl).trans (ext_all _))
  have f5 : wd.extractLsb' 0 3 = f := by rw [← hx]; exact (ext_lo _ _ _ _ rfl).trans (ext_all _)
  refine decode_row f1 rfl ?_
  refine firstRow_skip (if_neg fun hc => absurd (f4.symm.trans hc.2) (by decide)) ?_
  refine firstRow_skip (if_neg fun hc => absurd (f4.symm.trans hc.2) (by decide)) ?_
  exact firstRow_hit (by simp only [rowFenceAr, Sys2Proof.sw, f0, f2, f3, f4, f5, and_self, reduceIte])

theorem RoundTrip.ldr (sw : Bool) (d : BitVec 7) (a : BitVec 7) (z : AccSize) (p : BitVec 3) :
    RoundTrip.Statement (.ldr sw d a z p) := by
  intro _ wd hx
  simp only [Instr.encode, Option.some.injEq] at hx
  have f0 : wd.getLsbD 31 = sw := by rw [← hx]; exact (bit_hi _ _ _ rfl).trans ((bit_hi _ _ _ rfl).trans ((bit_hi _ _ _ rfl).trans ((bit_hi _ _ _ rfl).trans ((bit_hi _ _ _ rfl).trans ((bit_hi _ _ _ rfl).trans ((bit_hi _ _ _ rfl).trans (bit_one _)))))))
  have f1 : wd.extractLsb' 24 7 = 0x54#7 := by rw [← hx]; exact (ext_hi _ _ _ _ rfl).trans ((ext_hi _ _ _ _ rfl).trans ((ext_hi _ _ _ _ rfl).trans ((ext_hi _ _ _ _ rfl).trans ((ext_hi _ _ _ _ rfl).trans ((ext_hi _ _ _ _ rfl).trans ((ext_lo _ _ _ _ rfl).trans (ext_all _)))))))
  have f2 : wd.extractLsb' 17 7 = d := by rw [← hx]; exact (ext_hi _ _ _ _ rfl).trans ((ext_hi _ _ _ _ rfl).trans ((ext_hi _ _ _ _ rfl).trans ((ext_hi _ _ _ _ rfl).trans ((ext_hi _ _ _ _ rfl).trans ((ext_lo _ _ _ _ rfl).trans (ext_all _))))))
  have f3 : wd.extractLsb' 10 7 = a := by rw [← hx]; exact (ext_hi _ _ _ _ rfl).trans ((ext_hi _ _ _ _ rfl).trans ((ext_hi _ _ _ _ rfl).trans ((ext_hi _ _ _ _ rfl).trans ((ext_lo _ _ _ _ rfl).trans (ext_all _)))))
  have f4 : wd.extractLsb' 8 2 = z.code := by rw [← hx]; exact (ext_hi _ _ _ _ rfl).trans ((ext_hi _ _ _ _ rfl).trans ((ext_hi _ _ _ _ rfl).trans ((ext_lo _ _ _ _ rfl).trans (ext_all _))))
  have f5 : wd.extractLsb' 6 2 = 0x0#2 := by rw [← hx]; exact (ext_hi _ _ _ _ rfl).trans ((ext_hi _ _ _ _ rfl).trans ((ext_lo _ _ _ _ rfl).trans (ext_all _)))
  have f6 : wd.extractLsb' 3 3 = p := by rw [← hx]; exact (ext_hi _ _ _ _ rfl).trans ((ext_lo _ _ _ _ rfl).trans (ext_all _))
  have f7 : wd.extractLsb' 0 3 = 0x0#3 := by rw [← hx]; exact (ext_lo _ _ _ _ rfl).trans (ext_all _)
  refine decode_row f1 rfl ?_
  exact firstRow_hit (by simp only [rowLdr, Sys2Proof.sw, f0, f2, f3, f4, f5, f6, f7, AccSize_ofCode_code, Option.bind_some, and_self, reduceIte])

theorem RoundTrip.preq (sw : Bool) (a : BitVec 7) (i : BitVec 7) :
    RoundTrip.Statement (.preq sw a i) := by
  intro _ wd hx
  simp only [Instr.encode, Option.some.injEq] at hx
  have f0 : wd.getLsbD 31 = sw := by rw [← hx]; exact (bit_hi _ _ _ rfl).trans ((bit_hi _ _ _ rfl).trans ((bit_hi _ _ _ rfl).trans ((bit_hi _ _ _ rfl).trans ((bit_hi _ _ _ rfl).trans (bit_one _)))))
  have f1 : wd.extractLsb' 24 7 = 0x55#7 := by rw [← hx]; exact (ext_hi _ _ _ _ rfl).trans ((ext_hi _ _ _ _ rfl).trans ((ext_hi _ _ _ _ rfl).trans ((ext_hi _ _ _ _ rfl).trans ((ext_lo _ _ _ _ rfl).trans (ext_all _)))))
  have f2 : wd.extractLsb' 17 7 = 0x0#7 := by rw [← hx]; exact (ext_hi _ _ _ _ rfl).trans ((ext_hi _ _ _ _ rfl).trans ((ext_hi _ _ _ _ rfl).trans ((ext_lo _ _ _ _ rfl).trans (ext_all _))))
  have f3 : wd.extractLsb' 10 7 = a := by rw [← hx]; exact (ext_hi _ _ _ _ rfl).trans ((ext_hi _ _ _ _ rfl).trans ((ext_lo _ _ _ _ rfl).trans (ext_all _)))
  have f4 : wd.extractLsb' 3 7 = i := by rw [← hx]; exact (ext_hi _ _ _ _ rfl).trans ((ext_lo _ _ _ _ rfl).trans (ext_all _))
  have f5 : wd.extractLsb' 0 3 = 0x0#3 := by rw [← hx]; exact (ext_lo _ _ _ _ rfl).trans (ext_all _)
  refine decode_row f1 rfl ?_
  exact firstRow_hit (by simp only [rowPreq, Sys2Proof.sw, f0, f2, f3, f4, f5, and_self, reduceIte])

theorem RoundTrip.prefL1 (sw : Bool) (a : BitVec 7) (i : BitVec 7) :
    RoundTrip.Statement (.prefL1 sw a i) := by
  intro _ wd hx
  simp only [Instr.encode, Option.some.injEq] at hx
  have f0 : wd.getLsbD 31 = sw := by rw [← hx]; exact (bit_hi _ _ _ rfl).trans ((bit_hi _ _ _ rfl).trans ((bit_hi _ _ _ rfl).trans ((bit_hi _ _ _ rfl).trans ((bit_hi _ _ _ rfl).trans (bit_one _)))))
  have f1 : wd.extractLsb' 24 7 = 0x55#7 := by rw [← hx]; exact (ext_hi _ _ _ _ rfl).trans ((ext_hi _ _ _ _ rfl).trans ((ext_hi _ _ _ _ rfl).trans ((ext_hi _ _ _ _ rfl).trans ((ext_lo _ _ _ _ rfl).trans (ext_all _)))))
  have f2 : wd.extractLsb' 17 7 = 0x0#7 := by rw [← hx]; exact (ext_hi _ _ _ _ rfl).trans ((ext_hi _ _ _ _ rfl).trans ((ext_hi _ _ _ _ rfl).trans ((ext_lo _ _ _ _ rfl).trans (ext_all _))))
  have f3 : wd.extractLsb' 10 7 = a := by rw [← hx]; exact (ext_hi _ _ _ _ rfl).trans ((ext_hi _ _ _ _ rfl).trans ((ext_lo _ _ _ _ rfl).trans (ext_all _)))
  have f4 : wd.extractLsb' 3 7 = i := by rw [← hx]; exact (ext_hi _ _ _ _ rfl).trans ((ext_lo _ _ _ _ rfl).trans (ext_all _))
  have f5 : wd.extractLsb' 0 3 = 0x1#3 := by rw [← hx]; exact (ext_lo _ _ _ _ rfl).trans (ext_all _)
  refine decode_row f1 rfl ?_
  refine firstRow_skip (if_neg fun hc => absurd (f5.symm.trans hc.2) (by decide)) ?_
  exact firstRow_hit (by simp only [rowPrefL1, Sys2Proof.sw, f0, f2, f3, f4, f5, and_self, reduceIte])

theorem RoundTrip.prefL2 (sw : Bool) (a : BitVec 7) (i : BitVec 7) :
    RoundTrip.Statement (.prefL2 sw a i) := by
  intro _ wd hx
  simp only [Instr.encode, Option.some.injEq] at hx
  have f0 : wd.getLsbD 31 = sw := by rw [← hx]; exact (bit_hi _ _ _ rfl).trans ((bit_hi _ _ _ rfl).trans ((bit_hi _ _ _ rfl).trans ((bit_hi _ _ _ rfl).trans ((bit_hi _ _ _ rfl).trans (bit_one _)))))
  have f1 : wd.extractLsb' 24 7 = 0x55#7 := by rw [← hx]; exact (ext_hi _ _ _ _ rfl).trans ((ext_hi _ _ _ _ rfl).trans ((ext_hi _ _ _ _ rfl).trans ((ext_hi _ _ _ _ rfl).trans ((ext_lo _ _ _ _ rfl).trans (ext_all _)))))
  have f2 : wd.extractLsb' 17 7 = 0x0#7 := by rw [← hx]; exact (ext_hi _ _ _ _ rfl).trans ((ext_hi _ _ _ _ rfl).trans ((ext_hi _ _ _ _ rfl).trans ((ext_lo _ _ _ _ rfl).trans (ext_all _))))
  have f3 : wd.extractLsb' 10 7 = a := by rw [← hx]; exact (ext_hi _ _ _ _ rfl).trans ((ext_hi _ _ _ _ rfl).trans ((ext_lo _ _ _ _ rfl).trans (ext_all _)))
  have f4 : wd.extractLsb' 3 7 = i := by rw [← hx]; exact (ext_hi _ _ _ _ rfl).trans ((ext_lo _ _ _ _ rfl).trans (ext_all _))
  have f5 : wd.extractLsb' 0 3 = 0x2#3 := by rw [← hx]; exact (ext_lo _ _ _ _ rfl).trans (ext_all _)
  refine decode_row f1 rfl ?_
  refine firstRow_skip (if_neg fun hc => absurd (f5.symm.trans hc.2) (by decide)) ?_
  refine firstRow_skip (if_neg fun hc => absurd (f5.symm.trans hc.2) (by decide)) ?_
  exact firstRow_hit (by simp only [rowPrefL2, Sys2Proof.sw, f0, f2, f3, f4, f5, and_self, reduceIte])

theorem RoundTrip.prefMsc (sw : Bool) (a : BitVec 7) (i : BitVec 7) :
    RoundTrip.Statement (.prefMsc sw a i) := by
  intro _ wd hx
  simp only [Instr.encode, Option.some.injEq] at hx
  have f0 : wd.getLsbD 31 = sw := by rw [← hx]; exact (bit_hi _ _ _ rfl).trans ((bit_hi _ _ _ rfl).trans ((bit_hi _ _ _ rfl).trans ((bit_hi _ _ _ rfl).trans ((bit_hi _ _ _ rfl).trans (bit_one _)))))
  have f1 : wd.extractLsb' 24 7 = 0x55#7 := by rw [← hx]; exact (ext_hi _ _ _ _ rfl).trans ((ext_hi _ _ _ _ rfl).trans ((ext_hi _ _ _ _ rfl).trans ((ext_hi _ _ _ _ rfl).trans ((ext_lo _ _ _ _ rfl).trans (ext_all _)))))
  have f2 : wd.extractLsb' 17 7 = 0x0#7 := by rw [← hx]; exact (ext_hi _ _ _ _ rfl).trans ((ext_hi _ _ _ _ rfl).trans ((ext_hi _ _ _ _ rfl).trans ((ext_lo _ _ _ _ rfl).trans (ext_all _))))
  have f3 : wd.extractLsb' 10 7 = a := by rw [← hx]; exact (ext_hi _ _ _ _ rfl).trans ((ext_hi _ _ _ _ rfl).trans ((ext_lo _ _ _ _ rfl).trans (ext_all _)))
  have f4 : wd.extractLsb' 3 7 = i := by rw [← hx]; exact (ext_hi _ _ _ _ rfl).trans ((ext_lo _ _ _ _ rfl).trans (ext_all _))
  have f5 : wd.extractLsb' 0 3 = 0x3#3 := by rw [← hx]; exact (ext_lo _ _ _ _ rfl).trans (ext_all _)
  refine decode_row f1 rfl ?_
  refine firstRow_skip (if_neg fun hc => absurd (f5.symm.trans hc.2) (by decide)) ?_
  refine firstRow_skip (if_neg fun hc => absurd (f5.symm.trans hc.2) (by decide)) ?_
  refine firstRow_skip (if_neg fun hc => absurd (f5.symm.trans hc.2) (by decide)) ?_
  exact firstRow_hit (by simp only [rowPrefMsc, Sys2Proof.sw, f0, f2, f3, f4, f5, and_self, reduceIte])

theorem RoundTrip.linvLine (sw : Bool) (a : BitVec 7) (i : BitVec 7) :
    RoundTrip.Statement (.linvLine sw a i) := by
  intro _ wd hx
  simp only [Instr.encode, Option.some.injEq] at hx
  have f0 : wd.getLsbD 31 = sw := by rw [← hx]; exact (bit_hi _ _ _ rfl).trans ((bit_hi _ _ _ rfl).trans ((bit_hi _ _ _ rfl).trans ((bit_hi _ _ _ rfl).trans ((bit_hi _ _ _ rfl).trans (bit_one _)))))
  have f1 : wd.extractLsb' 24 7 = 0x55#7 := by rw [← hx]; exact (ext_hi _ _ _ _ rfl).trans ((ext_hi _ _ _ _ rfl).trans ((ext_hi _ _ _ _ rfl).trans ((ext_hi _ _ _ _ rfl).trans ((ext_lo _ _ _ _ rfl).trans (ext_all _)))))
  have f2 : wd.extractLsb' 17 7 = 0x0#7 := by rw [← hx]; exact (ext_hi _ _ _ _ rfl).trans ((ext_hi _ _ _ _ rfl).trans ((ext_hi _ _ _ _ rfl).trans ((ext_lo _ _ _ _ rfl).trans (ext_all _))))
  have f3 : wd.extractLsb' 10 7 = a := by rw [← hx]; exact (ext_hi _ _ _ _ rfl).trans ((ext_hi _ _ _ _ rfl).trans ((ext_lo _ _ _ _ rfl).trans (ext_all _)))
  have f4 : wd.extractLsb' 3 7 = i := by rw [← hx]; exact (ext_hi _ _ _ _ rfl).trans ((ext_lo _ _ _ _ rfl).trans (ext_all _))
  have f5 : wd.extractLsb' 0 3 = 0x4#3 := by rw [← hx]; exact (ext_lo _ _ _ _ rfl).trans (ext_all _)
  refine decode_row f1 rfl ?_
  refine firstRow_skip (if_neg fun hc => absurd (f5.symm.trans hc.2) (by decide)) ?_
  refine firstRow_skip (if_neg fun hc => absurd (f5.symm.trans hc.2) (by decide)) ?_
  refine firstRow_skip (if_neg fun hc => absurd (f5.symm.trans hc.2) (by decide)) ?_
  refine firstRow_skip (if_neg fun hc => absurd (f5.symm.trans hc.2) (by decide)) ?_
  exact firstRow_hit (by simp only [rowLinvLine, Sys2Proof.sw, f0, f2, f3, f4, f5, and_self, reduceIte])

theorem RoundTrip.linvCore (sw : Bool) :
    RoundTrip.Statement (.linvCore sw) := by
  intro _ wd hx
  simp only [Instr.encode, Option.some.injEq] at hx
  have f0 : wd.getLsbD 31 = sw := by rw [← hx]; exact (bit_hi _ _ _ rfl).trans ((bit_hi _ _ _ rfl).trans (bit_one _))
  have f1 : wd.extractLsb' 24 7 = 0x55#7 := by rw [← hx]; exact (ext_hi _ _ _ _ rfl).trans ((ext_lo _ _ _ _ rfl).trans (ext_all _))
  have f2 : wd.extractLsb' 0 24 = 0x5#24 := by rw [← hx]; exact (ext_lo _ _ _ _ rfl).trans (ext_all _)
  have bpreq : wd.getLsbD 0 = true := by rw [← hx]; exact (bit_lo _ _ _ rfl).trans rfl
  have gpreq : wd.extractLsb' 0 3 ≠ 0x0#3 := field_ne (k := 0) bpreq rfl (by decide)
  have bprefL1 : wd.getLsbD 2 = true := by rw [← hx]; exact (bit_lo _ _ _ rfl).trans rfl
  have gprefL1 : wd.extractLsb' 0 3 ≠ 0x1#3 := field_ne (k := 2) bprefL1 rfl (by decide)
  have bprefL2 : wd.getLsbD 0 = true := by rw [← hx]; exact (bit_lo _ _ _ rfl).trans rfl
  have gprefL2 : wd.extractLsb' 0 3 ≠ 0x2#3 := field_ne (k := 0) bprefL2 rfl (by decide)
  have bprefMsc : wd.getLsbD 1 = false := by rw [← hx]; exact (bit_lo _ _ _ rfl).trans rfl
  have gprefMsc : wd.extractLsb' 0 3 ≠ 0x3#3 := field_ne (k := 1) bprefMsc rfl (by decide)
  have blinvLine : wd.getLsbD 0 = true := by rw [← hx]; exact (bit_lo _ _ _ rfl).trans rfl
  have glinvLine : wd.extractLsb' 0 3 ≠ 0x4#3 := field_ne (k := 0) blinvLine rfl (by decide)
  refine decode_row f1 rfl ?_
  refine firstRow_skip (if_neg fun hc => gpreq hc.2) ?_
  refine firstRow_skip (if_neg fun hc => gprefL1 hc.2) ?_
  refine firstRow_skip (if_neg fun hc => gprefL2 hc.2) ?_
  refine firstRow_skip (if_neg fun hc => gprefMsc hc.2) ?_
  refine firstRow_skip (if_neg fun hc => glinvLine hc.2) ?_
  exact firstRow_hit (by simp only [rowLinvCore, Sys2Proof.sw, f0, f2, reduceIte])

theorem RoundTrip.linvCluster (sw : Bool) :
    RoundTrip.Statement (.linvCluster sw) := by
  intro _ wd hx
  simp only [Instr.encode, Option.some.injEq] at hx
  have f0 : wd.getLsbD 31 = sw := by rw [← hx]; exact (bit_hi _ _ _ rfl).trans ((bit_hi _ _ _ rfl).trans (bit_one _))
  have f1 : wd.extractLsb' 24 7 = 0x55#7 := by rw [← hx]; exact (ext_hi _ _ _ _ rfl).trans ((ext_lo _ _ _ _ rfl).trans (ext_all _))
  have f2 : wd.extractLsb' 0 24 = 0x6#24 := by rw [← hx]; exact (ext_lo _ _ _ _ rfl).trans (ext_all _)
  have bpreq : wd.getLsbD 1 = true := by rw [← hx]; exact (bit_lo _ _ _ rfl).trans rfl
  have gpreq : wd.extractLsb' 0 3 ≠ 0x0#3 := field_ne (k := 1) bpreq rfl (by decide)
  have bprefL1 : wd.getLsbD 0 = false := by rw [← hx]; exact (bit_lo _ _ _ rfl).trans rfl
  have gprefL1 : wd.extractLsb' 0 3 ≠ 0x1#3 := field_ne (k := 0) bprefL1 rfl (by decide)
  have bprefL2 : wd.getLsbD 2 = true := by rw [← hx]; exact (bit_lo _ _ _ rfl).trans rfl
  have gprefL2 : wd.extractLsb' 0 3 ≠ 0x2#3 := field_ne (k := 2) bprefL2 rfl (by decide)
  have bprefMsc : wd.getLsbD 0 = false := by rw [← hx]; exact (bit_lo _ _ _ rfl).trans rfl
  have gprefMsc : wd.extractLsb' 0 3 ≠ 0x3#3 := field_ne (k := 0) bprefMsc rfl (by decide)
  have blinvLine : wd.getLsbD 1 = true := by rw [← hx]; exact (bit_lo _ _ _ rfl).trans rfl
  have glinvLine : wd.extractLsb' 0 3 ≠ 0x4#3 := field_ne (k := 1) blinvLine rfl (by decide)
  refine decode_row f1 rfl ?_
  refine firstRow_skip (if_neg fun hc => gpreq hc.2) ?_
  refine firstRow_skip (if_neg fun hc => gprefL1 hc.2) ?_
  refine firstRow_skip (if_neg fun hc => gprefL2 hc.2) ?_
  refine firstRow_skip (if_neg fun hc => gprefMsc hc.2) ?_
  refine firstRow_skip (if_neg fun hc => glinvLine hc.2) ?_
  refine firstRow_skip (if_neg fun hc => absurd (f2.symm.trans hc) (by decide)) ?_
  exact firstRow_hit (by simp only [rowLinvCluster, Sys2Proof.sw, f0, f2, reduceIte])

theorem RoundTrip.barSync (sw : Bool) (x : BitVec 4) :
    RoundTrip.Statement (.barSync sw x) := by
  intro _ wd hx
  simp only [Instr.encode, Option.some.injEq] at hx
  have f0 : wd.getLsbD 31 = sw := by rw [← hx]; exact (bit_hi _ _ _ rfl).trans ((bit_hi _ _ _ rfl).trans ((bit_hi _ _ _ rfl).trans ((bit_hi _ _ _ rfl).trans (bit_one _))))
  have f1 : wd.extractLsb' 24 7 = 0x56#7 := by rw [← hx]; exact (ext_hi _ _ _ _ rfl).trans ((ext_hi _ _ _ _ rfl).trans ((ext_hi _ _ _ _ rfl).trans ((ext_lo _ _ _ _ rfl).trans (ext_all _))))
  have f2 : wd.extractLsb' 21 3 = 0x0#3 := by rw [← hx]; exact (ext_hi _ _ _ _ rfl).trans ((ext_hi _ _ _ _ rfl).trans ((ext_lo _ _ _ _ rfl).trans (ext_all _)))
  have f3 : wd.extractLsb' 17 4 = x := by rw [← hx]; exact (ext_hi _ _ _ _ rfl).trans ((ext_lo _ _ _ _ rfl).trans (ext_all _))
  have f4 : wd.extractLsb' 0 17 = 0x0#17 := by rw [← hx]; exact (ext_lo _ _ _ _ rfl).trans (ext_all _)
  refine decode_row f1 rfl ?_
  exact firstRow_hit (by simp only [rowBarSync, Sys2Proof.sw, f0, f2, f3, f4, and_self, reduceIte])

theorem RoundTrip.barArrive (sw : Bool) (x : BitVec 4) :
    RoundTrip.Statement (.barArrive sw x) := by
  intro _ wd hx
  simp only [Instr.encode, Option.some.injEq] at hx
  have f0 : wd.getLsbD 31 = sw := by rw [← hx]; exact (bit_hi _ _ _ rfl).trans ((bit_hi _ _ _ rfl).trans ((bit_hi _ _ _ rfl).trans ((bit_hi _ _ _ rfl).trans (bit_one _))))
  have f1 : wd.extractLsb' 24 7 = 0x56#7 := by rw [← hx]; exact (ext_hi _ _ _ _ rfl).trans ((ext_hi _ _ _ _ rfl).trans ((ext_hi _ _ _ _ rfl).trans ((ext_lo _ _ _ _ rfl).trans (ext_all _))))
  have f2 : wd.extractLsb' 21 3 = 0x0#3 := by rw [← hx]; exact (ext_hi _ _ _ _ rfl).trans ((ext_hi _ _ _ _ rfl).trans ((ext_lo _ _ _ _ rfl).trans (ext_all _)))
  have f3 : wd.extractLsb' 17 4 = x := by rw [← hx]; exact (ext_hi _ _ _ _ rfl).trans ((ext_lo _ _ _ _ rfl).trans (ext_all _))
  have f4 : wd.extractLsb' 0 17 = 0x1#17 := by rw [← hx]; exact (ext_lo _ _ _ _ rfl).trans (ext_all _)
  refine decode_row f1 rfl ?_
  refine firstRow_skip (if_neg fun hc => absurd (f4.symm.trans hc.2) (by decide)) ?_
  exact firstRow_hit (by simp only [rowBarArrive, Sys2Proof.sw, f0, f2, f3, f4, and_self, reduceIte])

theorem RoundTrip.barWait (sw : Bool) (x : BitVec 4) :
    RoundTrip.Statement (.barWait sw x) := by
  intro _ wd hx
  simp only [Instr.encode, Option.some.injEq] at hx
  have f0 : wd.getLsbD 31 = sw := by rw [← hx]; exact (bit_hi _ _ _ rfl).trans ((bit_hi _ _ _ rfl).trans ((bit_hi _ _ _ rfl).trans ((bit_hi _ _ _ rfl).trans (bit_one _))))
  have f1 : wd.extractLsb' 24 7 = 0x56#7 := by rw [← hx]; exact (ext_hi _ _ _ _ rfl).trans ((ext_hi _ _ _ _ rfl).trans ((ext_hi _ _ _ _ rfl).trans ((ext_lo _ _ _ _ rfl).trans (ext_all _))))
  have f2 : wd.extractLsb' 21 3 = 0x0#3 := by rw [← hx]; exact (ext_hi _ _ _ _ rfl).trans ((ext_hi _ _ _ _ rfl).trans ((ext_lo _ _ _ _ rfl).trans (ext_all _)))
  have f3 : wd.extractLsb' 17 4 = x := by rw [← hx]; exact (ext_hi _ _ _ _ rfl).trans ((ext_lo _ _ _ _ rfl).trans (ext_all _))
  have f4 : wd.extractLsb' 0 17 = 0x2#17 := by rw [← hx]; exact (ext_lo _ _ _ _ rfl).trans (ext_all _)
  refine decode_row f1 rfl ?_
  refine firstRow_skip (if_neg fun hc => absurd (f4.symm.trans hc.2) (by decide)) ?_
  refine firstRow_skip (if_neg fun hc => absurd (f4.symm.trans hc.2) (by decide)) ?_
  exact firstRow_hit (by simp only [rowBarWait, Sys2Proof.sw, f0, f2, f3, f4, and_self, reduceIte])

theorem RoundTrip.barset (sw : Bool) (x : BitVec 4) (a : BitVec 7) :
    RoundTrip.Statement (.barset sw x a) := by
  intro _ wd hx
  simp only [Instr.encode, Option.some.injEq] at hx
  have f0 : wd.getLsbD 31 = sw := by rw [← hx]; exact (bit_hi _ _ _ rfl).trans ((bit_hi _ _ _ rfl).trans ((bit_hi _ _ _ rfl).trans ((bit_hi _ _ _ rfl).trans ((bit_hi _ _ _ rfl).trans (bit_one _)))))
  have f1 : wd.extractLsb' 24 7 = 0x56#7 := by rw [← hx]; exact (ext_hi _ _ _ _ rfl).trans ((ext_hi _ _ _ _ rfl).trans ((ext_hi _ _ _ _ rfl).trans ((ext_hi _ _ _ _ rfl).trans ((ext_lo _ _ _ _ rfl).trans (ext_all _)))))
  have f2 : wd.extractLsb' 21 3 = 0x0#3 := by rw [← hx]; exact (ext_hi _ _ _ _ rfl).trans ((ext_hi _ _ _ _ rfl).trans ((ext_hi _ _ _ _ rfl).trans ((ext_lo _ _ _ _ rfl).trans (ext_all _))))
  have f3 : wd.extractLsb' 17 4 = x := by rw [← hx]; exact (ext_hi _ _ _ _ rfl).trans ((ext_hi _ _ _ _ rfl).trans ((ext_lo _ _ _ _ rfl).trans (ext_all _)))
  have f4 : wd.extractLsb' 10 7 = a := by rw [← hx]; exact (ext_hi _ _ _ _ rfl).trans ((ext_lo _ _ _ _ rfl).trans (ext_all _))
  have f5 : wd.extractLsb' 0 10 = 0x3#10 := by rw [← hx]; exact (ext_lo _ _ _ _ rfl).trans (ext_all _)
  have bbarSync : wd.getLsbD 0 = true := by rw [← hx]; exact (bit_lo _ _ _ rfl).trans rfl
  have gbarSync : wd.extractLsb' 0 17 ≠ 0x0#17 := field_ne (k := 0) bbarSync rfl (by decide)
  have bbarArrive : wd.getLsbD 1 = true := by rw [← hx]; exact (bit_lo _ _ _ rfl).trans rfl
  have gbarArrive : wd.extractLsb' 0 17 ≠ 0x1#17 := field_ne (k := 1) bbarArrive rfl (by decide)
  have bbarWait : wd.getLsbD 0 = true := by rw [← hx]; exact (bit_lo _ _ _ rfl).trans rfl
  have gbarWait : wd.extractLsb' 0 17 ≠ 0x2#17 := field_ne (k := 0) bbarWait rfl (by decide)
  refine decode_row f1 rfl ?_
  refine firstRow_skip (if_neg fun hc => gbarSync hc.2) ?_
  refine firstRow_skip (if_neg fun hc => gbarArrive hc.2) ?_
  refine firstRow_skip (if_neg fun hc => gbarWait hc.2) ?_
  exact firstRow_hit (by simp only [rowBarset, Sys2Proof.sw, f0, f2, f3, f4, f5, and_self, reduceIte])

theorem RoundTrip.gsync (sw : Bool) (a : BitVec 7) :
    RoundTrip.Statement (.gsync sw a) := by
  intro _ wd hx
  simp only [Instr.encode, Option.some.injEq] at hx
  have f0 : wd.getLsbD 31 = sw := by rw [← hx]; exact (bit_hi _ _ _ rfl).trans ((bit_hi _ _ _ rfl).trans ((bit_hi _ _ _ rfl).trans ((bit_hi _ _ _ rfl).trans (bit_one _))))
  have f1 : wd.extractLsb' 24 7 = 0x56#7 := by rw [← hx]; exact (ext_hi _ _ _ _ rfl).trans ((ext_hi _ _ _ _ rfl).trans ((ext_hi _ _ _ _ rfl).trans ((ext_lo _ _ _ _ rfl).trans (ext_all _))))
  have f2 : wd.extractLsb' 17 7 = 0x0#7 := by rw [← hx]; exact (ext_hi _ _ _ _ rfl).trans ((ext_hi _ _ _ _ rfl).trans ((ext_lo _ _ _ _ rfl).trans (ext_all _)))
  have f3 : wd.extractLsb' 10 7 = a := by rw [← hx]; exact (ext_hi _ _ _ _ rfl).trans ((ext_lo _ _ _ _ rfl).trans (ext_all _))
  have f4 : wd.extractLsb' 0 10 = 0x4#10 := by rw [← hx]; exact (ext_lo _ _ _ _ rfl).trans (ext_all _)
  have bbarSync : wd.getLsbD 2 = true := by rw [← hx]; exact (bit_lo _ _ _ rfl).trans rfl
  have gbarSync : wd.extractLsb' 0 17 ≠ 0x0#17 := field_ne (k := 2) bbarSync rfl (by decide)
  have bbarArrive : wd.getLsbD 0 = false := by rw [← hx]; exact (bit_lo _ _ _ rfl).trans rfl
  have gbarArrive : wd.extractLsb' 0 17 ≠ 0x1#17 := field_ne (k := 0) bbarArrive rfl (by decide)
  have bbarWait : wd.getLsbD 1 = false := by rw [← hx]; exact (bit_lo _ _ _ rfl).trans rfl
  have gbarWait : wd.extractLsb' 0 17 ≠ 0x2#17 := field_ne (k := 1) bbarWait rfl (by decide)
  refine decode_row f1 rfl ?_
  refine firstRow_skip (if_neg fun hc => gbarSync hc.2) ?_
  refine firstRow_skip (if_neg fun hc => gbarArrive hc.2) ?_
  refine firstRow_skip (if_neg fun hc => gbarWait hc.2) ?_
  refine firstRow_skip (if_neg fun hc => absurd (f4.symm.trans hc.2) (by decide)) ?_
  exact firstRow_hit (by simp only [rowGsync, Sys2Proof.sw, f0, f2, f3, f4, and_self, reduceIte])

theorem RoundTrip.gsyncImm (sw : Bool) (m : BitVec 14) :
    RoundTrip.Statement (.gsyncImm sw m) := by
  intro _ wd hx
  simp only [Instr.encode, Option.some.injEq] at hx
  have f0 : wd.getLsbD 31 = sw := by rw [← hx]; exact (bit_hi _ _ _ rfl).trans ((bit_hi _ _ _ rfl).trans ((bit_hi _ _ _ rfl).trans ((bit_hi _ _ _ rfl).trans (bit_one _))))
  have f1 : wd.extractLsb' 24 7 = 0x56#7 := by rw [← hx]; exact (ext_hi _ _ _ _ rfl).trans ((ext_hi _ _ _ _ rfl).trans ((ext_hi _ _ _ _ rfl).trans ((ext_lo _ _ _ _ rfl).trans (ext_all _))))
  have f2 : wd.extractLsb' 17 7 = 0x0#7 := by rw [← hx]; exact (ext_hi _ _ _ _ rfl).trans ((ext_hi _ _ _ _ rfl).trans ((ext_lo _ _ _ _ rfl).trans (ext_all _)))
  have f3 : wd.extractLsb' 3 14 = m := by rw [← hx]; exact (ext_hi _ _ _ _ rfl).trans ((ext_lo _ _ _ _ rfl).trans (ext_all _))
  have f4 : wd.extractLsb' 0 3 = 0x5#3 := by rw [← hx]; exact (ext_lo _ _ _ _ rfl).trans (ext_all _)
  have bbarSync : wd.getLsbD 0 = true := by rw [← hx]; exact (bit_lo _ _ _ rfl).trans rfl
  have gbarSync : wd.extractLsb' 0 17 ≠ 0x0#17 := field_ne (k := 0) bbarSync rfl (by decide)
  have bbarArrive : wd.getLsbD 2 = true := by rw [← hx]; exact (bit_lo _ _ _ rfl).trans rfl
  have gbarArrive : wd.extractLsb' 0 17 ≠ 0x1#17 := field_ne (k := 2) bbarArrive rfl (by decide)
  have bbarWait : wd.getLsbD 0 = true := by rw [← hx]; exact (bit_lo _ _ _ rfl).trans rfl
  have gbarWait : wd.extractLsb' 0 17 ≠ 0x2#17 := field_ne (k := 0) bbarWait rfl (by decide)
  have bbarset : wd.getLsbD 1 = false := by rw [← hx]; exact (bit_lo _ _ _ rfl).trans rfl
  have gbarset : wd.extractLsb' 0 10 ≠ 0x3#10 := field_ne (k := 1) bbarset rfl (by decide)
  have bgsync : wd.getLsbD 0 = true := by rw [← hx]; exact (bit_lo _ _ _ rfl).trans rfl
  have ggsync : wd.extractLsb' 0 10 ≠ 0x4#10 := field_ne (k := 0) bgsync rfl (by decide)
  refine decode_row f1 rfl ?_
  refine firstRow_skip (if_neg fun hc => gbarSync hc.2) ?_
  refine firstRow_skip (if_neg fun hc => gbarArrive hc.2) ?_
  refine firstRow_skip (if_neg fun hc => gbarWait hc.2) ?_
  refine firstRow_skip (if_neg fun hc => gbarset hc.2) ?_
  refine firstRow_skip (if_neg fun hc => ggsync hc.2) ?_
  exact firstRow_hit (by simp only [rowGsyncImm, Sys2Proof.sw, f0, f2, f3, f4, and_self, reduceIte])

theorem RoundTrip.ksetImm (sw : Bool) (k : BitVec 4) (c : BitVec 10) :
    RoundTrip.Statement (.ksetImm sw k c) := by
  intro _ wd hx
  simp only [Instr.encode, Option.some.injEq] at hx
  have f0 : wd.getLsbD 31 = sw := by rw [← hx]; exact (bit_hi _ _ _ rfl).trans ((bit_hi _ _ _ rfl).trans ((bit_hi _ _ _ rfl).trans ((bit_hi _ _ _ rfl).trans ((bit_hi _ _ _ rfl).trans ((bit_hi _ _ _ rfl).trans (bit_one _))))))
  have f1 : wd.extractLsb' 24 7 = 0x56#7 := by rw [← hx]; exact (ext_hi _ _ _ _ rfl).trans ((ext_hi _ _ _ _ rfl).trans ((ext_hi _ _ _ _ rfl).trans ((ext_hi _ _ _ _ rfl).trans ((ext_hi _ _ _ _ rfl).trans ((ext_lo _ _ _ _ rfl).trans (ext_all _))))))
  have f2 : wd.extractLsb' 21 3 = 0x0#3 := by rw [← hx]; exact (ext_hi _ _ _ _ rfl).trans ((ext_hi _ _ _ _ rfl).trans ((ext_hi _ _ _ _ rfl).trans ((ext_hi _ _ _ _ rfl).trans ((ext_lo _ _ _ _ rfl).trans (ext_all _)))))
  have f3 : wd.extractLsb' 17 4 = k := by rw [← hx]; exact (ext_hi _ _ _ _ rfl).trans ((ext_hi _ _ _ _ rfl).trans ((ext_hi _ _ _ _ rfl).trans ((ext_lo _ _ _ _ rfl).trans (ext_all _))))
  have f4 : wd.extractLsb' 13 4 = 0x0#4 := by rw [← hx]; exact (ext_hi _ _ _ _ rfl).trans ((ext_hi _ _ _ _ rfl).trans ((ext_lo _ _ _ _ rfl).trans (ext_all _)))
  have f5 : wd.extractLsb' 3 10 = c := by rw [← hx]; exact (ext_hi _ _ _ _ rfl).trans ((ext_lo _ _ _ _ rfl).trans (ext_all _))
  have f6 : wd.extractLsb' 0 3 = 0x6#3 := by rw [← hx]; exact (ext_lo _ _ _ _ rfl).trans (ext_all _)
  have bbarSync : wd.getLsbD 1 = true := by rw [← hx]; exact (bit_lo _ _ _ rfl).trans rfl
  have gbarSync : wd.extractLsb' 0 17 ≠ 0x0#17 := field_ne (k := 1) bbarSync rfl (by decide)
  have bbarArrive : wd.getLsbD 0 = false := by rw [← hx]; exact (bit_lo _ _ _ rfl).trans rfl
  have gbarArrive : wd.extractLsb' 0 17 ≠ 0x1#17 := field_ne (k := 0) bbarArrive rfl (by decide)
  have bbarWait : wd.getLsbD 2 = true := by rw [← hx]; exact (bit_lo _ _ _ rfl).trans rfl
  have gbarWait : wd.extractLsb' 0 17 ≠ 0x2#17 := field_ne (k := 2) bbarWait rfl (by decide)
  have bbarset : wd.getLsbD 0 = false := by rw [← hx]; exact (bit_lo _ _ _ rfl).trans rfl
  have gbarset : wd.extractLsb' 0 10 ≠ 0x3#10 := field_ne (k := 0) bbarset rfl (by decide)
  have bgsync : wd.getLsbD 1 = true := by rw [← hx]; exact (bit_lo _ _ _ rfl).trans rfl
  have ggsync : wd.extractLsb' 0 10 ≠ 0x4#10 := field_ne (k := 1) bgsync rfl (by decide)
  refine decode_row f1 rfl ?_
  refine firstRow_skip (if_neg fun hc => gbarSync hc.2) ?_
  refine firstRow_skip (if_neg fun hc => gbarArrive hc.2) ?_
  refine firstRow_skip (if_neg fun hc => gbarWait hc.2) ?_
  refine firstRow_skip (if_neg fun hc => gbarset hc.2) ?_
  refine firstRow_skip (if_neg fun hc => ggsync hc.2) ?_
  refine firstRow_skip (if_neg fun hc => absurd (f6.symm.trans hc.2) (by decide)) ?_
  exact firstRow_hit (by simp only [rowKsetImm, Sys2Proof.sw, f0, f2, f3, f4, f5, f6, and_self, reduceIte])

theorem RoundTrip.kset (sw : Bool) (k : BitVec 4) (a : BitVec 7) :
    RoundTrip.Statement (.kset sw k a) := by
  intro _ wd hx
  simp only [Instr.encode, Option.some.injEq] at hx
  have f0 : wd.getLsbD 31 = sw := by rw [← hx]; exact (bit_hi _ _ _ rfl).trans ((bit_hi _ _ _ rfl).trans ((bit_hi _ _ _ rfl).trans ((bit_hi _ _ _ rfl).trans ((bit_hi _ _ _ rfl).trans (bit_one _)))))
  have f1 : wd.extractLsb' 24 7 = 0x56#7 := by rw [← hx]; exact (ext_hi _ _ _ _ rfl).trans ((ext_hi _ _ _ _ rfl).trans ((ext_hi _ _ _ _ rfl).trans ((ext_hi _ _ _ _ rfl).trans ((ext_lo _ _ _ _ rfl).trans (ext_all _)))))
  have f2 : wd.extractLsb' 21 3 = 0x0#3 := by rw [← hx]; exact (ext_hi _ _ _ _ rfl).trans ((ext_hi _ _ _ _ rfl).trans ((ext_hi _ _ _ _ rfl).trans ((ext_lo _ _ _ _ rfl).trans (ext_all _))))
  have f3 : wd.extractLsb' 17 4 = k := by rw [← hx]; exact (ext_hi _ _ _ _ rfl).trans ((ext_hi _ _ _ _ rfl).trans ((ext_lo _ _ _ _ rfl).trans (ext_all _)))
  have f4 : wd.extractLsb' 10 7 = a := by rw [← hx]; exact (ext_hi _ _ _ _ rfl).trans ((ext_lo _ _ _ _ rfl).trans (ext_all _))
  have f5 : wd.extractLsb' 0 10 = 0x7#10 := by rw [← hx]; exact (ext_lo _ _ _ _ rfl).trans (ext_all _)
  have bbarSync : wd.getLsbD 0 = true := by rw [← hx]; exact (bit_lo _ _ _ rfl).trans rfl
  have gbarSync : wd.extractLsb' 0 17 ≠ 0x0#17 := field_ne (k := 0) bbarSync rfl (by decide)
  have bbarArrive : wd.getLsbD 1 = true := by rw [← hx]; exact (bit_lo _ _ _ rfl).trans rfl
  have gbarArrive : wd.extractLsb' 0 17 ≠ 0x1#17 := field_ne (k := 1) bbarArrive rfl (by decide)
  have bbarWait : wd.getLsbD 0 = true := by rw [← hx]; exact (bit_lo _ _ _ rfl).trans rfl
  have gbarWait : wd.extractLsb' 0 17 ≠ 0x2#17 := field_ne (k := 0) bbarWait rfl (by decide)
  have bgsyncImm : wd.getLsbD 1 = true := by rw [← hx]; exact (bit_lo _ _ _ rfl).trans rfl
  have ggsyncImm : wd.extractLsb' 0 3 ≠ 0x5#3 := field_ne (k := 1) bgsyncImm rfl (by decide)
  have bksetImm : wd.getLsbD 0 = true := by rw [← hx]; exact (bit_lo _ _ _ rfl).trans rfl
  have gksetImm : wd.extractLsb' 0 3 ≠ 0x6#3 := field_ne (k := 0) bksetImm rfl (by decide)
  refine decode_row f1 rfl ?_
  refine firstRow_skip (if_neg fun hc => gbarSync hc.2) ?_
  refine firstRow_skip (if_neg fun hc => gbarArrive hc.2) ?_
  refine firstRow_skip (if_neg fun hc => gbarWait hc.2) ?_
  refine firstRow_skip (if_neg fun hc => absurd (f5.symm.trans hc.2) (by decide)) ?_
  refine firstRow_skip (if_neg fun hc => absurd (f5.symm.trans hc.2) (by decide)) ?_
  refine firstRow_skip (if_neg fun hc => ggsyncImm hc.2) ?_
  refine firstRow_skip (if_neg fun hc => gksetImm hc.2.2) ?_
  exact firstRow_hit (by simp only [rowKset, Sys2Proof.sw, f0, f2, f3, f4, f5, and_self, reduceIte])

theorem RoundTrip.waitv (sw : Bool) (c : ICond) (g : Bool) (a : BitVec 7) (b : BitVec 7) (w : Width) :
    RoundTrip.Statement (.waitv sw c g a b w) := by
  intro _ wd hx
  simp only [Instr.encode, Option.some.injEq] at hx
  have f0 : wd.getLsbD 31 = sw := by rw [← hx]; exact (bit_hi _ _ _ rfl).trans ((bit_hi _ _ _ rfl).trans ((bit_hi _ _ _ rfl).trans ((bit_hi _ _ _ rfl).trans ((bit_hi _ _ _ rfl).trans ((bit_hi _ _ _ rfl).trans ((bit_hi _ _ _ rfl).trans ((bit_hi _ _ _ rfl).trans (bit_one _))))))))
  have f1 : wd.extractLsb' 24 7 = 0x57#7 := by rw [← hx]; exact (ext_hi _ _ _ _ rfl).trans ((ext_hi _ _ _ _ rfl).trans ((ext_hi _ _ _ _ rfl).trans ((ext_hi _ _ _ _ rfl).trans ((ext_hi _ _ _ _ rfl).trans ((ext_hi _ _ _ _ rfl).trans ((ext_hi _ _ _ _ rfl).trans ((ext_lo _ _ _ _ rfl).trans (ext_all _))))))))
  have f2 : wd.extractLsb' 21 3 = c.code := by rw [← hx]; exact (ext_hi _ _ _ _ rfl).trans ((ext_hi _ _ _ _ rfl).trans ((ext_hi _ _ _ _ rfl).trans ((ext_hi _ _ _ _ rfl).trans ((ext_hi _ _ _ _ rfl).trans ((ext_hi _ _ _ _ rfl).trans ((ext_lo _ _ _ _ rfl).trans (ext_all _)))))))
  have f3 : wd.getLsbD 20 = g := by rw [← hx]; exact (bit_hi _ _ _ rfl).trans ((bit_hi _ _ _ rfl).trans ((bit_hi _ _ _ rfl).trans ((bit_hi _ _ _ rfl).trans ((bit_hi _ _ _ rfl).trans ((bit_lo _ _ _ rfl).trans (bit_one _))))))
  have f4 : wd.extractLsb' 17 3 = 0x0#3 := by rw [← hx]; exact (ext_hi _ _ _ _ rfl).trans ((ext_hi _ _ _ _ rfl).trans ((ext_hi _ _ _ _ rfl).trans ((ext_hi _ _ _ _ rfl).trans ((ext_lo _ _ _ _ rfl).trans (ext_all _)))))
  have f5 : wd.extractLsb' 10 7 = a := by rw [← hx]; exact (ext_hi _ _ _ _ rfl).trans ((ext_hi _ _ _ _ rfl).trans ((ext_hi _ _ _ _ rfl).trans ((ext_lo _ _ _ _ rfl).trans (ext_all _))))
  have f6 : wd.extractLsb' 3 7 = b := by rw [← hx]; exact (ext_hi _ _ _ _ rfl).trans ((ext_hi _ _ _ _ rfl).trans ((ext_lo _ _ _ _ rfl).trans (ext_all _)))
  have f7 : wd.extractLsb' 1 2 = 0x0#2 := by rw [← hx]; exact (ext_hi _ _ _ _ rfl).trans ((ext_lo _ _ _ _ rfl).trans (ext_all _))
  have f8 : wd.extractLsb' 0 1 = w.code := by rw [← hx]; exact (ext_lo _ _ _ _ rfl).trans (ext_all _)
  refine decode_row f1 rfl ?_
  exact firstRow_hit (by simp only [rowWaitv, Sys2Proof.sw, f0, f2, f3, f4, f5, f6, f7, f8, ICond_ofCode_code, Width_ofCode_code, Option.bind_some, and_self, reduceIte])

theorem RoundTrip.signal (sw : Bool) (x : BitVec 4) (a : BitVec 7) :
    RoundTrip.Statement (.signal sw x a) := by
  intro _ wd hx
  simp only [Instr.encode, Option.some.injEq] at hx
  have f0 : wd.getLsbD 31 = sw := by rw [← hx]; exact (bit_hi _ _ _ rfl).trans ((bit_hi _ _ _ rfl).trans ((bit_hi _ _ _ rfl).trans ((bit_hi _ _ _ rfl).trans ((bit_hi _ _ _ rfl).trans (bit_one _)))))
  have f1 : wd.extractLsb' 24 7 = 0x57#7 := by rw [← hx]; exact (ext_hi _ _ _ _ rfl).trans ((ext_hi _ _ _ _ rfl).trans ((ext_hi _ _ _ _ rfl).trans ((ext_hi _ _ _ _ rfl).trans ((ext_lo _ _ _ _ rfl).trans (ext_all _)))))
  have f2 : wd.extractLsb' 21 3 = 0x0#3 := by rw [← hx]; exact (ext_hi _ _ _ _ rfl).trans ((ext_hi _ _ _ _ rfl).trans ((ext_hi _ _ _ _ rfl).trans ((ext_lo _ _ _ _ rfl).trans (ext_all _))))
  have f3 : wd.extractLsb' 17 4 = x := by rw [← hx]; exact (ext_hi _ _ _ _ rfl).trans ((ext_hi _ _ _ _ rfl).trans ((ext_lo _ _ _ _ rfl).trans (ext_all _)))
  have f4 : wd.extractLsb' 10 7 = a := by rw [← hx]; exact (ext_hi _ _ _ _ rfl).trans ((ext_lo _ _ _ _ rfl).trans (ext_all _))
  have f5 : wd.extractLsb' 0 10 = 0x2#10 := by rw [← hx]; exact (ext_lo _ _ _ _ rfl).trans (ext_all _)
  have bwaitv : wd.getLsbD 1 = true := by rw [← hx]; exact (bit_lo _ _ _ rfl).trans rfl
  have gwaitv : wd.extractLsb' 1 2 ≠ 0x0#2 := field_ne (k := 0) bwaitv rfl (by decide)
  refine decode_row f1 rfl ?_
  refine firstRow_skip (if_neg fun hc => gwaitv hc.2) ?_
  exact firstRow_hit (by simp only [rowSignal, Sys2Proof.sw, f0, f2, f3, f4, f5, and_self, reduceIte])

theorem RoundTrip.cpyin (sw : Bool) (x : BitVec 5) (a : BitVec 7) (b : BitVec 7) :
    RoundTrip.Statement (.cpyin sw x a b) := by
  intro _ wd hx
  simp only [Instr.encode, Option.some.injEq] at hx
  have f0 : wd.getLsbD 31 = sw := by rw [← hx]; exact (bit_hi _ _ _ rfl).trans ((bit_hi _ _ _ rfl).trans ((bit_hi _ _ _ rfl).trans ((bit_hi _ _ _ rfl).trans ((bit_hi _ _ _ rfl).trans ((bit_hi _ _ _ rfl).trans (bit_one _))))))
  have f1 : wd.extractLsb' 24 7 = 0x58#7 := by rw [← hx]; exact (ext_hi _ _ _ _ rfl).trans ((ext_hi _ _ _ _ rfl).trans ((ext_hi _ _ _ _ rfl).trans ((ext_hi _ _ _ _ rfl).trans ((ext_hi _ _ _ _ rfl).trans ((ext_lo _ _ _ _ rfl).trans (ext_all _))))))
  have f2 : wd.extractLsb' 22 2 = 0x0#2 := by rw [← hx]; exact (ext_hi _ _ _ _ rfl).trans ((ext_hi _ _ _ _ rfl).trans ((ext_hi _ _ _ _ rfl).trans ((ext_hi _ _ _ _ rfl).trans ((ext_lo _ _ _ _ rfl).trans (ext_all _)))))
  have f3 : wd.extractLsb' 17 5 = x := by rw [← hx]; exact (ext_hi _ _ _ _ rfl).trans ((ext_hi _ _ _ _ rfl).trans ((ext_hi _ _ _ _ rfl).trans ((ext_lo _ _ _ _ rfl).trans (ext_all _))))
  have f4 : wd.extractLsb' 10 7 = a := by rw [← hx]; exact (ext_hi _ _ _ _ rfl).trans ((ext_hi _ _ _ _ rfl).trans ((ext_lo _ _ _ _ rfl).trans (ext_all _)))
  have f5 : wd.extractLsb' 3 7 = b := by rw [← hx]; exact (ext_hi _ _ _ _ rfl).trans ((ext_lo _ _ _ _ rfl).trans (ext_all _))
  have f6 : wd.extractLsb' 0 3 = 0x0#3 := by rw [← hx]; exact (ext_lo _ _ _ _ rfl).trans (ext_all _)
  refine decode_row f1 rfl ?_
  exact firstRow_hit (by simp only [rowCpyin, Sys2Proof.sw, f0, f2, f3, f4, f5, f6, and_self, reduceIte])

theorem RoundTrip.cpyout (sw : Bool) (x : BitVec 5) (a : BitVec 7) (b : BitVec 7) :
    RoundTrip.Statement (.cpyout sw x a b) := by
  intro _ wd hx
  simp only [Instr.encode, Option.some.injEq] at hx
  have f0 : wd.getLsbD 31 = sw := by rw [← hx]; exact (bit_hi _ _ _ rfl).trans ((bit_hi _ _ _ rfl).trans ((bit_hi _ _ _ rfl).trans ((bit_hi _ _ _ rfl).trans ((bit_hi _ _ _ rfl).trans ((bit_hi _ _ _ rfl).trans (bit_one _))))))
  have f1 : wd.extractLsb' 24 7 = 0x59#7 := by rw [← hx]; exact (ext_hi _ _ _ _ rfl).trans ((ext_hi _ _ _ _ rfl).trans ((ext_hi _ _ _ _ rfl).trans ((ext_hi _ _ _ _ rfl).trans ((ext_hi _ _ _ _ rfl).trans ((ext_lo _ _ _ _ rfl).trans (ext_all _))))))
  have f2 : wd.extractLsb' 22 2 = 0x0#2 := by rw [← hx]; exact (ext_hi _ _ _ _ rfl).trans ((ext_hi _ _ _ _ rfl).trans ((ext_hi _ _ _ _ rfl).trans ((ext_hi _ _ _ _ rfl).trans ((ext_lo _ _ _ _ rfl).trans (ext_all _)))))
  have f3 : wd.extractLsb' 17 5 = x := by rw [← hx]; exact (ext_hi _ _ _ _ rfl).trans ((ext_hi _ _ _ _ rfl).trans ((ext_hi _ _ _ _ rfl).trans ((ext_lo _ _ _ _ rfl).trans (ext_all _))))
  have f4 : wd.extractLsb' 10 7 = a := by rw [← hx]; exact (ext_hi _ _ _ _ rfl).trans ((ext_hi _ _ _ _ rfl).trans ((ext_lo _ _ _ _ rfl).trans (ext_all _)))
  have f5 : wd.extractLsb' 3 7 = b := by rw [← hx]; exact (ext_hi _ _ _ _ rfl).trans ((ext_lo _ _ _ _ rfl).trans (ext_all _))
  have f6 : wd.extractLsb' 0 3 = 0x0#3 := by rw [← hx]; exact (ext_lo _ _ _ _ rfl).trans (ext_all _)
  refine decode_row f1 rfl ?_
  exact firstRow_hit (by simp only [rowCpyout, Sys2Proof.sw, f0, f2, f3, f4, f5, f6, and_self, reduceIte])

theorem RoundTrip.cpy2dIn (sw : Bool) (x : BitVec 5) (a : BitVec 7) (b : BitVec 7) :
    RoundTrip.Statement (.cpy2dIn sw x a b) := by
  intro _ wd hx
  simp only [Instr.encode, Option.some.injEq] at hx
  have f0 : wd.getLsbD 31 = sw := by rw [← hx]; exact (bit_hi _ _ _ rfl).trans ((bit_hi _ _ _ rfl).trans ((bit_hi _ _ _ rfl).trans ((bit_hi _ _ _ rfl).trans ((bit_hi _ _ _ rfl).trans ((bit_hi _ _ _ rfl).trans (bit_one _))))))
  have f1 : wd.extractLsb' 24 7 = 0x5A#7 := by rw [← hx]; exact (ext_hi _ _ _ _ rfl).trans ((ext_hi _ _ _ _ rfl).trans ((ext_hi _ _ _ _ rfl).trans ((ext_hi _ _ _ _ rfl).trans ((ext_hi _ _ _ _ rfl).trans ((ext_lo _ _ _ _ rfl).trans (ext_all _))))))
  have f2 : wd.extractLsb' 22 2 = 0x0#2 := by rw [← hx]; exact (ext_hi _ _ _ _ rfl).trans ((ext_hi _ _ _ _ rfl).trans ((ext_hi _ _ _ _ rfl).trans ((ext_hi _ _ _ _ rfl).trans ((ext_lo _ _ _ _ rfl).trans (ext_all _)))))
  have f3 : wd.extractLsb' 17 5 = x := by rw [← hx]; exact (ext_hi _ _ _ _ rfl).trans ((ext_hi _ _ _ _ rfl).trans ((ext_hi _ _ _ _ rfl).trans ((ext_lo _ _ _ _ rfl).trans (ext_all _))))
  have f4 : wd.extractLsb' 10 7 = a := by rw [← hx]; exact (ext_hi _ _ _ _ rfl).trans ((ext_hi _ _ _ _ rfl).trans ((ext_lo _ _ _ _ rfl).trans (ext_all _)))
  have f5 : wd.extractLsb' 3 7 = b := by rw [← hx]; exact (ext_hi _ _ _ _ rfl).trans ((ext_lo _ _ _ _ rfl).trans (ext_all _))
  have f6 : wd.extractLsb' 0 3 = 0x0#3 := by rw [← hx]; exact (ext_lo _ _ _ _ rfl).trans (ext_all _)
  refine decode_row f1 rfl ?_
  exact firstRow_hit (by simp only [rowCpy2dIn, Sys2Proof.sw, f0, f2, f3, f4, f5, f6, and_self, reduceIte])

theorem RoundTrip.cpy2dOut (sw : Bool) (x : BitVec 5) (a : BitVec 7) (b : BitVec 7) :
    RoundTrip.Statement (.cpy2dOut sw x a b) := by
  intro _ wd hx
  simp only [Instr.encode, Option.some.injEq] at hx
  have f0 : wd.getLsbD 31 = sw := by rw [← hx]; exact (bit_hi _ _ _ rfl).trans ((bit_hi _ _ _ rfl).trans ((bit_hi _ _ _ rfl).trans ((bit_hi _ _ _ rfl).trans ((bit_hi _ _ _ rfl).trans ((bit_hi _ _ _ rfl).trans (bit_one _))))))
  have f1 : wd.extractLsb' 24 7 = 0x5A#7 := by rw [← hx]; exact (ext_hi _ _ _ _ rfl).trans ((ext_hi _ _ _ _ rfl).trans ((ext_hi _ _ _ _ rfl).trans ((ext_hi _ _ _ _ rfl).trans ((ext_hi _ _ _ _ rfl).trans ((ext_lo _ _ _ _ rfl).trans (ext_all _))))))
  have f2 : wd.extractLsb' 22 2 = 0x0#2 := by rw [← hx]; exact (ext_hi _ _ _ _ rfl).trans ((ext_hi _ _ _ _ rfl).trans ((ext_hi _ _ _ _ rfl).trans ((ext_hi _ _ _ _ rfl).trans ((ext_lo _ _ _ _ rfl).trans (ext_all _)))))
  have f3 : wd.extractLsb' 17 5 = x := by rw [← hx]; exact (ext_hi _ _ _ _ rfl).trans ((ext_hi _ _ _ _ rfl).trans ((ext_hi _ _ _ _ rfl).trans ((ext_lo _ _ _ _ rfl).trans (ext_all _))))
  have f4 : wd.extractLsb' 10 7 = a := by rw [← hx]; exact (ext_hi _ _ _ _ rfl).trans ((ext_hi _ _ _ _ rfl).trans ((ext_lo _ _ _ _ rfl).trans (ext_all _)))
  have f5 : wd.extractLsb' 3 7 = b := by rw [← hx]; exact (ext_hi _ _ _ _ rfl).trans ((ext_lo _ _ _ _ rfl).trans (ext_all _))
  have f6 : wd.extractLsb' 0 3 = 0x1#3 := by rw [← hx]; exact (ext_lo _ _ _ _ rfl).trans (ext_all _)
  refine decode_row f1 rfl ?_
  refine firstRow_skip (if_neg fun hc => absurd (f6.symm.trans hc.2) (by decide)) ?_
  exact firstRow_hit (by simp only [rowCpy2dOut, Sys2Proof.sw, f0, f2, f3, f4, f5, f6, and_self, reduceIte])

theorem RoundTrip.cpymc (sw : Bool) (x : BitVec 5) (a : BitVec 7) (b : BitVec 7) :
    RoundTrip.Statement (.cpymc sw x a b) := by
  intro _ wd hx
  simp only [Instr.encode, Option.some.injEq] at hx
  have f0 : wd.getLsbD 31 = sw := by rw [← hx]; exact (bit_hi _ _ _ rfl).trans ((bit_hi _ _ _ rfl).trans ((bit_hi _ _ _ rfl).trans ((bit_hi _ _ _ rfl).trans ((bit_hi _ _ _ rfl).trans ((bit_hi _ _ _ rfl).trans (bit_one _))))))
  have f1 : wd.extractLsb' 24 7 = 0x5B#7 := by rw [← hx]; exact (ext_hi _ _ _ _ rfl).trans ((ext_hi _ _ _ _ rfl).trans ((ext_hi _ _ _ _ rfl).trans ((ext_hi _ _ _ _ rfl).trans ((ext_hi _ _ _ _ rfl).trans ((ext_lo _ _ _ _ rfl).trans (ext_all _))))))
  have f2 : wd.extractLsb' 22 2 = 0x0#2 := by rw [← hx]; exact (ext_hi _ _ _ _ rfl).trans ((ext_hi _ _ _ _ rfl).trans ((ext_hi _ _ _ _ rfl).trans ((ext_hi _ _ _ _ rfl).trans ((ext_lo _ _ _ _ rfl).trans (ext_all _)))))
  have f3 : wd.extractLsb' 17 5 = x := by rw [← hx]; exact (ext_hi _ _ _ _ rfl).trans ((ext_hi _ _ _ _ rfl).trans ((ext_hi _ _ _ _ rfl).trans ((ext_lo _ _ _ _ rfl).trans (ext_all _))))
  have f4 : wd.extractLsb' 10 7 = a := by rw [← hx]; exact (ext_hi _ _ _ _ rfl).trans ((ext_hi _ _ _ _ rfl).trans ((ext_lo _ _ _ _ rfl).trans (ext_all _)))
  have f5 : wd.extractLsb' 3 7 = b := by rw [← hx]; exact (ext_hi _ _ _ _ rfl).trans ((ext_lo _ _ _ _ rfl).trans (ext_all _))
  have f6 : wd.extractLsb' 0 3 = 0x0#3 := by rw [← hx]; exact (ext_lo _ _ _ _ rfl).trans (ext_all _)
  refine decode_row f1 rfl ?_
  exact firstRow_hit (by simp only [rowCpymc, Sys2Proof.sw, f0, f2, f3, f4, f5, f6, and_self, reduceIte])

theorem RoundTrip.bobset (sw : Bool) (x : BitVec 5) (a : BitVec 7) :
    RoundTrip.Statement (.bobset sw x a) := by
  intro _ wd hx
  simp only [Instr.encode, Option.some.injEq] at hx
  have f0 : wd.getLsbD 31 = sw := by rw [← hx]; exact (bit_hi _ _ _ rfl).trans ((bit_hi _ _ _ rfl).trans ((bit_hi _ _ _ rfl).trans ((bit_hi _ _ _ rfl).trans ((bit_hi _ _ _ rfl).trans (bit_one _)))))
  have f1 : wd.extractLsb' 24 7 = 0x5C#7 := by rw [← hx]; exact (ext_hi _ _ _ _ rfl).trans ((ext_hi _ _ _ _ rfl).trans ((ext_hi _ _ _ _ rfl).trans ((ext_hi _ _ _ _ rfl).trans ((ext_lo _ _ _ _ rfl).trans (ext_all _)))))
  have f2 : wd.extractLsb' 22 2 = 0x0#2 := by rw [← hx]; exact (ext_hi _ _ _ _ rfl).trans ((ext_hi _ _ _ _ rfl).trans ((ext_hi _ _ _ _ rfl).trans ((ext_lo _ _ _ _ rfl).trans (ext_all _))))
  have f3 : wd.extractLsb' 17 5 = x := by rw [← hx]; exact (ext_hi _ _ _ _ rfl).trans ((ext_hi _ _ _ _ rfl).trans ((ext_lo _ _ _ _ rfl).trans (ext_all _)))
  have f4 : wd.extractLsb' 10 7 = a := by rw [← hx]; exact (ext_hi _ _ _ _ rfl).trans ((ext_lo _ _ _ _ rfl).trans (ext_all _))
  have f5 : wd.extractLsb' 0 10 = 0x0#10 := by rw [← hx]; exact (ext_lo _ _ _ _ rfl).trans (ext_all _)
  refine decode_row f1 rfl ?_
  exact firstRow_hit (by simp only [rowBobset, Sys2Proof.sw, f0, f2, f3, f4, f5, and_self, reduceIte])

theorem RoundTrip.bobwait (sw : Bool) (d : BitVec 7) (x : BitVec 5) (bst : BobState) :
    RoundTrip.Statement (.bobwait sw d x bst) := by
  intro _ wd hx
  simp only [Instr.encode, Option.some.injEq] at hx
  have f0 : wd.getLsbD 31 = sw := by rw [← hx]; exact (bit_hi _ _ _ rfl).trans ((bit_hi _ _ _ rfl).trans ((bit_hi _ _ _ rfl).trans ((bit_hi _ _ _ rfl).trans ((bit_hi _ _ _ rfl).trans ((bit_hi _ _ _ rfl).trans (bit_one _))))))
  have f1 : wd.extractLsb' 24 7 = 0x5D#7 := by rw [← hx]; exact (ext_hi _ _ _ _ rfl).trans ((ext_hi _ _ _ _ rfl).trans ((ext_hi _ _ _ _ rfl).trans ((ext_hi _ _ _ _ rfl).trans ((ext_hi _ _ _ _ rfl).trans ((ext_lo _ _ _ _ rfl).trans (ext_all _))))))
  have f2 : wd.extractLsb' 17 7 = d := by rw [← hx]; exact (ext_hi _ _ _ _ rfl).trans ((ext_hi _ _ _ _ rfl).trans ((ext_hi _ _ _ _ rfl).trans ((ext_hi _ _ _ _ rfl).trans ((ext_lo _ _ _ _ rfl).trans (ext_all _)))))
  have f3 : wd.extractLsb' 15 2 = 0x0#2 := by rw [← hx]; exact (ext_hi _ _ _ _ rfl).trans ((ext_hi _ _ _ _ rfl).trans ((ext_hi _ _ _ _ rfl).trans ((ext_lo _ _ _ _ rfl).trans (ext_all _))))
  have f4 : wd.extractLsb' 10 5 = x := by rw [← hx]; exact (ext_hi _ _ _ _ rfl).trans ((ext_hi _ _ _ _ rfl).trans ((ext_lo _ _ _ _ rfl).trans (ext_all _)))
  have f5 : wd.extractLsb' 2 8 = 0x0#8 := by rw [← hx]; exact (ext_hi _ _ _ _ rfl).trans ((ext_lo _ _ _ _ rfl).trans (ext_all _))
  have f6 : wd.extractLsb' 0 2 = bst.code := by rw [← hx]; exact (ext_lo _ _ _ _ rfl).trans (ext_all _)
  refine decode_row f1 rfl ?_
  exact firstRow_hit (by simp only [rowBobwait, Sys2Proof.sw, f0, f2, f3, f4, f5, f6, BobState_ofCode_code, and_self, reduceIte])

theorem RoundTrip.bobfree (sw : Bool) (x : BitVec 5) :
    RoundTrip.Statement (.bobfree sw x) := by
  intro _ wd hx
  simp only [Instr.encode, Option.some.injEq] at hx
  have f0 : wd.getLsbD 31 = sw := by rw [← hx]; exact (bit_hi _ _ _ rfl).trans ((bit_hi _ _ _ rfl).trans ((bit_hi _ _ _ rfl).trans ((bit_hi _ _ _ rfl).trans (bit_one _))))
  have f1 : wd.extractLsb' 24 7 = 0x5E#7 := by rw [← hx]; exact (ext_hi _ _ _ _ rfl).trans ((ext_hi _ _ _ _ rfl).trans ((ext_hi _ _ _ _ rfl).trans ((ext_lo _ _ _ _ rfl).trans (ext_all _))))
  have f2 : wd.extractLsb' 22 2 = 0x0#2 := by rw [← hx]; exact (ext_hi _ _ _ _ rfl).trans ((ext_hi _ _ _ _ rfl).trans ((ext_lo _ _ _ _ rfl).trans (ext_all _)))
  have f3 : wd.extractLsb' 17 5 = x := by rw [← hx]; exact (ext_hi _ _ _ _ rfl).trans ((ext_lo _ _ _ _ rfl).trans (ext_all _))
  have f4 : wd.extractLsb' 0 17 = 0x0#17 := by rw [← hx]; exact (ext_lo _ _ _ _ rfl).trans (ext_all _)
  refine decode_row f1 rfl ?_
  exact firstRow_hit (by simp only [rowBobfree, Sys2Proof.sw, f0, f2, f3, f4, and_self, reduceIte])

theorem RoundTrip.bobq (sw : Bool) (d : BitVec 7) (x : BitVec 5) :
    RoundTrip.Statement (.bobq sw d x) := by
  intro _ wd hx
  simp only [Instr.encode, Option.some.injEq] at hx
  have f0 : wd.getLsbD 31 = sw := by rw [← hx]; exact (bit_hi _ _ _ rfl).trans ((bit_hi _ _ _ rfl).trans ((bit_hi _ _ _ rfl).trans ((bit_hi _ _ _ rfl).trans ((bit_hi _ _ _ rfl).trans (bit_one _)))))
  have f1 : wd.extractLsb' 24 7 = 0x5F#7 := by rw [← hx]; exact (ext_hi _ _ _ _ rfl).trans ((ext_hi _ _ _ _ rfl).trans ((ext_hi _ _ _ _ rfl).trans ((ext_hi _ _ _ _ rfl).trans ((ext_lo _ _ _ _ rfl).trans (ext_all _)))))
  have f2 : wd.extractLsb' 17 7 = d := by rw [← hx]; exact (ext_hi _ _ _ _ rfl).trans ((ext_hi _ _ _ _ rfl).trans ((ext_hi _ _ _ _ rfl).trans ((ext_lo _ _ _ _ rfl).trans (ext_all _))))
  have f3 : wd.extractLsb' 15 2 = 0x0#2 := by rw [← hx]; exact (ext_hi _ _ _ _ rfl).trans ((ext_hi _ _ _ _ rfl).trans ((ext_lo _ _ _ _ rfl).trans (ext_all _)))
  have f4 : wd.extractLsb' 10 5 = x := by rw [← hx]; exact (ext_hi _ _ _ _ rfl).trans ((ext_lo _ _ _ _ rfl).trans (ext_all _))
  have f5 : wd.extractLsb' 0 10 = 0x0#10 := by rw [← hx]; exact (ext_lo _ _ _ _ rfl).trans (ext_all _)
  refine decode_row f1 rfl ?_
  exact firstRow_hit (by simp only [rowBobq, Sys2Proof.sw, f0, f2, f3, f4, f5, and_self, reduceIte])

theorem RoundTrip.tld (sw : Bool) (d : BitVec 7) (a : BitVec 7) (i : BitVec 7) :
    RoundTrip.Statement (.tld sw d a i) := by
  intro _ wd hx
  simp only [Instr.encode, Option.some.injEq] at hx
  have f0 : wd.getLsbD 31 = sw := by rw [← hx]; exact (bit_hi _ _ _ rfl).trans ((bit_hi _ _ _ rfl).trans ((bit_hi _ _ _ rfl).trans ((bit_hi _ _ _ rfl).trans ((bit_hi _ _ _ rfl).trans (bit_one _)))))
  have f1 : wd.extractLsb' 24 7 = 0x60#7 := by rw [← hx]; exact (ext_hi _ _ _ _ rfl).trans ((ext_hi _ _ _ _ rfl).trans ((ext_hi _ _ _ _ rfl).trans ((ext_hi _ _ _ _ rfl).trans ((ext_lo _ _ _ _ rfl).trans (ext_all _)))))
  have f2 : wd.extractLsb' 17 7 = d := by rw [← hx]; exact (ext_hi _ _ _ _ rfl).trans ((ext_hi _ _ _ _ rfl).trans ((ext_hi _ _ _ _ rfl).trans ((ext_lo _ _ _ _ rfl).trans (ext_all _))))
  have f3 : wd.extractLsb' 10 7 = a := by rw [← hx]; exact (ext_hi _ _ _ _ rfl).trans ((ext_hi _ _ _ _ rfl).trans ((ext_lo _ _ _ _ rfl).trans (ext_all _)))
  have f4 : wd.extractLsb' 3 7 = i := by rw [← hx]; exact (ext_hi _ _ _ _ rfl).trans ((ext_lo _ _ _ _ rfl).trans (ext_all _))
  have f5 : wd.extractLsb' 0 3 = 0x0#3 := by rw [← hx]; exact (ext_lo _ _ _ _ rfl).trans (ext_all _)
  refine decode_row f1 rfl ?_
  exact firstRow_hit (by simp only [rowTld, Sys2Proof.sw, f0, f2, f3, f4, f5, reduceIte])

theorem RoundTrip.tldDr (sw : Bool) (d : BitVec 7) (a : BitVec 7) (i : BitVec 7) :
    RoundTrip.Statement (.tldDr sw d a i) := by
  intro _ wd hx
  simp only [Instr.encode, Option.some.injEq] at hx
  have f0 : wd.getLsbD 31 = sw := by rw [← hx]; exact (bit_hi _ _ _ rfl).trans ((bit_hi _ _ _ rfl).trans ((bit_hi _ _ _ rfl).trans ((bit_hi _ _ _ rfl).trans ((bit_hi _ _ _ rfl).trans (bit_one _)))))
  have f1 : wd.extractLsb' 24 7 = 0x60#7 := by rw [← hx]; exact (ext_hi _ _ _ _ rfl).trans ((ext_hi _ _ _ _ rfl).trans ((ext_hi _ _ _ _ rfl).trans ((ext_hi _ _ _ _ rfl).trans ((ext_lo _ _ _ _ rfl).trans (ext_all _)))))
  have f2 : wd.extractLsb' 17 7 = d := by rw [← hx]; exact (ext_hi _ _ _ _ rfl).trans ((ext_hi _ _ _ _ rfl).trans ((ext_hi _ _ _ _ rfl).trans ((ext_lo _ _ _ _ rfl).trans (ext_all _))))
  have f3 : wd.extractLsb' 10 7 = a := by rw [← hx]; exact (ext_hi _ _ _ _ rfl).trans ((ext_hi _ _ _ _ rfl).trans ((ext_lo _ _ _ _ rfl).trans (ext_all _)))
  have f4 : wd.extractLsb' 3 7 = i := by rw [← hx]; exact (ext_hi _ _ _ _ rfl).trans ((ext_lo _ _ _ _ rfl).trans (ext_all _))
  have f5 : wd.extractLsb' 0 3 = 0x1#3 := by rw [← hx]; exact (ext_lo _ _ _ _ rfl).trans (ext_all _)
  refine decode_row f1 rfl ?_
  refine firstRow_skip (if_neg fun hc => absurd (f5.symm.trans hc) (by decide)) ?_
  exact firstRow_hit (by simp only [rowTldDr, Sys2Proof.sw, f0, f2, f3, f4, f5, reduceIte])

theorem RoundTrip.tst (sw : Bool) (d : BitVec 7) (a : BitVec 7) (i : BitVec 7) :
    RoundTrip.Statement (.tst sw d a i) := by
  intro _ wd hx
  simp only [Instr.encode, Option.some.injEq] at hx
  have f0 : wd.getLsbD 31 = sw := by rw [← hx]; exact (bit_hi _ _ _ rfl).trans ((bit_hi _ _ _ rfl).trans ((bit_hi _ _ _ rfl).trans ((bit_hi _ _ _ rfl).trans ((bit_hi _ _ _ rfl).trans (bit_one _)))))
  have f1 : wd.extractLsb' 24 7 = 0x61#7 := by rw [← hx]; exact (ext_hi _ _ _ _ rfl).trans ((ext_hi _ _ _ _ rfl).trans ((ext_hi _ _ _ _ rfl).trans ((ext_hi _ _ _ _ rfl).trans ((ext_lo _ _ _ _ rfl).trans (ext_all _)))))
  have f2 : wd.extractLsb' 17 7 = d := by rw [← hx]; exact (ext_hi _ _ _ _ rfl).trans ((ext_hi _ _ _ _ rfl).trans ((ext_hi _ _ _ _ rfl).trans ((ext_lo _ _ _ _ rfl).trans (ext_all _))))
  have f3 : wd.extractLsb' 10 7 = a := by rw [← hx]; exact (ext_hi _ _ _ _ rfl).trans ((ext_hi _ _ _ _ rfl).trans ((ext_lo _ _ _ _ rfl).trans (ext_all _)))
  have f4 : wd.extractLsb' 3 7 = i := by rw [← hx]; exact (ext_hi _ _ _ _ rfl).trans ((ext_lo _ _ _ _ rfl).trans (ext_all _))
  have f5 : wd.extractLsb' 0 3 = 0x0#3 := by rw [← hx]; exact (ext_lo _ _ _ _ rfl).trans (ext_all _)
  refine decode_row f1 rfl ?_
  exact firstRow_hit (by simp only [rowTst, Sys2Proof.sw, f0, f2, f3, f4, f5, reduceIte])

theorem RoundTrip.tstDr (sw : Bool) (d : BitVec 7) (a : BitVec 7) (i : BitVec 7) :
    RoundTrip.Statement (.tstDr sw d a i) := by
  intro _ wd hx
  simp only [Instr.encode, Option.some.injEq] at hx
  have f0 : wd.getLsbD 31 = sw := by rw [← hx]; exact (bit_hi _ _ _ rfl).trans ((bit_hi _ _ _ rfl).trans ((bit_hi _ _ _ rfl).trans ((bit_hi _ _ _ rfl).trans ((bit_hi _ _ _ rfl).trans (bit_one _)))))
  have f1 : wd.extractLsb' 24 7 = 0x61#7 := by rw [← hx]; exact (ext_hi _ _ _ _ rfl).trans ((ext_hi _ _ _ _ rfl).trans ((ext_hi _ _ _ _ rfl).trans ((ext_hi _ _ _ _ rfl).trans ((ext_lo _ _ _ _ rfl).trans (ext_all _)))))
  have f2 : wd.extractLsb' 17 7 = d := by rw [← hx]; exact (ext_hi _ _ _ _ rfl).trans ((ext_hi _ _ _ _ rfl).trans ((ext_hi _ _ _ _ rfl).trans ((ext_lo _ _ _ _ rfl).trans (ext_all _))))
  have f3 : wd.extractLsb' 10 7 = a := by rw [← hx]; exact (ext_hi _ _ _ _ rfl).trans ((ext_hi _ _ _ _ rfl).trans ((ext_lo _ _ _ _ rfl).trans (ext_all _)))
  have f4 : wd.extractLsb' 3 7 = i := by rw [← hx]; exact (ext_hi _ _ _ _ rfl).trans ((ext_lo _ _ _ _ rfl).trans (ext_all _))
  have f5 : wd.extractLsb' 0 3 = 0x1#3 := by rw [← hx]; exact (ext_lo _ _ _ _ rfl).trans (ext_all _)
  refine decode_row f1 rfl ?_
  refine firstRow_skip (if_neg fun hc => absurd (f5.symm.trans hc) (by decide)) ?_
  exact firstRow_hit (by simp only [rowTstDr, Sys2Proof.sw, f0, f2, f3, f4, f5, reduceIte])

theorem RoundTrip.tldq (sw : Bool) (d : BitVec 7) (a : BitVec 7) (i : BitVec 7) (q : BitVec 3) :
    RoundTrip.Statement (.tldq sw d a i q) := by
  intro _ wd hx
  simp only [Instr.encode, Option.some.injEq] at hx
  have f0 : wd.getLsbD 31 = sw := by rw [← hx]; exact (bit_hi _ _ _ rfl).trans ((bit_hi _ _ _ rfl).trans ((bit_hi _ _ _ rfl).trans ((bit_hi _ _ _ rfl).trans ((bit_hi _ _ _ rfl).trans (bit_one _)))))
  have f1 : wd.extractLsb' 24 7 = 0x62#7 := by rw [← hx]; exact (ext_hi _ _ _ _ rfl).trans ((ext_hi _ _ _ _ rfl).trans ((ext_hi _ _ _ _ rfl).trans ((ext_hi _ _ _ _ rfl).trans ((ext_lo _ _ _ _ rfl).trans (ext_all _)))))
  have f2 : wd.extractLsb' 17 7 = d := by rw [← hx]; exact (ext_hi _ _ _ _ rfl).trans ((ext_hi _ _ _ _ rfl).trans ((ext_hi _ _ _ _ rfl).trans ((ext_lo _ _ _ _ rfl).trans (ext_all _))))
  have f3 : wd.extractLsb' 10 7 = a := by rw [← hx]; exact (ext_hi _ _ _ _ rfl).trans ((ext_hi _ _ _ _ rfl).trans ((ext_lo _ _ _ _ rfl).trans (ext_all _)))
  have f4 : wd.extractLsb' 3 7 = i := by rw [← hx]; exact (ext_hi _ _ _ _ rfl).trans ((ext_lo _ _ _ _ rfl).trans (ext_all _))
  have f5 : wd.extractLsb' 0 3 = q := by rw [← hx]; exact (ext_lo _ _ _ _ rfl).trans (ext_all _)
  refine decode_row f1 rfl ?_
  exact firstRow_hit (by simp only [rowTldq, Sys2Proof.sw, f0, f2, f3, f4, f5])

theorem RoundTrip.tzero (sw : Bool) (t : BitVec 4) (w : Bool) :
    RoundTrip.Statement (.tzero sw t w) := by
  intro _ wd hx
  simp only [Instr.encode, Option.some.injEq] at hx
  have f0 : wd.getLsbD 31 = sw := by rw [← hx]; exact (bit_hi _ _ _ rfl).trans ((bit_hi _ _ _ rfl).trans ((bit_hi _ _ _ rfl).trans ((bit_hi _ _ _ rfl).trans ((bit_hi _ _ _ rfl).trans (bit_one _)))))
  have f1 : wd.extractLsb' 24 7 = 0x63#7 := by rw [← hx]; exact (ext_hi _ _ _ _ rfl).trans ((ext_hi _ _ _ _ rfl).trans ((ext_hi _ _ _ _ rfl).trans ((ext_hi _ _ _ _ rfl).trans ((ext_lo _ _ _ _ rfl).trans (ext_all _)))))
  have f2 : wd.extractLsb' 20 4 = 0x0#4 := by rw [← hx]; exact (ext_hi _ _ _ _ rfl).trans ((ext_hi _ _ _ _ rfl).trans ((ext_hi _ _ _ _ rfl).trans ((ext_lo _ _ _ _ rfl).trans (ext_all _))))
  have f3 : wd.extractLsb' 16 4 = t := by rw [← hx]; exact (ext_hi _ _ _ _ rfl).trans ((ext_hi _ _ _ _ rfl).trans ((ext_lo _ _ _ _ rfl).trans (ext_all _)))
  have f4 : wd.extractLsb' 1 15 = 0x0#15 := by rw [← hx]; exact (ext_hi _ _ _ _ rfl).trans ((ext_lo _ _ _ _ rfl).trans (ext_all _))
  have f5 : wd.getLsbD 0 = w := by rw [← hx]; exact (bit_lo _ _ _ rfl).trans (bit_one _)
  refine decode_row f1 rfl ?_
  exact firstRow_hit (by simp only [rowTzero, Sys2Proof.sw, f0, f2, f3, f4, f5, and_self, reduceIte])

theorem RoundTrip.tmma (sw : Bool) (k : BitVec 4) (d : BitVec 4) (a : BitVec 4) (b : BitVec 4) (f : BitVec 3) :
    RoundTrip.Statement (.tmma sw k d a b f) := by
  intro _ wd hx
  simp only [Instr.encode, Option.some.injEq] at hx
  have f0 : wd.getLsbD 31 = sw := by rw [← hx]; exact (bit_hi _ _ _ rfl).trans ((bit_hi _ _ _ rfl).trans ((bit_hi _ _ _ rfl).trans ((bit_hi _ _ _ rfl).trans ((bit_hi _ _ _ rfl).trans ((bit_hi _ _ _ rfl).trans ((bit_hi _ _ _ rfl).trans (bit_one _)))))))
  have f1 : wd.extractLsb' 24 7 = 0x64#7 := by rw [← hx]; exact (ext_hi _ _ _ _ rfl).trans ((ext_hi _ _ _ _ rfl).trans ((ext_hi _ _ _ _ rfl).trans ((ext_hi _ _ _ _ rfl).trans ((ext_hi _ _ _ _ rfl).trans ((ext_hi _ _ _ _ rfl).trans ((ext_lo _ _ _ _ rfl).trans (ext_all _)))))))
  have f2 : wd.extractLsb' 20 4 = k := by rw [← hx]; exact (ext_hi _ _ _ _ rfl).trans ((ext_hi _ _ _ _ rfl).trans ((ext_hi _ _ _ _ rfl).trans ((ext_hi _ _ _ _ rfl).trans ((ext_hi _ _ _ _ rfl).trans ((ext_lo _ _ _ _ rfl).trans (ext_all _))))))
  have f3 : wd.extractLsb' 16 4 = d := by rw [← hx]; exact (ext_hi _ _ _ _ rfl).trans ((ext_hi _ _ _ _ rfl).trans ((ext_hi _ _ _ _ rfl).trans ((ext_hi _ _ _ _ rfl).trans ((ext_lo _ _ _ _ rfl).trans (ext_all _)))))
  have f4 : wd.extractLsb' 12 4 = a := by rw [← hx]; exact (ext_hi _ _ _ _ rfl).trans ((ext_hi _ _ _ _ rfl).trans ((ext_hi _ _ _ _ rfl).trans ((ext_lo _ _ _ _ rfl).trans (ext_all _))))
  have f5 : wd.extractLsb' 8 4 = b := by rw [← hx]; exact (ext_hi _ _ _ _ rfl).trans ((ext_hi _ _ _ _ rfl).trans ((ext_lo _ _ _ _ rfl).trans (ext_all _)))
  have f6 : wd.extractLsb' 3 5 = 0x0#5 := by rw [← hx]; exact (ext_hi _ _ _ _ rfl).trans ((ext_lo _ _ _ _ rfl).trans (ext_all _))
  have f7 : wd.extractLsb' 0 3 = f := by rw [← hx]; exact (ext_lo _ _ _ _ rfl).trans (ext_all _)
  refine decode_row f1 rfl ?_
  exact firstRow_hit (by simp only [rowTmma, Sys2Proof.sw, f0, f2, f3, f4, f5, f6, f7, reduceIte])

theorem RoundTrip.tcvt (sw : Bool) (k : BitVec 4) (d : BitVec 4) (a : BitVec 4) (f : BitVec 3) :
    RoundTrip.Statement (.tcvt sw k d a f) := by
  intro _ wd hx
  simp only [Instr.encode, Option.some.injEq] at hx
  have f0 : wd.getLsbD 31 = sw := by rw [← hx]; exact (bit_hi _ _ _ rfl).trans ((bit_hi _ _ _ rfl).trans ((bit_hi _ _ _ rfl).trans ((bit_hi _ _ _ rfl).trans ((bit_hi _ _ _ rfl).trans ((bit_hi _ _ _ rfl).trans (bit_one _))))))
  have f1 : wd.extractLsb' 24 7 = 0x65#7 := by rw [← hx]; exact (ext_hi _ _ _ _ rfl).trans ((ext_hi _ _ _ _ rfl).trans ((ext_hi _ _ _ _ rfl).trans ((ext_hi _ _ _ _ rfl).trans ((ext_hi _ _ _ _ rfl).trans ((ext_lo _ _ _ _ rfl).trans (ext_all _))))))
  have f2 : wd.extractLsb' 20 4 = k := by rw [← hx]; exact (ext_hi _ _ _ _ rfl).trans ((ext_hi _ _ _ _ rfl).trans ((ext_hi _ _ _ _ rfl).trans ((ext_hi _ _ _ _ rfl).trans ((ext_lo _ _ _ _ rfl).trans (ext_all _)))))
  have f3 : wd.extractLsb' 16 4 = d := by rw [← hx]; exact (ext_hi _ _ _ _ rfl).trans ((ext_hi _ _ _ _ rfl).trans ((ext_hi _ _ _ _ rfl).trans ((ext_lo _ _ _ _ rfl).trans (ext_all _))))
  have f4 : wd.extractLsb' 12 4 = a := by rw [← hx]; exact (ext_hi _ _ _ _ rfl).trans ((ext_hi _ _ _ _ rfl).trans ((ext_lo _ _ _ _ rfl).trans (ext_all _)))
  have f5 : wd.extractLsb' 3 9 = 0x0#9 := by rw [← hx]; exact (ext_hi _ _ _ _ rfl).trans ((ext_lo _ _ _ _ rfl).trans (ext_all _))
  have f6 : wd.extractLsb' 0 3 = f := by rw [← hx]; exact (ext_lo _ _ _ _ rfl).trans (ext_all _)
  refine decode_row f1 rfl ?_
  exact firstRow_hit (by simp only [rowTcvt, Sys2Proof.sw, f0, f2, f3, f4, f5, f6, reduceIte])

theorem RoundTrip.tgetf (sw : Bool) (d : BitVec 7) (t : BitVec 4) (b : BitVec 7) :
    RoundTrip.Statement (.tgetf sw d t b) := by
  intro _ wd hx
  simp only [Instr.encode, Option.some.injEq] at hx
  have f0 : wd.getLsbD 31 = sw := by rw [← hx]; exact (bit_hi _ _ _ rfl).trans ((bit_hi _ _ _ rfl).trans ((bit_hi _ _ _ rfl).trans ((bit_hi _ _ _ rfl).trans ((bit_hi _ _ _ rfl).trans ((bit_hi _ _ _ rfl).trans (bit_one _))))))
  have f1 : wd.extractLsb' 24 7 = 0x66#7 := by rw [← hx]; exact (ext_hi _ _ _ _ rfl).trans ((ext_hi _ _ _ _ rfl).trans ((ext_hi _ _ _ _ rfl).trans ((ext_hi _ _ _ _ rfl).trans ((ext_hi _ _ _ _ rfl).trans ((ext_lo _ _ _ _ rfl).trans (ext_all _))))))
  have f2 : wd.extractLsb' 17 7 = d := by rw [← hx]; exact (ext_hi _ _ _ _ rfl).trans ((ext_hi _ _ _ _ rfl).trans ((ext_hi _ _ _ _ rfl).trans ((ext_hi _ _ _ _ rfl).trans ((ext_lo _ _ _ _ rfl).trans (ext_all _)))))
  have f3 : wd.extractLsb' 14 3 = 0x0#3 := by rw [← hx]; exact (ext_hi _ _ _ _ rfl).trans ((ext_hi _ _ _ _ rfl).trans ((ext_hi _ _ _ _ rfl).trans ((ext_lo _ _ _ _ rfl).trans (ext_all _))))
  have f4 : wd.extractLsb' 10 4 = t := by rw [← hx]; exact (ext_hi _ _ _ _ rfl).trans ((ext_hi _ _ _ _ rfl).trans ((ext_lo _ _ _ _ rfl).trans (ext_all _)))
  have f5 : wd.extractLsb' 3 7 = b := by rw [← hx]; exact (ext_hi _ _ _ _ rfl).trans ((ext_lo _ _ _ _ rfl).trans (ext_all _))
  have f6 : wd.extractLsb' 0 3 = 0x0#3 := by rw [← hx]; exact (ext_lo _ _ _ _ rfl).trans (ext_all _)
  refine decode_row f1 rfl ?_
  exact firstRow_hit (by simp only [rowTgetf, Sys2Proof.sw, f0, f2, f3, f4, f5, f6, and_self, reduceIte])

theorem RoundTrip.tsetf (sw : Bool) (d : BitVec 7) (t : BitVec 4) (b : BitVec 7) :
    RoundTrip.Statement (.tsetf sw d t b) := by
  intro _ wd hx
  simp only [Instr.encode, Option.some.injEq] at hx
  have f0 : wd.getLsbD 31 = sw := by rw [← hx]; exact (bit_hi _ _ _ rfl).trans ((bit_hi _ _ _ rfl).trans ((bit_hi _ _ _ rfl).trans ((bit_hi _ _ _ rfl).trans ((bit_hi _ _ _ rfl).trans ((bit_hi _ _ _ rfl).trans (bit_one _))))))
  have f1 : wd.extractLsb' 24 7 = 0x66#7 := by rw [← hx]; exact (ext_hi _ _ _ _ rfl).trans ((ext_hi _ _ _ _ rfl).trans ((ext_hi _ _ _ _ rfl).trans ((ext_hi _ _ _ _ rfl).trans ((ext_hi _ _ _ _ rfl).trans ((ext_lo _ _ _ _ rfl).trans (ext_all _))))))
  have f2 : wd.extractLsb' 17 7 = d := by rw [← hx]; exact (ext_hi _ _ _ _ rfl).trans ((ext_hi _ _ _ _ rfl).trans ((ext_hi _ _ _ _ rfl).trans ((ext_hi _ _ _ _ rfl).trans ((ext_lo _ _ _ _ rfl).trans (ext_all _)))))
  have f3 : wd.extractLsb' 14 3 = 0x0#3 := by rw [← hx]; exact (ext_hi _ _ _ _ rfl).trans ((ext_hi _ _ _ _ rfl).trans ((ext_hi _ _ _ _ rfl).trans ((ext_lo _ _ _ _ rfl).trans (ext_all _))))
  have f4 : wd.extractLsb' 10 4 = t := by rw [← hx]; exact (ext_hi _ _ _ _ rfl).trans ((ext_hi _ _ _ _ rfl).trans ((ext_lo _ _ _ _ rfl).trans (ext_all _)))
  have f5 : wd.extractLsb' 3 7 = b := by rw [← hx]; exact (ext_hi _ _ _ _ rfl).trans ((ext_lo _ _ _ _ rfl).trans (ext_all _))
  have f6 : wd.extractLsb' 0 3 = 0x1#3 := by rw [← hx]; exact (ext_lo _ _ _ _ rfl).trans (ext_all _)
  refine decode_row f1 rfl ?_
  refine firstRow_skip (if_neg fun hc => absurd (f6.symm.trans hc.2) (by decide)) ?_
  exact firstRow_hit (by simp only [rowTsetf, Sys2Proof.sw, f0, f2, f3, f4, f5, f6, and_self, reduceIte])

theorem RoundTrip.tmergeI64 (sw : Bool) (k : BitVec 4) (m : BitVec 3) (a : BitVec 7) (b : BitVec 7) :
    RoundTrip.Statement (.tmergeI64 sw k m a b) := by
  intro _ wd hx
  simp only [Instr.encode, Option.some.injEq] at hx
  have f0 : wd.getLsbD 31 = sw := by rw [← hx]; exact (bit_hi _ _ _ rfl).trans ((bit_hi _ _ _ rfl).trans ((bit_hi _ _ _ rfl).trans ((bit_hi _ _ _ rfl).trans ((bit_hi _ _ _ rfl).trans ((bit_hi _ _ _ rfl).trans (bit_one _))))))
  have f1 : wd.extractLsb' 24 7 = 0x67#7 := by rw [← hx]; exact (ext_hi _ _ _ _ rfl).trans ((ext_hi _ _ _ _ rfl).trans ((ext_hi _ _ _ _ rfl).trans ((ext_hi _ _ _ _ rfl).trans ((ext_hi _ _ _ _ rfl).trans ((ext_lo _ _ _ _ rfl).trans (ext_all _))))))
  have f2 : wd.extractLsb' 20 4 = k := by rw [← hx]; exact (ext_hi _ _ _ _ rfl).trans ((ext_hi _ _ _ _ rfl).trans ((ext_hi _ _ _ _ rfl).trans ((ext_hi _ _ _ _ rfl).trans ((ext_lo _ _ _ _ rfl).trans (ext_all _)))))
  have f3 : wd.extractLsb' 17 3 = m := by rw [← hx]; exact (ext_hi _ _ _ _ rfl).trans ((ext_hi _ _ _ _ rfl).trans ((ext_hi _ _ _ _ rfl).trans ((ext_lo _ _ _ _ rfl).trans (ext_all _))))
  have f4 : wd.extractLsb' 10 7 = a := by rw [← hx]; exact (ext_hi _ _ _ _ rfl).trans ((ext_hi _ _ _ _ rfl).trans ((ext_lo _ _ _ _ rfl).trans (ext_all _)))
  have f5 : wd.extractLsb' 3 7 = b := by rw [← hx]; exact (ext_hi _ _ _ _ rfl).trans ((ext_lo _ _ _ _ rfl).trans (ext_all _))
  have f6 : wd.extractLsb' 0 3 = 0x0#3 := by rw [← hx]; exact (ext_lo _ _ _ _ rfl).trans (ext_all _)
  refine decode_row f1 rfl ?_
  exact firstRow_hit (by simp only [rowTmergeI64, Sys2Proof.sw, f0, f2, f3, f4, f5, f6, reduceIte])

theorem RoundTrip.tmergeF64 (sw : Bool) (k : BitVec 4) (m : BitVec 3) (a : BitVec 7) (b : BitVec 7) :
    RoundTrip.Statement (.tmergeF64 sw k m a b) := by
  intro _ wd hx
  simp only [Instr.encode, Option.some.injEq] at hx
  have f0 : wd.getLsbD 31 = sw := by rw [← hx]; exact (bit_hi _ _ _ rfl).trans ((bit_hi _ _ _ rfl).trans ((bit_hi _ _ _ rfl).trans ((bit_hi _ _ _ rfl).trans ((bit_hi _ _ _ rfl).trans ((bit_hi _ _ _ rfl).trans (bit_one _))))))
  have f1 : wd.extractLsb' 24 7 = 0x67#7 := by rw [← hx]; exact (ext_hi _ _ _ _ rfl).trans ((ext_hi _ _ _ _ rfl).trans ((ext_hi _ _ _ _ rfl).trans ((ext_hi _ _ _ _ rfl).trans ((ext_hi _ _ _ _ rfl).trans ((ext_lo _ _ _ _ rfl).trans (ext_all _))))))
  have f2 : wd.extractLsb' 20 4 = k := by rw [← hx]; exact (ext_hi _ _ _ _ rfl).trans ((ext_hi _ _ _ _ rfl).trans ((ext_hi _ _ _ _ rfl).trans ((ext_hi _ _ _ _ rfl).trans ((ext_lo _ _ _ _ rfl).trans (ext_all _)))))
  have f3 : wd.extractLsb' 17 3 = m := by rw [← hx]; exact (ext_hi _ _ _ _ rfl).trans ((ext_hi _ _ _ _ rfl).trans ((ext_hi _ _ _ _ rfl).trans ((ext_lo _ _ _ _ rfl).trans (ext_all _))))
  have f4 : wd.extractLsb' 10 7 = a := by rw [← hx]; exact (ext_hi _ _ _ _ rfl).trans ((ext_hi _ _ _ _ rfl).trans ((ext_lo _ _ _ _ rfl).trans (ext_all _)))
  have f5 : wd.extractLsb' 3 7 = b := by rw [← hx]; exact (ext_hi _ _ _ _ rfl).trans ((ext_lo _ _ _ _ rfl).trans (ext_all _))
  have f6 : wd.extractLsb' 0 3 = 0x1#3 := by rw [← hx]; exact (ext_lo _ _ _ _ rfl).trans (ext_all _)
  refine decode_row f1 rfl ?_
  refine firstRow_skip (if_neg fun hc => absurd (f6.symm.trans hc) (by decide)) ?_
  exact firstRow_hit (by simp only [rowTmergeF64, Sys2Proof.sw, f0, f2, f3, f4, f5, f6, reduceIte])

theorem RoundTrip.tmergeF64Ord (sw : Bool) (k : BitVec 4) (m : BitVec 3) (a : BitVec 7) (b : BitVec 7) :
    RoundTrip.Statement (.tmergeF64Ord sw k m a b) := by
  intro _ wd hx
  simp only [Instr.encode, Option.some.injEq] at hx
  have f0 : wd.getLsbD 31 = sw := by rw [← hx]; exact (bit_hi _ _ _ rfl).trans ((bit_hi _ _ _ rfl).trans ((bit_hi _ _ _ rfl).trans ((bit_hi _ _ _ rfl).trans ((bit_hi _ _ _ rfl).trans ((bit_hi _ _ _ rfl).trans (bit_one _))))))
  have f1 : wd.extractLsb' 24 7 = 0x67#7 := by rw [← hx]; exact (ext_hi _ _ _ _ rfl).trans ((ext_hi _ _ _ _ rfl).trans ((ext_hi _ _ _ _ rfl).trans ((ext_hi _ _ _ _ rfl).trans ((ext_hi _ _ _ _ rfl).trans ((ext_lo _ _ _ _ rfl).trans (ext_all _))))))
  have f2 : wd.extractLsb' 20 4 = k := by rw [← hx]; exact (ext_hi _ _ _ _ rfl).trans ((ext_hi _ _ _ _ rfl).trans ((ext_hi _ _ _ _ rfl).trans ((ext_hi _ _ _ _ rfl).trans ((ext_lo _ _ _ _ rfl).trans (ext_all _)))))
  have f3 : wd.extractLsb' 17 3 = m := by rw [← hx]; exact (ext_hi _ _ _ _ rfl).trans ((ext_hi _ _ _ _ rfl).trans ((ext_hi _ _ _ _ rfl).trans ((ext_lo _ _ _ _ rfl).trans (ext_all _))))
  have f4 : wd.extractLsb' 10 7 = a := by rw [← hx]; exact (ext_hi _ _ _ _ rfl).trans ((ext_hi _ _ _ _ rfl).trans ((ext_lo _ _ _ _ rfl).trans (ext_all _)))
  have f5 : wd.extractLsb' 3 7 = b := by rw [← hx]; exact (ext_hi _ _ _ _ rfl).trans ((ext_lo _ _ _ _ rfl).trans (ext_all _))
  have f6 : wd.extractLsb' 0 3 = 0x2#3 := by rw [← hx]; exact (ext_lo _ _ _ _ rfl).trans (ext_all _)
  refine decode_row f1 rfl ?_
  refine firstRow_skip (if_neg fun hc => absurd (f6.symm.trans hc) (by decide)) ?_
  refine firstRow_skip (if_neg fun hc => absurd (f6.symm.trans hc) (by decide)) ?_
  exact firstRow_hit (by simp only [rowTmergeF64Ord, Sys2Proof.sw, f0, f2, f3, f4, f5, f6, reduceIte])

theorem RoundTrip.tmread (sw : Bool) (k : BitVec 4) (m : BitVec 3) (a : BitVec 7) (w : Bool) :
    RoundTrip.Statement (.tmread sw k m a w) := by
  intro _ wd hx
  simp only [Instr.encode, Option.some.injEq] at hx
  have f0 : wd.getLsbD 31 = sw := by rw [← hx]; exact (bit_hi _ _ _ rfl).trans ((bit_hi _ _ _ rfl).trans ((bit_hi _ _ _ rfl).trans ((bit_hi _ _ _ rfl).trans ((bit_hi _ _ _ rfl).trans ((bit_hi _ _ _ rfl).trans (bit_one _))))))
  have f1 : wd.extractLsb' 24 7 = 0x68#7 := by rw [← hx]; exact (ext_hi _ _ _ _ rfl).trans ((ext_hi _ _ _ _ rfl).trans ((ext_hi _ _ _ _ rfl).trans ((ext_hi _ _ _ _ rfl).trans ((ext_hi _ _ _ _ rfl).trans ((ext_lo _ _ _ _ rfl).trans (ext_all _))))))
  have f2 : wd.extractLsb' 20 4 = k := by rw [← hx]; exact (ext_hi _ _ _ _ rfl).trans ((ext_hi _ _ _ _ rfl).trans ((ext_hi _ _ _ _ rfl).trans ((ext_hi _ _ _ _ rfl).trans ((ext_lo _ _ _ _ rfl).trans (ext_all _)))))
  have f3 : wd.extractLsb' 17 3 = m := by rw [← hx]; exact (ext_hi _ _ _ _ rfl).trans ((ext_hi _ _ _ _ rfl).trans ((ext_hi _ _ _ _ rfl).trans ((ext_lo _ _ _ _ rfl).trans (ext_all _))))
  have f4 : wd.extractLsb' 10 7 = a := by rw [← hx]; exact (ext_hi _ _ _ _ rfl).trans ((ext_hi _ _ _ _ rfl).trans ((ext_lo _ _ _ _ rfl).trans (ext_all _)))
  have f5 : wd.extractLsb' 1 9 = 0x0#9 := by rw [← hx]; exact (ext_hi _ _ _ _ rfl).trans ((ext_lo _ _ _ _ rfl).trans (ext_all _))
  have f6 : wd.getLsbD 0 = w := by rw [← hx]; exact (bit_lo _ _ _ rfl).trans (bit_one _)
  refine decode_row f1 rfl ?_
  exact firstRow_hit (by simp only [rowTmread, Sys2Proof.sw, f0, f2, f3, f4, f5, f6, reduceIte])

theorem RoundTrip.tbfy (sw : Bool) (k : BitVec 4) (d : BitVec 4) (a : BitVec 4) :
    RoundTrip.Statement (.tbfy sw k d a) := by
  intro _ wd hx
  simp only [Instr.encode, Option.some.injEq] at hx
  have f0 : wd.getLsbD 31 = sw := by rw [← hx]; exact (bit_hi _ _ _ rfl).trans ((bit_hi _ _ _ rfl).trans ((bit_hi _ _ _ rfl).trans ((bit_hi _ _ _ rfl).trans ((bit_hi _ _ _ rfl).trans (bit_one _)))))
  have f1 : wd.extractLsb' 24 7 = 0x69#7 := by rw [← hx]; exact (ext_hi _ _ _ _ rfl).trans ((ext_hi _ _ _ _ rfl).trans ((ext_hi _ _ _ _ rfl).trans ((ext_hi _ _ _ _ rfl).trans ((ext_lo _ _ _ _ rfl).trans (ext_all _)))))
  have f2 : wd.extractLsb' 20 4 = k := by rw [← hx]; exact (ext_hi _ _ _ _ rfl).trans ((ext_hi _ _ _ _ rfl).trans ((ext_hi _ _ _ _ rfl).trans ((ext_lo _ _ _ _ rfl).trans (ext_all _))))
  have f3 : wd.extractLsb' 16 4 = d := by rw [← hx]; exact (ext_hi _ _ _ _ rfl).trans ((ext_hi _ _ _ _ rfl).trans ((ext_lo _ _ _ _ rfl).trans (ext_all _)))
  have f4 : wd.extractLsb' 12 4 = a := by rw [← hx]; exact (ext_hi _ _ _ _ rfl).trans ((ext_lo _ _ _ _ rfl).trans (ext_all _))
  have f5 : wd.extractLsb' 0 12 = 0x0#12 := by rw [← hx]; exact (ext_lo _ _ _ _ rfl).trans (ext_all _)
  refine decode_row f1 rfl ?_
  exact firstRow_hit (by simp only [rowTbfy, Sys2Proof.sw, f0, f2, f3, f4, f5, reduceIte])

theorem RoundTrip.tfcfg (sw : Bool) (a : BitVec 7) :
    RoundTrip.Statement (.tfcfg sw a) := by
  intro _ wd hx
  simp only [Instr.encode, Option.some.injEq] at hx
  have f0 : wd.getLsbD 31 = sw := by rw [← hx]; exact (bit_hi _ _ _ rfl).trans ((bit_hi _ _ _ rfl).trans ((bit_hi _ _ _ rfl).trans ((bit_hi _ _ _ rfl).trans (bit_one _))))
  have f1 : wd.extractLsb' 24 7 = 0x6A#7 := by rw [← hx]; exact (ext_hi _ _ _ _ rfl).trans ((ext_hi _ _ _ _ rfl).trans ((ext_hi _ _ _ _ rfl).trans ((ext_lo _ _ _ _ rfl).trans (ext_all _))))
  have f2 : wd.extractLsb' 17 7 = 0x0#7 := by rw [← hx]; exact (ext_hi _ _ _ _ rfl).trans ((ext_hi _ _ _ _ rfl).trans ((ext_lo _ _ _ _ rfl).trans (ext_all _)))
  have f3 : wd.extractLsb' 10 7 = a := by rw [← hx]; exact (ext_hi _ _ _ _ rfl).trans ((ext_lo _ _ _ _ rfl).trans (ext_all _))
  have f4 : wd.extractLsb' 0 10 = 0x0#10 := by rw [← hx]; exact (ext_lo _ _ _ _ rfl).trans (ext_all _)
  refine decode_row f1 rfl ?_
  exact firstRow_hit (by simp only [rowTfcfg, Sys2Proof.sw, f0, f2, f3, f4, and_self, reduceIte])

theorem RoundTrip.ttwid (sw : Bool) (d : BitVec 7) (a : BitVec 7) (b : BitVec 7) :
    RoundTrip.Statement (.ttwid sw d a b) := by
  intro _ wd hx
  simp only [Instr.encode, Option.some.injEq] at hx
  have f0 : wd.getLsbD 31 = sw := by rw [← hx]; exact (bit_hi _ _ _ rfl).trans ((bit_hi _ _ _ rfl).trans ((bit_hi _ _ _ rfl).trans ((bit_hi _ _ _ rfl).trans ((bit_hi _ _ _ rfl).trans (bit_one _)))))
  have f1 : wd.extractLsb' 24 7 = 0x6B#7 := by rw [← hx]; exact (ext_hi _ _ _ _ rfl).trans ((ext_hi _ _ _ _ rfl).trans ((ext_hi _ _ _ _ rfl).trans ((ext_hi _ _ _ _ rfl).trans ((ext_lo _ _ _ _ rfl).trans (ext_all _)))))
  have f2 : wd.extractLsb' 17 7 = d := by rw [← hx]; exact (ext_hi _ _ _ _ rfl).trans ((ext_hi _ _ _ _ rfl).trans ((ext_hi _ _ _ _ rfl).trans ((ext_lo _ _ _ _ rfl).trans (ext_all _))))
  have f3 : wd.extractLsb' 10 7 = a := by rw [← hx]; exact (ext_hi _ _ _ _ rfl).trans ((ext_hi _ _ _ _ rfl).trans ((ext_lo _ _ _ _ rfl).trans (ext_all _)))
  have f4 : wd.extractLsb' 3 7 = b := by rw [← hx]; exact (ext_hi _ _ _ _ rfl).trans ((ext_lo _ _ _ _ rfl).trans (ext_all _))
  have f5 : wd.extractLsb' 0 3 = 0x0#3 := by rw [← hx]; exact (ext_lo _ _ _ _ rfl).trans (ext_all _)
  refine decode_row f1 rfl ?_
  exact firstRow_hit (by simp only [rowTtwid, Sys2Proof.sw, f0, f2, f3, f4, f5, reduceIte])

theorem RoundTrip.rank0 (sw : Bool) (d : BitVec 7) (a : BitVec 7) (b : BitVec 7) :
    RoundTrip.Statement (.rank0 sw d a b) := by
  intro _ wd hx
  simp only [Instr.encode, Option.some.injEq] at hx
  have f0 : wd.getLsbD 31 = sw := by rw [← hx]; exact (bit_hi _ _ _ rfl).trans ((bit_hi _ _ _ rfl).trans ((bit_hi _ _ _ rfl).trans ((bit_hi _ _ _ rfl).trans ((bit_hi _ _ _ rfl).trans (bit_one _)))))
  have f1 : wd.extractLsb' 24 7 = 0x6C#7 := by rw [← hx]; exact (ext_hi _ _ _ _ rfl).trans ((ext_hi _ _ _ _ rfl).trans ((ext_hi _ _ _ _ rfl).trans ((ext_hi _ _ _ _ rfl).trans ((ext_lo _ _ _ _ rfl).trans (ext_all _)))))
  have f2 : wd.extractLsb' 17 7 = d := by rw [← hx]; exact (ext_hi _ _ _ _ rfl).trans ((ext_hi _ _ _ _ rfl).trans ((ext_hi _ _ _ _ rfl).trans ((ext_lo _ _ _ _ rfl).trans (ext_all _))))
  have f3 : wd.extractLsb' 10 7 = a := by rw [← hx]; exact (ext_hi _ _ _ _ rfl).trans ((ext_hi _ _ _ _ rfl).trans ((ext_lo _ _ _ _ rfl).trans (ext_all _)))
  have f4 : wd.extractLsb' 3 7 = b := by rw [← hx]; exact (ext_hi _ _ _ _ rfl).trans ((ext_lo _ _ _ _ rfl).trans (ext_all _))
  have f5 : wd.extractLsb' 0 3 = 0x0#3 := by rw [← hx]; exact (ext_lo _ _ _ _ rfl).trans (ext_all _)
  refine decode_row f1 rfl ?_
  exact firstRow_hit (by simp only [rowRank0, Sys2Proof.sw, f0, f2, f3, f4, f5, reduceIte])

theorem RoundTrip.rank1 (sw : Bool) (d : BitVec 7) (a : BitVec 7) (b : BitVec 7) :
    RoundTrip.Statement (.rank1 sw d a b) := by
  intro _ wd hx
  simp only [Instr.encode, Option.some.injEq] at hx
  have f0 : wd.getLsbD 31 = sw := by rw [← hx]; exact (bit_hi _ _ _ rfl).trans ((bit_hi _ _ _ rfl).trans ((bit_hi _ _ _ rfl).trans ((bit_hi _ _ _ rfl).trans ((bit_hi _ _ _ rfl).trans (bit_one _)))))
  have f1 : wd.extractLsb' 24 7 = 0x6C#7 := by rw [← hx]; exact (ext_hi _ _ _ _ rfl).trans ((ext_hi _ _ _ _ rfl).trans ((ext_hi _ _ _ _ rfl).trans ((ext_hi _ _ _ _ rfl).trans ((ext_lo _ _ _ _ rfl).trans (ext_all _)))))
  have f2 : wd.extractLsb' 17 7 = d := by rw [← hx]; exact (ext_hi _ _ _ _ rfl).trans ((ext_hi _ _ _ _ rfl).trans ((ext_hi _ _ _ _ rfl).trans ((ext_lo _ _ _ _ rfl).trans (ext_all _))))
  have f3 : wd.extractLsb' 10 7 = a := by rw [← hx]; exact (ext_hi _ _ _ _ rfl).trans ((ext_hi _ _ _ _ rfl).trans ((ext_lo _ _ _ _ rfl).trans (ext_all _)))
  have f4 : wd.extractLsb' 3 7 = b := by rw [← hx]; exact (ext_hi _ _ _ _ rfl).trans ((ext_lo _ _ _ _ rfl).trans (ext_all _))
  have f5 : wd.extractLsb' 0 3 = 0x1#3 := by rw [← hx]; exact (ext_lo _ _ _ _ rfl).trans (ext_all _)
  refine decode_row f1 rfl ?_
  refine firstRow_skip (if_neg fun hc => absurd (f5.symm.trans hc) (by decide)) ?_
  exact firstRow_hit (by simp only [rowRank1, Sys2Proof.sw, f0, f2, f3, f4, f5, reduceIte])

theorem RoundTrip.sel0 (sw : Bool) (d : BitVec 7) (a : BitVec 7) (b : BitVec 7) :
    RoundTrip.Statement (.sel0 sw d a b) := by
  intro _ wd hx
  simp only [Instr.encode, Option.some.injEq] at hx
  have f0 : wd.getLsbD 31 = sw := by rw [← hx]; exact (bit_hi _ _ _ rfl).trans ((bit_hi _ _ _ rfl).trans ((bit_hi _ _ _ rfl).trans ((bit_hi _ _ _ rfl).trans ((bit_hi _ _ _ rfl).trans (bit_one _)))))
  have f1 : wd.extractLsb' 24 7 = 0x6C#7 := by rw [← hx]; exact (ext_hi _ _ _ _ rfl).trans ((ext_hi _ _ _ _ rfl).trans ((ext_hi _ _ _ _ rfl).trans ((ext_hi _ _ _ _ rfl).trans ((ext_lo _ _ _ _ rfl).trans (ext_all _)))))
  have f2 : wd.extractLsb' 17 7 = d := by rw [← hx]; exact (ext_hi _ _ _ _ rfl).trans ((ext_hi _ _ _ _ rfl).trans ((ext_hi _ _ _ _ rfl).trans ((ext_lo _ _ _ _ rfl).trans (ext_all _))))
  have f3 : wd.extractLsb' 10 7 = a := by rw [← hx]; exact (ext_hi _ _ _ _ rfl).trans ((ext_hi _ _ _ _ rfl).trans ((ext_lo _ _ _ _ rfl).trans (ext_all _)))
  have f4 : wd.extractLsb' 3 7 = b := by rw [← hx]; exact (ext_hi _ _ _ _ rfl).trans ((ext_lo _ _ _ _ rfl).trans (ext_all _))
  have f5 : wd.extractLsb' 0 3 = 0x2#3 := by rw [← hx]; exact (ext_lo _ _ _ _ rfl).trans (ext_all _)
  refine decode_row f1 rfl ?_
  refine firstRow_skip (if_neg fun hc => absurd (f5.symm.trans hc) (by decide)) ?_
  refine firstRow_skip (if_neg fun hc => absurd (f5.symm.trans hc) (by decide)) ?_
  exact firstRow_hit (by simp only [rowSel0, Sys2Proof.sw, f0, f2, f3, f4, f5, reduceIte])

theorem RoundTrip.sel1 (sw : Bool) (d : BitVec 7) (a : BitVec 7) (b : BitVec 7) :
    RoundTrip.Statement (.sel1 sw d a b) := by
  intro _ wd hx
  simp only [Instr.encode, Option.some.injEq] at hx
  have f0 : wd.getLsbD 31 = sw := by rw [← hx]; exact (bit_hi _ _ _ rfl).trans ((bit_hi _ _ _ rfl).trans ((bit_hi _ _ _ rfl).trans ((bit_hi _ _ _ rfl).trans ((bit_hi _ _ _ rfl).trans (bit_one _)))))
  have f1 : wd.extractLsb' 24 7 = 0x6C#7 := by rw [← hx]; exact (ext_hi _ _ _ _ rfl).trans ((ext_hi _ _ _ _ rfl).trans ((ext_hi _ _ _ _ rfl).trans ((ext_hi _ _ _ _ rfl).trans ((ext_lo _ _ _ _ rfl).trans (ext_all _)))))
  have f2 : wd.extractLsb' 17 7 = d := by rw [← hx]; exact (ext_hi _ _ _ _ rfl).trans ((ext_hi _ _ _ _ rfl).trans ((ext_hi _ _ _ _ rfl).trans ((ext_lo _ _ _ _ rfl).trans (ext_all _))))
  have f3 : wd.extractLsb' 10 7 = a := by rw [← hx]; exact (ext_hi _ _ _ _ rfl).trans ((ext_hi _ _ _ _ rfl).trans ((ext_lo _ _ _ _ rfl).trans (ext_all _)))
  have f4 : wd.extractLsb' 3 7 = b := by rw [← hx]; exact (ext_hi _ _ _ _ rfl).trans ((ext_lo _ _ _ _ rfl).trans (ext_all _))
  have f5 : wd.extractLsb' 0 3 = 0x3#3 := by rw [← hx]; exact (ext_lo _ _ _ _ rfl).trans (ext_all _)
  refine decode_row f1 rfl ?_
  refine firstRow_skip (if_neg fun hc => absurd (f5.symm.trans hc) (by decide)) ?_
  refine firstRow_skip (if_neg fun hc => absurd (f5.symm.trans hc) (by decide)) ?_
  refine firstRow_skip (if_neg fun hc => absurd (f5.symm.trans hc) (by decide)) ?_
  exact firstRow_hit (by simp only [rowSel1, Sys2Proof.sw, f0, f2, f3, f4, f5, reduceIte])

theorem RoundTrip.excess (sw : Bool) (d : BitVec 7) (a : BitVec 7) (b : BitVec 7) :
    RoundTrip.Statement (.excess sw d a b) := by
  intro _ wd hx
  simp only [Instr.encode, Option.some.injEq] at hx
  have f0 : wd.getLsbD 31 = sw := by rw [← hx]; exact (bit_hi _ _ _ rfl).trans ((bit_hi _ _ _ rfl).trans ((bit_hi _ _ _ rfl).trans ((bit_hi _ _ _ rfl).trans ((bit_hi _ _ _ rfl).trans (bit_one _)))))
  have f1 : wd.extractLsb' 24 7 = 0x6C#7 := by rw [← hx]; exact (ext_hi _ _ _ _ rfl).trans ((ext_hi _ _ _ _ rfl).trans ((ext_hi _ _ _ _ rfl).trans ((ext_hi _ _ _ _ rfl).trans ((ext_lo _ _ _ _ rfl).trans (ext_all _)))))
  have f2 : wd.extractLsb' 17 7 = d := by rw [← hx]; exact (ext_hi _ _ _ _ rfl).trans ((ext_hi _ _ _ _ rfl).trans ((ext_hi _ _ _ _ rfl).trans ((ext_lo _ _ _ _ rfl).trans (ext_all _))))
  have f3 : wd.extractLsb' 10 7 = a := by rw [← hx]; exact (ext_hi _ _ _ _ rfl).trans ((ext_hi _ _ _ _ rfl).trans ((ext_lo _ _ _ _ rfl).trans (ext_all _)))
  have f4 : wd.extractLsb' 3 7 = b := by rw [← hx]; exact (ext_hi _ _ _ _ rfl).trans ((ext_lo _ _ _ _ rfl).trans (ext_all _))
  have f5 : wd.extractLsb' 0 3 = 0x4#3 := by rw [← hx]; exact (ext_lo _ _ _ _ rfl).trans (ext_all _)
  refine decode_row f1 rfl ?_
  refine firstRow_skip (if_neg fun hc => absurd (f5.symm.trans hc) (by decide)) ?_
  refine firstRow_skip (if_neg fun hc => absurd (f5.symm.trans hc) (by decide)) ?_
  refine firstRow_skip (if_neg fun hc => absurd (f5.symm.trans hc) (by decide)) ?_
  refine firstRow_skip (if_neg fun hc => absurd (f5.symm.trans hc) (by decide)) ?_
  exact firstRow_hit (by simp only [rowExcess, Sys2Proof.sw, f0, f2, f3, f4, f5, reduceIte])

theorem RoundTrip.closeBr (sw : Bool) (d : BitVec 7) (a : BitVec 7) (b : BitVec 7) :
    RoundTrip.Statement (.closeBr sw d a b) := by
  intro _ wd hx
  simp only [Instr.encode, Option.some.injEq] at hx
  have f0 : wd.getLsbD 31 = sw := by rw [← hx]; exact (bit_hi _ _ _ rfl).trans ((bit_hi _ _ _ rfl).trans ((bit_hi _ _ _ rfl).trans ((bit_hi _ _ _ rfl).trans ((bit_hi _ _ _ rfl).trans (bit_one _)))))
  have f1 : wd.extractLsb' 24 7 = 0x6D#7 := by rw [← hx]; exact (ext_hi _ _ _ _ rfl).trans ((ext_hi _ _ _ _ rfl).trans ((ext_hi _ _ _ _ rfl).trans ((ext_hi _ _ _ _ rfl).trans ((ext_lo _ _ _ _ rfl).trans (ext_all _)))))
  have f2 : wd.extractLsb' 17 7 = d := by rw [← hx]; exact (ext_hi _ _ _ _ rfl).trans ((ext_hi _ _ _ _ rfl).trans ((ext_hi _ _ _ _ rfl).trans ((ext_lo _ _ _ _ rfl).trans (ext_all _))))
  have f3 : wd.extractLsb' 10 7 = a := by rw [← hx]; exact (ext_hi _ _ _ _ rfl).trans ((ext_hi _ _ _ _ rfl).trans ((ext_lo _ _ _ _ rfl).trans (ext_all _)))
  have f4 : wd.extractLsb' 3 7 = b := by rw [← hx]; exact (ext_hi _ _ _ _ rfl).trans ((ext_lo _ _ _ _ rfl).trans (ext_all _))
  have f5 : wd.extractLsb' 0 3 = 0x0#3 := by rw [← hx]; exact (ext_lo _ _ _ _ rfl).trans (ext_all _)
  refine decode_row f1 rfl ?_
  exact firstRow_hit (by simp only [rowCloseBr, Sys2Proof.sw, f0, f2, f3, f4, f5, reduceIte])

theorem RoundTrip.openBr (sw : Bool) (d : BitVec 7) (a : BitVec 7) (b : BitVec 7) :
    RoundTrip.Statement (.openBr sw d a b) := by
  intro _ wd hx
  simp only [Instr.encode, Option.some.injEq] at hx
  have f0 : wd.getLsbD 31 = sw := by rw [← hx]; exact (bit_hi _ _ _ rfl).trans ((bit_hi _ _ _ rfl).trans ((bit_hi _ _ _ rfl).trans ((bit_hi _ _ _ rfl).trans ((bit_hi _ _ _ rfl).trans (bit_one _)))))
  have f1 : wd.extractLsb' 24 7 = 0x6D#7 := by rw [← hx]; exact (ext_hi _ _ _ _ rfl).trans ((ext_hi _ _ _ _ rfl).trans ((ext_hi _ _ _ _ rfl).trans ((ext_hi _ _ _ _ rfl).trans ((ext_lo _ _ _ _ rfl).trans (ext_all _)))))
  have f2 : wd.extractLsb' 17 7 = d := by rw [← hx]; exact (ext_hi _ _ _ _ rfl).trans ((ext_hi _ _ _ _ rfl).trans ((ext_hi _ _ _ _ rfl).trans ((ext_lo _ _ _ _ rfl).trans (ext_all _))))
  have f3 : wd.extractLsb' 10 7 = a := by rw [← hx]; exact (ext_hi _ _ _ _ rfl).trans ((ext_hi _ _ _ _ rfl).trans ((ext_lo _ _ _ _ rfl).trans (ext_all _)))
  have f4 : wd.extractLsb' 3 7 = b := by rw [← hx]; exact (ext_hi _ _ _ _ rfl).trans ((ext_lo _ _ _ _ rfl).trans (ext_all _))
  have f5 : wd.extractLsb' 0 3 = 0x1#3 := by rw [← hx]; exact (ext_lo _ _ _ _ rfl).trans (ext_all _)
  refine decode_row f1 rfl ?_
  refine firstRow_skip (if_neg fun hc => absurd (f5.symm.trans hc) (by decide)) ?_
  exact firstRow_hit (by simp only [rowOpenBr, Sys2Proof.sw, f0, f2, f3, f4, f5, reduceIte])

theorem RoundTrip.enclBr (sw : Bool) (d : BitVec 7) (a : BitVec 7) (b : BitVec 7) :
    RoundTrip.Statement (.enclBr sw d a b) := by
  intro _ wd hx
  simp only [Instr.encode, Option.some.injEq] at hx
  have f0 : wd.getLsbD 31 = sw := by rw [← hx]; exact (bit_hi _ _ _ rfl).trans ((bit_hi _ _ _ rfl).trans ((bit_hi _ _ _ rfl).trans ((bit_hi _ _ _ rfl).trans ((bit_hi _ _ _ rfl).trans (bit_one _)))))
  have f1 : wd.extractLsb' 24 7 = 0x6D#7 := by rw [← hx]; exact (ext_hi _ _ _ _ rfl).trans ((ext_hi _ _ _ _ rfl).trans ((ext_hi _ _ _ _ rfl).trans ((ext_hi _ _ _ _ rfl).trans ((ext_lo _ _ _ _ rfl).trans (ext_all _)))))
  have f2 : wd.extractLsb' 17 7 = d := by rw [← hx]; exact (ext_hi _ _ _ _ rfl).trans ((ext_hi _ _ _ _ rfl).trans ((ext_hi _ _ _ _ rfl).trans ((ext_lo _ _ _ _ rfl).trans (ext_all _))))
  have f3 : wd.extractLsb' 10 7 = a := by rw [← hx]; exact (ext_hi _ _ _ _ rfl).trans ((ext_hi _ _ _ _ rfl).trans ((ext_lo _ _ _ _ rfl).trans (ext_all _)))
  have f4 : wd.extractLsb' 3 7 = b := by rw [← hx]; exact (ext_hi _ _ _ _ rfl).trans ((ext_lo _ _ _ _ rfl).trans (ext_all _))
  have f5 : wd.extractLsb' 0 3 = 0x2#3 := by rw [← hx]; exact (ext_lo _ _ _ _ rfl).trans (ext_all _)
  refine decode_row f1 rfl ?_
  refine firstRow_skip (if_neg fun hc => absurd (f5.symm.trans hc) (by decide)) ?_
  refine firstRow_skip (if_neg fun hc => absurd (f5.symm.trans hc) (by decide)) ?_
  exact firstRow_hit (by simp only [rowEnclBr, Sys2Proof.sw, f0, f2, f3, f4, f5, reduceIte])

theorem RoundTrip.bins (sw : Bool) (d : BitVec 7) (a : BitVec 7) (b : BitVec 7) :
    RoundTrip.Statement (.bins sw d a b) := by
  intro _ wd hx
  simp only [Instr.encode, Option.some.injEq] at hx
  have f0 : wd.getLsbD 31 = sw := by rw [← hx]; exact (bit_hi _ _ _ rfl).trans ((bit_hi _ _ _ rfl).trans ((bit_hi _ _ _ rfl).trans ((bit_hi _ _ _ rfl).trans ((bit_hi _ _ _ rfl).trans (bit_one _)))))
  have f1 : wd.extractLsb' 24 7 = 0x6E#7 := by rw [← hx]; exact (ext_hi _ _ _ _ rfl).trans ((ext_hi _ _ _ _ rfl).trans ((ext_hi _ _ _ _ rfl).trans ((ext_hi _ _ _ _ rfl).trans ((ext_lo _ _ _ _ rfl).trans (ext_all _)))))
  have f2 : wd.extractLsb' 17 7 = d := by rw [← hx]; exact (ext_hi _ _ _ _ rfl).trans ((ext_hi _ _ _ _ rfl).trans ((ext_hi _ _ _ _ rfl).trans ((ext_lo _ _ _ _ rfl).trans (ext_all _))))
  have f3 : wd.extractLsb' 10 7 = a := by rw [← hx]; exact (ext_hi _ _ _ _ rfl).trans ((ext_hi _ _ _ _ rfl).trans ((ext_lo _ _ _ _ rfl).trans (ext_all _)))
  have f4 : wd.extractLsb' 3 7 = b := by rw [← hx]; exact (ext_hi _ _ _ _ rfl).trans ((ext_lo _ _ _ _ rfl).trans (ext_all _))
  have f5 : wd.extractLsb' 0 3 = 0x0#3 := by rw [← hx]; exact (ext_lo _ _ _ _ rfl).trans (ext_all _)
  refine decode_row f1 rfl ?_
  exact firstRow_hit (by simp only [rowBins, Sys2Proof.sw, f0, f2, f3, f4, f5, reduceIte])

theorem RoundTrip.bdel (sw : Bool) (d : BitVec 7) (a : BitVec 7) (b : BitVec 7) :
    RoundTrip.Statement (.bdel sw d a b) := by
  intro _ wd hx
  simp only [Instr.encode, Option.some.injEq] at hx
  have f0 : wd.getLsbD 31 = sw := by rw [← hx]; exact (bit_hi _ _ _ rfl).trans ((bit_hi _ _ _ rfl).trans ((bit_hi _ _ _ rfl).trans ((bit_hi _ _ _ rfl).trans ((bit_hi _ _ _ rfl).trans (bit_one _)))))
  have f1 : wd.extractLsb' 24 7 = 0x6F#7 := by rw [← hx]; exact (ext_hi _ _ _ _ rfl).trans ((ext_hi _ _ _ _ rfl).trans ((ext_hi _ _ _ _ rfl).trans ((ext_hi _ _ _ _ rfl).trans ((ext_lo _ _ _ _ rfl).trans (ext_all _)))))
  have f2 : wd.extractLsb' 17 7 = d := by rw [← hx]; exact (ext_hi _ _ _ _ rfl).trans ((ext_hi _ _ _ _ rfl).trans ((ext_hi _ _ _ _ rfl).trans ((ext_lo _ _ _ _ rfl).trans (ext_all _))))
  have f3 : wd.extractLsb' 10 7 = a := by rw [← hx]; exact (ext_hi _ _ _ _ rfl).trans ((ext_hi _ _ _ _ rfl).trans ((ext_lo _ _ _ _ rfl).trans (ext_all _)))
  have f4 : wd.extractLsb' 3 7 = b := by rw [← hx]; exact (ext_hi _ _ _ _ rfl).trans ((ext_lo _ _ _ _ rfl).trans (ext_all _))
  have f5 : wd.extractLsb' 0 3 = 0x0#3 := by rw [← hx]; exact (ext_lo _ _ _ _ rfl).trans (ext_all _)
  refine decode_row f1 rfl ?_
  exact firstRow_hit (by simp only [rowBdel, Sys2Proof.sw, f0, f2, f3, f4, f5, reduceIte])

theorem RoundTrip.sreg (sw : Bool) (d : BitVec 7) (a : BitVec 7) :
    RoundTrip.Statement (.sreg sw d a) := by
  intro _ wd hx
  simp only [Instr.encode, Option.some.injEq] at hx
  have f0 : wd.getLsbD 31 = sw := by rw [← hx]; exact (bit_hi _ _ _ rfl).trans ((bit_hi _ _ _ rfl).trans ((bit_hi _ _ _ rfl).trans ((bit_hi _ _ _ rfl).trans (bit_one _))))
  have f1 : wd.extractLsb' 24 7 = 0x70#7 := by rw [← hx]; exact (ext_hi _ _ _ _ rfl).trans ((ext_hi _ _ _ _ rfl).trans ((ext_hi _ _ _ _ rfl).trans ((ext_lo _ _ _ _ rfl).trans (ext_all _))))
  have f2 : wd.extractLsb' 17 7 = d := by rw [← hx]; exact (ext_hi _ _ _ _ rfl).trans ((ext_hi _ _ _ _ rfl).trans ((ext_lo _ _ _ _ rfl).trans (ext_all _)))
  have f3 : wd.extractLsb' 10 7 = a := by rw [← hx]; exact (ext_hi _ _ _ _ rfl).trans ((ext_lo _ _ _ _ rfl).trans (ext_all _))
  have f4 : wd.extractLsb' 0 10 = 0x0#10 := by rw [← hx]; exact (ext_lo _ _ _ _ rfl).trans (ext_all _)
  refine decode_row f1 rfl ?_
  exact firstRow_hit (by simp only [rowSreg, Sys2Proof.sw, f0, f2, f3, f4, reduceIte])

theorem RoundTrip.sdrop (sw : Bool) (a : BitVec 7) :
    RoundTrip.Statement (.sdrop sw a) := by
  intro _ wd hx
  simp only [Instr.encode, Option.some.injEq] at hx
  have f0 : wd.getLsbD 31 = sw := by rw [← hx]; exact (bit_hi _ _ _ rfl).trans ((bit_hi _ _ _ rfl).trans ((bit_hi _ _ _ rfl).trans ((bit_hi _ _ _ rfl).trans (bit_one _))))
  have f1 : wd.extractLsb' 24 7 = 0x71#7 := by rw [← hx]; exact (ext_hi _ _ _ _ rfl).trans ((ext_hi _ _ _ _ rfl).trans ((ext_hi _ _ _ _ rfl).trans ((ext_lo _ _ _ _ rfl).trans (ext_all _))))
  have f2 : wd.extractLsb' 17 7 = 0x0#7 := by rw [← hx]; exact (ext_hi _ _ _ _ rfl).trans ((ext_hi _ _ _ _ rfl).trans ((ext_lo _ _ _ _ rfl).trans (ext_all _)))
  have f3 : wd.extractLsb' 10 7 = a := by rw [← hx]; exact (ext_hi _ _ _ _ rfl).trans ((ext_lo _ _ _ _ rfl).trans (ext_all _))
  have f4 : wd.extractLsb' 0 10 = 0x0#10 := by rw [← hx]; exact (ext_lo _ _ _ _ rfl).trans (ext_all _)
  refine decode_row f1 rfl ?_
  exact firstRow_hit (by simp only [rowSdrop, Sys2Proof.sw, f0, f2, f3, f4, and_self, reduceIte])

theorem RoundTrip.sstat (sw : Bool) (d : BitVec 7) (a : BitVec 7) :
    RoundTrip.Statement (.sstat sw d a) := by
  intro _ wd hx
  simp only [Instr.encode, Option.some.injEq] at hx
  have f0 : wd.getLsbD 31 = sw := by rw [← hx]; exact (bit_hi _ _ _ rfl).trans ((bit_hi _ _ _ rfl).trans ((bit_hi _ _ _ rfl).trans ((bit_hi _ _ _ rfl).trans (bit_one _))))
  have f1 : wd.extractLsb' 24 7 = 0x71#7 := by rw [← hx]; exact (ext_hi _ _ _ _ rfl).trans ((ext_hi _ _ _ _ rfl).trans ((ext_hi _ _ _ _ rfl).trans ((ext_lo _ _ _ _ rfl).trans (ext_all _))))
  have f2 : wd.extractLsb' 17 7 = d := by rw [← hx]; exact (ext_hi _ _ _ _ rfl).trans ((ext_hi _ _ _ _ rfl).trans ((ext_lo _ _ _ _ rfl).trans (ext_all _)))
  have f3 : wd.extractLsb' 10 7 = a := by rw [← hx]; exact (ext_hi _ _ _ _ rfl).trans ((ext_lo _ _ _ _ rfl).trans (ext_all _))
  have f4 : wd.extractLsb' 0 10 = 0x1#10 := by rw [← hx]; exact (ext_lo _ _ _ _ rfl).trans (ext_all _)
  refine decode_row f1 rfl ?_
  refine firstRow_skip (if_neg fun hc => absurd (f4.symm.trans hc.2) (by decide)) ?_
  exact firstRow_hit (by simp only [rowSstat, Sys2Proof.sw, f0, f2, f3, f4, reduceIte])

theorem RoundTrip.ssync (sw : Bool) (a : BitVec 7) :
    RoundTrip.Statement (.ssync sw a) := by
  intro _ wd hx
  simp only [Instr.encode, Option.some.injEq] at hx
  have f0 : wd.getLsbD 31 = sw := by rw [← hx]; exact (bit_hi _ _ _ rfl).trans ((bit_hi _ _ _ rfl).trans ((bit_hi _ _ _ rfl).trans ((bit_hi _ _ _ rfl).trans (bit_one _))))
  have f1 : wd.extractLsb' 24 7 = 0x72#7 := by rw [← hx]; exact (ext_hi _ _ _ _ rfl).trans ((ext_hi _ _ _ _ rfl).trans ((ext_hi _ _ _ _ rfl).trans ((ext_lo _ _ _ _ rfl).trans (ext_all _))))
  have f2 : wd.extractLsb' 17 7 = 0x0#7 := by rw [← hx]; exact (ext_hi _ _ _ _ rfl).trans ((ext_hi _ _ _ _ rfl).trans ((ext_lo _ _ _ _ rfl).trans (ext_all _)))
  have f3 : wd.extractLsb' 10 7 = a := by rw [← hx]; exact (ext_hi _ _ _ _ rfl).trans ((ext_lo _ _ _ _ rfl).trans (ext_all _))
  have f4 : wd.extractLsb' 0 10 = 0x0#10 := by rw [← hx]; exact (ext_lo _ _ _ _ rfl).trans (ext_all _)
  refine decode_row f1 rfl ?_
  exact firstRow_hit (by simp only [rowSsync, Sys2Proof.sw, f0, f2, f3, f4, and_self, reduceIte])

theorem RoundTrip.nmload (sw : Bool) (a : BitVec 7) (b : BitVec 7) :
    RoundTrip.Statement (.nmload sw a b) := by
  intro _ wd hx
  simp only [Instr.encode, Option.some.injEq] at hx
  have f0 : wd.getLsbD 31 = sw := by rw [← hx]; exact (bit_hi _ _ _ rfl).trans ((bit_hi _ _ _ rfl).trans ((bit_hi _ _ _ rfl).trans ((bit_hi _ _ _ rfl).trans ((bit_hi _ _ _ rfl).trans (bit_one _)))))
  have f1 : wd.extractLsb' 24 7 = 0x74#7 := by rw [← hx]; exact (ext_hi _ _ _ _ rfl).trans ((ext_hi _ _ _ _ rfl).trans ((ext_hi _ _ _ _ rfl).trans ((ext_hi _ _ _ _ rfl).trans ((ext_lo _ _ _ _ rfl).trans (ext_all _)))))
  have f2 : wd.extractLsb' 17 7 = 0x0#7 := by rw [← hx]; exact (ext_hi _ _ _ _ rfl).trans ((ext_hi _ _ _ _ rfl).trans ((ext_hi _ _ _ _ rfl).trans ((ext_lo _ _ _ _ rfl).trans (ext_all _))))
  have f3 : wd.extractLsb' 10 7 = a := by rw [← hx]; exact (ext_hi _ _ _ _ rfl).trans ((ext_hi _ _ _ _ rfl).trans ((ext_lo _ _ _ _ rfl).trans (ext_all _)))
  have f4 : wd.extractLsb' 3 7 = b := by rw [← hx]; exact (ext_hi _ _ _ _ rfl).trans ((ext_lo _ _ _ _ rfl).trans (ext_all _))
  have f5 : wd.extractLsb' 0 3 = 0x0#3 := by rw [← hx]; exact (ext_lo _ _ _ _ rfl).trans (ext_all _)
  refine decode_row f1 rfl ?_
  exact firstRow_hit (by simp only [rowNmload, Sys2Proof.sw, f0, f2, f3, f4, f5, and_self, reduceIte])

theorem RoundTrip.nmrun (sw : Bool) (a : BitVec 7) (b : BitVec 7) :
    RoundTrip.Statement (.nmrun sw a b) := by
  intro _ wd hx
  simp only [Instr.encode, Option.some.injEq] at hx
  have f0 : wd.getLsbD 31 = sw := by rw [← hx]; exact (bit_hi _ _ _ rfl).trans ((bit_hi _ _ _ rfl).trans ((bit_hi _ _ _ rfl).trans ((bit_hi _ _ _ rfl).trans ((bit_hi _ _ _ rfl).trans (bit_one _)))))
  have f1 : wd.extractLsb' 24 7 = 0x75#7 := by rw [← hx]; exact (ext_hi _ _ _ _ rfl).trans ((ext_hi _ _ _ _ rfl).trans ((ext_hi _ _ _ _ rfl).trans ((ext_hi _ _ _ _ rfl).trans ((ext_lo _ _ _ _ rfl).trans (ext_all _)))))
  have f2 : wd.extractLsb' 17 7 = 0x0#7 := by rw [← hx]; exact (ext_hi _ _ _ _ rfl).trans ((ext_hi _ _ _ _ rfl).trans ((ext_hi _ _ _ _ rfl).trans ((ext_lo _ _ _ _ rfl).trans (ext_all _))))
  have f3 : wd.extractLsb' 10 7 = a := by rw [← hx]; exact (ext_hi _ _ _ _ rfl).trans ((ext_hi _ _ _ _ rfl).trans ((ext_lo _ _ _ _ rfl).trans (ext_all _)))
  have f4 : wd.extractLsb' 3 7 = b := by rw [← hx]; exact (ext_hi _ _ _ _ rfl).trans ((ext_lo _ _ _ _ rfl).trans (ext_all _))
  have f5 : wd.extractLsb' 0 3 = 0x0#3 := by rw [← hx]; exact (ext_lo _ _ _ _ rfl).trans (ext_all _)
  refine decode_row f1 rfl ?_
  exact firstRow_hit (by simp only [rowNmrun, Sys2Proof.sw, f0, f2, f3, f4, f5, and_self, reduceIte])

theorem RoundTrip.nmrunRet (sw : Bool) (d : BitVec 7) (a : BitVec 7) (b : BitVec 7) :
    RoundTrip.Statement (.nmrunRet sw d a b) := by
  intro _ wd hx
  simp only [Instr.encode, Option.some.injEq] at hx
  have f0 : wd.getLsbD 31 = sw := by rw [← hx]; exact (bit_hi _ _ _ rfl).trans ((bit_hi _ _ _ rfl).trans ((bit_hi _ _ _ rfl).trans ((bit_hi _ _ _ rfl).trans ((bit_hi _ _ _ rfl).trans (bit_one _)))))
  have f1 : wd.extractLsb' 24 7 = 0x75#7 := by rw [← hx]; exact (ext_hi _ _ _ _ rfl).trans ((ext_hi _ _ _ _ rfl).trans ((ext_hi _ _ _ _ rfl).trans ((ext_hi _ _ _ _ rfl).trans ((ext_lo _ _ _ _ rfl).trans (ext_all _)))))
  have f2 : wd.extractLsb' 17 7 = d := by rw [← hx]; exact (ext_hi _ _ _ _ rfl).trans ((ext_hi _ _ _ _ rfl).trans ((ext_hi _ _ _ _ rfl).trans ((ext_lo _ _ _ _ rfl).trans (ext_all _))))
  have f3 : wd.extractLsb' 10 7 = a := by rw [← hx]; exact (ext_hi _ _ _ _ rfl).trans ((ext_hi _ _ _ _ rfl).trans ((ext_lo _ _ _ _ rfl).trans (ext_all _)))
  have f4 : wd.extractLsb' 3 7 = b := by rw [← hx]; exact (ext_hi _ _ _ _ rfl).trans ((ext_lo _ _ _ _ rfl).trans (ext_all _))
  have f5 : wd.extractLsb' 0 3 = 0x1#3 := by rw [← hx]; exact (ext_lo _ _ _ _ rfl).trans (ext_all _)
  refine decode_row f1 rfl ?_
  refine firstRow_skip (if_neg fun hc => absurd (f5.symm.trans hc.2) (by decide)) ?_
  exact firstRow_hit (by simp only [rowNmrunRet, Sys2Proof.sw, f0, f2, f3, f4, f5, reduceIte])

theorem RoundTrip.redNmAdd (sw : Bool) (o : Bool) (w : Width) (a : BitVec 7) (b : BitVec 7) (f : BitVec 3) :
    RoundTrip.Statement (.redNmAdd sw o w a b f) := by
  intro _ wd hx
  simp only [Instr.encode, Option.some.injEq] at hx
  have f0 : wd.getLsbD 31 = sw := by rw [← hx]; exact (bit_hi _ _ _ rfl).trans ((bit_hi _ _ _ rfl).trans ((bit_hi _ _ _ rfl).trans ((bit_hi _ _ _ rfl).trans ((bit_hi _ _ _ rfl).trans ((bit_hi _ _ _ rfl).trans ((bit_hi _ _ _ rfl).trans (bit_one _)))))))
  have f1 : wd.extractLsb' 24 7 = 0x76#7 := by rw [← hx]; exact (ext_hi _ _ _ _ rfl).trans ((ext_hi _ _ _ _ rfl).trans ((ext_hi _ _ _ _ rfl).trans ((ext_hi _ _ _ _ rfl).trans ((ext_hi _ _ _ _ rfl).trans ((ext_hi _ _ _ _ rfl).trans ((ext_lo _ _ _ _ rfl).trans (ext_all _)))))))
  have f2 : wd.getLsbD 23 = o := by rw [← hx]; exact (bit_hi _ _ _ rfl).trans ((bit_hi _ _ _ rfl).trans ((bit_hi _ _ _ rfl).trans ((bit_hi _ _ _ rfl).trans ((bit_hi _ _ _ rfl).trans ((bit_lo _ _ _ rfl).trans (bit_one _))))))
  have f3 : wd.extractLsb' 18 5 = 0x0#5 := by rw [← hx]; exact (ext_hi _ _ _ _ rfl).trans ((ext_hi _ _ _ _ rfl).trans ((ext_hi _ _ _ _ rfl).trans ((ext_hi _ _ _ _ rfl).trans ((ext_lo _ _ _ _ rfl).trans (ext_all _)))))
  have f4 : wd.extractLsb' 17 1 = w.code := by rw [← hx]; exact (ext_hi _ _ _ _ rfl).trans ((ext_hi _ _ _ _ rfl).trans ((ext_hi _ _ _ _ rfl).trans ((ext_lo _ _ _ _ rfl).trans (ext_all _))))
  have f5 : wd.extractLsb' 10 7 = a := by rw [← hx]; exact (ext_hi _ _ _ _ rfl).trans ((ext_hi _ _ _ _ rfl).trans ((ext_lo _ _ _ _ rfl).trans (ext_all _)))
  have f6 : wd.extractLsb' 3 7 = b := by rw [← hx]; exact (ext_hi _ _ _ _ rfl).trans ((ext_lo _ _ _ _ rfl).trans (ext_all _))
  have f7 : wd.extractLsb' 0 3 = f := by rw [← hx]; exact (ext_lo _ _ _ _ rfl).trans (ext_all _)
  refine decode_row f1 rfl ?_
  exact firstRow_hit (by simp only [rowRedNmAdd, Sys2Proof.sw, f0, f2, f3, f4, f5, f6, f7, Width_ofCode_code, reduceIte])

theorem RoundTrip.redNmAddF32 (sw : Bool) (o : Bool) (a : BitVec 7) (b : BitVec 7) (f : BitVec 3) :
    RoundTrip.Statement (.redNmAddF32 sw o a b f) := by
  intro _ wd hx
  simp only [Instr.encode, Option.some.injEq] at hx
  have f0 : wd.getLsbD 31 = sw := by rw [← hx]; exact (bit_hi _ _ _ rfl).trans ((bit_hi _ _ _ rfl).trans ((bit_hi _ _ _ rfl).trans ((bit_hi _ _ _ rfl).trans ((bit_hi _ _ _ rfl).trans ((bit_hi _ _ _ rfl).trans (bit_one _))))))
  have f1 : wd.extractLsb' 24 7 = 0x76#7 := by rw [← hx]; exact (ext_hi _ _ _ _ rfl).trans ((ext_hi _ _ _ _ rfl).trans ((ext_hi _ _ _ _ rfl).trans ((ext_hi _ _ _ _ rfl).trans ((ext_hi _ _ _ _ rfl).trans ((ext_lo _ _ _ _ rfl).trans (ext_all _))))))
  have f2 : wd.getLsbD 23 = o := by rw [← hx]; exact (bit_hi _ _ _ rfl).trans ((bit_hi _ _ _ rfl).trans ((bit_hi _ _ _ rfl).trans ((bit_hi _ _ _ rfl).trans ((bit_lo _ _ _ rfl).trans (bit_one _)))))
  have f3 : wd.extractLsb' 17 6 = 0x2#6 := by rw [← hx]; exact (ext_hi _ _ _ _ rfl).trans ((ext_hi _ _ _ _ rfl).trans ((ext_hi _ _ _ _ rfl).trans ((ext_lo _ _ _ _ rfl).trans (ext_all _))))
  have f4 : wd.extractLsb' 10 7 = a := by rw [← hx]; exact (ext_hi _ _ _ _ rfl).trans ((ext_hi _ _ _ _ rfl).trans ((ext_lo _ _ _ _ rfl).trans (ext_all _)))
  have f5 : wd.extractLsb' 3 7 = b := by rw [← hx]; exact (ext_hi _ _ _ _ rfl).trans ((ext_lo _ _ _ _ rfl).trans (ext_all _))
  have f6 : wd.extractLsb' 0 3 = f := by rw [← hx]; exact (ext_lo _ _ _ _ rfl).trans (ext_all _)
  have bredNmAdd : wd.getLsbD 18 = true := by rw [← hx]; exact (bit_hi _ _ _ rfl).trans ((bit_hi _ _ _ rfl).trans ((bit_hi _ _ _ rfl).trans ((bit_lo _ _ _ rfl).trans rfl)))
  have gredNmAdd : wd.extractLsb' 18 5 ≠ 0x0#5 := field_ne (k := 0) bredNmAdd rfl (by decide)
  refine decode_row f1 rfl ?_
  refine firstRow_skip (if_neg fun hc => gredNmAdd hc) ?_
  exact firstRow_hit (by simp only [rowRedNmAddF32, Sys2Proof.sw, f0, f2, f3, f4, f5, f6, reduceIte])

theorem RoundTrip.redNmMinI32 (sw : Bool) (o : Bool) (a : BitVec 7) (b : BitVec 7) (f : BitVec 3) :
    RoundTrip.Statement (.redNmMinI32 sw o a b f) := by
  intro _ wd hx
  simp only [Instr.encode, Option.some.injEq] at hx
  have f0 : wd.getLsbD 31 = sw := by rw [← hx]; exact (bit_hi _ _ _ rfl).trans ((bit_hi _ _ _ rfl).trans ((bit_hi _ _ _ rfl).trans ((bit_hi _ _ _ rfl).trans ((bit_hi _ _ _ rfl).trans ((bit_hi _ _ _ rfl).trans (bit_one _))))))
  have f1 : wd.extractLsb' 24 7 = 0x76#7 := by rw [← hx]; exact (ext_hi _ _ _ _ rfl).trans ((ext_hi _ _ _ _ rfl).trans ((ext_hi _ _ _ _ rfl).trans ((ext_hi _ _ _ _ rfl).trans ((ext_hi _ _ _ _ rfl).trans ((ext_lo _ _ _ _ rfl).trans (ext_all _))))))
  have f2 : wd.getLsbD 23 = o := by rw [← hx]; exact (bit_hi _ _ _ rfl).trans ((bit_hi _ _ _ rfl).trans ((bit_hi _ _ _ rfl).trans ((bit_hi _ _ _ rfl).trans ((bit_lo _ _ _ rfl).trans (bit_one _)))))
  have f3 : wd.extractLsb' 17 6 = 0x3#6 := by rw [← hx]; exact (ext_hi _ _ _ _ rfl).trans ((ext_hi _ _ _ _ rfl).trans ((ext_hi _ _ _ _ rfl).trans ((ext_lo _ _ _ _ rfl).trans (ext_all _))))
  have f4 : wd.extractLsb' 10 7 = a := by rw [← hx]; exact (ext_hi _ _ _ _ rfl).trans ((ext_hi _ _ _ _ rfl).trans ((ext_lo _ _ _ _ rfl).trans (ext_all _)))
  have f5 : wd.extractLsb' 3 7 = b := by rw [← hx]; exact (ext_hi _ _ _ _ rfl).trans ((ext_lo _ _ _ _ rfl).trans (ext_all _))
  have f6 : wd.extractLsb' 0 3 = f := by rw [← hx]; exact (ext_lo _ _ _ _ rfl).trans (ext_all _)
  have bredNmAdd : wd.getLsbD 18 = true := by rw [← hx]; exact (bit_hi _ _ _ rfl).trans ((bit_hi _ _ _ rfl).trans ((bit_hi _ _ _ rfl).trans ((bit_lo _ _ _ rfl).trans rfl)))
  have gredNmAdd : wd.extractLsb' 18 5 ≠ 0x0#5 := field_ne (k := 0) bredNmAdd rfl (by decide)
  refine decode_row f1 rfl ?_
  refine firstRow_skip (if_neg fun hc => gredNmAdd hc) ?_
  refine firstRow_skip (if_neg fun hc => absurd (f3.symm.trans hc) (by decide)) ?_
  exact firstRow_hit (by simp only [rowRedNmMinI32, Sys2Proof.sw, f0, f2, f3, f4, f5, f6, reduceIte])

theorem RoundTrip.redNmMinN32 (sw : Bool) (o : Bool) (a : BitVec 7) (b : BitVec 7) (f : BitVec 3) :
    RoundTrip.Statement (.redNmMinN32 sw o a b f) := by
  intro _ wd hx
  simp only [Instr.encode, Option.some.injEq] at hx
  have f0 : wd.getLsbD 31 = sw := by rw [← hx]; exact (bit_hi _ _ _ rfl).trans ((bit_hi _ _ _ rfl).trans ((bit_hi _ _ _ rfl).trans ((bit_hi _ _ _ rfl).trans ((bit_hi _ _ _ rfl).trans ((bit_hi _ _ _ rfl).trans (bit_one _))))))
  have f1 : wd.extractLsb' 24 7 = 0x76#7 := by rw [← hx]; exact (ext_hi _ _ _ _ rfl).trans ((ext_hi _ _ _ _ rfl).trans ((ext_hi _ _ _ _ rfl).trans ((ext_hi _ _ _ _ rfl).trans ((ext_hi _ _ _ _ rfl).trans ((ext_lo _ _ _ _ rfl).trans (ext_all _))))))
  have f2 : wd.getLsbD 23 = o := by rw [← hx]; exact (bit_hi _ _ _ rfl).trans ((bit_hi _ _ _ rfl).trans ((bit_hi _ _ _ rfl).trans ((bit_hi _ _ _ rfl).trans ((bit_lo _ _ _ rfl).trans (bit_one _)))))
  have f3 : wd.extractLsb' 17 6 = 0x4#6 := by rw [← hx]; exact (ext_hi _ _ _ _ rfl).trans ((ext_hi _ _ _ _ rfl).trans ((ext_hi _ _ _ _ rfl).trans ((ext_lo _ _ _ _ rfl).trans (ext_all _))))
  have f4 : wd.extractLsb' 10 7 = a := by rw [← hx]; exact (ext_hi _ _ _ _ rfl).trans ((ext_hi _ _ _ _ rfl).trans ((ext_lo _ _ _ _ rfl).trans (ext_all _)))
  have f5 : wd.extractLsb' 3 7 = b := by rw [← hx]; exact (ext_hi _ _ _ _ rfl).trans ((ext_lo _ _ _ _ rfl).trans (ext_all _))
  have f6 : wd.extractLsb' 0 3 = f := by rw [← hx]; exact (ext_lo _ _ _ _ rfl).trans (ext_all _)
  have bredNmAdd : wd.getLsbD 19 = true := by rw [← hx]; exact (bit_hi _ _ _ rfl).trans ((bit_hi _ _ _ rfl).trans ((bit_hi _ _ _ rfl).trans ((bit_lo _ _ _ rfl).trans rfl)))
  have gredNmAdd : wd.extractLsb' 18 5 ≠ 0x0#5 := field_ne (k := 1) bredNmAdd rfl (by decide)
  refine decode_row f1 rfl ?_
  refine firstRow_skip (if_neg fun hc => gredNmAdd hc) ?_
  refine firstRow_skip (if_neg fun hc => absurd (f3.symm.trans hc) (by decide)) ?_
  refine firstRow_skip (if_neg fun hc => absurd (f3.symm.trans hc) (by decide)) ?_
  exact firstRow_hit (by simp only [rowRedNmMinN32, Sys2Proof.sw, f0, f2, f3, f4, f5, f6, reduceIte])

theorem RoundTrip.redNmMaxI32 (sw : Bool) (o : Bool) (a : BitVec 7) (b : BitVec 7) (f : BitVec 3) :
    RoundTrip.Statement (.redNmMaxI32 sw o a b f) := by
  intro _ wd hx
  simp only [Instr.encode, Option.some.injEq] at hx
  have f0 : wd.getLsbD 31 = sw := by rw [← hx]; exact (bit_hi _ _ _ rfl).trans ((bit_hi _ _ _ rfl).trans ((bit_hi _ _ _ rfl).trans ((bit_hi _ _ _ rfl).trans ((bit_hi _ _ _ rfl).trans ((bit_hi _ _ _ rfl).trans (bit_one _))))))
  have f1 : wd.extractLsb' 24 7 = 0x76#7 := by rw [← hx]; exact (ext_hi _ _ _ _ rfl).trans ((ext_hi _ _ _ _ rfl).trans ((ext_hi _ _ _ _ rfl).trans ((ext_hi _ _ _ _ rfl).trans ((ext_hi _ _ _ _ rfl).trans ((ext_lo _ _ _ _ rfl).trans (ext_all _))))))
  have f2 : wd.getLsbD 23 = o := by rw [← hx]; exact (bit_hi _ _ _ rfl).trans ((bit_hi _ _ _ rfl).trans ((bit_hi _ _ _ rfl).trans ((bit_hi _ _ _ rfl).trans ((bit_lo _ _ _ rfl).trans (bit_one _)))))
  have f3 : wd.extractLsb' 17 6 = 0x5#6 := by rw [← hx]; exact (ext_hi _ _ _ _ rfl).trans ((ext_hi _ _ _ _ rfl).trans ((ext_hi _ _ _ _ rfl).trans ((ext_lo _ _ _ _ rfl).trans (ext_all _))))
  have f4 : wd.extractLsb' 10 7 = a := by rw [← hx]; exact (ext_hi _ _ _ _ rfl).trans ((ext_hi _ _ _ _ rfl).trans ((ext_lo _ _ _ _ rfl).trans (ext_all _)))
  have f5 : wd.extractLsb' 3 7 = b := by rw [← hx]; exact (ext_hi _ _ _ _ rfl).trans ((ext_lo _ _ _ _ rfl).trans (ext_all _))
  have f6 : wd.extractLsb' 0 3 = f := by rw [← hx]; exact (ext_lo _ _ _ _ rfl).trans (ext_all _)
  have bredNmAdd : wd.getLsbD 19 = true := by rw [← hx]; exact (bit_hi _ _ _ rfl).trans ((bit_hi _ _ _ rfl).trans ((bit_hi _ _ _ rfl).trans ((bit_lo _ _ _ rfl).trans rfl)))
  have gredNmAdd : wd.extractLsb' 18 5 ≠ 0x0#5 := field_ne (k := 1) bredNmAdd rfl (by decide)
  refine decode_row f1 rfl ?_
  refine firstRow_skip (if_neg fun hc => gredNmAdd hc) ?_
  refine firstRow_skip (if_neg fun hc => absurd (f3.symm.trans hc) (by decide)) ?_
  refine firstRow_skip (if_neg fun hc => absurd (f3.symm.trans hc) (by decide)) ?_
  refine firstRow_skip (if_neg fun hc => absurd (f3.symm.trans hc) (by decide)) ?_
  exact firstRow_hit (by simp only [rowRedNmMaxI32, Sys2Proof.sw, f0, f2, f3, f4, f5, f6, reduceIte])

theorem RoundTrip.redNmMaxN32 (sw : Bool) (o : Bool) (a : BitVec 7) (b : BitVec 7) (f : BitVec 3) :
    RoundTrip.Statement (.redNmMaxN32 sw o a b f) := by
  intro _ wd hx
  simp only [Instr.encode, Option.some.injEq] at hx
  have f0 : wd.getLsbD 31 = sw := by rw [← hx]; exact (bit_hi _ _ _ rfl).trans ((bit_hi _ _ _ rfl).trans ((bit_hi _ _ _ rfl).trans ((bit_hi _ _ _ rfl).trans ((bit_hi _ _ _ rfl).trans ((bit_hi _ _ _ rfl).trans (bit_one _))))))
  have f1 : wd.extractLsb' 24 7 = 0x76#7 := by rw [← hx]; exact (ext_hi _ _ _ _ rfl).trans ((ext_hi _ _ _ _ rfl).trans ((ext_hi _ _ _ _ rfl).trans ((ext_hi _ _ _ _ rfl).trans ((ext_hi _ _ _ _ rfl).trans ((ext_lo _ _ _ _ rfl).trans (ext_all _))))))
  have f2 : wd.getLsbD 23 = o := by rw [← hx]; exact (bit_hi _ _ _ rfl).trans ((bit_hi _ _ _ rfl).trans ((bit_hi _ _ _ rfl).trans ((bit_hi _ _ _ rfl).trans ((bit_lo _ _ _ rfl).trans (bit_one _)))))
  have f3 : wd.extractLsb' 17 6 = 0x6#6 := by rw [← hx]; exact (ext_hi _ _ _ _ rfl).trans ((ext_hi _ _ _ _ rfl).trans ((ext_hi _ _ _ _ rfl).trans ((ext_lo _ _ _ _ rfl).trans (ext_all _))))
  have f4 : wd.extractLsb' 10 7 = a := by rw [← hx]; exact (ext_hi _ _ _ _ rfl).trans ((ext_hi _ _ _ _ rfl).trans ((ext_lo _ _ _ _ rfl).trans (ext_all _)))
  have f5 : wd.extractLsb' 3 7 = b := by rw [← hx]; exact (ext_hi _ _ _ _ rfl).trans ((ext_lo _ _ _ _ rfl).trans (ext_all _))
  have f6 : wd.extractLsb' 0 3 = f := by rw [← hx]; exact (ext_lo _ _ _ _ rfl).trans (ext_all _)
  have bredNmAdd : wd.getLsbD 18 = true := by rw [← hx]; exact (bit_hi _ _ _ rfl).trans ((bit_hi _ _ _ rfl).trans ((bit_hi _ _ _ rfl).trans ((bit_lo _ _ _ rfl).trans rfl)))
  have gredNmAdd : wd.extractLsb' 18 5 ≠ 0x0#5 := field_ne (k := 0) bredNmAdd rfl (by decide)
  refine decode_row f1 rfl ?_
  refine firstRow_skip (if_neg fun hc => gredNmAdd hc) ?_
  refine firstRow_skip (if_neg fun hc => absurd (f3.symm.trans hc) (by decide)) ?_
  refine firstRow_skip (if_neg fun hc => absurd (f3.symm.trans hc) (by decide)) ?_
  refine firstRow_skip (if_neg fun hc => absurd (f3.symm.trans hc) (by decide)) ?_
  refine firstRow_skip (if_neg fun hc => absurd (f3.symm.trans hc) (by decide)) ?_
  exact firstRow_hit (by simp only [rowRedNmMaxN32, Sys2Proof.sw, f0, f2, f3, f4, f5, f6, reduceIte])

theorem RoundTrip.redNmOr (sw : Bool) (o : Bool) (a : BitVec 7) (b : BitVec 7) (f : BitVec 3) :
    RoundTrip.Statement (.redNmOr sw o a b f) := by
  intro _ wd hx
  simp only [Instr.encode, Option.some.injEq] at hx
  have f0 : wd.getLsbD 31 = sw := by rw [← hx]; exact (bit_hi _ _ _ rfl).trans ((bit_hi _ _ _ rfl).trans ((bit_hi _ _ _ rfl).trans ((bit_hi _ _ _ rfl).trans ((bit_hi _ _ _ rfl).trans ((bit_hi _ _ _ rfl).trans (bit_one _))))))
  have f1 : wd.extractLsb' 24 7 = 0x76#7 := by rw [← hx]; exact (ext_hi _ _ _ _ rfl).trans ((ext_hi _ _ _ _ rfl).trans ((ext_hi _ _ _ _ rfl).trans ((ext_hi _ _ _ _ rfl).trans ((ext_hi _ _ _ _ rfl).trans ((ext_lo _ _ _ _ rfl).trans (ext_all _))))))
  have f2 : wd.getLsbD 23 = o := by rw [← hx]; exact (bit_hi _ _ _ rfl).trans ((bit_hi _ _ _ rfl).trans ((bit_hi _ _ _ rfl).trans ((bit_hi _ _ _ rfl).trans ((bit_lo _ _ _ rfl).trans (bit_one _)))))
  have f3 : wd.extractLsb' 17 6 = 0x8#6 := by rw [← hx]; exact (ext_hi _ _ _ _ rfl).trans ((ext_hi _ _ _ _ rfl).trans ((ext_hi _ _ _ _ rfl).trans ((ext_lo _ _ _ _ rfl).trans (ext_all _))))
  have f4 : wd.extractLsb' 10 7 = a := by rw [← hx]; exact (ext_hi _ _ _ _ rfl).trans ((ext_hi _ _ _ _ rfl).trans ((ext_lo _ _ _ _ rfl).trans (ext_all _)))
  have f5 : wd.extractLsb' 3 7 = b := by rw [← hx]; exact (ext_hi _ _ _ _ rfl).trans ((ext_lo _ _ _ _ rfl).trans (ext_all _))
  have f6 : wd.extractLsb' 0 3 = f := by rw [← hx]; exact (ext_lo _ _ _ _ rfl).trans (ext_all _)
  have bredNmAdd : wd.getLsbD 20 = true := by rw [← hx]; exact (bit_hi _ _ _ rfl).trans ((bit_hi _ _ _ rfl).trans ((bit_hi _ _ _ rfl).trans ((bit_lo _ _ _ rfl).trans rfl)))
  have gredNmAdd : wd.extractLsb' 18 5 ≠ 0x0#5 := field_ne (k := 2) bredNmAdd rfl (by decide)
  refine decode_row f1 rfl ?_
  refine firstRow_skip (if_neg fun hc => gredNmAdd hc) ?_
  refine firstRow_skip (if_neg fun hc => absurd (f3.symm.trans hc) (by decide)) ?_
  refine firstRow_skip (if_neg fun hc => absurd (f3.symm.trans hc) (by decide)) ?_
  refine firstRow_skip (if_neg fun hc => absurd (f3.symm.trans hc) (by decide)) ?_
  refine firstRow_skip (if_neg fun hc => absurd (f3.symm.trans hc) (by decide)) ?_
  refine firstRow_skip (if_neg fun hc => absurd (f3.symm.trans hc) (by decide)) ?_
  exact firstRow_hit (by simp only [rowRedNmOr, Sys2Proof.sw, f0, f2, f3, f4, f5, f6, reduceIte])

theorem RoundTrip.rzero (sw : Bool) (a : BitVec 7) :
    RoundTrip.Statement (.rzero sw a) := by
  intro _ wd hx
  simp only [Instr.encode, Option.some.injEq] at hx
  have f0 : wd.getLsbD 31 = sw := by rw [← hx]; exact (bit_hi _ _ _ rfl).trans ((bit_hi _ _ _ rfl).trans ((bit_hi _ _ _ rfl).trans ((bit_hi _ _ _ rfl).trans (bit_one _))))
  have f1 : wd.extractLsb' 24 7 = 0x77#7 := by rw [← hx]; exact (ext_hi _ _ _ _ rfl).trans ((ext_hi _ _ _ _ rfl).trans ((ext_hi _ _ _ _ rfl).trans ((ext_lo _ _ _ _ rfl).trans (ext_all _))))
  have f2 : wd.extractLsb' 17 7 = 0x0#7 := by rw [← hx]; exact (ext_hi _ _ _ _ rfl).trans ((ext_hi _ _ _ _ rfl).trans ((ext_lo _ _ _ _ rfl).trans (ext_all _)))
  have f3 : wd.extractLsb' 10 7 = a := by rw [← hx]; exact (ext_hi _ _ _ _ rfl).trans ((ext_lo _ _ _ _ rfl).trans (ext_all _))
  have f4 : wd.extractLsb' 0 10 = 0x0#10 := by rw [← hx]; exact (ext_lo _ _ _ _ rfl).trans (ext_all _)
  refine decode_row f1 rfl ?_
  exact firstRow_hit (by simp only [rowRzero, Sys2Proof.sw, f0, f2, f3, f4, and_self, reduceIte])

theorem RoundTrip.rcopy (sw : Bool) (a : BitVec 7) (b : BitVec 7) :
    RoundTrip.Statement (.rcopy sw a b) := by
  intro _ wd hx
  simp only [Instr.encode, Option.some.injEq] at hx
  have f0 : wd.getLsbD 31 = sw := by rw [← hx]; exact (bit_hi _ _ _ rfl).trans ((bit_hi _ _ _ rfl).trans ((bit_hi _ _ _ rfl).trans ((bit_hi _ _ _ rfl).trans ((bit_hi _ _ _ rfl).trans (bit_one _)))))
  have f1 : wd.extractLsb' 24 7 = 0x77#7 := by rw [← hx]; exact (ext_hi _ _ _ _ rfl).trans ((ext_hi _ _ _ _ rfl).trans ((ext_hi _ _ _ _ rfl).trans ((ext_hi _ _ _ _ rfl).trans ((ext_lo _ _ _ _ rfl).trans (ext_all _)))))
  have f2 : wd.extractLsb' 17 7 = 0x0#7 := by rw [← hx]; exact (ext_hi _ _ _ _ rfl).trans ((ext_hi _ _ _ _ rfl).trans ((ext_hi _ _ _ _ rfl).trans ((ext_lo _ _ _ _ rfl).trans (ext_all _))))
  have f3 : wd.extractLsb' 10 7 = a := by rw [← hx]; exact (ext_hi _ _ _ _ rfl).trans ((ext_hi _ _ _ _ rfl).trans ((ext_lo _ _ _ _ rfl).trans (ext_all _)))
  have f4 : wd.extractLsb' 3 7 = b := by rw [← hx]; exact (ext_hi _ _ _ _ rfl).trans ((ext_lo _ _ _ _ rfl).trans (ext_all _))
  have f5 : wd.extractLsb' 0 3 = 0x1#3 := by rw [← hx]; exact (ext_lo _ _ _ _ rfl).trans (ext_all _)
  have brzero : wd.getLsbD 0 = true := by rw [← hx]; exact (bit_lo _ _ _ rfl).trans rfl
  have grzero : wd.extractLsb' 0 10 ≠ 0x0#10 := field_ne (k := 0) brzero rfl (by decide)
  refine decode_row f1 rfl ?_
  refine firstRow_skip (if_neg fun hc => grzero hc.2) ?_
  exact firstRow_hit (by simp only [rowRcopy, Sys2Proof.sw, f0, f2, f3, f4, f5, and_self, reduceIte])

theorem RoundTrip.solicit (sw : Bool) (q : BitVec 4) (a : BitVec 7) (n : ArgCount) (c : Combine) (f : BitVec 3) :
    RoundTrip.Statement (.solicit sw q a n c f) := by
  intro _ wd hx
  simp only [Instr.encode, Option.some.injEq] at hx
  have f0 : wd.getLsbD 31 = sw := by rw [← hx]; exact (bit_hi _ _ _ rfl).trans ((bit_hi _ _ _ rfl).trans ((bit_hi _ _ _ rfl).trans ((bit_hi _ _ _ rfl).trans ((bit_hi _ _ _ rfl).trans ((bit_hi _ _ _ rfl).trans ((bit_hi _ _ _ rfl).trans (bit_one _)))))))
  have f1 : wd.extractLsb' 24 7 = 0x78#7 := by rw [← hx]; exact (ext_hi _ _ _ _ rfl).trans ((ext_hi _ _ _ _ rfl).trans ((ext_hi _ _ _ _ rfl).trans ((ext_hi _ _ _ _ rfl).trans ((ext_hi _ _ _ _ rfl).trans ((ext_hi _ _ _ _ rfl).trans ((ext_lo _ _ _ _ rfl).trans (ext_all _)))))))
  have f2 : wd.extractLsb' 21 3 = 0x0#3 := by rw [← hx]; exact (ext_hi _ _ _ _ rfl).trans ((ext_hi _ _ _ _ rfl).trans ((ext_hi _ _ _ _ rfl).trans ((ext_hi _ _ _ _ rfl).trans ((ext_hi _ _ _ _ rfl).trans ((ext_lo _ _ _ _ rfl).trans (ext_all _))))))
  have f3 : wd.extractLsb' 17 4 = q := by rw [← hx]; exact (ext_hi _ _ _ _ rfl).trans ((ext_hi _ _ _ _ rfl).trans ((ext_hi _ _ _ _ rfl).trans ((ext_hi _ _ _ _ rfl).trans ((ext_lo _ _ _ _ rfl).trans (ext_all _)))))
  have f4 : wd.extractLsb' 10 7 = a := by rw [← hx]; exact (ext_hi _ _ _ _ rfl).trans ((ext_hi _ _ _ _ rfl).trans ((ext_hi _ _ _ _ rfl).trans ((ext_lo _ _ _ _ rfl).trans (ext_all _))))
  have f5 : wd.extractLsb' 7 3 = n.code := by rw [← hx]; exact (ext_hi _ _ _ _ rfl).trans ((ext_hi _ _ _ _ rfl).trans ((ext_lo _ _ _ _ rfl).trans (ext_all _)))
  have f6 : wd.extractLsb' 3 4 = c.code := by rw [← hx]; exact (ext_hi _ _ _ _ rfl).trans ((ext_lo _ _ _ _ rfl).trans (ext_all _))
  have f7 : wd.extractLsb' 0 3 = f := by rw [← hx]; exact (ext_lo _ _ _ _ rfl).trans (ext_all _)
  refine decode_row f1 rfl ?_
  exact firstRow_hit (by simp only [rowSolicit, Sys2Proof.sw, f0, f2, f3, f4, f5, f6, f7, ArgCount_ofCode_code, Combine_ofCode_code, Option.bind_some, reduceIte])

theorem RoundTrip.reply (sw : Bool) (a : BitVec 7) :
    RoundTrip.Statement (.reply sw a) := by
  intro _ wd hx
  simp only [Instr.encode, Option.some.injEq] at hx
  have f0 : wd.getLsbD 31 = sw := by rw [← hx]; exact (bit_hi _ _ _ rfl).trans ((bit_hi _ _ _ rfl).trans ((bit_hi _ _ _ rfl).trans ((bit_hi _ _ _ rfl).trans (bit_one _))))
  have f1 : wd.extractLsb' 24 7 = 0x79#7 := by rw [← hx]; exact (ext_hi _ _ _ _ rfl).trans ((ext_hi _ _ _ _ rfl).trans ((ext_hi _ _ _ _ rfl).trans ((ext_lo _ _ _ _ rfl).trans (ext_all _))))
  have f2 : wd.extractLsb' 17 7 = 0x0#7 := by rw [← hx]; exact (ext_hi _ _ _ _ rfl).trans ((ext_hi _ _ _ _ rfl).trans ((ext_lo _ _ _ _ rfl).trans (ext_all _)))
  have f3 : wd.extractLsb' 10 7 = a := by rw [← hx]; exact (ext_hi _ _ _ _ rfl).trans ((ext_lo _ _ _ _ rfl).trans (ext_all _))
  have f4 : wd.extractLsb' 0 10 = 0x0#10 := by rw [← hx]; exact (ext_lo _ _ _ _ rfl).trans (ext_all _)
  refine decode_row f1 rfl ?_
  exact firstRow_hit (by simp only [rowReply, Sys2Proof.sw, f0, f2, f3, f4, and_self, reduceIte])

theorem RoundTrip.cwait (sw : Bool) (d : BitVec 7) (q : BitVec 4) :
    RoundTrip.Statement (.cwait sw d q) := by
  intro _ wd hx
  simp only [Instr.encode, Option.some.injEq] at hx
  have f0 : wd.getLsbD 31 = sw := by rw [← hx]; exact (bit_hi _ _ _ rfl).trans ((bit_hi _ _ _ rfl).trans ((bit_hi _ _ _ rfl).trans ((bit_hi _ _ _ rfl).trans ((bit_hi _ _ _ rfl).trans (bit_one _)))))
  have f1 : wd.extractLsb' 24 7 = 0x79#7 := by rw [← hx]; exact (ext_hi _ _ _ _ rfl).trans ((ext_hi _ _ _ _ rfl).trans ((ext_hi _ _ _ _ rfl).trans ((ext_hi _ _ _ _ rfl).trans ((ext_lo _ _ _ _ rfl).trans (ext_all _)))))
  have f2 : wd.extractLsb' 17 7 = d := by rw [← hx]; exact (ext_hi _ _ _ _ rfl).trans ((ext_hi _ _ _ _ rfl).trans ((ext_hi _ _ _ _ rfl).trans ((ext_lo _ _ _ _ rfl).trans (ext_all _))))
  have f3 : wd.extractLsb' 7 10 = 0x0#10 := by rw [← hx]; exact (ext_hi _ _ _ _ rfl).trans ((ext_hi _ _ _ _ rfl).trans ((ext_lo _ _ _ _ rfl).trans (ext_all _)))
  have f4 : wd.extractLsb' 3 4 = q := by rw [← hx]; exact (ext_hi _ _ _ _ rfl).trans ((ext_lo _ _ _ _ rfl).trans (ext_all _))
  have f5 : wd.extractLsb' 0 3 = 0x1#3 := by rw [← hx]; exact (ext_lo _ _ _ _ rfl).trans (ext_all _)
  have breply : wd.getLsbD 0 = true := by rw [← hx]; exact (bit_lo _ _ _ rfl).trans rfl
  have greply : wd.extractLsb' 0 10 ≠ 0x0#10 := field_ne (k := 0) breply rfl (by decide)
  refine decode_row f1 rfl ?_
  refine firstRow_skip (if_neg fun hc => greply hc.2) ?_
  exact firstRow_hit (by simp only [rowCwait, Sys2Proof.sw, f0, f2, f3, f4, f5, and_self, reduceIte])

theorem RoundTrip.cpoll (sw : Bool) (p : BitVec 3) (q : BitVec 4) :
    RoundTrip.Statement (.cpoll sw p q) := by
  intro _ wd hx
  simp only [Instr.encode, Option.some.injEq] at hx
  have f0 : wd.getLsbD 31 = sw := by rw [← hx]; exact (bit_hi _ _ _ rfl).trans ((bit_hi _ _ _ rfl).trans ((bit_hi _ _ _ rfl).trans ((bit_hi _ _ _ rfl).trans ((bit_hi _ _ _ rfl).trans ((bit_hi _ _ _ rfl).trans (bit_one _))))))
  have f1 : wd.extractLsb' 24 7 = 0x79#7 := by rw [← hx]; exact (ext_hi _ _ _ _ rfl).trans ((ext_hi _ _ _ _ rfl).trans ((ext_hi _ _ _ _ rfl).trans ((ext_hi _ _ _ _ rfl).trans ((ext_hi _ _ _ _ rfl).trans ((ext_lo _ _ _ _ rfl).trans (ext_all _))))))
  have f2 : wd.extractLsb' 20 4 = 0x0#4 := by rw [← hx]; exact (ext_hi _ _ _ _ rfl).trans ((ext_hi _ _ _ _ rfl).trans ((ext_hi _ _ _ _ rfl).trans ((ext_hi _ _ _ _ rfl).trans ((ext_lo _ _ _ _ rfl).trans (ext_all _)))))
  have f3 : wd.extractLsb' 17 3 = p := by rw [← hx]; exact (ext_hi _ _ _ _ rfl).trans ((ext_hi _ _ _ _ rfl).trans ((ext_hi _ _ _ _ rfl).trans ((ext_lo _ _ _ _ rfl).trans (ext_all _))))
  have f4 : wd.extractLsb' 7 10 = 0x0#10 := by rw [← hx]; exact (ext_hi _ _ _ _ rfl).trans ((ext_hi _ _ _ _ rfl).trans ((ext_lo _ _ _ _ rfl).trans (ext_all _)))
  have f5 : wd.extractLsb' 3 4 = q := by rw [← hx]; exact (ext_hi _ _ _ _ rfl).trans ((ext_lo _ _ _ _ rfl).trans (ext_all _))
  have f6 : wd.extractLsb' 0 3 = 0x2#3 := by rw [← hx]; exact (ext_lo _ _ _ _ rfl).trans (ext_all _)
  have breply : wd.getLsbD 1 = true := by rw [← hx]; exact (bit_lo _ _ _ rfl).trans rfl
  have greply : wd.extractLsb' 0 10 ≠ 0x0#10 := field_ne (k := 1) breply rfl (by decide)
  refine decode_row f1 rfl ?_
  refine firstRow_skip (if_neg fun hc => greply hc.2) ?_
  refine firstRow_skip (if_neg fun hc => absurd (f6.symm.trans hc.2) (by decide)) ?_
  exact firstRow_hit (by simp only [rowCpoll, Sys2Proof.sw, f0, f2, f3, f4, f5, f6, and_self, reduceIte])

theorem RoundTrip.tdadd (sw : Bool) (d : BitVec 7) (a : BitVec 7) :
    RoundTrip.Statement (.tdadd sw d a) := by
  intro _ wd hx
  simp only [Instr.encode, Option.some.injEq] at hx
  have f0 : wd.getLsbD 31 = sw := by rw [← hx]; exact (bit_hi _ _ _ rfl).trans ((bit_hi _ _ _ rfl).trans ((bit_hi _ _ _ rfl).trans ((bit_hi _ _ _ rfl).trans (bit_one _))))
  have f1 : wd.extractLsb' 24 7 = 0x7A#7 := by rw [← hx]; exact (ext_hi _ _ _ _ rfl).trans ((ext_hi _ _ _ _ rfl).trans ((ext_hi _ _ _ _ rfl).trans ((ext_lo _ _ _ _ rfl).trans (ext_all _))))
  have f2 : wd.extractLsb' 17 7 = d := by rw [← hx]; exact (ext_hi _ _ _ _ rfl).trans ((ext_hi _ _ _ _ rfl).trans ((ext_lo _ _ _ _ rfl).trans (ext_all _)))
  have f3 : wd.extractLsb' 10 7 = a := by rw [← hx]; exact (ext_hi _ _ _ _ rfl).trans ((ext_lo _ _ _ _ rfl).trans (ext_all _))
  have f4 : wd.extractLsb' 0 10 = 0x0#10 := by rw [← hx]; exact (ext_lo _ _ _ _ rfl).trans (ext_all _)
  refine decode_row f1 rfl ?_
  exact firstRow_hit (by simp only [rowTdadd, Sys2Proof.sw, f0, f2, f3, f4, reduceIte])

theorem RoundTrip.tddel (sw : Bool) (d : BitVec 7) (a : BitVec 7) :
    RoundTrip.Statement (.tddel sw d a) := by
  intro _ wd hx
  simp only [Instr.encode, Option.some.injEq] at hx
  have f0 : wd.getLsbD 31 = sw := by rw [← hx]; exact (bit_hi _ _ _ rfl).trans ((bit_hi _ _ _ rfl).trans ((bit_hi _ _ _ rfl).trans ((bit_hi _ _ _ rfl).trans (bit_one _))))
  have f1 : wd.extractLsb' 24 7 = 0x7A#7 := by rw [← hx]; exact (ext_hi _ _ _ _ rfl).trans ((ext_hi _ _ _ _ rfl).trans ((ext_hi _ _ _ _ rfl).trans ((ext_lo _ _ _ _ rfl).trans (ext_all _))))
  have f2 : wd.extractLsb' 17 7 = d := by rw [← hx]; exact (ext_hi _ _ _ _ rfl).trans ((ext_hi _ _ _ _ rfl).trans ((ext_lo _ _ _ _ rfl).trans (ext_all _)))
  have f3 : wd.extractLsb' 10 7 = a := by rw [← hx]; exact (ext_hi _ _ _ _ rfl).trans ((ext_lo _ _ _ _ rfl).trans (ext_all _))
  have f4 : wd.extractLsb' 0 10 = 0x1#10 := by rw [← hx]; exact (ext_lo _ _ _ _ rfl).trans (ext_all _)
  refine decode_row f1 rfl ?_
  refine firstRow_skip (if_neg fun hc => absurd (f4.symm.trans hc) (by decide)) ?_
  exact firstRow_hit (by simp only [rowTddel, Sys2Proof.sw, f0, f2, f3, f4, reduceIte])

theorem RoundTrip.tdmove (sw : Bool) (d : BitVec 7) (a : BitVec 7) (b : BitVec 7) :
    RoundTrip.Statement (.tdmove sw d a b) := by
  intro _ wd hx
  simp only [Instr.encode, Option.some.injEq] at hx
  have f0 : wd.getLsbD 31 = sw := by rw [← hx]; exact (bit_hi _ _ _ rfl).trans ((bit_hi _ _ _ rfl).trans ((bit_hi _ _ _ rfl).trans ((bit_hi _ _ _ rfl).trans ((bit_hi _ _ _ rfl).trans (bit_one _)))))
  have f1 : wd.extractLsb' 24 7 = 0x7B#7 := by rw [← hx]; exact (ext_hi _ _ _ _ rfl).trans ((ext_hi _ _ _ _ rfl).trans ((ext_hi _ _ _ _ rfl).trans ((ext_hi _ _ _ _ rfl).trans ((ext_lo _ _ _ _ rfl).trans (ext_all _)))))
  have f2 : wd.extractLsb' 17 7 = d := by rw [← hx]; exact (ext_hi _ _ _ _ rfl).trans ((ext_hi _ _ _ _ rfl).trans ((ext_hi _ _ _ _ rfl).trans ((ext_lo _ _ _ _ rfl).trans (ext_all _))))
  have f3 : wd.extractLsb' 10 7 = a := by rw [← hx]; exact (ext_hi _ _ _ _ rfl).trans ((ext_hi _ _ _ _ rfl).trans ((ext_lo _ _ _ _ rfl).trans (ext_all _)))
  have f4 : wd.extractLsb' 3 7 = b := by rw [← hx]; exact (ext_hi _ _ _ _ rfl).trans ((ext_lo _ _ _ _ rfl).trans (ext_all _))
  have f5 : wd.extractLsb' 0 3 = 0x0#3 := by rw [← hx]; exact (ext_lo _ _ _ _ rfl).trans (ext_all _)
  refine decode_row f1 rfl ?_
  exact firstRow_hit (by simp only [rowTdmove, Sys2Proof.sw, f0, f2, f3, f4, f5, reduceIte])

theorem RoundTrip.launch (sw : Bool) (d : BitVec 7) (a : BitVec 7) (b : BitVec 7) :
    RoundTrip.Statement (.launch sw d a b) := by
  intro _ wd hx
  simp only [Instr.encode, Option.some.injEq] at hx
  have f0 : wd.getLsbD 31 = sw := by rw [← hx]; exact (bit_hi _ _ _ rfl).trans ((bit_hi _ _ _ rfl).trans ((bit_hi _ _ _ rfl).trans ((bit_hi _ _ _ rfl).trans ((bit_hi _ _ _ rfl).trans (bit_one _)))))
  have f1 : wd.extractLsb' 24 7 = 0x7C#7 := by rw [← hx]; exact (ext_hi _ _ _ _ rfl).trans ((ext_hi _ _ _ _ rfl).trans ((ext_hi _ _ _ _ rfl).trans ((ext_hi _ _ _ _ rfl).trans ((ext_lo _ _ _ _ rfl).trans (ext_all _)))))
  have f2 : wd.extractLsb' 17 7 = d := by rw [← hx]; exact (ext_hi _ _ _ _ rfl).trans ((ext_hi _ _ _ _ rfl).trans ((ext_hi _ _ _ _ rfl).trans ((ext_lo _ _ _ _ rfl).trans (ext_all _))))
  have f3 : wd.extractLsb' 10 7 = a := by rw [← hx]; exact (ext_hi _ _ _ _ rfl).trans ((ext_hi _ _ _ _ rfl).trans ((ext_lo _ _ _ _ rfl).trans (ext_all _)))
  have f4 : wd.extractLsb' 3 7 = b := by rw [← hx]; exact (ext_hi _ _ _ _ rfl).trans ((ext_lo _ _ _ _ rfl).trans (ext_all _))
  have f5 : wd.extractLsb' 0 3 = 0x0#3 := by rw [← hx]; exact (ext_lo _ _ _ _ rfl).trans (ext_all _)
  refine decode_row f1 rfl ?_
  exact firstRow_hit (by simp only [rowLaunch, Sys2Proof.sw, f0, f2, f3, f4, f5, reduceIte])

theorem RoundTrip.intr (sw : Bool) (k : BitVec 10) :
    RoundTrip.Statement (.intr sw k) := by
  intro _ wd hx
  simp only [Instr.encode, Option.some.injEq] at hx
  have f0 : wd.getLsbD 31 = sw := by rw [← hx]; exact (bit_hi _ _ _ rfl).trans ((bit_hi _ _ _ rfl).trans ((bit_hi _ _ _ rfl).trans (bit_one _)))
  have f1 : wd.extractLsb' 24 7 = 0x7D#7 := by rw [← hx]; exact (ext_hi _ _ _ _ rfl).trans ((ext_hi _ _ _ _ rfl).trans ((ext_lo _ _ _ _ rfl).trans (ext_all _)))
  have f2 : wd.extractLsb' 10 14 = 0x0#14 := by rw [← hx]; exact (ext_hi _ _ _ _ rfl).trans ((ext_lo _ _ _ _ rfl).trans (ext_all _))
  have f3 : wd.extractLsb' 0 10 = k := by rw [← hx]; exact (ext_lo _ _ _ _ rfl).trans (ext_all _)
  refine decode_row f1 rfl ?_
  exact firstRow_hit (by simp only [rowIntr, Sys2Proof.sw, f0, f2, f3, reduceIte])

theorem RoundTrip.trap (sw : Bool) (k : BitVec 10) :
    RoundTrip.Statement (.trap sw k) := by
  intro _ wd hx
  simp only [Instr.encode, Option.some.injEq] at hx
  have f0 : wd.getLsbD 31 = sw := by rw [← hx]; exact (bit_hi _ _ _ rfl).trans ((bit_hi _ _ _ rfl).trans ((bit_hi _ _ _ rfl).trans (bit_one _)))
  have f1 : wd.extractLsb' 24 7 = 0x7E#7 := by rw [← hx]; exact (ext_hi _ _ _ _ rfl).trans ((ext_hi _ _ _ _ rfl).trans ((ext_lo _ _ _ _ rfl).trans (ext_all _)))
  have f2 : wd.extractLsb' 10 14 = 0x0#14 := by rw [← hx]; exact (ext_hi _ _ _ _ rfl).trans ((ext_lo _ _ _ _ rfl).trans (ext_all _))
  have f3 : wd.extractLsb' 0 10 = k := by rw [← hx]; exact (ext_lo _ _ _ _ rfl).trans (ext_all _)
  refine decode_row f1 rfl ?_
  exact firstRow_hit (by simp only [rowTrap, Sys2Proof.sw, f0, f2, f3, reduceIte])

theorem RoundTrip.tretRe (sw : Bool) :
    RoundTrip.Statement (.tretRe sw) := by
  intro _ wd hx
  simp only [Instr.encode, Option.some.injEq] at hx
  have f0 : wd.getLsbD 31 = sw := by rw [← hx]; exact (bit_hi _ _ _ rfl).trans ((bit_hi _ _ _ rfl).trans (bit_one _))
  have f1 : wd.extractLsb' 24 7 = 0x7F#7 := by rw [← hx]; exact (ext_hi _ _ _ _ rfl).trans ((ext_lo _ _ _ _ rfl).trans (ext_all _))
  have f2 : wd.extractLsb' 0 24 = 0x0#24 := by rw [← hx]; exact (ext_lo _ _ _ _ rfl).trans (ext_all _)
  refine decode_row f1 rfl ?_
  exact firstRow_hit (by simp only [rowTretRe, Sys2Proof.sw, f0, f2, reduceIte])

theorem RoundTrip.tretSkip (sw : Bool) :
    RoundTrip.Statement (.tretSkip sw) := by
  intro _ wd hx
  simp only [Instr.encode, Option.some.injEq] at hx
  have f0 : wd.getLsbD 31 = sw := by rw [← hx]; exact (bit_hi _ _ _ rfl).trans ((bit_hi _ _ _ rfl).trans (bit_one _))
  have f1 : wd.extractLsb' 24 7 = 0x7F#7 := by rw [← hx]; exact (ext_hi _ _ _ _ rfl).trans ((ext_lo _ _ _ _ rfl).trans (ext_all _))
  have f2 : wd.extractLsb' 0 24 = 0x1#24 := by rw [← hx]; exact (ext_lo _ _ _ _ rfl).trans (ext_all _)
  refine decode_row f1 rfl ?_
  refine firstRow_skip (if_neg fun hc => absurd (f2.symm.trans hc) (by decide)) ?_
  exact firstRow_hit (by simp only [rowTretSkip, Sys2Proof.sw, f0, f2, reduceIte])

theorem RoundTrip.bkpt (sw : Bool) :
    RoundTrip.Statement (.bkpt sw) := by
  intro _ wd hx
  simp only [Instr.encode, Option.some.injEq] at hx
  have f0 : wd.getLsbD 31 = sw := by rw [← hx]; exact (bit_hi _ _ _ rfl).trans ((bit_hi _ _ _ rfl).trans (bit_one _))
  have f1 : wd.extractLsb' 24 7 = 0x7F#7 := by rw [← hx]; exact (ext_hi _ _ _ _ rfl).trans ((ext_lo _ _ _ _ rfl).trans (ext_all _))
  have f2 : wd.extractLsb' 0 24 = 0x2#24 := by rw [← hx]; exact (ext_lo _ _ _ _ rfl).trans (ext_all _)
  refine decode_row f1 rfl ?_
  refine firstRow_skip (if_neg fun hc => absurd (f2.symm.trans hc) (by decide)) ?_
  refine firstRow_skip (if_neg fun hc => absurd (f2.symm.trans hc) (by decide)) ?_
  exact firstRow_hit (by simp only [rowBkpt, Sys2Proof.sw, f0, f2, reduceIte])

theorem RoundTrip.issuePly (core : Nat) (quad : Nat) : RoundTrip.Statement (.issuePly core quad) := by
  intro _ x h; cases h

theorem RoundTrip.instructionFetch (core : Nat) (tenant : Nat) (va : DWord) : RoundTrip.Statement (.instructionFetch core tenant va) := by
  intro _ x h; cases h

theorem RoundTrip.classLResult (th : ThreadRef) (op : Nat) : RoundTrip.Statement (.classLResult th op) := by
  intro _ x h; cases h

theorem RoundTrip.activeHoldExpired (team : Nat) (group : Nat) : RoundTrip.Statement (.activeHoldExpired team group) := by
  intro _ x h; cases h

theorem RoundTrip.engineOperation (core : Nat) : RoundTrip.Statement (.engineOperation core) := by
  intro _ x h; cases h

theorem RoundTrip.mergeContribution (id : Nat) (word : Nat) : RoundTrip.Statement (.mergeContribution id word) := by
  intro _ x h; cases h

theorem RoundTrip.orderedMergeApply (id : Nat) : RoundTrip.Statement (.orderedMergeApply id) := by
  intro _ x h; cases h

theorem RoundTrip.homeSliceAccess (id : Nat) (part : Nat) : RoundTrip.Statement (.homeSliceAccess id part) := by
  intro _ x h; cases h

theorem RoundTrip.writeAcknowledged (id : Nat) : RoundTrip.Statement (.writeAcknowledged id) := by
  intro _ x h; cases h

theorem RoundTrip.mergingFill (id : Nat) : RoundTrip.Statement (.mergingFill id) := by
  intro _ x h; cases h

theorem RoundTrip.pageWalk (cluster : Nat) (tenant : Nat) (va : DWord) : RoundTrip.Statement (.pageWalk cluster tenant va) := by
  intro _ x h; cases h

theorem RoundTrip.controllerAgeCap (id : Nat) : RoundTrip.Statement (.controllerAgeCap id) := by
  intro _ x h; cases h

theorem RoundTrip.copyRetire (id : Nat) : RoundTrip.Statement (.copyRetire id) := by
  intro _ x h; cases h

theorem RoundTrip.copyFaultStop (id : Nat) : RoundTrip.Statement (.copyFaultStop id) := by
  intro _ x h; cases h

theorem RoundTrip.multicastDelivery (id : Nat) (target : Nat) : RoundTrip.Statement (.multicastDelivery id target) := by
  intro _ x h; cases h

theorem RoundTrip.sucWriteMark (id : Nat) (part : Nat) : RoundTrip.Statement (.sucWriteMark id part) := by
  intro _ x h; cases h

theorem RoundTrip.splicerRepair (stack : Nat) : RoundTrip.Statement (.splicerRepair stack) := by
  intro _ x h; cases h

theorem RoundTrip.succinctQuery (id : Nat) : RoundTrip.Statement (.succinctQuery id) := by
  intro _ x h; cases h

theorem RoundTrip.stringUpdatePerform (id : Nat) : RoundTrip.Statement (.stringUpdatePerform id) := by
  intro _ x h; cases h

theorem RoundTrip.sdropPerform (id : Nat) : RoundTrip.Statement (.sdropPerform id) := by
  intro _ x h; cases h

theorem RoundTrip.nmSegmentRun (id : Nat) : RoundTrip.Statement (.nmSegmentRun id) := by
  intro _ x h; cases h

theorem RoundTrip.nmCommandRetire (id : Nat) : RoundTrip.Statement (.nmCommandRetire id) := by
  intro _ x h; cases h

theorem RoundTrip.nmCommandFault (id : Nat) : RoundTrip.Statement (.nmCommandFault id) := by
  intro _ x h; cases h

theorem RoundTrip.redNmPlace (id : Nat) : RoundTrip.Statement (.redNmPlace id) := by
  intro _ x h; cases h

theorem RoundTrip.rowOperationPerform (id : Nat) : RoundTrip.Statement (.rowOperationPerform id) := by
  intro _ x h; cases h

theorem RoundTrip.channelPowerEntry (stack : Nat) (channel : Nat) : RoundTrip.Statement (.channelPowerEntry stack channel) := by
  intro _ x h; cases h

theorem RoundTrip.channelWake (stack : Nat) (channel : Nat) : RoundTrip.Statement (.channelWake stack channel) := by
  intro _ x h; cases h

theorem RoundTrip.channelIdleTimeout (stack : Nat) (channel : Nat) : RoundTrip.Statement (.channelIdleTimeout stack channel) := by
  intro _ x h; cases h

theorem RoundTrip.chpwrActive (stack : Nat) (channel : Nat) : RoundTrip.Statement (.chpwrActive stack channel) := by
  intro _ x h; cases h

theorem RoundTrip.chpwrSelfRefresh (stack : Nat) (channel : Nat) : RoundTrip.Statement (.chpwrSelfRefresh stack channel) := by
  intro _ x h; cases h

theorem RoundTrip.chpwrPowerDown (stack : Nat) (channel : Nat) : RoundTrip.Statement (.chpwrPowerDown stack channel) := by
  intro _ x h; cases h

theorem RoundTrip.thermalSelfRefresh (stack : Nat) (channel : Nat) (hot : Bool) : RoundTrip.Statement (.thermalSelfRefresh stack channel hot) := by
  intro _ x h; cases h

theorem RoundTrip.qctlWrite (q : Nat) (v : DWord) : RoundTrip.Statement (.qctlWrite q v) := by
  intro _ x h; cases h

theorem RoundTrip.queueWatchWake (q : Nat) : RoundTrip.Statement (.queueWatchWake q) := by
  intro _ x h; cases h

theorem RoundTrip.recordDispatch (q : Nat) : RoundTrip.Statement (.recordDispatch q) := by
  intro _ x h; cases h

theorem RoundTrip.teamPlace : RoundTrip.Statement (.teamPlace) := by
  intro _ x h; cases h

theorem RoundTrip.teamEnd (team : Nat) : RoundTrip.Statement (.teamEnd team) := by
  intro _ x h; cases h

theorem RoundTrip.stopReport (team : Nat) : RoundTrip.Statement (.stopReport team) := by
  intro _ x h; cases h

theorem RoundTrip.queueManagerAccess (q : Nat) : RoundTrip.Statement (.queueManagerAccess q) := by
  intro _ x h; cases h

theorem RoundTrip.priorityGraceExpired (grid : Nat) : RoundTrip.Statement (.priorityGraceExpired grid) := by
  intro _ x h; cases h

theorem RoundTrip.timeSliceExpired (team : Nat) : RoundTrip.Statement (.timeSliceExpired team) := by
  intro _ x h; cases h

theorem RoundTrip.teamSave (team : Nat) : RoundTrip.Statement (.teamSave team) := by
  intro _ x h; cases h

theorem RoundTrip.waitvWake (th : ThreadRef) : RoundTrip.Statement (.waitvWake th) := by
  intro _ x h; cases h

theorem RoundTrip.waitvPoll (th : ThreadRef) : RoundTrip.Statement (.waitvPoll th) := by
  intro _ x h; cases h

theorem RoundTrip.barrierStall (th : ThreadRef) : RoundTrip.Statement (.barrierStall th) := by
  intro _ x h; cases h

theorem RoundTrip.signalApply (th : ThreadRef) : RoundTrip.Statement (.signalApply th) := by
  intro _ x h; cases h

theorem RoundTrip.solicitAdmit (id : Nat) (core : Nat) : RoundTrip.Statement (.solicitAdmit id core) := by
  intro _ x h; cases h

theorem RoundTrip.responderStart (core : Nat) : RoundTrip.Statement (.responderStart core) := by
  intro _ x h; cases h

theorem RoundTrip.responderEnd (team : Nat) (group : Nat) : RoundTrip.Statement (.responderEnd team group) := by
  intro _ x h; cases h

theorem RoundTrip.censusComplete (id : Nat) : RoundTrip.Statement (.censusComplete id) := by
  intro _ x h; cases h

theorem RoundTrip.forwardArrive (id : Nat) : RoundTrip.Statement (.forwardArrive id) := by
  intro _ x h; cases h

theorem RoundTrip.moveRegister (id : Nat) : RoundTrip.Statement (.moveRegister id) := by
  intro _ x h; cases h

theorem RoundTrip.sourceEntryGone (core : Nat) (entry : Nat) : RoundTrip.Statement (.sourceEntryGone core entry) := by
  intro _ x h; cases h

theorem RoundTrip.entryGone (core : Nat) (entry : Nat) : RoundTrip.Statement (.entryGone core entry) := by
  intro _ x h; cases h

theorem RoundTrip.trootWrite (tenant : Nat) (v : DWord) : RoundTrip.Statement (.trootWrite tenant v) := by
  intro _ x h; cases h

theorem RoundTrip.clusownWrite (cluster : Nat) (v : Word) : RoundTrip.Statement (.clusownWrite cluster v) := by
  intro _ x h; cases h

theorem RoundTrip.clusterResponderTimeout (cluster : Nat) : RoundTrip.Statement (.clusterResponderTimeout cluster) := by
  intro _ x h; cases h

theorem RoundTrip.ownerChangeComplete (cluster : Nat) : RoundTrip.Statement (.ownerChangeComplete cluster) := by
  intro _ x h; cases h

theorem RoundTrip.tclearWrite (tenant : Nat) (v : DWord) : RoundTrip.Statement (.tclearWrite tenant v) := by
  intro _ x h; cases h

theorem RoundTrip.invctlWrite (tenant : Nat) (v : DWord) : RoundTrip.Statement (.invctlWrite tenant v) := by
  intro _ x h; cases h

theorem RoundTrip.invalidationComplete (tenant : Nat) : RoundTrip.Statement (.invalidationComplete tenant) := by
  intro _ x h; cases h

theorem RoundTrip.fqbaseWrite (tenant : Nat) (v : DWord) : RoundTrip.Statement (.fqbaseWrite tenant v) := by
  intro _ x h; cases h

theorem RoundTrip.fresRetry (tenant : Nat) (seq : Word) : RoundTrip.Statement (.fresRetry tenant seq) := by
  intro _ x h; cases h

theorem RoundTrip.fresFail (tenant : Nat) (seq : Word) : RoundTrip.Statement (.fresFail tenant seq) := by
  intro _ x h; cases h

theorem RoundTrip.fresAck (tenant : Nat) (seq : Word) : RoundTrip.Statement (.fresAck tenant seq) := by
  intro _ x h; cases h

theorem RoundTrip.lostWrite (id : Nat) : RoundTrip.Statement (.lostWrite id) := by
  intro _ x h; cases h

theorem RoundTrip.cxlRequestTimeout (id : Nat) : RoundTrip.Statement (.cxlRequestTimeout id) := by
  intro _ x h; cases h

theorem RoundTrip.cxlLinkDown : RoundTrip.Statement (.cxlLinkDown) := by
  intro _ x h; cases h

theorem RoundTrip.flalenLinkDown (link : Nat) : RoundTrip.Statement (.flalenLinkDown link) := by
  intro _ x h; cases h

theorem RoundTrip.hostMemRead (off : Nat) (len : Nat) : RoundTrip.Statement (.hostMemRead off len) := by
  intro _ x h; cases h

theorem RoundTrip.hostMemWrite (off : Nat) (bytes : List Byte) : RoundTrip.Statement (.hostMemWrite off bytes) := by
  intro _ x h; cases h

theorem RoundTrip.peerRequest (die : Nat) (a : Nat) (write : Bool) (bytes : List Byte) : RoundTrip.Statement (.peerRequest die a write bytes) := by
  intro _ x h; cases h

theorem RoundTrip.hostSnoop (pa : Nat) : RoundTrip.Statement (.hostSnoop pa) := by
  intro _ x h; cases h

theorem RoundTrip.corectlAttach (core : Nat) (on : Bool) : RoundTrip.Statement (.corectlAttach core on) := by
  intro _ x h; cases h

theorem RoundTrip.corectlHalt (core : Nat) (on : Bool) : RoundTrip.Statement (.corectlHalt core on) := by
  intro _ x h; cases h

theorem RoundTrip.corectlStep (core : Nat) (quad : Nat) (place : Nat) (lane : Nat) : RoundTrip.Statement (.corectlStep core quad place lane) := by
  intro _ x h; cases h

theorem RoundTrip.corectlReset (core : Nat) : RoundTrip.Statement (.corectlReset core) := by
  intro _ x h; cases h

theorem RoundTrip.corectlPgate (core : Nat) (on : Bool) : RoundTrip.Statement (.corectlPgate core on) := by
  intro _ x h; cases h

theorem RoundTrip.coreGated (core : Nat) : RoundTrip.Statement (.coreGated core) := by
  intro _ x h; cases h

theorem RoundTrip.coreWoken (core : Nat) : RoundTrip.Statement (.coreWoken core) := by
  intro _ x h; cases h

theorem RoundTrip.debugWindowWrite (core : Nat) (off : Nat) (v : Word) : RoundTrip.Statement (.debugWindowWrite core off v) := by
  intro _ x h; cases h

theorem RoundTrip.coreLost (core : Nat) : RoundTrip.Statement (.coreLost core) := by
  intro _ x h; cases h

theorem RoundTrip.uncorrectableError (site : ErrorSite) : RoundTrip.Statement (.uncorrectableError site) := by
  intro _ x h; cases h

theorem RoundTrip.correctedError (site : ErrorSite) : RoundTrip.Statement (.correctedError site) := by
  intro _ x h; cases h

theorem RoundTrip.selfTest (site : ErrorSite) (lasting : Bool) : RoundTrip.Statement (.selfTest site lasting) := by
  intro _ x h; cases h

theorem RoundTrip.succinctUnitFailure (stack : Nat) : RoundTrip.Statement (.succinctUnitFailure stack) := by
  intro _ x h; cases h

theorem RoundTrip.coldReset : RoundTrip.Statement (.coldReset) := by
  intro _ x h; cases h

theorem RoundTrip.lcreqWrite (v : DWord) : RoundTrip.Statement (.lcreqWrite v) := by
  intro _ x h; cases h

theorem RoundTrip.mailboxBegin : RoundTrip.Statement (.mailboxBegin) := by
  intro _ x h; cases h

theorem RoundTrip.mailboxChunk : RoundTrip.Statement (.mailboxChunk) := by
  intro _ x h; cases h

theorem RoundTrip.mailboxCommit : RoundTrip.Statement (.mailboxCommit) := by
  intro _ x h; cases h

theorem RoundTrip.mailboxAbort : RoundTrip.Statement (.mailboxAbort) := by
  intro _ x h; cases h

theorem RoundTrip.tintrWrite (tenant : Nat) (v : DWord) : RoundTrip.Statement (.tintrWrite tenant v) := by
  intro _ x h; cases h

theorem RoundTrip.evttailWrite (v : DWord) : RoundTrip.Statement (.evttailWrite v) := by
  intro _ x h; cases h

theorem RoundTrip.reefStepDown : RoundTrip.Statement (.reefStepDown) := by
  intro _ x h; cases h

theorem RoundTrip.reefStepUp : RoundTrip.Statement (.reefStepUp) := by
  intro _ x h; cases h

theorem RoundTrip.registerWrite (off : Nat) (v : DWord) : RoundTrip.Statement (.registerWrite off v) := by
  intro _ x h; cases h

theorem RoundTrip.tenantClearComplete (tenant : Nat) : RoundTrip.Statement (.tenantClearComplete tenant) := by
  intro _ x h; cases h

theorem RoundTrip.mailboxCommandComplete : RoundTrip.Statement (.mailboxCommandComplete) := by
  intro _ x h; cases h

end

end Sys2Proof.Laws
end

