-- ==== Sys2Proof/Laws/Ply.lean ====
section
/-! SUPPORT. A ply in issue: the checks on a thread see only that thread, its group and its team; and when an
instruction changes only the thread that runs it, the ply's threads run it independently of each other. -/
namespace Sys2Proof.Machine
open Sys2Proof

/-- The checks before an instruction look at the thread but not at its GSYNC mark, and at nothing of another thread. -/
theorem State.gate_congr {s t : State} {ms : List ThreadRef} (i : Instr) (word : Word) (th : ThreadRef)
    (h : OnlyThreads s t ms) (ht : { s.thread th with joined := 0 } = { t.thread th with joined := 0 }) :
    s.gate i word th = t.gate i word th := by
  have hg : { s.group th with threads := [] } = { t.group th with threads := [] } := (h.groups _ _).symm
  have hn : (s.team th.team).tileCount = (t.team th.team).tileCount := (congrArg Team.tileCount (h.teams th.team) :).symm
  have hs : s.slot th = t.slot th := by
    have e1 : t.grids = s.grids := (congrArg State.grids h.rest).trans rfl
    have e2 : (t.team th.team).grid = (s.team th.team).grid := (congrArg Team.grid (h.teams th.team) :)
    funext k
    simp only [State.slot, State.gridOf, State.grid, e1, e2]
  have hb : (s.group th).budget = (t.group th).budget := (congrArg Group.budget hg :)
  have hf : (s.group th).faults = (t.group th).faults := (congrArg Group.faults hg :)
  have hl : s.tileLimit th = t.tileLimit th := by simp only [State.tileLimit, hn]
  have h1 : (s.thread th).status = (t.thread th).status := (congrArg Thread.status ht :)
  have h2 : (s.thread th).outs = (t.thread th).outs := (congrArg Thread.outs ht :)
  have h3 : (s.thread th).faults = (t.thread th).faults := (congrArg Thread.faults ht :)
  have h4 : (s.thread th).win = (t.thread th).win := (congrArg Thread.win ht :)
  have h5 : (s.thread th).poison = (t.thread th).poison := (congrArg Thread.poison ht :)
  have h6 : (s.thread th).paddr = (t.thread th).paddr := (congrArg Thread.paddr ht :)
  have h9 : (s.thread th).waitOp = (t.thread th).waitOp := (congrArg Thread.waitOp ht :)
  have h10 : (s.thread th).replay = (t.thread th).replay := (congrArg Thread.replay ht :)
  have hx : ∀ k, (s.thread th).index k = (t.thread th).index k := fun k => by simp only [Thread.index, h4]
  have h7 : i.beyondBudget (s.thread th) (s.group th).budget = i.beyondBudget (t.thread th) (t.group th).budget := by
    simp only [Instr.beyondBudget, hx, hb]
  have h8 : i.poisonedSource (s.thread th) = i.poisonedSource (t.thread th) := by
    simp only [Instr.poisonedSource, hx, h5]
  have h11 : s.poisonedUpper i th = t.poisonedUpper i th := by
    simp only [State.poisonedUpper, hs, hx, h5]
  simp only [State.gate, h1, h2, h3, h6, h7, h8, h9, h10, h11, hf, hl]

theorem State.leaveJoined_thread (s : State) (p : Ply) (th : ThreadRef) (hm : th ∈ p.members)
    (hh : s.holds th = true) : (s.leaveJoined p).thread th = { s.thread th with joined := 0 } := by
  unfold State.leaveJoined
  suffices h : ∀ (ms : List ThreadRef) (s : State), s.holds th = true →
      (th ∈ ms → (ms.foldl (fun s th => s.modThread th fun t => { t with joined := 0 }) s).thread th =
        { s.thread th with joined := 0 }) ∧
      ((s.thread th).joined = 0 → (ms.foldl (fun s th => s.modThread th fun t => { t with joined := 0 }) s).thread th =
        s.thread th) from (h p.members s hh).1 hm
  intro ms
  induction ms with
  | nil => intro s _; simp
  | cons m ms ih =>
    intro s hs
    have hs' : (s.modThread m fun t => { t with joined := 0 }).holds th = true := by
      rw [State.holds_modThread]; exact hs
    obtain ⟨i1, i2⟩ := ih _ hs'
    simp only [List.foldl_cons]
    by_cases e : th = m
    · subst e
      have e0 := State.thread_modThread_same s th (fun t => { t with joined := 0 }) hs
      constructor
      · intro _
        rw [i2 (by rw [e0]), e0]
      · intro hj
        rw [i2 (by rw [e0]), e0, ← hj]
    · have e0 := State.thread_modThread_ne s m th (fun t => { t with joined := 0 }) e
      constructor
      · intro h
        rw [i1 (by simpa [e] using h), e0]
      · intro hj
        rw [i2 (by rw [e0]; exact hj), e0]

theorem State.holds_leaveJoined (s : State) (p : Ply) (u : ThreadRef) : (s.leaveJoined p).holds u = s.holds u := by
  unfold State.leaveJoined
  generalize p.members = ms
  induction ms generalizing s with
  | nil => rfl
  | cons m ms ih => rw [List.foldl_cons, ih, State.holds_modThread]

theorem State.onlyThreads_leaveJoined (s : State) (p : Ply) : OnlyThreads s (s.leaveJoined p) p.members := by
  unfold State.leaveJoined
  suffices h : ∀ (ms : List ThreadRef) (s : State), (∀ x ∈ ms, x ∈ p.members) →
      OnlyThreads s (ms.foldl (fun s th => s.modThread th fun t => { t with joined := 0 }) s) p.members from
    h p.members s fun _ h => h
  intro ms
  induction ms with
  | nil => intro s _; exact OnlyThreads.refl s _
  | cons m ms ih =>
    intro s hm
    refine OnlyThreads.trans ?_ (ih _ fun x hx => hm x (List.mem_cons_of_mem _ hx))
    exact (State.onlyThreads_modThread s m _).mono (by simpa using hm m (List.mem_cons_self ..))

/-- Threads that pass their checks need no park, so the ply of a GSYNC does not wait. -/
theorem Issuing.not_joinedWaits {s : State} {i : Instr} {p : Ply} (h : Issuing s i p) : s.joinedWaits i p = false := by
  have : p.members.any (fun th => i.parks && !(s.thread th).outs.isEmpty) = false := by
    rw [List.any_eq_false]
    intro th hm hc
    have hp := h.pass th hm
    simp only [Bool.and_eq_true, Bool.not_eq_true', List.isEmpty_eq_false_iff] at hc
    simp only [State.gate] at hp
    split at hp
    · exact Gate.noConfusion hp
    · cases hp
  simp only [State.joinedWaits, this, Bool.and_false]

/-- A ply that stops no team leaves its team as it is (R298). -/
theorem State.stopMarked_same {s t : State} {n : Nat} (h : (t.team n).stopping = (s.team n).stopping) :
    t.stopMarked s n = t := by
  unfold State.stopMarked
  rw [h]
  cases (s.team n).stopping <;> simp

theorem OnlyThreads.issued {s t : State} {ms : List ThreadRef} (h : OnlyThreads s t ms) (p : Ply) :
    t.issued s p = t.endPly := by
  unfold State.issued
  rw [State.stopMarked_same (congrArg Team.stopping (h.teams p.team) :)]

/-- What one thread's run of the instruction does, when it changes that thread alone. -/
structure RunsTo (s t : State) (th : ThreadRef) (x : Thread) : Prop where
  thread : t.thread th = x
  frame : OnlyThreads s t [th]
  holds : ∀ u, t.holds u = s.holds u

theorem RunsTo.modThread {s : State} {th : ThreadRef} {f : Thread → Thread} (h : s.holds th = true) :
    RunsTo s (s.modThread th f) th (f (s.thread th)) :=
  ⟨State.thread_modThread_same s th f h, State.onlyThreads_modThread s th f, fun u => State.holds_modThread s th u f⟩

theorem RunsTo.trans {s t u : State} {th : ThreadRef} {x y : Thread} (a : RunsTo s t th x) (b : RunsTo t u th y) :
    RunsTo s u th y :=
  ⟨b.thread, a.frame.trans b.frame, fun v => (b.holds v).trans (a.holds v)⟩

theorem RunsTo.refl {s : State} {th : ThreadRef} : RunsTo s s th (s.thread th) :=
  ⟨rfl, OnlyThreads.refl s _, fun _ => rfl⟩

/-- A state in which some of the ply's threads have already run. -/
structure Midway (s t : State) (ms : List ThreadRef) : Prop where
  frame : OnlyThreads s t ms
  holds : ∀ u, t.holds u = s.holds u

theorem State.passMarker_runs {s : State} (i : Instr) (th : ThreadRef) (h : s.holds th = true)
    (hj : (s.thread th).joined = 0) : RunsTo s (s.passMarker i th) th ((s.thread th).entering i) := by
  unfold State.passMarker State.closeUnspec Thread.entering
  split
  · have e := RunsTo.modThread (s := s) (th := th) (f := fun t => { t with unspec := [], unspecPreds := [] }) h
    refine ⟨?_, e.frame, e.holds⟩
    rw [e.thread, ← hj]
  · refine ⟨?_, OnlyThreads.refl s _, fun _ => rfl⟩
    rw [← hj]

/-- The ply's threads run the instruction independently when its effect in each thread is a function of that thread and
of what no thread of the ply changes. -/
theorem runPly_runs {s : State} {i : Instr} {p : Ply} {body : ThreadRef → State → Effect} {f : ThreadRef → Thread}
    (h : Issuing s i p)
    (hb : ∀ th ∈ p.members, ∀ t, Midway s t p.members → t.thread th = (s.thread th).entering i →
      RunsTo t ((body th t).apply th) th (f th)) :
    ∃ t, runPly i body s = .next t ∧ Ran s t p f := by
  suffices key : ∀ (ms : List ThreadRef) (t : State), ms.Nodup → (∀ x ∈ ms, x ∈ p.members) → Midway s t p.members →
      (∀ x ∈ ms, t.thread x = { s.thread x with joined := 0 }) →
      ∃ u, ms.foldl (fun s th => s.runThread i p.word body th) t = u ∧ Midway s u p.members ∧
        (∀ x ∈ ms, u.thread x = f x) ∧ (∀ x, x ∉ ms → u.thread x = t.thread x) by
    have hj := h.not_joinedWaits
    obtain ⟨u, e, hm, ht, -⟩ := key p.members (s.leaveJoined p) h.distinct (fun _ h => h)
      ⟨State.onlyThreads_leaveJoined s p, State.holds_leaveJoined s p⟩
      (fun x hx => State.leaveJoined_thread s p x hx (h.here x hx))
    refine ⟨u.endPly, ?_, rfl, ht, hm.frame.endPly⟩
    simp only [runPly, h.ply, hj, Bool.false_eq_true, ↓reduceIte, e, hm.frame.issued]
  intro ms
  induction ms with
  | nil => intro t _ _ hm _; exact ⟨t, rfl, hm, by simp, fun _ _ => rfl⟩
  | cons m ms ih =>
    intro t hn hsub hm ht
    have mm : m ∈ p.members := hsub m (List.mem_cons_self ..)
    have hh : t.holds m = true := by rw [hm.holds]; exact h.here m mm
    have htm := ht m (List.mem_cons_self ..)
    have hgate : t.gate i p.word m = .pass := by
      rw [← h.pass m mm]
      exact (State.gate_congr i p.word m hm.frame (by rw [htm])).symm
    have e1 : RunsTo t (t.passMarker i m) m ((s.thread m).entering i) := by
      have := State.passMarker_runs i m hh (by rw [htm])
      rw [htm] at this
      exact this
    have e2 := hb m mm (t.passMarker i m)
      ⟨hm.frame.trans (e1.frame.mono (by simpa using mm)), fun u => (e1.holds u).trans (hm.holds u)⟩ e1.thread
    have e3 : RunsTo t (t.runThread i p.word body m) m (f m) := by
      simp only [State.runThread, hgate]
      exact e1.trans e2
    obtain ⟨u, eu, hu, hx, ho⟩ := ih (t.runThread i p.word body m) (List.nodup_cons.mp hn).2
      (fun x hx => hsub x (List.mem_cons_of_mem _ hx))
      ⟨hm.frame.trans (e3.frame.mono (by simpa using mm)), fun u => (e3.holds u).trans (hm.holds u)⟩
      (fun x hx => by
        rw [e3.frame.threads x (by
          simp only [List.mem_singleton]; rintro rfl; exact (List.nodup_cons.mp hn).1 hx)]
        exact ht x (List.mem_cons_of_mem _ hx))
    refine ⟨u, by rw [List.foldl_cons]; exact eu, hu, ?_, ?_⟩
    · intro x hxm
      rcases List.mem_cons.mp hxm with rfl | hxm
      · rw [ho x (List.nodup_cons.mp hn).1, e3.thread]
      · exact hx x hxm
    · intro x hxn
      rw [ho x (fun c => hxn (List.mem_cons_of_mem _ c)), e3.frame.threads x (by
        simp only [List.mem_singleton]; rintro rfl; exact hxn (List.mem_cons_self ..))]

end Sys2Proof.Machine
end

