-- ==== Sys2Proof/Laws/Registers.lean ====
section
/-! SUPPORT. What the register operations of the machine do to the thread that runs them, in the terms of Safety. -/
namespace Sys2Proof.Machine
open Sys2Proof

@[simp] theorem Thread.index_write (t : Thread) (k j : Nat) (v : Word) : (t.write k v).index j = t.index j := rfl
@[simp] theorem Thread.outstanding_write (t : Thread) (k j : Nat) (v : Word) :
    (t.write k v).outstanding j = t.outstanding j := rfl
@[simp] theorem Thread.unspec_write (t : Thread) (k : Nat) (v : Word) : (t.write k v).unspec = t.unspec := rfl
@[simp] theorem Thread.pc_write (t : Thread) (k : Nat) (v : Word) : (t.write k v).pc = t.pc := rfl
@[simp] theorem Thread.preds_write (t : Thread) (k : Nat) (v : Word) : (t.write k v).preds = t.preds := rfl

/-- A register written reads back. -/
@[simp] theorem Thread.reg_write_same (t : Thread) (k : Nat) (v : Word) : (t.write k v).reg k = v := by
  simp [Thread.reg, Thread.write, Thread.index]

/-- Every register but the one written reads as before. -/
theorem Thread.reg_write_ne (t : Thread) {k j : Nat} (v : Word) (h : t.index j ≠ t.index k) :
    (t.write k v).reg j = t.reg j := by
  unfold Thread.reg
  rw [Thread.index_write]
  exact Tab.get_put_ne _ _ _ h

theorem Thread.settled_write {t : Thread} {k n j : Nat} {v : Word} (h : t.settled k n) : (t.write j v).settled k n :=
  h

theorem State.setReg_runs {s : State} {th : ThreadRef} (k : Nat) (v : Word) (h : s.holds th = true)
    (hs : (s.thread th).settled k 1) : RunsTo s (s.setReg th k v) th ((s.thread th).write k v) := by
  obtain ⟨h1, h2⟩ := hs 0 (by decide)
  simp only [Nat.add_zero] at h1 h2
  simp only [State.setReg, State.writeBudget, h1, h2, Bool.or_self, Bool.false_eq_true, ↓reduceIte]
  exact RunsTo.modThread h

theorem State.setPair_runs {s : State} {th : ThreadRef} (k : Nat) (v : DWord) (h : s.holds th = true)
    (hs : (s.thread th).settled k 2) : RunsTo s (s.setPair th k v) th ((s.thread th).writePair k v) := by
  have e1 := State.setReg_runs k (v.extractLsb' 0 32) h fun j hj => hs j (by omega)
  have e2 := State.setReg_runs (s := s.setReg th k (v.extractLsb' 0 32)) (k + 1) (v.extractLsb' 32 32)
    (by rw [e1.holds]; exact h) (by
      rw [e1.thread]
      intro j hj
      have := hs (1 + j) (by omega)
      rw [← Nat.add_assoc] at this
      exact this)
  rw [e1.thread] at e2
  exact e1.trans e2

theorem State.setValue_runs {s : State} {th : ThreadRef} (w : Width) (k : BitVec 7) (v : DWord) (h : s.holds th = true)
    (hs : (s.thread th).settled k.toNat w.regs) :
    RunsTo s (s.setValue th w k v) th ((s.thread th).writeWidth w k.toNat v) := by
  cases w with
  | w32 => exact State.setReg_runs _ _ h hs
  | w64 => exact State.setPair_runs _ _ h hs

theorem State.setPred_runs {s : State} {th : ThreadRef} (k : Nat) (b : Bool) (h : s.holds th = true)
    (hs : (s.thread th).predSettled k) : RunsTo s (s.setPred th k b) th ((s.thread th).writePred k b) := by
  unfold State.setPred Thread.writePred
  split
  · exact RunsTo.refl
  · next hk =>
    obtain ⟨h1, h2⟩ := hs.resolve_left hk
    simp only [h1, h2, Bool.or_self, Bool.false_eq_true, ↓reduceIte]
    exact RunsTo.modThread h

theorem State.orFlags_runs {s : State} {th : ThreadRef} (f : BitVec 6) (h : s.holds th = true) :
    RunsTo s (s.orFlags th f) th ((s.thread th).orFlags f) :=
  RunsTo.modThread h

/-- The thread goes on at the next word. -/
theorem State.advance_runs {s : State} {th : ThreadRef} (h : s.holds th = true) :
    RunsTo s (s.advance th) th ((s.thread th).leaving s.tick) := by
  have e := RunsTo.modThread (s := s) (th := th)
    (f := fun t => { t with
      pc := match t.replay with | some p => p | none => t.pc + 4
      status := .ready, wait := .none, readyAt := s.tick, replay := none, after := [], waitOp := none, xfault := none }) h
  refine ⟨?_, e.frame, e.holds⟩
  rw [show (s.advance th).thread th = _ from e.thread]
  unfold Thread.leaving Thread.goingTo
  cases (s.thread th).replay <;> rfl

theorem State.goto_runs {s : State} {th : ThreadRef} (pc : DWord) (h : s.holds th = true) :
    RunsTo s (s.goto th pc) th ((s.thread th).goingTo pc s.tick) :=
  RunsTo.modThread h

/-- An effect that is done with one change of its thread. -/
theorem Effect.go_runs {s t : State} {th : ThreadRef} {x : Thread} (h : s.holds th = true) (e : RunsTo s t th x) :
    RunsTo s ((Effect.go t).apply th) th (x.leaving s.tick) := by
  have a := State.advance_runs (s := t) (th := th) (by rw [e.holds]; exact h)
  rw [e.thread, e.frame.tick] at a
  exact e.trans a

theorem Effect.jump_runs {s t : State} {th : ThreadRef} {x : Thread} (pc : DWord) (h : s.holds th = true)
    (e : RunsTo s t th x) : RunsTo s ((Effect.jump t pc).apply th) th (x.goingTo pc s.tick) := by
  have a := State.goto_runs (s := t) (th := th) pc (by rw [e.holds]; exact h)
  rw [e.thread, e.frame.tick] at a
  exact e.trans a

end Sys2Proof.Machine
end

