-- ==== Sys2Proof/Laws/Shapes.lean ====
section
/-! SUPPORT. The shared shapes of instructions that only write registers, predicates or FLAGS of their thread: each
completes in every thread of the ply, with the value its function gives. -/
namespace Sys2Proof.Machine
open Sys2Proof

/-- An instruction that ends, in each thread, with a change of that thread alone. -/
theorem completes_of_go {s : State} {i : Instr} {p : Ply} {body : ThreadRef → State → Effect}
    {f : ThreadRef → Thread → Thread} (h : Issuing s i p) (hx : exec i s = runPly i body s)
    (hb : ∀ th ∈ p.members, ∀ t, Midway s t p.members → t.holds th = true →
      t.thread th = (s.thread th).entering i → ∃ u, body th t = .go u ∧ RunsTo t u th (f th (t.thread th))) :
    Completes s i p f := by
  unfold Completes
  rw [hx]
  refine runPly_runs h fun th hm t ht he => ?_
  have hh : t.holds th = true := by rw [ht.holds]; exact h.here th hm
  obtain ⟨u, e, r⟩ := hb th hm t ht hh he
  rw [e, ← he, ← ht.frame.tick]
  exact Effect.go_runs hh r

/-- An instruction that sends each thread somewhere, with a change of that thread alone. -/
theorem jumps_of_jump {s : State} {i : Instr} {p : Ply} {body : ThreadRef → State → Effect}
    {f : ThreadRef → Thread → Thread} {target : ThreadRef → DWord} (h : Issuing s i p)
    (hx : exec i s = runPly i body s)
    (hb : ∀ th ∈ p.members, ∀ t, Midway s t p.members → t.holds th = true → t.thread th = (s.thread th).entering i →
      ∃ u, body th t = .jump u (target th) ∧ RunsTo t u th (f th (t.thread th))) : Jumps s i p f target := by
  unfold Jumps
  rw [hx]
  refine runPly_runs h fun th hm t ht he => ?_
  have hh : t.holds th = true := by rw [ht.holds]; exact h.here th hm
  obtain ⟨u, e, r⟩ := hb th hm t ht hh he
  rw [e, ← he, ← ht.frame.tick]
  exact Effect.jump_runs _ hh r

theorem regOp_completes {s : State} {i : Instr} {p : Ply} (d : BitVec 7) (f : Thread → Word) (h : Issuing s i p)
    (hd : Settled s i p d.toNat 1) (hx : exec i s = runPly i (regOp d f) s) :
    Completes s i p fun _ u => u.write d.toNat (f u) :=
  completes_of_go h hx fun th hm t _ hh he =>
    ⟨_, rfl, State.setReg_runs _ _ hh (by rw [he]; exact hd th hm)⟩

theorem pairOp_completes {s : State} {i : Instr} {p : Ply} (d : BitVec 7) (f : Thread → DWord) (h : Issuing s i p)
    (hd : Settled s i p d.toNat 2) (hx : exec i s = runPly i (pairOp d f) s) :
    Completes s i p fun _ u => u.writePair d.toNat (f u) :=
  completes_of_go h hx fun th hm t _ hh he =>
    ⟨_, rfl, State.setPair_runs _ _ hh (by rw [he]; exact hd th hm)⟩

theorem widthOp_completes {s : State} {i : Instr} {p : Ply} (w : Width) (d : BitVec 7) (f : Thread → DWord)
    (h : Issuing s i p) (hd : Settled s i p d.toNat w.regs) (hx : exec i s = runPly i (widthOp w d f) s) :
    Completes s i p fun _ u => u.writeWidth w d.toNat (f u) :=
  completes_of_go h hx fun th hm t _ hh he =>
    ⟨_, rfl, State.setValue_runs _ _ _ hh (by rw [he]; exact hd th hm)⟩

theorem predOp_completes {s : State} {i : Instr} {p : Ply} (q : BitVec 3) (f : Thread → Bool) (h : Issuing s i p)
    (hd : SettledPred s i p q.toNat) (hx : exec i s = runPly i (predOp q f) s) :
    Completes s i p fun _ u => u.writePred q.toNat (f u) :=
  completes_of_go h hx fun th hm _ _ hh he => ⟨_, rfl, State.setPred_runs _ _ hh (by rw [he]; exact hd th hm)⟩

/-- A write of registers and then of FLAGS. -/
theorem RunsTo.raise {s t : State} {th : ThreadRef} {x : Thread} (e : RunsTo s t th x) (hh : s.holds th = true)
    (r : Raised) : RunsTo s (t.raise th r) th (x.orFlags r.bits) := by
  have a := State.orFlags_runs (s := t) (th := th) r.bits (by rw [e.holds]; exact hh)
  rw [e.thread] at a
  exact e.trans a

theorem flagOp_completes {s : State} {i : Instr} {p : Ply} (d : BitVec 7) (f : Thread → Word × Raised)
    (h : Issuing s i p) (hd : Settled s i p d.toNat 1) (hx : exec i s = runPly i (flagOp d f) s) :
    Completes s i p fun _ u => (u.write d.toNat (f u).1).orFlags (f u).2.bits :=
  completes_of_go h hx fun th hm t _ hh he =>
    ⟨_, rfl, (State.setReg_runs _ _ hh (by rw [he]; exact hd th hm)).raise hh _⟩

theorem flagPairOp_completes {s : State} {i : Instr} {p : Ply} (d : BitVec 7) (f : Thread → DWord × Raised)
    (h : Issuing s i p) (hd : Settled s i p d.toNat 2) (hx : exec i s = runPly i (flagPairOp d f) s) :
    Completes s i p fun _ u => (u.writePair d.toNat (f u).1).orFlags (f u).2.bits :=
  completes_of_go h hx fun th hm t _ hh he =>
    ⟨_, rfl, (State.setPair_runs _ _ hh (by rw [he]; exact hd th hm)).raise hh _⟩

theorem flagPredOp_completes {s : State} {i : Instr} {p : Ply} (q : BitVec 3) (f : Thread → Bool × Raised)
    (h : Issuing s i p) (hd : SettledPred s i p q.toNat) (hx : exec i s = runPly i (flagPredOp q f) s) :
    Completes s i p fun _ u => (u.writePred q.toNat (f u).1).orFlags (f u).2.bits :=
  completes_of_go h hx fun th hm _ _ hh he =>
    ⟨_, rfl, (State.setPred_runs _ _ hh (by rw [he]; exact hd th hm)).raise hh _⟩

/-! ### Lane operations -/

theorem Issuing.laneMembers {s : State} {i : Instr} {p : Ply} (h : Issuing s i p) :
    (s.leaveJoined p).laneMembers i p = s.lanesOf p := by
  have hf := State.onlyThreads_leaveJoined s p
  have ht : ∀ th ∈ p.members, (s.leaveJoined p).thread th = { s.thread th with joined := 0 } :=
    fun th hm => State.leaveJoined_thread s p th hm (h.here th hm)
  have hp : (p.members.filter fun th => (s.leaveJoined p).gate i p.word th == .pass) = p.members := by
    rw [List.filter_eq_self]
    intro th hm
    have : (s.leaveJoined p).gate i p.word th = .pass := by
      rw [← h.pass th hm]
      exact (State.gate_congr i p.word th hf (by rw [ht th hm])).symm
    rw [this]
    rfl
  unfold State.laneMembers State.lanesOf
  rw [hp]
  exact List.map_congr_left fun th hm => by rw [ht th hm]

theorem runLanes_eq {s : State} {i : Instr} {p : Ply} (h : Issuing s i p)
    (body : List (ThreadRef × Thread) → ThreadRef → State → Effect) :
    runLanes i body s = runPly i (body (s.lanesOf p)) s := by
  simp only [runLanes, h.ply, h.laneMembers]

theorem laneOp_completes {s : State} {i : Instr} {p : Ply} (d : BitVec 7)
    (f : List (ThreadRef × Thread) → Nat → Thread → Word) (h : Issuing s i p) (hd : Settled s i p d.toNat 1)
    (hx : exec i s = runLanes i (laneOp d f) s) :
    Completes s i p fun th u => u.write d.toNat (f (s.lanesOf p) th.lane u) :=
  completes_of_go h (hx.trans (runLanes_eq h _)) fun th hm t _ hh he =>
    ⟨_, rfl, State.setReg_runs _ _ hh (by rw [he]; exact hd th hm)⟩

theorem lanePairOp_completes {s : State} {i : Instr} {p : Ply} (d : BitVec 7)
    (f : List (ThreadRef × Thread) → Nat → Thread → DWord) (h : Issuing s i p) (hd : Settled s i p d.toNat 2)
    (hx : exec i s = runLanes i (lanePairOp d f) s) :
    Completes s i p fun th u => u.writePair d.toNat (f (s.lanesOf p) th.lane u) :=
  completes_of_go h (hx.trans (runLanes_eq h _)) fun th hm t _ hh he =>
    ⟨_, rfl, State.setPair_runs _ _ hh (by rw [he]; exact hd th hm)⟩

theorem lanePredOp_completes {s : State} {i : Instr} {p : Ply} (q : BitVec 3)
    (f : List (ThreadRef × Thread) → Nat → Bool) (h : Issuing s i p)
    (hd : SettledPred s i p q.toNat) (hx : exec i s = runLanes i (lanePredOp q f) s) :
    Completes s i p fun th u => u.writePred q.toNat (f (s.lanesOf p) th.lane) :=
  completes_of_go h (hx.trans (runLanes_eq h _)) fun th hm _ _ hh he =>
    ⟨_, rfl, State.setPred_runs _ _ hh (by rw [he]; exact hd th hm)⟩

/-! ### The same, in the words of Safety -/

theorem Completes.congr {s : State} {i : Instr} {p : Ply} {f g : ThreadRef → Thread → Thread} (h : Completes s i p f)
    (e : ∀ th ∈ p.members, ∀ u, f th u = g th u) : Completes s i p g := by
  obtain ⟨t, a, b⟩ := h
  exact ⟨t, a, b.ended, fun th hm => by rw [b.members th hm, e th hm], b.frame⟩

theorem writesReg_of {i : Instr} {d : BitVec 7} {f g : Thread → Word} (hx : ∀ s, exec i s = runPly i (regOp d f) s)
    (e : ∀ u, f u = g u) : WritesReg i d g :=
  fun s _ h hd => (regOp_completes d f h hd (hx s)).congr fun _ _ u => by rw [e]

theorem writesPair_of {i : Instr} {d : BitVec 7} {f g : Thread → DWord}
    (hx : ∀ s, exec i s = runPly i (pairOp d f) s) (e : ∀ u, f u = g u) : WritesPair i d g :=
  fun s _ h hd => (pairOp_completes d f h hd (hx s)).congr fun _ _ u => by rw [e]

theorem writesWidth_of {i : Instr} {w : Width} {d : BitVec 7} {f g : Thread → DWord}
    (hx : ∀ s, exec i s = runPly i (widthOp w d f) s) (e : ∀ u, f u = g u) : WritesWidth i w d g :=
  fun s _ h hd => (widthOp_completes w d f h hd (hx s)).congr fun _ _ u => by rw [e]

theorem writesPred_of {i : Instr} {q : BitVec 3} {f g : Thread → Bool}
    (hx : ∀ s, exec i s = runPly i (predOp q f) s) (e : ∀ u, f u = g u) : WritesPred i q g :=
  fun s _ h hd => (predOp_completes q f h hd (hx s)).congr fun _ _ u => by rw [e]

theorem writesRegFlags_of {i : Instr} {d : BitVec 7} {f : Thread → Word × Raised} {g : Thread → Word × BitVec 6}
    (hx : ∀ s, exec i s = runPly i (flagOp d f) s) (e : ∀ u, ((f u).1, (f u).2.bits) = g u) : WritesRegFlags i d g :=
  fun s _ h hd => (flagOp_completes d f h hd (hx s)).congr fun _ _ u => by rw [← e]

theorem writesPairFlags_of {i : Instr} {d : BitVec 7} {f : Thread → DWord × Raised} {g : Thread → DWord × BitVec 6}
    (hx : ∀ s, exec i s = runPly i (flagPairOp d f) s) (e : ∀ u, ((f u).1, (f u).2.bits) = g u) :
    WritesPairFlags i d g :=
  fun s _ h hd => (flagPairOp_completes d f h hd (hx s)).congr fun _ _ u => by rw [← e]

theorem writesPredFlags_of {i : Instr} {q : BitVec 3} {f : Thread → Bool × Raised} {g : Thread → Bool × BitVec 6}
    (hx : ∀ s, exec i s = runPly i (flagPredOp q f) s) (e : ∀ u, ((f u).1, (f u).2.bits) = g u) :
    WritesPredFlags i q g :=
  fun s _ h hd => (flagPredOp_completes q f h hd (hx s)).congr fun _ _ u => by rw [← e]

theorem writesLane_of {i : Instr} {d : BitVec 7} {f g : List (ThreadRef × Thread) → Nat → Thread → Word}
    (hx : ∀ s, exec i s = runLanes i (laneOp d f) s) (e : ∀ ms l u, f ms l u = g ms l u) : WritesLane i d g :=
  fun s _ h hd => (laneOp_completes d f h hd (hx s)).congr fun _ _ u => by rw [e]

theorem writesLanePair_of {i : Instr} {d : BitVec 7} {f g : List (ThreadRef × Thread) → Nat → Thread → DWord}
    (hx : ∀ s, exec i s = runLanes i (lanePairOp d f) s) (e : ∀ ms l u, f ms l u = g ms l u) : WritesLanePair i d g :=
  fun s _ h hd => (lanePairOp_completes d f h hd (hx s)).congr fun _ _ u => by rw [e]

theorem writesLanePred_of {i : Instr} {q : BitVec 3} {f g : List (ThreadRef × Thread) → Nat → Bool}
    (hx : ∀ s, exec i s = runLanes i (lanePredOp q f) s) (e : ∀ ms l, f ms l = g ms l) : WritesLanePred i q g :=
  fun s _ h hd => (lanePredOp_completes q f h hd (hx s)).congr fun _ _ u => by rw [e]

end Sys2Proof.Machine
end

