-- ==== Sys2Proof/Laws/Solo.lean ====
section
/-! SUPPORT. A ply of one thread: its instruction is one change of that thread after whatever else the instruction
does, so that a statement about it can name the whole state that it leaves. -/
namespace Sys2Proof.Machine
open Sys2Proof

/-! ### Changes of one entry compose -/

theorem Tab.put_put {α : Type} (t : Tab α) (n : Nat) (a b : α) : Tab.put (Tab.put t n a) n b = Tab.put t n b := by
  induction t with
  | nil => simp [Tab.put]
  | cons e rest ih =>
    obtain ⟨k, c⟩ := e
    simp only [Tab.put]
    split
    · simp [Tab.put]
    · split
      · simp [Tab.put]
      · next h1 h2 => simp only [Tab.put, h1, h2, ↓reduceIte, ih]

theorem Tab.adjust_adjust {α : Type} (t : Tab α) (n : Nat) (f g : α → α) :
    Tab.adjust (Tab.adjust t n f) n g = Tab.adjust t n fun x => g (f x) := by
  unfold Tab.adjust
  cases h : Tab.find t n with
  | none => simp [h]
  | some a => simp [Tab.put_put]

theorem State.modTeam_modTeam (s : State) (n : Nat) (f g : Team → Team) :
    (s.modTeam n f).modTeam n g = s.modTeam n fun x => g (f x) := by
  simp only [State.modTeam, Tab.adjust_adjust]

theorem State.modGroup_modGroup (s : State) (n k : Nat) (f g : Group → Group) :
    (s.modGroup n k f).modGroup n k g = s.modGroup n k fun x => g (f x) := by
  simp only [State.modGroup, State.modTeam_modTeam, Tab.adjust_adjust]

@[simp] theorem State.modThread_modThread (s : State) (th : ThreadRef) (f g : Thread → Thread) :
    (s.modThread th f).modThread th g = s.modThread th fun x => g (f x) := by
  simp only [State.modThread, State.modGroup_modGroup, Tab.adjust_adjust]

theorem State.endPly_eq (s : State) : s.endPly = { s with ply := none } := rfl

theorem State.stall_eq (s : State) (th : ThreadRef) :
    s.stall th = s.modThread th fun t => { t with status := .stalled } := rfl

theorem State.advance_eq (s : State) (th : ThreadRef) : s.advance th = s.modThread th (Thread.leaving s.tick) := by
  unfold State.advance
  congr 1
  funext t
  unfold Thread.leaving Thread.goingTo
  cases t.replay <;> rfl

theorem State.goto_eq (s : State) (th : ThreadRef) (pc : DWord) :
    s.goto th pc = s.modThread th (Thread.goingTo pc s.tick) := rfl

theorem State.block_eq (s : State) (th : ThreadRef) (w : Wait) :
    s.block th w = s.modThread th (Thread.blocking w (s.cyclesOf (s.coreOf th))) := rfl

/-! ### What an entered instruction sees -/

@[simp] theorem State.thread_entered {s : State} {i : Instr} {th : ThreadRef} (h : s.holds th = true) :
    (s.entered i th).thread th = (s.thread th).entering i := State.thread_modThread_same s th _ h

theorem State.team_modThread_keeps {β : Type} (r : Team → β) (s : State) (th : ThreadRef) (f : Thread → Thread) (n : Nat)
    (h : ∀ (x : Team) (y : Tab Group), r { x with groups := y } = r x) :
    r ((s.modThread th f).team n) = r (s.team n) :=
  State.team_modTeam_keeps r s th.team n _ fun x => h x _

@[simp] theorem State.coreOf_entered (s : State) (i : Instr) (th u : ThreadRef) :
    (s.entered i th).coreOf u = s.coreOf u :=
  State.team_modThread_keeps Team.core s th _ u.team fun _ _ => rfl
@[simp] theorem State.tenantOf_entered (s : State) (i : Instr) (th u : ThreadRef) :
    (s.entered i th).tenantOf u = s.tenantOf u :=
  State.team_modThread_keeps Team.tenant s th _ u.team fun _ _ => rfl
@[simp] theorem State.gridOf_entered (s : State) (i : Instr) (th : ThreadRef) (n : Nat) :
    (s.entered i th).gridOf n = s.gridOf n :=
  State.team_modThread_keeps (fun x => s.grid x.grid) s th _ n fun _ _ => rfl
@[simp] theorem State.cyclesOf_entered (s : State) (i : Instr) (th : ThreadRef) (c : Nat) :
    (s.entered i th).cyclesOf c = s.cyclesOf c := rfl
@[simp] theorem State.tick_entered (s : State) (i : Instr) (th : ThreadRef) : (s.entered i th).tick = s.tick := rfl

/-! ### A ply of one thread -/

theorem Alone.gate_pass {s : State} {i : Instr} {th : ThreadRef} {p : Ply} (h : Alone s i th) (hp : s.ply = some p) :
    p.members = [th] ∧ s.gate i p.word th = .pass := by
  obtain ⟨q, e, m, g⟩ := h.ply
  obtain rfl : p = q := by rw [e] at hp; exact (Option.some.inj hp).symm
  exact ⟨m, g⟩

theorem Alone.issuing {s : State} {i : Instr} {th : ThreadRef} (h : Alone s i th) : ∃ p, Issuing s i p ∧ p.members = [th] := by
  obtain ⟨p, e, m, g⟩ := h.ply
  refine ⟨p, ⟨e, by simp [m], ?_, ?_⟩, m⟩
  · simpa [m] using h.here
  · simpa [m] using g

/-- The one thread runs the body on the state as its instruction finds it, when that stops no team. -/
theorem runPly_alone {s : State} {i : Instr} {th : ThreadRef} {body : ThreadRef → State → Effect} (h : Alone s i th)
    (hs : ∀ n, (((body th (s.entered i th)).apply th).team n).stopping = (s.team n).stopping) :
    runPly i body s = .next { (body th (s.entered i th)).apply th with ply := none } := by
  obtain ⟨p, hi, hm⟩ := h.issuing
  have e0 : s.leaveJoined p = s.modThread th fun t => { t with joined := 0 } := by
    simp [State.leaveJoined, hm]
  have hg : (s.leaveJoined p).gate i p.word th = .pass := by
    have hf := State.onlyThreads_leaveJoined s p
    rw [← hi.pass th (by simp [hm])]
    exact (State.gate_congr i p.word th hf (by rw [State.leaveJoined_thread s p th (by simp [hm]) h.here])).symm
  have e1 : (s.leaveJoined p).passMarker i th = s.entered i th := by
    rw [e0]
    unfold State.passMarker State.closeUnspec State.entered Thread.entering
    split <;> simp_all
  simp only [runPly, hi.ply, hi.not_joinedWaits, Bool.false_eq_true, ↓reduceIte, hm, List.foldl_cons, List.foldl_nil,
    State.runThread, hg, e1, State.issued, State.stopMarked_same (hs p.team), State.endPly_eq]

theorem ends_of {s u : State} {i : Instr} {th : ThreadRef} {body : ThreadRef → State → Effect} {f : Thread → Thread}
    (h : Alone s i th) (hx : exec i s = runPly i body s) (hs : ∀ n, (u.team n).stopping = (s.team n).stopping)
    (e : (body th (s.entered i th)).apply th = u.modThread th fun x => f (x.entering i)) : Ends s i th f u := by
  unfold Ends
  rw [hx, runPly_alone h, e]
  intro n
  rw [e, ← hs]
  exact State.team_modThread_keeps Team.stopping u th _ n fun _ _ => rfl

theorem does_of {s u v : State} {i : Instr} {th : ThreadRef} {body : ThreadRef → State → Effect} {f : Thread → Thread}
    (h : Alone s i th) (hx : exec i s = runPly i body s) (ht : v.tick = s.tick)
    (hs : ∀ n, (u.team n).stopping = (s.team n).stopping) (e : body th (s.entered i th) = .go v) (e2 : v = u.modThread th fun x => f (x.entering i)) : Does s i th f u := by
  refine ends_of h hx hs ?_
  rw [e, Effect.apply, State.advance_eq, ht, e2, State.modThread_modThread]

end Sys2Proof.Machine
end

