-- ==== Sys2Proof/Tests/Slice0.lean ====
section
/-! SUPPORT. Tests of the model: words of the spec's encoding tables, terms that are ill formed, single steps with the
spec's own figures, and states that meet the hypotheses of the obligations (wit_…). -/
namespace Sys2Proof.Tests
open Sys2Proof Sys2Proof.Machine
set_option Elab.async false

/-! ### Words of the encoding tables -/

/-- The words of R39's example, field by field. -/
theorem test_decode_example :
    decode (0#1 ++ 0x48#7 ++ 32#7 ++ 4#7 ++ 0#7 ++ 4#3) = .ok (.ld false 32 4 0 .b32) ∧
    decode (1#1 ++ 0x00#7 ++ 6#7 ++ 6#7 ++ 32#7 ++ 0#3) = .ok (.iadd true 6 6 32 .w32) ∧
    decode (0#1 ++ 0x15#7 ++ 0b010#3 ++ 0#1 ++ 1#3 ++ 7#7 ++ 8#10) = .ok (.isetImm false .lt false 1 7 8) ∧
    decode (0#1 ++ 0x40#7 ++ 1#3 ++ 0#1 ++ 0xFFFFB#20) = .ok (.bra false 1 false 0xFFFFB) ∧
    decode (0#1 ++ 0x49#7 ++ 7#7 ++ 4#7 ++ 1#7 ++ 2#3) = .ok (.st false 7 4 1 .b16) := by decide +kernel

/-- Table 5.5. -/
theorem test_decode_integer :
    decode 0x03100823 = .ok (.iaddc false 8 2 4 3) ∧ decode 0x0F100803 = .ok (.shlImm false 8 2 .w32 3) ∧
    decode 0x0F081B28 = .ok (.sarImm false 4 6 .w64 40) ∧ decode 0x1206088B = .ok (.bfxI32 false 3 2 4 11) ∧
    decode 0x15B80BFF = .ok (.isetImm false .ge true 4 2 0x3FF) ∧ decode 0x1612183A = .ok (.isel false 9 6 7 2) ∧
    decode 0x19065678 = .ok (.movi false 3 0x5678) ∧ decode 0x1A062468 = .ok (.movh false 3 0x2468) ∧
    decode 0x1D0E000E = .ok (.gets false 7 0xE) := by decide +kernel

theorem test_decode_lane_and_control :
    decode 0x38160C4B = .ok (.shflXor false 11 3 9) ∧ decode 0x3A181001 = .ok (.matchLanes false 12 4 .w64) ∧
    decode 0x3B020000 = .ok (.elect false 1) ∧ decode 0x3C140C01 = .ok (.scanAddEx false 10 3) ∧
    decode 0x425FFFFD = .ok (.brcAll false 2 true 0xFFFFD) ∧ decode 0x44007800 = .ok (.ret false 30) ∧
    decode 0x45000020 = .ok (.wbase false 32) ∧ decode 0x46000002 = .ok (.exitT false) := by decide +kernel

/-- Encodings of the floating-point, conversion and quantisation instructions. -/
theorem test_decode_float :
    decode 0x2010102D = .ok (.fadd false 8 4 5 true .rtz) ∧ decode 0x230C0818 = .ok (.ffma false 6 2 3 false .rne) ∧
    decode 0x2544102C = .ok (.fset false .lt 2 4 5 true) ∧ decode 0x27060802 = .ok (.fsqrt false 3 2) ∧
    decode 0x2C101032 = .ok (.dfma false 8 4 6 .rup) ∧ decode 0x300C0818 = .ok (.hpfma false 6 2 3 false .rne) ∧
    decode 0x31060A41 = .ok (.f2i false 3 2 .f32 .i32 .rtz) ∧ decode 0x320A1080 = .ok (.i2f false 5 4 .f16 .n8 .rne) ∧
    decode 0x330E1A40 = .ok (.f2f false 7 6 .f32 .bf16 false .rne) ∧ decode 0x3414306A = .ok (.qgrp false 10 12 13 2) ∧
    decode 0x35124052 = .ok (.qpack false 9 16 10 2) ∧ decode 0x36302452 = .ok (.qunpk false 24 9 10 2) := by decide +kernel

/-- Encodings of the matrix engine and the butterfly. -/
theorem test_decode_tiles :
    decode 0x60020008 = .ok (.tld false 1 0 1) ∧ decode 0x61080010 = .ok (.tst false 4 0 2) ∧
    decode 0x620A2002 = .ok (.tldq false 5 8 0 2) ∧ decode 0x63020001 = .ok (.tzero false 2 true) ∧
    decode 0x64020100 = .ok (.tmma false 0 2 0 1 0) ∧ decode 0x65042001 = .ok (.tcvt false 0 4 2 1) ∧
    decode 0x660E1448 = .ok (.tgetf false 7 5 9) ∧ decode 0x67121032 = .ok (.tmergeF64Ord false 1 1 4 6) ∧
    decode 0x6A002000 = .ok (.tfcfg false 8) ∧ decode 0x69010000 = .ok (.tbfy false 0 1 0) ∧
    decode 0x6B080818 = .ok (.ttwid false 4 2 3) ∧ decode 0x60000001 = .ok (.tldDr false 0 0 0) := by decide +kernel

/-- Encodings of the memory instructions. -/
theorem test_decode_memory :
    decode 0xC8061014 = .ok (.ld true 3 4 2 .b32) ∧ decode 0x480613FB = .ok (.ld false 3 4 0x7F .i16) ∧
    decode 0x4B142804 = .ok (.sts false 10 10 0 .b32) ∧ decode 0x4C045802 = .ok (.ldaq false 2 22 .b32 2) ∧
    decode 0x4D005853 = .ok (.strl false .b32 22 10 3) ∧ decode 0x4E4D1042 = .ok (.atomAdd false .acq 6 .i64 4 8 2) ∧
    decode 0x4F061333 = .ok (.atomExch false .rlx 3 .w32 4 6 3) ∧ decode 0x50CD1043 = .ok (.cas false .ar 6 .w64 4 8 3) ∧
    decode 0x51841033 = .ok (.redAddF32 false true 4 6 3) ∧ decode 0x52062858 = .ok (.atomsAdd false 3 10 11) ∧
    decode 0x53120403 = .ok (.fenceAcq false 9 3) ∧ decode 0x53060801 = .ok (.fenceRel false 3 1) ∧
    decode 0x540C1118 = .ok (.ldr false 6 4 .b64 3) ∧ decode 0x55001012 = .ok (.prefL2 false 4 2) ∧
    decode 0x58000020 = .ok (.cpyin false 0 0 4) ∧ decode 0x5B021040 = .ok (.cpymc false 1 4 8) ∧
    decode 0x5D0C0002 = .ok (.bobwait false 6 0 .full) := by decide +kernel

/-- Encodings of the synchronisation instructions. -/
theorem test_decode_sync :
    decode 0x56000000 = .ok (.barSync false 0) ∧ decode 0x56060001 = .ok (.barArrive false 3) ∧
    decode 0x56021003 = .ok (.barset false 1 4) ∧ decode 0x56000804 = .ok (.gsync false 2) ∧
    decode 0x5601FFFD = .ok (.gsyncImm false 0x3FFF) ∧ decode 0x56000006 = .ok (.ksetImm false 0 0) ∧
    decode 0x57B01030 = .ok (.waitv false .ge true 4 6 .w32) ∧ decode 0x57042002 = .ok (.signal false 2 8) := by decide +kernel

/-- Encodings of strings, near-memory, solicit, launch and traps. -/
theorem test_decode_rest :
    decode 0xEC082011 = .ok (.rank1 true 4 8 2) ∧ decode 0x6D142432 = .ok (.enclBr false 10 9 6) ∧
    decode 0x6E182010 = .ok (.bins false 12 8 2) ∧ decode 0x70101000 = .ok (.sreg false 8 4) ∧
    decode 0x71182001 = .ok (.sstat false 12 8) ∧ decode 0x74000010 = .ok (.nmload false 0 2) ∧
    decode 0x75101031 = .ok (.nmrunRet false 8 4 6) ∧ decode 0x7604_1032 = .ok (.redNmAddF32 false false 4 6 2) ∧
    decode 0x77001031 = .ok (.rcopy false 4 6) ∧ decode 0x78024103 = .ok (.solicit false 1 16 .c2 .addI64 3) ∧
    decode 0x780020DA = .ok (.solicit false 0 8 .c1 .first 2) ∧ decode 0x7904000A = .ok (.cpoll false 2 1) ∧
    decode 0x7A061401 = .ok (.tddel false 3 5) ∧ decode 0x7B061430 = .ok (.tdmove false 3 5 6) ∧
    decode 0x7C0C1040 = .ok (.launch false 6 4 8) ∧ decode 0x7D000005 = .ok (.intr false 5) ∧
    decode 0x7E0003FF = .ok (.trap false 1023) ∧ decode 0x7F000001 = .ok (.tretSkip false) := by decide +kernel

/-- Table 22.2: a reserved selector and two must-be-zero bits. -/
theorem test_decode_reserved :
    decode 0x7F000003 = .error .reserved ∧ decode 0x7F000008 = .error .reserved ∧ decode 0x7E020005 = .error .reserved := by
  decide +kernel

/-! ### Ill-formed terms -/

/-- R30: a pair names an even register and an accumulator an even tile. R35: a scope has a meaning, SOLICIT takes two of
them, and a FENCE names a path. R64: a 32-bit shift has an amount below 32. -/
theorem test_ill_formed :
    (Instr.iadd false 3 2 4 .w64).aligned = false ∧ (Instr.lea false 4 1 2 0).aligned = false ∧
    (Instr.tmma false 0 3 0 1 0).aligned = false ∧ (Instr.ldaq false 2 22 .b32 7).scopeOk = false ∧
    (Instr.solicit false 1 16 .c2 .addI64 4).scopeOk = false ∧ (Instr.fenceRel false 0 3).scopeOk = false ∧
    (Instr.shlImm false 8 2 .w32 32).shiftOk = false ∧ (Instr.shlImm false 8 2 .w64 32).wellFormed = true ∧
    (Instr.fenceRel false 1 0).wellFormed = true := by decide +kernel

/-! ### One thread about to issue -/

/-- The one thread of the states below, the ply that it forms, and a state where that ply is in issue. -/
def T : ThreadRef := ⟨0, 0, 0⟩
def one : Ply := ⟨0, 0, 0, [T], 0, 0⟩
def base : State := { State.reset.withFetchWord 32 0 with ply := some one }

/-- The thread, its group, its team and its grid changed. -/
def thr (f : Thread → Thread) (s : State) : State := s.modThread T f
def grp (f : Group → Group) (s : State) : State := s.modGroup 0 0 f
def tm (f : Team → Team) (s : State) : State := s.modTeam 0 f
def grd (f : Grid → Grid) (s : State) : State := s.modGrid 0 f

/-- Registers of the thread, from v0 on. -/
def regs (vs : List Nat) (s : State) : State :=
  thr (fun t => { t with regs := vs.zipIdx.foldl (fun r e => Tab.put r e.2 (BitVec.ofNat 32 e.1)) t.regs }) s

/-- The grid has a trap handler, and the thread stands in it. -/
def handled (s : State) : State := grd (fun g => { g with handler := 0x100 }) s
def inside (s : State) : State := thr (fun t => { t with inHandler := true }) (handled s)

/-- A page of 2 MiB at virtual address 0, which the TLB holds. -/
def leaf : Leaf :=
  ⟨0x200000, true, true, true, false, false, true, true, false, false, 0, 0, 0, 0⟩
def paged (l : Leaf) (s : State) : State :=
  { s with tenants := [(0, { en := true })], clusters := [(0, { owned := true, tlb := [⟨0, 0, l⟩] })] }
def mapped (s : State) : State := paged leaf s

/-- The ply is in issue, its thread is there and passes the checks before `i`, and `n` registers from v`k` are
settled. -/
def met (s : State) (i : Instr) (k n : Nat) : Bool :=
  s.ply == some one && s.holds T && decide (s.gate i one.word T = .pass) &&
    (List.range n).all fun j => let t := (s.thread T).entering i
      !t.outstanding (t.index (k + j)) && !t.unspec.contains (t.index (k + j))

theorem met_sound {s : State} {i : Instr} {k n : Nat} (h : met s i k n = true) :
    Issuing s i one ∧ Settled s i one k n ∧ Alone s i T := by
  simp only [met, Bool.and_eq_true, beq_iff_eq, decide_eq_true_eq, List.all_eq_true, List.mem_range,
    Bool.not_eq_true'] at h
  obtain ⟨⟨⟨hp, hh⟩, hg⟩, hs⟩ := h
  have hm : ∀ th ∈ one.members, th = T := by simp [one]
  exact ⟨⟨hp, by decide, fun th m => hm th m ▸ hh, fun th m => hm th m ▸ hg⟩,
    fun th m => hm th m ▸ hs, ⟨one, hp, rfl, hg⟩, hh⟩

theorem all_met {s : State} (xs : List (Instr × Nat × Nat)) (h : (xs.all fun e => met s e.1 e.2.1 e.2.2) = true) :
    ∀ e ∈ xs, Issuing s e.1 one ∧ Settled s e.1 one e.2.1 e.2.2 ∧ Alone s e.1 T :=
  fun e m => met_sound (List.all_eq_true.mp h e m)

/-- The thread's access passes. -/
def reaches (s : State) (x : Need) (va : DWord) (n align : Nat) (segs : List (Nat × Nat × Leaf)) : Bool :=
  decide (va.toNat < 2 ^ 57) && decide (va.toNat % align = 0) && (s.thread T).xfault.isNone &&
    decide (s.reach (s.coreOf T) (s.tenantOf T) x va.toNat n = .ok segs)

theorem reached_of {s : State} {x : Need} {va : DWord} {n align : Nat} {segs : List (Nat × Nat × Leaf)}
    (h : reaches s x va n align segs = true) : Reached s T x va n align segs := by
  simp only [reaches, Bool.and_eq_true, decide_eq_true_eq, Option.isNone_iff_eq_none] at h
  exact ⟨h.1.1.1, h.1.1.2, h.1.2, h.2⟩

/-- Slots of each format that an instruction takes: INT4 with a zero point, FP16, BF16, and so on to INT8 (Table 6.9).
-/
def slots (s : State) : State :=
  grd (fun g => { g with fslots := [0x440800, 0, 0x100000, 0xA00000, 0x600000, 0x700000, 0x200000, 0x500000] }) s

/-- The thread is in its handler with a precise trap, from an instruction at 0x40. -/
def trapped (back : DWord) (s : State) : State :=
  thr (fun t => { t with inHandler := true, trap := { pc := 0x40, code := 0x400 }, frame := { pc := back } }) (handled s)

/-- A property of every thread that the state lists, and so of every thread it names. -/
def every (s : State) (p : Thread → Bool) : Bool :=
  p absentThread && s.teams.all fun t => t.2.groups.all fun g => g.2.threads.all fun x => p x.2

theorem find_mem {α : Type} (t : Tab α) (n : Nat) (a : α) (h : Tab.find t n = some a) : (n, a) ∈ t := by
  induction t with
  | nil => simp [Tab.find] at h
  | cons e t ih =>
    simp only [Tab.find] at h
    split at h
    · cases h; subst n; exact List.mem_cons_self
    · exact List.mem_cons_of_mem _ (ih h)

theorem every_sound {s : State} {p : Thread → Bool} (h : every s p = true) : ∀ u, p (s.thread u) = true := by
  simp only [every, Bool.and_eq_true, List.all_eq_true] at h
  intro u
  unfold State.thread State.group State.team Team.group Tab.get
  cases ht : Tab.find s.teams u.team with
  | none => simpa [Tab.find] using h.1
  | some t =>
    cases hg : Tab.find t.groups u.group with
    | none => simpa [Tab.find, hg] using h.1
    | some g =>
      cases hx : Tab.find g.threads u.lane with
      | none => simpa [Tab.find, hg, hx] using h.1
      | some x => simpa [hg, hx] using h.2 _ (find_mem _ _ _ ht) _ (find_mem _ _ _ hg) _ (find_mem _ _ _ hx)

/-- No thread waits. -/
theorem quiet_of {s : State} (h : every s (fun t => t.wait == .none) = true) : ∀ u, (s.thread u).wait = .none := by
  simpa using every_sound h

/-- A request of the thread, number 7, with one part. -/
def req (k : ReqKind) (x : ReqPart) : Req :=
  { id := 7, path := .p, kind := k, th := T, core := 0, tenant := 0, pc := 0, va := BitVec.ofNat 64 x.va, parts := [x] }
def sent (k : ReqKind) (x : ReqPart) : State :=
  thr (fun t => { t with outs := [⟨7, [4], none, none, 0⟩] }) { base with reqs := [req k x] }

/-- A string of two blocks, at 0 on die 0, registered. -/
def str : Str :=
  { tenant := 0, handle := 0, base := 0, cap := 1024, len := 600, bp := true, building := false, stack := 0
    extents := [(0, 128, 0)], descriptor := .dev 0x1000, descVa := 0x1000, dirBase := 0x2000, dirUnits := 1, buildFrom := 2 }

theorem alone_of {s : State} {i : Instr} (h : met s i 0 0 = true) : Alone s i T := (met_sound h).2.2

/-- A second thread of the group, in lane 1. -/
def pal : ThreadRef := ⟨0, 0, 1⟩
def paired (x : Thread) (s : State) : State := grp (fun g => { g with threads := g.threads ++ [(1, x)] }) s

/-- A second team of the grid, with linear index 1, on core 1. -/
def teamed (t : Team) (s : State) : State :=
  { s with
    teams := s.teams ++ [(1, { t with index := 1, core := 1, scratchSize := 0x20000 })]
    grids := [(0, { s.grid 0 with nx := 2, placed := 2 })], locators := [(0, [(0, .running 0), (1, .running 1)])] }

/-- A bobbin of the team, and a copy of the thread by it: 16 bytes between address 0x40 and the scratchpad at 8. -/
def bob (b : Bobbin) (s : State) : State := tm (fun t => { t with bobbins := [(1, b)] }) s
def copy (inward : Bool) : Copy :=
  { id := 7, th := T, core := 0, tenant := 0, pc := 4, team := 0, inward := inward, bob := some 1, va := 0x40, sp := 8, width := 16 }

/-- The thread waits for nothing, and no ply of its team waits at the engine queue. -/
def unwaiting (s : State) : Bool :=
  (s.thread T).waitOp.isNone && (s.thread T).wait == .none && (s.team 0).plies.isEmpty

theorem enters_of {s : State} {i : Instr} (h : met s i 0 0 = true) (hw : unwaiting s = true) : Enters s i T := by
  simp only [unwaiting, Bool.and_eq_true, Option.isNone_iff_eq_none, beq_iff_eq, List.isEmpty_iff] at hw
  obtain ⟨⟨w, f⟩, e⟩ := hw
  have hp : s.ply = some one := (met_sound h).1.ply
  exact ⟨alone_of h, fun p q => by rw [hp] at q; cases q; rfl, w, f, fun o m => by simp [T, e] at m⟩

theorem all_enter {s : State} (xs : List Instr) (h : (xs.all fun i => met s i 0 0) = true) (hw : unwaiting s = true) :
    ∀ i ∈ xs, Enters s i T :=
  fun i m => enters_of (List.all_eq_true.mp h i m) hw

/-- Nothing is outstanding in the thread, and no predicate is left unspecified. -/
theorem preds_settled {s : State} {i : Instr}
    (h : ((s.thread T).outs.isEmpty && (s.thread T).unspecPreds.isEmpty) = true) (q : Nat) : SettledPred s i one q := by
  simp only [Bool.and_eq_true, List.isEmpty_iff] at h
  intro th m
  obtain rfl : th = T := by simpa [one] using m
  exact .inr (by simp [Thread.entering, Thread.predOutstanding, h.1, h.2])

/-- An operation at the head of the team's engine queue. -/
def queued (op : Instr) (s : State) : State :=
  tm (fun t => { t with engine := [{ id := 7, op := op, th := T, pc := 4 }] }) s

/-- A tenant whose tables map the first GiB of die 0 onto itself, with cells of its own. -/
def tabled (cells : List (Nat × Byte)) (s : State) : State :=
  { s with
    mem := cells.foldl (fun m c => Memory.write m c.1 c.2) [(1, 0x10), (7, 0x80), (0x1007, 0xF8)]
    tenants := [(0, { en := true })], clusters := [(0, { owned := true, tlb := [⟨0, 0, leaf⟩] })] }
def gib : Leaf := ⟨0x40000000, true, true, true, false, false, false, false, false, false, 0, 0, 0, 0⟩

/-! ### Single steps with the spec's own figures -/

/-- A register of the thread, and its FLAGS, after an instruction. -/
def out (i : Instr) (s : State) (k : Nat) : Option Word :=
  match exec i s with | .next t => some ((t.thread T).reg k) | _ => none
def flags (i : Instr) (s : State) : Option (BitVec 6) :=
  match exec i s with | .next t => some (t.thread T).flags | _ => none

/-- The example after R66. -/
theorem test_bfx : out (.bfxI32 false 3 2 4 11) (regs [0, 0, 0x0000F7A0] base) 3 = some 0xFFFFFF7A := by decide +kernel

/-- The table of rounding to BF16, each with NX. -/
theorem test_f2f_bf16 :
    ∀ e ∈ ([(0x3EAAAAAB, Rm.rne, 0x3EAB), (0x3EAAAAAB, .rtz, 0x3EAA), (0x3EAAAAAB, .rup, 0x3EAB), (0x3EAAAAAB, .rdn, 0x3EAA),
        (0xBEAAAAAB, .rne, 0xBEAB), (0xBEAAAAAB, .rtz, 0xBEAA), (0xBEAAAAAB, .rup, 0xBEAA), (0xBEAAAAAB, .rdn, 0xBEAB)] :
        List (Nat × Rm × Nat)),
      out (.f2f false 3 2 .f32 .bf16 false e.2.1) (regs [0, 0, e.1] base) 3 = some (BitVec.ofNat 32 e.2.2) ∧
      flags (.f2f false 3 2 .f32 .bf16 false e.2.1) (regs [0, 0, e.1] base) = some 0x10 := by decide +kernel

/-- The example after R92: HPADD of 0x3C007BFF and 0x3C000001. -/
theorem test_hpadd :
    out (.hpadd false 3 1 2 false .rne) (regs [0, 0x3C007BFF, 0x3C000001] base) 3 = some 0x40007BFF ∧
    flags (.hpadd false 3 1 2 false .rne) (regs [0, 0x3C007BFF, 0x3C000001] base) = some 0x10 := by decide +kernel

/-- Table 6.6 and the text beside it, through slot f2 of 0x00451800. -/
theorem test_quantisation :
    let s := grd (fun g => { g with fslots := [0, 0, 0x00451800] }) (regs [0, 0, 0, 0, 0, 0, 0, 0, 0, 0x5F9386F0, 0x00053800, 0, 0xC0200000, 0x40A00000, 0, 0,
      0xC0200000, 0x40A00000, 0x3E99999A, 0x3FA00000, 0xBF800000, 0x400CCCCD, 0x409CCCCD, 0] base)
    out (.qgrp false 3 12 13 2) s 3 = some 0x00053800 ∧ flags (.qgrp false 3 12 13 2) s = some 0 ∧
    out (.qpack false 3 16 10 2) s 3 = some 0x5F9386F0 ∧ flags (.qpack false 3 16 10 2) s = some 0x10 ∧
    (List.range 8).map (fun j => out (.qunpk false 24 9 10 2) s (24 + j)) =
      [0xC0200000, 0x40A00000, 0x3F000000, 0x3FC00000, 0xBF800000, 0x40000000, 0x40A00000, 0].map some := by decide +kernel

/-- Table 10.3 and Table 21.11: SLICEOF of a striped page and of a pinned one. -/
theorem test_sliceof :
    let striped : Leaf := ⟨0x40000000, true, true, false, false, false, false, false, false, true, 0b00001010, 0, 0, 0⟩
    let pinned : Leaf := ⟨0x200000, true, true, false, false, false, false, false, false, false, 0, 5, 0x40000000, 0⟩
    let s : State := { regs [0x40601A40, 0xC0] base with
      tenants := [(0, { en := true })], clusters := [(0, { tlb := [⟨0, 0xC040600000, pinned⟩] })] }
    (out (.sliceof false 2 0) (regs [0x00023A40] (paged striped base)) 2 = some 0x8D070319 ∧
      out (.sliceof false 2 0) (regs [0x00023A40] (paged striped base)) 3 = some 0x28) ∧
    out (.sliceof false 2 0) s 2 = some 0x8D0A0529 ∧ out (.sliceof false 2 0) s 3 = some 0x20 := by decide +kernel

/-- The walk of Table 21.11. -/
theorem test_walk :
    let word (a : Nat) (v : Nat) (m : List Host.Cell) : List Host.Cell := Memory.writeAll m a (leBytes 8 v)
    let s : State := { base with
      mem := word 0x400008 0x8000000000600000 (word 0x600808 0x8000000000601000 (word 0x601018 0xF0000A0040000000 []))
      tenants := [(2, { en := true, root := 2 })] }
    (match s.walk 5 2 0xC040601A40 with | .leaf l b _ => some (l, b) | _ => none) =
      some (⟨0x200000, true, true, false, false, false, false, false, false, false, 0, 5, 0x40000000, 0⟩, 0xC040600000) := by decide +kernel

/-- The bracket queries on "(()())": EXCESS, CLOSE, OPEN and ENCL of each position; none is all ones. -/
theorem test_brackets :
    let query (f i : Nat) : Option (List Word) :=
      let x : Str := { str with len := 6, cap := 512, extents := [(0, 64, 0)], buildFrom := 1 }
      let r : Req := { id := 7, path := .n, kind := .query f 0 (BitVec.ofNat 64 i), th := T, core := 0, tenant := 0, pc := 0, va := 0, admitted := some 0 }
      match exec (.succinctQuery 7) { sent (.load 1 false) { va := 0, loc := .dev 0, len := 1 } with mem := [⟨0, 0x0B⟩], strings := [x], reqs := [r] } with
      | .next t => ((t.thread T).outs.head?.bind (·.result)).map (·.vals)
      | _ => none
    let none_ : List Word := [0xFFFFFFFF, 0xFFFFFFFF]
    (List.range 7).map (query 4) = ([[1, 0], [2, 0], [1, 0], [2, 0], [1, 0], [0, 0], none_].map some) ∧
    (List.range 7).map (query 5) = ([[5, 0], [2, 0], none_, [4, 0], none_, none_, none_].map some) ∧
    (List.range 7).map (query 6) = ([none_, none_, [1, 0], none_, [3, 0], [0, 0], none_].map some) ∧
    (List.range 7).map (query 7) = ([none_, [0, 0], none_, [0, 0], none_, none_, none_].map some) := by decide +kernel

/-- The directory of R315 and the last row of Table 23.2: the block taken and repaired. -/
theorem test_directory :
    let x : Str := { str with len := 26, cap := 512, extents := [(0, 64, 0)], buildFrom := 1, stale := [0] }
    let s : State := { base with
      mem := [⟨0, 0x67⟩, ⟨1, 0x59⟩, ⟨2, 0x59⟩], strings := [x], splicers := [(0, { queue := [(0, 0)] })] }
    (match exec (.splicerRepair 0) s with
     | .next t => (match exec (.splicerRepair 0) t with
       | .next u => u.strings.map fun (y : Str) => (y.unbal, y.super 0, Tab.get y.nodes (2 ^ 32) 0)
       | _ => [])
     | _ => []) = [(false, 0x003000000000000D, 3 * 2 ^ 64)] := by decide +kernel

/-- The example of FIPS 180-4: the digest of "abc". -/
theorem test_sha512 :
    Digest.fromBe (Digest.sha512 [0x61, 0x62, 0x63]) =
      0xDDAF35A193617ABACC417349AE20413112E6FA4E89A97EA20A9EEEE64B55D39A2192992A274FC1A836BA3C23A3FEEBBD454D4423643CE80E2A9AC94FA54CA49F := by
  decide +kernel

/-- A STEP of the selected thread: the ply issues, and DSTAT is DONE. -/
theorem test_single_step :
    let s := State.reset.withFetchWord 32 0x19065678
    (match step (s.setCore 0 { s.core 0 with ctl := { halt := true, step := some T } }) with
     | .next t => (t.thread T).reg 3 == 0x5678 && (t.core 0).ctl == { halt := true, dstat := 1 }
     | _ => false) = true := by decide +kernel

/-- Registers as the host reads them: STKAGE at reset (Table 10.4), CORECTL of a halted core, the answer of LCREQ (Table
25.7), a part that is RETIRED (R338), and the debug window of a core that is not halted (R336). -/
theorem test_register_reads :
    let s : State := base.setCore 1 { ctl := { halt := true, lane := 63 } }
    s.readBar0 0x105040 = some 7 ∧ s.readBar0 0x4010 = some 0x400000000000003F ∧
    ({ s with lcResult := 3 } : State).readBar0 0x9108 = some 0x0300000000000000 ∧
    ({ s with lifecycle := 4 } : State).readBar0 0x4010 = none ∧ s.readBar2 0 = some 0 := by decide +kernel

/-- The row of the example after R221, as offsets from its operand. -/
theorem test_row : rowChunks 0x200000 = [0x0, 0x4000, 0x8000, 0xC000, 0x10100, 0x14100, 0x18100, 0x1C100].map (0x200000 + ·) := by decide +kernel

/-- A fetched MOVI: its register, the pc, and memory after one step. -/
theorem test_step :
    (match step (State.reset.withFetchWord 32 0x19065678) with
     | .next t => (t.thread T).reg 3 == 0x5678 && (t.thread T).pc == 4 && t.mem == [] && (t.core 0).cycles != 0
     | _ => false) = true := by decide +kernel

/-! ### States and operands that meet the hypotheses of the obligations -/

theorem wit_IntegerArithmetic :
    ∀ e ∈ ([(.iadd true 2 4 6 .w64, 2, 2), (.isub false 2 4 6 .w32, 2, 1), (.iaddSat false 3 4 5 .i32, 3, 1),
        (.isubSat false 3 4 5 .n32, 3, 1), (.iaddImm false 3 4 0x3FF, 3, 1), (.isubImm false 3 4 0, 3, 1),
        (.imad false 2 2 2 .w64, 2, 2), (.imin false 3 3 3 .i32, 3, 1), (.imax false 3 4 5 .n32, 3, 1),
        (.iabs false 3 4, 3, 1), (.ineg false 3 3, 3, 1), (.iaddc false 3 4 5 0, 3, 1), (.isubb false 3 4 5 7, 3, 1),
        (.imul false 126 124 122 .w64, 126, 2), (.imulh false 3 4 5 .i32, 3, 1), (.idiv false 3 4 5 .i32, 3, 1),
        (.irem false 3 4 5 .n32, 3, 1)] : List (Instr × Nat × Nat)),
      Issuing base e.1 one ∧ Settled base e.1 one e.2.1 e.2.2 ∧ Alone base e.1 T :=
  all_met _ (by decide +kernel)

/-- Every destination predicate of the ply is settled, where nothing is outstanding. -/
theorem wit_SettledPred (i : Instr) (q : Nat) : SettledPred base i one q := preds_settled (by decide +kernel) q

theorem wit_LogicShiftsAndFields :
    ∀ e ∈ ([(.andR false 2 4 6 .w64, 2, 2), (.orR false 3 4 6 .w32, 3, 1), (.xorR false 3 4 6 .w32, 3, 1),
        (.andnR false 3 4 6 .w32, 3, 1), (.andImm false 3 4 0x200, 3, 1), (.shl false 2 4 7 .w64, 2, 2),
        (.shlImm false 2 4 .w64 63, 2, 2), (.shr false 3 4 7 .w32, 3, 1), (.shrImm false 3 4 .w32 31, 3, 1),
        (.sar false 3 4 7 .w32, 3, 1), (.sarImm false 2 4 .w64 0, 2, 2), (.rol false 3 4 7, 3, 1),
        (.rolImm false 3 4 31, 3, 1), (.popc false 3 4 .w64, 3, 1), (.clz false 3 4, 3, 1), (.ctz false 3 4, 3, 1),
        (.brev false 3 4, 3, 1), (.bfxN32 false 3 4 0 31, 3, 1), (.bfxI32 false 3 4 31 31, 3, 1),
        (.bfi false 3 4 31 31, 3, 1)] : List (Instr × Nat × Nat)),
      Issuing base e.1 one ∧ Settled base e.1 one e.2.1 e.2.2 ∧ Alone base e.1 T :=
  all_met _ (by decide +kernel)

theorem wit_CompareAndSelect :
    ∀ e ∈ ([(.iset false .lt true 0 4 6 .w32, 0, 0), (.iset false .ge false 7 4 6 .w64, 0, 0),
        (.isetImm false .eq true 1 4 0x200, 0, 0), (.isel false 3 4 5 0, 3, 1), (.psetAnd false 0 0 7, 0, 0),
        (.psetOr false 1 1 1, 0, 0), (.psetXor false 1 2 3, 0, 0), (.psetAndn false 1 2 3, 0, 0)] : List (Instr × Nat × Nat)),
      Issuing base e.1 one ∧ Settled base e.1 one e.2.1 e.2.2 ∧ Alone base e.1 T :=
  all_met _ (by decide +kernel)

/-- GETS of a 32-bit register, of a 64-bit one, of one that is not there and of a 64-bit one into an odd register. -/
theorem wit_MovesAndSpecialRegisters :
    (∀ e ∈ ([(.mov false 2 4 .w64, 2, 2), (.movi false 3 0x10000, 3, 1), (.movh false 3 0, 3, 1), (.lea false 2 4 7 7, 2, 2),
        (.leaImm false 2 4 0x200, 2, 2), (.gets false 3 0, 3, 1), (.gets false 2 0x0F, 2, 2), (.gets false 3 0x0F, 0, 0),
        (.gets false 3 24, 0, 0), (.sets false 3 0x10, 0, 0), (.sets false 3 0x11, 0, 0)] : List (Instr × Nat × Nat)),
      Issuing (handled base) e.1 one ∧ Settled (handled base) e.1 one e.2.1 e.2.2 ∧ Alone (handled base) e.1 T) ∧
    (handled base).handles T ∧ (handled base).special T 0 = some (1, 0) ∧
    (handled base).special T 0x0F = some (2, 0) ∧ (handled base).special T 24 = none :=
  ⟨all_met _ (by decide +kernel), by unfold State.handles; decide +kernel, by decide +kernel⟩

theorem wit_LaneOperations :
    ∀ e ∈ ([(.shflIdx false 3 4 5, 3, 1), (.shflUp false 3 4 5, 3, 1), (.shflDown false 3 4 5, 3, 1),
        (.shflXor false 3 4 5, 3, 1), (.voteAny false 0 7, 0, 0), (.voteAll false 7 0, 0, 0), (.voteBallot false 2 1, 2, 2),
        (.matchLanes false 2 4 .w64, 2, 2), (.elect false 1, 0, 0), (.lmask false 2, 2, 2), (.scanAdd false 3 3, 3, 1),
        (.scanAddEx false 3 4, 3, 1), (.scanMin false 3 4, 3, 1), (.scanMax false 3 4, 3, 1)] : List (Instr × Nat × Nat)),
      Issuing base e.1 one ∧ Settled base e.1 one e.2.1 e.2.2 ∧ Alone base e.1 T :=
  all_met _ (by decide +kernel)

theorem wit_FloatArithmetic :
    ∀ e ∈ ([(.fadd false 3 4 5 true .rne, 3, 1), (.fsub false 3 4 5 false .rtz, 3, 1), (.fmul false 3 4 5 false .rup, 3, 1),
        (.ffma false 3 4 5 false .rdn, 3, 1), (.fdiv false 3 4 5 true .rne, 3, 1), (.dadd false 2 4 6 .rne, 2, 2),
        (.dmul false 2 4 6 .rdn, 2, 2), (.dfma false 2 4 6 .rtz, 2, 2), (.hpadd false 3 4 5 false .rne, 3, 1),
        (.hpmul false 3 4 5 true .rup, 3, 1), (.hpfma false 3 4 5 false .rne, 3, 1)] : List (Instr × Nat × Nat)),
      Issuing base e.1 one ∧ Settled base e.1 one e.2.1 e.2.2 ∧ Alone base e.1 T :=
  all_met _ (by decide +kernel)

/-- A tie of FP16's rounding to infinity and a value below it, a subnormal result, and the bound of UF. -/
theorem wit_FloatArithmetic_rounding :
    fp16 ∈ [fp16, bf16, fp32, fp64] ∧ (65520 : ℚ) ≠ 0 ∧ (2 : ℚ) ^ (16 : ℤ) - 2 ^ ((16 : ℤ) - 2 - 10) = 65520 ∧
    (2 : ℚ) ^ (2 - 16 : ℤ) = 1 / 16384 ∧
    (∀ e ∈ ([(65520, .rne, 0x7C00), (65519, .rne, 0x7BFF), (65505, .rup, 0x7C00), (65505, .rtz, 0x7BFF), (-65505, .rdn, 0xFC00)] :
        List (ℚ × Rm × Nat)), ((⟨fp16, e.2.1, false, false⟩ : Ctx).round false e.1).1 = e.2.2) ∧
    (⟨fp16, .rne, true, false⟩ : Ctx).round false (1 / 32768) = (0, { uf := true, nx := true }) := by
  refine ⟨by decide +kernel, by norm_num, by norm_num [zpow_neg], by norm_num [zpow_neg], by decide +kernel, by decide +kernel⟩

theorem wit_FloatCompareAndSelect :
    ∀ e ∈ ([(.fmin false 3 4 5, 3, 1), (.fmax false 3 4 5, 3, 1), (.fset false .un 0 4 5 true, 0, 0),
        (.dset false .ge 7 4 6, 0, 0), (.fsel false 3 4 5 7, 3, 1)] : List (Instr × Nat × Nat)),
      Issuing base e.1 one ∧ Settled base e.1 one e.2.1 e.2.2 ∧ Alone base e.1 T :=
  all_met _ (by decide +kernel)

theorem wit_FloatFunctions :
    ∀ e ∈ ([(.frcp false 3 4, 3, 1), (.fsqrt false 3 4, 3, 1), (.frsq false 3 4, 3, 1), (.fexp2 false 3 4, 3, 1),
        (.flog2 false 3 4, 3, 1), (.fsinp false 3 4, 3, 1), (.fcosp false 3 4, 3, 1)] : List (Instr × Nat × Nat)),
      Issuing base e.1 one ∧ Settled base e.1 one e.2.1 e.2.2 ∧ Alone base e.1 T :=
  all_met _ (by decide +kernel)

/-- The values that the table of the functions names: a square, a power of four, one half, a NaN and an infinity. -/
theorem wit_FloatFunctions_values :
    (readNum fp32 0x40100000).rat = 3 / 2 * (3 / 2) ∧ (readNum fp32 0x3E800000).rat = 4 ^ (-1 : ℤ) ∧
    (readNum fp32 0x3F000000).rat = ((0 : ℤ) : ℚ) + 1 / 2 ∧ (readNum fp32 0x7F800001).isNan = true ∧
    readNum fp32 0xFF800000 = .inf true := by
  refine ⟨?_, ?_, ?_, by decide +kernel⟩ <;>
    norm_num [readNum, fp32, Machine.Num.rat, FmtSpec.signBit, FmtSpec.bias, zpow_neg]

/-- Slots of format INT4 with a zero point and INT8 without one (Table 6.9). -/
theorem wit_ConversionsAndQuantisation :
    (∀ e ∈ ([(.frnd false 3 4 .rne, 3, 1), (.f2i false 3 4 .f32 .i32 .rtz, 3, 1), (.f2i false 2 4 .f64 .n64 .rup, 2, 2),
        (.i2f false 3 4 .bf16 .n8 .rne, 3, 1), (.i2f false 2 4 .f64 .i64 .rne, 2, 2), (.f2f false 3 4 .f64 .f16 true .rdn, 3, 1),
        (.f2f false 2 4 .f32 .f64 false .rne, 2, 2), (.qgrp false 3 4 5 0, 3, 1), (.qpack false 3 8 5 0, 3, 1),
        (.qunpk false 8 3 5 0, 8, 8), (.qgrp false 3 4 5 7, 3, 1), (.qpack false 3 8 5 7, 3, 1), (.qunpk false 8 3 5 7, 8, 4)] :
        List (Instr × Nat × Nat)),
      Issuing (slots base) e.1 one ∧ Settled (slots base) e.1 one e.2.1 e.2.2 ∧ Alone (slots base) e.1 T) ∧
    (readSlot ((slots base).slot T 0)).fmt = 4 ∧ (readSlot ((slots base).slot T 7)).fmt = 5 :=
  ⟨all_met _ (by decide +kernel), by decide +kernel⟩

theorem wit_BranchesJumpsAndExit :
    (∀ e ∈ ([(.bra false 0 false 0x80000, 0, 0), (.bra false 0 true 1, 0, 0), (.brcAny false 7 true 0xFFFFF, 0, 0),
        (.brcAll false 1 false 2, 0, 0), (.call false 0 false 4, 30, 2), (.ret false 30, 0, 0), (.jmpv false 126, 0, 0),
        (.wbase false 0, 0, 0), (.wbase false 960, 0, 0), (.nop true, 0, 0), (.yield false, 0, 0)] : List (Instr × Nat × Nat)),
      Issuing base e.1 one ∧ Settled base e.1 one e.2.1 e.2.2 ∧ Alone base e.1 T) ∧
    ((base.thread T).pair 30).toNat < 2 ^ 57 ∧ ((base.thread T).pair 30).toNat % 4 = 0 ∧
    960 % 32 = 0 ∧ 960 + 64 ≤ (base.group T).budget ∧ base.readyPending (base.coreOf T) (base.group T).quad = false :=
  ⟨all_met _ (by decide +kernel), by decide +kernel⟩

/-- A target at 2^57, one that is no multiple of 4, and window bases that are none. -/
theorem wit_BranchesJumpsAndExit_traps :
    let s := regs [0, 0x2000000, 2, 0] (handled base)
    (∀ e ∈ ([(.ret false 0, 0, 0), (.jmpv false 2, 0, 0), (.wbase false 992, 0, 0), (.wbase false 16, 0, 0)] :
        List (Instr × Nat × Nat)), Issuing s e.1 one ∧ Settled s e.1 one e.2.1 e.2.2 ∧ Alone s e.1 T) ∧
    s.handles T ∧ ((s.thread T).pair 0).toNat = 2 ^ 57 ∧ ((s.thread T).pair 2).toNat % 4 = 2 ∧
    ¬(992 + 64 ≤ (s.group T).budget) :=
  ⟨all_met _ (by decide +kernel), by unfold State.handles; decide +kernel, by decide +kernel⟩

/-- Nine groups of one quadrant: eight are active, the thread's among them, and the ninth is ready and pending. -/
theorem wit_BranchesJumpsAndExit_yields :
    let s : State := { tm (fun t => { t with groups := t.groups ++ (List.range 8).map fun k =>
      (4 * (k + 1), { quad := 0, place := k + 1, active := decide (k < 7), threads := [(0, {})] }) }) base with tick := 1 }
    let quad := s.quadGroups 0 0
    Alone s (.yield false) T ∧ s.Orderly ∧ (0, 0) ∈ quad ∧ (s.group T).active = true ∧ (s.activeGroups 0 0).length = 8 ∧
    s.readyPending 0 0 = true ∧ s.coreOf T = 0 ∧ (s.group T).quad = 0 ∧
    ∀ e ∈ quad, (s.groupAt e).active = false → (s.groupAt e).since < s.tick ∧ (s.groupAt e).place < 16 := by
  intro s quad
  exact ⟨alone_of (by decide +kernel), by unfold State.Orderly; decide +kernel, by decide +kernel⟩

/-- Barrier 0 is without the thread's role, barrier 1 expects two, at barrier 2 the thread has arrived of two, and at
barrier 3 it is the last expected. -/
theorem wit_BranchesJumpsAndExit_exit :
    let s := tm (fun t => { t with barriers := [(0, { mask := 0, exp := 1 }), (1, { exp := 2 }), (2, { exp := 2, arr := 1 }),
      (3, { exp := 1 })] }) (thr (fun t => { t with arrived := 4 }) base)
    Alone s (.exitT false) T ∧ isResponder T = false ∧ (s.barrier 0 0).mask.getLsbD (s.group T).role = false ∧
    (s.barrier 0 1).mask.getLsbD (s.group T).role = true ∧ (s.thread T).arrived.getLsbD 1 = false ∧
    (s.barrier 0 1).arr + 1 < (s.barrier 0 1).exp ∧ (s.thread T).arrived.getLsbD 2 = true ∧
    (s.barrier 0 2).arr < (s.barrier 0 2).exp ∧ (s.thread T).arrived.getLsbD 3 = false ∧
    (s.barrier 0 3).exp ≤ (s.barrier 0 3).arr + 1 := by
  intro s
  exact ⟨(met_sound (k := 0) (n := 0) (by decide +kernel)).2.2, by decide +kernel⟩

/-- In the handler with frame.PC at the trap and beyond it. -/
theorem wit_TrapsAndReturns :
    (∀ e ∈ ([(.trap false 0x3FF, 0, 0), (.bkpt false, 0, 0), (.tretRe false, 0, 0), (.tretSkip false, 0, 0)] :
        List (Instr × Nat × Nat)),
      Issuing (handled base) e.1 one ∧ Settled (handled base) e.1 one e.2.1 e.2.2 ∧ Alone (handled base) e.1 T) ∧
    (handled base).handles T ∧
    ∀ back ∈ ([0x40, 0x44] : List DWord),
      Issuing (trapped back base) (.tretRe false) one ∧ Issuing (trapped back base) (.tretSkip false) one ∧
        ((trapped back base).thread T).inHandler = true ∧ ((trapped back base).thread T).imprecise = false ∧
        ∀ i ∈ ([.tretRe false, .tretSkip false] : List Instr),
          Settled (trapped back base) i one 28 4 ∧ ∀ k, SettledPred (trapped back base) i one k := by
  refine ⟨all_met _ (by decide +kernel), by unfold State.handles; decide +kernel, ?_⟩
  intro back h
  have all {s : State} (hm : (met s (.tretRe false) 28 4 && met s (.tretSkip false) 28 4) = true)
      (hq : ((s.thread T).outs.isEmpty && (s.thread T).unspecPreds.isEmpty) = true) :
      ∀ i ∈ ([.tretRe false, .tretSkip false] : List Instr), Settled s i one 28 4 ∧ ∀ k, SettledPred s i one k := by
    rw [Bool.and_eq_true] at hm
    intro i hi
    simp only [List.mem_cons, List.not_mem_nil, or_false] at hi
    obtain rfl | rfl := hi
    exacts [⟨(met_sound hm.1).2.1, preds_settled hq⟩, ⟨(met_sound hm.2).2.1, preds_settled hq⟩]
  simp only [List.mem_cons, List.not_mem_nil, or_false] at h
  rcases h with rfl | rfl <;>
    exact ⟨(met_sound (k := 0) (n := 0) (by decide +kernel)).1, (met_sound (k := 0) (n := 0) (by decide +kernel)).1,
      by decide +kernel, by decide +kernel, all (by decide +kernel) (by decide +kernel)⟩

/-- In the handler after an imprecise trap. -/
theorem wit_TrapsAndReturns_imprecise :
    let s := thr (fun t => { t with imprecise := true }) (trapped 0x40 base)
    Alone s (.tretRe false) T ∧ Alone s (.tretSkip true) T ∧ isResponder T = false ∧ (s.thread T).inHandler = true ∧
    (s.thread T).imprecise = true := by
  intro s
  exact ⟨alone_of (by decide +kernel), alone_of (by decide +kernel), by decide +kernel⟩

/-- With a handler, in it, without one, and on a core whose host has attached. -/
theorem wit_TakingATrap :
    (handled base).holds T = true ∧ isResponder T = false ∧ ((handled base).gridOf 0).handler ≠ 0 ∧
    ((handled base).thread T).inHandler = false ∧ ((inside base).thread T).inHandler = true ∧ (base.gridOf 0).handler = 0 ∧
    ((base.setCore 0 { base.core 0 with ctl := { attach := true } }).core 0).ctl.attach = true ∧
    (base.core (base.coreOf T)).ctl.attach = false := by decide +kernel

/-- The thread alone is in issue and the checks before `i` trap it. -/
def barred (s : State) (i : Instr) (code : Word) (addr aux : DWord) : Bool :=
  s.ply == some one && s.holds T && decide (s.gate i one.word T = .trap code addr aux) && (s.thread T).joined == 0

theorem barred_of {s : State} {i : Instr} {code : Word} {addr aux : DWord} (h : barred s i code addr aux = true)
    (hs : s.handles T) : Barred s i one code (fun _ => addr) (fun _ => aux) := by
  simp only [barred, Bool.and_eq_true, beq_iff_eq, decide_eq_true_eq] at h
  obtain ⟨⟨⟨hp, hh⟩, hg⟩, hj⟩ := h
  exact ⟨hp, by decide, by simpa [one] using hh, by simpa [one] using hg, by simpa [one] using hj, by simpa [one] using hs⟩

/-- A misaligned pair, a scope without meaning, a register beyond the budget, a tile beyond the team's, and a poisoned
source. -/
theorem wit_ChecksBeforeAnInstruction :
    let small := grp (fun g => { g with budget := 32 }) (tm (fun t => { t with tileCount := 2 }) (handled base))
    let bad := thr (fun t => { t with poison := [4], paddr := 0x40 }) (handled base)
    Barred (handled base) (.iadd false 3 2 4 .w64) one 0x002 (fun _ => 0) (fun _ => 0) ∧
    Barred (handled base) (.ldaq false 2 22 .b32 5) one 0x002 (fun _ => 0) (fun _ => 0) ∧
    Barred small (.mov false 32 0 .w32) one 0x003 (fun _ => 0) (fun _ => 32) ∧
    Barred small (.tgetf false 0 2 0) one 0x003 (fun _ => 0) (fun _ => 2) ∧
    Barred bad (.mov false 0 4 .w32) one 0x008 (fun _ => 0x40) (fun _ => 4) := by
  intro small bad
  and_intros <;> exact barred_of (by decide +kernel) (by unfold State.handles; decide +kernel)

/-- The thread of a responder, alone in issue, with a BAR.SYNC that it may not run; a thread that may go on, whatever it
issues, and the fields of BAR.SYNC's word. -/
theorem wit_ChecksBeforeAnInstruction_responder :
    let v : ThreadRef := ⟨0, 16, 0⟩
    let r : State := { base with
      ply := some { one with members := [v], word := 0x56000000 }
      teams := [(0, { base.team 0 with
        groups := [(16, { role := 4, budget := 128, quad := 2, threads := [(0, {})] })], responders := [(16, ⟨7, 0, false, none, none⟩)] })] }
    decode 0x56000000 = .ok (.barSync false 0) ∧ Instr.encode (.barSync false 0) = some 0x56000000 ∧
    (r.team 0).plies = [] ∧ (base.team 0).plies = [] ∧ r.holds v = true ∧ isResponder v = true ∧
    r.gate (.barSync false 0) 0x56000000 v = .trap 0x002 0 0x56 ∧
    (base.thread T).status = .ready ∧ (base.thread T).outs = [] ∧ (base.thread T).faults = [] ∧ (base.group T).faults = [] ∧
    (base.thread T).waitOp = none ∧ (base.team 0).stopping = none := by decide +kernel

/-- A ply of two threads. -/
theorem wit_ThreadsTakeTurns :
    let s := grp (fun g => { g with threads := g.threads ++ [(1, {})] })
      { base with ply := some { one with members := [T, ⟨0, 0, 1⟩] } }
    Instr.inTurn (.iadd false 2 4 6 .w64) = true ∧ s.ply = some { one with members := [T, ⟨0, 0, 1⟩] } ∧
    s.joinedWaits (.iadd false 2 4 6 .w64) { one with members := [T, ⟨0, 0, 1⟩] } = false := by decide +kernel

theorem wit_Scratchpad :
    (∀ e ∈ ([(.lds false 4 0 0 .i8, 0, 0), (.lds false 8 0 0 .b128, 0, 0), (.sts false 4 0 0x7F .b8, 0, 0),
        (.sts false 8 0 1 .b128, 0, 0), (.atomsAdd false 3 0 1, 0, 0), (.atomsMinI32 false 3 0 1, 0, 0),
        (.atomsMaxI32 false 3 0 1, 0, 0), (.atomsMinN32 false 3 0 1, 0, 0), (.atomsMaxN32 false 3 0 1, 0, 0),
        (.atomsAnd false 3 0 1, 0, 0), (.atomsOr false 3 0 1, 0, 0), (.atomsExch false 3 0 1, 0, 0)] : List (Instr × Nat × Nat)),
      Issuing (regs [0xFFFE0] base) e.1 one ∧ Settled (regs [0xFFFE0] base) e.1 one e.2.1 e.2.2 ∧ Alone (regs [0xFFFE0] base) e.1 T) ∧
    let s := regs [0xFFFE0] base
    0xFFFE0 + 1 * 16 + 16 ≤ (s.team 0).scratchSize ∧ (s.thread T).outs.length < 32 ∧
    s.scratchBusy 0 0xFFFE0 16 false = false ∧ s.scratchBusy 0 0xFFFF0 16 true = false :=
  ⟨all_met _ (by decide +kernel), by decide +kernel⟩

/-- One byte beyond the scratchpad, and an ATOMS that is not aligned. -/
theorem wit_Scratchpad_bounds :
    (∀ e ∈ ([(.lds false 4 0 0 .b32, 0, 0), (.sts false 4 0 0 .b32, 0, 0), (.atomsAdd false 3 0 1, 0, 0), (.atomsOr false 3 1 1, 0, 0)] :
        List (Instr × Nat × Nat)),
      Issuing (regs [0xFFFFD, 0x100000] (handled base)) e.1 one ∧ Settled (regs [0xFFFFD, 0x100000] (handled base)) e.1 one e.2.1 e.2.2 ∧
        Alone (regs [0xFFFFD, 0x100000] (handled base)) e.1 T) ∧
    (regs [0xFFFFD, 0x100000] (handled base)).handles T ∧ (base.team 0).scratchSize = 0xFFFFC + 4 :=
  ⟨all_met _ (by decide +kernel), by unfold State.handles; decide +kernel, by decide +kernel⟩

theorem wit_Loads :
    let s := regs [0x1FFFF0, 0] (mapped base)
    (∀ e ∈ ([(.ld false 4 0 0 .b128, 0, 0), (.ld false 4 0 0x7F .i8, 0, 0), (.ldr false 4 0 .b64 3, 0, 0), (.ldaq false 4 0 .b64 4, 0, 0)] :
        List (Instr × Nat × Nat)), Issuing s e.1 one ∧ Settled s e.1 one e.2.1 e.2.2 ∧ Alone s e.1 T) ∧
    (s.thread T).outs.length < 32 ∧ s.heldAtIssue T .p false = false ∧
    Reached s T { read := true } 0x1FFFF0 16 1 [(0x1FFFF0, 16, leaf)] ∧ Reached s T { read := true } 0x1FFFEF 1 1 [(0x1FFFEF, 1, leaf)] ∧
    Reached s T { read := true } 0x1FFFF0 8 8 [(0x1FFFF0, 8, leaf)] := by
  refine ⟨all_met _ (by decide +kernel), ?_⟩
  and_intros <;> first | decide +kernel | exact reached_of (by decide +kernel)

/-- The words of a load stand in the L1, and no fill is in flight. -/
theorem wit_Loads_present :
    let c : CacheLine := ⟨0, 0x7FFF, .dev 0x1FFFC0, 0xF000, List.replicate 64 0x5A, []⟩
    let s : State := let b := regs [0x1FFFF0, 0] (mapped base); b.setCore 0 { b.core 0 with l1 := [c] }
    Alone s (.ld false 4 0 0 .b128) T ∧ s.heldAtIssue T .p false = false ∧ s.reqs = [] ∧
    Reached s T { read := true } 0x1FFFF0 16 1 [(0x1FFFF0, 16, leaf)] ∧ (s.core 0).lineAt 0 0x7FFF = some c ∧
    ((List.range 16).all fun k => c.valid.getLsbD ((0x1FFFF0 + k) % 64 / 4)) = true ∧ c.single (0x1FFFF0 % 64) 16 = true ∧
    ({ c with origin := [(0x3F, 128)] } : CacheLine).single (0x1FFFF0 % 64) 16 = false := by
  intro c s
  exact ⟨alone_of (by decide +kernel), by decide +kernel, by decide +kernel, reached_of (by decide +kernel), by decide +kernel⟩

/-- A non-resident OPT page. -/
theorem wit_Loads_away :
    let away : Leaf := { leaf with opt := true, res := false }
    let s := paged away base
    Alone s (.ldr false 4 0 .b64 3) T ∧ Reached s T { read := true } 0 8 1 [(0, 8, away)] ∧ away.opt = true ∧ away.res = false :=
  ⟨(met_sound (k := 0) (n := 0) (by decide +kernel)).2.2, reached_of (by decide +kernel), rfl, rfl⟩

theorem wit_Stores :
    let s := regs [0x1FFFF0, 0] (mapped base)
    (∀ e ∈ ([(.st false 4 0 0 .b128, 0, 0), (.st false 4 0 0x7F .b8, 0, 0), (.strl false .b64 0 4 2, 0, 0)] : List (Instr × Nat × Nat)),
      Issuing s e.1 one ∧ Settled s e.1 one e.2.1 e.2.2 ∧ Alone s e.1 T) ∧
    s.heldAtIssue T .p true = false ∧ Reached s T { write := true } 0x1FFFF0 16 1 [(0x1FFFF0, 16, leaf)] ∧
    Reached s T { write := true } 0x1FFFEF 1 1 [(0x1FFFEF, 1, leaf)] ∧
    Reached s T { write := true } 0x1FFFF0 8 8 [(0x1FFFF0, 8, leaf)] :=
  ⟨all_met _ (by decide +kernel), by decide +kernel, reached_of (by decide +kernel), reached_of (by decide +kernel),
    reached_of (by decide +kernel)⟩

theorem wit_Atomics :
    let s := regs [0x1FFFF8, 0] (mapped base)
    (∀ e ∈ ([(.atomAdd false .ar 4 .i64 0 6 3, 0, 0), (.atomMin false .rlx 4 .n32 0 6 0, 0, 0), (.atomMax false .acq 4 .i32 0 6 4, 0, 0),
        (.atomAddF32 false .rel 4 0 6 2, 0, 0), (.atomAnd false .rlx 4 .w64 0 6 1, 0, 0), (.atomOr false .rlx 4 .w32 0 6 1, 0, 0),
        (.atomXor false .rlx 4 .w32 0 6 1, 0, 0), (.atomExch false .rlx 4 .w32 0 6 1, 0, 0), (.cas false .ar 4 .w64 0 8 3, 0, 0),
        (.redAdd false true .w64 0 6 3, 0, 0), (.redAddF32 false false 0 6 3, 0, 0), (.redMinI32 false false 0 6 3, 0, 0),
        (.redMinN32 false false 0 6 3, 0, 0), (.redMaxI32 false false 0 6 3, 0, 0), (.redMaxN32 false false 0 6 3, 0, 0),
        (.redAnd false false 0 6 3, 0, 0), (.redOr false true 0 6 0, 0, 0), (.redXor false false 0 6 3, 0, 0)] : List (Instr × Nat × Nat)),
      Issuing s e.1 one ∧ Settled s e.1 one e.2.1 e.2.2 ∧ Alone s e.1 T) ∧
    s.heldAtIssue T .p false = false ∧ s.heldAtIssue T .p true = false ∧
    Reached s T { read := true, write := true, noSuc := true } 0x1FFFF8 8 8 [(0x1FFFF8, 8, leaf)] ∧
    Reached s T { read := true, write := true, noSuc := true } 0x1FFFF8 4 4 [(0x1FFFF8, 4, leaf)] ∧
    Reached s T { write := true, noSuc := true } 0x1FFFF8 8 8 [(0x1FFFF8, 8, leaf)] ∧
    Reached s T { write := true, noSuc := true } 0x1FFFF8 4 4 [(0x1FFFF8, 4, leaf)] := by
  refine ⟨all_met _ (by decide +kernel), ?_⟩
  and_intros <;> first | decide +kernel | exact reached_of (by decide +kernel)

theorem wit_FencesAndCacheControl :
    (∀ e ∈ ([(.fenceRel false 1 0, 0, 0), (.fenceAcq false 15 4, 0, 0), (.fenceAr false 8 2, 0, 0), (.sliceof false 2 0, 2, 2),
        (.preq false 0 0x7F, 0, 0), (.prefL1 false 0 0, 0, 0), (.prefL2 false 0 0, 0, 0), (.prefMsc false 0 0, 0, 0),
        (.linvLine false 0 0, 0, 0), (.linvCore false, 0, 0), (.linvCluster false, 0, 0)] : List (Instr × Nat × Nat)),
      Issuing (regs [0x40] (mapped base)) e.1 one ∧ Settled (regs [0x40] (mapped base)) e.1 one e.2.1 e.2.2 ∧
        Alone (regs [0x40] (mapped base)) e.1 T) ∧
    let s := regs [0x40] (mapped base)
    (s.core 0).l1 = [] ∧ s.reqs = [] ∧
    (s.tenant 0).en = true ∧ tlbLookup (s.cluster (coreCluster 0)).tlb 0 0x40 = some leaf ∧ s.hwOwned (leaf.locate 0x40) = false ∧
    tlbLookup (s.cluster (coreCluster 0)).tlb 0 0 = some leaf ∧ s.hwOwned (leaf.locate 0) = false :=
  ⟨all_met _ (by decide +kernel), by decide +kernel⟩

/-- PREF.L1 of a line that the L1 holds in part, and in full. -/
theorem wit_FencesAndCacheControl_lines :
    let c (v : BitVec 16) : CacheLine := ⟨0, 1, .dev 0x40, v, List.replicate 64 0, []⟩
    let s (v : BitVec 16) : State := let b := regs [0x40] (mapped base); b.setCore 0 { b.core 0 with l1 := [c v] }
    ∀ v : BitVec 16, v ∈ [0x8000, BitVec.allOnes 16] → Alone (s v) (.prefL1 false 0 0) T ∧ ((s v).core 0).lineAt 0 1 = some (c v) ∧
      tlbLookup ((s v).cluster (coreCluster 0)).tlb 0 0x40 = some leaf := by
  intro c s v h
  simp only [List.mem_cons, List.not_mem_nil, or_false] at h
  rcases h with rfl | rfl <;> exact ⟨alone_of (by decide +kernel), by decide +kernel⟩

/-- PREQ of an OPT page that is away, and SLICEOF beyond the address space. -/
theorem wit_FencesAndCacheControl_away :
    let away : Leaf := { leaf with opt := true, res := false }
    let s := regs [0x40, 0, 0, 0x2000000] (paged away base)
    Alone s (.preq false 0 0) T ∧ tlbLookup (s.cluster 0).tlb 0 0x40 = some away ∧ Alone s (.sliceof false 4 2) T ∧
    ((s.thread T).pair 2).toNat = 2 ^ 57 :=
  ⟨(met_sound (k := 0) (n := 0) (by decide +kernel)).2.2, by decide +kernel,
    (met_sound (k := 0) (n := 0) (by decide +kernel)).2.2, by decide +kernel⟩

/-- Each kind of request, about to be performed at its home: the last word of the device memory's first page. -/
theorem wit_HomeSliceAccess :
    let x : ReqPart := { va := 0xFFC, loc := .dev 0xFFC, len := 4, data := [1, 2, 3, 4] }
    (∀ k ∈ ([.store, .rmw .add 4 1 true, .rmw .xor 4 1 false, .cas 4 0 5, .cas 4 1 5, .load 4 false] : List ReqKind),
      (sent k x).MemOk ∧ (sent k x).findReq 7 = some (req k x) ∧ (req k x).parts[0]? = some x ∧
      (sent k x).mayPerform (req k x) 0 false = true ∧ (sent k x).dropsWrites x.loc = false) ∧
    LdQ.size .b32 = 4 ∧ x.fill = false ∧ x.va = (req .store x).va.toNat ∧
    valueOf (fun j => (sent (.cas 4 0 5) x).byteAt (x.loc.plus j)) 4 = 0 := by
  intro x
  refine ⟨?_, by decide +kernel⟩
  intro k hk
  simp only [List.mem_cons, List.not_mem_nil, or_false] at hk
  rcases hk with rfl | rfl | rfl | rfl | rfl | rfl <;> (unfold State.MemOk; decide +kernel)

/-- A store into block 1 of a string: valid, stale, and under repair. -/
theorem wit_HomeSliceAccess_marks :
    let x : ReqPart := { va := 64, loc := .dev 64, len := 4, data := [1, 2, 3, 4] }
    let s := { sent .store x with strings := [str] }
    let old := { sent .store x with strings := [{ str with stale := [1] }] }
    let busy := { s with splicers := [(0, { repairing := some (0, 1, 0) })] }
    s.MemOk ∧ s.findReq 7 = some (req .store x) ∧ s.mayPerform (req .store x) 0 true = true ∧ s.dropsWrites x.loc = false ∧
    s.stringsAt x.loc = [(str, 1)] ∧ str.isStale 1 = false ∧ (s.splicer 0).repairs str.key 1 = false ∧
    old.mayPerform (req .store x) 0 true = true ∧ old.stringsAt x.loc = [({ str with stale := [1] }, 1)] ∧
    busy.mayPerform (req .store x) 0 true = true ∧ (busy.splicer 0).repairs str.key 1 = true := by
  intro x s old busy; unfold State.MemOk; and_intros <;> decide +kernel

/-- A performed store, a filled load whose line is kept and one whose line is not, and results of each kind. -/
theorem wit_ResultsAndFills :
    let x : ReqPart := { va := 0x40, loc := .dev 0x40, len := 64, done := true, fill := true, keep := true, got := List.replicate 64 0 }
    let r := { req (.load 4 false) x with va := 0x7C }
    let s : State := { sent .store { va := 0x40, loc := .dev 0x40, len := 4, done := true } with
      reqs := [{ req .store { va := 0x40, loc := .dev 0x40, len := 4, done := true } with id := 8 }, r] }
    (s.findReq 8).any Req.acknowledgeable = true ∧ s.findReq 7 = some r ∧ LdQ.size .b32 = 4 ∧ r.parts = [x] ∧
    x.va ≤ r.va.toNat ∧ r.va.toNat + 4 ≤ x.va + 64 ∧ x.got.length = 64 ∧ (s.core 0).acquires = r.installs ∧
    (s.core 0).l1 = [] ∧ every s (fun t => t.holds == []) = true ∧ s.holds T = true ∧
    (let c : CacheLine := ⟨0, 1, .dev 0x40, 0xF, List.replicate 64 1, []⟩
     let p := s.setCore 0 { s.core 0 with l1 := [c] }
     p.findReq 7 = some r ∧ (p.core 0).lineAt r.tag (x.va / 64) = some c ∧ c.valid ≠ BitVec.allOnes 16) := by
  decide +kernel

theorem wit_ResultsAndFills_results :
    let out (x : Result) : State :=
      thr (fun t => { t with status := .parked, outs := [⟨7, [4, 5], some 1, some x, 0⟩] }) base
    ∀ x ∈ ([{ vals := [1, 2], pred := true }, { vals := [1, 2], poison := some 0x40 }, { fault := some ⟨4, 6, 0x40, 0⟩ }] :
        List Result),
      (out x).holds T = true ∧ ((out x).thread T).outs.find? (fun o => o.op == 7) = some ⟨7, [4, 5], some 1, some x, 0⟩ ∧
      ([4, 5] : List Nat).Nodup ∧ ((out x).thread T).unspec = [] ∧ ((out x).thread T).unspecPreds = [] ∧
      ((out x).thread T).status = .parked := by decide +kernel

/-- A lost write of a live group, held faults before a BAR.SYNC (imprecise and marker-precise), and the age cap. -/
theorem wit_LostWritesAndHeldFaults :
    let r : Req := { req .store { va := 0x40, loc := .dev 0x40, len := 4 } with lost := some (6, 2) }
    let s : State := { base with reqs := [r] }
    let f : Report := ⟨4, 6, 0x40, 0⟩
    let held := grp (fun g => { g with faults := [f] }) (handled base)
    let marked := thr (fun t => { t with faults := [(3, f)] }) (handled base)
    s.findReq 7 = some r ∧ r.lost = some (6, 2) ∧ (s.group T).live = true ∧
    Instr.inTurn (.barSync true 0) = true ∧ Instr.takesImprecise (.barSync true 0) = true ∧ Instr.parks (.barSync true 0) = true ∧
    held.ply = some one ∧ one.members = [T] ∧ held.holds T = true ∧ isResponder T = false ∧ (held.gridOf 0).handler ≠ 0 ∧
    (held.thread T).inHandler = false ∧ (held.thread T).joined = 0 ∧ (held.thread T).status = .ready ∧
    (held.thread T).outs = [] ∧ (held.thread T).faults = [] ∧ (held.group T).faults.head? = some f ∧
    marked.ply = some one ∧ marked.holds T = true ∧ (marked.thread T).joined = 0 ∧ (marked.thread T).status = .ready ∧
    (marked.thread T).outs = [] ∧ (marked.thread T).replay = none ∧ (marked.thread T).faults.head? = some (3, f) := by intro r s f held marked; and_intros <;> decide +kernel

/-- A SOLICIT that waits to be sent is in its issue still, and takes no imprecise fault. -/
theorem wit_LostWritesAndHeldFaults_sends :
    Instr.sends (.barSync true 0) = false ∧ Instr.sends (.solicit false 0 0 .c4 .addI64 3) = true ∧ (base.thread T).waitOp = none := by
  decide +kernel

/-- Barrier 15 expects three with one arrived; the thread stands at it or not; a count of 1,024. -/
theorem wit_TeamBarriers :
    let at_ (n : BitVec 16) : State :=
      tm (fun t => { t with barriers := [(15, { exp := 3, arr := 1 })] }) (regs [1024 + 15 * 65536] (thr (fun t => { t with arrived := n }) base))
    Alone (at_ 0) (.barSync false 15) T ∧ Alone (at_ 0) (.barArrive false 15) T ∧ Alone (at_ 0) (.barWait false 15) T ∧
    Alone (at_ 0) (.barset false 15 0) T ∧ Alone (at_ 0x8000) (.barSync false 15) T ∧ Alone (at_ 0x8000) (.barArrive false 15) T ∧
    Alone (at_ 0x8000) (.barWait false 15) T ∧ (at_ 0).heldAtIssue T .p true = false ∧
    (at_ 0x8000).heldAtIssue T .p true = false ∧ ((at_ 0).thread T).arrived.getLsbD 15 = false ∧
    ((at_ 0x8000).thread T).arrived.getLsbD 15 = true ∧ ((at_ 0).barrier 0 15).arr + 1 < ((at_ 0).barrier 0 15).exp ∧
    (let v := (((at_ 0).thread T).reg 0).toNat
     1 ≤ v % 2048 ∧ v % 2048 = 1024 ∧ v / 2048 % 32 = 0 ∧ v / 2 ^ 20 = 0 ∧ ((at_ 0).barrier 0 15).arr < v % 2048) := by
  intro at_
  refine ⟨alone_of ?_, alone_of ?_, alone_of ?_, alone_of ?_, alone_of ?_, alone_of ?_, alone_of ?_, ?_⟩ <;> decide +kernel

/-- The last arrival, with another thread blocked at the barrier. -/
theorem wit_TeamBarriers_phase :
    let s := paired { status := .blocked, wait := .barrier 2 true false, arrived := 4 }
      (tm (fun t => { t with barriers := [(2, { exp := 2, arr := 1 })] }) base)
    s.Orderly ∧ Alone s (.barSync false 2) T ∧ Alone s (.barArrive false 2) T ∧ s.heldAtIssue T .p true = false ∧
    (s.thread T).arrived.getLsbD 2 = false ∧ (s.barrier 0 2).exp ≤ (s.barrier 0 2).arr + 1 := by
  intro s
  refine ⟨?_, alone_of ?_, alone_of ?_, ?_⟩ <;> first | decide +kernel | (unfold State.Orderly; decide +kernel)

/-- A named lane stands elsewhere, and a named lane waits at the same GSYNC. -/
theorem wit_GroupRendezvous :
    let away := regs [2] (paired { pc := 0x40 } base)
    let there := regs [2] (paired { status := .blocked, wait := .gsync 3 } base)
    away.Orderly ∧ there.Orderly ∧ Alone away (.gsync false 0) T ∧ Alone there (.gsync false 0) T ∧
    Alone away (.gsyncImm false 2) T ∧ Alone there (.gsyncImm false 0x3FFF) T ∧
    (away.thread T).pair 0 = 2 ∧ (∃ v, Tab.find (away.group T).threads 1 = some v ∧ v.status ≠ .exited ∧ v.status ≠ .blocked) ∧
    ∀ l, (∃ v, Tab.find (there.group T).threads l = some v) → l = 0 ∨
      ∃ v, Tab.find (there.group T).threads l = some v ∧ v.status = .blocked ∧ v.pc = (there.thread T).pc ∧ v.wait = .gsync 3 := by
  intro away there
  refine ⟨by unfold State.Orderly; decide +kernel, by unfold State.Orderly; decide +kernel, alone_of (by decide +kernel),
    alone_of (by decide +kernel), alone_of (by decide +kernel), alone_of (by decide +kernel), by decide +kernel,
    ⟨{ pc := 0x40 }, by decide +kernel⟩, ?_⟩
  rintro l ⟨v, hv⟩
  have hm := find_mem _ _ _ hv
  have ht : (there.group T).threads = [(0, there.thread T), (1, { status := .blocked, wait := .gsync 3 })] := by decide +kernel
  rw [ht] at hm
  simp only [List.mem_cons, Prod.mk.injEq, List.not_mem_nil, or_false] at hm
  rcases hm with ⟨rfl, -⟩ | ⟨rfl, -⟩
  · exact .inl rfl
  · exact .inr ⟨_, by rw [ht]; rfl, rfl, by decide +kernel, rfl⟩

/-- A word that the comparison holds of and one that it does not; a watched waiter, and one that polls. -/
theorem wit_Waits :
    let s := regs [0x1FFFF8] (mapped base)
    let wait (watched : Bool) : State := mapped (thr (fun t => { t with
      status := .blocked, wait := .waitv 0x1FFFF8 watched 0 .eq false .w64 0 }) { base with idle := 1024 })
    Alone s (.waitv false .eq false 0 2 .w64) T ∧ Alone s (.waitv false .lt true 0 2 .w32) T ∧ s.heldAtIssue T .p false = false ∧
    s.allDone (s.acquireWaits T 4 (some (placeAt [(0x1FFFF8, 8, leaf)] 0x1FFFF8))) = true ∧
    s.lineBusy 0 (placeAt [(0x1FFFF8, 8, leaf)] 0x1FFFF8).line = false ∧ s.asleep (placeAt [(0x1FFFF8, 8, leaf)] 0x1FFFF8) = false ∧
    Reached s T { read := true, resident := true } 0x1FFFF8 8 8 [(0x1FFFF8, 8, leaf)] ∧
    Reached s T { read := true, resident := true } 0x1FFFF8 4 4 [(0x1FFFF8, 4, leaf)] ∧
    waitHolds .eq false .w64 0 ((s.thread T).value .w64 2) = true ∧ waitHolds .lt true .w32 0 ((s.thread T).value .w32 2) = false ∧
    ∀ b : Bool, (wait b).holds T = true ∧ ((wait b).thread T).wait = .waitv 0x1FFFF8 b 0 .eq false .w64 0 ∧
      (wait b).waitPlace T 0x1FFFF8 = some (leaf.locate 0x1FFFF8) ∧ (wait b).waitWatched T = some b ∧ (wait b).waitEnds T = true ∧
      1024 ≤ (wait b).blockedFor T ∧ ((wait b).quietReads T 0x1FFFF8 ++ [leaf.locate 0x1FFFF8]).any (wait b).asleep = false := by
  intro s wait
  and_intros
  all_goals first | exact alone_of (by decide +kernel) | exact reached_of (by decide +kernel) | decide +kernel

theorem wit_Waits_watchdog :
    ∀ w ∈ ([.waitv 0x40 true 0 .eq false .w64 0, .bobwait 31 .full 4] : List Wait),
      let s := grd (fun g => { g with wdog := 1 }) (thr (fun t => { t with status := .blocked, wait := w }) (handled { base with idle := 1024 }))
      s.holds T = true ∧ s.stallDue T = true ∧ s.handles T ∧ (s.thread T).wait = w := by
  intro w h
  simp only [List.mem_cons, List.not_mem_nil, or_false] at h
  rcases h with rfl | rfl <;> (unfold State.handles; decide +kernel)

/-- A signal about to be applied: to a team that runs, a saved one, and none. -/
theorem wit_Signals :
    let x (n : Nat) : Signal := ⟨T, 0, n, 3, 1, []⟩
    let s (n : Nat) (t : Team) (l : Locator) : State :=
      { teamed { t with barriers := [(3, { exp := 2 })] } (thr (fun t => { t with status := .stalled, waitOp := some 9 }) base) with
        signals := [x n], locators := [(0, [(0, .running 0), (1, l)])] }
    Alone base (.signal false 15 0) T ∧ (base.thread T).waitOp = none ∧ base.heldAtIssue T .p true = false ∧
    (∀ e ∈ ([(1, {}, .running 1), (1, { saved := true }, .saved), (2, {}, .running 1)] : List (Nat × Team × Locator)),
      let u := s e.1 e.2.1 e.2.2
      u.signalOf T = some (x e.1) ∧ u.signalReady (x e.1) = true ∧ u.holds T = true ∧ (u.thread T).outs = [] ∧ (u.thread T).unspec = [] ∧
      (u.thread T).status = .stalled ∧ (u.thread T).wait = .none) ∧
    (s 1 {} (.running 1)).locator 0 1 = some (.running 1) ∧ (s 1 {} (.running 1)).teamAt 0 1 = some 1 ∧
    ((s 1 {} (.running 1)).barrier 1 3).arr + 1 < ((s 1 {} (.running 1)).barrier 1 3).exp ∧
    (s 1 { saved := true } .saved).locator 0 1 = some .saved ∧ (s 1 { saved := true } .saved).teamAt 0 1 = some 1 ∧
    ((s 1 { saved := true } .saved).barrier 1 3).arr + 1 < ((s 1 { saved := true } .saved).barrier 1 3).exp ∧
    (s 2 {} (.running 1)).teamAt 0 2 = none := by
  intro x s
  exact ⟨alone_of (by decide +kernel), by decide +kernel⟩

theorem wit_Bobbins :
    let s (b : Bobbin) (n : Nat) : State := bob b (regs [n] base)
    Alone (s {} (2 ^ 20)) (.bobset false 1 0) T ∧ Alone (s {} 4) (.bobset false 1 0) T ∧ ((s {} 4).bobbin 0 1).state = .empty ∧
    (∀ u, ((s {} 4).thread u).wait = .none) ∧ Alone (s {} 4) (.bobfree false 1) T ∧ Alone (s { state := .full } 4) (.bobfree false 1) T ∧
    Alone (s { state := .winding, armed := 4 } 4) (.bobfree false 1) T ∧
    Alone (s { state := .winding, armed := 4, landing := true } 4) (.bobfree false 1) T ∧
    (∀ u, ((s { state := .winding, armed := 4 } 4).thread u).wait = .none) ∧ Alone (s { state := .full } 4) (.bobq false 3 1) T ∧
    Alone (s { state := .full } 4) (.bobwait false 3 1 .full) T ∧ Alone (s { state := .full } 4) (.bobwait false 3 1 .empty) T ∧
    ((s { state := .full } 4).bobbin 0 1).state = .full := by
  intro s
  refine ⟨alone_of ?_, alone_of ?_, ?_, quiet_of ?_, alone_of ?_, alone_of ?_, alone_of ?_, alone_of ?_, quiet_of ?_, alone_of ?_,
    alone_of ?_, alone_of ?_, ?_⟩ <;> decide +kernel

/-- Copies of each shape, to the last word of the scratchpad. -/
theorem wit_CopiesStart :
    let s := regs [0x40, 0, 0, 0, 0xFFF00, 256, 1, 0, 0xFFE00, 256, 2, 256, 0, 1048576, 5, 0x1F1F] (bob {} base)
    (∀ e ∈ ([(.cpyin false 1 0 4, 0, 0), (.cpyout false 1 0 4, 0, 0), (.cpy2dIn false 1 0 8, 0, 0), (.cpy2dOut false 1 0 8, 0, 0),
        (.cpymc false 1 0 12, 0, 0)] : List (Instr × Nat × Nat)), Issuing s e.1 one ∧ Settled s e.1 one e.2.1 e.2.2 ∧ Alone s e.1 T) ∧
    0xFFF00 + 256 = (s.team 0).scratchSize ∧ 0xFFE00 + 256 * 2 = (s.team 0).scratchSize ∧ s.copyWaits T 0xFFF00 256 = false ∧
    s.copyWaits T 0xFFE00 512 = false ∧ (s.bobbin 0 1).state = .empty ∧ s.heldAtIssue T .c true = false ∧ s.copies = [] ∧
    0x1F1F / 32 % 8 = 0 ∧ 0x1F1F / 2 ^ 13 = 0 ∧ ∀ u, (s.thread u).wait = .none := by
  intro s
  refine ⟨all_met _ (by decide +kernel), ?_⟩
  and_intros
  on_goal 10 => exact quiet_of (by decide +kernel)
  all_goals decide +kernel

/-- A count of 2, an address of 2^57, misaligned places, a place beyond the scratchpad, and bobbins in other states. -/
theorem wit_CopiesStart_checks :
    let s := regs [0x40, 0, 0, 0x2000000, 0x42, 0, 0, 2, 0, 4, 2, 4, 0xFFFFC, 8] (bob { state := .unwinding } (handled base))
    let full := regs [4] (bob { state := .full } (handled base))
    (∀ e ∈ ([(.cpyin false 1 0 6, 0, 0), (.cpyin false 1 2 8, 0, 0), (.cpyout false 1 4 8, 0, 0), (.cpyin false 1 0 10, 0, 0),
        (.cpyout false 1 0 12, 0, 0), (.cpyin false 1 0 8, 0, 0), (.bobfree false 1, 0, 0)] : List (Instr × Nat × Nat)),
      Issuing s e.1 one ∧ Settled s e.1 one e.2.1 e.2.2 ∧ Alone s e.1 T) ∧ Alone full (.bobset false 1 0) T ∧ s.handles T ∧
    s.copyWaits T 0 4 = false ∧ (s.bobbin 0 1).state = .unwinding ∧ (full.bobbin 0 1).state = .full ∧
    (s.thread T).reg 7 = 2 ∧ ((s.thread T).pair 2).toNat = 2 ^ 57 ∧ ((s.thread T).pair 4).toNat % 4 = 2 ∧
    ((s.thread T).reg 10).toNat % 4 = 2 ∧ (s.team 0).scratchSize < 0xFFFFC + 8 := by
  intro s full
  exact ⟨all_met _ (by decide +kernel), alone_of (by decide +kernel), by unfold State.handles; decide +kernel, by decide +kernel⟩

/-- A word of a copy in each direction, a copy that is over, and one that met a fault. -/
theorem wit_CopiesRun :
    let s (c : Copy) (b : Bobbin) : State := { mapped (bob b base) with copies := [c] }
    let fin : Copy := { copy true with moved := [1, 0] }
    let bad : Copy := { copy true with failed := some ⟨4, 6, 0x40, 0⟩ }
    (∀ c ∈ [copy true, copy false], let u := s c { state := if c.inward then .winding else .unwinding, own := c.inward }
      u.MemOk ∧ u.findCopy 7 = some c ∧ u.findReq 7 = none ∧ u.copyRuns c = true ∧ c.isUnit 1 = true ∧ c.moved = [] ∧
      c.multicast = false ∧ (Tab.find u.teams 0).isSome = true ∧
      u.reach 0 0 { read := c.inward, write := !c.inward } (c.unit 1).1 (c.unit 1).2.1 = .ok [(0x48, 8, leaf)] ∧
      u.writeHeld (leaf.locate 0x48) = false ∧ u.dropsWrites (leaf.locate 0x48) = false ∧
      u.asleep (leaf.locate 0x48) = false ∧ u.aliasBefore c (leaf.locate 0x48) = false) ∧
    (s fin { state := .winding, own := true }).findCopy 7 = some fin ∧ fin.retirable = true ∧ fin.bob = some 1 ∧
    (s bad { state := .winding, own := true }).findCopy 7 = some bad ∧ bad.failed = some ⟨4, 6, 0x40, 0⟩ ∧ bad.move = none ∧
    ((s bad {}).group T).live = true := by
  intro s fin bad
  refine ⟨?_, by decide +kernel⟩
  intro c h
  simp only [List.mem_cons, List.not_mem_nil, or_false] at h
  rcases h with rfl | rfl <;> (unfold State.MemOk; decide +kernel)

/-- A delivery that begins to land, ones that are dropped (no team, a bobbin that is not armed, another count), ones
that wait (a saved team, a scratchpad word in use), and one that lands. -/
theorem wit_CopiesRun_deliveries :
    let b : Bobbin := { state := .winding, armed := 16 }
    let c : Copy := { copy true with multicast := true, landBob := 2, moved := [1, 0], targets := [1, 2] }
    let d : Copy := { c with targets := [2], landing := [1] }
    let s (b : Bobbin) (saved : Bool) (cs : List Copy) : State := { teamed { bobbins := [(2, b)], saved := saved } base with copies := cs }
    let use_ : Copy := { copy false with id := 6, team := 1, core := 1, sp := 16, width := 4 }
    (∀ u ∈ [s b false [c], s b true [c], s {} false [c], s { b with armed := 20 } false [c], s b false [use_, c]],
      u.findCopy 7 = some c ∧ u.teamAt 0 1 = some 1 ∧ u.teamAt 0 2 = none ∧ (Tab.find u.teams 1).isSome = true ∧
        c.sp + c.width ≤ (u.team 1).scratchSize) ∧
    c.complete = true ∧ c.failed = none ∧ 1 ∈ c.targets ∧ 2 ∈ c.targets ∧ 1 ∉ c.landing ∧
    (s b false [c]).scratchBusy 1 8 16 true = false ∧ ((s b true [c]).team 1).saved = true ∧
    ((s {} false [c]).bobbin 1 2).state ≠ .winding ∧ ((s { b with armed := 20 } false [c]).bobbin 1 2).armed ≠ c.width ∧
    (s b false [use_, c]).scratchBusy 1 8 16 true = true ∧
    (s b false [d]).findCopy 7 = some d ∧ 1 ∈ d.landing ∧ ((s b false [d]).team 1).saved = false ∧
    ((s b false [d]).bobbin 1 2).freeing = false := by decide +kernel

theorem wit_TilesAndTheQueue :
    let s := regs [0x1FF000, 0] (tm (fun t => { t with tfcfg := [1, 0, 0, 0] }) (mapped (slots base)))
    (∀ i ∈ ([.tld false 15 0 0, .tst false 15 0 0, .tldDr false 1 0 0, .tstDr false 1 0 0, .tldq false 1 0 0x7F 0, .tldq false 1 0 0 3,
        .tzero false 15 false, .tzero false 14 true] : List Instr), Enters s i T) ∧
    s.tileWaits T = false ∧ Reached s T needLoad 0x1FF000 4096 64 [(0x1FF000, 4096, leaf)] ∧
    Reached s T needStore 0x1FF000 4096 64 [(0x1FF000, 4096, leaf)] ∧ (s.team 0).cfgStages ≠ 0 ∧
    (readSlot (s.slot T 0)).fmt = 4 ∧ (readSlot (s.slot T 3)).fmt = 10 ∧ (readSlot (s.slot T 0)).recordLen = 4864 ∧
    Reached s T needLoad 0x1FE000 4864 64 [(0x1FE000, 4096, leaf), (0x1FF000, 768, leaf)] := by
  refine ⟨all_enter _ (by decide +kernel) (by decide +kernel), ?_⟩
  and_intros <;> first | decide +kernel | exact reached_of (by decide +kernel)

/-- Words of a tile that is sound and of one that is poisoned, the last word, a configuration of ten stages of radix 2
on 1,024 points, and TTWID's special values and exact points. -/
theorem wit_TilesAndTheQueue_words :
    let s := regs [1, 0, 0, 0, 0x2000001, 0, 0, 0, 1279, 1217, 0, 0, 1, 0x1000, 0, 0, 1, 0, 1, 0] (handled base)
    let bad := tm (fun t => t.setTile 3 (Tile.setWord [] 1218 1)) s
    (∀ e ∈ ([(.tgetf false 12 3 8, 12, 1), (.tsetf false 12 3 9, 0, 0), (.tfcfg false 0, 0, 0), (.tfcfg false 4, 0, 0),
        (.tfcfg false 12, 0, 0), (.tfcfg false 16, 0, 0),
        (.ttwid false 12 0 1, 12, 2)] : List (Instr × Nat × Nat)), Issuing s e.1 one ∧ Settled s e.1 one e.2.1 e.2.2 ∧ Alone s e.1 T) ∧
    Alone bad (.tgetf false 12 3 8) T ∧ bad.handles T ∧ (s.team 0).engine = [] ∧ ((s.thread T).reg 8).toNat = 1279 ∧
    (Tab.get ((s.team 0).tile 3) 1218 0 : Word).getLsbD 0 = false ∧ (Tab.get ((bad.team 0).tile 3) 1218 0 : Word).getLsbD 0 = true ∧
    2 ^ 25 ≤ ((s.thread T).reg 4).toNat ∧ 2 ^ 12 ≤ ((s.thread T).reg 13).toNat ∧ ((s.thread T).reg 18).toNat ≠ 0 ∧ 1 < 2 ^ 25 ∧ 1 / 8 ^ 0 % 8 = 1 := by
  intro s bad
  exact ⟨all_met _ (by decide +kernel), alone_of (by decide +kernel), by unfold State.handles; decide +kernel, by decide +kernel⟩

/-- The first tie of two, the last of two, one that differs, and counts set below, at and beyond the ties. -/
theorem wit_Knots :
    let op : Instr := .tmma false 15 2 0 1 1
    let s (z : Knot) : State := regs [0, 0, 0x100, 0, 1024, 0x20] (tm (fun t => { t with tfcfg := [1, 0, 0, 0], knots := [(15, z)] }) (mapped (slots (handled base))))
    (∀ z ∈ ([{ n := 2 }, { n := 2, t := 1, word := some op }, { n := 3, t := 1, word := some (.tmma false 15 4 0 1 1) }, { n := 2, t := 1 }] : List Knot),
      (∀ i ∈ ([op, .tcvt false 15 2 0 4, .tbfy false 15 2 0, .tmergeI64 false 15 1 0 2, .tmergeF64 false 15 1 0 2,
          .tmergeF64Ord false 15 1 0 2, .tmread false 15 1 0 true, .ksetImm false 15 1023, .kset false 15 4, .kset false 15 0] : List Instr),
        Enters (s z) i T) ∧ (s z).tileWaits T = false ∧ z.t < z.n) ∧
    Reached (s {}) T needMerge 0 8192 8192 [(0, 4096, leaf), (4096, 4096, leaf)] ∧ Reached (s {}) T needRegion 0 8192 8192 [(0, 4096, leaf), (4096, 4096, leaf)] ∧
    (readSlot ((s {}).slot T 1)).fmt = 0 ∧ (readSlot ((s {}).slot T 4)).fmt = 6 ∧ ((s {}).team 0).cfgStages ≠ 0 ∧
    (0x20 / 16 ≤ 16 ∧ 0x20 % 16 < 0x20 / 16) ∧ (((s {}).thread T).reg 4).toNat = 1024 ∧ (((s {}).thread T).reg 0).toNat = 0 ∧
    (s {}).handles T ∧ ((s {}).team 0).engine.length + 1 / 1 ≤ 8 ∧ ((s {}).thread T).holds = [] := by
  intro op s
  refine ⟨?_, reached_of (by decide +kernel), reached_of (by decide +kernel), by unfold State.handles; decide +kernel⟩
  intro z h
  simp only [List.mem_cons, List.not_mem_nil, or_false] at h
  rcases h with rfl | rfl | rfl | rfl <;>
    exact ⟨all_enter _ (by decide +kernel) (by decide +kernel), by decide +kernel⟩

/-- A KSET that issues more operations than the queue takes. -/
theorem wit_Knots_long :
    let op : Instr := .tmma false 15 2 0 1 1
    let s : State := regs [0, 0, 0, 0, 1] (tm (fun t => { t with knots := [(15, { n := 1024, t := 1023, word := some op })] }) (mapped (slots (handled base))))
    Enters s (.ksetImm false 15 0) T ∧ Enters s (.kset false 15 4) T ∧ ((s.thread T).reg 4).toNat = 1 ∧
    8 < (s.team 0).engine.length + 1023 / 1 ∧ (s.thread T).holds = [] := by
  intro op s
  exact ⟨enters_of (by decide +kernel) (by decide +kernel), enters_of (by decide +kernel) (by decide +kernel), by decide +kernel⟩

/-- The operations of the queue: each is ready on resident pages with zeros. -/
theorem wit_TheEngineAndMerges :
    let s (op : Instr) (slot : Word) : State :=
      tm (fun t => { t with engine := [{ id := 7, op := op, th := T, pc := 4, addr := 0, pieces := [(0, 4096, leaf), (4096, 4096, leaf)], slot := slot }] }) (mapped base)
    let ld := tm (fun t => { t with engine := [{ id := 7, op := .tld false 15 0 0, th := T, pc := 4, pieces := [(0, 4096, leaf)] }] }) (mapped base)
    (∀ e ∈ ([(.tzero false 14 true, 0), (.tmma false 15 2 0 1 7, 0x500000), (.tmma false 15 2 0 1 1, 0), (.tmma false 15 2 0 1 2, 0x100000),
        (.tmergeI64 false 0 1 0 2, 0), (.tmergeF64 false 0 1 0 2, 0), (.tmergeF64Ord false 0 1 0 2, 0)] : List (Instr × Word)),
      (s e.1 e.2).MemOk ∧ ((s e.1 e.2).nextEngine 0).map (fun x => (x.1, x.2.op, x.2.th.team)) = some (0, e.1, 0)) ∧
    (ld.nextEngine 0).map (fun x => x.1) = some 0 ∧ ld.badLine [(0, 4096, leaf)] = none ∧
    (readSlot 0x500000).fmt = 5 ∧ (readSlot 0x500000).gsz = 0 ∧ (readSlot 0).fmt = 0 ∧ (readSlot 0x100000).fmt = 1 := by
  intro s ld
  refine ⟨?_, by decide +kernel⟩
  intro e h
  simp only [List.mem_cons, List.not_mem_nil, or_false] at h
  rcases h with rfl | rfl | rfl | rfl | rfl | rfl | rfl <;> (unfold State.MemOk; decide +kernel)

theorem wit_TheEngineAndMerges_read : ((mapped base).readPieces [(0, 4096, leaf)]).length = 4096 := by decide +kernel

/-- A grouped TMMA, a TLDQ of each kind of slot, a TST, a TMREAD, a TCVT to each format, and a first stage of radix 2. -/
theorem wit_TheEngineAndMerges_tiles :
    let s (op : Instr) (slot : Word) (n : Nat) : State :=
      tm (fun t => { t with engine := [{ id := 7, op := op, th := T, pc := 4, addr := 0, pieces := [(0, n, leaf)], slot := slot, cfg := [0x400001, 1, 0, 0] }] }) (mapped base)
    (∀ e ∈ ([(.tmma false 15 2 0 1 7, 0x440800, 4096), (.tldq false 1 0 0x7F 0, 0x440800, 4864), (.tldq false 1 0 0x7F 0, 0x500000, 4096),
        (.tldq false 1 0 0x7F 0, 0xA00000, 4096), (.tst false 15 0 0, 0, 4096), (.tmread false 15 1 0 true, 0, 8192),
        (.tcvt false 15 2 0 0, 0, 0), (.tcvt false 15 2 0 0, 0x708000, 0), (.tbfy false 15 2 0, 0, 0)] : List (Instr × Word × Nat)),
      let u := s e.1 e.2.1 e.2.2
      u.MemOk ∧ (u.nextEngine 0).map (fun x => (x.1, x.2.op, x.2.th.team)) = some (0, e.1, 0) ∧ u.badLine [(0, e.2.2, leaf)] = none) ∧
    (readSlot 0x440800).fmt = 4 ∧ (readSlot 0x440800).gsz ≠ 0 ∧ (readSlot 0x440800).recordLen = 4864 ∧
    (readSlot 0x500000).recordLen = 4096 ∧ (readSlot 0xA00000).recordLen = 4096 ∧ (readSlot 0x500000).fmt = 5 ∧ (readSlot 0xA00000).fmt = 10 ∧
    (readSlot 0x708000).fmt = 7 ∧ (readSlot 0x708000).sgn = true ∧
    (∀ j, j < 4096 → leaf.locate (0 + j) = (Loc.dev 0).plus j ∧ (mapped base).dropsWrites ((Loc.dev 0).plus j) = false) ∧
    (0x400001 % 8 = 1 ∧ 0x400001 / 2 ^ 18 % 8 = 0 ∧ 0x400001 / 2 ^ 22 % 4 = 1) ∧ 512 / cfgLength 0x400001 * cfgLength 0x400001 = 512 := by
  intro s
  refine ⟨?_, ?_⟩
  rotate_left
  · and_intros <;> first
      | decide +kernel
      | exact fun j h => ⟨by simp [Leaf.locate, leaf, homePlace, Loc.plus, Nat.mod_eq_of_lt (show j < 0x200000 by omega)], rfl⟩
  intro e h
  simp only [List.mem_cons, List.not_mem_nil, or_false] at h
  rcases h with rfl | rfl | rfl | rfl | rfl | rfl | rfl | rfl | rfl <;> (unfold State.MemOk; decide +kernel)

theorem wit_TheEngineAndMerges_reads :
    ((mapped base).readPieces [(0, 4864, leaf)]).length = 4864 ∧ ((mapped base).readPieces [(0, 8192, leaf)]).length = 8192 := by decide +kernel

/-- A merge of the last word, ordered merges that open a record, begin, and differ. -/
theorem wit_TheEngineAndMerges_merges :
    let m (o : Option (Nat × Nat)) (a : Bool) : Merge :=
      { id := 7, th := T, core := 0, tenant := 0, pc := 4, va := 0, pieces := [(0, 4096, leaf), (4096, 4096, leaf)], float := true, words := [(1023, 1)]
        order := o, applying := a }
    let s (x : Merge) (r : List MergeRecord) : State := { base with merges := [x], records := r }
    let rec_ (n : Nat) : MergeRecord := { slice := 0, region := .dev 0, tenant := 0, count := 2, next := n, held := [(1, 7)] }
    (s (m none true) []).MemOk ∧ (s (m none true) []).findMerge 7 = some (m none true) ∧ Tab.find (m none true).words 1023 = some 1 ∧
    (s (m none true) []).mayApply (m none true) 1023 = true ∧ (s (m none true) []).dropsWrites (.dev 8184) = false ∧
    (s (m (some (0, 2)) false) []).findMerge 7 = some (m (some (0, 2)) false) ∧ regionPlace (m none true).pieces = .dev 0 ∧
    (s (m (some (0, 2)) false) []).findRecord (.dev 0) = none ∧
    (s (m (some (1, 2)) false) [rec_ 1]).findRecord (.dev 0) = some (rec_ 1) ∧ Tab.find (rec_ 1).held 1 = some 7 ∧ (rec_ 1).next = 1 ∧
    (s (m (some (1, 3)) false) [rec_ 1]).findRecord (.dev 0) = some (rec_ 1) ∧ (rec_ 1).count ≠ 3 ∧
    (s (m (some (0, 2)) false) [rec_ 1]).findRecord (.dev 0) = some (rec_ 1) ∧ Tab.find (rec_ 1).held 0 = none ∧ 0 < (rec_ 1).next ∧
    ((s (m none true) []).group T).live = true := by
  unfold State.MemOk; decide +kernel

/-- A string of the tenant, VALID and not, and none. -/
theorem wit_StringInstructions :
    let s (xs : List Str) : State := regs [0, 0, 5, 0, 64, 0] { mapped base with strings := xs }
    (∀ e ∈ ([(.rank0 false 8 0 2, 0, 0), (.rank1 false 8 0 2, 0, 0), (.sel0 false 8 0 2, 0, 0), (.sel1 false 8 0 2, 0, 0), (.excess false 8 0 2, 0, 0),
        (.closeBr false 8 0 2, 0, 0), (.openBr false 8 0 2, 0, 0), (.enclBr false 8 0 2, 0, 0), (.sdrop false 0, 0, 0),
        (.bins false 8 0 2, 0, 0), (.bdel false 8 0 2, 0, 0), (.sstat false 8 0, 8, 4), (.ssync false 0, 0, 0), (.sreg false 8 0, 8, 1)] :
        List (Instr × Nat × Nat)), Issuing (s [str]) e.1 one ∧ Settled (s [str]) e.1 one e.2.1 e.2.2 ∧ Alone (s [str]) e.1 T) ∧
    (s [str]).heldAtIssue T .n true = false ∧ (s [str]).heldAtIssue T .n false = false ∧ (s [str]).heldAtIssue T .p false = false ∧
    ((s [str]).thread T).waitOp = none ∧ (s [str]).stringTurn T 0 = true ∧ (s [str]).strOf 0 0 = some str ∧ (s []).strOf 0 0 = none ∧
    (s []).stringTurn T 0 = true ∧ (s [str]).blocksValid str str.blocks = true ∧ (s [{ str with stale := [1] }]).blocksValid { str with stale := [1] } 2 = false ∧
    (s [str]).MemOk ∧ (s [str]).dropsWrites (.dev 0x1010) = false ∧ (s [str]).dropsWrites (.dev 0x1019) = false ∧ (s [str]).writeHeld str.descriptor = false ∧
    (s [str]).heldAtIssue T .p true = false ∧ (s [str]).asleep str.descriptor = false ∧ (s [str]).reqs = [] ∧
    (placeAt [(0, 64, leaf)] 0 :: (s [str]).bindReads T (placeAt [(0, 64, leaf)] 0)).any (s [str]).asleep = false ∧
    Reached (s [str]) T { read := true } 0 64 64 [(0, 64, leaf)] ∧ (s [str]).lineBusy 0 (placeAt [(0, 64, leaf)] 0).line = false := by
  intro s
  refine ⟨all_met _ (by decide +kernel), ?_⟩
  and_intros <;> first | exact reached_of (by decide +kernel) | decide +kernel | (unfold State.MemOk; decide +kernel)

/-- A query not admitted yet; one in its turn on a string, on none, and on an UNBAL one. -/
theorem wit_StringsAtTheHomeStack :
    let q (f : Nat) (a : Option Nat) : Req := { id := 7, path := .n, kind := .query f 0 5, th := T, core := 0, tenant := 0, pc := 4, va := 5, admitted := a }
    let s (r : Req) (xs : List Str) : State := { thr (fun t => { t with outs := [⟨7, [4, 5], none, none, 0⟩] }) base with reqs := [r], strings := xs }
    (s (q 0 none) [str]).MemOk ∧ (s (q 0 none) [str]).mayAdmit (q 0 none) 0 = true ∧
    (∀ f ∈ List.range 8, (s (q f (some 0)) [str]).findReq 7 = some (q f (some 0)) ∧ (s (q f (some 0)) [str]).turnOf (q f (some 0)) 0 false = true ∧
      (s (q f (some 0)) [str]).strOf 0 0 = some str ∧ (s (q f (some 0)) []).strOf 0 0 = none ∧
      ((s (q f (some 0)) [str]).splicer str.stack).failed = false ∧ (s (q f (some 0)) [str]).blocksValid str (str.depends f 5) = true ∧
      (s (q f (some 0)) [str]).strBad str (str.depends f 5) = none ∧
      ∀ j, j < str.depends f 5 → (s (q f (some 0)) [str]).asleep (.dev (str.place (64 * j))) = false) ∧ str.bp = true ∧ str.unbal = false ∧
    (s (q 5 (some 0)) [{ str with unbal := true }]).strOf 0 0 = some { str with unbal := true } ∧
    (s (q 5 (some 0)) [{ str with bp := false }]).strOf 0 0 = some { str with bp := false } := by
  unfold State.MemOk; decide +kernel

/-- Insertions at the end and beyond, deletions, an update of no string, a drop, and the splicer with a block to take
and one to write. -/
theorem wit_StringsAtTheHomeStack_updates :
    let u (ins : Bool) (p n : Nat) : ReqKind := .update ins 0 (BitVec.ofNat 64 p) 5 (BitVec.ofNat 32 n)
    let r (k : ReqKind) : Req := { id := 7, path := .n, kind := k, th := T, core := 0, tenant := 0, pc := 4, va := 0, admitted := some 0 }
    let s (k : ReqKind) (xs : List Str) : State := { thr (fun t => { t with status := .stalled }) (handled base) with reqs := [r k], strings := xs }
    (∀ k ∈ [u true 600 64, u true 601 1, u true 600 65, u true 0 0, u false 536 64, u false 537 64, .sdrop 0],
      (s k [str]).MemOk ∧ (s k [str]).findReq 7 = some (r k) ∧ (s k [str]).turnOf (r k) 0 true = true ∧ (s k [str]).holds T = true ∧
      ((s k [str]).thread T).status = .stalled ∧ ((s k [str]).thread T).wait = .none ∧ (s k [str]).handles T ∧
      (s k [str]).strOf 0 0 = some str ∧ (s k []).strOf 0 0 = none ∧ (s k [str]).blocksValid str str.blocks = true) ∧
    (s (u true 600 64) [str]).updateHeld (r (u true 600 64)) str true 600 64 = false ∧
    (s (u false 536 64) [str]).updateHeld (r (u false 536 64)) str false 536 64 = false ∧
    (updateLines (some str) true 600 64).any (s (u true 600 64) [str]).asleep = false ∧
    (updateLines (some str) false 536 64).any (s (u false 536 64) [str]).asleep = false ∧
    (str.len + 64 ≤ str.cap ∧ str.cap % 512 = 0) ∧ (∀ j, j < 128 → str.place j = j) ∧
    (let p : Splicer := { queue := [(0, 1)] }
     let v : State := { base with strings := [str], splicers := [(0, p)] }
     let w : State := { base with strings := [str], splicers := [(0, { repairing := some (0, 1, 5) })] }
     (v.splicer 0).failed = false ∧ v.findStr 0 = some str ∧ (v.splicer 0).repairing = none ∧ (v.splicer 0).queue = [(0, 1)] ∧ 1 < str.blocks ∧
     v.asleep (.dev (str.place 64)) = false ∧
     (w.splicer 0).repairing = some (0, 1, 5) ∧ (w.splicer 0).again = false) := by
  intro u r s
  refine ⟨?_, by decide +kernel⟩
  intro k h
  simp only [List.mem_cons, List.not_mem_nil, or_false] at h
  rcases h with rfl | rfl | rfl | rfl | rfl | rfl | rfl <;> (unfold State.MemOk State.handles; decide +kernel)

/-- The reads and writes of a string's directory with every channel awake, and its places asleep in a power state. -/
theorem wit_StringsAtTheHomeStack_directory :
    let s : State := { base with strings := [str] }
    let z : State := { s with channels := [(placeUnit 0x2004, { state := 1 })] }
    (∀ f ∈ List.range 8, (s.queryReads str f 5).any s.asleep = false) ∧ (str.writePath 1).any s.asleep = false ∧
    (Config.l2Holds z.tick = false → (str.writePath 1).any z.asleep = true) := by
  intro s z
  refine ⟨by decide +kernel, by decide +kernel, fun h => List.any_eq_true.mpr ⟨.dev 0x2004, by decide +kernel, ?_⟩⟩
  have e : z.asleep (.dev 0x2004) = !Config.l2Holds z.tick := rfl
  rw [e, h]; rfl

/-- The last block's repair on the string of R315, and the descriptor's line held for a string that is updated. -/
theorem wit_DirectoryPaths :
    let s : State := { base with strings := [str], splicers := [(0, { repairing := some (0, 1, 0x00C00009) })] }
    s.findStr 0 = some str ∧ (s.splicer 0).failed = false ∧ (s.splicer 0).repairing = some (0, 1, 0x00C00009) ∧ 1 < str.blocks ∧
    str.cap ≤ 2 ^ 38 := by decide +kernel

/-- Strings that are BUILDING with their last block and an earlier one under repair, and one that is PLAIN. -/
theorem wit_DirectoryPaths_building :
    let s (x : Str) (j : Nat) : State := { base with strings := [x], splicers := [(0, { repairing := some (0, j, 0x00C00009) })] }
    ∀ e ∈ [({ str with building := true }, 1), ({ str with building := true }, 0), ({ str with bp := false }, 1), (str, 0)],
      (s e.1 e.2).findStr 0 = some e.1 ∧ ((s e.1 e.2).splicer 0).failed = false ∧
      ((s e.1 e.2).splicer 0).repairing = some (0, e.2, 0x00C00009) ∧ (e.1.writePath e.2).any (s e.1 e.2).asleep = false ∧
      e.2 < e.1.blocks ∧ e.1.cap ≤ 2 ^ 38 := by decide +kernel

theorem wit_StringInstructions_held :
    let x : Str := { str with descriptor := .dev 0x40 }
    let q : Req := { id := 6, path := .n, kind := .update true 0 0 0 1, th := T, core := 0, tenant := 0, pc := 4, va := 0, admitted := some 0 }
    let s : State := { regs [0] (mapped base) with strings := [x], reqs := [q] }
    Alone s (.ssync false 0) T ∧ (s.thread T).waitOp = none ∧ s.stringTurn T 0 = true ∧ s.heldAtIssue T .n true = false ∧
    s.strOf 0 0 = some x ∧ s.writeHeld x.descriptor = true := by
  intro x q s
  exact ⟨alone_of (by decide +kernel), by decide +kernel⟩

/-- Reading a program of one word and of two, a command of one row and of the longest, each RED.NM, and both row
operations. -/
theorem wit_NearMemoryInstructions :
    let s := regs [0, 0, 32, 0, 0, 16, 1, 0, 0x1FFF00, 0] (tm (fun t => { t with nmStore := [0x8000000000000000] }) (mapped base))
    (∀ e ∈ ([(.nmload false 0 6, 0, 0), (.nmrun false 0 2, 0, 0), (.nmrunRet false 10 0 4, 0, 0), (.redNmAdd false true .w64 8 0 3, 0, 0),
        (.redNmAddF32 false false 8 0 0, 0, 0), (.redNmMinI32 false false 8 0 0, 0, 0), (.redNmMinN32 false false 8 0 0, 0, 0),
        (.redNmMaxI32 false false 8 0 0, 0, 0), (.redNmMaxN32 false false 8 0 0, 0, 0), (.redNmOr false true 8 0 2, 0, 0),
        (.rzero false 8, 0, 0), (.rcopy false 8 0, 0, 0)] : List (Instr × Nat × Nat)),
      Issuing s e.1 one ∧ Settled s e.1 one e.2.1 e.2.2 ∧ Alone s e.1 T) ∧
    s.heldAtIssue T .n true = false ∧ s.heldAtIssue T .p false = false ∧ Reached s T { read := true } 0 8 8 [(0, 8, leaf)] ∧
    (s.readPieces [(0, 8, leaf)]).length = 8 ∧
    (∀ e ∈ pieceLines [(0, 8, leaf)], s.lineBusy 0 e.2.1.line = false ∧ s.asleep e.2.1 = false) ∧
    (((s.thread T).pair 2).toNat = 32 ∧ ((s.thread T).pair 4).toNat = 2 ^ 36) ∧ ((s.team 0).nmStore.any nmEnd = true) ∧
    Reached s T { write := true, noSuc := true, noPeer := true } 0x1FFF00 8 8 [(0x1FFF00, 8, leaf)] ∧
    Reached s T { write := true, noSuc := true, noPeer := true } 0x1FFF00 4 4 [(0x1FFF00, 4, leaf)] ∧
    Reached s T { write := true } 0x1FFF00 256 256 [(0x1FFF00, 256, leaf)] ∧ Reached s T { read := true } 0 256 256 [(0, 256, leaf)] ∧
    leaf.size = 0x200000 ∧ leaf.nmok = true ∧ leaf.peer = false ∧ leaf.stripe = false ∧ leaf.locate 0x1FFF00 = .dev 0x1FFF00 := by
  intro s
  refine ⟨all_met _ (by decide +kernel), ?_⟩
  and_intros <;> first | exact reached_of (by decide +kernel) | decide +kernel

/-- A program whose word ends, one whose second word has a reserved opcode, and one without END. -/
theorem wit_NearMemoryInstructions_words :
    let good := ({ base with mem := Memory.write [] 7 0x81 } : State)
    let bad := ({ base with mem := Memory.write (Memory.write [] 7 0x01) 15 0x8F } : State)
    let word (s : State) (n k : Nat) : DWord := BitVec.ofNat 64 (valueOf (fun j => (s.readPieces [(0, 8 * n, leaf)]).getD (8 * k + j) 0) 8)
    (nmOpc (word good 1 0) = 1 ∧ nmCombine (word good 1 0) = 0 ∧ (word good 1 0).toNat / 2 ^ 32 % 2 ^ 16 = 0 ∧ nmEnd (word good 1 0) = true) ∧
    nmOpc (word bad 2 0) = 1 ∧ nmCombine (word bad 2 0) = 0 ∧ (word bad 2 0).toNat / 2 ^ 32 % 2 ^ 16 = 0 ∧ nmOpc (word bad 2 1) = 15 ∧
    nmOpc (word bad 1 0) = 1 ∧ nmEnd (word bad 1 0) = false := by
  decide +kernel

/-- A command of 32 bytes at 0x40 of an NMOK page that the stack's TLB holds. -/
def cmd (body : List DWord) : NmCommand :=
  { id := 7, th := T, core := 0, tenant := 0, pc := 4, body := body, va := 0x40, len := 32, ret := true }
def commanded (c : NmCommand) (gs : List NmSegment) : State :=
  thr (fun t => { t with outs := [⟨7, [4, 5], none, none, 0⟩] })
    { mapped base with baseTlbs := [(0, [⟨0, 0, leaf⟩])], commands := [c], segments := gs }

def addOne : DWord := 0xD100000000000001
def countBits : DWord := 0xCC00000000000000
def seg : NmSegment := { id := 9, cmd := 7, unit := 0, va := 0x40, loc := 0x40, len := 32 }
def run (w : DWord) : State := { commanded (cmd [w]) [seg] with units := [(0, { open_ := some 7 })] }

/-- A segment to send, and one to run with and without write back. -/
theorem wit_NearMemoryUnits :
    (commanded (cmd [addOne]) []).MemOk ∧ (commanded (cmd [addOne]) []).findCommand 7 = some (cmd [addOne]) ∧ (commanded (cmd [addOne]) []).sends (cmd [addOne]) = true ∧
    (commanded (cmd [addOne]) []).channelActive (placeUnit 0x40) = true ∧ ({} : NmUnit).x.length = 8 ∧ ({} : NmUnit).y.length = 8 ∧
    (commanded (cmd [addOne]) []).nmReach (cmd [addOne]) = .ok [(0x40, 32, leaf)] ∧ leaf.locate 0x40 = .dev 0x40 ∧
    (∀ e ∈ [(addOne, 1, 1), (countBits, 12, 0)], (run e.1).findCommand 9 = none ∧ (run e.1).segments.find? (fun x => x.id == 9) = some seg ∧
      (run e.1).findCommand 7 = some (cmd [e.1]) ∧ (run e.1).segmentReady seg = true ∧ nmFetch e.1 = true ∧
      ((run e.1).nmUnit 0).open_ = some 7 ∧ (run e.1).dropsWrites (.dev 0x40) = false ∧ nmOpc e.1 = e.2.1 ∧ nmBack e.1 = e.2.2) := by
  unfold State.MemOk; decide +kernel

def closed : NmCommand := { cmd [addOne] with len := 0 }
def failed : NmCommand := { closed with failed := some ⟨4, 6, 0x40, 0⟩ }
def over_ (l : Leaf) (r : List FaultRecord) : State :=
  { commanded (cmd [addOne]) [] with
    tenants := [(0, { en := true, fqEn := true })], baseTlbs := [(0, [⟨0, 0, l⟩])], faultRecords := r }

/-- A command to retire, and ones that park, fail and report. -/
theorem wit_NearMemoryUnits_ends :
    (commanded closed []).commandDone closed = true ∧ nmCombine addOne = 0 ∧ (commanded failed []).nmOver failed = true ∧
    (over_ leaf []).sends (cmd [addOne]) = true ∧
    (over_ { leaf with opt := true, res := false } []).nmReach (cmd [addOne]) = .page 0x40 causeNotResident ∧
    (over_ { leaf with opt := true, res := false } [⟨0, 0, 0, true, 6, 3⟩]).faultJoins 0 0 true = true ∧
    (over_ { leaf with nmok := false } []).nmReach (cmd [addOne]) = .deny codePermission 0x40 0 := by
  decide +kernel

/-- A RED.NM on a page that is not NMOK is performed at the slice; row operations write the 32 lines of their row. -/
theorem wit_NearMemoryUnits_requests :
    let r : Req := { req (.redNm .add 4 1 false) { va := 0x40, loc := .dev 0x40, len := 4 } with path := .n }
    let row (k : ReqKind) : Req := { req k { va := 0, loc := .dev 0, len := 64 } with path := .n, parts := rowParts 0 0 }
    ({ base with reqs := [r] } : State).redPlaceable r { va := 0x40, loc := .dev 0x40, len := 4 } false = true ∧
    (∀ k ∈ ([.rowZero, .rowCopy ((rowLines 0x20000 0x20000).map fun e => (e.1, .dev e.2))] : List ReqKind),
      ({ base with reqs := [row k] } : State).rowReady (row k) = true) ∧
    ((rowParts 0 0).map (·.loc) = ((rowLines 0 0).map (·.2)).map .dev) ∧ ((rowLines 0 0).map (·.2)).Nodup ∧
    (∀ p ∈ (rowLines 0 0).map (·.2), p % 64 = 0 ∧ base.isOffline p = false) := by
  intro r row
  refine ⟨?_, by decide +kernel⟩
  have awake : ({ base with reqs := [r] } : State).asleep (.dev 0x40) = false := by decide +kernel
  simp only [State.redPlaceable, awake, Bool.not_false, Bool.or_true, Bool.and_true, Bool.false_eq_true, ↓reduceIte]
  decide +kernel

/-- Channel 31 of stack 15: active, in a power state with an access that waits, woken and idle, and hot. -/
theorem wit_NearMemoryUnits_power :
    let s (c : Channel) : State := { base with channels := [(511, c)], now := 10000 }
    let r : Req := req .store { va := 0x40, loc := .dev (7 * (96 * 2 ^ 30) + 0x3F00), len := 4 }
    base.registersOpen = true ∧ ((s {}).channel 15 31) = {} ∧ (s { req := 1, busy := true }).entryReady 511 = true ∧
    placeUnit (7 * (96 * 2 ^ 30) + 0x3F00) = 511 ∧
    ({ s { req := 1, state := 1 } with reqs := [r] } : State).wakeReady 511 = true ∧
    ((s { req := 1, woken := true }).channel 15 31).woken = true ∧ 10000 ≤ (s { req := 1, woken := true }).now - 0 ∧
    ({ s { state := 1, busy := true } with reqs := [r] } : State).wakeReady 511 = true ∧
    ((s { thermal := true, state := 1 }).channel 15 31).thermal = true ∧ ((s { state := 2 }).channel 15 31).state ≠ 0 := by decide +kernel

/-- A live entry of the team, a PENDING ticket and a responder's place. -/
theorem wit_SolicitInstructions :
    let e : DirEntry := { state := .live, spBase := 64, len := 64, stamp := 0 }
    let s := regs [5, 0xFFFF, 0, 0, 0, 768, 1, 0, 256, 0x10000] (tm (fun t => { t with tickets := [(1, { state := .pending })] })
      (handled { teamed {} base with cores := [(0, { (base.core 0) with dir := [(0, e)] })] }))
    (∀ x ∈ ([(.solicit false 0 0 .c4 .addI64 3, 0, 0), (.solicit false 1 0 .c0 .count 2, 0, 0), (.solicit false 0 8 .c0 .count 2, 0, 0), (.reply false 0, 0, 0),
        (.cwait false 12 1, 0, 0), (.cwait false 12 15, 0, 0), (.cpoll false 0 1, 0, 0), (.tdadd false 20 16, 20, 1), (.tddel false 20 7, 20, 1),
        (.tddel false 20 8, 20, 1), (.tdmove false 20 7 6, 20, 1), (.tdmove false 20 8 6, 20, 1), (.tdmove false 20 7 5, 20, 1)] :
        List (Instr × Nat × Nat)), Issuing s x.1 one ∧ Settled s x.1 one x.2.1 x.2.2 ∧ Alone s x.1 T) ∧
    s.handles T ∧ isResponder T = false ∧ isResponder ⟨0, 16, 0⟩ = true ∧ ((s.thread T).reg 1).toNat < 2 ^ 16 ∧ 2 ^ 16 ≤ ((s.thread T).reg 9).toNat ∧
    (Tab.get (s.team 0).tickets 1 {} : Ticket).state = .pending ∧ (Tab.get (s.team 0).tickets 15 {} : Ticket).state = .idle ∧
    (s.entry 0 0) = e ∧ ((s.entry 0 1).state = .gone ∧ (s.entry 0 1).reserved = false) ∧ s.gridTeamOn 0 1 = some 1 ∧ s.gridTeamOn 0 768 = none ∧
    e.spBase + e.len ≤ (s.team 1).scratchSize ∧ s.freeEntry 1 = some 0 ∧ (s.thread T).waitOp = none := by
  intro e s
  exact ⟨all_met _ (by decide +kernel), by unfold State.handles; decide +kernel, by decide +kernel⟩

/-- An image within Table 17.1 and one whose bounds are reversed; a directory with no place; a REPLY of a responder. -/
theorem wit_SolicitInstructions_rest :
    let img := regs [5, 0, 5, 0, 0x40, 0, 64, 0xFFFC0] base
    let rev := regs [5, 0, 4, 0, 0x40, 0, 64, 0xFFFC0] base
    let full : State := { img with cores := [(0, { (img.core 0) with dir := (List.range 256).map fun n => (n, { state := .live }) })] }
    let r := ({ base with
      ply := some { one with members := [⟨0, 16, 0⟩] }
      teams := [(0, { base.team 0 with
        groups := [(16, { role := 4, budget := 128, quad := 2, threads := [(0, {})] })], responders := [(16, ⟨7, 0, false, none, none⟩)] })] } : State)
    (img.thread T).wide 0 8 / 2 ^ 224 + 64 = (img.team 0).scratchSize ∧ (img.thread T).wide 0 8 % 2 ^ 48 ≤ (img.thread T).wide 0 8 / 2 ^ 64 % 2 ^ 48 ∧
    (rev.thread T).wide 0 8 / 2 ^ 64 % 2 ^ 48 < (rev.thread T).wide 0 8 % 2 ^ 48 ∧ full.freeEntry 0 = none ∧ img.freeEntry 0 = some 0 ∧
    Alone img (.tdadd false 20 0) T ∧ Alone rev (.tdadd false 20 0) T ∧ Alone full (.tdadd false 20 0) T ∧
    Alone r (.reply false 0) ⟨0, 16, 0⟩ := by
  intro img rev full r
  and_intros <;> first
    | exact alone_of (by decide +kernel)
    | decide +kernel
    | exact { ply := ⟨_, rfl, rfl, by decide +kernel⟩, here := by decide +kernel }

/-- A SOLICIT that waits to be sent, and one that has been; a solicit's number that no other has. -/
theorem wit_SolicitInstructions_waits :
    let q (a : Option Nat) : Solicit :=
      { id := 9, tenant := 0, core := 0, team := 0, ticket := 1, key := 5, args := [], count := 0, combine := .count, device := false, waits := [7], accepted := a }
    let s (a : Option Nat) : State := { thr (fun t => { t with waitOp := some 9 }) base with solicits := [q a] }
    (∀ a, a = none ∨ a = some 3 → Alone (s a) (.solicit false 1 0 .c0 .count 2) T ∧ ((s a).thread T).waitOp = some 9) ∧
    (s none).solicits = [q none] ∧ (s (some 3)).solicits = [q (some 3)] ∧ base.solicits = [] ∧ base.releaseWaits T 2 = [] ∧
    ({ base with reqs := [req .store { va := 0x40, loc := .dev 0x40, len := 4 }] } : State).releaseWaits T 3 = [7] := by
  intro q s
  refine ⟨?_, by decide +kernel⟩
  rintro a (rfl | rfl) <;> exact ⟨alone_of (by decide +kernel), by decide +kernel⟩

/-- A solicit that a core admits, a spawn to start, a responder that is over and a census that is complete. -/
theorem wit_TheCensus :
    let e : DirEntry := { state := .live, keyHi := 9, handler := 0x80, stamp := 0 }
    let q : Solicit := { id := 7, tenant := 0, core := 0, team := 0, ticket := 1, key := 5, args := [1, 2, 3, 4], count := 4, combine := .addI64, device := true, accepted := some 0 }
    let s : State := { base with solicits := [q], cores := [(0, { (base.core 0) with dir := [(0, e)] })] }
    let sp : State := { s with cores := [(0, { (s.core 0) with spawns := [⟨7, 0⟩] })] }
    let fin := tm (fun t => { t with
      groups := t.groups ++ [(17, { role := 4, threads := [(0, { status := .exited })] })], responders := [(17, ⟨7, 0, true, some 3, none⟩)] }) s
    let all : Solicit := { q with device := false, reached := List.range 96, spawned := 2, completed := 2, replies := [(1, 0, 4)], errors := [(0, 0, 0x00F)] }
    s.findSolicit 7 = some q ∧ s.admitReady q 0 = true ∧ sp.freeSlot 0 = some 16 ∧ (sp.core 0).spawns = [⟨7, 0⟩] ∧ sp.findSolicit 7 = some q ∧
    (Tab.find sp.teams 0).isSome = true ∧ (fin.responderOver 0 17 ⟨7, 0, true, some 3, none⟩ = true) ∧
    Tab.find (fin.team 0).responders 17 = some ⟨7, 0, true, some 3, none⟩ ∧
    ({ base with solicits := [all] } : State).findSolicit 7 = some all ∧ ({ base with solicits := [all] } : State).censusReady all = true := by
  decide +kernel

/-- A move to start and one to register; a forward that spawns, one whose entry has gone and one whose core was lost;
entries that go. -/
theorem wit_TilesThatMove :
    let e : DirEntry := { state := .moving, len := 64, dest := some (1, 0, 3) }
    let d : DirEntry := { reserved := true, stamp := 3 }
    let m : Move := ⟨7, T, 4, 0, 0, 1, 0, 3, 1, false⟩
    let f : Forward := { id := 8, solicit := 9, srcCore := 0, srcEntry := 0, dstCore := some 1, dstEntry := 0, stamp := 3 }
    let s (m : Move) (x : DirEntry) (lost : List Nat) : State := { teamed {} (thr (fun t => { t with status := .stalled, waitOp := some 7 }) base) with
      moves := [m], forwards := [f], cores := [(0, { (base.core 0) with dir := [(0, e)] }), (1, { dir := [(0, x)], lostStamps := lost })] }
    let live : State := { s m { state := .live, stamp := 3 } [] with moves := [] }
    let gone : State := { s m {} [] with moves := [] }
    let idle : State := { base with cores := [(0, { dir := [(0, { state := .forward }), (1, { state := .live, deleted := true })] })] }
    (s m d []).findMove 7 = some m ∧ (s m d []).moveStarts m = true ∧ (s { m with started := true } d []).findMove 7 = some { m with started := true } ∧
    ((s m d []).team 1).saved = false ∧ (Tab.find (s m d []).teams 1).isSome = true ∧ (s m d []).holds T = true ∧
    ((s m d []).thread T).status = .stalled ∧ ((s m d []).thread T).wait = .none ∧ ((s m d []).thread T).outs = [] ∧ ((s m d []).thread T).unspec = [] ∧
    ((s m d [3]).core 1).lostStamps.contains 3 = true ∧ live.forwards.find? (fun x => x.id == 8) = some f ∧ (live.entry 1 0).stamp = 3 ∧
    (live.entry 1 0).state = .live ∧ (live.entry 1 0).deleted = false ∧ (live.core 1).hasPlace = true ∧ (gone.entry 1 0).state = .gone ∧
    (idle.entry 0 0).state = .forward ∧ idle.solicits = [] ∧ (idle.entry 0 1).deleted = true ∧ (idle.entry 0 1).state = .live ∧ idle.entryBusy 0 1 = false := by
  decide +kernel

/-- Queue 0 with its QCB at 0x10000 and two slots at 0x20000. -/
def queue : Queue := { en := true, base := 0x10000, ring := 0x20000, logsz := 1, prod := true, tail := 1 }

/-- A LAUNCH at its issue; one past its release, to each kind of queue; INTR at and below the count of vectors. -/
theorem wit_LaunchAndInterrupt :
    let u (x : Queue) : State := regs [0x2000, 0, 0, 4, 64] (thr (fun t => { t with waitOp := some 9 })
      { tabled [] (handled base) with queues := [(0, x)] })
    let v (n : Nat) : State := { handled base with tenants := [(0, { tintrCount := n })] }
    Alone base (.launch false 6 0 2) T ∧ (base.thread T).waitOp = none ∧
    (∀ x ∈ [{ queue with tail := 0 }, { queue with prod := false }, { queue with en := false }, { queue with head := 2 ^ 64 - 2 }],
      (u x).queue 0 = x ∧ ((u x).thread T).waitOp ≠ none ∧ (u x).allDone ((u x).thread T).after = true ∧
      (∀ e ∈ pieceLines [(0x2000, 192, leaf)], (u x).lineBusy 0 e.2.1.line = false ∧ (u x).asleep e.2.1 = false) ∧
      x.appending = none ∧ ((u x).thread T).outs = [] ∧ ((u x).thread T).unspec = []) ∧
    Alone (u queue) (.launch false 6 0 2) T ∧ Alone (u queue) (.launch false 6 0 3) T ∧ Alone (u queue) (.launch false 6 0 4) T ∧
    Reached (u queue) T { read := true } 0x2000 192 64 [(0x2000, 192, leaf)] ∧ (63 < 64 ∧ 4 / 4 ≠ 0 ∧ 0 / 4 = 0) ∧
    (u queue).mgrAccess 0 0x10010 8 { read := true, write := true } = .ok [(0x10010, 8, gib)] ∧
    (u queue).mgrAccess 0 0x20000 192 { write := true } = .ok [(0x20000, 192, gib)] ∧
    (u queue).piecesHeld [(0x20000, 192, gib)] = false ∧ (u queue).piecesHeld [(0x10010, 8, gib)] = false ∧ (u queue).MemOk ∧
    (∀ j, j < 192 → gib.locate (0x20000 + j) = (Loc.dev 0x20000).plus j ∧ (u queue).dropsWrites ((Loc.dev 0x20000).plus j) = false) ∧
    (u queue).dropsWrites (.dev 0x10010) = false ∧ ((u queue).readPieces [(0x2000, 192, leaf)]).length = 192 ∧
    Alone (v 0) (.intr false 0) T ∧ (v 0).handles T ∧ Alone (v 1024) (.intr false 1023) T ∧ (v 1024).messages = [] := by
  intro u v
  and_intros <;> first
    | exact alone_of (by decide +kernel)
    | exact reached_of (by decide +kernel)
    | decide +kernel
    | (unfold State.MemOk; decide +kernel)

/-- A QCB that passes and one with LOGSZ zero, a new TAIL within the ring and beyond it, a record that is refused and
one that is taken, the manager's acts, and a stop to report. -/
theorem wit_QueueManagers :
    let good := tabled [(0x10000, 16), (0x1000A, 2)] base
    let s (x : Queue) (cells : List (Nat × Byte)) : State := { tabled cells base with queues := [(0, x)] }
    let record : List (Nat × Byte) := [(0x20018, 1), (0x2001C, 1), (0x20020, 1), (0x20024, 1), (0x2002E, 1)]
    let op (a : MgrAct) : MgrOp := ⟨0, a, none⟩
    good.registersOpen = true ∧ good.mgrAccess 0 0x10000 64 { read := true, write := true } = .ok [(0x10000, 64, gib)] ∧
    good.mgrAccess 0 0x40000000 64 { read := true, write := true } = .waits 0x40000000 causeNotValid ∧
    leValue (good.mgrBytes [(0x10000, 64, gib)]) = 16 + 0x20000 * 2 ^ 64 ∧
    (s queue [(0x10010, 2)]).newTail 0 = some 2 ∧ (s queue [(0x10010, 3)]).newTail 0 = some 3 ∧ (s queue []).newTail 0 = some 0 ∧
    (s { queue with disp := 1, tail := 1 } []).newTail 0 = some 0 ∧
    (s queue []).point 0 = .refuse 0 1 ∧ (match (s queue record).point 0 with | .take _ => true | _ => false) = true ∧
    (∀ a ∈ ([.store 0x20078 [1, 0, 0, 0], .store (2 ^ 57) [1], .retire] : List MgrAct),
      ({ queue with ops := [op a] } : Queue).nextOp = some (0, op a)) ∧
    (s queue []).mgrAccess 0 0x20078 4 { write := true } = .ok [(0x20078, 4, gib)] ∧
    (s queue []).mgrAccess 0 (2 ^ 57) 1 { write := true } = .fails (2 ^ 57) ∧
    (s queue []).writeHeld (.dev 0x20078) = false ∧ (s queue []).dropsWrites (.dev 0x20078) = false ∧ (s queue []).MemOk ∧
    (let t := tm (fun t => { t with stopping := some 6 }) base
     (t.team 0).stopping = some 6 ∧ (t.team 0).reported = false ∧ (Tab.find t.grids (t.team 0).grid).isSome = true ∧ (t.gridOf 0).stopped = none) := by
  intro good s record op
  and_intros <;> first | decide +kernel | (unfold State.MemOk; decide +kernel)

/-- A QCB in a page that a channel asleep holds; a record whose wait counter stands below its target, refused records of
each code, and a queue that waits. -/
theorem wit_QueueManagers_records :
    let s (cells : List (Nat × Byte)) : State := { tabled cells base with queues := [(0, queue)] }
    let good : List (Nat × Byte) := [(0x20018, 1), (0x2001C, 1), (0x20020, 1), (0x20024, 1), (0x2002E, 1)]
    let code (u : State) : Nat := match u.point 0 with | .refuse _ c => c | _ => 0
    queue.en = true ∧ queue.waits = false ∧ base.lcDue = none ∧ queue.disp < queue.tail ∧ (s good).queue 0 = queue ∧
    (∀ l ∈ (s good).pointPlaces 0, (s good).asleep l = false) ∧
    (s good).mgrAccess 0 ((s good).slotVa 0 0) 192 { read := true } = .ok [(0x20000, 192, gib)] ∧
    (s good).mgrAccess 0 0x30000 8 { read := true } = .ok [(0x30000, 8, gib)] ∧
    (match (s (good ++ [(0x2003A, 3), (0x20040, 1)])).point 0 with | .none => true | _ => false) = true ∧
    code (s (good ++ [(0x20020, 0)])) = 1 ∧ code (s (good ++ [(0x20058, 1)])) = 2 ∧ code (s (good ++ [(0x2002E, 2)])) = 3 ∧
    code (s (good ++ [(0x20024, 0xE6), (0x20025, 3)])) = 4 ∧
    code ({ s (good ++ [(0x20030, 1)]) with channels := [(31, { retired := true })] }) = 5 ∧
    ({ queue with parked := some 0x20000 } : Queue).waits = true := by decide +kernel

/-- The additions, messages and retirements of a queue, and the end of a grid's last team and of one before it, with a
done counter, without one, and stopped. -/
theorem wit_QueueManagers_ends :
    let s (x : Queue) : State := { tabled [] base with queues := [(0, x)] }
    let op (a : MgrAct) : MgrOp := ⟨0, a, none⟩
    let x (a : MgrAct) (r : List Nat) : Queue := { queue with ops := [op a], retired := r }
    let g (f : Grid → Grid) : State := { thr (fun t => { t with status := .exited }) base with grids := [(0, f { base.grid 0 with placed := 1 })] }
    (∀ a ∈ ([.addDone 0x20078 3, .interrupt 0, .interrupt 1023, .retire] : List MgrAct), (x a []).nextOp = some (0, op a)) ∧
    (s (x (.addDone 0x20078 3) [])).mgrAccess 0 0x20078 8 { read := true, write := true } = .ok [(0x20078, 8, gib)] ∧ 0x20078 % 8 = 0 ∧
    (s queue).writeHeld (gib.locate 0x20078) = false ∧ (s queue).dropsWrites (gib.locate 0x20078) = false ∧ (s queue).messages = [] ∧
    (x .retire [1, 2, 4]).head = (op .retire).record ∧ (s (x .retire [1, 2, 4])).queue 0 = x .retire [1, 2, 4] ∧
    (∀ f ∈ [fun g : Grid => { g with doneAddr := 0x40, doneIntr := true }, id, fun g => { g with stopped := some (0, 6) },
        fun g => { g with nx := 2 }],
      (g f).teamOver 0 = true ∧ (Tab.find (g f).grids ((g f).team 0).grid).isSome = true ∧ ((g f).grid 0).queue = 0) ∧
    ((g id).grid 0).ended + 1 = ((g id).grid 0).placed ∧ ((g id).grid 0).placed = ((g id).grid 0).size ∧
    ((g fun g => { g with nx := 2 }).grid 0).placed ≠ ((g fun g => { g with nx := 2 }).grid 0).size := by decide +kernel

/-- A grid of one team to place, and a saved team to restore. -/
theorem wit_PlacingAndSaving_offers :
    let s : State := { State.reset with
      grids := [(5, { roles := [(1, 32), (2, 64)], dies := [0], scr := 1 })], clusters := [(0, { owned := true })] }
    let t : State := { (tm (fun t => { t with saved := true, tileCount := 0, scratchSize := 0, area := 9 }) base) with
      clusters := [(0, { owned := true })], locators := [(0, [(0, .saved)])] }
    s.offer = some (5, .fresh 0, 0) ∧ (Tab.find s.grids 5).isSome = true ∧ 0 < (s.grid 5).size ∧
    t.offer = some (0, .saved 0, 0) ∧ (Tab.find t.teams 0).isSome = true := by decide +kernel

/-- A team that is over, one whose slice is over, a higher priority grid whose grace is over, and a team that can be
saved. -/
theorem wit_PlacingAndSaving_ends :
    let over_ := thr (fun t => { t with status := .exited }) base
    let full : State := { base with
      now := 20000, tenants := [(0, { slice := 1 })], clusters := [(0, { owned := true })]
      grids := [(0, { base.grid 0 with placed := 1 }), (1, { roles := [(1, 1024)], dies := [0], tileCount := 16, priority := 7, waitingSince := some 0 })]
      cores := (0, base.core 0) :: (List.range 7).map fun c => (c + 1, { disabled := true }) }
    let saving := tm (fun t => { t with saving := true }) base
    over_.teamOver 0 = true ∧ (over_.team 0).index < (over_.grid 0).size ∧ (Tab.find over_.grids 0).isSome = true ∧
    full.sliceOver 0 = true ∧ full.graceOver 1 = true ∧ full.victims 1 = some [0] ∧ (full.team 0).saved = false ∧
    saving.saveReady 0 = true ∧ (Tab.find saving.teams 0).isSome = true ∧ (saving.team 0).index < (saving.grid 0).size := by decide +kernel

/-- A save area with every channel awake, and one of a channel that sleeps. -/
theorem wit_PlacingAndSaving_areas :
    let area (s : State) : State := { tm (fun t => { t with area := 0x4000 }) s with saveAreas := [(0x4000, 256)] }
    let saving := area (tm (fun t => { t with saving := true }) base)
    let away : State := { area (tm (fun t => { t with saved := true, tileCount := 0, scratchSize := 0 }) base) with
      clusters := [(0, { owned := true })], locators := [(0, [(0, .saved)])] }
    let z (s : State) : State := { s with channels := [(placeUnit 0x4000, { state := 1 })] }
    saving.saveReady 0 = true ∧ away.offer = some (0, .saved 0, 0) ∧ (saving.areaPlaces 0).any saving.asleep = false ∧
    (away.areaPlaces 0).any away.asleep = false ∧ (z saving).saveReady 0 = true ∧ (z away).offer = some (0, .saved 0, 0) ∧
    (Config.l2Holds base.tick = false → ((z saving).areaPlaces 0).any (z saving).asleep = true) := by
  intro area saving away z
  refine ⟨by decide +kernel, by decide +kernel, by decide +kernel, by decide +kernel, by decide +kernel, by decide +kernel,
    fun h => List.any_eq_true.mpr ⟨.dev 0x4000, by decide +kernel, ?_⟩⟩
  have e : (z saving).asleep (.dev 0x4000) = !Config.l2Holds base.tick := rfl
  rw [e, h]; rfl

/-- A ply of two threads at one place, a word that decodes to none, and a line that is missing. -/
theorem wit_PliesAndFetches :
    let two := ({ paired {} base with ply := none } : State).refreshActive 0 0
    let bad := ({ handled (State.reset.withFetchWord 32 0x7F000003) with ply := none } : State).refreshActive 0 0
    let miss := ({ thr (fun t => { t with pc := 0x40 }) base with ply := none } : State).refreshActive 0 0
    (two.issueTop 0 0 = some T ∧ two.stepped 0 0 = none ∧ two.fetchWord 0 0 0 = some 0 ∧ (∃ i, decode 0 = .ok i) ∧
      (pal ∈ two.issuable 0 0) ∧ (two.thread pal).pc = (two.thread T).pc ∧ (two.thread pal).joined = 0 ∧
      (two.thread pal).replay = (two.thread T).replay ∧ isResponder pal = false ∧ two.issueTop 0 1 = none) ∧
    (bad.issueTop 0 0 = some T ∧ bad.fetchWord 0 0 0 = some 0x7F000003 ∧ (∃ e, decode 0x7F000003 = .error e) ∧ bad.plyAround 0 0 T = [T] ∧
      sw 0x7F000003 = false ∧ (bad.thread T).joined = 0 ∧ isResponder T = false ∧ (bad.gridOf 0).handler ≠ 0 ∧ (bad.thread T).inHandler = false) ∧
    (miss.issueTop 0 0 = some T ∧ miss.fetchWord 0 0 0x40 = none ∧ (miss.thread T).xfault = none ∧ miss.holds T = true) := by
  intro two bad miss
  and_intros <;> first | decide +kernel | exact ⟨.iadd false 0 0 0 .w32, by decide +kernel⟩ | exact ⟨.reserved, by decide +kernel⟩

/-- Every thread of the ply that misses its line is ready, with no fault held back. -/
theorem wit_PliesAndFetches_miss :
    let miss := ({ thr (fun t => { t with pc := 0x40 }) (paired { pc := 0x40 } base) with ply := none } : State).refreshActive 0 0
    miss.issueTop 0 0 = some T ∧ miss.fetchWord 0 0 0x40 = none ∧ miss.plyAround 0 0 T = [T, pal] ∧
    ∀ th ∈ miss.plyAround 0 0 T, (miss.thread th).xfault = none ∧ (miss.thread th).status = .ready := by decide +kernel

/-- A ply that waits at the engine queue with two threads left. -/
theorem wit_PliesAndFetches_open :
    let s := ({ tm (fun t => { t with plies := [⟨[], [T, pal]⟩] }) (paired {} base) with ply := none } : State).refreshActive 0 0
    s.issueTop 0 0 = some T ∧ s.openPly? T = some ⟨[], [T, pal]⟩ ∧ s.fetchWord 0 0 0 = some 0 := by decide +kernel

/-- A fetch that is served, one beyond the address space, one of a page without X, and a group whose hold is over. -/
theorem wit_PliesAndFetches_fetches :
    let f (va : Nat) : Fetch := ⟨0, 0, va, T⟩
    let s (va : Nat) (l : Leaf) : State := { paged l (thr (fun t => { t with pc := BitVec.ofNat 64 va, status := .stalled }) (handled base)) with fetches := [f va] }
    let need : Need := { exec := true, noPeer := true, resident := true }
    let held : State := { tm (fun t => { t with groups := t.groups ++ [(4, { quad := 0, place := 4, threads := [(0, {})] })] }) base with idle := 4096 }
    (∀ e ∈ [(0x1FFFFC, leaf), (2 ^ 57, leaf), (0x40, { leaf with x := false })],
      ((s e.1 e.2).fetches.filter fun x => x.core == 0 && x.tenant == 0 && x.va == e.1 % 2 ^ 64) = [f e.1] ∧
      (s e.1 e.2).fetchWanted (f e.1) = true ∧ (s e.1 e.2).holds T = true ∧ ((s e.1 e.2).gridOf 0).handler ≠ 0 ∧ ((s e.1 e.2).thread T).inHandler = false) ∧
    (s 0x1FFFFC leaf).reach 0 0 need 0x1FFFFC 4 = .ok [(0x1FFFFC, 4, leaf)] ∧
    (s 0x40 { leaf with x := false }).reach 0 0 need 0x40 4 = .deny codePermission 0x40 0 ∧
    held.holdOver 0 0 = true ∧ base.holdOver 0 0 = false := by decide +kernel

/-- Eight active groups of one quadrant, one of them past its time, and a ninth that is ready; a walk and a fetch whose
lines are awake, and a fetch whose channel sleeps. -/
theorem wit_PliesAndFetches_holds :
    let g (k : Nat) : Group := { quad := 0, place := k, active := decide (k < 8), since := k, threads := [(0, {})] }
    let s : State := { tm (fun t => { t with groups := (List.range 9).map fun k => (4 * k, g k) }) base with idle := 4096 }
    let here := s.quadGroups 0 0
    s.holdOver 0 0 = true ∧ (s.team 0).core = 0 ∧ here = (List.range 9).map (fun k => (0, 4 * k)) ∧
    (here.filter fun x => decide (x ≠ (0, 0)) && (s.groupAt x).active).length = 7 ∧
    (∀ e ∈ here, ((s.groupAt e).hasReady = true ∧ (e = (0, 0) ∨ (s.groupAt e).active = false)) ↔ e = (0, 0) ∨ e = (0, 32)) ∧
    (s.groupAt (0, 32)).since * 16 + (s.groupAt (0, 32)).place < 0x1000 * 16 ∧
    base.asleep (.dev 0x1FFFC0) = false ∧
    (tabled [] base).walkReads 0 0 0x40 = [.dev 0, .dev 0x1000] ∧
    (∀ l ∈ (tabled [] base).walkReads 0 0 0x40, (tabled [] base).asleep l = false) := by decide +kernel

/-- A channel in a power state is asleep where no cache holds the line: to a fetch and to a walk. -/
theorem wit_asleep :
    let s : State := { base with channels := [(0, { state := 1 })] }
    Config.l2Holds s.tick = false → s.asleep (.dev 0) = true := by
  intro s h
  have e : s.asleep (.dev 0) = !Config.l2Holds s.tick := rfl
  rw [e, h]; rfl

/-- A root at the last 2 MiB of the device and one beyond, a tag that is another tenant's, walks to a leaf and to a
fault, and an invalidation of one page and of all. -/
theorem wit_AddressSpaces :
    let s : State := tabled [] base
    let v (en : Bool) (tag : Nat) (root : Nat) : DWord := BitVec.ofNat 64 (en.toNat * 2 ^ 63 + tag * 2 ^ 40 + root * 2 ^ 21)
    let two : State := { base with tenants := [(0, {}), (15, { en := true, astag := 5 })] }
    let w : Walk := ⟨0, 0, 0x40, false, .thread T⟩
    let f : Walk := ⟨0, 0, 0x40000000, false, .thread T⟩
    let lost : State := { thr (fun t => { t with status := .stalled }) s with walks := [f] }
    let inv : State := { mapped base with tenants := [(0, { en := true, invaddr := 0x1FF })] }
    let busy : State := { inv with tenants := [(0, { en := true, invBusy := true })] }
    s.registersOpen = true ∧ 96 * 2 ^ 30 = (v true 5 49151).toNat / 2 ^ 21 % 2 ^ 19 * 2 ^ 21 + 2 ^ 21 ∧
    96 * 2 ^ 30 < (v true 5 49152).toNat / 2 ^ 21 % 2 ^ 19 * 2 ^ 21 + 2 ^ 21 ∧ (two.tenant 15).astag = (v true 5 0).toNat / 2 ^ 40 % 2 ^ 16 ∧
    ({ s with walks := [w] } : State).walks.filter (fun y => y.cluster == 0 && y.tenant == 0 && y.va == 0x40) = [w] ∧
    ({ s with walks := [w] } : State).walk (0 / 12) 0 0x40 = .leaf gib 0 [⟨0, 4, 0, 0x1000⟩] ∧ w.va < 2 ^ 64 ∧
    lost.walks.filter (fun y => y.cluster == 0 && y.tenant == 0 && y.va == 0x40000000) = [f] ∧ lost.walk (0 / 12) 0 0x40000000 = .fault causeNotValid ∧
    (lost.thread T).status = .stalled ∧ (lost.tenant 0).fqEn = false ∧
    (inv.tenant 0).invBusy = false ∧ (inv.cluster 0).owned = true ∧ (inv.cluster 0).tenant = 0 ∧ (∀ e ∈ (inv.cluster 0).tlb, 0 < e.leaf.size ∧ e.base < 2 ^ 57) ∧
    (busy.tenant 0).invBusy = true ∧ busy.allDone (busy.tenant 0).invWaits = true ∧ busy.segments = [] := by decide +kernel

/-- A write of TROOT that changes the tag, with a tag that a tenant without EN holds as well; accesses of each kind that
use the pages of an invalidation. -/
theorem wit_AddressSpaces_tags :
    let v (tag root : Nat) : DWord := BitVec.ofNat 64 (2 ^ 63 + tag * 2 ^ 40 + root * 2 ^ 21)
    let s : State := { base with tenants := [(0, { en := true, astag := 1, root := 2 }), (15, { astag := 5 })] }
    let used : State := { mapped base with
      tenants := [(0, { en := true })]
      reqs := [req .store { va := 0x40, loc := .dev 0x40, len := 4 }]
      commands := [cmd [addOne]], segments := [seg] }
    (s.tenant 0).astag ≠ (v 5 2).toNat / 2 ^ 40 % 2 ^ 16 ∧ (s.tenant 0).clearBusy = false ∧
    (∀ y ∈ s.tenants, y.1 ≠ 0 → y.2.en = false) ∧ (∃ y ∈ s.tenants, y.1 ≠ 0 ∧ y.2.astag = (v 5 2).toNat / 2 ^ 40 % 2 ^ 16) ∧
    (s.tenant 0).astag = (v 1 3).toNat / 2 ^ 40 % 2 ^ 16 ∧ (∀ y ∈ s.tenants, y.1 ≠ 0 → y.2.astag ≠ (v 1 3).toNat / 2 ^ 40 % 2 ^ 16) ∧
    (s.tenant 0).root ≠ (v 1 3).toNat / 2 ^ 21 % 2 ^ 19 ∧
    (used.tenant 0).invBusy = false ∧ (used.tenant 0).invaddr = 0 ∧ 0 < 0x8000000000000001 % 2 ^ 32 ∧
    (∀ r ∈ used.reqs, r.tenant = 0 ∧ ∀ p ∈ r.parts, 0 < p.va + p.len ∧ p.va < 4096) ∧
    (∀ g ∈ used.segments, ∃ c ∈ used.commands, c.id = g.cmd ∧ c.tenant = 0) := by decide +kernel

/-- An owner to change, an overdue responder, drained cores; a clear that is refused, accepted and complete; ranges of
vectors. -/
theorem wit_TenantsAndClusters :
    let busy (s : State) (n : Nat) : State := { s with clusters := [(95, { busy := true, nextOwned := true, nextTenant := 3, since := List.replicate 8 0 })], idle := n }
    let late : State := busy { State.reset with teams := [(4, { core := 760, groups := [(16, { role := 4, threads := [(0, {})] })], responders := [(16, ⟨7, 0, false, none, none⟩)] })] } 1000000
    let bound : State := { base with tenants := [(15, { en := true })] }
    let owns : State := { base with clusters := [(0, { owned := true, tenant := 15 })] }
    let vec : State := { base with tenants := [(15, { tintrCount := 8, tintrBase := 16 })] }
    base.registersOpen = true ∧ ((base.cluster 95).busy = false ∧ (base.cluster 95).owned = false) ∧ (0x40000003 : Word).getLsbD 30 = true ∧
    (base.residents 0 = [0] ∧ (Tab.find base.teams 0).isSome = true ∧ (base.team 0).saved = false ∧ (base.core 0).ctl.halt = false ∧
      (let k : State := base.setCore 0 { base.core 0 with ctl := { halt := true, pstat := 1 } }; k.residents 0 = [0] ∧ (k.core 0).ctl.pstat = 1)) ∧
    late.overdue 95 = [⟨4, 16, 0⟩] ∧ (late.cluster 95).busy = true ∧ (busy base 0).ownerReady 95 = true ∧ base.ownerReady 95 = false ∧
    (bound.tenant 15).en = true ∧ (owns.clusters.any fun y => y.2.tenant == 15 && y.2.owned) = true ∧ (base.tenant 15).clearBusy = false ∧
    (({ base with tenants := [(15, { clearBusy := true })] } : State).tenant 15).clearBusy = true ∧
    (1024 ≤ 1024 ∧ 1024 + 1024 ≤ 2048) ∧ (23 < (vec.tenant 15).tintrBase + (vec.tenant 15).tintrCount ∧ (vec.tenant 15).tintrBase < 23 + 1) := by
  decide +kernel

/-- A record of a parked load and of a lost write, with the thread and the copy that wait on its page. -/
theorem wit_FaultQueues :
    let r (k : Nat) : FaultRecord := ⟨15, 9, 0x40, false, k, 0⟩
    let s (k : Nat) : State := { (thr (fun t => { t with status := .blocked, wait := .pageFault 0x40 false 0x40000 true }) (tm (fun t => { t with tenant := 15 }) base)) with
      tenants := [(15, { en := true, fqEn := true, fqLog := 1 })], faultRecords := [r k], copies := [{ copy true with tenant := 15, parked := some 0x40000 }] }
    (∀ k ∈ [0, 1, 2, 6, 4, 5, 3], (s k).faultRecords.find? (fun x => x.tenant == 15 && x.seq == 9) = some (r k)) ∧ (s 0).registersOpen = true ∧
    (s 0).faultPosts = [] ∧ (s 0).commands = [] ∧ (s 0).queues = [] ∧ ((s 0).thread T).wait = .pageFault 0x40 false 0x40000 true ∧
    (s 0).holds T = true ∧ ((s 0).team 0).tenant = 15 ∧ (∀ x ∈ (s 0).copies, x.tenant = 15 ∧ (!x.inward) = (r 0).write ∧ x.parked = some 0x40000) ∧ 0x40000 / 4096 = 0x40 ∧
    (0x8000000000000001 : DWord).getLsbD 63 = true ∧ (0x8000000000000001 : DWord).toNat % 16 ≠ 0 := by
  decide +kernel

/-- A page fault with the fault queue on: of a page that has a record, with the ring full, with a slot that does not
translate, and with one that does. -/
theorem wit_FaultQueues_posts :
    let w : Walk := ⟨0, 0, 0x40000000, false, .thread T⟩
    let s (x : Tenant) (rs : List FaultRecord) : State := { thr (fun t => { t with status := .stalled }) (tabled [] base) with
      tenants := [(0, { x with en := true, fqEn := true })], walks := [w], faultRecords := rs }
    let on : Tenant := { fqRing := 0x400, fqLog := 1, tintrCount := 1 }
    let r (p : Nat) : FaultRecord := ⟨0, 9, p, false, 0, causeNotValid⟩
    (∀ e ∈ [(on, []), (on, [r 0x40000]), (on, [r 1, r 2]), ({ on with fqRing := 2 ^ 24 }, [])],
      let u := s e.1 e.2
      w.tenant = u.tenantOf T ∧ w.va < 2 ^ 64 ∧
      u.walks.filter (fun y => y.cluster == w.cluster && y.tenant == w.tenant && y.va == w.va) = [w] ∧
      (∀ l ∈ u.walkReads (w.cluster / 12) w.tenant w.va, u.asleep l = false) ∧
      (u.walk (w.cluster / 12) w.tenant w.va = .fault causeNotValid) ∧ (u.thread T).status = .stalled ∧
      (u.tenant 0).fqEn = true ∧ (u.slotPlaces 0).any u.asleep = false ∧ u.faultPosts = []) ∧
    (s on []).faultSlot 0 = some (gib.locate 0x10000) ∧ (s { on with fqRing := 2 ^ 24 } []).faultSlot 0 = none ∧
    (s on []).writeHeld (gib.locate 0x10000) = false ∧ (s on []).dropsWrites (gib.locate 0x10000) = false ∧
    (s on []).messages = [] ∧ (s on []).coreOf T < 768 ∧ causeNotValid < 256 ∧ (s on []).MemOk ∧
    2 ^ on.fqLog ≤ (s on [r 1, r 2]).faultRecords.countP fun r => r.tenant == 0 := by
  unfold State.MemOk; decide +kernel

/-- A command, a queue manager's read and an append that wait on the page of a record. -/
theorem wit_FaultQueues_parked :
    let r (w : Bool) : FaultRecord := ⟨15, 9, 0x40, w, 0, 0⟩
    let q : Queue := { queue with parked := some 0x40008, ops := [⟨0, .store 0x40010 [1], some 0x40010⟩] }
    let s (w : Bool) : State := { base with
      tenants := [(15, { en := true, fqEn := true, fqLog := 1 })], faultRecords := [r w], queues := [(60, q)]
      commands := [{ cmd (if w then [addOne] else [countBits]) with tenant := 15, parked := some 0x40000 }] }
    ∀ w : Bool, (s w).faultRecords.find? (fun x => x.tenant == 15 && x.seq == 9) = some (r w) ∧ (s w).registersOpen = true ∧
      (∀ p ∈ (s w).faultPosts, p.tenant ≠ 15) ∧ (s w).queue 60 = q ∧ 60 / 4 = 15 ∧
      (∀ c ∈ (s w).commands, c.tenant = 15 ∧ nmWrites c.body = (r w).write ∧ c.parked = some 0x40000) ∧ 0x40008 / 4096 = 0x40 := by
  decide +kernel

/-- A load and a store of host memory outstanding, with no tenant and with one that is told. -/
theorem wit_LinkLoss :
    let x : ReqPart := { va := 0x40, loc := .host 0x40, len := 4, data := [1, 2, 3, 4] }
    let s (k : ReqKind) : State := { sent k x with port := [(7, 0)], now := 2 ^ 26 }
    let told : State := { s .store with tenants := [(0, { en := true, fqEn := true, fqLog := 1 })] }
    (∀ k ∈ ([.load 4 false, .store] : List ReqKind), (s k).cxlWaits 7 = true ∧ (s k).tenants = [] ∧ (s k).reqs = [req k x] ∧
      (s k).copies = [] ∧ (s k).cxlDown = false) ∧ x.loc.isHost = true ∧ x.done = false ∧ x.fill = false ∧
    told.copies = [] ∧ (∀ r ∈ told.reqs, r.kind = .store) ∧ told.cxlWaits 7 = true ∧ (told.tenant 0).fqEn = true ∧
    base.cxlWaits 7 = false ∧ ({ s .store with now := 2 ^ 26 - 1 } : State).cxlWaits 7 = false ∧ ({ base with cxlDown := true } : State).cxlDown = true ∧
    base.linkDown = [] := by decide +kernel

/-- Two requests of host memory outstanding, of a tenant whose fault queue is off. -/
theorem wit_LinkLoss_silent :
    let x : ReqPart := { va := 0x40, loc := .host 0x40, len := 4, data := [1, 2, 3, 4] }
    let s : State := { sent (.load 4 false) x with
      tenants := [(0, { en := true })], port := [(7, 0)], now := 2 ^ 26
      reqs := [req (.load 4 false) x, { req .store x with id := 8 }] }
    s.copies = [] ∧ (∀ n, n < 16 → (s.tenant n).fqEn = false) ∧ s.cxlWaits 7 = true ∧ s.cxlDown = false ∧
    (∀ r ∈ s.reqs, ∀ q ∈ s.reqs, q.id = r.id → q = r) ∧ (∀ r ∈ s.reqs, r.parts = [x]) ∧ x.loc.isHost = true := by decide +kernel

/-- The last bytes of the range and of a die, and the first of the carve-out of die 7. -/
theorem wit_AccessesFromOutside :
    base.MemOk ∧ 8 * (96 * 2 ^ 30) - 2 + 2 ≤ 8 * (96 * 2 ^ 30) ∧ base.recovery = false ∧ base.lifecycle ≠ 4 ∧ base.cxlDown = false ∧
    base.outsideHeld 0 2 = false ∧ base.hwOwned (.dev (7 * (96 * 2 ^ 30) + 0xB800 * 0x200000)) = true ∧
    base.hwOwned (.dev (7 * (96 * 2 ^ 30) + 0xB800 * 0x200000 - 1)) = false ∧
    ({ base with strings := [str], reqs := [{ req (.update true 0 0 0 1) { va := 0, loc := .dev 0, len := 4 } with admitted := some 0 }] } : State).outsideHeld 0 2 = true := by
  unfold State.MemOk; decide +kernel

/-- A write from outside that goes on, the host's while memory is offered and a peer's. -/
theorem wit_AccessesFromOutside_rest :
    base.outsideRest = none ∧ base.writesOpen true = true ∧ base.writesOpen false = true ∧
    ({ base with lifecycle := 4 } : State).writesOpen false = false ∧ ({ base with cxlDown := true } : State).writesOpen true = false ∧
    min 262145 (262144 - 64 % 64) ≠ 262145 ∧ base.outsideHeld 64 (min 2 (262144 - 64 % 64)) = false := by decide +kernel

/-- Core 767 halted with a selected thread that may step and one that may not, gated, waking and reset. -/
theorem wit_CoreControl :
    let s (c : CoreCtl) (st : Status) : State := { State.reset with
      teams := [(4, { core := 767, groups := [(0, { budget := 32, threads := [(63, { status := st })] })] })], cores := [(767, { ctl := c })] }
    let e (c : CoreCtl) : State := { State.reset with cores := [(767, { ctl := c })] }
    let h : CoreCtl := { halt := true, lane := 63 }
    State.reset.registersOpen = true ∧
    (s h .ready).quadGroups 767 0 = [(4, 0)] ∧ (((s h .ready).team 4).group 0).place = 0 ∧ ((s h .ready).thread ⟨4, 0, 63⟩).status = .ready ∧
    ((s h .blocked).thread ⟨4, 0, 63⟩).status = .blocked ∧ (s h .ready).quadGroups 767 3 = [] ∧ (s h .ready).emptying 767 = false ∧
    (s h .ready).residents 767 = [4] ∧ (s h .ready).holds ⟨4, 0, 63⟩ = true ∧ ((s h .ready).group ⟨4, 0, 63⟩).budget = 32 ∧
    (e { pgate := true, pstat := 1 }).gateReady 767 = true ∧ (e {}).gateReady 767 = false ∧ (e {}).residents 767 = [] ∧
    ((e { pgate := true, pstat := 2 }).core 767).ctl.pstat = 2 ∧ ((e { pstat := 3 }).core 767).ctl.resetDue = false ∧
    (Tab.find (s {} .ready).teams 4).isSome = true ∧ ((s {} .ready).team 4).saved = false ∧ (e {}).registersOpen = true := by decide +kernel

theorem wit_ErrorsAndRepairs :
    let s : State := { base with strings := [str] }
    let idle (n : Nat) : State := { State.reset with
      cores := [(767, { admitHold := true })], tests := [.core 767, .l1 767 0], sparesUsed := [(7, n)] }
    let gone : State := { base with channels := [(511, { retired := true })] }
    s.standsOn 0 0 = true ∧ s.holds T = true ∧ 64 * (8 * (96 * 2 ^ 30) / 64 - 1) < 8 * (96 * 2 ^ 30) ∧
    s.strings.find? (fun x => x.tenant == 0 && x.handle == 0) = some str ∧ 1 < str.blocks ∧ str.isStale 1 = false ∧
    (s.splicer str.stack).repairs str.key 1 = false ∧
    (∀ n ∈ [3, 4], ErrorSite.core 767 ∈ (idle n).tests ∧ ((idle n).core 767).admitHold = true ∧ (idle n).residents 767 = [] ∧ (idle n).responding 767 = false ∧ Tab.get (idle n).sparesUsed (767 / 96) 0 = n) ∧
    base.tests = [] ∧ (base.channel 15 31).retired = false ∧ (base.channel 15 31).offline = false ∧ (base.channel 15 31).spared < 3072 ∧
    (gone.channel 15 31).retired = true ∧ (gone.channel 15 30).retired = false ∧ (gone.channel 15 30).offline = false := by decide +kernel

/-- A directory's site with its stack, and a line whose home channel is retired. -/
theorem wit_ErrorsAndRepairs_sites :
    let s : State := { base with strings := [str], channels := [(0, { retired := true })] }
    s.strings.find? (fun x => x.tenant == 0 && x.handle == 0 && x.stack == 0) = some str ∧ (s.channel 0 0).retired = true ∧
    s.servingChannel 0 ≠ 0 ∧ (s.channel 0 (s.servingChannel 0)).spared < 3072 ∧ (s.channel 0 1).retired = false := by decide +kernel

/-- Requests in each state, with and without an authorisation and a change left. -/
theorem wit_ColdResetAndLifeCycle :
    let s (l : Nat) (a : Option Nat) (n : BitVec 4) : State := { base with lifecycle := l, authorisation := a, lcLeft := n }
    let v (t : Nat) : DWord := BitVec.ofNat 64 (2 ^ 63 + t)
    (s 1 none 1).registersOpen = true ∧ (v 2).getLsbD 63 = true ∧ (v 2).toNat % 8 = 2 ∧ (v 9).toNat % 8 = 1 ∧ (v 9).getLsbD 3 = true ∧
    (s 1 none 1).lifecycle = 1 ∧ (s 2 (some 3) 1).authorisation = some 3 ∧ (s 2 none 1).authorisation = none ∧ (s 3 (some 2) 15).lcLeft = 15 ∧
    (s 1 none 0).lcLeft = 0 ∧ (v 4).toNat % 8 = 4 ∧ (v 3).toNat % 8 = 3 ∧ (v 0).toNat % 8 = 0 := by
  intro s v
  and_intros <;> first | rfl | decide +kernel

/-- A change of the life cycle accepted and still to come, and none. -/
theorem wit_ColdResetAndLifeCycle_due :
    let s : State := { base with lcDue := some (1, true), lcResult := 1 }
    base.lcDue = none ∧ s.lcDue = some (1, true) ∧ s.registersOpen = true := by decide +kernel

/-- Each command waiting, with the shortest object that BEGIN takes, the last chunk and a whole object whose fields
are a paper's or an image's. -/
theorem wit_MailboxAndRegisters :
    let s (m : Mailbox) : State := { base with mailbox := m }
    let img : List Byte := leBytes 8 0x47385746 ++ leBytes 8 128 ++ List.replicate 112 0
    (∀ m ∈ [({ cmd := 1, busy := true, len := 128 } : Mailbox), { cmd := 1, busy := true, len := 64 },
        { cmd := 2, busy := true, isOpen := true, openLen := 128, next := 64, off := 64, cnt := 64 }, { cmd := 2, busy := true },
        { cmd := 3, busy := true }, { cmd := 3, busy := true, isOpen := true, openLen := 128, next := 128, object := img },
        { cmd := 4, busy := true }], (s m).mailbox = m ∧ m.busy = true) ∧ (s {}).mailbox.busy = false ∧ base.lifecycle ≠ 4 ∧ base.cxlDown = false ∧
    base.registersOpen = true ∧ leValue (img.take 4) = 0x47385746 ∧ leValue ((img.drop 8).take 8) = img.length ∧
    (∀ b ∈ (img.drop 16).take 48, b = 0) ∧ 0x7FFF8 + 8 ≤ 0x80000 ∧ base.reef = 0 ∧ ({ base with reef := 12 } : State).reef = 12 := by decide +kernel

/-- From reset, with a word placed next to issue, one act can happen: the issue of quadrant 0 of core 0. -/
theorem wit_StepRunsDecoded :
    let s := State.reset.withFetchWord 32 0x7F000003
    pickAct s.tick (s.acts exec) = some ⟨.issue 0, execIssuePly 0 0⟩ := by
  intro s
  have he : s.internalEvents = [] := List.length_eq_zero_iff.mp (by decide +kernel)
  have ha : s.stallActs exec = [] := List.length_eq_zero_iff.mp (by decide +kernel)
  have hc : s.liveCores = [0] := by decide +kernel
  have hq : s.canForm 0 0 = true ∧ s.canForm 0 1 = false ∧ s.canForm 0 2 = false ∧ s.canForm 0 3 = false := by decide +kernel
  have hi : s.inputs = [] := rfl
  have hr : s.outsideRest = none := rfl
  clear_value s
  unfold State.acts
  simp [ha, he, hi, hr, State.inputActs, State.issueActs, hc, hq, List.range_succ, pickAct]

theorem wit_StepRunsDecoded_formed :
    (match exec (.issuePly 0 0) (State.reset.withFetchWord 32 0) with | .next u => u.ply == some one | _ => false) = true ∧
    decode one.word = .ok (.iadd false 0 0 0 .w32) := by decide +kernel

/-- The invariants hold after reset and where a thread is about to issue, and a step from there goes on. -/
theorem wit_Invariants :
    State.reset.MemOk ∧ State.reset.Orderly ∧ base.MemOk ∧ base.Orderly ∧ base.inputs = [] ∧
    Instr.wellFormed (.iadd false 0 0 0 .w32) = true ∧ Instr.encode (.iadd false 0 0 0 .w32) = some 0 := by
  unfold State.MemOk State.Orderly; decide +kernel

/-- A well-formed instruction with a word and an event without one. -/
theorem wit_DecodeAndEncodeAgree :
    Instr.wellFormed (.iadd false 0 0 0 .w32) = true ∧ Instr.isEvent (.iadd false 0 0 0 .w32) = false ∧
    Instr.isEvent .coldReset = true := by decide +kernel

end Sys2Proof.Tests
end

section
/-! SUPPORT. Words of the integer instructions as the decoder reads them. -/
namespace Sys2Proof.Machine
open Sys2Proof Sys2Proof.Laws

/-- The fields of a word: the marker, the major, D and A, and what lies in the ten bits below them (R29 to R31). -/
theorem word_fields (sw : Bool) (m d a : BitVec 7) (k : BitVec 10) {w : Word}
    (hw : BitVec.ofBool sw ++ m ++ d ++ a ++ k = w) :
    Sys2Proof.sw w = sw ∧ w.extractLsb' 24 7 = m ∧ w.extractLsb' 17 7 = d ∧ w.extractLsb' 10 7 = a ∧
      ∀ lo n, Nat.ble (lo + n) 10 = true → w.extractLsb' lo n = k.extractLsb' lo n := by
  subst hw
  refine ⟨?_, ?_, ?_, ?_, fun lo n h => ext_lo _ _ _ _ h⟩
  · rw [Sys2Proof.sw, bit_hi _ _ _ rfl, bit_hi _ _ _ rfl, bit_hi _ _ _ rfl, bit_hi _ _ _ rfl, bit_one]
  · rw [ext_hi _ _ _ _ rfl, ext_hi _ _ _ _ rfl, ext_hi _ _ _ _ rfl, ext_lo _ _ _ _ rfl, ext_all]
  · rw [ext_hi _ _ _ _ rfl, ext_hi _ _ _ _ rfl, ext_lo _ _ _ _ rfl, ext_all]
  · rw [ext_hi _ _ _ _ rfl, ext_lo _ _ _ _ rfl, ext_all]

/-- LEA decodes whatever its operands are: an odd pair is refused at issue, not by the decoder. -/
theorem decode_lea (sw : Bool) (d a b : BitVec 7) (f : BitVec 3) :
    decode (BitVec.ofBool sw ++ 0x1B#7 ++ d ++ a ++ b ++ f) = .ok (.lea sw d a b f) := by
  have hw : (BitVec.ofBool sw ++ 0x1B#7 ++ d ++ a ++ (b ++ f) : Word) =
      BitVec.ofBool sw ++ 0x1B#7 ++ d ++ a ++ b ++ f :=
    BitVec.append_assoc.symm
  obtain ⟨hsw, hm, hd, ha, hlow⟩ := word_fields sw 0x1B#7 d a (b ++ f) hw
  have hb := (hlow 3 7 rfl).trans ((ext_hi b f 3 7 rfl).trans (ext_all b))
  have hf := (hlow 0 3 rfl).trans ((ext_lo b f 0 3 rfl).trans (ext_all f))
  exact decode_row hm rfl (firstRow_hit (by simp only [rowLea, hsw, hd, ha, hb, hf]))

/-- So does LEA_IMM. -/
theorem decode_leaImm (sw : Bool) (d a : BitVec 7) (k : BitVec 10) :
    decode (BitVec.ofBool sw ++ 0x1C#7 ++ d ++ a ++ k) = .ok (.leaImm sw d a k) := by
  obtain ⟨hsw, hm, hd, ha, hlow⟩ := word_fields sw 0x1C#7 d a k rfl
  have hk := (hlow 0 10 rfl).trans (ext_all k)
  exact decode_row hm rfl (firstRow_hit (by simp only [rowLeaImm, hsw, hd, ha, hk]))

/-- An instruction on single registers alone, with neither tiles nor a scope, is well formed whatever they are. -/
theorem wellFormed_of_single {i : Instr} (hr : ∀ o ∈ i.regOperands, o.align = 1) (ht : i.tileOperands = [])
    (hs : i.scopeOk = true) (hn : i.shiftOk = true) : i.wellFormed = true := by
  have ha : ∀ o ∈ i.regOperands, o.first % o.align = 0 := fun o ho => by rw [hr o ho, Nat.mod_one]
  simpa [Instr.wellFormed, Instr.aligned, hs, hn, ht] using ha

theorem decode_idiv (sw : Bool) (d a b : BitVec 7) (t : Sgn) :
    decode (BitVec.ofBool sw ++ 0x07#7 ++ d ++ a ++ b ++ 0#2 ++ (if t = .i32 then 0#1 else 1#1)) =
      .ok (.idiv sw d a b t) :=
  RoundTrip.idiv sw d a b t (wellFormed_of_single (by simp [Instr.regOperands]) rfl rfl rfl) _ (by cases t <;> rfl)

theorem decode_irem (sw : Bool) (d a b : BitVec 7) (t : Sgn) :
    decode (BitVec.ofBool sw ++ 0x08#7 ++ d ++ a ++ b ++ 0#2 ++ (if t = .i32 then 0#1 else 1#1)) =
      .ok (.irem sw d a b t) :=
  RoundTrip.irem sw d a b t (wellFormed_of_single (by simp [Instr.regOperands]) rfl rfl rfl) _ (by cases t <;> rfl)

theorem decode_bfxN32 (sw : Bool) (d a : BitVec 7) (p n : BitVec 5) :
    decode (BitVec.ofBool sw ++ 0x11#7 ++ d ++ a ++ p ++ n) = .ok (.bfxN32 sw d a p n) :=
  RoundTrip.bfxN32 sw d a p n (wellFormed_of_single (by simp [Instr.regOperands]) rfl rfl rfl) _ rfl

theorem decode_bfxI32 (sw : Bool) (d a : BitVec 7) (p n : BitVec 5) :
    decode (BitVec.ofBool sw ++ 0x12#7 ++ d ++ a ++ p ++ n) = .ok (.bfxI32 sw d a p n) :=
  RoundTrip.bfxI32 sw d a p n (wellFormed_of_single (by simp [Instr.regOperands]) rfl rfl rfl) _ rfl

theorem decode_bfi (sw : Bool) (d a : BitVec 7) (p n : BitVec 5) :
    decode (BitVec.ofBool sw ++ 0x13#7 ++ d ++ a ++ p ++ n) = .ok (.bfi sw d a p n) :=
  RoundTrip.bfi sw d a p n (wellFormed_of_single (by simp [Instr.regOperands]) rfl rfl rfl) _ rfl

end Sys2Proof.Machine
end

section
/-! SUPPORT. A precise trap that every thread of an issuing ply takes (R295, R296). -/
namespace Sys2Proof.Machine
open Sys2Proof

/-- The frame of R296 names the grid that the team runs, which no instruction of a thread changes. -/
theorem OnlyThreads.gridOf {s t : State} {ms : List ThreadRef} (h : OnlyThreads s t ms) (n : Nat) :
    t.gridOf n = s.gridOf n := by
  have hg : t.grids = s.grids := (congrArg State.grids h.rest).trans rfl
  have ht : (t.team n).grid = (s.team n).grid := (congrArg Team.grid (h.teams n) :)
  simp only [State.gridOf, State.grid, hg, ht]

/-- A thread that takes its traps in a handler enters it; a precise trap touches no pending fault (R295, R296). -/
theorem State.issueTrap_runs {s : State} {th : ThreadRef} (r : Report) (back : DWord) (h : s.holds th = true)
    (hh : s.handles th) :
    RunsTo s (s.issueTrap th .precise r back) th
      ((s.thread th).trapped r false back (s.gridOf th.team).handler s.tick) := by
  obtain ⟨hresp, hhandler, hin⟩ := hh
  have e : s.issueTrap th .precise r back =
      s.modThread th (Thread.trapped r false back (s.gridOf th.team).handler s.tick) := by
    simp only [State.issueTrap, State.meetTrap, hresp, hhandler, hin, ne_eq, not_false_eq_true, and_self,
      Bool.false_eq_true, ↓reduceIte, State.enterHandler, State.setTrapRegs, State.modThread_modThread]
    rfl
  rw [e]
  exact RunsTo.modThread h

/-- An instruction that traps in every thread of the ply, with no effect of its own. -/
theorem traps_of_trap {s : State} {i : Instr} {p : Ply} {body : ThreadRef → State → Effect} {code : Word}
    {addr aux : ThreadRef → DWord} (h : Issuing s i p) (hx : exec i s = runPly i body s)
    (hs : ∀ th ∈ p.members, s.handles th)
    (hb : ∀ th ∈ p.members, ∀ t, Midway s t p.members → t.thread th = (s.thread th).entering i →
      body th t = .trap t code (addr th) (aux th)) : Traps s i p code addr aux := by
  unfold Traps
  rw [hx]
  refine runPly_runs h fun th hm t ht he => ?_
  obtain ⟨hresp, hhandler, hin⟩ := hs th hm
  have hh : t.holds th = true := by rw [ht.holds]; exact h.here th hm
  have hg : t.gridOf th.team = s.gridOf th.team := ht.frame.gridOf _
  have e := State.issueTrap_runs ⟨(t.thread th).pc, code, addr th, aux th⟩ (t.thread th).pc hh
    ⟨hresp, by rw [hg]; exact hhandler, by rw [he]; exact hin⟩
  rw [he, hg, ht.frame.tick] at e
  rw [hb th hm t ht he, Effect.apply, he]
  exact e

end Sys2Proof.Machine
end

section
/-! PROOFS. Integer arithmetic (R60 to R63). -/
namespace Sys2Proof.Machine
open Sys2Proof

/-- SAT is the only flag of a clamp: bit 5 (R50). -/
theorem clampTo_bits (t : Sgn) (x : Int) :
    (clampTo t x).2.bits = if max t.low (min t.high x) = x then 0 else 0x20 := by
  by_cases h : max t.low (min t.high x) = x
  · simp only [clampTo, h, ne_eq, not_true_eq_false, decide_false, ↓reduceIte]; rfl
  · simp only [clampTo, h, ne_eq, not_false_eq_true, decide_true, ↓reduceIte]; rfl

theorem minWord_eq (t : Sgn) (a b : Word) : minWord t a b = if t.value a ≤ t.value b then a else b := by
  unfold minWord
  by_cases h : t.value a ≤ t.value b
  · rw [if_neg (by omega), if_pos h]
  · rw [if_pos (by omega), if_neg h]

theorem maxWord_eq (t : Sgn) (a b : Word) : maxWord t a b = if t.value b ≤ t.value a then a else b := by
  unfold maxWord
  by_cases h : t.value b ≤ t.value a
  · rw [if_neg (by omega), if_pos h]
  · rw [if_pos (by omega), if_neg h]

/-- The magnitude of a word modulo 2^32: the least word is its own. -/
theorem ofNat_natAbs_toInt (a : Word) : BitVec.ofNat 32 a.toInt.natAbs = if a.toInt < 0 then -a else a := by
  by_cases h : a.toInt < 0
  · rw [if_pos h, ← BitVec.ofInt_natCast, Int.ofNat_natAbs_of_nonpos (by omega), BitVec.ofInt_neg, BitVec.ofInt_toInt]
  · rw [if_neg h, ← BitVec.ofInt_natCast, Int.natAbs_of_nonneg (by omega), BitVec.ofInt_toInt]

/-- The word of a borrowing difference is the low word of the exact one. -/
theorem subBorrow_eq (a b : Word) (c : Bool) :
    subBorrow a b c =
      (BitVec.ofInt 32 ((a.toNat : Int) - b.toNat - c.toNat), decide ((a.toNat : Int) - b.toNat - c.toNat < 0)) := by
  have hsub (x y : Int) : BitVec.ofInt 32 (x - y) = BitVec.ofInt 32 x - BitVec.ofInt 32 y := by
    rw [Int.sub_eq_add_neg, BitVec.ofInt_add, BitVec.ofInt_neg, BitVec.sub_eq_add_neg]
  have hword (x : Word) : BitVec.ofInt 32 (x.toNat : Int) = x := by
    rw [BitVec.ofInt_natCast, BitVec.ofNat_toNat, BitVec.setWidth_eq]
  have hcarry : BitVec.ofInt 32 (c.toNat : Int) = (BitVec.ofBool c).setWidth 32 := by cases c <;> rfl
  rw [subBorrow, hsub, hsub, hword, hword, hcarry]

/-- The remainder is what the truncated quotient leaves of the dividend. -/
theorem remWord_eq (t : Sgn) (a b : Word) :
    remWord t a b = if b = 0 then a else BitVec.ofInt 32 (t.value a - t.value b * (t.value a).tdiv (t.value b)) := by
  rw [remWord, Int.tmod_def]

/-- The shape of the carry chain (R61): a register and the predicate of the carry, from the thread's state. -/
theorem carryOp_completes {s : State} {i : Instr} {p : Ply} (d : BitVec 7) (c : BitVec 3) (f : Thread → Word × Bool)
    (h : Issuing s i p) (hd : Settled s i p d.toNat 1) (hc : SettledPred s i p c.toNat)
    (hx : exec i s = runPly i (fun th s =>
      .go ((s.setReg th d.toNat (f (s.thread th)).1).setPred th c.toNat (f (s.thread th)).2)) s) :
    Completes s i p fun _ u => (u.write d.toNat (f u).1).writePred c.toNat (f u).2 :=
  completes_of_go h hx fun th hm t _ hh he => by
    have e1 := State.setReg_runs d.toNat (f (t.thread th)).1 hh (by rw [he]; exact hd th hm)
    have hp : ((t.thread th).write d.toNat (f (t.thread th)).1).predSettled c.toNat := by rw [he]; exact hc th hm
    have e2 := State.setPred_runs c.toNat (f (t.thread th)).2 (by rw [e1.holds]; exact hh) (by rw [e1.thread]; exact hp)
    rw [e1.thread] at e2
    exact ⟨_, rfl, e1.trans e2⟩

/-- Settles O1. Each form is its shared shape with the value that its word function gives. -/
theorem integerArithmetic : Obligations.IntegerArithmetic := by
  refine ⟨fun sw d a b w t k => ⟨?iadd, ?isub, ?iaddSat, ?isubSat, ?iaddImm, ?isubImm, ?imad, ?imin, ?imax,
      ?iabs, ?ineg⟩,
    fun sw d a b c s p => ⟨fun h hd hc => ?iaddc, fun h hd hc => ?isubb⟩,
    fun sw d a b w t => ⟨?imul, ?imulh, ?idiv, ?irem, decode_idiv sw d a b t, decode_irem sw d a b t⟩⟩
  case iadd => exact writesWidth_of (fun _ => rfl) fun _ => rfl
  case isub => exact writesWidth_of (fun _ => rfl) fun _ => rfl
  case iaddSat => exact writesRegFlags_of (fun _ => rfl) fun _ => Prod.ext rfl (clampTo_bits _ _)
  case isubSat => exact writesRegFlags_of (fun _ => rfl) fun _ => Prod.ext rfl (clampTo_bits _ _)
  case iaddImm => exact writesReg_of (fun _ => rfl) fun _ => rfl
  case isubImm => exact writesReg_of (fun _ => rfl) fun _ => rfl
  case imad => exact writesWidth_of (fun _ => rfl) fun _ => rfl
  case imin => exact writesReg_of (fun _ => rfl) fun _ => minWord_eq _ _ _
  case imax => exact writesReg_of (fun _ => rfl) fun _ => maxWord_eq _ _ _
  case iabs => exact writesReg_of (fun _ => rfl) fun _ => ofNat_natAbs_toInt _
  case ineg => exact writesReg_of (fun _ => rfl) fun _ => BitVec.zero_sub _
  case iaddc =>
    exact carryOp_completes d c (fun u => addCarry (u.reg a.toNat) (u.reg b.toNat) (u.pred c.toNat)) h hd hc rfl
  case isubb =>
    refine (carryOp_completes d c (fun u => subBorrow (u.reg a.toNat) (u.reg b.toNat) (u.pred c.toNat))
      h hd hc rfl).congr fun _ _ _ => ?_
    rw [subBorrow_eq]
  case imul => exact writesWidth_of (fun _ => rfl) fun _ => rfl
  case imulh => exact writesReg_of (fun _ => rfl) fun _ => rfl
  case idiv => exact writesReg_of (fun _ => rfl) fun _ => rfl
  case irem => exact writesReg_of (fun _ => rfl) fun _ => remWord_eq _ _ _

end Sys2Proof.Machine
end

section
/-! PROOFS. Logic, shifts, counts and bit fields (R64 to R66). -/
namespace Sys2Proof.Machine
open Sys2Proof

/-! ### Shifts -/

/-- Of a single register only the low word is written. -/
theorem writesWidth_of_low {i : Instr} {d : BitVec 7} {f g : Thread → DWord}
    (hx : ∀ s, exec i s = runPly i (widthOp .w32 d f) s) (e : ∀ u, (f u).setWidth 32 = (g u).setWidth 32) :
    WritesWidth i .w32 d g :=
  fun s _ h hd => (widthOp_completes .w32 d f h hd (hx s)).congr fun _ _ u => congrArg (u.write d.toNat) (e u)

/-- A word widened and narrowed again is the word. -/
theorem setWidth_word_dword (a : Word) : (a.setWidth 64).setWidth 32 = a := by simp

theorem shiftLeft_w32 (a : Word) (n : Nat) :
    shiftLeft .w32 (a.setWidth 64) n = BitVec.ofNat 64 (a.toNat * 2 ^ n % 2 ^ 32) := by
  apply BitVec.eq_of_toNat_eq
  simp [shiftLeft, Nat.shiftLeft_eq]

theorem shiftLeft_w64 (a : DWord) (n : Nat) : shiftLeft .w64 a n = BitVec.ofNat 64 (a.toNat * 2 ^ n) := by
  apply BitVec.eq_of_toNat_eq
  simp [shiftLeft, Nat.shiftLeft_eq]

theorem ushiftRight_eq_ofNat {w : Nat} (a : BitVec w) (n : Nat) : a >>> n = BitVec.ofNat w (a.toNat / 2 ^ n) := by
  rw [← Nat.shiftRight_eq_div_pow, ← BitVec.toNat_ushiftRight, BitVec.ofNat_toNat, BitVec.setWidth_eq]

theorem shiftRight_w32 (a : Word) (n : Nat) :
    shiftRight .w32 (a.setWidth 64) n = BitVec.ofNat 64 (a.toNat / 2 ^ n) := by
  have hlt : a.toNat / 2 ^ n < 2 ^ 32 := lt_of_le_of_lt (Nat.div_le_self _ _) a.isLt
  rw [shiftRight, setWidth_word_dword, ushiftRight_eq_ofNat, BitVec.setWidth_ofNat_of_le_of_lt (by decide) hlt]

theorem shiftRight_w64 (a : DWord) (n : Nat) : shiftRight .w64 a n = BitVec.ofNat 64 (a.toNat / 2 ^ n) :=
  ushiftRight_eq_ofNat a n

/-- An arithmetic shift is the floor of the signed value's quotient, modulo the width. -/
theorem sshiftRight_eq_ofInt {w : Nat} (a : BitVec w) (n : Nat) : a.sshiftRight n = BitVec.ofInt w (a.toInt / 2 ^ n) := by
  rw [← BitVec.ofInt_toInt (x := a.sshiftRight n), BitVec.toInt_sshiftRight, Int.shiftRight_eq_div_pow]
  rfl

/-- The low word of an integer's double word is the integer's word. -/
theorem setWidth_ofInt_dword (x : Int) : (BitVec.ofInt 64 x).setWidth 32 = BitVec.ofInt 32 x := by
  apply BitVec.eq_of_toNat_eq
  rw [BitVec.toNat_setWidth, BitVec.toNat_ofInt, BitVec.toNat_ofInt]
  omega

theorem shiftArith_w32 (a : Word) (n : Nat) :
    (shiftArith .w32 (a.setWidth 64) n).setWidth 32 = (BitVec.ofInt 64 (a.toInt / 2 ^ n)).setWidth 32 := by
  rw [shiftArith, setWidth_word_dword, setWidth_word_dword, sshiftRight_eq_ofInt, setWidth_ofInt_dword]

theorem shiftArith_w64 (a : DWord) (n : Nat) : shiftArith .w64 a n = BitVec.ofInt 64 (a.toInt / 2 ^ n) :=
  sshiftRight_eq_ofInt a n

/-! ### Counts and bit fields -/

/-- The first place of `n` where `p` holds, or `n`: all before it fail. -/
theorem firstPlace_spec (p : Nat → Bool) (n : Nat) :
    let m := ((List.range n).find? p).getD n
    m ≤ n ∧ (∀ k, k < m → p k = false) ∧ (m < n → p m = true) := by
  cases h : (List.range n).find? p with
  | none => simpa [List.find?_range_eq_none] using h
  | some m =>
    obtain ⟨hp, hm, hlt⟩ := List.find?_range_eq_some.mp h
    have hm : m < n := List.mem_range.mp hm
    exact ⟨hm.le, fun k hk => by simpa using hlt k hk, fun _ => hp⟩

/-- A word gathered bit by bit has the bits that were set. -/
theorem getLsbD_gather (p : Nat → Bool) (n k : Nat) (hk : k < 32) :
    ((List.range n).foldl (fun (r : Word) j => if p j then r ||| (1#32 <<< j) else r) 0).getLsbD k =
      (decide (k < n) && p k) := by
  induction n with
  | zero => simp
  | succ n ih =>
    rw [List.range_succ, List.foldl_append, List.foldl_cons, List.foldl_nil]
    have hbit : (1#32 <<< n).getLsbD k = decide (k = n) := by
      rw [← BitVec.twoPow_eq, BitVec.getLsbD_twoPow]
      grind
    split
    · next hset =>
      rw [BitVec.getLsbD_or, ih, hbit]
      grind
    · next hclear =>
      rw [ih]
      grind

theorem getLsbD_reverseBits (a : Word) {k : Nat} (hk : k < 32) : (reverseBits a).getLsbD k = a.getLsbD (31 - k) := by
  rw [reverseBits, getLsbD_gather (fun k => a.getLsbD (31 - k)) 32 k hk, decide_eq_true hk, Bool.true_and]

theorem getLsbD_bitField_unsigned (a : Word) (p n : BitVec 5) {k : Nat} (hk : k < 32) :
    (bitField false a p.toNat (n.toNat + 1)).getLsbD k = (decide (k ≤ n.toNat) && a.getLsbD (p.toNat + k)) := by
  have hp : p.toNat + k < 64 := by omega
  simp [bitField, hk, hp]

/-- A word taken as signed, above bit 31, repeats its sign. -/
theorem getLsbD_signExtend_ushiftRight (a : Word) {p k : Nat} (h : p + k < 64) :
    (a.signExtend 64 >>> p).getLsbD k = a.getLsbD (min 31 (p + k)) := by
  rw [BitVec.getLsbD_ushiftRight, BitVec.getLsbD_signExtend, decide_eq_true h, Bool.true_and]
  split
  · next hlt => rw [min_eq_right (by omega)]
  · next hge => rw [min_eq_left (by omega), BitVec.msb_eq_getLsbD_last]

theorem getLsbD_bitField_signed (a : Word) (p n : BitVec 5) {k : Nat} (hk : k < 32) :
    (bitField true a p.toNat (n.toNat + 1)).getLsbD k = a.getLsbD (min 31 (p.toNat + min k n.toNat)) := by
  simp only [bitField, ↓reduceIte]
  rw [BitVec.getLsbD_signExtend, decide_eq_true hk, Bool.true_and]
  split
  · next hlt =>
    rw [BitVec.getLsbD_setWidth, decide_eq_true hlt, Bool.true_and, getLsbD_signExtend_ushiftRight a (by omega),
      min_eq_left (a := k) (by omega)]
  · next hge => rw [BitVec.msb_setWidth'', getLsbD_signExtend_ushiftRight a (by omega), min_eq_right (a := k) (by omega)]

/-- The mask of a field has the bits from its position on, as many as its width. -/
theorem getLsbD_fieldMask (p w : Nat) {k : Nat} (hk : k < 32) :
    ((BitVec.allOnes w).setWidth 32 <<< p).getLsbD k = decide (p ≤ k ∧ k < p + w) := by
  simp only [BitVec.getLsbD_shiftLeft, BitVec.getLsbD_setWidth, BitVec.getLsbD_allOnes]
  grind

theorem getLsbD_insertField (d a : Word) (p n : BitVec 5) {k : Nat} (hk : k < 32) :
    (insertField d a p.toNat (n.toNat + 1)).getLsbD k =
      if p.toNat ≤ k ∧ k ≤ p.toNat + n.toNat then a.getLsbD (k - p.toNat) else d.getLsbD k := by
  simp only [insertField, BitVec.getLsbD_or, BitVec.getLsbD_and, BitVec.getLsbD_not, getLsbD_fieldMask _ _ hk,
    BitVec.getLsbD_shiftLeft, hk, decide_true, Bool.true_and]
  by_cases h : p.toNat ≤ k ∧ k ≤ p.toNat + n.toNat
  · have hf : p.toNat ≤ k ∧ k < p.toNat + (n.toNat + 1) := by omega
    simp [h, hf, not_lt.mpr h.1]
  · have hf : ¬(p.toNat ≤ k ∧ k < p.toNat + (n.toNat + 1)) := by omega
    simp [h, hf]

/-- CLZ's answer and CTZ's are places of a word, or 32. -/
theorem toNat_leadZeros (a : Word) : (BitVec.ofNat 32 (leadZeros a)).toNat = leadZeros a := by
  have h := (firstPlace_spec (fun k => a.getLsbD (31 - k)) 32).1
  exact Nat.mod_eq_of_lt (lt_of_le_of_lt h (by decide))

theorem toNat_trailZeros (a : Word) : (BitVec.ofNat 32 (trailZeros a)).toNat = trailZeros a := by
  have h := (firstPlace_spec (fun k => a.getLsbD k) 32).1
  exact Nat.mod_eq_of_lt (lt_of_le_of_lt h (by decide))

/-- Settles O2. Logic and the unary forms are their shared shape; a shift is its arithmetic, by width; a count and a
field are read off bit by bit. -/
theorem logicShiftsAndFields : Obligations.LogicShiftsAndFields := by
  refine ⟨fun sw d a b w k => ⟨?andR, ?orR, ?xorR, ?andnR, ?andImm⟩,
    fun sw d a b w n6 n5 => ?shifts,
    fun sw d a w p n => ⟨?popc, ?clz, ?ctz, ?brev, ?bfxN32, ?bfxI32, ?bfi, decode_bfxN32 sw d a p n,
      decode_bfxI32 sw d a p n, decode_bfi sw d a p n⟩⟩
  case andR => exact writesWidth_of (fun _ => rfl) fun _ => rfl
  case orR => exact writesWidth_of (fun _ => rfl) fun _ => rfl
  case xorR => exact writesWidth_of (fun _ => rfl) fun _ => rfl
  case andnR => exact writesWidth_of (fun _ => rfl) fun _ => rfl
  case andImm => exact writesReg_of (fun _ => rfl) fun _ => rfl
  case shifts =>
    cases w with
    | w32 =>
      refine ⟨?shl, ?shlImm, ?shr, ?shrImm, ?sar, ?sarImm, ?rol, ?rolImm⟩
      case shl => exact writesWidth_of (fun _ => rfl) fun _ => shiftLeft_w32 _ _
      case shlImm => exact writesWidth_of (fun _ => rfl) fun _ => shiftLeft_w32 _ _
      case shr => exact writesWidth_of (fun _ => rfl) fun _ => shiftRight_w32 _ _
      case shrImm => exact writesWidth_of (fun _ => rfl) fun _ => shiftRight_w32 _ _
      case sar => exact writesWidth_of_low (fun _ => rfl) fun _ => shiftArith_w32 _ _
      case sarImm => exact writesWidth_of_low (fun _ => rfl) fun _ => shiftArith_w32 _ _
      case rol => exact writesReg_of (fun _ => rfl) fun _ => rfl
      case rolImm => exact writesReg_of (fun _ => rfl) fun _ => rfl
    | w64 =>
      refine ⟨?shl, ?shlImm, ?shr, ?shrImm, ?sar, ?sarImm, ?rol, ?rolImm⟩
      case shl => exact writesWidth_of (fun _ => rfl) fun _ => shiftLeft_w64 _ _
      case shlImm => exact writesWidth_of (fun _ => rfl) fun _ => shiftLeft_w64 _ _
      case shr => exact writesWidth_of (fun _ => rfl) fun _ => shiftRight_w64 _ _
      case shrImm => exact writesWidth_of (fun _ => rfl) fun _ => shiftRight_w64 _ _
      case sar => exact writesWidth_of (fun _ => rfl) fun _ => shiftArith_w64 _ _
      case sarImm => exact writesWidth_of (fun _ => rfl) fun _ => shiftArith_w64 _ _
      case rol => exact writesReg_of (fun _ => rfl) fun _ => rfl
      case rolImm => exact writesReg_of (fun _ => rfl) fun _ => rfl
  case popc => exact writesReg_of (fun _ => rfl) fun _ => rfl
  case clz =>
    refine ⟨_, writesReg_of (fun _ => rfl) fun _ => rfl, fun u => ?_⟩
    rw [toNat_leadZeros]
    exact firstPlace_spec _ 32
  case ctz =>
    refine ⟨_, writesReg_of (fun _ => rfl) fun _ => rfl, fun u => ?_⟩
    rw [toNat_trailZeros]
    exact firstPlace_spec _ 32
  case brev => exact ⟨_, writesReg_of (fun _ => rfl) fun _ => rfl, fun _ _ => getLsbD_reverseBits _⟩
  case bfxN32 => exact ⟨_, writesReg_of (fun _ => rfl) fun _ => rfl, fun _ _ => getLsbD_bitField_unsigned _ p n⟩
  case bfxI32 => exact ⟨_, writesReg_of (fun _ => rfl) fun _ => rfl, fun _ _ => getLsbD_bitField_signed _ p n⟩
  case bfi => exact ⟨_, writesReg_of (fun _ => rfl) fun _ => rfl, fun _ _ => getLsbD_insertField _ _ p n⟩

end Sys2Proof.Machine
end

section
/-! PROOFS. Moves, addresses and special registers (R69 to R71). -/
namespace Sys2Proof.Machine
open Sys2Proof

/-! ### Special registers -/

/-- What GETS reads stands the same while the threads of its ply run: of a thread it reads FLAGS, the trap registers
and the window base, which entering the instruction leaves. -/
theorem Midway.special {s t : State} {ms : List ThreadRef} {i : Instr} {th : ThreadRef} (h : Midway s t ms)
    (he : t.thread th = (s.thread th).entering i) (n : Nat) : t.special th n = s.special th n := by
  have hgroup : { t.group th with threads := [] } = { s.group th with threads := [] } := h.frame.groups _ _
  have hteam := h.frame.teams th.team
  have hindex : (t.team th.team).index = (s.team th.team).index := (congrArg Team.index hteam :)
  have hcore : (t.team th.team).core = (s.team th.team).core := (congrArg Team.core hteam :)
  have htenant : (t.team th.team).tenant = (s.team th.team).tenant := (congrArg Team.tenant hteam :)
  have hrole : (t.group th).role = (s.group th).role := (congrArg Group.role hgroup :)
  have hquad : (t.group th).quad = (s.group th).quad := (congrArg Group.quad hgroup :)
  have hbudget : (t.group th).budget = (s.group th).budget := (congrArg Group.budget hgroup :)
  have hgrid : t.grid (t.team th.team).grid = s.grid (s.team th.team).grid := h.frame.gridOf th.team
  have hcycles : ∀ c, t.cyclesOf c = s.cyclesOf c := fun c => by rw [h.frame.rest]; rfl
  have hflags : (t.thread th).flags = (s.thread th).flags := by rw [he]; rfl
  have htrap : (t.thread th).trap = (s.thread th).trap := by rw [he]; rfl
  have hwin : (t.thread th).win = (s.thread th).win := by rw [he]; rfl
  simp only [State.special, hindex, hcore, htenant, hrole, hquad, hbudget, hgrid, hcycles, hflags, htrap, hwin]

/-- The rows of Table 2.3, in the order of their selectors. -/
theorem State.special_listed (s : State) (th : ThreadRef) :
    let t := s.thread th
    let m := s.team th.team
    let g := s.grid m.grid
    let w (n : ℕ) : Option (ℕ × DWord) := some (1, BitVec.ofNat 64 n)
    let cluster := m.core % 96 / 8
    (List.range 24).map (s.special th) =
      [w th.lane, w (min th.group 16), w (s.group th).role, w m.index, w (m.index % g.nx), w (m.index / g.nx % g.ny),
        w (m.index / g.nx / g.ny), w g.nx, w g.ny, w g.nz, w (s.group th).quad, w m.core, w cluster, w (m.core / 96),
        w (4 * cluster + m.core % 96 / 2 % 4), some (2, BitVec.ofNat 64 (s.cyclesOf m.core)), w t.flags.toNat, w m.tenant,
        some (2, t.trap.pc), w t.trap.code.toNat, some (2, t.trap.addr), some (2, t.trap.aux), w (s.group th).budget,
        w t.win] := by
  simp only [BitVec.ofNat_toNat]
  rfl

theorem State.special_unlisted (s : State) (th : ThreadRef) {n : Nat} (h : 24 ≤ n) : s.special th n = none := by
  obtain ⟨k, rfl⟩ := Nat.exists_eq_add_of_le' h
  rfl

/-! ### GETS and SETS -/

section
variable {s : State} {p : Ply} {sw : Bool} {d : BitVec 7} {k : BitVec 10}

theorem gets_completes_word {v : ThreadRef → DWord} (h : Issuing s (.gets sw d k) p)
    (hd : Settled s (.gets sw d k) p d.toNat 1) (hv : ∀ th ∈ p.members, s.special th k.toNat = some (1, v th)) :
    Completes s (.gets sw d k) p fun th u => u.write d.toNat ((v th).setWidth 32) :=
  completes_of_go h rfl fun th hm t ht hh he =>
    ⟨t.setReg th d.toNat ((v th).setWidth 32), by simp [ht.special he, hv th hm],
      State.setReg_runs _ _ hh (by rw [he]; exact hd th hm)⟩

theorem gets_completes_pair {v : ThreadRef → DWord} (h : Issuing s (.gets sw d k) p)
    (hd : Settled s (.gets sw d k) p d.toNat 2) (hv : ∀ th ∈ p.members, s.special th k.toNat = some (2, v th))
    (heven : d.toNat % 2 = 0) : Completes s (.gets sw d k) p fun th u => u.writePair d.toNat (v th) :=
  completes_of_go h rfl fun th hm t ht hh he =>
    ⟨t.setPair th d.toNat (v th), by simp [ht.special he, hv th hm, heven],
      State.setPair_runs _ _ hh (by rw [he]; exact hd th hm)⟩

/-- A selector that Table 2.3 does not list is illegal, and AUX names it (R71). -/
theorem gets_traps_unlisted (h : Issuing s (.gets sw d k) p) (hs : ∀ th ∈ p.members, s.handles th)
    (hv : ∀ th ∈ p.members, s.special th k.toNat = none) :
    Traps s (.gets sw d k) p 0x002 (fun _ => 0) fun _ => k.setWidth 64 :=
  traps_of_trap h rfl hs fun th hm t ht he => by simp [ht.special he, hv th hm, codeIllegalOperand]

/-- An odd D of a 64-bit register is illegal (R18, R71). -/
theorem gets_traps_odd (h : Issuing s (.gets sw d k) p) (hs : ∀ th ∈ p.members, s.handles th)
    (hv : ∀ th ∈ p.members, ∃ v, s.special th k.toNat = some (2, v)) (hodd : d.toNat % 2 = 1) :
    Traps s (.gets sw d k) p 0x002 (fun _ => 0) fun _ => ((Instr.gets sw d k).encode.getD 0).setWidth 64 :=
  traps_of_trap h rfl hs fun th hm t ht he => by
    obtain ⟨v, hv⟩ := hv th hm
    simp [ht.special he, hv, hodd, codeIllegalOperand]

theorem sets_completes_flags {a : BitVec 7} (h : Issuing s (.sets sw a 0x10) p) :
    Completes s (.sets sw a 0x10) p fun _ u => { u with flags := (u.reg a.toNat).setWidth 6 } :=
  completes_of_go h rfl fun _ _ _ _ hh _ => ⟨_, if_pos rfl, RunsTo.modThread hh⟩

/-- SETS reaches no register but FLAGS (R71). -/
theorem sets_traps_other {a : BitVec 7} (h : Issuing s (.sets sw a k) p) (hs : ∀ th ∈ p.members, s.handles th)
    (hk : k ≠ 0x10) :
    Traps s (.sets sw a k) p 0x002 (fun _ => 0) fun _ => ((Instr.sets sw a k).encode.getD 0).setWidth 64 :=
  traps_of_trap h rfl hs fun _ _ _ _ _ => if_neg hk

end

/-- LEA scales by a power of two, as a product and as a shift. -/
theorem one_shiftLeft_eq_ofNat (n : Nat) : (1#64 <<< n) = BitVec.ofNat 64 (2 ^ n) := by
  apply BitVec.eq_of_toNat_eq
  rw [BitVec.toNat_shiftLeft, BitVec.toNat_ofNat, Nat.shiftLeft_eq]
  simp

/-- Settles O4. The moves and addresses are their shared shapes; GETS reads what stands still while its ply runs, and
what it or SETS cannot name is a precise trap. -/
theorem movesAndSpecialRegisters : Obligations.MovesAndSpecialRegisters := by
  refine ⟨fun sw d a b w k17 k10 f =>
      ⟨?mov, ?movi, ?movh, ?lea, ?leaImm, decode_lea sw d a b f, decode_leaImm sw d a k10⟩,
    fun sw d a k s p => ⟨fun _ => gets_completes_word, fun _ => gets_completes_pair, sets_completes_flags, fun hs =>
      ⟨fun h => gets_traps_unlisted h hs, fun h => gets_traps_odd h hs, fun h => sets_traps_other h hs⟩⟩,
    fun s th => ⟨s.special_listed th, fun _ => s.special_unlisted th⟩⟩
  case mov => exact writesWidth_of (fun _ => rfl) fun _ => rfl
  case movi => exact writesReg_of (fun _ => rfl) fun _ => rfl
  case movh => exact writesReg_of (fun _ => rfl) fun _ => rfl
  case lea => exact writesPair_of (fun _ => rfl) fun _ => by rw [one_shiftLeft_eq_ofNat]
  case leaImm => exact writesPair_of (fun _ => rfl) fun _ => rfl

end Sys2Proof.Machine
end

section
/-! PROOFS. Floating minimum, maximum, comparison and selection (R86 to R88): a word that is no NaN compares as its
rank, the signed integer of its bits. -/
namespace Sys2Proof.Machine
open Sys2Proof Sys2Proof.Laws

/-! ### Signed magnitudes -/

/-- The integer of a sign and a magnitude. -/
def signedInt (neg : Bool) (n : Nat) : ℤ := if neg then -n else n

theorem signedInt_mul (neg : Bool) (m n : Nat) : signedInt neg (m * n) = signedInt neg m * n := by
  cases neg <;> simp [signedInt]

/-- Signed magnitudes keep their order when both are taken through a growing function that keeps 0. -/
theorem signedInt_lt_iff_of_strictMono {g : Nat → Nat} (hg : StrictMono g) (h0 : g 0 = 0) (s t : Bool) (m n : Nat) :
    signedInt s (g m) < signedInt t (g n) ↔ signedInt s m < signedInt t n := by
  have hmn : g m < g n ↔ m < n := hg.lt_iff_lt
  have hnm : g n < g m ↔ n < m := hg.lt_iff_lt
  have hm : 0 < g m ↔ 0 < m := by simpa [h0] using hg.lt_iff_lt (a := 0) (b := m)
  have hn : 0 < g n ↔ 0 < n := by simpa [h0] using hg.lt_iff_lt (a := 0) (b := n)
  cases s <;> cases t <;> simp only [signedInt, Bool.false_eq_true, ↓reduceIte] <;> omega

theorem sign_sub_eq_ite (x y : ℤ) : (x - y).sign = if x < y then -1 else if y < x then 1 else 0 := by
  rcases lt_trichotomy x y with h | rfl | h
  · rw [if_pos h, Int.sign_eq_neg_one_of_neg (by omega)]
  · simp
  · rw [if_neg h.not_gt, if_pos h, Int.sign_eq_one_of_pos (by omega)]

theorem sign_signedInt_sub_of_lt (s t : Bool) {m n : Nat} (h : n < m) :
    (signedInt s m - signedInt t n).sign = if s then -1 else 1 := by
  have hn : -(n : ℤ) ≤ signedInt t n ∧ signedInt t n ≤ n := by cases t <;> simp [signedInt]
  cases s with
  | false => exact Int.sign_eq_one_of_pos (by simp only [signedInt, Bool.false_eq_true, ↓reduceIte]; omega)
  | true => exact Int.sign_eq_neg_one_of_neg (by simp only [signedInt, ↓reduceIte]; omega)

theorem signedInt_eq_zero_iff {s : Bool} {n : Nat} : signedInt s n = 0 ↔ n = 0 := by
  cases s <;> simp [signedInt]

/-- A finite value at the exponent `c + k`, scaled by `2 ^ k`, counts units of the exponent `c`. -/
theorem signedAt_add (neg : Bool) (m a k : Nat) (c : ℤ) (h : k ≤ a) :
    signedAt neg m (c + a) (c + k) * 2 ^ k = signedInt neg (m * 2 ^ a) := by
  have he : (c + a - (c + k)).toNat = a - k := by omega
  have hp : 2 ^ a = 2 ^ (a - k) * 2 ^ k := by rw [← pow_add, Nat.sub_add_cancel h]
  rw [hp, ← mul_assoc, signedInt_mul]
  simp only [signedAt, shiftUp, he, signedInt]
  push_cast
  rfl

/-- Finite values compare as their multiples of a common unit. -/
theorem Num.order_fin (s t : Bool) (m n a b : Nat) (c : ℤ) :
    (Num.fin s m (c + a)).order (Num.fin t n (c + b)) =
      (signedInt s (m * 2 ^ a) - signedInt t (n * 2 ^ b)).sign := by
  have hq : min (c + a) (c + b) = c + (min a b : Nat) := by omega
  rw [← signedAt_add s m a (min a b) c (min_le_left a b), ← signedAt_add t n b (min a b) c (min_le_right a b),
    ← sub_mul, Int.sign_mul, Int.sign_eq_one_of_pos (pow_pos two_pos _), mul_one, sign_sub_eq_ite, ← hq]
  rfl

/-! ### The fields of a word -/

namespace FmtSpec
variable (f : FmtSpec)

/-- The word's sign. -/
def negative (w : Nat) : Bool := w / f.signBit % 2 == 1

def isNan (w : Nat) : Bool := decide (f.infBits < w % f.signBit)

/-- A NaN with the top bit of its fraction clear (R46). -/
def signals (w : Nat) : Bool := f.isNan w && w / 2 ^ (f.frac - 1) % 2 == 0

theorem rank_eq (w : Nat) : f.rank w = signedInt (f.negative w) (w % f.signBit) := by
  simp [rank, signedInt, negative]

theorem exponent_eq (w : Nat) : w / 2 ^ f.frac % 2 ^ f.exps = w % f.signBit / 2 ^ f.frac := by
  rw [signBit, pow_add, Nat.mod_mul_right_div_self]

theorem fraction_eq (w : Nat) : w % 2 ^ f.frac = w % f.signBit % 2 ^ f.frac := by
  rw [signBit, pow_add, Nat.mod_mul_right_mod]

/-- The exponent field is full from infinity on. -/
theorem exponent_full_iff (w : Nat) : w % f.signBit / 2 ^ f.frac = 2 ^ f.exps - 1 ↔ f.infBits ≤ w % f.signBit := by
  have hlt : w % f.signBit / 2 ^ f.frac < 2 ^ f.exps := by
    rw [← f.exponent_eq]
    exact Nat.mod_lt _ (Nat.two_pow_pos _)
  rw [infBits, ← Nat.le_div_iff_mul_le (Nat.two_pow_pos _)]
  omega

theorem add_fraction_of_full {w : Nat} (h : f.infBits ≤ w % f.signBit) :
    f.infBits + w % 2 ^ f.frac = w % f.signBit := by
  rw [f.fraction_eq, infBits, ← (f.exponent_full_iff w).mpr h]
  exact Nat.div_add_mod' _ _

/-- What a magnitude counts of the least subnormal's exponent, before its own exponent. -/
def significand (n : Nat) : Nat := if n / 2 ^ f.frac = 0 then n % 2 ^ f.frac else 2 ^ f.frac + n % 2 ^ f.frac

/-- The value of a finite magnitude, in units of the least subnormal. -/
def steps (n : Nat) : Nat := f.significand n * 2 ^ (n / 2 ^ f.frac - 1)

theorem steps_zero : f.steps 0 = 0 := by simp [steps, significand]

theorem steps_fields (q : Nat) {r : Nat} (hr : r < 2 ^ f.frac) :
    f.steps (r + q * 2 ^ f.frac) = (if q = 0 then r else 2 ^ f.frac + r) * 2 ^ (q - 1) := by
  have hdiv : (r + q * 2 ^ f.frac) / 2 ^ f.frac = q := by
    rw [Nat.add_mul_div_right _ _ (Nat.two_pow_pos _), Nat.div_eq_of_lt hr, Nat.zero_add]
  have hmod : (r + q * 2 ^ f.frac) % 2 ^ f.frac = r := by rw [Nat.add_mul_mod_self_right, Nat.mod_eq_of_lt hr]
  simp only [steps, significand, hdiv, hmod]

/-- The next magnitude is one more of the present exponent's unit, across a change of the exponent too. -/
theorem steps_succ (n : Nat) : f.steps (n + 1) = f.steps n + 2 ^ (n / 2 ^ f.frac - 1) := by
  have hr : n % 2 ^ f.frac < 2 ^ f.frac := Nat.mod_lt _ (Nat.two_pow_pos _)
  have hn : n = n % 2 ^ f.frac + n / 2 ^ f.frac * 2 ^ f.frac := (Nat.mod_add_div' _ _).symm
  generalize n % 2 ^ f.frac = r at hr hn
  generalize n / 2 ^ f.frac = q at hn ⊢
  subst hn
  rw [steps_fields f q hr]
  rcases Nat.lt_or_eq_of_le (Nat.succ_le_of_lt hr) with hsame | hwrap
  · rw [show r + q * 2 ^ f.frac + 1 = r + 1 + q * 2 ^ f.frac by omega, steps_fields f q hsame]
    split
    · exact Nat.succ_mul _ _
    · exact Nat.succ_mul (2 ^ f.frac + r) _
  · rw [show r + q * 2 ^ f.frac + 1 = 0 + (q + 1) * 2 ^ f.frac by rw [Nat.succ_mul]; omega,
      steps_fields f (q + 1) (Nat.two_pow_pos _), if_neg q.succ_ne_zero, ← hwrap]
    cases q with
    | zero => simp
    | succ q => simp; ring

theorem strictMono_steps : StrictMono f.steps :=
  strictMono_nat_of_lt_succ fun n => by
    rw [steps_succ]
    exact Nat.lt_add_of_pos_right (Nat.two_pow_pos _)

end FmtSpec

/-! ### What a word reads as -/

section
variable {f : FmtSpec} {w : Nat}

theorem readNum_of_nan (hf : 0 < f.frac) (h : f.isNan w = true) :
    readNum f w = .nan (w / 2 ^ (f.frac - 1) % 2 == 0) := by
  have h : f.infBits < w % f.signBit := of_decide_eq_true h
  have hfrac := f.add_fraction_of_full h.le
  have ht : w % 2 ^ f.frac ≠ 0 := by omega
  have hp : 2 ^ f.frac = 2 ^ (f.frac - 1) * 2 := by rw [← pow_succ, Nat.sub_add_cancel hf]
  have hs : w % 2 ^ f.frac < 2 ^ (f.frac - 1) ↔ w / 2 ^ (f.frac - 1) % 2 = 0 := by
    rw [← Nat.div_eq_zero_iff_lt (Nat.two_pow_pos _), hp, Nat.mod_mul_right_div_self]
  simp only [readNum, f.exponent_eq, (f.exponent_full_iff w).mpr h.le, ↓reduceIte, ht, hs]
  rfl

theorem readNum_of_infinite (h : w % f.signBit = f.infBits) : readNum f w = .inf (f.negative w) := by
  have hfrac := f.add_fraction_of_full h.ge
  have ht : w % 2 ^ f.frac = 0 := by omega
  simp only [readNum, f.exponent_eq, (f.exponent_full_iff w).mpr h.ge, ↓reduceIte, ht, FmtSpec.negative]

theorem readNum_of_finite (h : w % f.signBit < f.infBits) :
    readNum f w = .fin (f.negative w) (f.significand (w % f.signBit))
      (f.emin - f.frac + (w % f.signBit / 2 ^ f.frac - 1 : Nat)) := by
  have he : ¬w % f.signBit / 2 ^ f.frac = 2 ^ f.exps - 1 := by rw [f.exponent_full_iff]; omega
  simp only [readNum, f.exponent_eq, he, ↓reduceIte, FmtSpec.significand, ← f.fraction_eq, FmtSpec.negative]
  split
  · next h0 => simp [h0]
  · next h0 =>
    obtain ⟨k, hk⟩ := Nat.exists_eq_succ_of_ne_zero h0
    rw [hk]
    congr 1
    simp only [FmtSpec.emin]
    omega

/-- A word that is no NaN is an infinity or finite. -/
theorem FmtSpec.infinite_or_finite (h : f.isNan w = false) :
    w % f.signBit = f.infBits ∨ w % f.signBit < f.infBits :=
  eq_or_lt_of_le (not_lt.mp (of_decide_eq_false h))

theorem readNum_isNan (hf : 0 < f.frac) : (readNum f w).isNan = f.isNan w := by
  cases h : f.isNan w with
  | true => rw [readNum_of_nan hf h]; rfl
  | false =>
    rcases FmtSpec.infinite_or_finite h with hw | hw
    · rw [readNum_of_infinite hw]; rfl
    · rw [readNum_of_finite hw]; rfl

theorem readNum_isSig (hf : 0 < f.frac) : (readNum f w).isSig = f.signals w := by
  rw [FmtSpec.signals]
  cases h : f.isNan w with
  | true => rw [readNum_of_nan hf h]; rfl
  | false =>
    rcases FmtSpec.infinite_or_finite h with hw | hw
    · rw [readNum_of_infinite hw]; rfl
    · rw [readNum_of_finite hw]; rfl

theorem readNum_neg? (h : f.isNan w = false) : (readNum f w).neg? = f.negative w := by
  rcases FmtSpec.infinite_or_finite h with hw | hw
  · rw [readNum_of_infinite hw]; rfl
  · rw [readNum_of_finite hw]; rfl

end

/-! ### Comparison -/

namespace FmtSpec

theorem significand_eq_zero_iff (f : FmtSpec) (n : Nat) : f.significand n = 0 ↔ n = 0 := by
  rw [significand]
  split
  · next h => rw [Nat.mod_eq_of_lt ((Nat.div_eq_zero_iff_lt (Nat.two_pow_pos _)).mp h)]
  · next h =>
    have hn : n ≠ 0 := by rintro rfl; simp at h
    simp [hn]

/-- Words of one rank other than 0 have one sign. -/
theorem negative_eq_decide_rank {f : FmtSpec} {w : Nat} (h : f.rank w ≠ 0) : f.negative w = decide (f.rank w < 0) := by
  rw [rank_eq] at h ⊢
  have hm : 0 < w % f.signBit := Nat.pos_of_ne_zero (signedInt_eq_zero_iff.not.mp h)
  cases f.negative w
  · exact (decide_eq_false (by simp only [signedInt, Bool.false_eq_true, ↓reduceIte]; omega)).symm
  · exact (decide_eq_true (by simp only [signedInt, ↓reduceIte]; omega)).symm

/-- −0 is below +0, and other numbers order as their ranks (R86). -/
def precedes (f : FmtSpec) (v w : Nat) : Bool :=
  f.rank v < f.rank w || (f.rank v == f.rank w && f.negative v && !f.negative w)

/-- A comparison of two words and the NV that it raises (R87). -/
def compare (f : FmtSpec) (c : FCond) (v w : Nat) : Bool × BitVec 6 :=
  let un := f.isNan v || f.isNan w
  let quiet : BitVec 6 := if f.signals v || f.signals w then 1 else 0
  let any : BitVec 6 := if un then 1 else 0
  match c with
  | .eq => (!un && f.rank v == f.rank w, quiet)
  | .ne => (un || f.rank v != f.rank w, quiet)
  | .un => (un, quiet)
  | .ord => (!un, quiet)
  | .lt => (!un && decide (f.rank v < f.rank w), any)
  | .le => (!un && decide (f.rank v ≤ f.rank w), any)
  | .gt => (!un && decide (f.rank w < f.rank v), any)
  | .ge => (!un && decide (f.rank w ≤ f.rank v), any)

end FmtSpec

theorem Raised.bits_nv (b : Bool) : ({ nv := b } : Raised).bits = if b then 1 else 0 := by
  cases b <;> rfl

section
variable {f : FmtSpec} {v w : Nat}

theorem readNum_isZero (hi : 0 < f.infBits) (h : f.isNan w = false) :
    (readNum f w).isZero = decide (f.rank w = 0) := by
  simp only [f.rank_eq, signedInt_eq_zero_iff]
  rcases FmtSpec.infinite_or_finite h with hw | hw
  · rw [readNum_of_infinite hw, hw, decide_eq_false hi.ne']
    rfl
  · rw [readNum_of_finite hw]
    simp only [Num.isZero, beq_eq_decide, f.significand_eq_zero_iff]

/-- Numbers, infinities among them, compare as their ranks. -/
theorem order_readNum (hi : 0 < f.infBits) (hv : f.isNan v = false) (hw : f.isNan w = false) :
    (readNum f v).order (readNum f w) = (f.rank v - f.rank w).sign := by
  rw [f.rank_eq, f.rank_eq]
  rcases FmtSpec.infinite_or_finite hv with hv | hv <;> rcases FmtSpec.infinite_or_finite hw with hw | hw
  · rw [readNum_of_infinite hv, readNum_of_infinite hw, hv, hw, sign_sub_eq_ite]
    cases f.negative v <;> cases f.negative w <;> simp [Num.order, signedInt] <;> omega
  · rw [readNum_of_infinite hv, readNum_of_finite hw, sign_signedInt_sub_of_lt _ _ (hw.trans_eq hv.symm)]
    rfl
  · rw [readNum_of_finite hv, readNum_of_infinite hw, ← neg_sub (signedInt _ _), Int.sign_neg,
      sign_signedInt_sub_of_lt _ _ (hv.trans_eq hw.symm)]
    cases f.negative w <;> rfl
  · rw [readNum_of_finite hv, readNum_of_finite hw, Num.order_fin, sign_sub_eq_ite, sign_sub_eq_ite]
    have hlt := signedInt_lt_iff_of_strictMono f.strictMono_steps f.steps_zero
    simp only [FmtSpec.steps] at hlt
    simp only [hlt]

theorem precedes_readNum (hi : 0 < f.infBits) (hv : f.isNan v = false) (hw : f.isNan w = false) :
    (if (readNum f v).isZero && (readNum f w).isZero then (readNum f v).neg? && !(readNum f w).neg?
      else decide ((readNum f v).order (readNum f w) < 0)) = f.precedes v w := by
  rw [readNum_isZero hi hv, readNum_isZero hi hw, readNum_neg? hv, readNum_neg? hw, order_readNum hi hv hw,
    FmtSpec.precedes]
  simp only [Int.sign_neg_iff, sub_neg]
  by_cases heq : f.rank v = f.rank w
  · by_cases hz : f.rank w = 0
    · simp [heq, hz]
    · simp [heq, hz, FmtSpec.negative_eq_decide_rank (heq ▸ hz), FmtSpec.negative_eq_decide_rank hz]
  · have hz : ¬(f.rank v = 0 ∧ f.rank w = 0) := fun h => heq (h.1.trans h.2.symm)
    simp [heq, hz]

/-- The order of R86 from above. -/
theorem follows_readNum (hi : 0 < f.infBits) (hv : f.isNan v = false) (hw : f.isNan w = false) :
    (if (readNum f v).isZero && (readNum f w).isZero then !(readNum f v).neg? && (readNum f w).neg?
      else decide (0 < (readNum f v).order (readNum f w))) = f.precedes w v := by
  simp only [← precedes_readNum hi hw hv, order_readNum hi hv hw, order_readNum hi hw hv, Int.sign_pos_iff,
    Int.sign_neg_iff, sub_pos, sub_neg, Bool.and_comm]

/-- R86 on words: the number where one operand is a NaN, and else the one that precedes the other or follows it. -/
theorem minMaxBits_eq (hf : 0 < f.frac) (hi : 0 < f.infBits) (wantMax : Bool) (v w : Nat) :
    minMaxBits f wantMax v w =
      (if f.isNan v && f.isNan w then f.nanBits else if f.isNan v then w else if f.isNan w then v
        else if wantMax then (if f.precedes w v then v else w) else if f.precedes v w then v else w,
        { nv := f.signals v || f.signals w }) := by
  simp only [minMaxBits, readNum_isNan hf, readNum_isSig hf]
  cases hv : f.isNan v with
  | true => cases f.isNan w <;> rfl
  | false =>
    cases hw : f.isNan w with
    | true => rfl
    | false =>
      simp only [precedes_readNum hi hv hw, follows_readNum hi hv hw]
      rfl

/-- R87 on words. The order that the model gives a NaN plays no part: an unordered pair is decided by the condition. -/
theorem fcompare_readNum (hf : 0 < f.frac) (hi : 0 < f.infBits) (c : FCond) (v w : Nat) :
    ((fcompare c (readNum f v) (readNum f w)).1, (fcompare c (readNum f v) (readNum f w)).2.bits) = f.compare c v w := by
  simp only [fcompare, FmtSpec.compare, readNum_isNan hf, readNum_isSig hf, ← Raised.bits_nv]
  cases hun : f.isNan v || f.isNan w with
  | true => cases c <;> simp
  | false =>
    obtain ⟨hv, hw⟩ := Bool.or_eq_false_iff.mp hun
    rw [order_readNum hi hv hw]
    cases c <;> simp [bne, beq_eq_decide, sub_eq_zero]

end

/-! ### The instructions -/

theorem negative_fp32_toNat (v : Word) : fp32.negative v.toNat = v.msb := by
  have h : v.toNat / 2 ^ 31 % 2 = 1 ↔ 2 ^ 31 ≤ v.toNat := by omega
  rw [BitVec.msb_eq_decide, FmtSpec.negative, beq_eq_decide]
  exact decide_eq_decide.mpr h

/-- FMIN's choice, or FMAX's, on two registers (R86). -/
theorem f32Result_minMaxBits (wantMax : Bool) (v w : Word) :
    let r := f32Result (minMaxBits fp32 wantMax v.toNat w.toNat)
    let before (x y : Word) : Bool :=
      fp32.rank x.toNat < fp32.rank y.toNat || (fp32.rank x.toNat == fp32.rank y.toNat && x.msb && !y.msb)
    (r.1, r.2.bits) =
      (if fp32.isNan v.toNat && fp32.isNan w.toNat then 0x7FC00000
        else if fp32.isNan v.toNat then w else if fp32.isNan w.toNat then v
        else if wantMax then (if before w v then v else w) else if before v w then v else w,
        if fp32.signals v.toNat || fp32.signals w.toNat then 1 else 0) := by
  simp only [minMaxBits_eq (f := fp32) (by decide) (by decide), f32Result, Raised.bits_nv, FmtSpec.precedes,
    negative_fp32_toNat, apply_ite (BitVec.ofNat 32), BitVec.ofNat_toNat, BitVec.setWidth_eq]
  rfl

theorem decode_fsel (sw : Bool) (d a b : BitVec 7) (c : BitVec 3) :
    decode (BitVec.ofBool sw ++ 0x26#7 ++ d ++ a ++ b ++ c) = .ok (.fsel sw d a b c) :=
  RoundTrip.fsel sw d a b c (wellFormed_of_single (by simp [Instr.regOperands]) rfl rfl rfl) _ rfl

/-- Settles O7. Each instruction is its shared shape, and what it reads compares as its words do. -/
theorem floatCompareAndSelect : Obligations.FloatCompareAndSelect := by
  intro sw c d a b q x z
  refine ⟨?fmin, ?fmax, ?fset, ?dset, ?fsel, decode_fsel sw d a b x⟩
  case fmin => exact writesRegFlags_of (fun _ => rfl) fun u => f32Result_minMaxBits false _ _
  case fmax => exact writesRegFlags_of (fun _ => rfl) fun u => f32Result_minMaxBits true _ _
  case fset => exact writesPredFlags_of (fun _ => rfl) fun u => fcompare_readNum (by decide) (by decide) c _ _
  case dset => exact writesPredFlags_of (fun _ => rfl) fun u => fcompare_readNum (by decide) (by decide) c _ _
  case fsel => exact writesReg_of (fun _ => rfl) fun _ => rfl

end Sys2Proof.Machine
end

section
/-! SUPPORT. What the end of an operation and an access to a channel leave as they were. -/
namespace Sys2Proof.Machine
open Sys2Proof

/-! ### Threads -/

theorem State.thread_of_not_holds {s : State} {th : ThreadRef} (h : s.holds th = false) : s.thread th = absentThread := by
  unfold State.holds at h
  unfold State.thread State.group State.team Team.group Tab.get
  cases ht : Tab.find s.teams th.team with
  | none => rfl
  | some t =>
    cases hg : Tab.find t.groups th.group with
    | none => simp [hg, Tab.find]
    | some g =>
      simp only [ht, hg, Option.isSome_eq_false_iff, Option.isNone_iff_eq_none] at h
      simp [hg, h]

theorem State.thread_modThread_of_not_holds {s : State} {th : ThreadRef} (f : Thread → Thread) (h : s.holds th = false) :
    (s.modThread th f).thread th = s.thread th := by
  rw [State.thread_of_not_holds h, State.thread_of_not_holds ((State.holds_modThread s th th f).trans h)]

/-- A reading of threads that a change of one keeps. -/
theorem State.thread_modThread_keeps {β : Type} (r : Thread → β) (s : State) (th u : ThreadRef) (f : Thread → Thread)
    (h : ∀ x, r (f x) = r x) : r ((s.modThread th f).thread u) = r (s.thread u) := by
  by_cases hu : u = th
  · subst hu
    cases hh : s.holds u with
    | true => rw [State.thread_modThread_same s u f hh, h]
    | false => rw [State.thread_modThread_of_not_holds f hh]
  · rw [State.thread_modThread_ne s th u f hu]

/-- The result stands with its operation, in a thread that the state holds or not. -/
theorem State.outs_giveResult (s : State) (th : ThreadRef) (id : Nat) (x : Result) :
    ((s.giveResult th id x).thread th).outs =
      (s.thread th).outs.map fun o => if o.op = id then { o with result := some x } else o := by
  unfold State.giveResult
  cases hh : s.holds th with
  | true => rw [State.thread_modThread_same s th _ hh]
  | false => rw [State.thread_modThread_of_not_holds _ hh, State.thread_of_not_holds hh]; rfl

theorem State.findReq_id {s : State} {id : Nat} {r : Req} (h : s.findReq id = some r) : r.id = id := by
  simpa using List.find?_some h

theorem State.dropReq_gone (s : State) (id : Nat) : ∀ q ∈ (s.dropReq id).reqs, q.id ≠ id := by
  intro q hq
  simpa using (List.mem_filter.mp hq).2

/-! ### What follows when an operation is over -/

/-- `t` is `s` after holds have ended, messages have left and solicits have been accepted: of its threads only the holds
have changed. -/
structure SettledFrom (s t : State) : Prop where
  rest : t = { s with
    teams := t.teams, cores := t.cores, messages := t.messages, irqs := t.irqs, roots := t.roots, solicits := t.solicits }
  threads : ∀ th, { t.thread th with holds := [] } = { s.thread th with holds := [] }

theorem SettledFrom.refl (s : State) : SettledFrom s s := ⟨rfl, fun _ => rfl⟩

theorem SettledFrom.trans {s t u : State} (a : SettledFrom s t) (b : SettledFrom t u) : SettledFrom s u where
  rest := by rw [b.rest, a.rest]
  threads th := (b.threads th).trans (a.threads th)

theorem SettledFrom.foldl {α : Type} {f : State → α → State} (hf : ∀ s a, SettledFrom s (f s a)) (l : List α)
    (s : State) : SettledFrom s (l.foldl f s) := by
  induction l generalizing s with
  | nil => exact SettledFrom.refl s
  | cons a l ih => exact (hf s a).trans (ih _)

theorem SettledFrom.modThread (s : State) (th : ThreadRef) (f : List Hold → List Hold) :
    SettledFrom s (s.modThread th fun x => { x with holds := f x.holds }) :=
  ⟨rfl, fun u => State.thread_modThread_keeps (fun x => { x with holds := [] }) s th u
    (fun x => { x with holds := f x.holds }) fun _ => rfl⟩

theorem State.settleHolds_from (s : State) (th : ThreadRef) : SettledFrom s (s.settleHolds th) := by
  unfold State.settleHolds
  dsimp only
  split
  · exact SettledFrom.refl s
  · have ended := SettledFrom.modThread s th fun hs =>
      hs.filter fun h => !((s.thread th).holds.filter s.endsHold).contains h
    split
    · exact ended.trans ⟨rfl, fun _ => rfl⟩
    · exact ended

theorem State.acceptSolicits_from (s : State) : SettledFrom s s.acceptSolicits := by
  unfold State.acceptSolicits
  refine SettledFrom.foldl (fun s q => ?_) _ s
  split
  · exact ⟨rfl, fun _ => rfl⟩
  · exact SettledFrom.refl s

theorem State.settle_from (s : State) : SettledFrom s s.settle := by
  have messages (t : State) : SettledFrom t t.sendMessages := ⟨rfl, fun _ => rfl⟩
  exact ((SettledFrom.foldl State.settleHolds_from s.allRefs s).trans (messages _)).trans (State.acceptSolicits_from _)

@[simp] theorem State.reqs_settle (s : State) : s.settle.reqs = s.reqs :=
  (congrArg State.reqs s.settle_from.rest).trans rfl
@[simp] theorem State.strings_settle (s : State) : s.settle.strings = s.strings :=
  (congrArg State.strings s.settle_from.rest).trans rfl
@[simp] theorem State.dirRegions_settle (s : State) : s.settle.dirRegions = s.dirRegions :=
  (congrArg State.dirRegions s.settle_from.rest).trans rfl

/-- A reading of threads that does not look at holds. -/
theorem State.thread_settle_keeps {β : Type} (r : Thread → β) (s : State) (th : ThreadRef)
    (h : ∀ x : Thread, r { x with holds := [] } = r x) : r (s.settle.thread th) = r (s.thread th) := by
  rw [← h, s.settle_from.threads th, h]

/-! ### Accesses to channels -/

/-- The channels of `t` are those of `s` but for the time of their last access (R342). -/
def State.SameChannels (s t : State) : Prop :=
  ∀ st ch, { t.channel st ch with lastAccess := 0 } = { s.channel st ch with lastAccess := 0 }

theorem State.SameChannels.isOffline {s t : State} (h : s.SameChannels t) (p : Nat) : t.isOffline p = s.isOffline p := by
  have hr (st ch : Nat) : (t.channel st ch).retired = (s.channel st ch).retired :=
    (congrArg Channel.retired (h st ch) :)
  have ho (st ch : Nat) : (t.channel st ch).offline = (s.channel st ch).offline :=
    (congrArg Channel.offline (h st ch) :)
  simp only [State.isOffline, State.servingChannel, hr, ho]

theorem State.channel_setChannel (s : State) (st ch a b : Nat) (x : Channel) :
    (s.setChannel st ch x).channel a b = if a * 32 + b = st * 32 + ch then x else s.channel a b := by
  unfold State.channel State.setChannel Tab.get
  rw [Tab.find_put]
  split <;> rfl

theorem State.touch_same (s : State) (l : Loc) :
    s.touch l = { s with channels := (s.touch l).channels } ∧ s.SameChannels (s.touch l) := by
  unfold State.touch
  split
  · next a =>
    dsimp only
    split
    · refine ⟨rfl, fun st ch => ?_⟩
      rw [State.channel_setChannel]
      split
      · next h => unfold State.channel; rw [h]
      · rfl
    · exact ⟨rfl, fun _ _ => rfl⟩
  · exact ⟨rfl, fun _ _ => rfl⟩

theorem State.touches_same (s : State) (ls : List Loc) :
    ls.foldl State.touch s = { s with channels := (ls.foldl State.touch s).channels } ∧
      s.SameChannels (ls.foldl State.touch s) := by
  induction ls generalizing s with
  | nil => exact ⟨rfl, fun _ _ => rfl⟩
  | cons l ls ih =>
    obtain ⟨hs, hc⟩ := s.touch_same l
    obtain ⟨ht, hd⟩ := ih (s.touch l)
    refine ⟨?_, fun st ch => (hd st ch).trans (hc st ch)⟩
    rw [List.foldl_cons, ht, hs]

/-- Accesses none of whose channels sleeps are made at once: their channels note the time, and nothing else changes
before what they are made for (R342). -/
theorem State.awake_of_none_asleep {s : State} {ls : List Loc} (h : ls.any s.asleep = false) :
    ∃ c, (∀ p, ({ s with channels := c } : State).isOffline p = s.isOffline p) ∧
      ∀ k, s.awake ls k = k { s with channels := c } := by
  obtain ⟨hs, hc⟩ := s.touches_same ls
  refine ⟨(ls.foldl State.touch s).channels, fun p => ?_, fun k => ?_⟩
  · rw [← hs, hc.isOffline]
  · rw [State.awake, h, if_neg Bool.false_ne_true, ← hs]

theorem State.want_same (s : State) (ls : List Loc) : s.want ls = { s with channels := (s.want ls).channels } := by
  unfold State.want
  induction ls generalizing s with
  | nil => rfl
  | cons l ls ih =>
    rw [List.foldl_cons, ih]
    cases l with
    | dev a => dsimp only; split <;> rfl
    | host a => rfl
    | peer k a => rfl

/-- Zeroing reaches channels and nothing else. -/
theorem State.zeroing_same (s : State) (ls : List Loc) : s.zeroing ls = { s with channels := (s.zeroing ls).channels } := by
  unfold State.zeroing
  rw [((s.want ls).touches_same ls).1, s.want_same ls]

end Sys2Proof.Machine
end

section
/-! PROOFS. Queries of succinct strings at the home stack (R202, R204, R205). -/
namespace Sys2Proof.Machine
open Sys2Proof

/-! ### Counts in the words of R204 -/

/-- O(i): the ones below position i. -/
def State.onesBelow (s : State) (x : Str) (i : Nat) : Nat := (List.range i).countP fun p => s.strBit x p

/-- EXCESS(i), and EXCESS(j − 1) with EXCESS(−1) = 0. -/
def State.excessAt (s : State) (x : Str) (i : Nat) : Int := 2 * (s.onesBelow x (i + 1) : Int) - (i + 1)
def State.excessBefore (s : State) (x : Str) (j : Nat) : Int := if j = 0 then 0 else s.excessAt x (j - 1)

theorem State.onesTo_eq (s : State) (x : Str) (i : Nat) : s.onesTo x i = s.onesBelow x i := by
  induction i with
  | zero => rfl
  | succ n ih =>
    rw [State.onesTo, ih, State.onesBelow, State.onesBelow, List.range_succ, List.countP_append, List.countP_singleton]
    cases s.strBit x n <;> rfl

theorem State.excessTo_succ (s : State) (x : Str) (i : Nat) : s.excessTo x (i + 1) = s.excessAt x i := by
  rw [State.excessTo, State.excessAt, State.onesTo_eq, Nat.cast_succ]

theorem State.excessTo_eq (s : State) (x : Str) (j : Nat) : s.excessTo x j = s.excessBefore x j := by
  cases j with
  | zero => rfl
  | succ n => exact s.excessTo_succ x n

/-- The bits of a string are read from memory alone. -/
theorem State.strBit_congr {s t : State} (h : t.mem = s.mem) : t.strBit = s.strBit := by
  funext x p
  rw [State.strBit, State.strBit, h]

theorem State.queryValue_congr {s t : State} (h : t.mem = s.mem) (x : Str) (f i : Nat) :
    t.queryValue x f i = s.queryValue x f i := by
  have hb := State.strBit_congr h
  have ho : t.onesTo x = s.onesTo x := by
    funext i
    rw [State.onesTo_eq, State.onesTo_eq, State.onesBelow, State.onesBelow, hb]
  have he : t.excessTo x = s.excessTo x := by
    funext i
    rw [State.excessTo, State.excessTo, ho]
  unfold State.queryValue
  rw [hb, ho, he]

/-! ### The least and the greatest position of a kind -/

/-- `v` is the least position that satisfies `f`, or NONE when there is none. -/
def NamesLeast (f : Nat → Prop) (v : DWord) : Prop :=
  (∃ p, f p ∧ (∀ q, f q → p ≤ q) ∧ v = BitVec.ofNat 64 p) ∨ ((∀ p, ¬f p) ∧ v = BitVec.allOnes 64)

/-- `v` is the greatest position that satisfies `f`, or NONE when there is none. -/
def NamesGreatest (f : Nat → Prop) (v : DWord) : Prop :=
  (∃ p, f p ∧ (∀ q, f q → q ≤ p) ∧ v = BitVec.ofNat 64 p) ∨ ((∀ p, ¬f p) ∧ v = BitVec.allOnes 64)

theorem NamesLeast.congr {f g : Nat → Prop} {v : DWord} (h : NamesLeast f v) (e : ∀ p, f p ↔ g p) : NamesLeast g v :=
  (funext fun p => propext (e p) : f = g) ▸ h

theorem NamesGreatest.congr {f g : Nat → Prop} {v : DWord} (h : NamesGreatest f v) (e : ∀ p, f p ↔ g p) :
    NamesGreatest g v :=
  (funext fun p => propext (e p) : f = g) ▸ h

theorem natValue_leastFrom (f : Nat → Bool) (lo hi : Nat) :
    NamesLeast (fun p => lo ≤ p ∧ p < hi ∧ f p = true) (natValue (leastFrom f lo hi)) := by
  rw [leastFrom, List.find?_map]
  cases h : (List.range (hi - lo)).find? (f ∘ (lo + ·)) with
  | none =>
    rw [List.find?_range_eq_none] at h
    refine .inr ⟨fun p ⟨hlo, hhi, hp⟩ => ?_, rfl⟩
    have := h (p - lo) (by omega)
    simp [Nat.add_sub_cancel' hlo, hp] at this
  | some k =>
    obtain ⟨hk, hlt, hbelow⟩ := List.find?_range_eq_some.mp h
    have hlt : k < hi - lo := List.mem_range.mp hlt
    refine .inl ⟨lo + k, ⟨by omega, by omega, hk⟩, fun q ⟨hlo, _, hq⟩ => ?_, rfl⟩
    by_contra hqk
    have := hbelow (q - lo) (by omega)
    simp [Nat.add_sub_cancel' hlo, hq] at this

theorem natValue_greatestBelow (f : Nat → Bool) (hi : Nat) :
    NamesGreatest (fun p => p < hi ∧ f p = true) (natValue (greatestBelow f hi)) := by
  induction hi with
  | zero => exact .inr ⟨fun p h => Nat.not_lt_zero p h.1, rfl⟩
  | succ n ih =>
    have e : greatestBelow f (n + 1) = if f n = true then some n else greatestBelow f n := by
      rw [greatestBelow, List.range_succ, List.reverse_append, List.reverse_singleton, List.singleton_append,
        List.find?_cons]
      cases f n <;> rfl
    rw [e]
    split
    · next hn => exact .inl ⟨n, ⟨n.lt_succ_self, hn⟩, fun q hq => Nat.le_of_lt_succ hq.1, rfl⟩
    · next hn =>
      refine ih.congr fun p => and_congr_left fun hp => ⟨Nat.lt_succ_of_lt, fun h => ?_⟩
      have hne : p ≠ n := fun h => hn (h ▸ hp)
      omega

/-- A query whose operand is out of range names NONE. -/
theorem namesLeast_ite {c : Prop} [Decidable c] {f g : Nat → Prop} {o : Option Nat} (h : c → NamesLeast f (natValue o))
    (e : ∀ p, g p ↔ c ∧ f p) : NamesLeast g (natValue (if c then o else none)) := by
  split
  · next hc => exact (h hc).congr fun p => by rw [e, and_iff_right hc]
  · next hc => exact .inr ⟨fun p hp => hc ((e p).mp hp).1, rfl⟩

theorem namesGreatest_ite {c : Prop} [Decidable c] {f g : Nat → Prop} {o : Option Nat}
    (h : c → NamesGreatest f (natValue o)) (e : ∀ p, g p ↔ c ∧ f p) : NamesGreatest g (natValue (if c then o else none)) := by
  split
  · next hc => exact (h hc).congr fun p => by rw [e, and_iff_right hc]
  · next hc => exact .inr ⟨fun p hp => hc ((e p).mp hp).1, rfl⟩

/-! ### The value of each query -/

theorem State.queryValue_rank0 (s : State) (x : Str) (i : Nat) :
    s.queryValue x 0 i = if i ≤ x.len then BitVec.ofNat 64 (i - s.onesBelow x i) else BitVec.allOnes 64 := by
  simp only [State.queryValue, State.onesTo_eq, noneValue]

theorem State.queryValue_rank1 (s : State) (x : Str) (i : Nat) :
    s.queryValue x 1 i = if i ≤ x.len then BitVec.ofNat 64 (s.onesBelow x i) else BitVec.allOnes 64 := by
  simp only [State.queryValue, State.onesTo_eq, noneValue]

theorem State.queryValue_sel0 (s : State) (x : Str) (k : Nat) :
    NamesLeast (fun p => p < x.len ∧ s.strBit x p = false ∧ p - s.onesBelow x p + 1 = k) (s.queryValue x 2 k) := by
  simp only [State.queryValue, State.onesTo_eq, ← ite_not (k = 0)]
  exact namesLeast_ite (fun _ => natValue_leastFrom _ 0 x.len) fun p => by
    have hk : p - s.onesBelow x p + 1 = k ↔ k ≠ 0 ∧ p - s.onesBelow x p = k - 1 := by omega
    simp only [Bool.and_eq_true, Bool.not_eq_true', beq_iff_eq, hk, Nat.zero_le, true_and]
    tauto

theorem State.queryValue_sel1 (s : State) (x : Str) (k : Nat) :
    NamesLeast (fun p => p < x.len ∧ s.strBit x p = true ∧ s.onesBelow x p + 1 = k) (s.queryValue x 3 k) := by
  simp only [State.queryValue, State.onesTo_eq, ← ite_not (k = 0)]
  exact namesLeast_ite (fun _ => natValue_leastFrom _ 0 x.len) fun p => by
    have hk : s.onesBelow x p + 1 = k ↔ k ≠ 0 ∧ s.onesBelow x p = k - 1 := by omega
    simp only [Bool.and_eq_true, beq_iff_eq, hk, Nat.zero_le, true_and]
    tauto

theorem State.queryValue_excess (s : State) (x : Str) (i : Nat) :
    s.queryValue x 4 i =
      if i < x.len then (BitVec.ofInt 40 (s.excessAt x i)).setWidth 64 else BitVec.allOnes 64 := by
  simp only [State.queryValue, State.excessTo_succ, noneValue]

theorem State.queryValue_close (s : State) (x : Str) (i : Nat) :
    NamesLeast (fun j => i < j ∧ j < x.len ∧ s.strBit x i = true ∧ s.excessAt x j = s.excessAt x i - 1)
      (s.queryValue x 5 i) := by
  simp only [State.queryValue, State.excessTo_succ]
  exact namesLeast_ite (fun _ => natValue_leastFrom _ (i + 1) x.len) fun j => by
    have hj : i < j ∧ j < x.len ↔ i < x.len ∧ i + 1 ≤ j ∧ j < x.len := by omega
    simp only [beq_iff_eq, ← and_assoc, hj]
    tauto

theorem State.queryValue_open (s : State) (x : Str) (i : Nat) :
    NamesGreatest (fun j => j < i ∧ i < x.len ∧ s.strBit x i = false ∧ s.excessBefore x j = s.excessAt x i)
      (s.queryValue x 6 i) := by
  simp only [State.queryValue, State.excessTo_succ, State.excessTo_eq]
  exact namesGreatest_ite (fun _ => natValue_greatestBelow _ i) fun j => by
    simp only [beq_iff_eq, Bool.not_eq_true']
    tauto

theorem State.queryValue_encl (s : State) (x : Str) (i : Nat) :
    NamesGreatest (fun j => j < i ∧ i < x.len ∧ s.strBit x i = true ∧ s.excessBefore x j = s.excessAt x i - 2)
      (s.queryValue x 7 i) := by
  simp only [State.queryValue, State.excessTo_succ, State.excessTo_eq]
  exact namesGreatest_ite (fun _ => natValue_greatestBelow _ i) fun j => by
    simp only [beq_iff_eq]
    tauto

/-! ### A query in its turn -/

theorem exec_succinctQuery {s : State} {id f : Nat} {r : Req} {h : Word} {o : DWord} (hr : s.findReq id = some r)
    (hk : r.kind = .query f h o) : exec (.succinctQuery id) s = .next (s.runQuery r f h o) := by
  show execSuccinctQuery id s = _
  simp only [execSuccinctQuery, hr, hk]

theorem State.admitReq_eq {s : State} {id : Nat} {r : Req} (hr : s.findReq id = some r) :
    s.admitReq r = { s with reqs := s.reqs.map fun q => if q.id = id then { q with admitted := some s.tick } else q } := by
  rw [State.admitReq, State.findReq_id hr]
  rfl

/-- The request is over and its thread has the result. -/
theorem State.answered (s : State) (th : ThreadRef) (id : Nat) (x : Result) :
    let t := ((s.giveResult th id x).dropReq id).settle
    t.mem = s.mem ∧ (∀ q ∈ t.reqs, q.id ≠ id) ∧ Answered s t th id x := by
  refine ⟨State.mem_settle _, ?_, ?_⟩
  · rw [State.reqs_settle]
    exact State.dropReq_gone _ id
  · exact (State.thread_settle_keeps Thread.outs _ th fun _ => rfl).trans (State.outs_giveResult s th id x)

/-- The answer of a succinct unit that works (R204, R205). -/
def State.queryReply (s : State) (x : Str) (r : Req) (f : Nat) (o : DWord) : Result :=
  if 5 ≤ f ∧ x.bp = false then { vals := dwordWords noneValue }
  else if 5 ≤ f ∧ x.unbal = true then { fault := some ⟨r.pc, codeUnbalanced, o, BitVec.ofNat 64 x.handle⟩ }
  else { vals := dwordWords (s.queryValue x f o.toNat), poison := s.strBad x (x.depends f o.toNat) }

theorem State.answer_eq {s : State} {x : Str} (hf : (s.splicer x.stack).failed = false) (r : Req) (f : Nat) (o : DWord) :
    s.answer x r f o = (s.queryReply x r f o, s) := by
  rw [State.answer, hf, if_neg Bool.false_ne_true, State.queryReply]
  split_ifs <;> rfl

/-- Channels that note an access leave what is poisoned. -/
theorem State.strBad_channels {s : State} {c : Tab Channel}
    (hc : ∀ p, ({ s with channels := c } : State).isOffline p = s.isOffline p) (x : Str) (n : Nat) :
    ({ s with channels := c } : State).strBad x n = s.strBad x n := by
  simp only [State.strBad, State.isPoisoned, hc]

theorem State.queryReply_channels {s : State} {c : Tab Channel}
    (hc : ∀ p, ({ s with channels := c } : State).isOffline p = s.isOffline p) (x : Str) (r : Req) (f : Nat) (o : DWord) :
    ({ s with channels := c } : State).queryReply x r f o = s.queryReply x r f o := by
  unfold State.queryReply
  rw [State.strBad_channels hc, State.queryValue_congr (s := s) (t := { s with channels := c }) rfl]

/-- The query is over, with memory as it was and `v` as its result. -/
def Answers (s : State) (id : Nat) (th : ThreadRef) (v : Result) : Prop :=
  ∃ t, exec (.succinctQuery id) s = .next t ∧ t.mem = s.mem ∧ (∀ q ∈ t.reqs, q.id ≠ id) ∧ Answered s t th id v

section
variable {s : State} {id f : Nat} {r : Req} {h : Word} {o : DWord} (hr : s.findReq id = some r)
  (hk : r.kind = .query f h o) (ha : r.admitted ≠ none) (ht : s.turnOf r h false = true)
include hr hk ha ht

/-- A query is answered NONE when its handle names no string of its tenant. -/
theorem query_of_no_string (hx : s.strOf r.tenant h = none) : Answers s id r.th { vals := dwordWords noneValue } := by
  obtain ⟨n, hn⟩ := Option.ne_none_iff_exists'.mp ha
  refine ⟨_, exec_succinctQuery hr hk, ?_⟩
  simp only [State.runQuery, hn, ht, hx, ↓reduceIte, State.findReq_id hr]
  exact s.answered r.th id _

/-- A query on a string is answered in its turn with the unit's reply, once its dependence set is VALID and the
channels of what it reads are awake. -/
theorem query_of_string {x : Str} (hx : s.strOf r.tenant h = some x) (hf : (s.splicer x.stack).failed = false)
    (hv : s.blocksValid x (x.depends f o.toNat) = true)
    (hl : ∀ j, j < x.depends f o.toNat → s.asleep (.dev (x.place (64 * j))) = false)
    (hd : (s.queryReads x f o.toNat).any s.asleep = false) : Answers s id r.th (s.queryReply x r f o) := by
  obtain ⟨n, hn⟩ := Option.ne_none_iff_exists'.mp ha
  have hawake : (x.lines (x.depends f o.toNat) ++ s.queryReads x f o.toNat).any s.asleep = false := by
    rw [List.any_append, hd, Bool.or_false, List.any_eq_false]
    intro l hl'
    obtain ⟨j, hj, rfl⟩ := List.mem_map.mp hl'
    simp [hl j (List.mem_range.mp hj)]
  obtain ⟨c, hc, hk'⟩ := State.awake_of_none_asleep hawake
  have hans : ({ s with channels := c } : State).answer x r f o = (s.queryReply x r f o, { s with channels := c }) := by
    rw [State.answer_eq (s := { s with channels := c }) hf, State.queryReply_channels hc]
  refine ⟨_, exec_succinctQuery hr hk, ?_⟩
  simp only [State.runQuery, hn, ht, hx, hf, hv, ↓reduceIte, Bool.false_eq_true, hk', hans, State.findReq_id hr]
  exact State.answered { s with channels := c } r.th id _

end

/-- A bracket query of a PLAIN string is NONE (R204). -/
theorem State.queryReply_plain {s : State} {x : Str} {f : Nat} (h : 5 ≤ f) (hb : x.bp = false) (r : Req) (o : DWord) :
    s.queryReply x r f o = { vals := [BitVec.allOnes 32, BitVec.allOnes 32] } :=
  (if_pos ⟨h, hb⟩).trans (by rw [noneValue]; rfl)

/-- A bracket query of an UNBAL string faults (R205). -/
theorem State.queryReply_unbalanced {s : State} {x : Str} {f : Nat} (h : 5 ≤ f) (hb : x.bp = true) (hu : x.unbal = true)
    (r : Req) (o : DWord) :
    s.queryReply x r f o = { fault := some ⟨r.pc, 0x009, o, BitVec.ofNat 64 x.handle⟩ } := by
  rw [State.queryReply, if_neg (by simp [hb]), if_pos ⟨h, hu⟩, codeUnbalanced]

/-- Any other query has its value. -/
theorem State.queryReply_value {s : State} {x : Str} {f : Nat} {o : DWord} (h : f < 5 ∨ (x.bp = true ∧ x.unbal = false))
    (hp : s.strBad x (x.depends f o.toNat) = none) (r : Req) :
    s.queryReply x r f o = { vals := dwordWords (s.queryValue x f o.toNat) } := by
  have hplain : ¬(5 ≤ f ∧ x.bp = false) := by
    rintro ⟨hf, hb⟩
    rcases h with h | ⟨h, -⟩
    · omega
    · simp [h] at hb
  have hunbal : ¬(5 ≤ f ∧ x.unbal = true) := by
    rintro ⟨hf, hb⟩
    rcases h with h | ⟨-, h⟩
    · omega
    · simp [h] at hb
  rw [State.queryReply, if_neg hplain, if_neg hunbal, hp]

end Sys2Proof.Machine
end

section
/-! PROOFS. BINS and BDEL at the home stack (R206): what they refuse, and the bits and the length they leave. -/
namespace Sys2Proof.Machine
open Sys2Proof

/-! ### Bytes of bits -/

/-- A sum of distinct powers of two, chosen by `g`. -/
def chosenPowers (g : Nat → Bool) (n : Nat) : Nat := ((List.range n).map fun j => if g j then 2 ^ j else 0).sum

theorem chosenPowers_succ (g : Nat → Bool) (n : Nat) :
    chosenPowers g (n + 1) = 2 ^ n * (g n).toNat + chosenPowers g n := by
  simp only [chosenPowers, List.range_succ, List.map_append, List.sum_append, List.map_singleton, List.sum_singleton]
  cases g n <;> simp [Nat.add_comm]

theorem chosenPowers_lt (g : Nat → Bool) (n : Nat) : chosenPowers g n < 2 ^ n := by
  induction n with
  | zero => exact Nat.one_pos
  | succ n ih =>
    rw [chosenPowers_succ, Nat.pow_succ]
    have := Nat.mul_le_mul_left (2 ^ n) (g n).toNat_le
    omega

theorem testBit_chosenPowers (g : Nat → Bool) {n k : Nat} (h : k < n) : (chosenPowers g n).testBit k = g k := by
  induction n with
  | zero => exact absurd h (Nat.not_lt_zero k)
  | succ n ih =>
    rw [chosenPowers_succ, Nat.testBit_two_pow_mul_add _ (chosenPowers_lt g n)]
    split
    · next hk => exact ih hk
    · next hk =>
      obtain rfl : k = n := by omega
      cases hg : g k <;> simp

theorem getLsbD_packBits (f : Nat → Bool) (k : Nat) {j : Nat} (h : j < 8) : (packBits f k).getLsbD j = f (8 * k + j) := by
  rw [packBits, BitVec.getLsbD_ofNat, decide_eq_true h, Bool.true_and]
  exact testBit_chosenPowers (fun j => f (8 * k + j)) h

/-! ### Bytes written one by one -/

/-- Byte `v k` is written at `a k`, for each k below `n`. -/
def State.putBytes (s : State) (a : Nat → Nat) (v : Nat → Byte) (n : Nat) : State :=
  (List.range n).foldl (fun s k => s.setBytes (.dev (a k)) [v k]) s

theorem State.putBytes_succ (s : State) (a : Nat → Nat) (v : Nat → Byte) (n : Nat) :
    s.putBytes a v (n + 1) = (s.putBytes a v n).setBytes (.dev (a n)) [v n] := by
  rw [State.putBytes, List.range_succ, List.foldl_append]
  rfl

theorem State.memOk_putBytes {s : State} (h : s.MemOk) (a : Nat → Nat) (v : Nat → Byte) (n : Nat) :
    (s.putBytes a v n).MemOk :=
  State.memOk_foldl _ (fun _ _ hs => State.memOk_setBytes _ _ hs) _ s h

theorem State.read_putBytes {s : State} (h : s.MemOk) {a : Nat → Nat} (v : Nat → Byte) {n : Nat}
    (ha : ∀ j k, j < k → k < n → a j ≠ a k) {p : Nat} :
    (∀ k, k < n → a k = p → Memory.read (s.putBytes a v n).mem p = v k) ∧
      ((∀ k, k < n → a k ≠ p) → Memory.read (s.putBytes a v n).mem p = Memory.read s.mem p) := by
  induction n with
  | zero => exact ⟨fun k hk => absurd hk (Nat.not_lt_zero k), fun _ => rfl⟩
  | succ n ih =>
    obtain ⟨hin, hout⟩ := ih fun j k hj hk => ha j k hj (Nat.lt_succ_of_lt hk)
    have hlast : Memory.read (s.putBytes a v (n + 1)).mem p =
        if p = a n then v n else Memory.read (s.putBytes a v n).mem p := by
      rw [State.putBytes_succ]
      exact Memory.read_write _ _ _ (State.memOk_putBytes h a v n)
    rw [hlast]
    refine ⟨fun k hk hp => ?_, fun hp => ?_⟩
    · rcases Nat.lt_succ_iff_lt_or_eq.mp hk with hk | rfl
      · have hne : p ≠ a n := fun e => ha k n hk (Nat.lt_succ_self n) (hp.trans e)
        rw [if_neg hne, hin k hk hp]
      · rw [if_pos hp.symm]
    · have hne : p ≠ a n := fun e => hp n (Nat.lt_succ_self n) e.symm
      rw [if_neg hne, hout fun k hk => hp k (Nat.lt_succ_of_lt hk)]

/-! ### What a rewrite of a string's lines does -/

/-- What every step of a fold keeps, the fold keeps. -/
theorem foldl_keeps {σ α β : Type} (r : σ → β) {g : σ → α → σ} (hg : ∀ s a, r (g s a) = r s) (l : List α) (s : σ) :
    r (l.foldl g s) = r s :=
  (List.foldl_hom r (g₂ := fun b _ => b) fun s a => (hg s a).symm).symm.trans (List.foldl_fixed l)

/-- A reading of states that marks, writes of bytes and poison leave is left by a rewrite. -/
theorem State.rewrite_keeps {β : Type} (r : State → β) (hm : ∀ (s : State) y j, r (s.mark y j) = r s)
    (hb : ∀ (s : State) l bs, r (s.setBytes l bs) = r s) (hp : ∀ (s : State) l, r (s.poisonLine l) = r s) (s : State)
    (x : Str) (f : Nat → Bool) (lo hi : Nat) (blocks : List Nat) (near : Nat → Option Nat) :
    r (s.rewrite x f lo hi blocks near) = r s := by
  have others (s : State) (b : Nat) : r (s.markOthers x b) = r s := by
    refine foldl_keeps r (fun s e => ?_) _ s
    split
    · rfl
    · exact hm s _ _
  unfold State.rewrite
  dsimp only
  rw [foldl_keeps r, foldl_keeps r (fun s k => hb s _ _), foldl_keeps r others]
  intro s b
  split
  · split
    · exact hp s _
    · rfl
  · rfl

theorem State.key_map_modStr (s : State) (key : Nat) (f : Str → Str) (hf : ∀ x, (f x).key = x.key) :
    (s.modStr key f).strings.map Str.key = s.strings.map Str.key := by
  rw [State.modStr, List.map_map]
  refine List.map_congr_left fun x _ => ?_
  rw [Function.comp_apply]
  split
  · exact hf x
  · rfl

theorem State.keys_mark (s : State) (x : Str) (b : Nat) : (s.mark x b).strings.map Str.key = s.strings.map Str.key := by
  unfold State.mark
  dsimp only
  split
  · rfl
  · split
    · rfl
    · exact s.key_map_modStr x.key _ fun _ => rfl

/-- The state without memory, poison, what the host caches, and the strings with their splicers. -/
def State.besideStrings (s : State) : State :=
  { s with
    mem := [], hostMem := [], peerMem := [], snoop := [], backInvalidated := [], poison := [], strings := [], splicers := [] }

theorem State.besideStrings_mark (s : State) (x : Str) (b : Nat) : (s.mark x b).besideStrings = s.besideStrings := by
  unfold State.mark
  dsimp only
  split
  · rfl
  · split <;> rfl

theorem State.setBytes_same (s : State) (l : Loc) (bs : List Byte) :
    (s.setBytes l bs).besideStrings = s.besideStrings ∧ (s.setBytes l bs).strings = s.strings := by
  cases l with
  | dev a =>
    unfold State.setBytes State.backInvalidate
    dsimp only
    split <;> exact ⟨rfl, rfl⟩
  | host a => exact ⟨rfl, rfl⟩
  | peer k a => exact ⟨rfl, rfl⟩

section
variable (s : State) (x : Str) (f : Nat → Bool) (lo hi : Nat) (blocks : List Nat) (near : Nat → Option Nat)

theorem State.besideStrings_rewrite : (s.rewrite x f lo hi blocks near).besideStrings = s.besideStrings :=
  State.rewrite_keeps State.besideStrings State.besideStrings_mark (fun s l bs => (s.setBytes_same l bs).1)
    (fun _ _ => rfl) s x f lo hi blocks near

theorem State.keys_rewrite : (s.rewrite x f lo hi blocks near).strings.map Str.key = s.strings.map Str.key :=
  State.rewrite_keeps (fun s => s.strings.map Str.key) State.keys_mark
    (fun s l bs => congrArg (List.map Str.key) (s.setBytes_same l bs).2) (fun _ _ => rfl) s x f lo hi blocks near

/-- Memory after a rewrite is that of its bytes alone. -/
theorem State.mem_rewrite : ∃ u : State, u.mem = s.mem ∧ (s.rewrite x f lo hi blocks near).mem =
    (u.putBytes (fun k => x.place (lo + k)) (fun k => packBits f (lo + k)) (hi - lo)).mem := by
  refine ⟨blocks.foldl (fun s b => s.markOthers x b) s, ?_, ?_⟩
  · refine State.mem_foldl _ (fun s b => ?_) blocks s
    refine State.mem_foldl _ (fun s e => ?_) _ s
    split
    · rfl
    · exact s.mem_mark _ _
  · unfold State.rewrite
    dsimp only
    rw [State.mem_foldl]
    · refine congrArg State.mem (List.foldl_ext _ _ _ fun s k hk => ?_)
      simp [List.mem_range.mp hk]
    · intro s b
      split
      · split <;> rfl
      · rfl

end

/-- A rewrite of bytes of the range gives each of their bits what `f` says and leaves the other bits of the range. -/
theorem State.strBit_rewrite {s : State} (hs : s.MemOk) {x : Str} {n : Nat}
    (hx : ∀ j k, j < k → k < n → x.place j ≠ x.place k) (f : Nat → Bool) (lo : Nat) {hi q : Nat} (hhi : hi ≤ n)
    (hq : q / 8 < n) (blocks : List Nat) (near : Nat → Option Nat) :
    (s.rewrite x f lo hi blocks near).strBit x q = if lo ≤ q / 8 ∧ q / 8 < hi then f q else s.strBit x q := by
  obtain ⟨u, hu, he⟩ := s.mem_rewrite x f lo hi blocks near
  obtain ⟨hin, hout⟩ := State.read_putBytes (State.memOk_congr hs hu) (a := fun k => x.place (lo + k))
    (fun k => packBits f (lo + k)) (n := hi - lo) (fun j k hj hk => hx _ _ (by omega) (by omega)) (p := x.place (q / 8))
  rw [State.strBit, State.strBit, he]
  split
  · next h =>
    have hk : lo + (q / 8 - lo) = q / 8 := by omega
    rw [hin (q / 8 - lo) (by omega) (by rw [hk]), hk, getLsbD_packBits f _ (Nat.mod_lt q (by decide)), Nat.div_add_mod]
  · next h =>
    rw [hout, hu]
    intro k hk hp
    rcases Nat.lt_trichotomy (lo + k) (q / 8) with hlt | heq | hgt
    · exact hx _ _ hlt hq hp
    · omega
    · exact hx _ _ hgt (by omega) hp.symm

/-! ### The update performed -/

/-- Bit `q` of the string after an update. -/
def updatedBit (old : Nat → Bool) (insert : Bool) (pos c len : Nat) (pattern : DWord) (q : Nat) : Bool :=
  if q < pos then old q
  else if insert then (if q < pos + c then pattern.getLsbD (q - pos) else if q < len + c then old (q - c) else old q)
  else if q + c < len then old (q + c) else if q < len then false else old q

/-- The new length. -/
def updatedLen (insert : Bool) (c len : Nat) : Nat := if insert then len + c else len - c

theorem updatedBit_of_outside {insert : Bool} {pos c len q : Nat} (hp : if insert then pos ≤ len else pos + c ≤ len)
    (h : ¬(pos / 8 ≤ q / 8 ∧ q / 8 < (max len (updatedLen insert c len) + 7) / 8)) (old : Nat → Bool) (pattern : DWord) :
    updatedBit old insert pos c len pattern q = old q := by
  unfold updatedBit
  unfold updatedLen at h
  split
  · rfl
  · cases insert with
    | true =>
      simp only [↓reduceIte] at h hp ⊢
      rw [if_neg (by omega), if_neg (by omega)]
    | false =>
      simp only [Bool.false_eq_true, ↓reduceIte] at h hp ⊢
      rw [if_neg (by omega), if_neg (by omega)]

theorem State.strBit_performUpdate {s : State} (hs : s.MemOk) {x : Str} (hc : x.cap % 512 = 0)
    (hx : ∀ j k, j < k → k < x.cap / 8 → x.place j ≠ x.place k) {insert : Bool} {pos c : Nat}
    (hp : if insert then pos ≤ x.len ∧ x.len + c ≤ x.cap else pos + c ≤ x.len) (hl : x.len ≤ x.cap) (pattern : DWord) {q : Nat}
    (hq : q < x.cap) :
    (s.performUpdate x insert pos pattern c).strBit x q = updatedBit (s.strBit x) insert pos c x.len pattern q := by
  have hlen : max x.len (updatedLen insert c x.len) ≤ x.cap := by
    unfold updatedLen
    cases insert with
    | true => simp only [↓reduceIte] at hp ⊢; omega
    | false => simp only [Bool.false_eq_true, ↓reduceIte]; omega
  have hpos : if insert then pos ≤ x.len else pos + c ≤ x.len := by
    cases insert with
    | true => exact hp.1
    | false => exact hp
  have hnew : (if insert then insertedBit (s.strBit x) pos c x.len pattern else deletedBit (s.strBit x) pos c x.len) =
      updatedBit (s.strBit x) insert pos c x.len pattern := by
    cases insert <;> rfl
  have hmem : (s.performUpdate x insert pos pattern c).mem = (s.rewrite x (updatedBit (s.strBit x) insert pos c x.len pattern)
      (pos / 8) ((max x.len (updatedLen insert c x.len) + 7) / 8) (updatedBlocks insert pos c x.len)
      (movedFrom insert pos c x.len)).mem := by
    rw [← hnew]
    rfl
  rw [State.strBit_congr hmem, State.strBit_rewrite hs hx _ _ (by omega) (by omega)]
  split
  · rfl
  · next h => exact (updatedBit_of_outside hpos h _ _).symm

/-- A new entry leaves all of the string but its directory. -/
theorem Str.setBlock_same (x : Str) (b : Nat) (w : Word) :
    x.setBlock b w = { x with
      entries := Tab.putEntry x.entries b w, supers := (x.setBlock b w).supers, nodes := (x.setBlock b w).nodes } := by
  simp only [Str.setBlock, Str.boundNodes, Str.boundSuper, Str.addOnes]

theorem Str.key_setBlock (x : Str) (b : Nat) (w : Word) : (x.setBlock b w).key = x.key := by
  rw [x.setBlock_same]
  rfl

theorem Str.len_setBlock (x : Str) (b : Nat) (w : Word) : (x.setBlock b w).len = x.len := by rw [x.setBlock_same]

theorem Str.entries_setBlock (x : Str) (b : Nat) (w : Word) : (x.setBlock b w).entries = Tab.putEntry x.entries b w := by
  rw [x.setBlock_same]

theorem Str.balance_same (x : Str) : x.balance = { x with unbal := x.balance.unbal } := by
  unfold Str.balance
  split <;> rfl

@[simp] theorem Str.key_balance (x : Str) : x.balance.key = x.key := (congrArg Str.key x.balance_same).trans rfl
@[simp] theorem Str.len_balance (x : Str) : x.balance.len = x.len := (congrArg Str.len x.balance_same).trans rfl
@[simp] theorem Str.stale_balance (x : Str) : x.balance.stale = x.stale := (congrArg Str.stale x.balance_same).trans rfl
@[simp] theorem Str.entry_balance (x : Str) (b : Nat) : x.balance.entry b = x.entry b :=
  (congrArg (Str.entry · b) x.balance_same).trans rfl

/-- The string has its new length. -/
theorem State.string_performUpdate {s : State} {x : Str} (hx : x ∈ s.strings) (insert : Bool) (pos : Nat) (pattern : DWord)
    (c : Nat) : ∃ y ∈ (s.performUpdate x insert pos pattern c).strings, y.key = x.key ∧ y.len = updatedLen insert c x.len := by
  unfold State.performUpdate
  dsimp only
  set u := s.rewrite x _ _ _ _ _ with hu
  have hkey : x.key ∈ u.strings.map Str.key := by
    rw [hu, State.keys_rewrite]
    exact List.mem_map_of_mem hx
  obtain ⟨z, hz, hk⟩ := List.mem_map.mp hkey
  refine ⟨_, List.mem_map_of_mem hz, ?_⟩
  rw [if_pos hk]
  exact ⟨(Str.key_balance _).trans ((foldl_keeps Str.key (fun y b => y.key_setBlock b _) _ _).trans hk),
    (Str.len_balance _).trans (foldl_keeps Str.len (fun y b => y.len_setBlock b _) _ _)⟩

theorem State.besideStrings_performUpdate (s : State) (x : Str) (insert : Bool) (pos : Nat) (pattern : DWord) (c : Nat) :
    (s.performUpdate x insert pos pattern c).besideStrings = s.besideStrings :=
  State.besideStrings_rewrite s x _ _ _ _ _

end Sys2Proof.Machine
end

section
/-! PROOFS. Updates, drops and repairs as steps of the home stack (R201, R206, R207). -/
namespace Sys2Proof.Machine
open Sys2Proof

/-! ### BINS and BDEL -/

/-- Once no team is to stop, a trap is the same at issue and after it. -/
theorem State.takeTrap_runs {s : State} {th : ThreadRef} (r : Report) (back : DWord) (h : s.holds th = true)
    (hh : s.handles th) :
    RunsTo s (s.takeTrap th .precise r back) th
      ((s.thread th).trapped r false back (s.gridOf th.team).handler s.tick) := by
  have e : s.takeTrap th .precise r back = s.issueTrap th .precise r back := by
    obtain ⟨hresp, hhandler, hin⟩ := hh
    simp only [State.takeTrap, State.issueTrap, State.meetTrap, hresp, hhandler, hin, ne_eq, not_false_eq_true, and_self,
      Bool.false_eq_true, ↓reduceIte]
  exact e ▸ State.issueTrap_runs r back h hh

/-- The update `r` was admitted and is in its turn, and its thread waits for it at issue (R206). -/
structure UpdateTurn (s : State) (id : Nat) (r : Req) (ins : Bool) (h : Word) (pos pattern : DWord) (c : Word) : Prop where
  found : s.findReq id = some r
  kind : r.kind = .update ins h pos pattern c
  admitted : r.admitted ≠ none
  turn : s.turnOf r h true = true
  here : s.holds r.th = true
  stalled : (s.thread r.th).status = .stalled
  free : (s.thread r.th).wait = .none

section
variable {s : State} {id : Nat} {r : Req} {ins : Bool} {h : Word} {pos pattern : DWord} {c : Word}

theorem UpdateTurn.run (u : UpdateTurn s id r ins h pos pattern c) :
    exec (.stringUpdatePerform id) s = .next (s.runUpdate r ins h pos pattern c) := by
  show execStringUpdatePerform id s = _
  simp only [execStringUpdatePerform, u.found, u.kind]

/-- An update that fails a check of R206 does nothing but trap its thread, precise, at the instruction. -/
theorem UpdateTurn.refused {e : Word × DWord} (u : UpdateTurn s id r ins h pos pattern c)
    (hv : ∀ x, s.strOf r.tenant h = some x → s.blocksValid x x.blocks = true)
    (hbad : updateBad (s.strOf r.tenant h) ins pos c = some e) (hc : s.handles r.th) :
    ∃ t, exec (.stringUpdatePerform id) s = .next t ∧ (∀ q ∈ t.reqs, q.id ≠ id) ∧ t.mem = s.mem ∧ t.strings = s.strings ∧
      (t.thread r.th).trap = ⟨r.pc, e.1, 0, e.2⟩ ∧ (t.thread r.th).frame.pc = r.pc ∧
      (t.thread r.th).pc = (s.gridOf r.th.team).handler := by
  obtain ⟨n, hn⟩ := Option.ne_none_iff_exists'.mp u.admitted
  have hdue : s.updateDue r ins h pos c = true := by
    rw [State.updateDue, u.turn, Bool.true_and]
    cases hx : s.strOf r.tenant h with
    | none => rfl
    | some x => rw [hx] at hbad; simp [hv x hx, hbad]
  have hlines : updateLines (s.strOf r.tenant h) ins pos c = [] := by
    unfold updateLines
    rw [hbad]
    cases s.strOf r.tenant h <;> rfl
  have hlive : ((s.dropReq id).thread r.th).status ≠ .exited := by
    rw [show (s.dropReq id).thread r.th = s.thread r.th from rfl, u.stalled]
    decide
  have hrun : s.runUpdate r ins h pos pattern c =
      ((s.dropReq id).takeTrap r.th .precise ⟨r.pc, e.1, 0, e.2⟩ r.pc).settle := by
    simp only [State.runUpdate, hn, hdue, hlines, hbad, ↓reduceIte, State.awake, List.any_nil, Bool.false_eq_true,
      List.foldl_nil, State.findReq_id u.found, hlive]
  have runs := State.takeTrap_runs (s := s.dropReq id) ⟨r.pc, e.1, 0, e.2⟩ r.pc u.here hc
  have keeps {β : Type} (g : Thread → β) (hg : ∀ x : Thread, g { x with holds := [] } = g x) :=
    (State.thread_settle_keeps g _ r.th hg).trans (congrArg g runs.thread)
  refine ⟨_, u.run.trans (congrArg _ hrun), ?_, ?_, ?_, keeps Thread.trap fun _ => rfl,
    keeps (fun x => x.frame.pc) fun _ => rfl, keeps Thread.pc fun _ => rfl⟩
  · rw [State.reqs_settle, runs.frame.rest]
    exact State.dropReq_gone s id
  · rw [State.mem_settle, runs.frame.rest]
    rfl
  · rw [State.strings_settle, runs.frame.rest]
    rfl

/-- After an update its thread, which waited at issue, is ready at the next instruction; the requests, and what the
update wrote, stand. -/
theorem State.performUpdate_advances {u : State} {th : ThreadRef} (hh : u.holds th = true)
    (hst : (u.thread th).status = .stalled) (hw : (u.thread th).wait = .none) (x : Str) (ins : Bool) (pos : Nat)
    (pattern : DWord) (c : Nat) :
    let v := u.performUpdate x ins pos pattern c
    let t := (v.advanceLive th).settle
    t.reqs = u.reqs ∧ (t.thread th).status = .ready ∧
      (t.thread th).pc = (u.thread th).replay.getD ((u.thread th).pc + 4) ∧ t.strings = v.strings ∧ t.mem = v.mem := by
  intro v t
  have hbeside : v.besideStrings = u.besideStrings := u.besideStrings_performUpdate x ins pos pattern c
  have hteams : v.teams = u.teams := (congrArg State.teams hbeside :)
  have hreqs : v.reqs = u.reqs := (congrArg State.reqs hbeside :)
  have hthread : v.thread th = u.thread th := by
    unfold State.thread State.group State.team
    rw [hteams]
  have hholds : v.holds th = true := by
    rw [← hh]
    unfold State.holds
    rw [hteams]
  have hlive : v.advanceLive th = v.modThread th (Thread.leaving v.tick) := by
    unfold State.advanceLive
    rw [hthread, hst, hw, if_neg (by decide), State.advance_eq]
  have ht : t = (v.modThread th (Thread.leaving v.tick)).settle := congrArg State.settle hlive
  have keeps {β : Type} (g : Thread → β) (hg : ∀ x : Thread, g { x with holds := [] } = g x) :
      g (t.thread th) = g ((u.thread th).leaving v.tick) := by
    rw [ht, State.thread_settle_keeps g _ th hg, State.thread_modThread_same v th _ hholds, hthread]
  refine ⟨?_, keeps Thread.status fun _ => rfl, keeps Thread.pc fun _ => rfl, ?_, ?_⟩
  · rw [ht, State.reqs_settle]
    exact hreqs
  · rw [ht, State.strings_settle]
    rfl
  · rw [ht, State.mem_settle]
    rfl

/-- The checks of R206 on a string and where they pass. -/
theorem updateBad_eq_none_iff (x : Str) (ins : Bool) (pos : DWord) (c : Word) :
    updateBad (some x) ins pos c = none ↔ 0 < c.toNat ∧ c.toNat ≤ 64 ∧
      (if ins then pos.toNat ≤ x.len ∧ x.len + c.toNat ≤ x.cap else pos.toNat + c.toNat ≤ x.len) := by
  unfold updateBad
  cases ins with
  | true =>
    simp only [↓reduceIte]
    split_ifs <;> simp <;> omega
  | false =>
    simp only [Bool.false_eq_true, ↓reduceIte]
    split_ifs <;> simp <;> omega

/-- An update that no check refuses is performed as one step, and its thread goes on. -/
theorem UpdateTurn.performed {x : Str} (u : UpdateTurn s id r ins h pos pattern c) (hm : s.MemOk)
    (hx : s.strOf r.tenant h = some x) (hv : s.blocksValid x x.blocks = true) (hgood : updateBad (some x) ins pos c = none)
    (hl : x.len ≤ x.cap) (hheld : s.updateHeld r x ins pos.toNat c.toNat = false)
    (hd : (updateLines (some x) ins pos c).any s.asleep = false) (hcap : x.cap % 512 = 0)
    (hinj : ∀ j k, j < k → k < x.cap / 8 → x.place j ≠ x.place k) :
    ∃ t, exec (.stringUpdatePerform id) s = .next t ∧ (∀ q ∈ t.reqs, q.id ≠ id) ∧ (t.thread r.th).status = .ready ∧
      (t.thread r.th).pc = (s.thread r.th).replay.getD ((s.thread r.th).pc + 4) ∧
      ∃ y ∈ t.strings, y.key = x.key ∧ y.len = updatedLen ins c.toNat x.len ∧
        ∀ q, q < x.cap → t.strBit x q = updatedBit (s.strBit x) ins pos.toNat c.toNat x.len pattern q := by
  obtain ⟨n, hn⟩ := Option.ne_none_iff_exists'.mp u.admitted
  obtain ⟨-, -, hp⟩ := (updateBad_eq_none_iff x ins pos c).mp hgood
  have hdue : s.updateDue r ins h pos c = true := by
    simp [State.updateDue, u.turn, hx, hv, hheld]
  obtain ⟨ch, -, hawake⟩ := State.awake_of_none_asleep hd
  set v : State := ({ s with channels := ch } : State).dropReq id with hdrop
  have hrun : s.runUpdate r ins h pos pattern c =
      ((v.performUpdate x ins pos.toNat pattern c.toNat).advanceLive r.th).settle := by
    simp only [State.runUpdate, hn, hdue, hx, hgood, hawake, ↓reduceIte, State.findReq_id u.found, hdrop]
  obtain ⟨hreqs, hready, hpc, hstrings, hmem⟩ :=
    State.performUpdate_advances (u := v) (th := r.th) u.here u.stalled u.free x ins pos.toNat pattern c.toNat
  refine ⟨_, u.run.trans (congrArg _ hrun), ?_, hready, hpc, ?_⟩
  · rw [hreqs]
    exact State.dropReq_gone _ id
  · have hin : x ∈ v.strings := by
      unfold State.strOf at hx
      split at hx
      · exact List.mem_of_find?_eq_some hx
      · cases hx
    obtain ⟨y, hy, hkey, hlen⟩ := State.string_performUpdate hin ins pos.toNat pattern c.toNat
    refine ⟨y, ?_, hkey, hlen, fun q hq => ?_⟩
    · rw [hstrings]
      exact hy
    · rw [State.strBit_congr hmem]
      exact State.strBit_performUpdate (s := v) (State.memOk_congr hm rfl) hcap hinj hp hl pattern hq

end

/-! ### SDROP -/

theorem exec_sdropPerform {s : State} {id : Nat} {r : Req} {h : Word} (hr : s.findReq id = some r) (hk : r.kind = .sdrop h) :
    exec (.sdropPerform id) s = .next (s.runDrop r h) := by
  show execSdropPerform id s = _
  simp only [execSdropPerform, hr, hk]

theorem State.removeStr_same (s : State) (x : Str) :
    (s.removeStr x).mem = s.mem ∧ (s.removeStr x).strings = s.strings.filter (fun y => y.key != x.key) ∧
      (s.removeStr x).dirRegions = s.dirRegions.filter fun e => e.1 != x.dirBase := by
  unfold State.removeStr
  dsimp only
  rw [s.zeroing_same]
  exact ⟨rfl, rfl, rfl⟩

/-- A drop in its turn ends, and takes its string, if its handle names one, and the string's directory region. -/
theorem drop_performed {s : State} {id : Nat} {r : Req} {h : Word} (hr : s.findReq id = some r) (hk : r.kind = .sdrop h)
    (ha : r.admitted ≠ none) (ht : s.turnOf r h true = true) :
    ∃ t, exec (.sdropPerform id) s = .next t ∧ (∀ q ∈ t.reqs, q.id ≠ id) ∧ t.mem = s.mem ∧
      (s.strOf r.tenant h = none → t.strings = s.strings) ∧
      ∀ x, s.strOf r.tenant h = some x → t.strings = s.strings.filter (fun y => y.key != x.key) ∧
        t.dirRegions = s.dirRegions.filter fun e => e.1 != x.dirBase := by
  obtain ⟨n, hn⟩ := Option.ne_none_iff_exists'.mp ha
  have gone (u : State) : ∀ q ∈ (u.dropReq id).settle.reqs, q.id ≠ id := by
    rw [State.reqs_settle]
    exact State.dropReq_gone u id
  cases hx : s.strOf r.tenant h with
  | none =>
    refine ⟨(s.dropReq id).settle, ?_, gone s, State.mem_settle _, fun _ => State.strings_settle _, by simp⟩
    rw [exec_sdropPerform hr hk]
    simp only [State.runDrop, hn, ht, hx, ↓reduceIte, State.findReq_id hr]
  | some x =>
    obtain ⟨hmem, hstrings, hregions⟩ := s.removeStr_same x
    refine ⟨((s.removeStr x).dropReq id).settle, ?_, gone _, (State.mem_settle _).trans hmem, by simp, ?_⟩
    · rw [exec_sdropPerform hr hk]
      simp only [State.runDrop, hn, ht, hx, ↓reduceIte, State.findReq_id hr]
    · rintro _ ⟨⟩
      exact ⟨(State.strings_settle _).trans hstrings, (State.dirRegions_settle _).trans hregions⟩

end Sys2Proof.Machine
end

section
/-! PROOFS. The splicer (R197, R201): the entry that it counts of a block, and the start and the end of a repair. -/
namespace Sys2Proof.Machine
open Sys2Proof Sys2Proof.Laws

/-! ### A block's entry -/

/-- The ones among the first `k` positions of a block, and the running excess e at its position `k` (R197). -/
def State.blockOnes (s : State) (x : Str) (b k : Nat) : Nat := (List.range k).countP fun p => s.strBit x (512 * b + p)
def State.blockExcess (s : State) (x : Str) (b k : Nat) : Int := 2 * (s.blockOnes x b (k + 1) : Int) - (k + 1)

theorem State.blockOnes_succ (s : State) (x : Str) (b k : Nat) :
    s.blockOnes x b (k + 1) = s.blockOnes x b k + (s.strBit x (512 * b + k)).toNat := by
  rw [State.blockOnes, List.range_succ, List.countP_append, List.countP_singleton, State.blockOnes]
  cases s.strBit x (512 * b + k) <;> rfl

theorem State.blockOnes_le (s : State) (x : Str) (b k : Nat) : s.blockOnes x b k ≤ k :=
  List.countP_le_length.trans_eq List.length_range

/-- What the count of a block has after `n` positions: their excess, the least and the greatest running excess, and the
ones. -/
def State.blockScan (s : State) (x : Str) (b n : Nat) : Int × Int × Int × Nat :=
  (List.range n).foldl (fun acc k =>
    let one := s.strBit x (512 * b + k)
    let e := acc.1 + if one then 1 else -1
    (e, if k = 0 then e else min acc.2.1 e, if k = 0 then e else max acc.2.2.1 e, acc.2.2.2 + one.toNat)) (0, 0, 0, 0)

theorem State.blockEntry_eq (s : State) (x : Str) (b : Nat) :
    let r := s.blockScan x b (min 512 (x.len - 512 * b))
    s.blockEntry x b = BitVec.ofInt 11 r.2.2.1 ++ BitVec.ofInt 11 r.2.1 ++ BitVec.ofNat 10 r.2.2.2 := rfl

theorem State.blockScan_zero (s : State) (x : Str) (b : Nat) : s.blockScan x b 0 = (0, 0, 0, 0) := rfl

theorem State.blockScan_counts (s : State) (x : Str) (b n : Nat) :
    (s.blockScan x b n).1 = 2 * (s.blockOnes x b n : Int) - n ∧ (s.blockScan x b n).2.2.2 = s.blockOnes x b n := by
  induction n with
  | zero => exact ⟨rfl, rfl⟩
  | succ n ih =>
    obtain ⟨he, ho⟩ := ih
    simp only [State.blockScan, List.range_succ, List.foldl_append, List.foldl_cons, List.foldl_nil] at he ho ⊢
    rw [he, ho, State.blockOnes_succ]
    cases s.strBit x (512 * b + n) <;> simp <;> omega

theorem State.blockScan_succ (s : State) (x : Str) (b n : Nat) :
    let e := s.blockExcess x b n
    (s.blockScan x b (n + 1)).2.1 = (if n = 0 then e else min (s.blockScan x b n).2.1 e) ∧
      (s.blockScan x b (n + 1)).2.2.1 = (if n = 0 then e else max (s.blockScan x b n).2.2.1 e) := by
  have he : (s.blockScan x b n).1 + (if s.strBit x (512 * b + n) then 1 else -1) = s.blockExcess x b n := by
    rw [(s.blockScan_counts x b n).1, State.blockExcess, State.blockOnes_succ]
    cases s.strBit x (512 * b + n) <;> simp <;> omega
  rw [← he]
  simp only [State.blockScan, List.range_succ, List.foldl_append, List.foldl_cons, List.foldl_nil, and_self]

/-- `v` is the least value of `e` below `n`. -/
def LeastValue (e : Nat → Int) (n : Nat) (v : Int) : Prop := (∃ k, k < n ∧ v = e k) ∧ ∀ k, k < n → v ≤ e k
/-- `v` is the greatest value of `e` below `n`. -/
def GreatestValue (e : Nat → Int) (n : Nat) (v : Int) : Prop := (∃ k, k < n ∧ v = e k) ∧ ∀ k, k < n → e k ≤ v

theorem LeastValue.succ {e : Nat → Int} {n : Nat} {v : Int} (h : LeastValue e n v) :
    LeastValue e (n + 1) (min v (e n)) := by
  obtain ⟨⟨k, hk, rfl⟩, hle⟩ := h
  refine ⟨?_, fun j hj => ?_⟩
  · rcases min_choice (e k) (e n) with h | h
    · exact ⟨k, by omega, h⟩
    · exact ⟨n, by omega, h⟩
  · rcases Nat.lt_succ_iff_lt_or_eq.mp hj with hj | rfl
    · exact (min_le_left _ _).trans (hle j hj)
    · exact min_le_right _ _

theorem GreatestValue.succ {e : Nat → Int} {n : Nat} {v : Int} (h : GreatestValue e n v) :
    GreatestValue e (n + 1) (max v (e n)) := by
  obtain ⟨⟨k, hk, rfl⟩, hle⟩ := h
  refine ⟨?_, fun j hj => ?_⟩
  · rcases max_choice (e k) (e n) with h | h
    · exact ⟨k, by omega, h⟩
    · exact ⟨n, by omega, h⟩
  · rcases Nat.lt_succ_iff_lt_or_eq.mp hj with hj | rfl
    · exact (hle j hj).trans (le_max_left _ _)
    · exact le_max_right _ _

theorem State.blockScan_bounds (s : State) (x : Str) (b n : Nat) :
    LeastValue (s.blockExcess x b) (n + 1) (s.blockScan x b (n + 1)).2.1 ∧
      GreatestValue (s.blockExcess x b) (n + 1) (s.blockScan x b (n + 1)).2.2.1 := by
  induction n with
  | zero =>
    obtain ⟨hmin, hmax⟩ := s.blockScan_succ x b 0
    rw [hmin, hmax]
    have only (k : Nat) (hk : k < 1) : s.blockExcess x b 0 = s.blockExcess x b k := by rw [Nat.lt_one_iff.mp hk]
    exact ⟨⟨⟨0, Nat.one_pos, rfl⟩, fun k hk => (only k hk).le⟩, ⟨0, Nat.one_pos, rfl⟩, fun k hk => (only k hk).ge⟩
  | succ n ih =>
    obtain ⟨hmin, hmax⟩ := s.blockScan_succ x b (n + 1)
    rw [hmin, hmax, if_neg n.succ_ne_zero, if_neg n.succ_ne_zero]
    exact ⟨ih.1.succ, ih.2.succ⟩

/-- A running excess in a block fits in 11 bits. -/
theorem State.toInt_blockExcess (s : State) (x : Str) (b : Nat) {k : Nat} (h : k < 512) :
    (BitVec.ofInt 11 (s.blockExcess x b k)).toInt = s.blockExcess x b k := by
  have hle := s.blockOnes_le x b (k + 1)
  have he : s.blockExcess x b k = 2 * (s.blockOnes x b (k + 1) : Int) - (k + 1) := rfl
  rw [BitVec.toInt_ofInt]
  exact Int.bmod_eq_of_le (by omega) (by omega)

/-- The fields of Table 13.3. -/
theorem entry_fields (greatest least : BitVec 11) (ones : BitVec 10) :
    let w := greatest ++ least ++ ones
    w.extractLsb' 21 11 = greatest ∧ w.extractLsb' 10 11 = least ∧ w.toNat % 1024 = ones.toNat := by
  refine ⟨?_, ?_, ?_⟩
  · rw [ext_hi _ _ _ _ rfl, ext_hi _ _ _ _ rfl]
    exact ext_all greatest
  · rw [ext_hi _ _ _ _ rfl, ext_lo _ _ _ _ rfl]
    exact ext_all least
  · have h := congrArg BitVec.toNat ((ext_lo (greatest ++ least) ones 0 10 rfl).trans (ext_all ones))
    rwa [BitVec.extractLsb'_toNat, Nat.shiftRight_zero] at h

/-- The entry of a block counts its positions below LEN, `n` of them, as R197 says. -/
theorem State.blockEntry_spec (s : State) (x : Str) (b : Nat) :
    let n := min 512 (x.len - 512 * b)
    let w := s.blockEntry x b
    (n = 0 → w = 0) ∧ w.toNat % 1024 = s.blockOnes x b n ∧
      (0 < n → LeastValue (s.blockExcess x b) n (w.extractLsb' 10 11).toInt ∧
        GreatestValue (s.blockExcess x b) n (w.extractLsb' 21 11).toInt) := by
  intro n w
  have hw := s.blockEntry_eq x b
  obtain ⟨hgreatest, hleast, hones⟩ := entry_fields (BitVec.ofInt 11 (s.blockScan x b n).2.2.1)
    (BitVec.ofInt 11 (s.blockScan x b n).2.1) (BitVec.ofNat 10 (s.blockScan x b n).2.2.2)
  dsimp only at hw
  rw [← hw] at hgreatest hleast hones
  have hn : n ≤ 512 := min_le_left _ _
  refine ⟨fun h0 => ?_, ?_, fun h0 => ?_⟩
  · change s.blockEntry x b = 0
    rw [hw, show min 512 (x.len - 512 * b) = 0 from h0, State.blockScan_zero]
    decide
  · refine hones.trans ?_
    have hle := s.blockOnes_le x b n
    rw [(s.blockScan_counts x b n).2, BitVec.toNat_ofNat, Nat.mod_eq_of_lt (by omega)]
  · obtain ⟨m, hm⟩ := Nat.exists_eq_succ_of_ne_zero h0.ne'
    obtain ⟨hmin, hmax⟩ := s.blockScan_bounds x b m
    rw [← Nat.succ_eq_add_one, ← hm] at hmin hmax
    obtain ⟨⟨i, hi, ei⟩, -⟩ := id hmin
    obtain ⟨⟨j, hj, ej⟩, -⟩ := id hmax
    refine ⟨?_, ?_⟩
    · rwa [hleast, ei, s.toInt_blockExcess x b (hi.trans_le hn), ← ei]
    · rwa [hgreatest, ej, s.toInt_blockExcess x b (hj.trans_le hn), ← ej]

/-! ### Repairs -/

@[simp] theorem Tab.get_putEntry_same {n : Nat} (t : Tab (BitVec n)) (b : Nat) (w : BitVec n) :
    Tab.get (Tab.putEntry t b w) b 0 = w := by
  have hdrop (t : Tab (BitVec n)) : Tab.find (Tab.drop t b) b = none := by
    induction t with
    | nil => rfl
    | cons e t ih =>
      obtain ⟨k, v⟩ := e
      unfold Tab.drop at ih ⊢
      by_cases hk : k = b
      · simpa [List.filter_cons, hk] using ih
      · simpa [List.filter_cons, hk, Tab.find] using ih
  unfold Tab.putEntry
  split
  · next h => rw [h, Tab.get, hdrop, Option.getD_none]
  · exact Tab.get_put_same _ _ _ _

theorem Str.entry_setBlock (x : Str) (b : Nat) (w : Word) : (x.setBlock b w).entry b = w := by
  rw [Str.entry, Str.entries_setBlock, Tab.get_putEntry_same]

theorem exec_splicerRepair {s : State} {stack : Nat} (hf : (s.splicer stack).failed = false)
    (ha : (s.splicer stack).repairing.isSome = true ∨ (s.splicer stack).queue ≠ []) :
    exec (.splicerRepair stack) s = .next (s.splice stack) := by
  have hacts : s.splicerActs stack = true := by
    rw [State.splicerActs, hf]
    rcases ha with h | h
    · simp [h]
    · simp [h]
  show execSplicerRepair stack s = _
  rw [execSplicerRepair, hacts, if_pos rfl]

section
variable {s : State} {stack key j : Nat} {x : Str} {w : Word} (hf : (s.splicer stack).failed = false)
  (hx : s.findStr key = some x)
include hf hx

/-- The splicer takes the block at the head of its queue, and counts its line (R201). -/
theorem repair_begins {rest : List (Nat × Nat)} (hr : (s.splicer stack).repairing = none)
    (hq : (s.splicer stack).queue = (key, j) :: rest) (hj : j < x.blocks)
    (ha : s.asleep (.dev (x.place (64 * j))) = false) :
    ∃ t, exec (.splicerRepair stack) s = .next t ∧ t.mem = s.mem ∧ (t.splicer stack).queue = rest ∧
      (t.splicer stack).repairing = some (key, j, s.blockEntry x j) := by
  obtain ⟨c, -, hawake⟩ := State.awake_of_none_asleep (s := s) (ls := [.dev (x.place (64 * j))]) (by simp [ha])
  have hentry : ({ s with channels := c } : State).blockEntry x j = s.blockEntry x j := by
    rw [State.blockEntry_eq, State.blockEntry_eq, State.blockScan, State.blockScan,
      State.strBit_congr (s := s) (t := { s with channels := c }) rfl]
  refine ⟨_, exec_splicerRepair hf (.inr (by simp [hq])), ?_⟩
  simp only [State.splice, hr, State.takeBlock, hq, hx, not_le.mpr hj, decide_false, Bool.false_eq_true, ↓reduceIte,
    hawake, hentry, false_and, State.splicer_setSplicer_same, State.mem_setSplicer, State.mem_modStr, and_self]

/-- A repair waits for the channels of what its entry's paths write, and wakes them (R342). -/
theorem repair_waits (hr : (s.splicer stack).repairing = some (key, j, w)) (ha : (x.writePath j).any s.asleep = true) :
    exec (.splicerRepair stack) s = .next (s.want (x.writePath j)) := by
  rw [exec_splicerRepair hf (.inl (by rw [hr]; rfl))]
  simp only [State.splice, hr, hx, State.awake, ha, ↓reduceIte]

/-- The end of a repair writes the block's entry; a block that was marked meanwhile is STALE again, and queued at the
tail (R201). -/
theorem repair_ends (hr : (s.splicer stack).repairing = some (key, j, w)) (ha : (x.writePath j).any s.asleep = false) :
    ∃ t, exec (.splicerRepair stack) s = .next t ∧ t.mem = s.mem ∧ (t.splicer stack).repairing = none ∧
      (t.splicer stack).queue =
        (if (s.splicer stack).again then (s.splicer stack).queue ++ [(key, j)] else (s.splicer stack).queue) ∧
      ∃ y ∈ t.strings, y.key = key ∧ y.entry j = w ∧
        y.stale = if (s.splicer stack).again then insertNat x.stale j else x.stale := by
  obtain ⟨c, -, hawake⟩ := State.awake_of_none_asleep ha
  have hkey : x.key = key := by simpa using List.find?_some hx
  refine ⟨_, exec_splicerRepair hf (.inl (by rw [hr]; rfl)), ?_⟩
  have hx' : ({ s with channels := c } : State).findStr key = some x := hx
  simp only [State.splice, hr, hx, hx', hawake, State.finishRepair,
    State.splicer_setSplicer_same, State.mem_setSplicer, State.mem_modStr, true_and]
  refine ⟨rfl, _, List.mem_map_of_mem (List.mem_of_find?_eq_some hx), ?_⟩
  rw [if_pos hkey]
  have hnew := (x.key_setBlock j w).trans hkey
  have hentry := x.entry_setBlock j w
  split
  · exact ⟨hnew, hentry, rfl⟩
  · exact ⟨(Str.key_balance _).trans hnew, (Str.entry_balance _ j).trans hentry, Str.stale_balance _⟩

end

end Sys2Proof.Machine
end

section
/-! PROOFS. The home stack's operations on a string, together. -/
namespace Sys2Proof.Machine
open Sys2Proof

/-- The refusals of R206, in their order. -/
theorem updateBad_some (x : Str) (ins : Bool) (pos : DWord) (c : Word) :
    (c.toNat = 0 ∨ 64 < c.toNat → updateBad (some x) ins pos c = some (0x002, 2)) ∧
    (0 < c.toNat → c.toNat ≤ 64 → ins = true → x.len < pos.toNat → updateBad (some x) ins pos c = some (0x002, 3)) ∧
    (0 < c.toNat → c.toNat ≤ 64 → ins = true → pos.toNat ≤ x.len → x.cap < x.len + c.toNat →
      updateBad (some x) ins pos c = some (0x00A, BitVec.ofNat 64 x.handle)) ∧
    (0 < c.toNat → c.toNat ≤ 64 → ins = false → x.len < pos.toNat + c.toNat →
      updateBad (some x) ins pos c = some (0x002, 3)) := by
  simp only [updateBad, codeIllegalOperand, codeCapacity]
  refine ⟨fun hc => if_pos hc, ?_, ?_, ?_⟩
  · rintro h0 h1 rfl hp
    rw [if_neg (by omega), if_pos rfl, if_pos hp]
  · rintro h0 h1 rfl hp hcap
    rw [if_neg (by omega), if_pos rfl, if_neg (by omega), if_pos hcap]
  · rintro h0 h1 rfl hp
    rw [if_neg (by omega), if_neg Bool.false_ne_true, if_pos hp]

theorem mem_insertNat (l : List Nat) (n : Nat) : n ∈ insertNat l n := by
  induction l with
  | nil => exact List.mem_singleton_self n
  | cons k l ih =>
    unfold insertNat
    split
    · exact List.mem_cons_self
    · split
      · next h => exact h ▸ List.mem_cons_self
      · exact List.mem_cons_of_mem k ih

/-- Settles O34. A query's value is read off its search over positions; an update, a drop and a repair each are one step
whose effect on the bits, the table of strings and the splicer is stated above. -/
theorem stringsAtTheHomeStack : Obligations.StringsAtTheHomeStack := by
  intro s hm bit ones excess before least greatest value gone
  refine ⟨?query, ?update, ?drop, ?splicer⟩
  case query =>
    intro id f r h o hr hk hf ends
    refine ⟨fun ha hadm => ⟨_, ?_, rfl⟩, fun ha ht => ⟨query_of_no_string hr hk ha ht, fun x hx hu hv hl hd => ?_⟩⟩
    · rw [exec_succinctQuery hr hk, State.runQuery, ha]
      dsimp only
      rw [hadm, if_pos rfl, State.admitReq_eq hr]
    · have answers := query_of_string hr hk ha ht hx hu hv hl hd
      refine ⟨fun h5 hb => ?_, fun h5 hb hub => ?_, fun hkind hbad => ⟨s.queryValue x f o.toNat, ?_, ?_⟩⟩
      · exact State.queryReply_plain h5 hb r o ▸ answers
      · exact State.queryReply_unbalanced h5 hb hub r o ▸ answers
      · obtain rfl | rfl | rfl | rfl | rfl | rfl | rfl | rfl :
            f = 0 ∨ f = 1 ∨ f = 2 ∨ f = 3 ∨ f = 4 ∨ f = 5 ∨ f = 6 ∨ f = 7 := by omega
        · exact s.queryValue_rank0 x _
        · exact s.queryValue_rank1 x _
        · exact s.queryValue_sel0 x _
        · exact s.queryValue_sel1 x _
        · exact s.queryValue_excess x _
        · exact s.queryValue_close x _
        · exact s.queryValue_open x _
        · exact s.queryValue_encl x _
      · exact State.queryReply_value hkind hbad r ▸ answers
  case update =>
    intro id r ins h pos pattern c hr hk ha ht hh hst hw ends refused
    have u : UpdateTurn s id r ins h pos pattern c := ⟨hr, hk, ha, ht, hh, hst, hw⟩
    have refuses {code : Word} {aux : DWord}
        (hv : ∀ x, s.strOf r.tenant h = some x → s.blocksValid x x.blocks = true)
        (hbad : updateBad (s.strOf r.tenant h) ins pos c = some (code, aux)) : refused code aux :=
      u.refused hv hbad
    refine ⟨fun hx => refuses (by simp [hx]) (by rw [hx]; rfl), fun x hx hv => ?_⟩
    have refusesString {code : Word} {aux : DWord} (hbad : updateBad (some x) ins pos c = some (code, aux)) :
        refused code aux := refuses (by rw [hx]; rintro _ ⟨⟩; exact hv) (by rw [hx]; exact hbad)
    obtain ⟨hcount, hinsert, hcapacity, hdelete⟩ := updateBad_some x ins pos c
    refine ⟨fun hn => refusesString (hcount hn), fun h0 h1 hi hp => refusesString (hinsert h0 h1 hi hp),
      fun h0 h1 hi hp hcap => refusesString (hcapacity h0 h1 hi hp hcap),
      fun h0 h1 hi hp => refusesString (hdelete h0 h1 hi hp), fun h0 h1 hp hl hheld hd hcap hinj => ?_⟩
    exact u.performed hm hx hv ((updateBad_eq_none_iff x ins pos c).mpr ⟨h0, h1, hp⟩) hl hheld hd hcap hinj
  case drop => exact fun id r h hr hk ha ht => drop_performed hr hk ha ht
  case splicer =>
    intro stack key j x hf hx ends n e
    refine ⟨fun rest hr hq hj ha => ?_, fun w hr ha => repair_waits hf hx hr ha, fun w hr ha => ?_⟩
    · obtain ⟨t, ht, hmem, hqueue, hrep⟩ := repair_begins hf hx hr hq hj ha
      obtain ⟨hzero, hones, hbounds⟩ := s.blockEntry_spec x j
      refine ⟨t, ht, hmem, hqueue, _, hrep, hzero, hones, fun h0 => ?_⟩
      obtain ⟨⟨hmin, hmin'⟩, hmax, hmax'⟩ := hbounds h0
      exact ⟨hmin, hmin', hmax, hmax'⟩
    · obtain ⟨t, ht, hmem, hrep, hqueue, y, hy, hkey, hentry, hstale⟩ := repair_ends hf hx hr ha
      refine ⟨fun hag => ?_, fun hag => ?_⟩
      · rw [hag, if_neg Bool.false_ne_true] at hqueue hstale
        exact ⟨t, ht, hmem, hrep, hqueue, y, hy, hkey, hentry, hstale⟩
      · rw [hag, if_pos rfl] at hqueue hstale
        exact ⟨t, ht, hmem, hrep, hqueue, y, hy, hkey, hstale ▸ mem_insertNat x.stale j⟩

end Sys2Proof.Machine
end
